-- ==== Sys2Proof/Word.lean ====
section
/-! DEFINITION. The word types of the part and the byte-order helpers that fix R10 (little-endian) once. -/

namespace Sys2Proof

abbrev Byte := BitVec 8
abbrev Word := BitVec 64
abbrev Half := BitVec 32

/-- A register number, 0 to 31 (R75, R205). -/
abbrev Reg := Fin 32

/-- A sparse table: key and value pairs, keys strictly rising, no entry equal to the default. -/
abbrev Table (α : Type) := List (Nat × α)

end Sys2Proof
end

