-- ==== Sys2Proof/Syntax.lean ====
section
/-! DEFINITION. The commands of the block: one constructor of Instr for each row of spec/opcode_table.json,
with the operands the row's chapter gives it. -/

namespace Sys2Proof

/-- A hardware thread: core number (R15) and thread number (R109). -/
structure Tid where
  core : Fin 512
  thr : Fin 8
  deriving DecidableEq, Repr

/-- The scopes of R289. -/
inductive Scope where
  | core | cluster | die | system
  deriving DecidableEq, Repr

/-- The addressing mode of the M layout (R91). -/
inductive MMode where
  | disp (d : BitVec 10)
  | post (d : BitVec 10)
  | pre (d : BitVec 10)
  | idx (rb : Reg) (scale : BitVec 2)
  deriving DecidableEq, Repr

/-- Access sizes of R91: 1, 2, 4 and 8 bytes. -/
inductive Size where
  | b1 | b2 | b4 | b8
  deriving DecidableEq, Repr

/-- The short operations of R84. -/
inductive ShortOp where
  | nop
  | mov (rd ra : Reg) | add (rd ra : Reg) | sub (rd ra : Reg) | and (rd ra : Reg) | or (rd ra : Reg)
  | xor (rd ra : Reg) | shl (rd ra : Reg) | shr (rd ra : Reg) | sar (rd ra : Reg)
  | addi (rd : Reg) (imm : BitVec 5) | shli (rd : Reg) (imm : BitVec 5) | shri (rd : Reg) (imm : BitVec 5)
  | sari (rd : Reg) (imm : BitVec 5) | li (rd : Reg) (imm : BitVec 5)
  | neg (rd ra : Reg) | fadd (rd ra : Reg) | fsub (rd ra : Reg) | fmul (rd ra : Reg)
  | min (rd ra : Reg) | max (rd ra : Reg) | clr (rd : Reg) | slt (rd ra : Reg) | sltu (rd ra : Reg)
  deriving DecidableEq, Repr

/-- Who makes an access: a thread of a core (its privilege is read from the state), a core's DMA engine,
a skiver, the command processor, the management plane, the host port, or a peer device (R113, R148, R263). -/
inductive Agent where
  | thread (t : Tid)
  | dma (c : Fin 512)
  | skiver (s : Fin 80)
  | cp
  | mgmt
  | host
  | peer (dev : BitVec 10)
  deriving DecidableEq, Repr

/-- Statuses of remote accesses (R149, R314). -/
inductive Status where
  | ok | nowin | bound | data | unreach
  deriving DecidableEq, Repr

/-- What the world answers where an access leaves the part (host aperture R433, peer device R406):
a status and the bytes of a read. An access that stays on the part ignores it. -/
structure ExtAns where
  status : Status
  data : List Byte
  deriving DecidableEq, Repr

/-- A bus access: a read of `len` bytes or a write with one enable a byte (R147). -/
inductive Acc where
  | read (off : Nat) (len : Nat)
  | write (off : Nat) (data : List Byte) (en : List Bool)
  deriving DecidableEq, Repr

/-- What a packet is for (R371); the numbers of a frame's KIND follow this order (log 21). -/
inductive PktKind where
  | read | write | record | contribution | posting | status | data
  deriving DecidableEq, Repr

/-- How a packet is copied on its way (R371, R378). -/
inductive Multicast where
  | none | row | column | edgeRow
  deriving DecidableEq, Repr

/-- The header of an on-die packet, as it arrives (R371). `dest` numbers the target's router and port. -/
structure Packet where
  dest : BitVec 16
  src : Fin 597
  mid : Fin 64 := 0
  ph : Bool := true
  mc : Multicast := .none
  cls : BitVec 2 := 1
  rsp : Bool := false
  kind : PktKind
  slot : Fin 128
  gen : Bool := false
  len : BitVec 4 := 1
  cm : Bool := false
  ce : Bool := false
  crc : Half
  deriving DecidableEq, Repr

/-- A host completion (R433). -/
inductive HostCpl where
  | success | unsupported | abort | timeout | poisoned
  deriving DecidableEq, Repr

/-- The unit of a pace monitor (R29, R35). -/
inductive PaceUnit where
  | cluster (k : Fin 64)
  | slice (s : Fin 80)
  deriving DecidableEq, Repr

/-- Which configuration register of a cinch group is written (R283, R288). -/
inductive CinchReg where
  | node (k : Fin 64)
  | root
  | xcfg
  deriving DecidableEq, Repr

/-- The reporter of a cinch report at the root: a cluster node, a child device, or the parent's release (R279). -/
inductive CinchFrom where
  | node (k : Fin 64)
  | child
  | parent
  deriving DecidableEq, Repr

/-- Keeper registers (R165). -/
inductive KeepReg where
  | base | bound | ctl
  deriving DecidableEq, Repr

/-- Storage that an upset can strike (R154, R161, R317, R328, R427). -/
inductive UpsetPlace where
  | spad (c : Fin 512) (word : Fin 524288)
  | dram (s : Fin 80) (sector : Fin 402653184)
  | skvBuf (s : Fin 80) (word : Fin 131072)
  | ringMem (word : Fin 524288)
  | dcache (c : Fin 512) (set : Fin 64) (way : Fin 8)
  | icache (c : Fin 512) (line : Nat)
  deriving DecidableEq, Repr

/-- A fenceable or reported unit (R448); 7 to 10 are reported only. -/
inductive OutOfService where
  | cinchRoot | commandProcessor | hostPort
  deriving DecidableEq, Repr

/-- A stage of link training (R416): equalised lanes, measured flight time in ns, received device number. -/
inductive TrainStage where
  | start
  | equalise (lane0 lane1 : Bool)
  | measure (flightNs : Nat)
  | exchange (peer : BitVec 10)
  deriving DecidableEq, Repr

/-- A latigo frame of the AXM-4820 format (R404): header words 0 to 3 and payload; `fecOk` says
whether the FEC corrected the codeword. -/
structure Frame where
  w0 : Word
  w1 : Word
  w2 : Word
  w3 : Word
  payload : List Byte
  fecOk : Bool
  deriving DecidableEq, Repr

/-- Origin of a management request (R463). -/
inductive MgmtOrigin where
  | mailbox (id : Nat)
  | doe
  | smbus
  | vdm
  deriving DecidableEq, Repr

/-- Direction of the plane mailbox (R26). -/
inductive MailDir where
  | toMgmt | toCp
  deriving DecidableEq, Repr

/-- Protective trip moves of R483 are reported with the sensor or rail index. -/
inductive RowCol where
  | row | column
  deriving DecidableEq, Repr

/-- The commands. Thread instructions carry the thread that issues them; register rows carry the agent
that accesses; command rows carry the number of the command in progress; message rows the number of
the message in flight. -/
inductive Instr where
  -- scalar integer group (R108)
  | add (t : Tid) (rd ra rb : Reg)
  | sub (t : Tid) (rd ra rb : Reg)
  | and (t : Tid) (rd ra rb : Reg)
  | or (t : Tid) (rd ra rb : Reg)
  | xor (t : Tid) (rd ra rb : Reg)
  | shl (t : Tid) (rd ra rb : Reg)
  | shr (t : Tid) (rd ra rb : Reg)
  | sar (t : Tid) (rd ra rb : Reg)
  | mul (t : Tid) (rd ra rb : Reg)
  | mulh (t : Tid) (rd ra rb : Reg)
  | mulhu (t : Tid) (rd ra rb : Reg)
  | div (t : Tid) (rd ra rb : Reg)
  | divu (t : Tid) (rd ra rb : Reg)
  | rem (t : Tid) (rd ra rb : Reg)
  | remu (t : Tid) (rd ra rb : Reg)
  | min (t : Tid) (rd ra rb : Reg)
  | max (t : Tid) (rd ra rb : Reg)
  | minu (t : Tid) (rd ra rb : Reg)
  | maxu (t : Tid) (rd ra rb : Reg)
  | slt (t : Tid) (rd ra rb : Reg)
  | sltu (t : Tid) (rd ra rb : Reg)
  | seq (t : Tid) (rd ra rb : Reg)
  | neg (t : Tid) (rd ra : Reg)
  -- F64 group (R106, R108)
  | fAdd (t : Tid) (rd ra rb : Reg)
  | fSub (t : Tid) (rd ra rb : Reg)
  | fMul (t : Tid) (rd ra rb : Reg)
  | fDiv (t : Tid) (rd ra rb : Reg)
  | fSqrt (t : Tid) (rd ra : Reg)
  | fMin (t : Tid) (rd ra rb : Reg)
  | fMax (t : Tid) (rd ra rb : Reg)
  | fEq (t : Tid) (rd ra rb : Reg)
  | fLt (t : Tid) (rd ra rb : Reg)
  | fLe (t : Tid) (rd ra rb : Reg)
  | fCvtI (t : Tid) (rd ra : Reg)
  | iCvtF (t : Tid) (rd ra : Reg)
  | fAbs (t : Tid) (rd ra : Reg)
  | fNeg (t : Tid) (rd ra : Reg)
  | fFma (t : Tid) (rd ra rb : Reg)
  -- move and tag group (R108)
  | mov (t : Tid) (rd ra : Reg)
  | tagRd (t : Tid) (rd ra : Reg)
  | bits (t : Tid) (rd ra : Reg)
  | fbits (t : Tid) (rd ra : Reg)
  | clr (t : Tid) (rd : Reg)
  | tagSet (t : Tid) (rd ra rb : Reg)
  | ofs (t : Tid) (rd ra : Reg)
  | sel (t : Tid) (rd ra : Reg)
  -- immediates (R107)
  | mka (t : Tid) (rd ra : Reg) (selector : BitVec 8)
  | addi (t : Tid) (rd ra : Reg) (imm : BitVec 14)
  | andi (t : Tid) (rd ra : Reg) (imm : BitVec 14)
  | ori (t : Tid) (rd ra : Reg) (imm : BitVec 14)
  | xori (t : Tid) (rd ra : Reg) (imm : BitVec 14)
  | shli (t : Tid) (rd ra : Reg) (imm : BitVec 6)
  | shri (t : Tid) (rd ra : Reg) (imm : BitVec 6)
  | sari (t : Tid) (rd ra : Reg) (imm : BitVec 6)
  | slti (t : Tid) (rd ra : Reg) (imm : BitVec 14)
  | sltiu (t : Tid) (rd ra : Reg) (imm : BitVec 14)
  | li (t : Tid) (rd : Reg) (imm : BitVec 19)
  | lih (t : Tid) (rd : Reg) (imm : BitVec 19)
  | insnPair (t : Tid) (hi lo : ShortOp)
  -- memory (R78, R79, R91, R93)
  | ld (t : Tid) (rd ra : Reg) (size : Size) (mode : MMode)
  | ldx (t : Tid) (rd ra : Reg) (size : Size) (mode : MMode)
  | ldS (t : Tid) (rd ra : Reg) (size : Size) (mode : MMode)
  | ldF (t : Tid) (rd ra : Reg) (mode : MMode)
  | st (t : Tid) (rs ra : Reg) (size : Size) (mode : MMode)
  | ldT (t : Tid) (rd ra : Reg) (mode : MMode)
  | stT (t : Tid) (rs ra : Reg) (mode : MMode)
  | ls (t : Tid) (rd ra : Reg) (size : Size) (mode : MMode)
  | ss (t : Tid) (rs ra : Reg) (size : Size) (mode : MMode)
  | ldAcq (t : Tid) (rd ra : Reg) (scope : Scope) (size : Size) (disp : BitVec 10)
  | stRel (t : Tid) (rs ra : Reg) (scope : Scope) (size : Size) (disp : BitVec 10)
  | fenceAcq (t : Tid) (scope : Scope)
  | fenceRel (t : Tid) (scope : Scope)
  | fenceBoth (t : Tid) (scope : Scope)
  | push (t : Tid) (ra : Reg)
  | pop (t : Tid) (rd : Reg)
  | globalResponse (t : Tid) (ext : ExtAns)
  -- control flow (R94..R104)
  | bEq (t : Tid) (ra rb : Reg) (off : BitVec 14)
  | bNe (t : Tid) (ra rb : Reg) (off : BitVec 14)
  | bLt (t : Tid) (ra rb : Reg) (off : BitVec 14)
  | bGe (t : Tid) (ra rb : Reg) (off : BitVec 14)
  | bLtu (t : Tid) (ra rb : Reg) (off : BitVec 14)
  | bGeu (t : Tid) (ra rb : Reg) (off : BitVec 14)
  | bZ (t : Tid) (ra : Reg) (off : BitVec 14)
  | bNz (t : Tid) (ra : Reg) (off : BitVec 14)
  | jmp (t : Tid) (off : BitVec 24)
  | call (t : Tid) (off : BitVec 24)
  | jmpR (t : Tid) (ra : Reg)
  | callR (t : Tid) (ra : Reg)
  | callM (t : Tid) (ra : Reg) (mode : Bool)
  | ret (t : Tid)
  | loop (t : Tid) (ra : Reg) (n : BitVec 14)
  | rds (t : Tid) (rd : Reg) (sp : BitVec 3)
  | wrs (t : Tid) (sp : BitVec 3) (ra : Reg)
  | gate (t : Tid) (n : BitVec 14)
  | eret (t : Tid)
  | segH (t : Tid) (rd : Reg) (selector : BitVec 8)
  | segQ (t : Tid) (rd ra : Reg) (perm : Bool)
  | segInv (t : Tid) (all : Bool) (selector : BitVec 8)
  | scalarNop (t : Tid)
  | illegalInstruction (t : Tid)
  -- threads (R111..R133)
  | shadowBankEntry (c : Fin 512)
  | blockingWaitComplete (t : Tid)
  | deadlock (c : Fin 512)
  | start (a : Agent) (t : Tid)
  | stop (a : Agent) (t : Tid)
  | resume (a : Agent) (t : Tid)
  | kill (a : Agent) (t : Tid)
  -- matrix engine (R170..R204)
  | tcfg (t : Tid) (d : Fin 8) (ra : Reg)
  | tcfgRd (t : Tid) (rd : Reg) (tile : Fin 8)
  | tLd (t : Tid) (d : Fin 8) (ra : Reg)
  | tLdCommit (t : Tid)
  | tSt (t : Tid) (tile : Fin 8) (ra : Reg)
  | tStComplete (t : Tid)
  | tRel (t : Tid) (mask : BitVec 8)
  | tMma (t : Tid) (n : Fin 2) (a b : Fin 8) (reuseA reuseB : Bool) (chunk : BitVec 2)
  | matrixStart (t : Tid)
  | tMmaCommit (t : Tid)
  | tDrain (t : Tid) (n : Fin 2) (d : Fin 8) (ds : Bool) (fuse : BitVec 2) (fs : Bool) (f : Fin 8) (cvm : BitVec 2) (ra rb : Reg)
  | tDrainComplete (t : Tid)
  | tClr (t : Tid) (mask : BitVec 2)
  | tScale (t : Tid) (n : Fin 2) (ra rb : Reg)
  | tSave (t : Tid) (item : BitVec 4) (ra : Reg)
  | tRest (t : Tid) (item : BitVec 4) (ra : Reg)
  | tRds (t : Tid) (rd : Reg) (sel : BitVec 3)
  | mtxArmSpec (a : Agent) (c : Fin 512)
  | mtxArmAmax (a : Agent) (c : Fin 512) (n : Fin 2)
  -- vector engine (R205..R226)
  | vLd (t : Tid) (vd ra : Reg)
  | vSt (t : Tid) (vs ra : Reg)
  | vArithmetic (t : Tid) (vd va vb : Reg) (m : Fin 8) (fn : BitVec 6)
  | vCompare (t : Tid) (md : Fin 8) (va vb : Reg) (m : Fin 8) (fn : BitVec 6)
  | vSpecialFunction (t : Tid) (vd va : Reg) (m : Fin 8) (fn : BitVec 2)
  | vRsum (t : Tid) (vd va : Reg) (m : Fin 8) (int : Bool)
  | vRmax (t : Tid) (vd va : Reg) (m : Fin 8) (int : Bool)
  | vRmin (t : Tid) (vd va : Reg) (m : Fin 8) (int : Bool)
  | vDot (t : Tid) (n : Fin 2) (va vb : Reg) (fmt : BitVec 4) (chunk : BitVec 2)
  | vDget (t : Tid) (vd : Reg) (n : Fin 2)
  | vDclr (t : Tid) (mask : BitVec 2)
  | vCvt (t : Tid) (vd va : Reg) (src dst : BitVec 4) (cvm : BitVec 2) (p : BitVec 3)
  | vSexp (t : Tid) (vd va vb : Reg) (m : Fin 8)
  | vTk (t : Tid) (vd va : Reg) (k : BitVec 6)
  | vRand (t : Tid) (vd : Reg)
  | vBcast (t : Tid) (vd ra : Reg)
  | vGet (t : Tid) (rd va : Reg) (lane : BitVec 6)
  | vMaskLogic (t : Tid) (md ma mb : Fin 8) (fn : BitVec 2)
  | vSave (t : Tid) (item : Reg) (ra : Reg)
  | vRest (t : Tid) (item : Reg) (ra : Reg)
  | vInsnComplete (c : Fin 512)
  | vecArmAmax (a : Agent) (c : Fin 512)
  -- DMA engine (R227..R245)
  | dmaH (t : Tid) (rd : Reg) (ch : Fin 16)
  | dmaArm (t : Tid) (ra rb : Reg)
  | dmaWait (t : Tid) (rd ra : Reg) (nb : Bool)
  | dmaStop (t : Tid) (ra : Reg)
  | dmaCtlStop (a : Agent) (c : Fin 512) (ch : Fin 16)
  | dmaStartDelay (c : Fin 512) (ch : Fin 16)
  | dmaStartAfterChannel (c : Fin 512) (ch : Fin 16)
  | dmaRequest (c : Fin 512) (ch : Fin 16)
  | dmaRequestStatus (c : Fin 512) (ch : Fin 16) (ext : ExtAns)
  | dmaChainRead (c : Fin 512) (ch : Fin 16)
  | dmaStopped (c : Fin 512) (ch : Fin 16)
  -- events and messages (R246..R288)
  | evWait (t : Tid) (rd ra : Reg)
  | evPoll (t : Tid) (rd ra : Reg)
  | evSig (t : Tid) (ra : Reg)
  | mqH (t : Tid) (rd ra : Reg) (ext : BitVec 16)
  | mqPut (t : Tid) (ra : Reg)
  | mqPutr (t : Tid) (ra rb : Reg)
  | mqCommitBlocking (t : Tid) (rd ra rb : Reg) (cls : BitVec 2)
  | mqCommitNonblocking (t : Tid) (rd ra rb : Reg) (cls : BitVec 2)
  | mqCommitPosted (t : Tid) (rd ra rb : Reg) (cls : BitVec 2)
  | commitStatus (id : Nat)
  | postedResend (id : Nat)
  | mqDrop (t : Tid)
  | messageDelivery (id : Nat)
  | combiningContribution (id : Nat)
  | combinedResultDelivery (c : Fin 512) (q : Fin 32)
  | mqRecv (t : Tid) (rd ra : Reg) (nb : Bool)
  | mqDone (t : Tid) (ra : Reg)
  | mqDisp (t : Tid)
  | handlerDispatch (t : Tid)
  | mqCtlWrite (a : Agent) (c : Fin 512) (q : Fin 32) (value : Half)
  | mqBaseSizeWrite (a : Agent) (c : Fin 512) (q : Fin 32) (size : Bool) (value : Half)
  | cinchArrive (t : Tid) (g : Fin 64)
  | cinchNodeArrival (c : Fin 512) (g : Fin 64)
  | cinchRootReport (src : CinchFrom) (g : Fin 64)
  | cinchCompletion (c : Fin 512) (g : Fin 64)
  | cinchConfigWrite (a : Agent) (r : CinchReg) (g : Fin 64) (value : Half)
  -- scratchpad, keepers, caches (R138..R166)
  | remoteAccess (a : Agent) (c : Fin 512) (acc : Acc)
  | keeperConfigWrite (a : Agent) (c : Fin 512) (n : Fin 16) (r : KeepReg) (value : Half)
  | spadPortmapWrite (a : Agent) (c : Fin 512) (value : Half)
  | spadBurnishVisit (c : Fin 512) (g : Fin 4)
  | spadBurnishForced (c : Fin 512) (g : Fin 4)
  | spadBurnishSweep (a : Agent) (c : Fin 512)
  | dcacheFillComplete (c : Fin 512) (ext : ExtAns)
  | dcacheWritebackComplete (c : Fin 512) (i : Nat) (ext : ExtAns)
  | flush (a : Agent) (c : Fin 512)
  | inval (a : Agent) (c : Fin 512)
  | dcacheActionComplete (c : Fin 512)
  | icacheInval (a : Agent) (c : Fin 512)
  -- pacers and registers
  | pacerLoRead (a : Agent) (k : Fin 64)
  | paceMeasurement (u : PaceUnit) (pace : BitVec 16)
  | pacerCalibration (trims : List (BitVec 16))
  | pacerCalLapse (k : Fin 64)
  | registerWrite (a : Agent) (addr : BitVec 48) (size : Size) (value : Word)
  -- memory slices (R307..R326)
  | sliceRequest (a : Agent) (s : Fin 80) (acc : Acc)
  | slicePatrolVisit (s : Fin 80)
  | sliceBurnishSweep (a : Agent) (s : Fin 80)
  | refresh (s : Fin 80)
  | refreshMultiplierRise (t : Fin 20) (temp : BitVec 8)
  | refreshMultiplierFall (t : Fin 20) (temp : BitVec 8)
  | stackClockLoss (t : Fin 20)
  -- skivers (R327..R366)
  | skiverPosting (id : Nat)
  | skvDescriptorStart (s : Fin 80) (prio : Bool)
  | skGather (s : Fin 80) (prio : Bool)
  | skMatvec (s : Fin 80) (prio : Bool)
  | skAttend (s : Fin 80) (prio : Bool)
  | skTopk (s : Fin 80) (prio : Bool)
  | skAppend (s : Fin 80) (prio : Bool)
  | skScatterAdd (s : Fin 80) (prio : Bool)
  | skCopy (s : Fin 80) (prio : Bool)
  | skFill (s : Fin 80) (prio : Bool)
  | skvResultDelivery (s : Fin 80) (prio : Bool) (ext : ExtAns)
  | skvDeliveryStatus (s : Fin 80) (prio : Bool)
  | skvDescriptorComplete (s : Fin 80) (prio : Bool)
  | skvBufferAccess (a : Agent) (s : Fin 80) (acc : Acc)
  | edgeWindowWrite (a : Agent) (south : Bool) (off : BitVec 20) (data : List Byte) (en : List Bool)
  | skvArmAmax (a : Agent) (s : Fin 80)
  -- fabric (R367..R400)
  | meshMulticastWrite (a : Agent) (rc : RowCol) (i : Fin 8) (off : BitVec 25) (data : List Byte) (en : List Bool)
  | meshArrival (a : Agent) (h : Packet) (addr : BitVec 48) (acc : Acc) (ext : ExtAns)
  | meshResponse (port : Fin 597) (h : Packet) (data : List Byte)
  | meshResendTimeout (port : Fin 597) (slot : Fin 128)
  | tokenBucketRefill (port : Fin 597)
  | cmapGather
  | planeFenceDrainTimeout (p : Fin 4)
  -- latigo links (R401..R419)
  | frameReceive (l : Fin 48) (f : Frame)
  | latigoMulticast (a : Agent) (rc : RowCol) (addr : BitVec 48) (data : List Byte) (answers : List (Nat × Status))
  | latResendTimeout (port : Fin 597) (slot : Fin 128) (mcol : Fin 25)
  | remoteRecordExpiry (slice : Bool) (unit : Fin 80) (key : Nat)
  | linkTraining (l : Fin 48) (stage : TrainStage)
  | linkTrainingRetry (l : Fin 48)
  | linkDown (l : Fin 48)
  | latigoRefclkLoss
  | latGroupWrite (a : Agent) (g : Fin 3) (value : Half)
  | latRetryWrite (a : Agent) (value : Half)
  -- host interface (R420..R437)
  | doorbellWrite (page : Fin 64) (off : BitVec 12) (value : Half)
  | hostMailboxPacket (bytes : List Byte)
  | memrd (dpa : BitVec 52) (grants exclusive : Bool)
  | memwr (dpa : BitVec 52) (data : List Byte)
  | memwrptl (dpa : BitVec 52) (data : List Byte) (en : List Bool)
  | bisnp (s : Fin 80) (line : Nat) (write : Bool)
  | birsp (s : Fin 80) (line : Nat) (keepShared : Bool) (writeback : Option (List Byte))
  | hostSnoop (hpa : Word)
  | bar2Read (off : BitVec 28) (len : Nat)
  | bar2Write (off : BitVec 28) (data : List Byte)
  | hostApertureAccess (a : Agent) (acc : Acc)
  | hostApertureCompletion (cpl : HostCpl) (data : List Byte)
  | hdmDecoderCommit (i : Fin 2) (base size skip : Word) (ways : Nat)
  | gpfFlush
  | identify
  | getSupportedLogs
  | getLog (uuid : Nat) (off len : Nat)
  | getEventRecords (log : BitVec 8)
  | clearEventRecords (log : BitVec 8) (handles : List Nat)
  | getPoisonList (dpa len : Nat)
  | doeRequest (bytes : List Byte)
  | configurationRequest (write : Bool) (off : BitVec 12) (value : Half)
  | msixUnmask (vec : Fin 64)
  | ideIntegrityFailure (cachemem : Bool)
  | hostDomainReset
  | cxlReset (failedClusters : List Nat := []) (failedPlanes : List Nat := []) (failedCores : List Nat := [])
  -- command processor (R438..R460)
  | commandTake (entry : List Byte) (status : Status)
  | nop (id : Nat)
  | ringCreate (id : Nat)
  | ringDelete (id : Nat)
  | memCopy (id : Nat) (ext : ExtAns)
  | loadProgram (id : Nat) (ext : ExtAns)
  | mapSegment (id : Nat)
  | coreInit (id : Nat)
  | regWrite (id : Nat)
  | regRead (id : Nat)
  | launchGrid (id : Nat)
  | launchStep (id : Nat) (ext : ExtAns)
  | launchBatchStatus (id : Nat)
  | launchCompletionMessage
  | launchTimeout (id : Nat)
  | injectionPortMessage (id : Nat)
  | skvPlace (id : Nat) (ext : ExtAns)
  | sliceMapSet (id : Nat)
  | latRouteSet (id : Nat)
  | sweep (id : Nat)
  | admitStream (id : Nat) (ext : ExtAns)
  | releaseStream (id : Nat)
  | fence (id : Nat)
  | unfence (id : Nat)
  | testUnit (id : Nat)
  | testUnitTimeout (id : Nat)
  | setPowerState (id : Nat)
  | powerStateSettled
  | voltageSlewComplete
  | setRamp (id : Nat)
  | query (id : Nat) (ext : ExtAns)
  | mgmtRequest (id : Nat) (ext : ExtAns)
  | mgmtRequestTimeout (id : Nat)
  | noticeDelivery
  | pericaNop (id : Nat)
  | pericaMemCopy (id : Nat) (ext : ExtAns)
  | pericaLoadProgram (id : Nat) (ext : ExtAns)
  | pericaMapSegment (id : Nat)
  | pericaLaunchGrid (id : Nat)
  | pericaQuery (id : Nat) (ext : ExtAns)
  -- management plane (R461..R476)
  | mailboxSend (d : MailDir) (bytes : List Byte)
  | mailboxReceive (d : MailDir)
  | idPubkey (o : MgmtOrigin)
  | leafStatus (o : MgmtOrigin)
  | fwWrite (o : MgmtOrigin) (off : Half) (data : List Byte)
  | fwActivate (o : MgmtOrigin)
  | storeGet (o : MgmtOrigin) (ty : BitVec 16)
  | storePut (o : MgmtOrigin) (ty : BitVec 16) (value : List Byte)
  | dbgRead (o : MgmtOrigin) (core : BitVec 16) (off len : Half)
  | dbgWrite (o : MgmtOrigin) (core : BitVec 16) (off : Half) (data : List Byte)
  | getVersion (o : MgmtOrigin)
  | getCapabilities (o : MgmtOrigin) (bytes : List Byte)
  | negotiateAlgorithms (o : MgmtOrigin) (bytes : List Byte)
  | getDigests (o : MgmtOrigin)
  | getCertificate (o : MgmtOrigin) (slot : Fin 8) (off len : Nat)
  | challenge (o : MgmtOrigin) (slot : Fin 8) (nonce : List Byte)
  | getMeasurements (o : MgmtOrigin) (index : BitVec 8) (signed : Bool) (nonce : List Byte)
  | keyExchange (o : MgmtOrigin) (slot : Fin 8) (bytes : List Byte)
  | finish (o : MgmtOrigin) (session : Nat) (bytes : List Byte)
  | keyUpdate (o : MgmtOrigin) (session : Nat)
  | heartbeat (o : MgmtOrigin) (session : Nat)
  | endSession (o : MgmtOrigin) (session : Nat)
  | mctpControlMessage (overPcie : Bool) (bytes : List Byte)
  | bypass
  | idcode
  | samplePreload
  | extest
  | clamp
  | highz
  | telemetryGather (sensors : List (BitVec 16)) (rails : List (BitVec 16 × Half)) (power : Half)
  | mgtTimeLoRead (a : Agent)
  -- power (R477..R493)
  | thermalTrip (sensor : Fin 89)
  | thermalTripEscalation
  | railTrip (rail : Fin 12)
  | currentTrip (rail : Fin 12)
  | pwrHintWrite (a : Agent) (k : Fin 64) (value : Half)
  | rampWindow (k : Fin 64)
  | pwrFcastWrite (a : Agent) (value : Half)
  | fcastBmcMessage
  -- start-up and resets (R494..R504)
  | deviceColdReset (pin : Bool)
  | stackTraining (failedStacks : List Nat) (failedClusters : List Nat) (failedPlanes : List Nat) (failedCores : List Nat)
  | deviceWarmReset (failedClusters : List Nat := []) (failedPlanes : List Nat := []) (failedCores : List Nat := [])
  | clusterReset (k : Fin 64)
  | coreReset (c : Fin 512)
  -- debug (R513..R518)
  | halt (c : Fin 512)
  | debugResume (c : Fin 512)
  | stepgo (c : Fin 512) (thr : Fin 8)
  -- rows of events
  | memoryUpset (p : UpsetPlace) (symbols : Nat)
  | stackClockRestore (t : Fin 20)
  | groupClockLock (g : Fin 3)
  | hostLinkTrained (mode : Fin 7) (width : BitVec 5) (rate : BitVec 3)
  | completionTimeout (cpHostAccess : Bool)
  | hostMailboxReplyTaken
  | bmcMessageRead
  | outOfServiceFault (u : OutOfService)
  | testUnitComplete (id : Nat) (code : BitVec 8) (item : Half)
  | fenceChangeSettled (id : Nat)
  | managementPowerLoss
  deriving DecidableEq, Repr

end Sys2Proof
end

