-- ==== Sys2Proof/Decode.lean ====
section
/-! DEFINITION. The decoder of a thread's instruction words (R81 to R85, R107, R108, R198, R223, R241, R285): the command
that a word spells, or none where the word is illegal; and the decoder of table words, to which the table gives no bits.
A field that the spec neither uses nor requires to be zero is ignored (log 10). -/

namespace Sys2Proof

/-- Bits `lo + n − 1 : lo` of an instruction word. -/
abbrev fld (w : BitVec 32) (lo n : Nat) : BitVec n := w.extractLsb' lo n

/-- The register field whose lowest bit is `lo`. -/
abbrev regAt (w : BitVec 32) (lo : Nat) : Reg := (fld w lo 5).toFin

/-- rd, ra and rb of the layouts R, I, M and U (R81). -/
abbrev rdOf (w : BitVec 32) : Reg := regAt w 19
abbrev raOf (w : BitVec 32) : Reg := regAt w 14
abbrev rbOf (w : BitVec 32) : Reg := regAt w 9

/-- A one-bit field. -/
abbrev flag (w : BitVec 32) (i : Nat) : Bool := w.getLsbD i

/-- Below bit 24, only bits of `mask` are set: the fields not listed are zero (R85). -/
def within24 (w mask : BitVec 32) : Bool := decide (w &&& (0xFFFFFF &&& ~~~mask) = 0)

/-- `x` where the word keeps the fields that must be zero at zero, otherwise illegal (R85). -/
def legalIf (b : Bool) (x : Option Instr) : Option Instr := if b then x else none

/-- Scope codes of the layout M* and of fence (R107). -/
def scopeOfCode (c : BitVec 2) : Scope :=
  match c.toNat with
  | 0 => .core | 1 => .cluster | 2 => .die | _ => .system

/-- Size codes of the layout M (R91). -/
def sizeOfCode (c : BitVec 2) : Size :=
  match c.toNat with
  | 0 => .b1 | 1 => .b2 | 2 => .b4 | _ => .b8

/-- The addressing mode of the layout M; bits 2:0 of a scaled index must be zero (R81, R91). -/
def modeOfWord (w : BitVec 32) : Option MMode :=
  match (fld w 12 2).toNat with
  | 0 => some (.disp (fld w 0 10))
  | 1 => some (.post (fld w 0 10))
  | 2 => some (.pre (fld w 0 10))
  | _ => if fld w 0 3 = 0 then some (.idx (regAt w 5) (fld w 3 2)) else none

/-- A half of a pair (R82, R84): op5, rd, and ra or imm5. -/
def decodeShort (h : BitVec 15) : Option ShortOp :=
  let d : Reg := (h.extractLsb' 5 5).toFin
  let i : BitVec 5 := h.extractLsb' 0 5
  let a : Reg := i.toFin
  match (h.extractLsb' 10 5).toNat with
  | 0x00 => if h.extractLsb' 0 10 = 0 then some .nop else none
  | 0x01 => some (.mov d a)
  | 0x02 => some (.add d a)
  | 0x03 => some (.sub d a)
  | 0x04 => some (.and d a)
  | 0x05 => some (.or d a)
  | 0x06 => some (.xor d a)
  | 0x07 => some (.shl d a)
  | 0x08 => some (.shr d a)
  | 0x09 => some (.sar d a)
  | 0x0A => some (.addi d i)
  | 0x0B => some (.shli d i)
  | 0x0C => some (.shri d i)
  | 0x0D => some (.sari d i)
  | 0x0E => some (.li d i)
  | 0x0F => some (.neg d a)
  | 0x10 => some (.fadd d a)
  | 0x11 => some (.fsub d a)
  | 0x12 => some (.fmul d a)
  | 0x13 => some (.min d a)
  | 0x14 => some (.max d a)
  | 0x15 => if i = 0 then some (.clr d) else none
  | 0x16 => some (.slt d a)
  | 0x17 => some (.sltu d a)
  | _ => none

/-- A pair: bit 30 is zero and both halves are legal (R82). -/
def decodePair (t : Tid) (w : BitVec 32) : Option Instr :=
  if flag w 30 then none
  else
    match decodeShort (fld w 15 15), decodeShort (fld w 0 15) with
    | some hi, some lo => some (.insnPair t hi lo)
    | _, _ => none

/-- Group 0x01, selected by fn (R108). -/
def decodeInt (t : Tid) (w : BitVec 32) : Option Instr :=
  let d := rdOf w
  let a := raOf w
  let b := rbOf w
  match (fld w 0 9).toNat with
  | 0x000 => some (.add t d a b)
  | 0x001 => some (.sub t d a b)
  | 0x002 => some (.and t d a b)
  | 0x003 => some (.or t d a b)
  | 0x004 => some (.xor t d a b)
  | 0x005 => some (.shl t d a b)
  | 0x006 => some (.shr t d a b)
  | 0x007 => some (.sar t d a b)
  | 0x008 => some (.mul t d a b)
  | 0x009 => some (.mulh t d a b)
  | 0x00A => some (.mulhu t d a b)
  | 0x00B => some (.div t d a b)
  | 0x00C => some (.divu t d a b)
  | 0x00D => some (.rem t d a b)
  | 0x00E => some (.remu t d a b)
  | 0x00F => some (.min t d a b)
  | 0x010 => some (.max t d a b)
  | 0x011 => some (.minu t d a b)
  | 0x012 => some (.maxu t d a b)
  | 0x013 => some (.slt t d a b)
  | 0x014 => some (.sltu t d a b)
  | 0x015 => some (.seq t d a b)
  | _ => none

/-- Group 0x02, selected by fn; the one-operand forms require rb = 0 (R108). -/
def decodeF64 (t : Tid) (w : BitVec 32) : Option Instr :=
  let d := rdOf w
  let a := raOf w
  let b := rbOf w
  let one := fun (i : Instr) => if b = 0 then some i else none
  match (fld w 0 9).toNat with
  | 0x000 => some (.fAdd t d a b)
  | 0x001 => some (.fSub t d a b)
  | 0x002 => some (.fMul t d a b)
  | 0x003 => some (.fDiv t d a b)
  | 0x004 => one (.fSqrt t d a)
  | 0x005 => some (.fMin t d a b)
  | 0x006 => some (.fMax t d a b)
  | 0x007 => some (.fEq t d a b)
  | 0x008 => some (.fLt t d a b)
  | 0x009 => some (.fLe t d a b)
  | 0x00A => one (.fCvtI t d a)
  | 0x00B => one (.iCvtF t d a)
  | 0x00C => one (.fAbs t d a)
  | 0x00D => one (.fNeg t d a)
  | _ => none

/-- Group 0x04, selected by fn; all but tag.set require rb = 0 (R108). -/
def decodeMove (t : Tid) (w : BitVec 32) : Option Instr :=
  let d := rdOf w
  let a := raOf w
  let b := rbOf w
  let one := fun (i : Instr) => if b = 0 then some i else none
  match (fld w 0 9).toNat with
  | 0x000 => one (.mov t d a)
  | 0x001 => one (.tagRd t d a)
  | 0x002 => one (.bits t d a)
  | 0x003 => one (.fbits t d a)
  | 0x004 => one (.clr t d)
  | 0x005 => some (.tagSet t d a b)
  | 0x006 => one (.ofs t d a)
  | 0x007 => one (.sel t d a)
  | _ => none

/-- Opcodes 0x05 to 0x10: immediates (R107). -/
def decodeImm (t : Tid) (w : BitVec 32) (op : Nat) : Option Instr :=
  let d := rdOf w
  let a := raOf w
  let i : BitVec 14 := fld w 0 14
  let n : BitVec 6 := fld w 0 6
  match op with
  | 0x05 => if fld w 8 6 = 0 then some (.mka t d a (fld w 0 8)) else none
  | 0x06 => some (.addi t d a i)
  | 0x07 => some (.andi t d a i)
  | 0x08 => some (.ori t d a i)
  | 0x09 => some (.xori t d a i)
  | 0x0A => some (.shli t d a n)
  | 0x0B => some (.shri t d a n)
  | 0x0C => some (.sari t d a n)
  | 0x0D => some (.slti t d a i)
  | 0x0E => some (.sltiu t d a i)
  | 0x0F => some (.li t d (fld w 0 19))
  | 0x10 => some (.lih t d (fld w 0 19))
  | _ => none

/-- Opcodes 0x11 to 0x1E: memory (R91, R107). A tagged access and ld.f need the size code 0b11. -/
def decodeMem (t : Tid) (w : BitVec 32) (op : Nat) : Option Instr :=
  let d := rdOf w
  let a := raOf w
  let z := sizeOfCode (fld w 10 2)
  let full := decide (fld w 10 2 = 3)
  let m := modeOfWord w
  let sc := scopeOfCode (fld w 12 2)
  match op with
  | 0x11 => m.map (fun m => .ld t d a z m)
  | 0x12 => m.map (fun m => .ldx t d a z m)
  | 0x13 => m.map (fun m => .ldS t d a z m)
  | 0x14 => m.map (fun m => .st t d a z m)
  | 0x15 => legalIf full (m.map (fun m => .ldT t d a m))
  | 0x16 => legalIf full (m.map (fun m => .stT t d a m))
  | 0x17 => m.map (fun m => .ls t d a z m)
  | 0x18 => m.map (fun m => .ss t d a z m)
  | 0x19 => some (.ldAcq t d a sc z (fld w 0 10))
  | 0x1A => some (.stRel t d a sc z (fld w 0 10))
  | 0x1B =>
    match (fld w 0 2).toNat with
    | 1 => some (.fenceAcq t sc)
    | 2 => some (.fenceRel t sc)
    | 3 => some (.fenceBoth t sc)
    | _ => none
  | 0x1C => some (.push t a)
  | 0x1D => some (.pop t d)
  | 0x1E => legalIf full (m.map (fun m => .ldF t d a m))
  | _ => none

/-- Opcodes 0x20 to 0x3F: control flow, special registers, segments (R94 to R104, R107). -/
def decodeCtl (t : Tid) (w : BitVec 32) (op : Nat) : Option Instr :=
  let d := rdOf w
  let a := raOf w
  let i : BitVec 14 := fld w 0 14
  let j : BitVec 24 := fld w 0 24
  match op with
  | 0x20 => some (.bEq t d a i)
  | 0x21 => some (.bNe t d a i)
  | 0x22 => some (.bLt t d a i)
  | 0x23 => some (.bGe t d a i)
  | 0x24 => some (.bLtu t d a i)
  | 0x25 => some (.bGeu t d a i)
  | 0x26 => if a = 0 then some (.bZ t d i) else none
  | 0x27 => if a = 0 then some (.bNz t d i) else none
  | 0x28 => some (.jmp t j)
  | 0x29 => some (.call t j)
  | 0x2A => some (.jmpR t a)
  | 0x2B => some (.callR t a)
  | 0x2C => some (.callM t a (flag w 0))
  | 0x2D => if j = 0 then some (.ret t) else none
  | 0x2E => if d = 0 then some (.loop t a i) else none
  | 0x30 => some (.rds t d (fld w 0 3))
  | 0x31 => some (.wrs t (fld w 0 3) a)
  | 0x32 => some (.gate t i)
  | 0x33 => some (.eret t)
  | 0x34 => some (.segH t d (fld w 0 8))
  | 0x35 => if i = 0 then some (.segQ t d a false) else if i = 1 then some (.segQ t d a true) else none
  | 0x36 => some (.segInv t (flag w 13) (fld w 0 8))
  | 0x3F => if j = 0 then some (.scalarNop t) else none
  | _ => none

/-- Opcodes 0x40 to 0x4B: the matrix engine (R198). -/
def decodeMtx (t : Tid) (w : BitVec 32) (op : Nat) : Option Instr :=
  let d := rdOf w
  let a := raOf w
  let hi : Fin 8 := (fld w 21 3).toFin
  let n : Fin 2 := (fld w 23 1).toFin
  let tileA : Fin 8 := (fld w 20 3).toFin
  match op with
  | 0x40 => legalIf (within24 w 0xE7C000) (some (.tcfg t hi a))
  | 0x41 => legalIf (within24 w 0xF83800) (some (.tcfgRd t d (fld w 11 3).toFin))
  | 0x42 => legalIf (within24 w 0xE7C000) (some (.tLd t hi a))
  | 0x43 => legalIf (within24 w 0xE7C000) (some (.tSt t hi a))
  | 0x44 => legalIf (within24 w 0x0000FF) (some (.tRel t (fld w 0 8)))
  | 0x45 => legalIf (within24 w 0xFFE000)
      (some (.tMma t n tileA (fld w 17 3).toFin (flag w 16) (flag w 15) (fld w 13 2)))
  | 0x46 => legalIf (within24 w 0xFFFBFF)
      (some (.tDrain t n tileA (flag w 19) (fld w 17 2) (flag w 16) (fld w 13 3).toFin (fld w 11 2) (regAt w 5) (regAt w 0)))
  | 0x47 => legalIf (within24 w 0x000003) (some (.tClr t (fld w 0 2)))
  | 0x48 => legalIf (within24 w 0x87FE00) (some (.tScale t n a (rbOf w)))
  | 0x49 => legalIf (within24 w 0xF7C000) (some (.tSave t (fld w 20 4) a))
  | 0x4A => legalIf (within24 w 0xF7C000) (some (.tRest t (fld w 20 4) a))
  | 0x4B => legalIf (within24 w 0xF80007) (some (.tRds t d (fld w 0 3)))
  | _ => none

/-- Opcodes 0x50 to 0x5E: the vector engine (R223). -/
def decodeVec (t : Tid) (w : BitVec 32) (op : Nat) : Option Instr :=
  let d := rdOf w
  let a := raOf w
  let b := rbOf w
  let m : Fin 8 := (fld w 6 3).toFin
  match op with
  | 0x50 => legalIf (within24 w 0xFFC000) (some (.vLd t d a))
  | 0x51 => legalIf (within24 w 0xFFC000) (some (.vSt t d a))
  | 0x52 => some (.vArithmetic t d a b m (fld w 0 6))
  | 0x53 => legalIf (within24 w 0xFFFFFE) (some (.vCvt t d a (fld w 10 4) (fld w 6 4) (fld w 4 2) (fld w 1 3)))
  | 0x54 => legalIf (within24 w 0xE7FFFF) (some (.vCompare t (fld w 21 3).toFin a b m (fld w 0 6)))
  | 0x55 => legalIf (within24 w 0xFFC1C3) (some (.vSpecialFunction t d a m (fld w 0 2)))
  | 0x56 =>
    legalIf (within24 w 0xFFC1CB)
      (match (fld w 0 2).toNat with
       | 0 => some (.vRsum t d a m (flag w 3))
       | 1 => some (.vRmax t d a m (flag w 3))
       | 2 => some (.vRmin t d a m (flag w 3))
       | _ => none)
  | 0x57 => legalIf (within24 w 0x87FFF8) (some (.vDot t (fld w 23 1).toFin a b (fld w 5 4) (fld w 3 2)))
  | 0x58 =>
    legalIf (within24 w 0xFC0007)
      (some (if flag w 2 then .vDclr t (fld w 0 2) else .vDget t d (fld w 18 1).toFin))
  | 0x59 => legalIf (within24 w 0xFFFFC0) (some (.vSexp t d a b m))
  | 0x5A => legalIf (within24 w 0xFFC03F) (some (.vTk t d a (fld w 0 6)))
  | 0x5B => legalIf (within24 w 0xF80000) (some (.vRand t d))
  | 0x5C =>
    legalIf (within24 w 0xFFFF01)
      (some (if flag w 0 then .vGet t d a (fld w 8 6) else .vBcast t d a))
  | 0x5D =>
    legalIf (within24 w 0xFF8003)
      (some (.vMaskLogic t (fld w 21 3).toFin (fld w 18 3).toFin (fld w 15 3).toFin (fld w 0 2)))
  | 0x5E => legalIf (within24 w 0xFFC001) (some (if flag w 0 then .vRest t d a else .vSave t d a))
  | _ => none

/-- Opcodes 0x60 to 0x6B: DMA, events, messages and cinch (R241, R258, R285). `ext` is the epoch that a peer device gives
to mq.h. -/
def decodeSig (t : Tid) (ext : BitVec 16) (w : BitVec 32) (op : Nat) : Option Instr :=
  let d := rdOf w
  let a := raOf w
  let b := rbOf w
  match op with
  | 0x60 => legalIf (within24 w 0xF8000F) (some (.dmaH t d (fld w 0 4).toFin))
  | 0x61 => legalIf (within24 w 0x07FE00) (some (.dmaArm t a b))
  | 0x62 => legalIf (within24 w 0xFFC001) (some (.dmaWait t d a (flag w 0)))
  | 0x63 => legalIf (within24 w 0x07C000) (some (.dmaStop t a))
  | 0x64 =>
    legalIf (within24 w 0xFFC003)
      (match (fld w 0 2).toNat with
       | 0 => some (.evWait t d a)
       | 1 => some (.evPoll t d a)
       | 2 => if d = 0 then some (.evSig t a) else none
       | _ => none)
  | 0x65 => legalIf (within24 w 0xFFC000) (some (.mqH t d a ext))
  | 0x66 =>
    legalIf (within24 w 0x07FE01)
      (if flag w 0 then some (.mqPutr t a b) else if b = 0 then some (.mqPut t a) else none)
  | 0x67 =>
    legalIf (within24 w 0xFFFE1E)
      (match flag w 2, flag w 1 with
       | false, false => some (.mqCommitBlocking t d a b (fld w 3 2))
       | true, false => some (.mqCommitNonblocking t d a b (fld w 3 2))
       | false, true => some (.mqCommitPosted t d a b (fld w 3 2))
       | true, true => none)
  | 0x68 => legalIf (within24 w 0xFFC001) (some (.mqRecv t d a (flag w 0)))
  | 0x69 =>
    legalIf (within24 w 0x07C001)
      (if flag w 0 then (if a = 0 then some (.mqDisp t) else none) else some (.mqDone t a))
  | 0x6A => legalIf (within24 w 0x00003F) (some (.cinchArrive t (fld w 0 6).toFin))
  | 0x6B => legalIf (within24 w 0) (some (.mqDrop t))
  | _ => none

/-- The command that thread `t` issues for the instruction word `w`; none: INSN_ILLEGAL (R85). Reserved opcodes, the zero
word among them, fall under no case. -/
def decodeInsn (t : Tid) (ext : BitVec 16) (w : BitVec 32) : Option Instr :=
  if flag w 31 then decodePair t w
  else
    let op := (fld w 24 7).toNat
    if op = 0x01 then decodeInt t w
    else if op = 0x02 then decodeF64 t w
    else if op = 0x03 then (if fld w 0 9 = 0 then some (.fFma t (rdOf w) (raOf w) (rbOf w)) else none)
    else if op = 0x04 then decodeMove t w
    else if op ≤ 0x10 then decodeImm t w op
    else if op < 0x20 then decodeMem t w op
    else if op < 0x40 then decodeCtl t w op
    else if op < 0x50 then decodeMtx t w op
    else if op < 0x60 then decodeVec t w op
    else decodeSig t ext w op

/-- The command of an instruction word, an illegal one included. -/
def insnOf (t : Tid) (ext : BitVec 16) (w : BitVec 32) : Instr := (decodeInsn t ext w).getD (.illegalInstruction t)

/-- The command that a word spells by the table's bits: the table gives no row bits (log 1). -/
def decodeTableWord (_nbits _w : Nat) : Option Instr := none

end Sys2Proof
end

