-- ==== Sys2Proof/Config.lean ====
section
/-! DEFINITION. What an implementation fixes and what the spec leaves open: constants without a body, so that no
proof can see a value of one. Free values drawn one by one are `freeWord` applied to the counter `fresh` of State. -/

namespace Sys2Proof.Config

/-- A fresh free value: applied to State's counter (log 2). -/
opaque freeWord : Nat → Word

/-- The value the vector engine's special function `fn` (0 exp2, 1 log2, 2 reciprocal, 3 reciprocal square root)
would return; used only where it lies within the error bound of R211 (log 3). -/
opaque specialFn : Nat → Half → Half

/-- f.div where the spec states no quotient: a zero divisor, or infinity by infinity (R106, log 4). -/
opaque f64Div : Word → Word → Word

/-- f.sqrt of a negative value; of −0 its sign alone (R106, log 4). -/
opaque f64Sqrt : Word → Word

/-- Which legal G the record of a cleared accumulator set carries: 2 to this, modulo 4 (R202, log 5). -/
opaque closedG : Nat
/-- The CHUNK code that the record of a cleared accumulator set carries (R202, R222, log 5). -/
opaque closedChunk : BitVec 2

/-- Bytes that a declared packet of `flits` flits (a response or not) is charged with where R389 and R413 charge bytes:
the declaration holds none (log 19). -/
opaque packetBytes : Bool → Nat → Nat

/-- Serial number burnt at manufacture (R461). -/
opaque serial : BitVec 64
/-- Stepping of the part (R519's identity values). -/
opaque stepping : BitVec 8
/-- Fuses of MIN_SVN blown at manufacture, of 64 (R461). -/
opaque minSvn : Fin 65
/-- The OTP's digest of the firmware verification key and its identity key seed (R461). -/
opaque otpKeyDigest : List (BitVec 8)
opaque otpSeed : List (BitVec 8)
/-- The mask-programmed boot ROM (R461). -/
opaque romBytes : List (BitVec 8)
/-- The hash functions that R461, R467 and R473 name by their standard. -/
opaque sha256 : List (BitVec 8) → List (BitVec 8)
opaque sha384 : List (BitVec 8) → List (BitVec 8)
/-- What a configuration register outside the standard header reads as: its offset and the value last written (log 7). -/
opaque pciConfig : Nat → BitVec 32 → BitVec 32
/-- Vendor identity (R422). -/
opaque vendorId : BitVec 16
/-- Velward's JEDEC identity code (R464). -/
opaque jedecId : BitVec 11
/-- Offsets in configuration space of the capabilities whose contents R420 to R422 give: PCI Express, Power Management, MSI-X,
and the DVSECs with ID 0 (of whose control register: `cxlControl`), 5, 7 and 8 (log 7). -/
opaque pcieCap : Nat
opaque pmCap : Nat
opaque msixCap : Nat
opaque cxlDvsec : Nat
opaque gpfDvsec : Nat
opaque flexDvsec : Nat
opaque locatorDvsec : Nat
def cxlControl : Nat := cxlDvsec + 12
/-- Which code of range A the Completion Timeout is at reset (R422, log 7). -/
opaque timeoutA : Bool
/-- Offsets in BAR0 of the CXL RAS Capability and the HDM Decoder Capability, of the Device Status and the mailbox registers,
and what the other component and device registers read as: offset and the value last written (R423, log 7). -/
opaque rasCap : Nat
opaque hdmCap : Nat
opaque devStatus : Nat
opaque devMailbox : Nat
opaque cxlRegister : Nat → BitVec 32 → BitVec 32
/-- Opcode of the device mailbox's Identify (R423, log 7). -/
opaque identifyOpcode : Nat
/-- Offsets in BAR0 of the host mailbox's inbound slot, outbound slot and full flags (R425, R427, log 7). -/
opaque hostMailIn : Nat
opaque hostMailOut : Nat
opaque hostMailFull : Nat
/-- Offset of the Device Serial Number capability (log 7). -/
opaque serialCap : Nat
/-- The byte at an offset of the flash as manufactured (R465). -/
opaque flashByte : Nat → BitVec 8
/-- The 60-byte HSS public key that a slot's bytes carry with the signature (R467, log 102). -/
opaque imageKey : List (BitVec 8) → List (BitVec 8)
/-- HSS verification with LMS_SHA256_M32_H20 and LMOTS_SHA256_N32_W8 (R466): public key, message, signature. -/
opaque hssVerify : List (BitVec 8) → List (BitVec 8) → List (BitVec 8) → Bool
/-- Whether the read-back of a store write passes (R469), for the model's counter of free values (log 24). -/
opaque storeReads : Nat → Bool
/-- Whether a FINISH request verifies under its session (R473). -/
opaque finishOk : Nat → List (BitVec 8) → Bool
/-- The answer to a request that the spec names by its standard alone: kind, request bytes, and what the state holds. -/
opaque standardAnswer : Nat → List (BitVec 8) → List (BitVec 8)
/-- LMS trees that the method of RFC 8554 Appendix A derives from a seed: tree 0 is the top, q1 + 1 the child q1. The public
key of a tree, and its signature of a message with a leaf (R472). -/
opaque lmsPublic : List (BitVec 8) → Nat → List (BitVec 8)
opaque lmsSign : List (BitVec 8) → Nat → Nat → List (BitVec 8) → List (BitVec 8)
/-- What the bytes of a request that reached the controller on DOE or with SUB 0 or 1 ask for, decrypted in a session: the
request code of SPDM, then its operands in the order of the row's (log 25). -/
opaque spdmRequest : Nat → List (BitVec 8) → List (BitVec 8)
/-- IDE_KM of a secured session (R420, R473): the operands of a message as its kind (1 programs a key, 2 starts a stream, 3 stops
it), its stream (0 the link stream of CXL.io, 1 its selective stream, 2 CXL.cachemem), and the key (log 64). -/
opaque ideKm : List (BitVec 8) → Nat × Nat × List (BitVec 8)

end Sys2Proof.Config
end

