-- ==== Sys2Proof/Machine/Table.lean ====
section
/-! DEFINITION. Sparse tables with a default, in one canonical form (keys strictly rising, no entry equal to its
default), and byte memories over them (R10 fixes the byte order). -/

namespace Sys2Proof.Machine

/-- The value under key `k`; an absent key reads as its default `d k`. -/
def tget (d : Nat → α) : Table α → Nat → α
  | [], k => d k
  | (a, v) :: r, k => if a = k then v else tget d r k

/-- Every entry of key `k` taken out. -/
def terase : Table α → Nat → Table α
  | [], _ => []
  | (a, v) :: r, k => if a = k then terase r k else (a, v) :: terase r k

/-- Put an entry in front of the first greater key. -/
def tinsert : Table α → Nat → α → Table α
  | [], k, v => [(k, v)]
  | (a, w) :: r, k, v => if k < a then (k, v) :: (a, w) :: r else (a, w) :: tinsert r k v

/-- Store `v` under `k`; storing the default removes the entry. -/
def tset [DecidableEq α] (d : Nat → α) (t : Table α) (k : Nat) (v : α) : Table α :=
  if v = d k then terase t k else tinsert (terase t k) k v

/-- Apply `f` to the value under `k`. -/
def tmod [DecidableEq α] (d : Nat → α) (t : Table α) (k : Nat) (f : α → α) : Table α :=
  tset d t k (f (tget d t k))

/-- Keys strictly rising, all above `lo`. -/
def trising (lo : Nat) : Table α → Bool
  | [] => true
  | (a, _) :: r => decide (lo < a) && trising a r

/-- No entry equals its default. -/
def tnodef [DecidableEq α] (d : Nat → α) : Table α → Bool
  | [] => true
  | (a, v) :: r => decide (v ≠ d a) && tnodef d r

/-- The canonical form of a table. -/
def twf [DecidableEq α] (d : Nat → α) (t : Table α) : Bool :=
  (match t with
   | [] => true
   | (a, _) :: r => trising a r) && tnodef d t

/-- A byte that nothing has written reads zero (R497, R504: memories are zeroed at the resets). -/
def byte0 (_ : Nat) : Byte := 0

/-- A byte memory: address and byte pairs in canonical form. -/
abbrev Bytes := List Host.Cell

def readByte (m : Bytes) (a : Nat) : Byte := tget byte0 m a

def writeByte (m : Bytes) (a : Nat) (b : Byte) : Bytes := tset byte0 m a b

/-- `n` bytes from address `a` on. -/
def readBytes (m : Bytes) (a : Nat) : Nat → List Byte
  | 0 => []
  | n + 1 => readByte m a :: readBytes m (a + 1) n

/-- Store a list of bytes from address `a` on. -/
def writeBytes (m : Bytes) (a : Nat) : List Byte → Bytes
  | [] => m
  | b :: bs => writeBytes (writeByte m a b) (a + 1) bs

/-- Store the bytes whose enable is set (R147). -/
def writeEn (m : Bytes) (a : Nat) : List Byte → List Bool → Bytes
  | b :: bs, e :: es => writeEn (if e then writeByte m a b else m) (a + 1) bs es
  | _, _ => m

/-- Every byte of `a … a+n-1` becomes zero. -/
def clearBytes (m : Bytes) (a n : Nat) : Bytes :=
  m.filter (fun c => decide (c.1 < a ∨ a + n ≤ c.1))

/-- The canonical form of a byte memory. -/
def memWf (m : Bytes) : Bool := twf byte0 m

/-- Little-endian value of a list of bytes (R10). -/
def leNat : List Byte → Nat
  | [] => 0
  | b :: bs => b.toNat + 256 * leNat bs

/-- The `n` low bytes of a number, least significant first (R10). -/
def leBytes : Nat → Nat → List Byte
  | 0, _ => []
  | n + 1, v => BitVec.ofNat 8 v :: leBytes n (v / 256)

/-- Bits `hi` to `lo` of a number. -/
def bitsOf (v hi lo : Nat) : Nat := (v >>> lo) % 2 ^ (hi + 1 - lo)

/-- One bit of a number as a Bool. -/
def bitOf (v i : Nat) : Bool := v.testBit i

/-- 1 for true, 0 for false. -/
def b2n (b : Bool) : Nat := if b then 1 else 0

/-- The `i`-th group of `n` elements of a list. -/
def slice (l : List α) (start n : Nat) : List α := (l.drop start).take n

/-- The list padded with `d`, or cut, to `n` elements. -/
def padTo (d : α) (n : Nat) (l : List α) : List α := (l ++ List.replicate n d).take n

/-- Replace element `i` of a list (a number past the end changes nothing). -/
def lset : List α → Nat → α → List α
  | [], _, _ => []
  | _ :: r, 0, v => v :: r
  | x :: r, n + 1, v => x :: lset r n v

/-- Element `i` of a list, or `d`. -/
def lget (d : α) : List α → Nat → α
  | [], _ => d
  | x :: _, 0 => x
  | _ :: r, n + 1 => lget d r n

/-- The numbers `a` to `a+n-1`. -/
def countFrom (a : Nat) : Nat → List Nat
  | 0 => []
  | n + 1 => a :: countFrom (a + 1) n

/-- Cut a list into pieces of `n` elements; `fuel` bounds the number of pieces. -/
def chunksOf (n : Nat) : Nat → List α → List (List α)
  | 0, _ => []
  | _ + 1, [] => []
  | k + 1, l => l.take n :: chunksOf n k (l.drop n)

/-- `x` taken modulo 2^n as a counter that stops at its largest value. -/
def satInc (n x : Nat) : Nat := if x + 1 < 2 ^ n then x + 1 else 2 ^ n - 1

end Sys2Proof.Machine
end

