-- ==== Sys2Proof/Machine/Num.lean ====
section
/-! DEFINITION. Numbers: the formats of R38 to R49, special values R50 to R52, rounding R53 to R56, conversion R57 to
R63, chunked accumulation R64 to R68, binary64 for R106, Philox R219 and the special functions of R211. -/

namespace Sys2Proof.Machine

/-- An exact value: (−1)^neg · m · 2^e, or a special value. -/
inductive FVal where
  | nan
  | inf (neg : Bool)
  | num (neg : Bool) (m : Nat) (e : Int)
  deriving DecidableEq, Repr

/-- How a format uses its top exponent field (R41): infinity and NaN, E4M3's single NaN fraction, or numbers only. -/
inductive FKind where
  | ieee | e4m3 | finite
  deriving DecidableEq, Repr

/-- The parameters of R41. -/
structure Fmt where
  eBits : Nat
  mBits : Nat
  bias : Int
  kind : FKind
  deriving DecidableEq, Repr

def fmtFp32 : Fmt := ⟨8, 23, 127, .ieee⟩
def fmtBf16 : Fmt := ⟨8, 7, 127, .ieee⟩
def fmtFp16 : Fmt := ⟨5, 10, 15, .ieee⟩
def fmtE4M3 : Fmt := ⟨4, 3, 7, .e4m3⟩
def fmtE5M2 : Fmt := ⟨5, 2, 15, .ieee⟩
def fmtE3M2 : Fmt := ⟨3, 2, 3, .finite⟩
def fmtE2M3 : Fmt := ⟨2, 3, 1, .finite⟩
def fmtE2M1 : Fmt := ⟨2, 1, 1, .finite⟩
/-- The short run of R41, internal to accumulation. -/
def fmtShort : Fmt := ⟨8, 15, 127, .ieee⟩
/-- binary64, for the scalar F64 group (R106). -/
def fmtF64 : Fmt := ⟨11, 52, 1023, .ieee⟩

/-- Least exponent of a normal value. -/
def Fmt.emin (f : Fmt) : Int := 1 - f.bias
/-- Exponent of the least significant bit of a subnormal. -/
def Fmt.lsb (f : Fmt) : Int := f.emin - f.mBits
/-- Greatest exponent of a normal value. -/
def Fmt.emax (f : Fmt) : Int :=
  match f.kind with
  | .ieee => (2 ^ f.eBits : Nat) - 2 - f.bias
  | _ => (2 ^ f.eBits : Nat) - 1 - f.bias
/-- Significand of max finite, in units of 2^(emax − M). -/
def Fmt.maxSig (f : Fmt) : Nat :=
  match f.kind with
  | .e4m3 => 2 ^ (f.mBits + 1) - 2
  | _ => 2 ^ (f.mBits + 1) - 1
def Fmt.width (f : Fmt) : Nat := 1 + f.eBits + f.mBits
def Fmt.signBit (f : Fmt) (neg : Bool) : Nat := if neg then 2 ^ (f.eBits + f.mBits) else 0
/-- The canonical NaN of R43; formats without NaN take +0 (R59). -/
def Fmt.nanBits (f : Fmt) : Nat :=
  match f.kind with
  | .ieee => (2 ^ f.eBits - 1) * 2 ^ f.mBits + 2 ^ (f.mBits - 1)
  | .e4m3 => 2 ^ (f.eBits + f.mBits) - 1
  | .finite => 0
def Fmt.maxBits (f : Fmt) (neg : Bool) : Nat :=
  f.signBit neg +
    (match f.kind with
     | .ieee => (2 ^ f.eBits - 2) * 2 ^ f.mBits + (2 ^ f.mBits - 1)
     | .e4m3 => 2 ^ (f.eBits + f.mBits) - 2
     | .finite => 2 ^ (f.eBits + f.mBits) - 1)
def Fmt.infBits (f : Fmt) (neg : Bool) : Nat := f.signBit neg + (2 ^ f.eBits - 1) * 2 ^ f.mBits

/-- The value of an encoding (R41). -/
def Fmt.decode (f : Fmt) (b : Nat) : FVal :=
  let neg := bitOf b (f.eBits + f.mBits)
  let ex := bitsOf b (f.eBits + f.mBits - 1) f.mBits
  let fr := b % 2 ^ f.mBits
  if ex = 0 then .num neg fr f.lsb
  else
    let v := FVal.num neg (2 ^ f.mBits + fr) ((ex : Int) - f.bias - f.mBits)
    match f.kind with
    | .ieee => if ex = 2 ^ f.eBits - 1 then (if fr = 0 then .inf neg else .nan) else v
    | .e4m3 => if ex = 2 ^ f.eBits - 1 ∧ fr = 2 ^ f.mBits - 1 then .nan else v
    | .finite => v

/-- m · 2^e rounded to a multiple of 2^q, to nearest, ties to even (R53). -/
def roundAt (m : Nat) (e q : Int) : Nat :=
  if q ≤ e then m <<< (e - q).toNat
  else
    let s := (q - e).toNat
    let k := m >>> s
    let r := m % 2 ^ s
    let half := 2 ^ (s - 1)
    if half < r ∨ (r = half ∧ k % 2 = 1) then k + 1 else k

/-- m · 2^e rounded to a multiple of 2^q under R55 with the random value `u`. -/
def roundStochAt (u m : Nat) (e q : Int) : Nat :=
  if q ≤ e then m <<< (e - q).toNat
  else
    let s := (q - e).toNat
    let k := m >>> s
    let r := m % 2 ^ s
    let d := if s ≤ 16 then r <<< (16 - s) else r >>> (s - 16)
    if 2 ^ 16 ≤ d + u % 2 ^ 16 then k + 1 else k

/-- Round with the mode of CVM.RND: `none` to nearest even, `some u` stochastic. -/
def roundMode (u : Option Nat) (m : Nat) (e q : Int) : Nat :=
  match u with
  | none => roundAt m e q
  | some u => roundStochAt u m e q

/-- The exponent of the last place of format `f` at the magnitude m · 2^e. -/
def Fmt.ulpExp (f : Fmt) (m : Nat) (e : Int) : Int :=
  max ((Nat.log2 m : Int) + e - f.mBits) f.lsb

/-- R54: sig · 2^q, already rounded as if the exponent had no upper limit, exceeds max finite. -/
def Fmt.over (f : Fmt) (sig : Nat) (q : Int) : Bool :=
  if q < f.emax - f.mBits then false
  else if q = f.emax - f.mBits then decide (f.maxSig < sig)
  else decide (sig ≠ 0)

/-- The encoding of a rounded magnitude that does not overflow. -/
def Fmt.pack (f : Fmt) (neg : Bool) (sig : Nat) (q : Int) : Nat :=
  f.signBit neg +
    (if sig < 2 ^ f.mBits then sig
     else if sig = 2 ^ (f.mBits + 1) then ((q + 1 + f.mBits + f.bias).toNat) * 2 ^ f.mBits
     else ((q + f.mBits + f.bias).toNat) * 2 ^ f.mBits + (sig - 2 ^ f.mBits))

/-- What an overflowing value or an infinite source becomes under R58. -/
def Fmt.overBits (f : Fmt) (sat neg : Bool) : Nat :=
  match f.kind with
  | .ieee => if sat then f.maxBits neg else f.infBits neg
  | .e4m3 => if sat then f.maxBits neg else f.nanBits
  | .finite => f.maxBits neg

/-- Conversion of an exact value to a floating-point format (R54, R55, R58, R59). DESIGN CHOICE (log 81): an infinite
source follows R58 also where R60 lists the conversion as exact; a stochastic conversion overflows when its draw rounds
it up beyond max finite, and gives max finite when the draw rounds it down. -/
def Fmt.conv (f : Fmt) (sat : Bool) (u : Option Nat) (v : FVal) : Nat :=
  match v with
  | .nan => f.nanBits
  | .inf neg => f.overBits sat neg
  | .num neg m e =>
    if m = 0 then f.signBit neg
    else
      let q := f.ulpExp m e
      let sig := roundMode u m e q
      if f.over sig q then f.overBits sat neg else f.pack neg sig q

/-- Round to nearest even into the format: the result of an operation (R50, R53). -/
def Fmt.enc (f : Fmt) (v : FVal) : Nat := f.conv false none v

/-- Round a value to the format and keep it as a value. -/
def Fmt.round (f : Fmt) (v : FVal) : FVal := f.decode (f.enc v)

/-! ## Exact operations (R50) -/

def FVal.neg : FVal → FVal
  | .nan => .nan
  | .inf n => .inf (!n)
  | .num n m e => .num (!n) m e

def FVal.abs : FVal → FVal
  | .nan => .nan
  | .inf _ => .inf false
  | .num _ m e => .num false m e

/-- Product class of R50; products of numbers are exact. -/
def FVal.mul : FVal → FVal → FVal
  | .nan, _ => .nan
  | _, .nan => .nan
  | .inf a, .inf b => .inf (a != b)
  | .inf a, .num b m _ => if m = 0 then .nan else .inf (a != b)
  | .num a m _, .inf b => if m = 0 then .nan else .inf (a != b)
  | .num a m e, .num b n f => .num (a != b) (m * n) (e + f)

/-- Sum class of R50; an exact zero sum of opposite signs is +0. -/
def FVal.add : FVal → FVal → FVal
  | .nan, _ => .nan
  | _, .nan => .nan
  | .inf a, .inf b => if a = b then .inf a else .nan
  | .inf a, .num _ _ _ => .inf a
  | .num _ _ _, .inf b => .inf b
  | .num a m e, .num b n f =>
    if m = 0 ∧ n = 0 then .num (a && b) 0 0
    else if m = 0 then .num b n f
    else if n = 0 then .num a m e
    else
      let q := min e f
      let x := m <<< (e - q).toNat
      let y := n <<< (f - q).toNat
      if a = b then .num a (x + y) q
      else if x = y then .num false 0 0
      else if y < x then .num a (x - y) q
      else .num b (y - x) q

def FVal.isNan : FVal → Bool
  | .nan => true
  | _ => false

def FVal.isInf : FVal → Bool
  | .inf _ => true
  | _ => false

def FVal.isZero : FVal → Bool
  | .num _ m _ => decide (m = 0)
  | _ => false

/-- Exact comparison of magnitudes: m·2^e < n·2^f. -/
def magLt (m : Nat) (e : Int) (n : Nat) (f : Int) : Bool :=
  let q := min e f
  decide (m <<< (e - q).toNat < n <<< (f - q).toNat)

/-- Numeric less-than of two values that are not NaN; −0 and +0 are equal. -/
def FVal.ltNum : FVal → FVal → Bool
  | .inf a, .inf b => a && !b
  | .inf a, .num _ _ _ => a
  | .num _ _ _, .inf b => !b
  | .num a m e, .num b n f =>
    if m = 0 ∧ n = 0 then false
    else if m = 0 then !b
    else if n = 0 then a
    else match a, b with
      | true, false => true
      | false, true => false
      | false, false => magLt m e n f
      | true, true => magLt n f m e
  | _, _ => false

/-- Comparison class of R50. -/
def FVal.ltC (a b : FVal) : Bool := !a.isNan && !b.isNan && a.ltNum b
def FVal.eqC (a b : FVal) : Bool := !a.isNan && !b.isNan && !a.ltNum b && !b.ltNum a
def FVal.leC (a b : FVal) : Bool := a.ltC b || a.eqC b

/-- Rank in R51 of values that compare equal: −0 stands below +0. -/
def FVal.signRank : FVal → Nat
  | .num true 0 _ => 0
  | _ => 1

/-- Total order of R51: NaN < −∞ < … < −0 < +0 < … < +∞. -/
def FVal.ordLt (a b : FVal) : Bool :=
  if b.isNan then false
  else if a.isNan then true
  else if a.ltNum b then true
  else if b.ltNum a then false
  else decide (a.signRank < b.signRank)

/-- Ordering operations of R51; equal keys prefer the first. -/
def FVal.ordMax (a b : FVal) : FVal := if a.ordLt b then b else a
def FVal.ordMin (a b : FVal) : FVal := if b.ordLt a then b else a

/-- A signed integer as an exact value. -/
def FVal.ofInt (i : Int) : FVal := .num (decide (i < 0)) i.natAbs 0

/-- Conversion of a value to an integer of range [lo, hi] (R58, R59, R61). -/
def intConv (lo hi : Int) (u : Option Nat) (v : FVal) : Int :=
  match v with
  | .nan => 0
  | .inf n => if n then lo else hi
  | .num n m e =>
    let k : Int := roundMode u m e 0
    let k := if n then -k else k
    if k < lo then lo else if hi < k then hi else k

/-! ## Element formats and codes (R38) -/

inductive Elem where
  | fp32 | bf16 | fp16 | e4m3 | e5m2 | e3m2 | e2m3 | e2m1 | int32 | int8 | int4 | mxint8
  deriving DecidableEq, Repr

/-- A format: element and whether it is microscaled. -/
structure Format where
  elem : Elem
  mx : Bool
  deriving DecidableEq, Repr

/-- The codes of R38; a reserved code has no format. -/
def formatOfCode (c : Nat) : Option Format :=
  match c with
  | 0x00 => some ⟨.fp32, false⟩
  | 0x01 => some ⟨.bf16, false⟩
  | 0x02 => some ⟨.fp16, false⟩
  | 0x03 => some ⟨.e4m3, false⟩
  | 0x04 => some ⟨.e5m2, false⟩
  | 0x05 => some ⟨.e3m2, false⟩
  | 0x06 => some ⟨.e2m3, false⟩
  | 0x07 => some ⟨.e2m1, false⟩
  | 0x08 => some ⟨.int32, false⟩
  | 0x09 => some ⟨.int8, false⟩
  | 0x0A => some ⟨.int4, false⟩
  | 0x13 => some ⟨.e4m3, true⟩
  | 0x14 => some ⟨.e5m2, true⟩
  | 0x15 => some ⟨.e3m2, true⟩
  | 0x16 => some ⟨.e2m3, true⟩
  | 0x17 => some ⟨.e2m1, true⟩
  | 0x19 => some ⟨.mxint8, true⟩
  | _ => none

def Elem.width : Elem → Nat
  | .fp32 | .int32 => 32
  | .bf16 | .fp16 => 16
  | .e4m3 | .e5m2 | .int8 | .mxint8 => 8
  | .e3m2 | .e2m3 => 6
  | .e2m1 | .int4 => 4

def Elem.isInt : Elem → Bool
  | .int32 | .int8 | .int4 => true
  | _ => false

def Elem.fmt : Elem → Option Fmt
  | .fp32 => some fmtFp32
  | .bf16 => some fmtBf16
  | .fp16 => some fmtFp16
  | .e4m3 => some fmtE4M3
  | .e5m2 => some fmtE5M2
  | .e3m2 => some fmtE3M2
  | .e2m3 => some fmtE2M3
  | .e2m1 => some fmtE2M1
  | _ => none

/-- Two's complement value of the low `w` bits. -/
def signedOf (w b : Nat) : Int := if bitOf b (w - 1) then (b % 2 ^ w : Nat) - (2 ^ w : Nat) else (b % 2 ^ w : Nat)

/-- The low `w` bits of a two's complement integer. -/
def unsignedOf (w : Nat) (i : Int) : Nat := (i % (2 ^ w : Nat)).toNat

/-- The value an element's bits stand for, its block scale apart (R41, R46, R48). -/
def Elem.value (e : Elem) (b : Nat) : FVal :=
  match e.fmt with
  | some f => f.decode b
  | none =>
    match e with
    | .mxint8 => let i := signedOf 8 b; .num (decide (i < 0)) i.natAbs (-6)
    | e => .ofInt (signedOf e.width b)

/-- Element `i` of a vector packed under R39. -/
def unpackElem (e : Elem) (bytes : List Byte) (i : Nat) : Nat :=
  let at_ := fun k => (lget (0 : Byte) bytes k).toNat
  match e.width with
  | 4 => if i % 2 = 0 then at_ (i / 2) % 16 else at_ (i / 2) / 16
  | 6 =>
    let j := i / 4
    let g := at_ (3 * j) + 256 * at_ (3 * j + 1) + 65536 * at_ (3 * j + 2)
    bitsOf g (6 * (i % 4) + 5) (6 * (i % 4))
  | 8 => at_ i
  | 16 => at_ (2 * i) + 256 * at_ (2 * i + 1)
  | _ => leNat (slice bytes (4 * i) 4)

/-- The first `n` elements of a packed vector, cut from its little-endian number (R39: every packing of R39 is the
little-endian concatenation of the elements). -/
def unpackNat (w : Nat) : Nat → Nat → List Nat
  | 0, _ => []
  | n + 1, v => v % 2 ^ w :: unpackNat w n (v >>> w)

/-- The number whose `w`-bit digits are the list, least significant first. -/
def packNat (w : Nat) : List Nat → Nat
  | [] => 0
  | x :: r => x % 2 ^ w + (packNat w r) <<< w

/-- Bytes that `n` elements occupy (R39, R40: 6-bit vectors fill whole groups of four). -/
def elemBytes (e : Elem) (n : Nat) : Nat :=
  match e.width with
  | 4 => (n + 1) / 2
  | 6 => 3 * ((n + 3) / 4)
  | w => n * w / 8

/-- The first `n` elements of a packed vector. -/
def unpack (e : Elem) (n : Nat) (bytes : List Byte) : List Nat :=
  unpackNat e.width n (leNat (bytes.take (elemBytes e n)))

/-- Elements packed into bytes (R39, R40). -/
def pack (e : Elem) (l : List Nat) : List Byte := leBytes (elemBytes e l.length) (packNat e.width l)

/-- CVM.OVF and the rounding random value selected by CVM.RND (R57). -/
def cvmSat (cvm : BitVec 2) : Bool := cvm.getLsbD 1
def cvmRnd (cvm : BitVec 2) : Bool := cvm.getLsbD 0
def cvmDraw (cvm : BitVec 2) (u : Nat) : Option Nat := if cvmRnd cvm then some u else none

/-- Conversion of one source value to a format that is not MX (R57 to R61). -/
def Elem.conv (e : Elem) (cvm : BitVec 2) (u : Nat) (v : FVal) : Nat :=
  match e.fmt with
  | some f => f.conv (cvmSat cvm) (cvmDraw cvm u) v
  | none =>
    let w := e.width
    unsignedOf w (intConv (-(2 ^ (w - 1) : Nat)) ((2 ^ (w - 1) : Nat) - 1) (cvmDraw cvm u) v)

/-- emax of R62 step 4. -/
def Elem.mxEmax : Elem → Int
  | .e4m3 => 8
  | .e5m2 => 15
  | .e3m2 => 4
  | .e2m3 | .e2m1 => 2
  | _ => 0

/-- Conversion of one divided element of an MX block (R62 step 5, R46). -/
def Elem.mxConv (e : Elem) (cvm : BitVec 2) (u : Nat) (v : FVal) : Nat :=
  match e.fmt with
  | some f => f.conv true (cvmDraw cvm u) v
  | none =>
    match v with
    | .num n m x => unsignedOf 8 (intConv (-128) 127 (cvmDraw cvm u) (.num n m (x + 6)))
    | _ => 0

/-- A value multiplied by 2^k, exactly. -/
def FVal.scale (v : FVal) (k : Int) : FVal :=
  match v with
  | .num n m e => .num n m (e + k)
  | v => v

/-- The larger of two magnitudes, NaN not counting (R62 step 1, R63). -/
def FVal.magMax (a b : FVal) : FVal :=
  if b.isNan then a else if a.isNan then b.abs else if a.abs.ltNum b.abs then b.abs else a.abs

/-- The running maximum of a list of source values, starting from +0 (R63). -/
def amaxOf (l : List FVal) : FVal := l.foldl FVal.magMax (.num false 0 0)

/-- The running maximum held in FP32 (R63); an INT32 magnitude that FP32 does not hold is rounded as R53 rounds. -/
def amaxBits (l : List FVal) : Half := BitVec.ofNat 32 (fmtFp32.enc (amaxOf l))

/-- The larger of two running maxima. -/
def amaxJoin (a b : Half) : Half :=
  if (fmtFp32.decode a.toNat).ltNum (fmtFp32.decode b.toNat) then b else a

/-- Conversion of one block of 32 source values to an MX format: scale byte and elements (R62). -/
def mxBlock (e : Elem) (cvm : BitVec 2) (us : List Nat) (vs : List FVal) : Nat × List Nat :=
  if vs.any (fun v => v.isNan || v.isInf) then (0xFF, vs.map (fun _ => 0))
  else
    match amaxOf vs with
    | .num _ m x =>
      if m = 0 then (0, (vs.zip us).map (fun p => e.mxConv cvm p.2 p.1))
      else
        let k := max ((Nat.log2 m : Int) + x - e.mxEmax) (-127)
        ((k + 127).toNat, (vs.zip us).map (fun p => e.mxConv cvm p.2 (p.1.scale (-k))))
    | _ => (0xFF, vs.map (fun _ => 0))

/-- Conversion to an MX format, block by block in ascending order: scale bytes and elements (R62).
`fuel` is at least the number of blocks. -/
def mxConvert (e : Elem) (cvm : BitVec 2) : Nat → List Nat → List FVal → List Nat × List Nat
  | 0, _, _ => ([], [])
  | _ + 1, _, [] => ([], [])
  | k + 1, us, vs =>
    let b := mxBlock e cvm (us.take 32) (vs.take 32)
    let r := mxConvert e cvm k (us.drop 32) (vs.drop 32)
    (b.1 :: r.1, b.2 ++ r.2)

/-- The exponent of an E8M0 scale byte; 0xFF is NaN (R44). -/
def scaleExp (b : Nat) : Option Int := if b = 0xFF then none else some ((b : Int) - 127)

/-- An MX element's value with its block scale; a NaN scale makes it NaN (R44, R45). -/
def mxValue (e : Elem) (scale bits : Nat) : FVal :=
  match scaleExp scale with
  | none => .nan
  | some x => (e.value bits).scale x

/-! ## FP32 operations -/

def f32 (b : Half) : FVal := fmtFp32.decode b.toNat
def toF32 (v : FVal) : Half := BitVec.ofNat 32 (fmtFp32.enc v)
def f32Add (a b : Half) : Half := toF32 ((f32 a).add (f32 b))
def f32Mul (a b : Half) : Half := toF32 ((f32 a).mul (f32 b))
def f32Max (a b : Half) : Half := toF32 ((f32 a).ordMax (f32 b))
def f32Min (a b : Half) : Half := toF32 ((f32 a).ordMin (f32 b))
def f32One : Half := 0x3F800000#32
/-- A score as an ordering operation writes it: a NaN is the canonical one (R43, R50), any other value is unchanged. -/
def f32Score (b : Half) : Half := if (f32 b).isNan then toF32 .nan else b

/-! ## Chunked sequential accumulation (R64 to R68) -/

/-- Width class of R64: 4, 8, 16 or 32. -/
def Elem.gClass : Elem → Nat
  | .e2m1 | .int4 => 4
  | .fp32 | .int32 => 32
  | .bf16 | .fp16 => 16
  | _ => 8

/-- G of R64 for a pair of operand formats. -/
def groupSize (a b : Elem) : Nat :=
  match max a.gClass b.gClass with
  | 4 => 8
  | 8 => 4
  | 16 => 2
  | _ => 1

/-- CHUNK of R65. -/
def chunkOf (mx : Bool) (c : BitVec 2) : Nat := if mx then 32 else 16 <<< c.toNat

/-- The format of the short run: FP32 when the wider operand is FP32, else R41's short run. -/
def runFmt (g : Nat) : Fmt := if g = 1 then fmtFp32 else fmtShort

/-- One accumulated element: the FP32 (or INT32) total and the run, held as the FP32 encoding of its value. -/
structure AccEl where
  total : Half
  run : Half
  deriving DecidableEq, Repr

/-- The exact sum of a group's products (R66). -/
def groupSum (ps : List FVal) : FVal :=
  match ps with
  | [] => .num false 0 0
  | p :: r => r.foldl FVal.add p

/-- One group step into the run: rounded once (R66). -/
def accGroup (g : Nat) (x : AccEl) (ps : List FVal) : AccEl :=
  let v := (f32 x.run).add (groupSum ps)
  { x with run := toF32 ((runFmt g).round v) }

/-- Promotion of the run into the total with the block scale exponent (R66); a NaN scale gives NaN. -/
def accPromote (x : AccEl) (bscale : Option Int) : AccEl :=
  let r := match bscale with
    | none => FVal.nan
    | some k => (f32 x.run).scale k
  { total := toF32 ((f32 x.total).add r), run := 0 }

/-- Integer accumulation of R68. -/
def accInt (x : AccEl) (ps : List Int) : AccEl :=
  { x with total := x.total + BitVec.ofInt 32 (ps.foldl (· + ·) 0) }

/-- The products of two equally long lists of values. -/
def products (a b : List FVal) : List FVal := (a.zip b).map (fun p => p.1.mul p.2)

/-- A whole accumulation under R66 over already paired element values, for consumers that hold all of it at once
(the skivers). `scales` gives the block-scale exponent of each promotion, in order; groups are consumed `g` at a
time, `fuel` is at least their number, `n` the products so far. -/
def accRun (g chunk : Nat) : Nat → List FVal → List FVal → List (Option Int) → Nat → AccEl → AccEl
  | 0, _, _, _, _, x => x
  | _ + 1, [], _, sc, n, x => if n % chunk = 0 then x else accPromote x (sc.headD (some 0))
  | k + 1, as, bs, sc, n, x =>
    let zero := FVal.num false 0 0
    let x := accGroup g x (products (padTo zero g as) (padTo zero g bs))
    let n := n + g
    if n % chunk = 0 then accRun g chunk k (as.drop g) (bs.drop g) (sc.drop 1) n (accPromote x (sc.headD (some 0)))
    else accRun g chunk k (as.drop g) (bs.drop g) sc n x

/-- Tensor scales of R47: the product of the two scales, then the total times it. -/
def tensorScale (total sa sb : Half) : Half := f32Mul total (f32Mul sa sb)

/-! ## Square roots by digits, binary64 (R106) -/

/-- Floor of the square root: candidate bits from `i−1` down. -/
def isqrtGo (n : Nat) : Nat → Nat → Nat
  | 0, r => r
  | i + 1, r =>
    let c := r + 2 ^ i
    if c * c ≤ n then isqrtGo n i c else isqrtGo n i r

def isqrt (n : Nat) : Nat := isqrtGo n (Nat.log2 n / 2 + 1) 0

/-- The exact square root of a number with sticky bit: at least `p` bits. -/
def sqrtVal (p m : Nat) (e : Int) : FVal :=
  let k := 2 * p
  let e1 := e - k
  let k := if e1 % 2 = 0 then k else k + 1
  let e2 := e - k
  let n := m <<< k
  let r := isqrt n
  .num false (2 * r + b2n (decide (r * r ≠ n))) (e2 / 2 - 1)

/-- The quotient of two numbers with sticky bit: at least `p` bits. -/
def divVal (p : Nat) (a : Bool) (m : Nat) (e : Int) (b : Bool) (n : Nat) (f : Int) : FVal :=
  let k := p + Nat.log2 n
  let x := m <<< k
  .num (a != b) (2 * (x / n) + b2n (decide (x % n ≠ 0))) (e - f - k - 1)

def f64 (w : Word) : FVal := fmtF64.decode w.toNat
def toF64 (v : FVal) : Word := BitVec.ofNat 64 (fmtF64.enc v)
def f64Add (a b : Word) : Word := toF64 ((f64 a).add (f64 b))
def f64Sub (a b : Word) : Word := toF64 ((f64 a).add (f64 b).neg)
def f64Mul (a b : Word) : Word := toF64 ((f64 a).mul (f64 b))
def f64Fma (d a b : Word) : Word := toF64 ((f64 d).add ((f64 a).mul (f64 b)))

/-- A free F64 value as an operation writes it: a NaN is the canonical one (R43, R106). -/
def f64Canon (w : Word) : Word := if (f64 w).isNan then toF64 .nan else w

/-- f.div: correctly rounded quotient of numbers; NaN and infinity as products with the reciprocal (DEDUCED, log 4);
a zero divisor and infinity by infinity are open. -/
def f64Div (a b : Word) : Word :=
  match f64 a, f64 b with
  | .nan, _ => toF64 .nan
  | _, .nan => toF64 .nan
  | .num x m e, .num y n f =>
    if n = 0 then f64Canon (Config.f64Div a b)
    else if m = 0 then toF64 (.num (x != y) 0 0)
    else toF64 (divVal 60 x m e y n f)
  | .inf x, .num y n _ => if n = 0 then f64Canon (Config.f64Div a b) else toF64 (.inf (x != y))
  | .num x _ _, .inf y => toF64 (.num (x != y) 0 0)
  | .inf _, .inf _ => f64Canon (Config.f64Div a b)

/-- f.sqrt: correctly rounded, of +∞ it is +∞; the root of a negative operand is open, of −0 the sign of the zero alone (log
4). -/
def f64Sqrt (a : Word) : Word :=
  match f64 a with
  | .nan => toF64 .nan
  | .inf false => toF64 (.inf false)
  | .inf true => f64Canon (Config.f64Sqrt a)
  | .num n m e =>
    if m = 0 then (if n then Config.f64Sqrt a &&& 0x8000000000000000 else a)
    else if n then f64Canon (Config.f64Sqrt a)
    else toF64 (sqrtVal 60 m e)

def f64Min (a b : Word) : Word := toF64 ((f64 a).ordMin (f64 b))
def f64Max (a b : Word) : Word := toF64 ((f64 a).ordMax (f64 b))
/-- f.cvt.i (R106). -/
def f64ToInt (a : Word) : Word := BitVec.ofInt 64 (intConv (-(2 ^ 63 : Nat)) ((2 ^ 63 : Nat) - 1) none (f64 a))
def intToF64 (a : Word) : Word := toF64 (.ofInt a.toInt)
def f64Abs (a : Word) : Word := toF64 (f64 a).abs
def f64Neg (a : Word) : Word := toF64 (f64 a).neg

/-! ## Philox4x32-10 (R219) -/

def philoxRound (k0 k1 : Half) (c : Half × Half × Half × Half) : Half × Half × Half × Half :=
  let p0 := 0xD2511F53 * c.1.toNat
  let p1 := 0xCD9E8D57 * c.2.2.1.toNat
  let h0 := BitVec.ofNat 32 (p0 / 2 ^ 32)
  let l0 := BitVec.ofNat 32 p0
  let h1 := BitVec.ofNat 32 (p1 / 2 ^ 32)
  let l1 := BitVec.ofNat 32 p1
  (h1 ^^^ c.2.1 ^^^ k0, l1, h0 ^^^ c.2.2.2 ^^^ k1, l0)

def philoxGo : Nat → Half → Half → Half × Half × Half × Half → Half × Half × Half × Half
  | 0, _, _, c => c
  | n + 1, k0, k1, c => philoxGo n (k0 + 0x9E3779B9#32) (k1 + 0xBB67AE85#32) (philoxRound k0 k1 c)

/-- One block of the generator for a 128-bit counter. -/
def philox (k0 k1 : Half) (ctr : Nat) : List Half :=
  let w := fun i => BitVec.ofNat 32 (ctr >>> (32 * i))
  let r := philoxGo 10 k0 k1 (w 0, w 1, w 2, w 3)
  [r.1, r.2.1, r.2.2.1, r.2.2.2]

/-- The words of `n` consecutive blocks from counter `ctr` (R220). -/
def philoxWords (k0 k1 : Half) (ctr : Nat) : Nat → List Half
  | 0 => []
  | n + 1 => philox k0 k1 (ctr % 2 ^ 128) ++ philoxWords k0 k1 (ctr + 1) n

/-- 16-bit draws, low half of each word first (R56). -/
def draws : List Half → List Nat
  | [] => []
  | w :: r => (w.toNat % 65536) :: (w.toNat / 65536) :: draws r

/-! ## Special functions (R52, R211): an open candidate, used where it lies within the error bound -/

/-- 2^f for a fraction of 160 bits, with 224 bits after the point, from below: product of the square roots of 2. -/
def exp2Go : Nat → Nat → Nat → Nat → Nat
  | 0, _, _, acc => acc
  | k + 1, root, frac, acc =>
    let root := isqrt (root <<< 224)
    let acc := if bitOf frac k then (acc * root) >>> 224 else acc
    exp2Go k root frac acc

/-- Bounds of exp2 of an FP32 number of magnitude up to 1024: its fraction is a multiple of 2^−160, and 160 steps lose less
than 2^12 units of the last place. -/
def exp2Val (neg : Bool) (m : Nat) (e : Int) : FVal × FVal :=
  let t : Int := (m <<< (e + 160).toNat : Nat)
  let t : Int := if neg then -t else t
  let n := t / (2 ^ 160 : Nat) - 224
  let f := (t % (2 ^ 160 : Nat)).toNat
  let x := exp2Go 160 (2 <<< 224) f (1 <<< 224)
  (.num false x n, .num false (if f = 0 then x else x + 4096) n)

/-- Binary digits of log2 of x in [1,2), x with 192 bits after the point. -/
def log2Go : Nat → Nat → Nat → Nat
  | 0, _, acc => acc
  | k + 1, x, acc =>
    let y := (x * x) >>> 192
    if 2 ^ 193 ≤ y then log2Go k (y >>> 1) (2 * acc + 1) else log2Go k y (2 * acc)

/-- Bounds of log2 of a positive number, with 80 bits after the point; of a power of two its log2. -/
def log2Val (m : Nat) (e : Int) : FVal × FVal :=
  let p := Nat.log2 m
  let x := if p ≤ 192 then m <<< (192 - p) else m >>> (p - 192)
  let i : Int := ((p : Int) + e) * (2 ^ 80 : Nat) + (log2Go 80 x 0 : Nat)
  let v := fun (i : Int) => FVal.num (decide (i < 0)) i.natAbs (-80)
  (v i, v (if x = 2 ^ 192 then i else i + 2))

/-- Bounds of the reciprocal. -/
def recipVal (neg : Bool) (m : Nat) (e : Int) : FVal × FVal :=
  let q := 2 ^ 160 / m
  (.num neg q (-160 - e), .num neg (if q * m = 2 ^ 160 then q else q + 1) (-160 - e))

/-- Bounds of the reciprocal square root of a positive number. -/
def rsqrtVal (m : Nat) (e : Int) : FVal × FVal :=
  let m := if e % 2 = 0 then m else 2 * m
  let h := e / 2
  let r := isqrt (2 ^ 320 / m)
  (.num false r (-160 - h), .num false (if r * r * m = 2 ^ 320 then r else r + 1) (-160 - h))

/-- Two values between which the exact value of a special function lies, equal where it is that value: of a number outside
R52. What exp2 gives past 1024 exceeds every format, or lies between 0 and 2^−1024. -/
def sfBounds (fn : Nat) (neg : Bool) (m : Nat) (e : Int) : FVal × FVal :=
  match fn with
  | 0 =>
    if magLt 1024 0 m e then (if neg then (.num false 0 0, .num false 1 (-1024)) else (.inf false, .inf false))
    else exp2Val neg m e
  | 1 => log2Val m e
  | 2 => recipVal neg m e
  | _ => rsqrtVal m e

/-- The unit of the error bound at the result `y` (R211): the exponent of 2. -/
def sfUnit (fn m : Nat) (e : Int) (y : FVal) : Int :=
  match y with
  | .num _ ym ye =>
    let u := if ym = 0 then fmtFp32.lsb else fmtFp32.ulpExp ym ye
    match fn with
    | 0 => u
    | 1 =>
      -- inputs in [0.5, 2] have an absolute bound
      if !magLt m e 1 (-1) && !magLt 2 0 m e then -22 else u
    | _ => u
  | _ => 0

/-- |y − c| ≤ 2^u for numbers. -/
def within (y c : FVal) (u : Int) : Bool :=
  match (y.add c.neg).abs with
  | .num _ m e => !((FVal.num false 1 u).ltC (.num false m e))
  | _ => false

/-- The special functions: R52 on special inputs; otherwise the candidate where it lies within the bound of R211 of all
that the exact value can be, else the lower bound rounded to nearest even. -/
def specialFn (fn : Nat) (a : Half) : Half :=
  match f32 a with
  | .nan => toF32 .nan
  | .inf false => if fn < 2 then toF32 (.inf false) else toF32 (.num false 0 0)
  | .inf true =>
    match fn with
    | 0 => toF32 (.num false 0 0)
    | 2 => toF32 (.num true 0 0)
    | _ => toF32 .nan
  | .num neg m e =>
    if m = 0 then
      match fn with
      | 0 => f32One
      | 1 => toF32 (.inf true)
      | _ => toF32 (.inf neg)
    else if neg ∧ (fn = 1 ∨ fn = 3) then toF32 .nan
    else
      let c := sfBounds fn neg m e
      let y := Config.specialFn fn a
      let u := sfUnit fn m e (f32 y)
      if within (f32 y) c.1 u && within (f32 y) c.2 u then y else toF32 c.1

end Sys2Proof.Machine
end

