-- ==== Sys2Proof/Machine/State.lean ====
section
/-! DEFINITION. The state of the part as plain data, every piece the spec names, and the state after reset. A field's
default is its reset value; a table's absent entry is at its default. Names and rules as INVENTORY.md lists them. -/

namespace Sys2Proof.Machine

/-- Tags of R70; the reserved tags are never held. -/
inductive Tag where
  | empty | int | f64 | seg | addr | code | stat | hndl | tcfg
  deriving DecidableEq, Repr

/-- A tagged word (R70). -/
structure TWord where
  tag : Tag := .empty
  data : Word := 0
  deriving DecidableEq, Repr

/-- A memory with error marks: bytes, poisoned units (rows or sectors), and code words in error with the number of
symbols struck (R154, R317). -/
structure EccMem where
  bytes : Bytes := []
  poison : Table Bool := []
  upsets : Table Nat := []
  deriving DecidableEq, Repr

/-! ## Threads -/

/-- ST of R137. -/
inductive ThrSt where
  | stopped | run | wait | dispatch | faulted
  deriving DecidableEq, Repr

/-- Commands of THR_CTL (R112, R137). -/
inductive ThrCmd where
  | start | stop | resume | kill
  deriving DecidableEq, Repr

/-- How a loaded value becomes a word (R78, R79). -/
inductive LoadAs where
  | zero | sign | f64 | tagged
  deriving DecidableEq, Repr

/-- What completes when an outstanding scalar access has its answer. -/
inductive AccFin where
  | load (rd : Nat) (as : LoadAs) (base : Option (Nat × Word))
  | store (base : Option (Nat × Word))
  | push
  | pop (rd : Nat)
  | call (target : Word) (compat : Bool)
  | ret
  | acquire (rd : Nat) (scope : Scope)
  | release
  deriving DecidableEq, Repr

/-- The slice map as a translator holds it (R312, R315). -/
structure SliceMap where
  bits : BitVec 80 := BitVec.allOnes 80
  n : Nat := 80
  deriving DecidableEq, Repr

/-- A checked scalar access: segment address, global address, size, bytes of a store, and its completion; the map that
translated it when it issued (R315). -/
structure GAcc where
  addr : Word
  ga : Nat
  size : Nat
  tagged : Bool
  wdata : Option (List Byte)
  kseg : Bool
  stream : Bool
  fin : AccFin
  map : SliceMap := {}
  /-- its slot at the core's source port (R372); 128: none -/
  slot : Nat := 128
  /-- the response that its source port has taken already: status number and data (R382, R404) -/
  answer : Option (Nat × List Byte) := none
  deriving DecidableEq, Repr

/-- Why a thread is held between two instructions (R111, R160, R174, R298). -/
inductive Held where
  /-- an access that bypasses the cache is outstanding; its fabric slot, when it takes one -/
  | acc (g : GAcc)
  /-- the access stalls for the miss slot, or owns the miss -/
  | miss (g : GAcc)
  /-- the instruction waits for write-backs of the core's dirty lines, then runs on with its checked access, if it
  makes one -/
  | drain (i : Instr) (g : Option GAcc)
  /-- a blocking instruction that waits (ST is WAIT) -/
  | wait (i : Instr)
  /-- a commit whose message is in flight -/
  | commit (id : Nat) (i : Instr)
  /-- an instruction accepted by the matrix or vector engine -/
  | engine
  deriving DecidableEq, Repr

/-- One hardware thread (R75 to R77, R137). Pointers and pc are the data of ADDR words. -/
structure ThreadSt where
  regs : Table TWord := []
  pc : Word := 0
  dsp : Word := 0
  rtp : Word := 0
  lnk : TWord := {}
  lc : Word := 0
  ls : Word := 0
  le : Word := 0
  priv : Bool := false
  compat : Bool := false
  st : ThrSt := .stopped
  df : Bool := false
  pri : BitVec 2 := 0
  maxpriv : Bool := false
  cause : Half := 0
  entry : Word := 0
  segt : Word := 0
  ssegt : Word := 0
  sdsp : Word := 0
  srtp : Word := 0
  /-- the THREAD_FAULT notice of the present fault has been taken (R126) -/
  notified : Bool := false
  held : Option Held := none
  /-- THR_CTL commands that apply at the next boundary (R112), oldest first -/
  cmds : List ThrCmd := []
  staging : List Byte := []
  /-- the bound queue whose handler runs (R270) -/
  handler : Option (Fin 32) := none
  deriving DecidableEq, Repr

/-- Thread n after a core reset (R77, R137); thread 0 is at supervisor level. -/
def ThreadSt.reset (n : Nat) : ThreadSt :=
  { priv := decide (n = 0), maxpriv := decide (n = 0) }

/-- Thread 0's second bank (R125). -/
structure Bank where
  regs : Table TWord := []
  dsp : Word := 0
  rtp : Word := 0
  lc : Word := 0
  ls : Word := 0
  le : Word := 0
  deriving DecidableEq, Repr

/-! ## Core memories -/

/-- A segment-cache entry (R86, R87). -/
structure SegEnt where
  table : Nat
  sel : Nat
  base : Word
  attr : Word
  deriving DecidableEq, Repr

/-- A data-cache way (R158, R159): line address, bytes, dirty mask, age, a struck parity. -/
structure DLine where
  valid : Bool := false
  line : Nat := 0
  bytes : List Byte := []
  dirty : Nat := 0
  age : Nat := 0
  parity : Bool := false
  deriving DecidableEq, Repr

/-- Why a dirty line is written back (R160, R162, R293, R298). -/
inductive WbWhy where
  | evict (t : Fin 8)
  | drain (t : Fin 8)
  | action
  | dma
  deriving DecidableEq, Repr

/-- A write-back under way: line address, bytes and dirty mask, its class (R386), the map that translates it, and its
slot (R372; 128 while it waits for one). -/
structure WriteBack where
  line : Nat
  bytes : List Byte
  mask : Nat
  why : WbWhy
  cls : Nat := 1
  map : SliceMap := {}
  slot : Nat := 128
  /-- its response, once the source port has it (R382) -/
  answer : Option (Nat × List Byte) := none
  deriving DecidableEq, Repr

/-- The data cache (R158 to R166). The miss slot names the thread whose access owns it. -/
structure DCache where
  ways : Table DLine := []
  miss : Option (Fin 8) := none
  wbs : List WriteBack := []
  /-- an action of CORE_DCACHE_CTL in progress: true for INVAL -/
  action : Option Bool := none
  mcCnt : BitVec 16 := 0
  parCnt : BitVec 16 := 0
  deriving DecidableEq, Repr

/-- The scratchpad (R138 to R157, R164). -/
structure Spad where
  mem : EccMem := {}
  portmap : BitVec 8 := 0
  period : BitVec 8 := 0x10
  /-- rows a requested sweep still has to visit, by group; none when no sweep is on -/
  sweep : List (Nat × Nat) := []
  ptr : Table Nat := []
  /-- the cluster's pacer when a group's pointer last advanced (R156) -/
  moved : Table Nat := []
  ceCnt : BitVec 16 := 0
  deriving DecidableEq, Repr

/-- A thread's scratchpad window (R144, R164). -/
structure Window where
  base : Nat := 0
  bound : Nat := 0
  deriving DecidableEq, Repr

def Window.reset (n : Nat) : Window := { bound := if n = 0 then 8192 else 0 }

/-- A keeper (R165). -/
structure Keeper where
  base : Nat := 0
  bound : Nat := 0
  scope : BitVec 2 := 0
  wr : Bool := false
  rd : Bool := false
  en : Bool := false
  deriving DecidableEq, Repr

structure Keepers where
  k : Table Keeper := []
  nowinCnt : BitVec 16 := 0
  boundCnt : BitVec 16 := 0
  info : Half := 0
  even : Bool := false
  evline : BitVec 4 := 0
  deriving DecidableEq, Repr

/-! ## Matrix and vector engines -/

/-- A tile register (R167): data as a little-endian number of 16,384 bytes. -/
structure Tile where
  data : Bytes := []
  conf : Word := 0
  cfg : Bool := false
  full : Bool := false
  deriving DecidableEq, Repr

/-- The locked mode of an accumulator set (R184). -/
inductive AccMode where
  | int
  | float (g chunk : Nat)
  deriving DecidableEq, Repr

/-- An accumulator set of the matrix or vector engine (R167, R205): elements, product count, mode, drain scales. -/
structure AccSet where
  els : Table AccEl := []
  n : Nat := 0
  mode : Option AccMode := none
  sa : Word := 0
  sb : Word := 0
  /-- CHUNK code of the instruction that locked the mode (R202) -/
  chunkCode : BitVec 2 := 0
  /-- G of R64 of that instruction, an integer one included -/
  gval : Nat := 0
  deriving DecidableEq, Repr

/-- Where a matrix instruction's memory operand lies, once it is checked: physical scratchpad bytes, or global ones. -/
inductive MLoc where
  | none
  | spad (off len : Nat)
  | glob (ga len : Nat) (kseg : Bool)
  deriving DecidableEq, Repr



/-- A request of an engine for global bytes: its slot at the core's port (R372; 128: it has none), and its response, once
its source port has it (R382). -/
structure Req where
  ga : Nat
  len : Nat
  slot : Nat := 128
  answer : Option (Nat × List Byte) := none
  deriving DecidableEq, Repr

/-- A matrix instruction in the engine: who issued it, its operand words and window as issued (R145), whether its
checks have passed and where its memory operands then lie, whether it has started and whether it has issued its first
write (R174 to R176), its staging buffer, and the status a write was refused with. -/
structure MtxOp where
  t : Fin 8
  i : Instr
  a : TWord
  b : TWord
  win : Window
  checked : Bool := false
  la : MLoc := .none
  lb : MLoc := .none
  started : Bool := false
  written : Bool := false
  buf : List Byte := []
  fail : Option Status := none
  /-- the refusal was a register's PRIV (R113) -/
  priv : Bool := false
  /-- key and drain counter of a stochastic drain, once a later write could change them (R191) -/
  rng : Option (Half × Half × Nat) := none
  /-- the working copy of its accumulator set: of a t.mma that has started (R167, R185) -/
  work : Option AccSet := none
  /-- its global requests that have no response yet, and the map that translates them (R315) -/
  reqs : List Req := []
  map : SliceMap := {}
  /-- of a t.rest: its header has been read and the whole record is on its way (R203) -/
  whole : Bool := false
  deriving DecidableEq, Repr

/-- An operand-reuse latch (R167, R187): the tile it holds and that tile's rows. -/
structure Reuse where
  tile : Fin 8
  rows : Bytes
  deriving DecidableEq, Repr

structure MtxSt where
  tiles : Table Tile := []
  accs : Table AccSet := []
  /-- the latch of each operand role, when valid -/
  reuseA : Option Reuse := none
  reuseB : Option Reuse := none
  special : Half := 0
  spEven : Bool := false
  spLine : BitVec 4 := 0
  amaxLast : Table Half := []
  amaxCum : Table Half := []
  ops : List MtxOp := []
  /-- writes of MTX_ARM that wait, in order: bits 2:0, and the threads whose earlier drains are unfinished (R196) -/
  arms : List (BitVec 3 × List (Fin 8)) := []
  /-- the array was busy in the previous complete ramp window; in the present one (R488) -/
  warm : Bool := false
  busyWin : Bool := false
  deriving DecidableEq, Repr

/-- A vector instruction accepted and not yet performed (R207), with its scalar operand, the physical scratchpad
offset of its row, and key and counter at issue (R220). -/
structure VecOp where
  t : Fin 8
  i : Instr
  a : TWord := {}
  row : Nat := 0
  rng : Half × Half × Nat := (0, 0, 0)
  deriving DecidableEq, Repr

structure VecSt where
  v : Table (BitVec 2048) := []
  m : Table (BitVec 64) := []
  accs : Table AccSet := []
  key : Table Half := []
  ctr : Table Half := []
  amaxLast : Half := 0
  amaxCum : Half := 0
  ops : List VecOp := []
  /-- writes of VEC_ARM that wait: how many of the waiting instructions are before each (R216) -/
  arms : List Nat := []
  deriving DecidableEq, Repr

/-! ## DMA -/

inductive DmaRun where
  | idle | waitStart | run | stopped
  deriving DecidableEq, Repr

/-- A resolved side of a descriptor (R234): the segment words, or the scratchpad window. -/
inductive DmaSide where
  | seg (base attr : Word)
  | spad
  deriving DecidableEq, Repr

/-- A DMA channel (R245). -/
structure DmaCh where
  run : DmaRun := .idle
  status : BitVec 4 := 0
  cause : BitVec 8 := 0
  done : BitVec 16 := 0
  i0 : Nat := 0
  i1 : Nat := 0
  i2 : Nat := 0
  cur : Nat := 0
  srcW : Word := 0
  dstW : Word := 0
  /-- the 64 bytes of the current descriptor -/
  desc : List Byte := []
  src : DmaSide := .spad
  dst : DmaSide := .spad
  win : Window := {}
  thr : Fin 8 := 0
  sup : Bool := false
  /-- bytes of the element read and not yet written (R230) -/
  buf : Option (List Byte) := none
  half : Bool := false
  /-- a stop that waits for the writes in flight: the status to end with (R238) -/
  ending : Option (BitVec 4) := none
  /-- a write of the element under way was refused, or is never sent: it will not be complete (R238) -/
  short : Bool := false
  /-- the last descriptor is complete and its successor has not been read (R233) -/
  chain : Bool := false
  /-- the cluster pacer when the descriptor became current (R231, R35) -/
  since : Nat := 0
  /-- global requests of the element that have no response yet, in order, the source bytes that have come, and the map that
  translates them (R236, R315) -/
  reqs : List Req := []
  got : List Byte := []
  map : SliceMap := {}
  deriving DecidableEq, Repr

/-! ## Queues, cinch membership, debug -/

/-- A combining slot (R275, R276). -/
structure Slot where
  used : Bool := false
  key : Nat := 0
  count : Nat := 0
  npart : Nat := 0
  arrived : Nat := 0
  bitmap : Nat := 0
  /-- bytes of a contribution (R273) -/
  len : Nat := 0
  deriving DecidableEq, Repr

/-- A hardware queue (R287). -/
structure QueueSt where
  base : Nat := 0
  log2 : Nat := 0
  head : BitVec 16 := 0
  tail : BitVec 16 := 0
  portErr : Bool := false
  thr : Fin 8 := 0
  bind : Bool := false
  kind : Bool := false
  scope : BitVec 2 := 0
  opened : Bool := false
  ord : Bool := false
  op : BitVec 3 := 0
  nslot : BitVec 4 := 0
  param : BitVec 10 := 0
  handler : Word := 0
  slotRows : Nat := 0
  slotRow : Nat := 0
  /-- the message at HEAD is in service (R266) -/
  inServ : Bool := false
  /-- records in the ring from HEAD on: granules, and whether it is a PAD (log 15) -/
  recs : List (Nat × Bool) := []
  slots : Table Slot := []
  deriving DecidableEq, Repr

/-- CINCH_MAP[g] (R287), and where the core's arrival and its completion stand. -/
structure CinchMap where
  out : Bool := false
  abort : Bool := false
  member : Bool := false
  evline : BitVec 4 := 0
  /-- the core's arrival is on its way to the node; is counted there in the current episode; in the next (R281) -/
  flight : Bool := false
  cur : Bool := false
  nxt : Bool := false
  /-- the completion is on its way to the core -/
  due : Bool := false
  deriving DecidableEq, Repr

/-- Debug state of a core (R514 to R518). -/
structure DbgSt where
  haltReq : Bool := false
  halted : Bool := false
  waited : Bool := false
  tqmask : BitVec 8 := 0
  tcount : BitVec 16 := 0
  step : BitVec 3 := 0
  bp : Table Word := []
  wp : Table Word := []
  wpc : Table Word := []
  item : BitVec 4 := 0
  trace : Table (Word × Word) := []
  /-- the thread that STEPGO lets issue one instruction (R515) -/
  stepping : Option (Fin 8) := none
  /-- the stepped instruction has not ended yet: its message's status is outstanding (R515) -/
  stepOut : Bool := false
  deriving DecidableEq, Repr

/-- A core. -/
structure CoreSt where
  thr : Table ThreadSt := []
  shadow : Bank := {}
  /-- SHADOW of R137: the shadow bank is in use; the frozen bank is then in `shadow` -/
  inShadow : Bool := false
  /-- thread 0's last instruction was one of R123: notices wait until the next has issued -/
  holdOff : Bool := false
  gnp : BitVec 8 := 0
  gns : BitVec 8 := 0
  policyStop : Bool := false
  stopped : Bool := false
  deadlock : Bool := false
  /-- pacer ticks for which the condition of R132 has held, up to 100 -/
  dlTicks : Nat := 0
  gateCount : Nat := 0
  gateBase : Word := 0
  excvec : Word := 0
  dfvec : Word := 0
  emstk : Word := 0
  resetCause : BitVec 17 := 0
  segs : List SegEnt := []
  icPar : BitVec 16 := 0
  /-- instruction cache: the bytes of the lines it holds, by line number; none: not held (R163) -/
  icache : Table (List Byte) := []
  /-- cached instruction lines struck by parity (R163) -/
  icStruck : Table Bool := []
  dc : DCache := {}
  spad : Spad := {}
  wins : Table Window := []
  keep : Keepers := {}
  mtx : MtxSt := {}
  vec : VecSt := {}
  dma : Table DmaCh := []
  /-- a DEADLOCK notice that thread 0 has not yet taken: the mask of the waiting threads (R126, R133) -/
  dlPend : Option Nat := none
  evt : BitVec 16 := 0
  /-- pending lines whose firing an ev.wait consumes as an acquire: a cinch or skiver completion (R280, R305) -/
  evtAcq : BitVec 16 := 0
  queues : Table QueueSt := []
  epoch : BitVec 16 := 1
  sendErr : BitVec 16 := 0
  sendInfo : Half := 0
  cinch : Table CinchMap := []
  tclass : BitVec 16 := 0x5555
  dbg : DbgSt := {}
  fenced : Bool := false
  /-- the mark was set by a third fault or by start-up: only CORE_INIT clears it (R507) -/
  hardFence : Bool := false
  /-- own stale bits, one a slice (R353) -/
  stale : BitVec 80 := 0
  deriving DecidableEq, Repr


/-! ## Clusters -/

/-- A token bucket (R391, R398). -/
structure Bucket where
  en : Bool := false
  depth : Nat := 16
  rate : Nat := 0
  tokens : Nat := 0
  /-- the source's clock at the last window boundary (R35, R391) -/
  since : Nat := 0
  deriving DecidableEq, Repr

/-- A counter node of a cinch group (R279, R281, R288): counts of the current and the next episode. -/
structure CinchNode where
  par : Bool := false
  arr : Nat := 0
  next : Nat := 0
  loc : Nat := 0
  /-- the current episode has been reported to the root; the report is still on its way -/
  reported : Bool := false
  sent : Bool := false
  deriving DecidableEq, Repr

/-- A record of a peer's performed request (R411), and the target's pacer then. -/
structure RemoteRec where
  key : Nat
  gen : Bool
  status : Nat
  since : Nat := 0
  deriving DecidableEq, Repr

structure ClusterSt where
  /-- pacer count (R32) and the half latched at the last read of MGT_PACER_LO (R37) -/
  pacer : Nat := 0
  pacerHi : Half := 0
  paceValid : Bool := false
  pace : BitVec 16 := 0
  cal : Bool := false
  trim : BitVec 16 := 0
  /-- calibrated since the device cold reset (R33), and the management time of the last calibration (R34) -/
  calOnce : Bool := false
  calTime : Nat := 0
  nodes : Table CinchNode := []
  meshTb : Table Bucket := []
  reinTb : Table Bucket := []
  tbwin : BitVec 16 := 0x000A
  wrr : BitVec 24 := 0x010306
  retryMax : Nat := 4
  retryTimeout : Nat := 0x1F4
  mark : BitVec 4 := 2
  resend : BitVec 16 := 0
  crc : BitVec 16 := 0
  demote : BitVec 16 := 0
  fault : BitVec 16 := 0
  hintUp : Bool := false
  fenced : Bool := false
  /-- t.mma starts in the present ramp window (R488) -/
  rampUsed : Nat := 0
  /-- the pacer at the last boundary of a ramp window (R35, R488) -/
  rampSince : Nat := 0
  remote : List RemoteRec := []
  deriving DecidableEq, Repr

/-! ## Slices and skivers -/

/-- A descriptor accepted by a skiver (R334): W0 to W6, who posted it, its class, and the stale bit it carries (R353). -/
structure SkvDesc where
  bytes : List Byte
  /-- poster: core number, thread; or the command processor -/
  core : Nat
  thr : Nat
  byCp : Bool
  dev : Nat
  cls : BitVec 2 := 0
  stale : Bool := false
  deriving DecidableEq, Repr

/-- A result delivery of a descriptor (R354): a keeper write to a global address, or a message with its header word to
the queue of a handle; issued or not, its message number in flight, its status. -/
structure SkvDel where
  addr : Nat
  bytes : List Byte
  hdr : Option Word := none
  issued : Bool := false
  msg : Nat := 0
  status : Option Nat := none
  /-- the slot of a keeper write at the slice's port (R372; 128: none) -/
  slot : Nat := 128
  deriving DecidableEq, Repr

/-- A skiver context (R336): the descriptor that runs, how far it is, and what it still has to deliver. -/
structure SkvCtx where
  desc : Option SkvDesc := none
  started : Bool := false
  executed : Bool := false
  status : Nat := 0
  dels : List SkvDel := []
  queue : List SkvDesc := []
  deriving DecidableEq, Repr

/-- A cacheable-area record (R352, R366): it exists when `used`. -/
structure Carea where
  used : Bool := false
  stale : Bool := false
  src : Nat := 0
  nrows : Nat := 0
  row : Nat := 0
  deriving DecidableEq, Repr

structure SkvSt where
  buf : EccMem := {}
  prio : SkvCtx := {}
  ord : SkvCtx := {}
  ctl : Half := 0x42
  bwin : Half := 0
  epoch : BitVec 16 := 1
  err : Half := 0
  errInfo : Half := 0
  amaxLast : Half := 0
  amaxCum : Half := 0
  ceCnt : BitVec 16 := 0
  rngKey : Table Half := []
  rngCtr : Table Half := []
  careas : Table Carea := []
  deriving DecidableEq, Repr

/-- A sector that the host caches (R431). -/
structure DirEnt where
  line : Nat
  exclusive : Bool
  /-- a back-invalidate snoop is outstanding, for a write -/
  snoop : Option Bool := none
  deriving DecidableEq, Repr

structure SliceSt where
  mem : EccMem := {}
  clkOk : Bool := false
  ready : Bool := false
  refx : BitVec 2 := 0
  ceCnt : BitVec 16 := 0
  ueCnt : BitVec 16 := 0
  eccValid : Bool := false
  eccAddr : Nat := 0
  period : BitVec 8 := 0x18
  /-- sectors a requested sweep has still to visit; 0 when none is on -/
  sweepLeft : Nat := 0
  walk : Nat := 0
  paceValid : Bool := false
  pace : BitVec 16 := 0
  tempValid : Bool := false
  temp : BitVec 8 := 0
  bank : Nat := 0
  /-- time that the stack clock has counted, in ps (R29) -/
  clock : Nat := 0
  fenced : Bool := false
  dir : List DirEnt := []
  skv : SkvSt := {}
  stb : Bucket := {}
  rtb : Bucket := {}
  swin : BitVec 16 := 0x000A
  sretryMax : Nat := 4
  sretryTimeout : Nat := 0x1E8
  remote : List RemoteRec := []
  deriving DecidableEq, Repr

/-! ## Fabric -/

/-- What a packet to a device carries: kind, target address, the length of a read, the bytes (R404). -/
structure LatBody where
  rsp : Bool := false
  kind : PktKind
  taddr : Word
  rlen : Nat := 0
  bytes : List Byte := []
  deriving DecidableEq, Repr

/-- Where a packet goes: a unit (a source port's number, 600 + k the block of cluster k, 700 the device block), all
routers of a row or a column, an edge row, or a latigo link (R368, R372, R378, R403). -/
inductive Dest where
  | unit (u : Nat)
  | row (y : Nat)
  | column (x : Nat)
  | edge (south : Bool)
  | link (l : Nat)
  deriving DecidableEq, Repr

/-- A source slot (R372, R380): its generation, and of a request that occupies it the class, attempts, network, way,
plane, and the mark that a router has set (R371, R383). -/
structure FabSlot where
  busy : Bool := false
  gen : Bool := false
  cls : Nat := 0
  attempts : Nat := 0
  rein : Bool := false
  dest : Dest := .unit 0
  plane : Nat := 0
  cm : Bool := false
  /-- discarded with its plane: nothing answers it before it is sent again (R380, R506) -/
  lost : Bool := false
  /-- the map that translated its address (R315) -/
  map : SliceMap := {}
  /-- MCOL of the way to another device (R407) -/
  mcol : Nat := 0
  /-- the source's clock at the last send (R35, R380) -/
  sent : Nat := 0
  /-- what a request to another device carries: its device, port address and packet, kept for a re-send (R380, R411) -/
  dev : Nat := 0
  body : Option LatBody := none
  /-- answers so far of a multicast to devices: device and status number (R409) -/
  got : List (Nat × Nat) := []
  deriving DecidableEq, Repr

/-- A class window of a source port (R384). -/
structure FabWin where
  win : Nat := 64
  since : Nat := 0
  good : Nat := 0
  deriving DecidableEq, Repr

/-- A source port (R372, R375, R384); slots by number, windows by class. -/
structure FabPort where
  slots : Table FabSlot := []
  wins : Table FabWin := []
  plane : Nat := 0
  deriving DecidableEq, Repr

/-- A target's record of the last performed request of a slot (R381). -/
structure DupRec where
  gen : Bool := false
  status : Nat := 0
  valid : Bool := false
  deriving DecidableEq, Repr

structure Fabric where
  ports : Table FabPort := []
  dups : Table DupRec := []
  planeFenced : BitVec 4 := 0
  planeDraining : BitVec 4 := 0
  /-- management time at which each plane's drain began (R506) -/
  drainSince : Table Nat := []
  /-- packets forwarded and marked, under 64 × plane + cluster (R383, R398) -/
  pkts : Table (BitVec 16) := []
  marked : Table (BitVec 16) := []
  cmapValid : Bool := false
  cmapSeq : BitVec 8 := 0
  cmapPeriod : BitVec 16 := 0x0064
  cmap : Table (BitVec 8) := []
  /-- management time of the map (R475) -/
  cmapTime : Nat := 0
  cmapPkts : Table (BitVec 16) := []
  cmapMarked : Table (BitVec 16) := []
  deriving DecidableEq, Repr

/-! ## Latigo -/

structure LinkSt where
  st : BitVec 2 := 0
  lanes : BitVec 2 := 0
  peer : BitVec 10 := 0
  mismatch : Bool := false
  uncorr : BitVec 16 := 0
  corr : BitVec 16 := 0
  fenced : Bool := false
  laneFenced : BitVec 2 := 0
  /-- training stage reached (R416) -/
  stage : Nat := 0
  /-- management times of the frames discarded in the last 10 ms (R417) -/
  recent : List Nat := []
  /-- the lanes that the far end has turned off, and the frames that wait for theirs (R408) -/
  laneOff : BitVec 24 := 0
  egress : List (Nat × Frame) := []
  /-- management time at which a stage failed (R416) -/
  failedAt : Nat := 0
  deriving DecidableEq, Repr

structure LatGroup where
  locked : Bool := false
  fmt : Bool := false
  rate : BitVec 2 := 0
  deriving DecidableEq, Repr

/-- The flits of a packet received so far (R404). -/
structure Partial where
  key : Nat
  frames : List Frame
  deriving DecidableEq, Repr

/-- A packet that is being forwarded: the link its frames take, and how far it has come (R408). -/
structure Forwarded where
  key : Nat
  crc : Half
  link : Nat
  flit : Nat := 0
  bytes : Nat := 0
  deriving DecidableEq, Repr

structure Latigo where
  id : BitVec 10 := 0
  memen : Bool := false
  degthr : BitVec 16 := 0x0010
  retryMax : Nat := 4
  hold : Nat := 0x7D0
  timeout : Nat := 0x0FA0
  cinchLost : BitVec 16 := 0
  noroute : BitVec 16 := 0
  groups : Table LatGroup := []
  rows : Table (BitVec 48) := []
  cols : Table (BitVec 48) := []
  links : Table LinkSt := []
  parts : List Partial := []
  /-- packets that are being forwarded -/
  fwd : List Forwarded := []
  /-- the last link taken from each routing entry, columns from 32 on (R408) -/
  gang : Table Nat := []
  deriving DecidableEq, Repr

/-! ## Cinch root, slice map -/

structure CinchRoot where
  par : Bool := false
  arr : Nat := 0
  next : Nat := 0
  child : Nat := 0
  childNext : Nat := 0
  clusters : Nat := 0
  /-- CINCH_XCFG: enable, parent and number of child devices (R288) -/
  en : Bool := false
  parent : Nat := 0x3FF
  children : Nat := 0
  /-- reported to the parent and waiting for its release -/
  reported : Bool := false
  deriving DecidableEq, Repr

/-! ## Messages in flight (R253 to R262, R334) -/

/-- Who sent a message (STYPE of R253); a sender is one thread, one skiver or the injection port (R262). -/
inductive Sender where
  | thread (dev : Nat) (core thr : Nat)
  | skiver (dev : Nat) (slice : Nat)
  | cp (dev : Nat)
  deriving DecidableEq, Repr

/-- Where a message goes: a queue, a skiver, the injection-port queue; on this device or a peer. -/
inductive Target where
  | queue (dev : Option (BitVec 10)) (core : Nat) (q : Nat) (epoch : BitVec 16)
  | skiver (dev : Option (BitVec 10)) (slice : Nat) (prio : Bool) (epoch : BitVec 16)
  | injection (dev : Option (BitVec 10))
  deriving DecidableEq, Repr

/-- How a commit returns (R258); `other` is a send of a skiver or of the command processor. -/
inductive Form where
  | blocking | nonblocking | posted | other
  deriving DecidableEq, Repr

structure Msg where
  id : Nat
  sender : Sender
  target : Target
  hdr : Word
  payload : List Byte
  cls : BitVec 2
  form : Form
  /-- the status of the last attempt, not yet taken by the sender -/
  status : Option Nat := none
  /-- the command in progress or descriptor that waits for the status -/
  owner : Nat := 0
  /-- its slot at the sender's source port and the slot's generation (R372, R381), and whether it travels on the rein (R370) -/
  slot : Nat := 128
  gen : Bool := false
  rein : Bool := true
  /-- a posted message that was answered FULL and waits for its next attempt (R258) -/
  parked : Bool := false
  /-- the stale bit a posting carries (R353) -/
  stale : Bool := false
  /-- its sender was reset while it was on its way: nobody takes its status (R284) -/
  lost : Bool := false
  deriving DecidableEq, Repr

/-! ## Host interface -/

structure HdmDec where
  base : Word := 0
  size : Word := 0
  skip : Word := 0
  committed : Bool := false
  error : Bool := false
  deriving DecidableEq, Repr

/-- An MSI-X table entry (R435): masked at reset (log 7). -/
structure MsixEnt where
  addr : Word := 0
  data : Half := 0
  masked : Bool := true
  pending : Bool := false
  deriving DecidableEq, Repr

/-- An aperture request waiting for the host (R432, R433); a write: whether the flushing read was issued after it. -/
structure ApReq where
  /-- who sent it, where HOST_APERTURE_ACCESS names one -/
  agent : Option Agent := none
  hpa : Nat
  acc : Acc
  flushed : Bool := false
  /-- the source port, slot and generation that its answer goes to (R381, R434) -/
  slot : Option (Nat × Nat × Bool) := none
  deriving DecidableEq, Repr

structure HostSt where
  ready : Bool := false
  cache : Bool := false
  mem : Bool := false
  mode : BitVec 3 := 0
  width : BitVec 5 := 0
  rate : BitVec 3 := 0
  /-- IDE streams in the Secure state: CXL.cachemem, the link stream of CXL.io, its selective stream (R420) -/
  ideCm : Bool := false
  ideIo : Bool := false
  ideSel : Bool := false
  /-- streams that are Insecure (R436): the link stream of CXL.io, CXL.cachemem, the selective stream -/
  ideInsecure : Bool := false
  cmInsecure : Bool := false
  selInsecure : Bool := false
  /-- the link keys of R420 by stream: 0 link stream of CXL.io, 1 selective stream, 2 CXL.cachemem -/
  ideKeys : Table (List Byte) := []
  apBase : BitVec 52 := 0
  apSize : Nat := 0
  cls : BitVec 2 := 2
  memErr : BitVec 16 := 0
  bar2Wr : BitVec 16 := 0
  memErrValid : Bool := false
  memErrAddr : BitVec 48 := 0
  busMaster : Bool := false
  funcMask : Bool := false
  config : Table Half := []
  bar0 : Word := 0
  bar2 : Word := 0
  msix : Table MsixEnt := []
  hdm : Table HdmDec := []
  mailIn : Option (List Byte) := none
  /-- packets whose sender waits for the inbound slot (R26, R427) -/
  mailQueue : List (List Byte) := []
  mailOut : Option (List Byte) := none
  /-- mailbox replies that wait for the outbound slot (R26) -/
  mailWait : List (List Byte) := []
  ring : EccMem := {}
  waiting : List ApReq := []
  rasMemErr : Bool := false
  /-- event records of the device mailbox: handle, log, bytes (R423) -/
  events : List (Nat × Nat × List Byte) := []
  /-- Cache_Enable and Mem_Enable of the CXL control register (log 7) -/
  cacheEn : Bool := false
  memEn : Bool := false
  /-- MSI-X Enable (R435), D3hot instead of D0, ASPM L1 enabled (R420), a completion timeout range that the host has set
  (R422) -/
  msixEn : Bool := false
  d3hot : Bool := false
  aspmL1 : Bool := false
  timeoutRange : Option (BitVec 4) := none
  /-- component and device registers by offset in BAR0, as last written (R423), and the words that the host has put into the
  mailbox's inbound slot (R427) -/
  cxlRegs : Table Half := []
  mailBuf : Table Half := []
  deriving DecidableEq, Repr

/-! ## Command processor -/

/-- A ring pair (R439, R440, R460). -/
structure RingSt where
  exist : Bool := false
  error : Bool := false
  version : BitVec 2 := 0
  notice : Bool := false
  vec : BitVec 6 := 0
  coreBase : Nat := 0
  subBase : Word := 0
  cplBase : Word := 0
  sqLog2 : Nat := 0
  cqLog2 : Nat := 0
  sqHead : BitVec 16 := 0
  sqTail : BitVec 16 := 0
  cqHead : BitVec 16 := 0
  cqTail : BitVec 16 := 0
  /-- completion entries reserved for replies (R442) -/
  reserved : Nat := 0
  /-- doorbell values recorded while READY is 0, or not yet taken (R426, R442) -/
  sqBell : Option Half := none
  cqBell : Option Half := none
  deriving DecidableEq, Repr

/-- Where a launch's batches come from (R454, R455): a grid's queue, batch size, strands, target cores and words 2 and 3;
or a step table and word 2. -/
inductive LaunchSrc where
  | grid (core q batch strands ntgt : Nat) (w2 w3 : Word)
  | steps (ents : List (Word × Word)) (w2 : Word)
  deriving DecidableEq, Repr

/-- A launch in progress (R454 to R457): completion messages wanted, counted, and the value of the last; batches in
all, accepted, and the message of the present one. `order`: launches issue their messages in ascending order (R22, R450). -/
structure Launch where
  order : Nat := 0
  grid : Half
  src : LaunchSrc
  ndone : Nat
  got : Nat := 0
  last : Word := 0
  total : Nat
  sent : Nat := 0
  msg : Option Nat := none
  cls : BitVec 2 := 1
  deriving DecidableEq, Repr

/-- A command in progress (R450, R451): the pair it came from (none: the host mailbox), its packet, and its progress. -/
structure Cmd where
  id : Nat
  ring : Option (Fin 64)
  pos : Nat
  tag : BitVec 16
  opcode : Nat
  version : BitVec 2
  quiet : Bool
  seq : Bool
  params : List Word
  /-- the command's row has run; it stays in progress until its reply -/
  started : Bool := false
  /-- management time at which it started (R36): what its TIMEOUT counts from -/
  since : Nat := 0
  /-- its pair has been deleted: the reply is discarded (R453) -/
  gone : Bool := false
  launch : Option Launch := none
  /-- a count the command replies with -/
  progress : Nat := 0
  /-- CORE_BASE of a Perica pair -/
  base : Nat := 0
  /-- the pieces of a management response received so far -/
  rsp : List Byte := []
  deriving DecidableEq, Repr

/-- A notice (R445, R452). -/
structure Notice where
  status : Nat
  result0 : Word
  result1 : Word
  deriving DecidableEq, Repr

/-- A message in the injection port's queue (R20, R21): of a sender, its header word and payload, or a notice. -/
inductive PortMsg where
  | message (sender : Sender) (hdr : Word) (payload : List Byte)
  | notice (n : Notice)
  deriving DecidableEq, Repr

/-- An entry of an admission declaration (R458). -/
structure DeclEnt where
  w0 : Word
  w1 : Word
  deriving DecidableEq, Repr

/-- An admitted or revoked stream (R390, R395, R458). -/
structure Stream where
  num : Nat
  seq : Nat
  /-- management time of the admission -/
  time : Nat := 0
  revoked : Bool := false
  ents : List DeclEnt
  deriving DecidableEq, Repr

/-- A piece of a message in the plane mailbox (R26): whose request or response it belongs to (none: the mailbox-reset
notice and messages of MAILBOX_SEND), its bytes, at most 256, and whether it is the last piece. -/
structure MailMsg where
  o : Option MgmtOrigin := none
  /-- SUB of MGMT_REQUEST: 0 SPDM, 1 secured SPDM, 2 key request -/
  sub : Nat := 0
  bytes : List Byte := []
  last : Bool := true
  /-- to the command processor: a notice for the host, or the end of a command: its number, status and results (R27) -/
  notice : Option Notice := none
  done : Option (Nat × Nat × Word × Word) := none
  deriving DecidableEq, Repr

structure CpSt where
  rings : Table RingSt := []
  lastPair : Nat := 63
  cmds : List Cmd := []
  notices : List Notice := []
  lost : BitVec 16 := 0
  /-- notices lost since the last NOTICES_LOST notice (R452) -/
  lostPending : Nat := 0
  orphan : BitVec 16 := 0
  /-- the injection port's queue of 64 messages (R21) -/
  inj : List PortMsg := []
  /-- notices of data-plane units that wait for room at the injection port (R21) -/
  injWait : List Notice := []
  streams : List Stream := []
  nextSeq : Nat := 1
  bucket : Bucket := {}
  outOfService : Bool := false
  rootOut : Bool := false
  portOut : Bool := false
  /-- the plane mailbox's two slots, and the messages whose senders wait for them (R26) -/
  toMgmt : Option MailMsg := none
  toCp : Option MailMsg := none
  mgmtWait : List MailMsg := []
  cpWait : List MailMsg := []
  deriving DecidableEq, Repr

/-! ## Management and power -/

/-- A request to the management controller (R463). -/
structure MgmtReq where
  o : MgmtOrigin
  /-- 0 SPDM, 1 secured SPDM, 2 key request, 3 MCTP control (R453, R464) -/
  sub : Nat
  bytes : List Byte
  deriving DecidableEq, Repr

/-- What drives the pins: the part itself, the boundary register, or nothing (R464). -/
inductive PinDrive where
  | system | boundary | highZ
  deriving DecidableEq, Repr

/-- SPDM connection and session state (R473). -/
structure SpdmSt where
  version : Bool := false
  caps : Bool := false
  algs : Bool := false
  session : Option Nat := none
  finished : Bool := false
  keyGen : Nat := 0
  deriving DecidableEq, Repr

structure MgmtSt where
  time : Nat := 0
  timeHi : Half := 0
  fwRun : Bool := false
  slot : Bool := false
  trial : Bool := false
  storeOk : Bool := false
  signOk : Bool := false
  minSvn : BitVec 8 := 0
  telemPeriod : BitVec 16 := 0x3E8
  svn : BitVec 8 := 0
  /-- the boot ROM found no image that it accepts (R467) -/
  recovery : Bool := false
  /-- the firmware has started since the device cold reset (R464) -/
  fwStarted : Bool := false
  /-- stage 9 of start-up has completed (R497, R500) -/
  booted : Bool := false
  /-- stage 5 of start-up has run since the device cold reset (R495) -/
  trained : Bool := false
  /-- the flash of R465: bytes written since manufacture, sectors ever erased, sectors written by FW_WRITE since the boot (R471) -/
  flash : Table Byte := []
  erased : Table Bool := []
  touched : Table Bool := []
  /-- the fuses of MIN_SVN blown since manufacture (R461, R467) -/
  fuses : BitVec 64 := 0
  /-- the current bank of the configuration store as read from flash: its records by type, its number and SEQ (R468) -/
  store : Table (List Byte) := []
  bank : Bool := false
  seq : Nat := 0
  /-- the next index of the identity key; the indices below this one are reserved (R472) -/
  leafNext : Nat := 0
  leafEnd : Nat := 0
  spdm : SpdmSt := {}
  temps : Table (BitVec 16) := []
  rails : Table (BitVec 16 × Half) := []
  power : Half := 0
  /-- a gather has completed, and the records as it built them: byte 4,096 × item + offset (R474) -/
  gathered : Bool := false
  snap : Bytes := []
  /-- complete requests in order, and those that are still arriving (R463) -/
  reqs : List MgmtReq := []
  parts : List MgmtReq := []
  /-- messages that the BMC has not read (R542) -/
  bmc : List (List Byte) := []
  jtag : BitVec 8 := 0
  /-- the boundary register as last loaded, and what drives the pins (R464) -/
  boundary : Word := 0
  pins : PinDrive := .system
  deriving DecidableEq, Repr

structure PwrSt where
  state : BitVec 2 := 0
  busy : Bool := false
  tripped : Bool := false
  tripCause : BitVec 4 := 0
  tripIndex : BitVec 8 := 0
  target : BitVec 2 := 0
  ramp : Half := 0x8000C801
  fcast : Half := 0
  /-- forecasts whose BMC message is due: value and management time of the write (R489) -/
  fcastDue : List (Half × Nat) := []
  /-- voltages of the quadrants in mV as they stand, and as the host has set them (R478) -/
  vdd : Table (BitVec 16) := []
  vddTarget : Table (BitVec 16) := []
  loadHint : BitVec 4 := 0
  thermTripLow : Bool := false
  /-- management time of the thermal trip in force (R483) -/
  tripTime : Nat := 0
  /-- the move in progress leaves another state (R482, R485) -/
  leaves : Bool := false
  /-- the SET_POWER_STATE that a trip has ended, with the trip's cause and index: it replies after the trip's notice (R484) -/
  tripCmd : Option (Nat × Nat × Nat) := none
  deriving DecidableEq, Repr

/-! ## What leaves the part -/

/-- What the part has sent to the world: messages and replies on the link, the sideband and to peers. -/
inductive Out where
  | hostWrite (hpa : Nat) (data : List Byte) (en : List Bool)
  | hostRead (hpa : Nat) (len : Nat)
  /-- a CXL.cache RdCurr (R421, R434) -/
  | hostRdCurr (hpa : Nat) (len : Nat)
  | msix (addr : Word) (data : Half)
  | biSnoop (slice : Nat) (line : Nat) (inval : Bool)
  | mailbox (bytes : List Byte)
  | mgmtReply (o : MgmtOrigin) (status : Nat) (bytes : List Byte)
  | frame (link : Fin 48) (f : Frame)
  /-- telemetry of the management controller: a link's new state (R416), a stack above 95 °C (R321); log 89 -/
  | linkState (l : Nat) (st : Nat)
  | thermalWarning (stack : Nat)
  | cinchReport (dev : Nat) (g : Nat)
  | cinchRelease (g : Nat)
  | bmc (bytes : List Byte)
  | cfgRead (value : Half)
  | cfgRetry
  | snoopMiss (hpa : Word)
  | jtag (bits : Nat)
  deriving DecidableEq, Repr

/-- The answer of the last request that answers at once. -/
structure Reply where
  status : Status
  data : List Byte := []
  poison : Bool := false
  /-- the target has no room for the request's record: FULL (R411) -/
  full : Bool := false
  /-- the congestion echo of its response (R384) -/
  ce : Bool := false
  deriving DecidableEq, Repr

/-! ## Requests that wait at a slice's edge port -/

/-- A request that has reached a slice and waits: for its clock, its training, or a snoop (R323, R324, R431). -/
inductive WaitReq where
  | request (a : Agent) (k : Nat) (acc : Acc)
  | arrival (a : Agent) (h : Packet) (addr : Nat) (acc : Acc) (ext : ExtAns)
  /-- of the host: its slot at the host port (R372; 128: none yet), and the slice and offset that its address was translated
  to when it issued (R315, R429; none: no byte, or not translated yet) -/
  | memRead (slot dpa : Nat) (place : Option (Nat × Nat)) (grants exclusive : Bool)
  | memWrite (slot dpa : Nat) (place : Option (Nat × Nat)) (data : List Byte) (en : List Bool)
  /-- a BAR2 read that waits for stage 9 or for a slot (R428, R500) -/
  | bar2 (off len : Nat)
  /-- at a buffer window, and at an edge window (R30, R323, R324) -/
  | buffer (a : Agent) (k : Nat) (acc : Acc)
  | edge (a : Agent) (south : Bool) (acc : Acc)
  /-- of a peer: the link it came by, its slot at the group port (128: none yet), its first frame, its target word with the
  translated address, its bytes -/
  | peer (link slot : Nat) (f : Frame) (h : Word) (bytes : List Byte)
  deriving DecidableEq, Repr

/-! ## The whole machine -/

structure State where
  cores : Table CoreSt := []
  clusters : Table ClusterSt := []
  slices : Table SliceSt := []
  /-- multiplied reference clock of a stack runs: kept by its slices; stacks keep their fence mark -/
  stackFenced : Table Bool := []
  fabric : Fabric := {}
  lat : Latigo := {}
  root : Table CinchRoot := []
  smap : SliceMap := {}
  host : HostSt := {}
  cp : CpSt := {}
  mgmt : MgmtSt := {}
  pwr : PwrSt := {}
  msgs : List Msg := []
  /-- requests that wait at their slices, oldest first -/
  waits : List WaitReq := []
  nextId : Nat := 1
  outbox : List Out := []
  reply : Option Reply := none
  /-- the model's counter of free values (log 2) -/
  fresh : Nat := 0
  pending : List Instr := []
  deriving DecidableEq, Repr

/-- Why the block itself would stop. The spec gives the part no such stop: nothing raises it. Safe. -/
inductive Fault where
  /-- never raised -/
  | none
  deriving DecidableEq, Repr

/-- Why a command has no meaning. -/
inductive Refusal where
  /-- an arm of `exec` whose meaning is not written yet: safe -/
  | notModelled (mnemonic : String)
  /-- never raised: operands that are of no form of their command (a span of no bytes, data and byte enables of
  different lengths) are no event of the part, and the state stays as it is (log 88); safe -/
  | illFormed
  deriving DecidableEq, Repr

/-- The machine right after the reset of R496's first stage: every field at its default (R497 to R504, log 6). -/
def State.reset : State := {}

end Sys2Proof.Machine
end

