-- ==== Sys2Proof/Machine/Ops.lean ====
section
/-! DEFINITION. Access to the parts of the state, traps, the monad of the meanings, words and addresses, free values,
notices and messages out. -/

namespace Sys2Proof.Machine

/-! ## Defaults and access -/

def coreDef (_ : Nat) : CoreSt := {}
def clusterDef (_ : Nat) : ClusterSt := {}
def sliceDef (_ : Nat) : SliceSt := {}
def portDef (_ : Nat) : FabPort := {}
def slotDef (_ : Nat) : FabSlot := {}
def winDef (_ : Nat) : FabWin := {}
def dupDef (_ : Nat) : DupRec := {}
def linkDef (_ : Nat) : LinkSt := {}
def groupDef (_ : Nat) : LatGroup := {}
def rootDef (_ : Nat) : CinchRoot := {}
def nodeDef (_ : Nat) : CinchNode := {}
def mapDef (_ : Nat) : CinchMap := {}
def queueDef (_ : Nat) : QueueSt := {}
def cslotDef (_ : Nat) : Slot := {}
def dmaDef (_ : Nat) : DmaCh := {}
def tileDef (_ : Nat) : Tile := {}
def accDef (_ : Nat) : AccSet := {}
def elDef (_ : Nat) : AccEl := ⟨0, 0⟩
def keepDef (_ : Nat) : Keeper := {}
def bucketDef (_ : Nat) : Bucket := {}
def ringDef (_ : Nat) : RingSt := {}
def msixDef (_ : Nat) : MsixEnt := {}
def hdmDef (_ : Nat) : HdmDec := {}
def lineDef (_ : Nat) : DLine := {}
def halfDef (_ : Nat) : Half := 0
def wordDef (_ : Nat) : Word := 0
def cnt16Def (_ : Nat) : BitVec 16 := 0
def natDef (_ : Nat) : Nat := 0
def boolDef (_ : Nat) : Bool := false
def regDef (_ : Nat) : TWord := {}
def bytesDef (_ : Nat) : List Byte := []

def State.core (s : State) (c : Nat) : CoreSt := tget coreDef s.cores c
def State.modCore (s : State) (c : Nat) (f : CoreSt → CoreSt) : State :=
  { s with cores := tset coreDef s.cores c (f (s.core c)) }
def State.cluster (s : State) (k : Nat) : ClusterSt := tget clusterDef s.clusters k
def State.modCluster (s : State) (k : Nat) (f : ClusterSt → ClusterSt) : State :=
  { s with clusters := tset clusterDef s.clusters k (f (s.cluster k)) }
def State.slice (s : State) (k : Nat) : SliceSt := tget sliceDef s.slices k
def State.modSlice (s : State) (k : Nat) (f : SliceSt → SliceSt) : State :=
  { s with slices := tset sliceDef s.slices k (f (s.slice k)) }
def State.modSkv (s : State) (k : Nat) (f : SkvSt → SkvSt) : State := s.modSlice k (fun x => { x with skv := f x.skv })
def CoreSt.t (x : CoreSt) (n : Nat) : ThreadSt := tget ThreadSt.reset x.thr n
def CoreSt.modT (x : CoreSt) (n : Nat) (f : ThreadSt → ThreadSt) : CoreSt :=
  { x with thr := tset ThreadSt.reset x.thr n (f (x.t n)) }
def CoreSt.q (x : CoreSt) (n : Nat) : QueueSt := tget queueDef x.queues n
def CoreSt.modQ (x : CoreSt) (n : Nat) (f : QueueSt → QueueSt) : CoreSt :=
  { x with queues := tset queueDef x.queues n (f (x.q n)) }
def CoreSt.ch (x : CoreSt) (n : Nat) : DmaCh := tget dmaDef x.dma n
def CoreSt.modCh (x : CoreSt) (n : Nat) (f : DmaCh → DmaCh) : CoreSt :=
  { x with dma := tset dmaDef x.dma n (f (x.ch n)) }
def CoreSt.win (x : CoreSt) (n : Nat) : Window := tget Window.reset x.wins n
def State.thr (s : State) (t : Tid) : ThreadSt := (s.core t.core.val).t t.thr.val
def State.modThr (s : State) (t : Tid) (f : ThreadSt → ThreadSt) : State :=
  s.modCore t.core.val (fun c => c.modT t.thr.val f)
/-- The cluster of a core (R15). -/
def clusterOf (c : Nat) : Nat := c / 8
def State.link (s : State) (l : Nat) : LinkSt := tget linkDef s.lat.links l
def State.modLink (s : State) (l : Nat) (f : LinkSt → LinkSt) : State :=
  { s with lat := { s.lat with links := tmod linkDef s.lat.links l f } }
def State.rootOf (s : State) (g : Nat) : CinchRoot := tget rootDef s.root g
def State.modRoot (s : State) (g : Nat) (f : CinchRoot → CinchRoot) : State :=
  { s with root := tmod rootDef s.root g f }
def State.out (s : State) (o : Out) : State := { s with outbox := s.outbox ++ [o] }
def State.answer (s : State) (r : Reply) : State := { s with reply := some r }

/-! ## Registers of a thread -/

/-- w0 reads as INT zero (R75). -/
def ThreadSt.reg (x : ThreadSt) (r : Nat) : TWord := if r = 0 then ⟨.int, 0⟩ else tget regDef x.regs r
/-- A write to w0 is discarded (R72). -/
def ThreadSt.setReg (x : ThreadSt) (r : Nat) (v : TWord) : ThreadSt :=
  if r = 0 then x else { x with regs := tset regDef x.regs r v }

def State.reg (s : State) (t : Tid) (r : Nat) : TWord := (s.thr t).reg r
def State.setReg (s : State) (t : Tid) (r : Nat) (v : TWord) : State := s.modThr t (fun x => x.setReg r v)

def wInt (w : Word) : TWord := ⟨.int, w⟩
def wAddr (w : Word) : TWord := ⟨.addr, w⟩

/-- The tag's number (R70). -/
def Tag.num : Tag → Nat
  | .empty => 0 | .int => 1 | .f64 => 2 | .seg => 3 | .addr => 4 | .code => 5 | .stat => 6 | .hndl => 7 | .tcfg => 8

/-- The tag of a number; 9 and above are reserved (R70). -/
def Tag.ofNum : Nat → Option Tag
  | 0 => some .empty | 1 => some .int | 2 => some .f64 | 3 => some .seg | 4 => some .addr | 5 => some .code
  | 6 => some .stat | 7 => some .hndl | 8 => some .tcfg | _ => none

/-- ADDR and CODE data that R74 accepts. -/
def formOk (tag : Tag) (w : Word) : Bool :=
  match tag with
  | .addr => decide (bitsOf w.toNat 55 48 = 0)
  | .code => decide (bitsOf w.toNat 55 49 = 0)
  | _ => true

/-! ## Pointers (R70, R90) -/

def pSel (w : Word) : Nat := bitsOf w.toNat 63 56
def pOff (w : Word) : Nat := w.toNat % 2 ^ 48
def mkPtr (sel off : Nat) : Word := BitVec.ofNat 64 ((sel % 256) * 2 ^ 56 + off % 2 ^ 48)
/-- Offset arithmetic modulo 2^48, same selector (R90). -/
def pAdd (w : Word) (d : Int) : Word := mkPtr (pSel w) (unsignedOf 48 ((pOff w : Int) + d))
/-- A CODE word's data from an address and MODE (R70). -/
def mkCode (pc : Word) (mode : Bool) : Word := BitVec.ofNat 64 (pSel pc * 2 ^ 56 + b2n mode * 2 ^ 48 + pOff pc)
def codePc (w : Word) : Word := mkPtr (pSel w) (pOff w)
def codeMode (w : Word) : Bool := bitOf w.toNat 48

/-! ## Traps -/

/-- The causes of R135, R199, R224, R244 and R286. -/
inductive Cause where
  | insnIllegal | tagEmpty | tagType | tagStore | tagRsvd | tagMem | addrForm | priv | pairDest | segNone | segKind
  | segPerm | align | segBound | spadRange | spadPort | keepRefused | loopNest | loopEnd | retTag | compatOp
  | gateRange | gateArg | eretPriv | deadlock | threadFault | machineCheck | accRefused
  | tcfgBad | tileShape | tileEmpty | mtxFmt | mtxAccMode | mtxRestBad | mtxRestSize
  | vecFmt | vecPair | vecAccMode | vecRestBad
  | dmaHandle | dmaBusy | dmaDesc
  | mqHandle | mqStage | mqMode | mqNomsg | cinchGroup | mqQueue
  deriving DecidableEq, Repr

def Cause.code : Cause → Nat
  | .insnIllegal => 0x01 | .tagEmpty => 0x02 | .tagType => 0x03 | .tagStore => 0x04 | .tagRsvd => 0x05
  | .tagMem => 0x06 | .addrForm => 0x07 | .priv => 0x08 | .pairDest => 0x09 | .segNone => 0x0A | .segKind => 0x0B
  | .segPerm => 0x0C | .align => 0x0D | .segBound => 0x0E | .spadRange => 0x0F | .spadPort => 0x10
  | .keepRefused => 0x11 | .loopNest => 0x12 | .loopEnd => 0x13 | .retTag => 0x14 | .compatOp => 0x15
  | .gateRange => 0x16 | .gateArg => 0x17 | .eretPriv => 0x18 | .deadlock => 0x19 | .threadFault => 0x1A
  | .machineCheck => 0x1B | .accRefused => 0x1C
  | .tcfgBad => 0x20 | .tileShape => 0x21 | .tileEmpty => 0x22 | .mtxFmt => 0x23 | .mtxAccMode => 0x24
  | .mtxRestBad => 0x25 | .mtxRestSize => 0x26
  | .vecFmt => 0x30 | .vecPair => 0x31 | .vecAccMode => 0x32 | .vecRestBad => 0x33
  | .dmaHandle => 0x40 | .dmaBusy => 0x41 | .dmaDesc => 0x42
  | .mqHandle => 0x48 | .mqStage => 0x49 | .mqMode => 0x4A | .mqNomsg => 0x4B | .cinchGroup => 0x4C
  | .mqQueue => 0x4D

/-- A fault of an instruction: cause, operand, EXTRA and the detail word (R134). -/
structure Trap where
  cause : Cause
  opnd : Nat := 0
  extra : Nat := 0
  detail : TWord := ⟨.int, 0⟩
  deriving DecidableEq, Repr

/-- Why a meaning does not run to its end: a fault of the thread, or the command cannot take place yet (its target
waits: R323, R431), which leaves the state as it was. -/
inductive Stop where
  | trap (t : Trap)
  | wait
  deriving DecidableEq, Repr

/-- Meanings: the state survives a fault, since a failed check may have filled the segment cache. -/
abbrev M := ExceptT Stop (StateM State)

def trap (c : Cause) (opnd : Nat := 0) (detail : TWord := ⟨.int, 0⟩) (extra : Nat := 0) : Except Stop α :=
  .error (.trap { cause := c, opnd := opnd, extra := extra, detail := detail })

def mtrap (c : Cause) (opnd : Nat := 0) (detail : TWord := ⟨.int, 0⟩) (extra : Nat := 0) : M α :=
  throw (.trap { cause := c, opnd := opnd, extra := extra, detail := detail })

/-- A pure check inside a meaning. -/
def lift (x : Except Stop α) : M α :=
  match x with
  | .ok a => pure a
  | .error e => throw e

/-- Run a meaning on a state. -/
def runM (x : M α) (s : State) : Except Stop α × State := x.run.run s

/-- Operand check of R71: EMPTY first, then the allowed tags. -/
def need (tags : List Tag) (opnd : Nat) (w : TWord) : Except Stop Word :=
  if w.tag = .empty then trap .tagEmpty opnd
  else if tags.contains w.tag then .ok w.data
  else trap .tagType opnd

/-- An operand of any tag but EMPTY (R71). -/
def needAny (opnd : Nat) (w : TWord) : Except Stop TWord :=
  if w.tag = .empty then trap .tagEmpty opnd else .ok w

/-- The cause word of R134. -/
def causeWord (kind thr : Nat) (t : Trap) (code : Nat) : Word :=
  BitVec.ofNat 64 (t.extra % 65536 * 65536 + kind % 4 * 16384 + t.opnd % 8 * 2048 + thr % 8 * 256 + code % 256)

/-- sr of a thread (R76). -/
def srWord (n : Nat) (x : ThreadSt) : Word :=
  BitVec.ofNat 64 (n * 256 + x.pri.toNat * 64 + b2n (decide (x.lc ≠ 0)) * 4 + b2n x.priv * 2 + b2n x.compat)

/-! ## Free values (log 2) -/

/-- The next free value. -/
def drawFree (s : State) : Word × State := (Config.freeWord s.fresh, { s with fresh := s.fresh + 1 })

/-- `n` free bytes. -/
def freeBytes : Nat → State → List Byte × State
  | 0, s => ([], s)
  | n + 1, s =>
    let (w, s) := drawFree s
    let (r, s) := freeBytes n s
    (w.truncate 8 :: r, s)

def statusOfNat : Nat → Status
  | 0 => .ok | 1 => .nowin | 2 => .bound | 3 => .data | _ => .unreach

/-- What the world answers where the command that meets it carries no answer: any status, any bytes. -/
def freeExt (len : Nat) (s : State) : ExtAns × State :=
  let (w, s) := drawFree s
  let (b, s) := freeBytes len s
  (⟨statusOfNat (w.toNat % 5), b⟩, s)

/-! ## Notices to the host (R448, R452) -/

/-- Unit words of R448. -/
def unitWord (utype unit : Nat) : Word := BitVec.ofNat 64 (utype * 65536 + unit)

/-- Units of a type (R448). -/
def unitsOf (utype : Nat) : Nat := lget 1 [512, 64, 80, 20, 48, 96, 4, 1, 1, 1, 3] utype

/-- A unit word that the spec does not name: of some type, of some unit of it (log 60). -/
def someUnit (w : Word) : Word := unitWord (w.toNat % 11) (w.toNat / 11 % unitsOf (w.toNat % 11))

/-- Queue a notice; a full queue loses it and counts it (R452). -/
def State.notify (s : State) (n : Notice) : State :=
  if s.cp.notices.length < 256 then { s with cp := { s.cp with notices := s.cp.notices ++ [n] } }
  else { s with cp := { s.cp with lost := s.cp.lost + 1, lostPending := s.cp.lostPending + 1 } }

/-- The command processor runs: started, and not out of service (R510). -/
def State.cpUp (s : State) : Bool := s.host.ready && !s.cp.outOfService

/-- Places in the injection port's queue (R21). -/
def portDepth : Nat := 64

/-- The notices at the head of the port's queue reach the command processor; what stands behind the first other message
stays. -/
def takeNotices : List PortMsg → State → List PortMsg × State
  | .notice n :: l, s => takeNotices l (s.notify n)
  | l, s => (l, s)

/-- The notice that a place of the queue holds. -/
def PortMsg.notice? : PortMsg → Option Notice
  | .notice n => some n
  | .message _ _ _ => none

/-- While the command processor runs it takes the notices at the head of the port's queue, and senders that wait fill the
places that become free (R20, R21); else all stay (R23). -/
def State.portIntake (s : State) : State :=
  if !s.cpUp then s
  else
    let (l, s) := takeNotices (s.cp.inj ++ s.cp.injWait.map PortMsg.notice) s
    { s with cp := { s.cp with inj := l.take portDepth, injWait := (l.drop portDepth).filterMap PortMsg.notice? } }

/-- A notice of a data-plane unit enters the injection port's queue behind what stands in it; it waits while the queue is
full (R20, R21). -/
def State.viaPort (s : State) (n : Notice) : State :=
  (if s.cp.inj.length < portDepth ∧ s.cp.injWait = [] then { s with cp := { s.cp with inj := s.cp.inj ++ [PortMsg.notice n] } }
   else { s with cp := { s.cp with injWait := s.cp.injWait ++ [n] } }).portIntake

/-- A message for the command processor stands in the plane mailbox's slot, or waits for it (R26). -/
def putCp (s : State) (m : MailMsg) : State :=
  if s.cp.toCp.isNone then { s with cp := { s.cp with toCp := some m } }
  else { s with cp := { s.cp with cpWait := s.cp.cpWait ++ [m] } }

/-- A notice of the management plane passes through the plane mailbox; it waits there while the slot is full, or nobody
reads it (R20, R26). -/
def State.viaMail (s : State) (n : Notice) : State :=
  if s.cp.toCp.isNone && s.cpUp then s.notify n else putCp s { notice := some n }

/-- FAULTED naming a core with a cause word; bit 31 marks a reset (R131, R448). -/
def State.faultedCore (s : State) (c : Nat) (reset : Bool) (cause : Word) : State :=
  s.viaPort { status := 4, result0 := unitWord 0 c ||| (if reset then 0x80000000 else 0), result1 := cause }

/-- FAULTED of another unit: CODE, DETAIL, COUNT (R448). -/
def unitFault (utype unit code detail count : Nat) : Notice :=
  { status := 4, result0 := unitWord utype unit
    result1 := BitVec.ofNat 64 (count % 2 ^ 32 * 2 ^ 32 + detail % 256 * 256 + code % 256) }

/-! ## Event lines (R247) -/

def CoreSt.fire (x : CoreSt) (line : Nat) : CoreSt := { x with evt := x.evt ||| BitVec.ofNat 16 (2 ^ (line % 16)) }

/-- A firing whose consumption is an acquire: a cinch or skiver completion (R304). -/
def CoreSt.fireAcq (x : CoreSt) (line : Nat) : CoreSt :=
  { x.fire line with evtAcq := x.evtAcq ||| BitVec.ofNat 16 (2 ^ (line % 16)) }

/-- The power state is ACTIVE and no move out of it has begun (R477, R479). -/
def State.active (s : State) : Bool := decide (s.pwr.state = 0) && decide (s.pwr.target = 0)

/-- DROWSE, and OFF-RAILS: memories answer UNREACH (R480). -/
def State.drowsy (s : State) : Bool := decide (2 ≤ s.pwr.state.toNat)

/-! ## Fence marks (R505) -/

/-- A core is fenced while its own mark or its cluster's is set. -/
def State.coreFenced (s : State) (c : Nat) : Bool := (s.core c).fenced || (s.cluster (clusterOf c)).fenced
/-- A slice is fenced while its own mark or its stack's is set. -/
def State.sliceFenced (s : State) (k : Nat) : Bool := (s.slice k).fenced || tget boolDef s.stackFenced (k / 4)
/-- A link with its own mark, or with both lanes fenced, is out of use (R506). -/
def LinkSt.isFenced (l : LinkSt) : Bool := l.fenced || decide (l.laneFenced = 3)

/-! ## Messages -/

/-- The status codes of R260. -/
def stOk : Nat := 0
def stFull : Nat := 1
def stClosed : Nat := 2
def stStale : Nat := 3
def stTooLong : Nat := 4
def stNowin : Nat := 5
def stUnreach : Nat := 6
def stShape : Nat := 7
def stDup : Nat := 8
def stData : Nat := 9

/-- The slot of a message at its sender's source port (R372). -/
def Sender.port : Sender → Nat
  | .thread _ c _ => c
  | .skiver _ k => 512 + k
  | .cp _ => 593

/-- Requests of some slots that wait for the host lose their slots, which have ended (R382, R434). -/
def apDetach (s : State) (which : Nat × Nat × Bool → Bool) : State :=
  { s with host := { s.host with waiting := s.host.waiting.map (fun r =>
    { r with slot := r.slot.filter (fun q => !which q) }) } }

end Sys2Proof.Machine
end

