-- ==== Sys2Proof/Machine/Deadlock.lean ====
section
/-! DEFINITION. Deadlock of a core (R132, R133): what a thread waits on, and which waits can end from outside the
core (R243, R251, R263). -/

namespace Sys2Proof.Machine

/-- An armed DMA channel of the core names the line. -/
def lineDma (x : CoreSt) (line : Nat) : Bool :=
  x.dma.any (fun p =>
    (decide (p.2.run = .waitStart) || decide (p.2.run = .run))
    && (let w := leNat (slice p.2.desc 0x38 8)
        (bitOf w 11 && decide (bitsOf w 9 6 = line)) || (bitOf w 10 && decide (bitsOf w 5 2 = line))))

/-- A descriptor's first word asks for the line (R337). -/
def skvNames (w0 line : Nat) : Bool := bitOf w0 57 && decide (bitsOf w0 56 53 = line)

/-- A descriptor of core `c` that is accepted or on its way to a skiver names the line. -/
def lineSkiver (s : State) (c line : Nat) : Bool :=
  let mine := fun (d : SkvDesc) => !d.byCp && decide (d.core = c) && decide (d.dev = s.lat.id.toNat) && skvNames (leNat (d.bytes.take 8)) line
  s.slices.any (fun p =>
    (p.2.skv.prio.desc.toList ++ p.2.skv.prio.queue ++ p.2.skv.ord.desc.toList ++ p.2.skv.ord.queue).any mine)
  || s.msgs.any (fun m =>
    (match m.target, m.sender with
     | .skiver none _ _ _, .thread _ k _ => decide (k = c)
     | _, _ => false) && skvNames m.hdr.toNat line)

/-- Sources of an event line outside the core (R251). -/
def lineExternal (s : State) (c line : Nat) : Bool :=
  let x := s.core c
  lineDma x line || lineSkiver s c line || x.cinch.any (fun p => p.2.out && decide (p.2.evline.toNat = line))

/-- A queue opened to senders beyond the core (R263). -/
def queueExternal (x : CoreSt) (q : Nat) : Bool := (x.q q).opened && decide ((x.q q).scope ≠ 0)

/-- A handle's target lies beyond core `c`: a skiver, the injection port, a peer device or another core (R263). A REM
handle that names this device is no peer's (log 40). -/
def handleExternal (s : State) (c : Nat) (w : Word) : Bool :=
  let n := w.toNat
  decide (n / 2 ^ 56 = 3) || (bitOf n 55 && decide (bitsOf n 54 45 ≠ s.lat.id.toNat)) || bitOf n 35
    || decide (bitsOf n 44 36 ≠ c)

/-- The wait of a blocking instruction can end from outside the core. -/
def waitExternal (s : State) (t : Tid) (i : Instr) : Bool :=
  let c := t.core.val
  let x := s.core c
  let w := fun (r : Reg) => ((x.t t.thr.val).reg r.val).data
  match i with
  | .mqRecv _ _ ra _ => queueExternal x (w ra).toNat
  | .mqCommitBlocking _ _ ra _ _ | .mqCommitPosted _ _ ra _ _ => handleExternal s c (w ra)
  | .evWait _ _ ra => (countFrom 0 16).any (fun l => bitOf (w ra).toNat l && lineExternal s c l)
  | .dmaWait _ _ _ _ | .cinchArrive _ _ => true
  | _ => false

/-- Queues bound to a thread. -/
def boundExternal (x : CoreSt) (n : Nat) : Bool :=
  (countFrom 0 32).any (fun q => (x.q q).bind && decide ((x.q q).thr.val = n) && queueExternal x q)

/-- The waiting instruction of a thread in WAIT. -/
def waitInsn (h : Option Held) : Option Instr :=
  match h with
  | some (.wait i) => some i
  | some (.commit _ i) => some i
  | _ => none

/-- A thread that waits with no source outside the core. -/
def waitsInside (s : State) (t : Tid) : Bool :=
  let x := s.core t.core.val
  let n := t.thr.val
  let th := x.t n
  let bound := boundExternal x n
  match th.st with
  | .wait =>
    (match waitInsn th.held with
     | some i => !waitExternal s t i
     | none => false) && !(decide (n = 0) && !x.inShadow && bound)
  | .dispatch => !bound
  | _ => false

def tidOf (c n : Nat) : Tid := ⟨Fin.ofNat 512 c, Fin.ofNat 8 n⟩

/-- A thread counts for a deadlock: in RUN, WAIT or DISPATCH. -/
def ThrSt.counts : ThrSt → Bool
  | .run | .wait | .dispatch => true
  | _ => false

/-- The condition of R132 at this moment. -/
def deadlocked (s : State) (c : Nat) : Bool :=
  let ts := (countFrom 0 8).filter (fun n => ((s.core c).t n).st.counts)
  !ts.isEmpty && ts.all (fun n => waitsInside s (tidOf c n))

/-- A reported deadlock whose condition no longer holds is over: it may be reported again (R132, R133). -/
def deadlockOver (c : Nat) (s : State) : State :=
  if (s.core c).deadlock && !deadlocked s c then s.modCore c (fun x => { x with deadlock := false }) else s

/-- The mask of the waiting threads (R133). -/
def waitMask (s : State) (c : Nat) : Nat :=
  (countFrom 0 8).foldl (fun m n => if ((s.core c).t n).st.counts then m + 2 ^ n else m) 0

end Sys2Proof.Machine
end

