-- ==== Sys2Proof/Machine/RegRead.lean ====
section
/-! DEFINITION. The device map (R520 to R530) and what a read of each register returns. A register value is read as
32-bit words; a 64-bit register is two of them. Chapter rules: R37, R136, R137, R164 to R166, R204, R226, R245, R287,
R288, R325, R326, R366, R397 to R400, R419, R460, R476, R492, R493, R518, R527. -/

namespace Sys2Proof.Machine

/-- What lies at a local address (R522, R523, R525). -/
inductive Loc where
  | hbmI (a : Nat)
  | hbmS (s off : Nat)
  | spad (c off : Nat)
  | coreReg (c off : Nat)
  | multicast (column : Bool) (i off : Nat)
  | cluster (k off : Nat)
  | sliceReg (s off : Nat)
  | skvBuf (s off : Nat)
  | edge (south : Bool) (off : Nat)
  | device (off : Nat)
  | aperture (off : Nat)
  | none
  deriving DecidableEq, Repr

/-- The device map (R522, R523); register offsets are already reduced by the block's decode span (R521). -/
def decodeLocal (a : Nat) : Loc :=
  if a < 0x00F000000000 then .hbmI a
  else if 0x010000000000 ≤ a ∧ a < 0x024000000000 then
    let o := a - 0x010000000000
    .hbmS (o / 2 ^ 34) (o % 2 ^ 34)
  else if 0x028000000000 ≤ a ∧ a < 0x028100000000 then
    let o := a - 0x028000000000
    let c := o / 0x800000
    let b := o % 0x800000
    if b < 0x400000 then .spad c b else .coreReg c ((b - 0x400000) % 0x20000)
  else if 0x029000000000 ≤ a ∧ a < 0x029020000000 then
    let o := a - 0x029000000000
    let col := decide (0x10000000 ≤ o)
    let o := o % 0x10000000
    .multicast col (o / 0x2000000) (o % 0x2000000)
  else if 0x030000000000 ≤ a ∧ a < 0x030010000000 then
    let o := a - 0x030000000000
    if o < 64 * 0x10000 then .cluster (o / 0x10000) (o % 0x1000)
    else if 0x1000000 ≤ o ∧ o < 0x1000000 + 80 * 0x200000 then
      let p := o - 0x1000000
      let s := p / 0x200000
      let b := p % 0x200000
      if b < 0x100000 then .sliceReg s (b % 0x1000) else .skvBuf s (b - 0x100000)
    else if 0xC000000 ≤ o ∧ o < 0xC100000 then .edge false (o - 0xC000000)
    else if 0xC100000 ≤ o ∧ o < 0xC200000 then .edge true (o - 0xC100000)
    else if 0xD000000 ≤ o ∧ o < 0xD010000 then .device ((o - 0xD000000) % 0x4000)
    else .none
  else if 0x100000000000 ≤ a ∧ a < 0x200000000000 then .aperture (a - 0x100000000000)
  else .none

/-- The core region of R88 and R523. -/
def Loc.isCoreRegion : Loc → Bool
  | .spad _ _ | .multicast _ _ _ => true
  | _ => false

/-- Tagged accesses reach HBM and the host aperture only (R523). -/
def Loc.isTaggable : Loc → Bool
  | .hbmI _ | .hbmS _ _ | .aperture _ => true
  | _ => false

/-- Registers: cores, clusters, slices, device (R528 to R530). -/
def Loc.isReg : Loc → Bool
  | .coreReg _ _ | .cluster _ _ | .sliceReg _ _ | .device _ => true
  | _ => false

/-- A 32-bit half of a 64-bit value, selected by bit 2 of the offset. -/
def halfOf (v : Word) (off : Nat) : Nat := if off % 8 < 4 then v.toNat % 2 ^ 32 else v.toNat / 2 ^ 32

def ThrSt.num : ThrSt → Nat
  | .stopped => 0 | .run => 1 | .wait => 2 | .dispatch => 3 | .faulted => 4

/-! ## Core register block (R526) -/

/-- CORE_ registers (R136). -/
def coreCtlVal (x : CoreSt) (off : Nat) : Nat :=
  match off with
  | 0x000 => b2n x.stopped * 2 ^ 31 + b2n x.deadlock * 2 ^ 30 + b2n x.policyStop
  | 0x008 => x.gateCount
  | 0x010 | 0x014 => halfOf x.gateBase off
  | 0x018 | 0x01C => halfOf x.excvec off
  | 0x020 | 0x024 => halfOf x.dfvec off
  | 0x028 | 0x02C => halfOf x.emstk off
  | 0x030 => x.resetCause.toNat
  | _ => 0

/-- THR_ registers of thread n at offset `o` (R137). -/
def thrVal (x : CoreSt) (n o : Nat) : Nat :=
  let t := x.t n
  match o with
  | 0x00 => t.pri.toNat * 16
  | 0x04 => (if n = 0 then x.gns.toNat * 65536 + x.gnp.toNat * 256 + b2n x.inShadow * 16 else 0) + b2n t.df * 32 + t.st.num
  | 0x08 => b2n t.maxpriv
  | 0x0C => t.cause.toNat
  | 0x10 | 0x14 => halfOf t.entry o
  | 0x18 | 0x1C => halfOf t.segt o
  | 0x20 | 0x24 => halfOf t.ssegt o
  | 0x28 | 0x2C => halfOf t.sdsp o
  | 0x30 | 0x34 => halfOf t.srtp o
  | _ => 0

/-- The lowest poisoned unit of a memory. -/
def EccMem.lowestPoison (m : EccMem) : Option Nat :=
  match m.poison with
  | [] => none
  | (k, _) :: _ => some k

/-- SPAD_, KEEP_ and cache registers (R164, R165, R166). -/
def spadVal (x : CoreSt) (off : Nat) : Nat :=
  if 0x440 ≤ off ∧ off < 0x480 then
    let n := (off - 0x440) / 8
    if off % 8 = 0 then (x.win n).base else (x.win n).bound
  else if 0x500 ≤ off ∧ off < 0x600 then
    let k := tget keepDef x.keep.k ((off - 0x500) / 16)
    match off % 16 with
    | 0 => k.base
    | 4 => k.bound
    | 8 => k.scope.toNat * 8 + b2n k.wr * 4 + b2n k.rd * 2 + b2n k.en
    | _ => 0
  else match off with
    | 0x400 => x.spad.portmap.toNat
    | 0x404 => b2n (!x.spad.sweep.isEmpty) * 2 ^ 31 + x.spad.period.toNat
    | 0x408 => b2n (x.spad.mem.lowestPoison.isSome) * 2 ^ 31 + x.spad.ceCnt.toNat
    | 0x40C => (x.spad.mem.lowestPoison).getD 0
    | 0x600 => x.keep.boundCnt.toNat * 65536 + x.keep.nowinCnt.toNat
    | 0x604 => x.keep.info.toNat
    | 0x608 => b2n x.keep.even * 16 + x.keep.evline.toNat
    | 0x680 => b2n x.dc.action.isSome * 2 ^ 31
    | 0x684 => x.dc.mcCnt.toNat * 65536 + x.dc.parCnt.toNat
    | 0x688 => x.icPar.toNat * 65536
    | _ => 0

/-- A unit of the matrix engine is busy: an instruction of its kind has started (R204). -/
def mtxUnit : Instr → Nat
  | .tMma _ _ _ _ _ _ _ => 1
  | .tDrain _ _ _ _ _ _ _ _ _ _ => 2
  | _ => 0

/-- A started store to global bytes stands in the staging buffer and has left the load unit (R200). -/
def mtxStaged (o : MtxOp) : Bool :=
  match o.i, o.la with
  | .tSt _ _ _, .glob _ _ _ | .tSave _ _ _, .glob _ _ _ => o.started
  | _, _ => false

/-- A unit performs an instruction (R200, R204). -/
def mtxBusy (x : CoreSt) (u : Nat) : Bool := x.mtx.ops.any (fun o => o.started && !mtxStaged o && decide (mtxUnit o.i = u))

/-- Whether a set has received a product since it was cleared (R204). -/
def AccSet.isOpen (a : AccSet) : Bool := a.mode.isSome

/-- MTX_ registers (R204). -/
def mtxVal (x : CoreSt) (off : Nat) : Nat :=
  let m := x.mtx
  match off with
  | 0x700 =>
    b2n (mtxBusy x 2) * 2 ^ 22 + b2n (mtxBusy x 1) * 2 ^ 21 + b2n (mtxBusy x 0) * 2 ^ 20
    + (countFrom 0 2).foldl (fun v n => v + b2n ((tget accDef m.accs n).mode = some .int) * 2 ^ (18 + n)
        + b2n (tget accDef m.accs n).isOpen * 2 ^ (16 + n)) 0
    + (countFrom 0 8).foldl (fun v t => v + b2n (tget tileDef m.tiles t).cfg * 2 ^ (8 + t)
        + b2n (tget tileDef m.tiles t).full * 2 ^ t) 0
  | 0x704 => m.special.toNat
  | 0x708 => b2n m.spEven * 16 + m.spLine.toNat
  | 0x710 => (tget halfDef m.amaxLast 0).toNat
  | 0x714 => (tget halfDef m.amaxCum 0).toNat
  | 0x718 => (tget halfDef m.amaxLast 1).toNat
  | 0x71C => (tget halfDef m.amaxCum 1).toNat
  | _ => 0

/-- VEC_ registers (R226). -/
def vecVal (x : CoreSt) (off : Nat) : Nat :=
  let v := x.vec
  if off = 0x800 ∨ off = 0x804 then (tget halfDef v.key ((off - 0x800) / 4)).toNat
  else if 0x810 ≤ off ∧ off < 0x830 then (tget halfDef v.ctr ((off - 0x810) / 4)).toNat
  else if off = 0x830 then v.amaxLast.toNat
  else if off = 0x834 then v.amaxCum.toNat
  else 0

def DmaRun.num : DmaRun → Nat
  | .idle => 0 | .waitStart => 1 | .run => 2 | .stopped => 3

/-- DMA_STAT (R245). -/
def dmaStat (d : DmaCh) : Nat :=
  d.run.num * 2 ^ 30 + d.status.toNat * 2 ^ 26 + d.cause.toNat * 2 ^ 16 + d.done.toNat

/-- DMA_ registers of a channel (R245). -/
def dmaVal (d : DmaCh) (o : Nat) : Nat :=
  match o with
  | 0x00 => dmaStat d
  | 0x08 => d.i0
  | 0x0C => d.i2 * 65536 + d.i1
  | 0x10 => d.cur
  | 0x18 | 0x1C => halfOf d.srcW o
  | 0x20 | 0x24 => halfOf d.dstW o
  | _ => 0

/-- MQ_ registers of a queue (R287). -/
def mqVal (x : QueueSt) (o : Nat) : Nat :=
  match o with
  | 0x00 => x.base
  | 0x04 => x.log2
  | 0x08 => x.head.toNat
  | 0x0C => x.tail.toNat
  | 0x10 => b2n x.portErr * 2 ^ 31 + x.thr.val * 32 + b2n x.bind * 16 + b2n x.kind * 8 + x.scope.toNat * 2 + b2n x.opened
  | 0x14 => b2n x.ord * 2 ^ 31 + x.op.toNat * 2 ^ 28 + x.nslot.toNat * 2 ^ 24 + x.param.toNat
  | 0x18 | 0x1C => halfOf x.handler o
  | 0x20 => x.slotRows * 65536 + x.slotRow
  | _ => 0

/-- CINCH_MAP (R287). -/
def cinchMapVal (m : CinchMap) : Nat :=
  b2n m.out * 2 ^ 31 + b2n m.abort * 2 ^ 30 + b2n m.member * 16 + m.evline.toNat

/-- CORE_DBG_ registers (R518). -/
def dbgVal (d : DbgSt) (off : Nat) : Nat :=
  if 0x2000 ≤ off ∧ off < 0x3000 then
    let e := tget (fun _ => (0, 0)) d.trace ((off - 0x2000) / 16)
    if off % 16 < 8 then halfOf e.1 off else halfOf e.2 off
  else if 0x1A10 ≤ off ∧ off < 0x1A30 then halfOf (tget wordDef d.bp ((off - 0x1A10) / 8)) off
  else if 0x1A30 ≤ off ∧ off < 0x1A50 then
    let n := (off - 0x1A30) / 16
    if off % 16 < 8 then halfOf (tget wordDef d.wp n) off else halfOf (tget wordDef d.wpc n) off
  else match off with
    | 0x1A00 => b2n d.halted * 2 ^ 31 + b2n d.waited * 2 ^ 30 + d.tqmask.toNat * 2 ^ 20 + d.tcount.toNat
    | 0x1A04 => d.step.toNat * 2 + b2n d.haltReq
    | 0x1A50 => d.item.toNat
    | _ => 0

/-- A register of THR_BANK or THR_SHADOW as a tagged word (R527): thread n's primary bank; while thread 0 runs in
its shadow bank the primary one is frozen in `shadow` (log 12). -/
def bankWord (x : CoreSt) (n : Nat) (shadow : Bool) (o : Nat) : TWord :=
  let t := x.t n
  let swapped := decide (n = 0) && x.inShadow
  let frozen := swapped != shadow
  let regs := if frozen then x.shadow.regs else t.regs
  if o < 0x200 then (if o / 16 = 0 then (if shadow then {} else wInt 0) else tget regDef regs (o / 16))
  else match o / 16 with
    | 0x20 => if shadow then {} else wAddr t.pc
    | 0x21 => wAddr (if frozen then x.shadow.dsp else t.dsp)
    | 0x22 => wAddr (if frozen then x.shadow.rtp else t.rtp)
    | 0x23 => if shadow then {} else t.lnk
    | 0x24 => if shadow then {} else wInt (srWord n t)
    | 0x25 => wInt (if frozen then x.shadow.lc else t.lc)
    | 0x26 => wAddr (if frozen then x.shadow.ls else t.ls)
    | 0x27 => wAddr (if frozen then x.shadow.le else t.le)
    | _ => {}

/-- A 32-bit word of a bank register: value at +0, tag at +8. -/
def bankVal (x : CoreSt) (n : Nat) (shadow : Bool) (o : Nat) : Nat :=
  let w := bankWord x n shadow o
  if o % 16 < 8 then halfOf w.data o else if o % 16 = 8 then w.tag.num else 0

/-- The header of a tile's save record (R202). -/
def tileHeader (t : Tile) : List Word :=
  [if t.cfg then t.conf else 0, BitVec.ofNat 64 (b2n t.full * 512 + b2n t.cfg * 256 + 1), 0]

/-- A short run in bits 23:0 of its word, or an FP32 run when G = 1 (R202): sign, exponent, fraction. -/
def runWord (g : Nat) (r : Half) : Nat :=
  if g = 1 then r.toNat else fmtShort.enc (f32 r)

def runOfWord (g : Nat) (w : Nat) : Half :=
  if g = 1 then BitVec.ofNat 32 w else toF32 (fmtShort.decode (w % 2 ^ 24))

/-- G of an open set; a cleared set's record carries a legal G the spec does not name (log 5). -/
def AccSet.g (a : AccSet) : Nat := if a.mode.isSome then a.gval else 1 <<< (Config.closedG % 4)

/-- CHUNK of an open set; that of a cleared set's record is free (log 5). -/
def AccSet.chunk (a : AccSet) : BitVec 2 := if a.mode.isSome then a.chunkCode else Config.closedChunk

/-- The first three header words of an accumulator record (R202). -/
def accHeader (a : AccSet) (kind : Nat) : List Word :=
  [BitVec.ofNat 64 (a.n % 2 ^ 32 * 2 ^ 32 + a.chunk.toNat * 2 ^ 14 + a.g * 2 ^ 10
      + b2n (a.mode = some .int) * 512 + b2n a.isOpen * 256 + kind), a.sa, a.sb]

/-- The bytes of a save record of a tile or set (R202). -/
def tileRecord (t : Tile) : List Byte :=
  ((tileHeader t).flatMap (fun w => leBytes 8 w.toNat)) ++ List.replicate 40 0
    ++ (if t.full then readBytes t.data 0 16384 else [])

def accRecord (a : AccSet) (kind : Nat) : List Byte :=
  ((accHeader a kind).flatMap (fun w => leBytes 8 w.toNat)) ++ List.replicate 40 0
    ++ (if a.isOpen then
          (countFrom 0 1024).flatMap (fun i => leBytes 4 (tget elDef a.els i).total.toNat)
          ++ (countFrom 0 1024).flatMap (fun i => leBytes 4 (runWord a.g (tget elDef a.els i).run))
        else [])

/-- The record mapped at 0x1_0000 while HALTED is 1 (R518). -/
def mtxRecord (m : MtxSt) (item : Nat) : List Byte :=
  if item < 8 then tileRecord (tget tileDef m.tiles item)
  else if item < 10 then accRecord (tget accDef m.accs (item - 8)) 2
  else []

/-- The value of the aligned 32-bit word at a core register block offset (R526); reserved offsets read zero (R521). -/
def coreRegVal (x : CoreSt) (off : Nat) : Nat :=
  if off < 0x100 then coreCtlVal x off
  else if off < 0x300 then thrVal x ((off - 0x100) / 0x40) ((off - 0x100) % 0x40)
  else if 0x400 ≤ off ∧ off < 0x690 then spadVal x off
  else if 0x700 ≤ off ∧ off < 0x780 then mtxVal x off
  else if 0x800 ≤ off ∧ off < 0x880 then vecVal x off
  else if 0x900 ≤ off ∧ off < 0xD00 then dmaVal (x.ch ((off - 0x900) / 0x40)) ((off - 0x900) % 0x40)
  else if off = 0xD00 then x.evt.toNat
  else if off = 0xE00 then x.tclass.toNat
  else if 0x1000 ≤ off ∧ off < 0x1800 then mqVal (x.q ((off - 0x1000) / 0x40)) ((off - 0x1000) % 0x40)
  else if off = 0x1800 then x.epoch.toNat
  else if off = 0x1804 then x.sendErr.toNat
  else if off = 0x1808 then x.sendInfo.toNat
  else if 0x1900 ≤ off ∧ off < 0x1A00 then cinchMapVal (tget mapDef x.cinch ((off - 0x1900) / 4))
  else if (0x1A00 ≤ off ∧ off < 0x1A54) ∨ (0x2000 ≤ off ∧ off < 0x3000) then dbgVal x.dbg off
  else if 0x4000 ≤ off ∧ off < 0x6000 then bankVal x ((off - 0x4000) / 0x400) false ((off - 0x4000) % 0x400)
  else if 0x6000 ≤ off ∧ off < 0x6400 then bankVal x 0 true (off - 0x6000)
  else if 0x10000 ≤ off ∧ off < 0x14040 ∧ x.dbg.halted then
    leNat (slice (mtxRecord x.mtx x.dbg.item.toNat) (off - 0x10000) 4)
  else 0

/-! ## Cluster block (R528) -/

def bucketVal (b : Bucket) : Nat := b2n b.en * 2 ^ 31 + b.depth * 65536 + b.rate

def nodeVal (n : CinchNode) : Nat := b2n n.par * 2 ^ 20 + n.arr * 65536 + n.loc

/-- A register of the block of cluster `k`; its router's counts stand with the fabric. -/
def clusterVal (f : Fabric) (k : Nat) (x : ClusterSt) (off : Nat) : Nat :=
  if 0x200 ≤ off ∧ off < 0x300 then nodeVal (tget nodeDef x.nodes ((off - 0x200) / 4))
  else if 0x400 ≤ off ∧ off < 0x440 then
    bucketVal (tget bucketDef (if off % 8 = 0 then x.meshTb else x.reinTb) ((off - 0x400) / 8))
  else if 0x460 ≤ off ∧ off < 0x470 then
    let p := (off - 0x460) / 4
    (tget cnt16Def f.marked (64 * p + k)).toNat * 65536 + (tget cnt16Def f.pkts (64 * p + k)).toNat
  else match off with
    | 0x100 => x.pacer % 2 ^ 32
    | 0x104 => x.pacerHi.toNat
    | 0x108 => if x.paceValid then 2 ^ 31 + x.pace.toNat else 0
    | 0x10C => b2n x.cal * 65536 + x.trim.toNat
    | 0x440 => x.tbwin.toNat
    | 0x444 => x.wrr.toNat
    | 0x448 => x.retryMax * 65536 + x.retryTimeout
    | 0x44C => x.mark.toNat
    | 0x470 => x.resend.toNat * 65536 + x.crc.toNat
    | 0x474 => x.demote.toNat * 65536 + x.fault.toNat
    | 0x500 => b2n x.hintUp
    | _ => 0

/-! ## Device block, the areas whose chapters stand above: cinch root, slice map, congestion map, commands, latigo -/

def rootVal (r : CinchRoot) : Nat := r.arr * 65536 + r.clusters
def xcfgVal (r : CinchRoot) : Nat := b2n r.en * 2 ^ 31 + r.parent * 2 ^ 21 + r.children

def ringVal (r : RingSt) (o : Nat) : Nat :=
  match o with
  | 0 =>
    if r.exist then
      (if r.error then 2 else 1) * 2 ^ 30 + r.version.toNat * 2 ^ 28 + b2n r.notice * 2 ^ 27 + r.vec.toNat * 2 ^ 21
      + r.cqLog2 * 2 ^ 17 + r.sqLog2 * 2 ^ 13
    else 0
  | 4 => r.sqTail.toNat * 65536 + r.sqHead.toNat
  | 8 => r.cqTail.toNat * 65536 + r.cqHead.toNat
  | _ => 0

def cmdVal (s : State) (o : Nat) : Nat :=
  if 0x100 ≤ o ∧ o < 0x500 then ringVal (tget ringDef s.cp.rings ((o - 0x100) / 16)) (o % 16)
  else match o with
    | 0x000 => b2n s.host.ready * 2 ^ 31 + s.cp.cmds.length * 65536 + s.cp.orphan.toNat
    | 0x004 => s.cp.lost.toNat * 65536 + s.cp.notices.length
    | _ => 0

/-- More than DEGTHR frames have been discarded in the last 10 ms (R417). -/
def linkDegraded (s : State) (l : LinkSt) : Bool :=
  decide (s.lat.degthr.toNat < (l.recent.filter (fun t => decide (s.mgmt.time < t + 10000000))).length)

/-- LAT_LINK (R419). -/
def linkNum (s : State) (l : LinkSt) : Nat :=
  (if l.isFenced then 3 else l.st.toNat) * 2 ^ 30 + b2n l.mismatch * 2 ^ 29 + b2n (linkDegraded s l) * 2 ^ 28
  + l.lanes.toNat * 2 ^ 26 + l.peer.toNat

def latVal (s : State) (o : Nat) : Nat :=
  let x := s.lat
  if 0x100 ≤ o ∧ o < 0x1C8 then halfOf ((tget (fun _ => (0 : BitVec 48)) x.rows ((o - 0x100) / 8)).zeroExtend 64) o
  else if 0x200 ≤ o ∧ o < 0x2C8 then halfOf ((tget (fun _ => (0 : BitVec 48)) x.cols ((o - 0x200) / 8)).zeroExtend 64) o
  else if 0x400 ≤ o ∧ o < 0x580 then
    let l := s.link ((o - 0x400) / 8)
    if o % 8 = 0 then linkNum s l else l.uncorr.toNat * 65536 + l.corr.toNat
  else if 0x010 ≤ o ∧ o < 0x01C then
    let g := tget groupDef x.groups ((o - 0x010) / 4)
    b2n g.locked * 2 ^ 31 + b2n g.fmt * 4 + g.rate.toNat
  else match o with
    | 0x000 => x.id.toNat
    | 0x004 => b2n x.memen * 65536 + x.degthr.toNat
    | 0x008 => x.retryMax * 2 ^ 28 + x.hold * 65536 + x.timeout
    | 0x00C => x.cinchLost.toNat * 65536 + x.noroute.toNat
    | _ => 0

/-! ## Slices (R325, R366, R399) -/

def skvRunning (c : SkvCtx) : Bool := c.desc.isSome && c.started
/-- Accepted descriptors not complete, the one performed included (R366). -/
def skvCount (c : SkvCtx) : Nat := c.queue.length + b2n c.desc.isSome

def careaDef (_ : Nat) : Carea := {}

def skvVal (k : SkvSt) (o : Nat) : Nat :=
  if 0x80 ≤ o ∧ o < 0x100 then
    let a := tget careaDef k.careas ((o - 0x80) / 16)
    match o % 16 with
    | 0 => a.src % 2 ^ 32
    | 4 => a.src / 2 ^ 32
    | 8 => b2n (a.used && !a.stale) * 2 ^ 31 + b2n (a.used && a.stale) * 2 ^ 30 + a.nrows * 2 ^ 11 + a.row
    | _ => 0
  else match o with
    | 0x40 => k.ctl.toNat
    | 0x44 => k.bwin.toNat
    | 0x48 => b2n (skvRunning k.prio) * 2 ^ 31 + b2n (skvRunning k.ord) * 2 ^ 30 + skvCount k.prio * 2 ^ 20
        + skvCount k.ord * 2 ^ 14 + (countFrom 0 8).foldl (fun v i => v + b2n (tget careaDef k.careas i).used * 2 ^ i) 0
    | 0x4C => k.epoch.toNat
    | 0x50 => k.err.toNat
    | 0x54 => k.errInfo.toNat
    | 0x58 => k.amaxLast.toNat
    | 0x5C => k.amaxCum.toNat
    | 0x64 => b2n k.buf.lowestPoison.isSome * 2 ^ 31 + k.ceCnt.toNat
    | 0x68 => (tget halfDef k.rngKey 0).toNat
    | 0x6C => (tget halfDef k.rngKey 1).toNat
    | 0x70 => (tget halfDef k.rngCtr 0).toNat
    | 0x74 => (tget halfDef k.rngCtr 1).toNat
    | 0x78 => (tget halfDef k.rngCtr 2).toNat
    | 0x7C => (tget halfDef k.rngCtr 3).toNat
    | _ => 0

def sliceVal (x : SliceSt) (o : Nat) : Nat :=
  if 0x40 ≤ o ∧ o < 0x100 then skvVal x.skv o
  else match o with
    | 0x00 => b2n x.fenced * 2 ^ 31 + b2n x.clkOk * 2 ^ 30 + b2n x.ready * 2 ^ 29
        + b2n x.mem.lowestPoison.isSome * 2 ^ 28 + x.refx.toNat * 2 ^ 26
    | 0x04 => x.ueCnt.toNat * 65536 + x.ceCnt.toNat
    | 0x08 => x.eccAddr % 2 ^ 32
    | 0x0C => b2n x.eccValid * 2 ^ 31 + x.eccAddr / 2 ^ 32
    | 0x10 => b2n (decide (x.sweepLeft ≠ 0)) * 2 ^ 31 + x.period.toNat
    | 0x14 => if x.paceValid then 2 ^ 31 + x.pace.toNat else 0
    | 0x18 => if x.tempValid then 2 ^ 31 + x.temp.toNat else 0
    | 0x100 => bucketVal x.stb
    | 0x104 => bucketVal x.rtb
    | 0x108 => x.swin.toNat
    | 0x10C => x.sretryMax * 65536 + x.sretryTimeout
    | _ => 0

/-! ## Device block (R530) -/

def mgtVal (m : MgmtSt) (o : Nat) : Nat :=
  match o with
  | 0x0 => m.time % 2 ^ 32
  | 0x4 => m.timeHi.toNat
  | 0x8 => b2n m.fwRun * 2 ^ 31 + b2n m.slot * 2 ^ 30 + b2n m.trial * 2 ^ 29 + b2n m.storeOk * 2 ^ 28
      + b2n m.bank * 2 ^ 27 + b2n m.signOk * 2 ^ 26 + m.svn.toNat * 256 + m.minSvn.toNat
  | 0xC => m.telemPeriod.toNat
  | _ => 0

def pwrVal (p : PwrSt) (o : Nat) : Nat :=
  match o with
  | 0x0 => b2n p.tripped * 2 ^ 31 + p.tripCause.toNat * 65536 + p.tripIndex.toNat * 256 + b2n p.busy * 4 + p.state.toNat
  | 0x4 => p.ramp.toNat
  | 0x8 => p.fcast.toNat
  | _ => 0

def cmapVal (f : Fabric) (o : Nat) : Nat :=
  let p := o / 0x40
  let j := o % 0x40 / 4
  (countFrom 0 4).foldl (fun v n => v + (tget (fun _ => (0 : BitVec 8)) f.cmap (p * 64 + 4 * j + n)).toNat * 2 ^ (8 * n)) 0

def deviceVal (s : State) (o : Nat) : Nat :=
  if o < 0x100 then mgtVal s.mgmt o
  else if o < 0x200 then pwrVal s.pwr (o - 0x100)
  else if 0x400 ≤ o ∧ o < 0x500 then rootVal (s.rootOf ((o - 0x400) / 4))
  else if 0x500 ≤ o ∧ o < 0x600 then xcfgVal (s.rootOf ((o - 0x500) / 4))
  else if 0x700 ≤ o ∧ o < 0x800 then cmapVal s.fabric (o - 0x700)
  else if 0x1000 ≤ o ∧ o < 0x2000 then cmdVal s (o - 0x1000)
  else if 0x2000 ≤ o ∧ o < 0x2600 then latVal s (o - 0x2000)
  else match o with
    | 0x200 => s.smap.bits.toNat % 2 ^ 32
    | 0x204 => s.smap.bits.toNat / 2 ^ 32 % 2 ^ 32
    | 0x208 => s.smap.bits.toNat / 2 ^ 64
    | 0x20C => s.smap.n
    | 0x600 => b2n s.fabric.cmapValid * 2 ^ 31 + s.fabric.cmapSeq.toNat * 65536 + s.fabric.cmapPeriod.toNat
    | _ => 0

/-- The value of the aligned 32-bit word of a register block. -/
def regVal (s : State) (l : Loc) : Nat :=
  match l with
  | .coreReg c o =>
    let x := s.core c
    coreRegVal { x with deadlock := x.deadlock && deadlocked s c } o
  | .cluster k o => clusterVal s.fabric k (s.cluster k) o
  | .sliceReg k o =>
    let x := s.slice k
    sliceVal { x with fenced := s.sliceFenced k } o
  | .device o => deviceVal s o
  | _ => 0

/-! ## Who may access (R113, R283, R287, R325, R518, R527) -/

/-- What an accessor is to a core's register block. -/
inductive Who where
  | sup (thr : Nat) | task | cp | mgmt | other
  deriving DecidableEq, Repr

def whoIs (s : State) (a : Agent) (c : Nat) : Who :=
  match a with
  | .thread t => if t.core.val = c then (if (s.thr t).priv then .sup t.thr.val else .task) else .other
  | .cp => .cp
  | .mgmt => .mgmt
  | _ => .other

/-- The agents of R113. -/
def Who.r113 : Who → Bool
  | .sup _ | .cp | .mgmt => true
  | _ => false

/-- What a register answers to an access it does not admit (R113): task code of the core that writes raises PRIV. -/
inductive RegAns where
  | ok | nowin | priv
  /-- the access waits: an instruction before it has not finished (R143, R196, R216) -/
  | wait
  deriving DecidableEq, Repr

def Who.refuseWrite : Who → RegAns
  | .task => .priv
  | _ => .nowin

/-- CORE_ and THR_ registers, the cache registers among them (R113, R166). -/
def isCoreCtl (o : Nat) : Bool := decide (o < 0x300) || (decide (0x680 ≤ o) && decide (o < 0x68C))
/-- SPAD_ and KEEP_ registers: any accessor may read (R164). -/
def isSpadKeep (o : Nat) : Bool := decide (0x400 ≤ o) && decide (o < 0x680)
def isDbg (o : Nat) : Bool :=
  (decide (0x1A00 ≤ o) && decide (o < 0x1B00)) || (decide (0x2000 ≤ o) && decide (o < 0x3000))
  || (decide (0x10000 ≤ o) && decide (o < 0x14040))
def isBank (o : Nat) : Bool := decide (0x4000 ≤ o) && decide (o < 0x6400)
/-- MTX_, VEC_, DMA_, EVT_, MQ_, CINCH_MAP and MESH_TCLASS: code of the core at either level may read. -/
def isOwnRead (o : Nat) : Bool :=
  (decide (0x700 ≤ o) && decide (o < 0xD04)) || decide (o = 0xE00) || (decide (0x1000 ≤ o) && decide (o < 0x1A00))
/-- Registers that code of the core at either level may also write: MTX_SPCFG, MTX_ARM, VEC_RNG_KEY, VEC_RNG_CTR,
VEC_ARM (R204, R226). -/
def isOwnWrite (o : Nat) : Bool :=
  decide (o = 0x708) || decide (o = 0x70C) || decide (o = 0x800) || decide (o = 0x804)
  || (decide (0x810 ≤ o) && decide (o < 0x830)) || decide (o = 0x838)

/-- Thread 0 in its shadow bank reaches THR_BANK[0]; the management plane reads any bank (R127, R527). -/
def bankOk (s : State) (w : Who) (c o : Nat) : Bool :=
  match w with
  | .sup 0 => (s.core c).inShadow && decide (o < 0x4400)
  | .mgmt => true
  | _ => false

/-- There is a register at this word of a core's register block; every other offset is reserved (R521, R526). -/
def coreHasReg (x : CoreSt) (o : Nat) : Bool :=
  if o < 0x100 then decide (o = 0 ∨ o = 8 ∨ (0x10 ≤ o ∧ o ≤ 0x30))
  else if o < 0x300 then decide ((o - 0x100) % 0x40 < 0x38)
  else if o < 0x400 then false
  else if o < 0x500 then decide (o < 0x410 ∨ (0x440 ≤ o ∧ o < 0x480))
  else if o < 0x600 then decide (o % 16 ≠ 12)
  else if o < 0x700 then decide (o ≤ 0x608 ∨ (0x680 ≤ o ∧ o ≤ 0x688))
  else if o < 0x800 then decide (o < 0x720)
  else if o < 0x900 then decide (o < 0x808 ∨ (0x810 ≤ o ∧ o < 0x83C))
  else if o < 0xD00 then (let r := (o - 0x900) % 0x40; decide (r < 0x14 ∨ (0x18 ≤ r ∧ r < 0x28)))
  else if o < 0x1000 then decide (o = 0xD00 ∨ o = 0xE00)
  else if o < 0x1800 then decide ((o - 0x1000) % 0x40 < 0x24)
  else if o < 0x1900 then decide (o < 0x180C)
  else if o < 0x1A00 then true
  else if o < 0x2000 then decide (o < 0x1A08 ∨ (0x1A10 ≤ o ∧ o < 0x1A54))
  else if o < 0x3000 then true
  else if o < 0x4000 then false
  else if o < 0x6000 then decide ((o - 0x4000) % 0x400 < 0x280)
  else if o < 0x6400 then
    (let r := (o - 0x6000) / 16
     decide ((1 ≤ r ∧ r < 0x20) ∨ r = 0x21 ∨ r = 0x22 ∨ (0x25 ≤ r ∧ r ≤ 0x27)))
  else x.dbg.halted && decide (0x10000 ≤ o) && decide (o < 0x14040)

def coreReadOk (s : State) (a : Agent) (c o : Nat) : RegAns :=
  let w := whoIs s a c
  if !coreHasReg (s.core c) o then .ok
  else if isBank o then (if bankOk s w c o then .ok else .nowin)
  else if isDbg o then (if w = .mgmt then .ok else .nowin)
  else if isCoreCtl o then (if w.r113 then .ok else .nowin)
  else if isSpadKeep o then .ok
  else if isOwnRead o then (if w.r113 || w = .task then .ok else .nowin)
  else .ok

/-- The management plane writes thread registers only while the core is halted or fenced (R513). -/
def coreWriteOk (s : State) (a : Agent) (c o : Nat) : RegAns :=
  let w := whoIs s a c
  if !coreHasReg (s.core c) o then .ok
  else if isBank o then
    (if bankOk s w c o && (w != .mgmt || (s.core c).dbg.halted || s.coreFenced c) then .ok else .nowin)
  else if isDbg o then (if w = .mgmt then .ok else .nowin)
  else if isCoreCtl o || isSpadKeep o || isOwnRead o then
    (if w.r113 || (w = .task && isOwnWrite o) then .ok else w.refuseWrite)
  else .ok

def readOk (s : State) (a : Agent) (l : Loc) : RegAns :=
  match l with
  | .coreReg c o => coreReadOk s a c o
  | _ => .ok

/-- The pacer and time registers latch their upper half at a read of the lower (R37, R476, R521). -/
def readLatch (s : State) (l : Loc) : State :=
  match l with
  | .cluster k 0x100 => s.modCluster k (fun x => { x with pacerHi := BitVec.ofNat 32 (x.pacer / 2 ^ 32) })
  | .device 0x0 => { s with mgmt := { s.mgmt with timeHi := BitVec.ofNat 32 (s.mgmt.time / 2 ^ 32) } }
  | _ => s

/-- Read the aligned 32-bit word at a register location. -/
def regRead32 (s : State) (a : Agent) (l : Loc) : RegAns × Nat × State :=
  match readOk s a l with
  | .ok => (.ok, regVal s l % 2 ^ 32, readLatch s l)
  | r => (r, 0, s)

/-- Read the aligned 32-bit words that the bytes `addr … addr+len-1` touch, in ascending order, and cut the bytes out
(R519). `fuel` is at least the number of words. -/
def regReadGo (a : Agent) : Nat → Nat → Nat → State → RegAns × List Byte × State
  | 0, _, _, s => (.ok, [], s)
  | k + 1, addr, len, s =>
    if len = 0 then (.ok, [], s)
    else
      let w := addr / 4 * 4
      let n := min len (w + 4 - addr)
      match regRead32 s a (decodeLocal w) with
      | (.ok, v, s) =>
        let b := slice (leBytes 4 v) (addr - w) n
        let (r, bs, s) := regReadGo a k (addr + n) (len - n) s
        (r, b ++ bs, s)
      | (r, _, s) => (r, [], s)

def regRead (s : State) (a : Agent) (addr len : Nat) : RegAns × List Byte × State :=
  regReadGo a (len / 4 + 2) addr len s

end Sys2Proof.Machine
end

