-- ==== Sys2Proof/Machine/Route.lean ====
section
/-! DEFINITION. Ways of packets: the check word (R379), places and routes in the mesh (R14, R368, R372, R374, R378), the
choice of a latigo link (R407, R408, R410, R416, R418), and the frames that leave over it (R404). -/

namespace Sys2Proof.Machine

/-! ## The check word (R379) -/

/-- One bit of the reflected division by 0x1EDC_6F41. -/
def crcBit (c : Nat) : Nat := if c % 2 = 1 then (c / 2) ^^^ 0x82F63B78 else c / 2

def crcByte (c : Nat) (b : Byte) : Nat :=
  crcBit (crcBit (crcBit (crcBit (crcBit (crcBit (crcBit (crcBit (c ^^^ b.toNat))))))))

/-- CRC-32C of bytes in order. -/
def crc32c (l : List Byte) : Half := BitVec.ofNat 32 (l.foldl crcByte 0xFFFFFFFF ^^^ 0xFFFFFFFF)

/-- The number of a KIND (log 21). -/
def kindNum : PktKind → Nat
  | .read => 0 | .write => 1 | .record => 2 | .contribution => 3 | .posting => 4 | .status => 5 | .data => 6

def mcNum : Multicast → Nat
  | .none => 0 | .row => 1 | .column => 2 | .edgeRow => 3

/-- The header fields of R371 but CM and PH, in the table's order, as bytes. DESIGN CHOICE (log 83). -/
def packetHead (h : Packet) : List Byte :=
  leBytes 2 h.dest.toNat ++ leBytes 2 h.src.val ++
  [BitVec.ofNat 8 h.mid.val, BitVec.ofNat 8 (mcNum h.mc), BitVec.ofNat 8 h.cls.toNat, BitVec.ofNat 8 (b2n h.rsp),
   BitVec.ofNat 8 (kindNum h.kind), BitVec.ofNat 8 h.slot.val, BitVec.ofNat 8 (b2n h.gen), BitVec.ofNat 8 h.len.toNat,
   BitVec.ofNat 8 (b2n h.ce)]

/-- The end-to-end check of an on-die packet with its payload. -/
def packetCrcOk (h : Packet) (payload : List Byte) : Bool := decide (h.crc = crc32c (packetHead h ++ payload))

/-- A packet has 1 to 9 flits on the bulk mesh, 1 to 8 on the rein (R371). -/
def packetLenOk (rein : Bool) (h : Packet) : Bool :=
  decide (1 ≤ h.len.toNat) && decide (h.len.toNat ≤ if rein then 8 else 9)

/-! ## Places in the mesh (R14, R18, R368) -/

/-- The cluster at whose router a source port attaches; a group port has one side router for every link pair and is
listed here at its first. -/
def portCluster (p : Nat) : Nat :=
  if p < 512 then p / 8
  else if p < 552 then (p - 512) / 5
  else if p < 592 then 56 + (p - 552) / 5
  else if p = 592 then 32
  else if p = 593 then 24
  else if p = 594 then 0
  else 7

/-- The side router of a latigo link. -/
def linkCluster (l : Nat) : Nat := 8 * (l % 16 / 2) + (if l < 16 then 0 else 7)

/-- The cluster at whose router a unit of a `Dest` stands; the device block at cluster (0, 3) (R24). -/
def unitCluster (u : Nat) : Nat := if u < 597 then portCluster u else if u < 664 then u - 600 else 24

/-- Directed links of a dimension-ordered route, row first (R374): router and direction, 0 east, 1 west, 2 south, 3 north. -/
def xyLinks (a b : Nat) : List (Nat × Nat) :=
  let (ax, ay, bx, by_) := (a % 8, a / 8, b % 8, b / 8)
  let row := if ax ≤ bx then (countFrom ax (bx - ax)).map (fun x => (8 * ay + x, 0))
             else (countFrom (bx + 1) (ax - bx)).map (fun x => (8 * ay + x, 1))
  let col := if ay ≤ by_ then (countFrom ay (by_ - ay)).map (fun y => (8 * y + bx, 2))
             else (countFrom (by_ + 1) (ay - by_)).map (fun y => (8 * y + bx, 3))
  row ++ col

/-- Routers of a bulk-mesh route by way of MID, source's first. -/
def routeRouters (a mid b : Nat) : List Nat :=
  ((xyLinks a mid ++ xyLinks mid b).map (·.1)) ++ [b]

/-- Numbers from one place towards another, which is left out. -/
def lineTo (a b : Nat) : List Nat := if a ≤ b then countFrom a (b - a) else countFrom (b + 1) (a - b)

/-- Routers of a row multicast: along the source's column, then the whole row (R378). -/
def rowWay (c0 y : Nat) : List Nat :=
  (lineTo (c0 / 8) y).map (fun j => 8 * j + c0 % 8) ++ (countFrom 0 8).map (fun x => 8 * y + x)

/-- Routers of a column multicast: along the source's row, then the whole column. -/
def columnWay (c0 x : Nat) : List Nat :=
  (lineTo (c0 % 8) x).map (fun i => 8 * (c0 / 8) + i) ++ (countFrom 0 8).map (fun y => 8 * y + x)

/-- The routers of a packet's way from a router, by way of MID where it has one (R374, R378). -/
def Dest.way (c0 mid : Nat) : Dest → List Nat
  | .unit u => routeRouters c0 mid (unitCluster u)
  | .link l => routeRouters c0 mid (linkCluster l)
  | .row y => rowWay c0 y
  | .column x => columnWay c0 x
  | .edge south => rowWay c0 (if south then 7 else 0)

/-- A packet leaves the device. -/
def Dest.remote : Dest → Bool
  | .link _ => true
  | _ => false

/-! ## Latigo links (R405 to R410, R416, R418) -/

/-- A device number (R405). -/
def isDevice (d : Nat) : Bool := decide (d / 32 ≤ 24) && decide (d % 32 ≤ 24) && decide (d < 1024)

/-- A link that carries packets: up, not fenced, its peer the one the routes name (R416). -/
def linkUsable (s : State) (l : Nat) : Bool :=
  let x := s.link l
  decide (x.st = 2) && !x.isFenced && !x.mismatch

/-- A link in Perica format serves the device at its far end only (R418). -/
def linkPerica (s : State) (l : Nat) : Bool := (tget groupDef s.lat.groups (l / 16)).fmt

/-- A link of the entry can take a packet; `last`: the hop ends at the packet's target. -/
def mayTake (s : State) (last : Bool) (e : BitVec 48) (l : Nat) : Bool :=
  e.getLsbD l && linkUsable s l && (last || !linkPerica s l)

def entryUsable (s : State) (last : Bool) (e : BitVec 48) : Bool := (countFrom 0 48).any (mayTake s last e)

def linkRowDef (_ : Nat) : BitVec 48 := 0

/-- A routing entry: rows' by column, columns' by row from 32 on. -/
def routeEntry (s : State) (n : Nat) : BitVec 48 := if n < 32 then tget linkRowDef s.lat.rows n else tget linkRowDef s.lat.cols (n - 32)

/-- A hop (R407): the routing entry it takes, its position, and whether it ends at the target. -/
structure Hop where
  entry : Nat
  pos : Nat
  last : Bool
  deriving DecidableEq, Repr

/-- The first hop of the minimal route to another device. -/
def minimalHop (me d : Nat) : Hop :=
  if d % 32 ≠ me % 32 then ⟨d % 32, 0, decide (d / 32 = me / 32)⟩ else ⟨32 + d / 32, 1, true⟩

/-- The first hop of the spread route by way of column `m` that is not skipped. -/
def spreadHop (me d m : Nat) : Hop :=
  if m ≠ me % 32 then ⟨m, 0, decide (m = d % 32) && decide (d / 32 = me / 32)⟩
  else if d / 32 ≠ me / 32 then ⟨32 + d / 32, 1, decide (d % 32 = me % 32)⟩
  else ⟨d % 32, 2, true⟩

def hopUsable (s : State) (h : Hop) : Bool := entryUsable s h.last (routeEntry s h.entry)

/-- The columns that MCOL is drawn from: the source's own, and those whose row entry holds a usable link. -/
def spreadCols (s : State) (d : Nat) : List Nat :=
  (countFrom 0 25).filter (fun c => decide (c = s.lat.id.toNat % 32) || hopUsable s (spreadHop s.lat.id.toNat d c))

/-- Packets to the device leave this one: by the minimal route for class 0, cinch and what answers class 0, else by a
spread one (R407). -/
def routeTo (s : State) (minimal : Bool) (d : Nat) : Bool :=
  let me := s.lat.id.toNat
  isDevice d && (if minimal then hopUsable s (minimalHop me d) else (spreadCols s d).any (fun c => hopUsable s (spreadHop me d c)))

/-- The links in rotation behind the last one taken. -/
def rotateFrom (last : Nat) : List Nat := (countFrom (last + 1) 48).map (· % 48)

def noGang (_ : Nat) : Nat := 47

/-- The usable link of a hop that is next in rotation (R408). -/
def gangLink (s : State) (h : Hop) : Option Nat :=
  (rotateFrom (tget noGang s.lat.gang h.entry)).find? (mayTake s h.last (routeEntry s h.entry))

def turnGang (s : State) (n l : Nat) : State := { s with lat := { s.lat with gang := tset noGang s.lat.gang n l } }

/-- The hop, the column MCOL and the link that a packet to a device takes; MCOL of a spread route is drawn, unless
it is given; of a minimal one it is the target's column. -/
def chooseLink (s : State) (minimal : Bool) (d : Nat) (mcol : Option Nat) : Option (Hop × Nat × Nat) × State :=
  let me := s.lat.id.toNat
  let cols := spreadCols s d
  let (w, s) := if minimal ∨ mcol.isSome then (0, s) else drawFree s
  let m := if minimal then d % 32 else mcol.getD (lget (me % 32) cols (w.toNat % max 1 cols.length))
  let h := if minimal then minimalHop me d else spreadHop me d m
  match gangLink s h with
  | some l => (some (h, m, l), turnGang s h.entry l)
  | none => (none, s)

/-! ## Frames out (R404) -/

/-- The source of a packet: device, port, slot, generation, class, the mark that a response echoes, and the mark set so far. -/
structure LatFrom where
  sdev : Nat
  src : Nat
  slot : Nat
  gen : Bool
  cls : Nat
  ce : Bool := false
  cm : Bool := false
  deriving DecidableEq, Repr

/-- Header word 0 of frame `fidx` of a packet. -/
def frameWord0 (f : LatFrom) (ddev hop mcol len fidx : Nat) (cm : Bool) (b : LatBody) : Nat :=
  f.sdev * 2 ^ 54 + ddev * 2 ^ 44 + hop * 2 ^ 42 + mcol * 2 ^ 37 + f.cls * 2 ^ 35 + b2n b.rsp * 2 ^ 34 + kindNum b.kind * 2 ^ 31
  + f.slot * 2 ^ 24 + b2n f.gen * 2 ^ 23 + f.src * 2 ^ 13 + len * 2 ^ 9 + fidx * 2 ^ 5 + b2n cm * 2 ^ 4 + b2n f.ce * 2 ^ 3

/-- The check word of a packet: its header word 0 without HOP, FIDX and CM, TADDR, and its bytes. DESIGN CHOICE (log 83). -/
def frameCrc (w0 : Nat) (taddr : Word) (bytes : List Byte) : Half :=
  let hop := bitsOf w0 43 42 * 2 ^ 42 + bitsOf w0 8 5 * 2 ^ 5 + bitsOf w0 4 4 * 2 ^ 4
  crc32c (leBytes 8 (w0 - hop) ++ leBytes 8 taddr.toNat ++ bytes)

/-- Payload bytes filled up to a multiple of 32. -/
def padFrame (b : List Byte) : List Byte := padTo 0 (max 32 ((b.length + 31) / 32 * 32)) b

/-- The flits of a packet, one at least. -/
def flitsOf (b : List Byte) : List (List Byte) := if b.isEmpty then [[]] else chunksOf 512 b.length b

/-- A flit's parts on a link: a Perica frame carries 256 bytes at most (R418). -/
def partsOf (perica : Bool) (fl : List Byte) : List (List Byte) :=
  if perica && decide (256 < fl.length) then [fl.take 256, fl.drop 256] else [fl]

/-- The lane of a link direction that a frame takes (R408): class, request or response, hop position. -/
def laneOf (cls : Nat) (rsp : Bool) (hop : Nat) : Nat := cls * 6 + b2n rsp * 3 + hop

/-- A frame leaves over a link, or waits while its lane is off, behind those of its lane that wait (R377, R408). -/
def sendFrame (s : State) (l lane : Nat) (f : Frame) : State :=
  let x := s.link l
  if x.laneOff.getLsbD lane || x.egress.any (fun p => decide (p.1 = lane)) then
    s.modLink l (fun x => { x with egress := x.egress ++ [(lane, f)] })
  else s.out (.frame (Fin.ofNat 48 l) f)

/-- The far end's lanes as a received frame gives them: a set bit is a lane that is off (log 57). Frames whose lane is on
again leave, in order (R408). -/
def takeFctl (s : State) (l : Nat) (off : BitVec 24) : State :=
  let x := s.link l
  let go := x.egress.filter (fun p => !off.getLsbD p.1)
  go.foldl (fun s p => s.out (.frame (Fin.ofNat 48 l) p.2))
    (s.modLink l (fun x => { x with laneOff := off, egress := x.egress.filter (fun p => off.getLsbD p.1) }))

/-- The frames of a packet over link `l`; FCTL, the state of the part's own receive lanes, is free (R408). -/
def emitFrames (s : State) (l : Nat) (f : LatFrom) (ddev hop mcol : Nat) (b : LatBody) : State :=
  let fl := flitsOf b.bytes
  let crc := frameCrc (frameWord0 f ddev hop mcol fl.length 0 false b) b.taddr b.bytes
  let cut := (fl.zip (countFrom 0 fl.length)).flatMap (fun p => (partsOf (linkPerica s l) p.1).map (fun x => (p.2, x)))
  cut.foldl (fun s p =>
    let (w, s) := drawFree s
    let plen := if b.kind = .read ∧ !b.rsp then b.rlen else p.2.length
    sendFrame s l (laneOf f.cls b.rsp hop) {
      w0 := BitVec.ofNat 64 (frameWord0 f ddev hop mcol fl.length p.1 (f.cm || w.getLsbD 63 && decide (f.cls ≠ 0)) b), w1 := b.taddr
      w2 := BitVec.ofNat 64 (plen * 2 ^ 32 + crc.toNat), w3 := BitVec.ofNat 64 (w.toNat % 2 ^ 24 * 2 ^ 40)
      payload := padFrame p.2, fecOk := true }) s

/-- Send a packet to a device; the link it leaves by, or none: it has no usable one. -/
def sendLat (s : State) (minimal : Bool) (f : LatFrom) (d : Nat) (mcol : Option Nat) (b : LatBody) : Option Nat × State :=
  match chooseLink s minimal d mcol with
  | (some (h, m, l), s) => (some l, emitFrames s l f d h.pos m b)
  | (none, s) => (none, s)

/-- Devices of this row (`false`) or column and their routing entries (R409). -/
def lineDevices (s : State) (column : Bool) : List (Nat × Nat) :=
  let me := s.lat.id.toNat
  if column then (countFrom 0 25).filterMap (fun r => if r = me / 32 then none else some (r * 32 + me % 32, 32 + r))
  else (countFrom 0 25).filterMap (fun c => if c = me % 32 then none else some (me / 32 * 32 + c, c))

/-- The devices that a multicast reaches, in ascending number, and whether its copy can be sent: a link in Perica format
takes none (R409, R418). -/
def multiTargets (s : State) (column : Bool) : List (Nat × Nat × Bool) :=
  (lineDevices s column).filterMap (fun p =>
    if entryUsable s true (routeEntry s p.2) then some (p.1, p.2, entryUsable s false (routeEntry s p.2)) else none)

/-- The one status of a multicast: OK, or that of the lowest-numbered device that refused (R409). -/
def multiStatus (answers : List (Nat × Status)) (dflt : Status) : List (Nat × Nat × Bool) → Status
  | [] => .ok
  | (d, _, sent) :: ds =>
    let st := if sent then ((answers.find? (fun a => decide (a.1 = d))).map (·.2)).getD dflt else .nowin
    if st = .ok then multiStatus answers dflt ds else st

end Sys2Proof.Machine
end

