-- ==== Sys2Proof/Machine/Mem.lean ====
section
/-! DEFINITION. Memories with error correction (R154, R155, R317 to R319, R328), remote accesses to scratchpads and
skiver buffers (R147 to R152, R329, R330), address translation (R311, R312, R406, R524) and accesses by global
address. Register writes come in as an argument, since they need everything else. -/

namespace Sys2Proof.Machine

/-! ## Rows of 512 bytes with the code of R154 -/

/-- What checking one struck 8-byte word does: one symbol is corrected, and the row written back at once or later; more
may be detected, miscorrected or pass unnoticed, which is free (R154, R155). -/
inductive WordFate where
  | corrected (deferred : Bool) | detected | miscorrected (bytes : List Byte) | unnoticed (bytes : List Byte)
  deriving DecidableEq, Repr

/-- `defer`: the write-back of a corrected row may have to wait (R142, R155). -/
def wordFate (defer : Bool) (symbols n : Nat) (s : State) : WordFate × State :=
  if symbols ≤ 1 ∧ !defer then (.corrected false, s)
  else
    let (w, s) := drawFree s
    if symbols ≤ 1 then (.corrected (w.getLsbD 0), s)
    else if w.toNat % 4 = 0 then (.detected, s)
    else
      let (b, s) := freeBytes n s
      (if w.toNat % 4 = 1 then .miscorrected b else .unnoticed b, s)

/-- Words of row `r` (64 words a row) that upsets have struck. -/
def EccMem.struck (m : EccMem) (r : Nat) : List (Nat × Nat) := m.upsets.filter (fun p => decide (p.1 / 64 = r))

/-- Check the struck words of a row: an uncorrectable one, the number of corrections, the memory as it then stands. A word
whose write-back is deferred stays as it is and is corrected again. -/
def checkWords (defer : Bool) : List (Nat × Nat) → EccMem → State → Bool × Nat × EccMem × State
  | [], m, s => (false, 0, m, s)
  | (k, n) :: r, m, s =>
    let (f, s) := wordFate defer n 8 s
    let (bad, ce, m, s) := checkWords defer r m s
    let clean := { m with upsets := terase m.upsets k }
    match f with
    | .corrected late => (bad, ce + 1, if late then m else clean, s)
    | .detected => (true, ce, m, s)
    | .miscorrected b => (bad, ce + 1, { clean with bytes := writeBytes m.bytes (8 * k) b }, s)
    | .unnoticed b => (bad, ce, { clean with bytes := writeBytes m.bytes (8 * k) b }, s)

/-- Read-check of row `r` (R155): poisoned or found uncorrectable, corrections counted, the memory after it. DESIGN CHOICE
(log 81): a row that has an uncorrectable word too counts none of its corrections. -/
def EccMem.check (m : EccMem) (defer : Bool) (r : Nat) (s : State) : Bool × Nat × EccMem × State :=
  if tget boolDef m.poison r then (true, 0, m, s)
  else
    match m.struck r with
    | [] => (false, 0, m, s)
    | l =>
      let (bad, ce, m', s) := checkWords defer l m s
      if bad then (true, 0, { m with poison := tset boolDef m.poison r true }, s)
      else (false, ce, m', s)

/-- Read-check of several rows. -/
def checkRows (defer : Bool) : List Nat → EccMem → State → Bool × Nat × EccMem × State
  | [], m, s => (false, 0, m, s)
  | r :: rs, m, s =>
    let (b1, c1, m, s) := m.check defer r s
    let (b2, c2, m, s) := checkRows defer rs m s
    (b1 || b2, c1 + c2, m, s)

/-- The rows that a span touches. -/
def rowsOf (off len : Nat) : List Nat := countFrom (off / 512) ((off + len - 1) / 512 + 1 - off / 512)

/-- A write covers the whole of row `r` when every one of its 512 bytes is enabled (R139, R148). -/
def coversRow (off : Nat) (en : List Bool) (r : Nat) : Bool :=
  decide (off ≤ 512 * r) && decide (512 * r + 512 ≤ off + en.length) && (slice en (512 * r - off) 512).all id

/-- Take the poison and the struck words of a row away: whoever writes the row, its read half merged or not, stores fresh check
symbols (R155). -/
def EccMem.fresh (m : EccMem) (r : Nat) : EccMem :=
  { m with poison := tset boolDef m.poison r false, upsets := m.upsets.filter (fun p => decide (p.1 / 64 ≠ r)) }

/-- Read a span; `none` when a row of it is poisoned. -/
def EccMem.read (m : EccMem) (defer : Bool) (off len : Nat) (s : State) : Option (List Byte) × Nat × EccMem × State :=
  let (bad, ce, m, s) := checkRows defer (rowsOf off len) m s
  (if bad then none else some (readBytes m.bytes off len), ce, m, s)

/-- Write a span with byte enables; rows covered in part are read first; `false`: nothing is written (R148, R155). -/
def EccMem.write (m : EccMem) (defer : Bool) (off : Nat) (data : List Byte) (en : List Bool) (s : State) :
    Bool × Nat × EccMem × State :=
  let rows := rowsOf off data.length
  let (bad, ce, m, s) := checkRows defer (rows.filter (fun r => !coversRow off en r)) m s
  if bad then (false, ce, m, s)
  else
    let m := rows.foldl EccMem.fresh m
    (true, ce, { m with bytes := writeEn m.bytes off data en }, s)

/-! ## Scratchpad of a core -/

/-- Owner of a bank group: 0 D-port, 1 M-port, 2 V-port (R141, R164). -/
def groupOwner (x : CoreSt) (row : Nat) : Nat := bitsOf x.spad.portmap.toNat (2 * (row / 2048) + 1) (2 * (row / 2048))

def setSpadMem (x : CoreSt) (m : EccMem) (ce : Nat) : CoreSt :=
  { x with spad := { x.spad with mem := m, ceCnt := x.spad.ceCnt + BitVec.ofNat 16 ce } }

/-- A correction's write-back may wait at the D-port only, where class-0 operations pass it (R142, R155). -/
def mayDefer (x : CoreSt) (off : Nat) : Bool := decide (groupOwner x (off / 512) = 0)

/-- Read scratchpad bytes at a physical offset; `none` when a row is poisoned. -/
def spadRead (s : State) (c off len : Nat) : Option (List Byte) × State :=
  let (r, ce, m, s) := (s.core c).spad.mem.read (mayDefer (s.core c) off) off len s
  (r, s.modCore c (fun x => setSpadMem x m ce))

/-- Write scratchpad bytes at a physical offset; `false` when a row to be merged is poisoned. -/
def spadWrite (s : State) (c off : Nat) (data : List Byte) (en : List Bool) : Bool × State :=
  let (ok, ce, m, s) := (s.core c).spad.mem.write (mayDefer (s.core c) off) off data en s
  (ok, s.modCore c (fun x => setSpadMem x m ce))

def allOn (l : List α) : List Bool := l.map (fun _ => true)

/-! ## Keepers (R148) -/

/-- The source of a remote access, as KEEP_ERR_INFO.SRC codes it: 0 the same cluster, 1 elsewhere on the die, 2 a
peer (R165); `none`: no source at any scope. -/
def srcClass (a : Agent) (c : Nat) : Option Nat :=
  match a with
  | .thread t => some (if clusterOf t.core.val = clusterOf c then 0 else 1)
  | .dma d => some (if clusterOf d.val = clusterOf c then 0 else 1)
  | .skiver _ | .cp => some 1
  | .peer _ => some 2
  | _ => none

/-- The keeper admits the source class by SCOPE (R148). -/
def scopeAdmits (scope : BitVec 2) (src : Option Nat) : Bool :=
  match src with
  | some n => decide (n ≤ scope.toNat)
  | none => false

/-- The lowest keeper that admits an access starting at `row`. -/
def findKeeper (k : Table Keeper) (write : Bool) (src : Option Nat) (row : Nat) : Nat → Nat → Option Keeper
  | 0, _ => none
  | f + 1, n =>
    let x := tget keepDef k n
    if x.en && (if write then x.wr else x.rd) && scopeAdmits x.scope src && decide (x.base ≤ row)
        && decide (row < min (x.base + x.bound) 8192) then some x
    else findKeeper k write src row f (n + 1)

/-- Count and record a refusal, and fire its line (R152). -/
def keeperRefuse (x : CoreSt) (bound write : Bool) (src row : Nat) : CoreSt :=
  let k := x.keep
  let k := if bound then { k with boundCnt := k.boundCnt + 1 } else { k with nowinCnt := k.nowinCnt + 1 }
  let k := { k with info := BitVec.ofNat 32 (2 ^ 31 + b2n bound * 2 ^ 30 + b2n write * 2 ^ 29 + src * 2 ^ 27 + row % 8192) }
  let x := { x with keep := k }
  if k.even then x.fire k.evline.toNat else x

/-- A remote access to a core's scratchpad (R147 to R152). -/
def keeperAcc (s : State) (a : Agent) (c : Nat) (acc : Acc) : Status × List Byte × State :=
  let x := s.core c
  if s.drowsy then (.unreach, [], s)
  else if s.coreFenced c then (.nowin, [], s)
  else
    let (off, len, write) := match acc with
      | .read o l => (o, l, false)
      | .write o d _ => (o, d.length, true)
    let src := srcClass a c
    let row := off / 512
    let last := (off + len - 1) / 512
    let refuse := fun bound => s.modCore c (fun x => keeperRefuse x bound write (src.getD 1) row)
    match findKeeper x.keep.k write src row 16 0 with
    | none => (.nowin, [], refuse false)
    | some k =>
      if min (k.base + k.bound) 8192 ≤ last then (.bound, [], refuse true)
      else if (rowsOf off len).any (fun r => decide (groupOwner x r ≠ 0)) then (.nowin, [], refuse false)
      else
        match acc with
        | .read o l =>
          match spadRead s c o l with
          | (some b, s) => (.ok, b, s)
          | (none, s) => (.data, [], s)
        | .write o d en =>
          match spadWrite s c o d en with
          | (true, s) => (.ok, [], s)
          | (false, s) => (.data, [], s)

/-! ## Skiver buffers (R329, R330) -/

/-- A peer device. -/
def isPeer : Agent → Bool
  | .peer _ => true
  | _ => false

/-- The source class at a buffer window: 1 die, 2 system; the host port counts as system (R329). -/
def bufSrc (a : Agent) : Option Nat :=
  match a with
  | .thread _ | .dma _ | .skiver _ | .cp => some 1
  | .peer _ | .host => some 2
  | .mgmt => none

/-- Areas with one of these rows are dropped by a write (R352). -/
def dropAreas (s : State) (k : Nat) (rows : List Nat) : State :=
  let hit := fun (a : Carea) => rows.any (fun r => decide (a.row ≤ r) && decide (r < a.row + a.nrows))
  s.modSlice k (fun x => { x with skv := { x.skv with careas := x.skv.careas.filter (fun p => !hit p.2) } })

def skvBufAcc (s : State) (a : Agent) (k : Nat) (acc : Acc) : Status × List Byte × State :=
  let x := s.slice k
  let v := x.skv
  if s.drowsy || s.sliceFenced k then (.unreach, [], s)
  else
    let (off, len, write) := match acc with
      | .read o l => (o, l, false)
      | .write o d _ => (o, d.length, true)
    let ctl := v.ctl.toNat
    let base := bitsOf v.bwin.toNat 10 0
    let top := min (base + bitsOf v.bwin.toNat 27 16) 2048
    let row := off / 512
    let last := (off + len - 1) / 512
    let put := fun (m : EccMem) ce (s : State) =>
      s.modSlice k (fun x => { x with skv := { x.skv with buf := m, ceCnt := x.skv.ceCnt + BitVec.ofNat 16 ce } })
    if !(bitOf ctl (if write then 4 else 3)) || !scopeAdmits (BitVec.ofNat 2 (bitsOf ctl 2 1)) (bufSrc a)
        || decide (row < base) || decide (top ≤ row) then (.nowin, [], s)
    else if top ≤ last then (.bound, [], s)
    else
      match acc with
      | .read o l =>
        match v.buf.read false o l s with
        | (some b, ce, m, s) => (.ok, b, put m ce s)
        | (none, ce, m, s) => (.data, [], put m ce s)
      | .write o d en =>
        match v.buf.write false o d en s with
        | (true, ce, m, s) => (.ok, [], dropAreas (put m ce s) k (if en.any id then rowsOf o d.length else []))
        | (false, ce, m, s) => (.data, [], put m ce s)

/-- A request to a slice's buffer waits at the edge port: its stack has no clock, or the slice is not trained and zeroed (R30,
R323, R324); a fenced slice holds nothing. -/
def edgeWaits (s : State) (k : Nat) : Bool :=
  !s.drowsy && !s.sliceFenced k && !((s.slice k).clkOk && (s.slice k).ready)

/-- A remote access to a slice's buffer window; none: it waits at the edge port. -/
def bufWindow (s : State) (a : Agent) (k : Nat) (acc : Acc) : Option (Status × List Byte × State) :=
  if edgeWaits s k then none else some (skvBufAcc s a k acc)

/-- A write to an edge window: delivered to every unfenced slice of the edge; the status is OK or that of the
lowest-numbered refusing slice; every slice fenced gives UNREACH (R330). -/
def edgeGo (a : Agent) (acc : Acc) : List Nat → State → Option Status × State
  | [], s => (none, s)
  | k :: ks, s =>
    if s.sliceFenced k then edgeGo a acc ks s
    else
      let (st, _, s) := skvBufAcc s a k acc
      let (r, s) := edgeGo a acc ks s
      (if st = .ok then (match r with | none => some .ok | r => r) else some st, s)

/-- The slices of an edge. -/
def edgeSlices (south : Bool) : List Nat := countFrom (if south then 40 else 0) 40

/-- A write to an edge window; none: it waits while one of its slices cannot take its copy (log 100). -/
def edgeWrite (s : State) (a : Agent) (south : Bool) (acc : Acc) : Option (Status × State) :=
  if (edgeSlices south).any (edgeWaits s) then none
  else match edgeGo a acc (edgeSlices south) s with
    | (some st, s) => some (st, s)
    | (none, s) => some (.unreach, s)

/-- A row or column multicast: the copy in core 8k + i of each cluster of the row or column is judged as a remote
access (R378). -/
def multicastGo (a : Agent) (acc : Acc) : List Nat → State → Status × State
  | [], s => (.ok, s)
  | c :: cs, s =>
    let (st, _, s) := keeperAcc s a c acc
    let (r, s) := multicastGo a acc cs s
    (if st = .ok then r else st, s)

def multicastTargets (column : Bool) (n i : Nat) : List Nat :=
  (countFrom 0 8).map (fun j => 8 * (if column then 8 * j + n else 8 * n + j) + i)

/-- A write to a mesh multicast window at offset `o` (R525): core index and byte, one status. -/
def multicastWrite (s : State) (a : Agent) (column : Bool) (n o : Nat) (data : List Byte) (en : List Bool) : Status × State :=
  multicastGo a (.write (o % 0x400000) data en) (multicastTargets column n (o / 0x400000)) s

/-! ## DRAM sectors (R310, R317 to R319) -/

/-- Read-check of a sector: bad when poisoned or uncorrectable; counts and records as R318. Four symbols or more may be
detected, miscorrected, or pass unnoticed and uncounted (R317). -/
def sectorCheck (s : State) (k sec : Nat) : Bool × State :=
  let x := s.slice k
  if tget boolDef x.mem.poison sec then (true, s)
  else
    match tget natDef x.mem.upsets sec with
    | 0 => (false, s)
    | n =>
      let poison := fun (s : State) => s.modSlice k (fun x => { x with
        mem := { x.mem with poison := tset boolDef x.mem.poison sec true },
        ueCnt := x.ueCnt + 1, eccValid := true, eccAddr := sec * 32 })
      let clear := fun (count : Bool) (f : Bytes → Bytes) (s : State) => s.modSlice k (fun x => { x with
        mem := { x.mem with upsets := terase x.mem.upsets sec, bytes := f x.mem.bytes }
        ceCnt := if count then x.ceCnt + 1 else x.ceCnt })
      if n = 1 then (false, clear true id s)
      else if n ≤ 3 then (true, poison s)
      else
        let (w, s) := drawFree s
        if w.toNat % 4 = 0 then (true, poison s)
        else
          let (b, s) := freeBytes 32 s
          (false, clear (decide (w.toNat % 4 = 1)) (fun m => writeBytes m (32 * sec) b) s)

def sectorsOf (off len : Nat) : List Nat := countFrom (off / 32) ((off + len - 1) / 32 + 1 - off / 32)

def sectorCheckAll : List Nat → Nat → State → Bool × State
  | [], _, s => (false, s)
  | c :: cs, k, s =>
    let (b1, s) := sectorCheck s k c
    let (b2, s) := sectorCheckAll cs k s
    (b1 || b2, s)

/-- Read of a span of a slice's DRAM. -/
def dramRead (s : State) (k off len : Nat) : Status × List Byte × State :=
  let (bad, s) := sectorCheckAll (sectorsOf off len) k s
  (if bad then .data else .ok, readBytes (s.slice k).mem.bytes off len, s)

/-- Write of one sector's part of a span: a sector covered in full is written and freed of poison, a healthy one is
merged, a bad one is left (R319). -/
def sectorWrite (s : State) (k sec off : Nat) (data : List Byte) (en : List Bool) : Bool × State :=
  let lo := max off (32 * sec)
  let hi := min (off + data.length) (32 * sec + 32)
  let d := slice data (lo - off) (hi - lo)
  let e := slice en (lo - off) (hi - lo)
  if hi - lo = 32 ∧ e.all id then
    let put := fun (m : EccMem) =>
      EccMem.mk (writeBytes m.bytes lo d) (tset boolDef m.poison sec false) (terase m.upsets sec)
    (false, s.modSlice k (fun x => { x with mem := put x.mem }))
  else
    let (bad, s) := sectorCheck s k sec
    if bad then (true, s)
    else (false, s.modSlice k (fun x => { x with mem := { x.mem with bytes := writeEn x.mem.bytes lo d e } }))

def sectorWriteAll : List Nat → Nat → Nat → List Byte → List Bool → State → Bool × State
  | [], _, _, _, _, s => (false, s)
  | c :: cs, k, off, d, e, s =>
    let (b1, s) := sectorWrite s k c off d e
    let (b2, s) := sectorWriteAll cs k off d e s
    (b1 || b2, s)

def dramWrite (s : State) (k off : Nat) (data : List Byte) (en : List Bool) : Status × State :=
  let (bad, s) := sectorWriteAll (sectorsOf off data.length) k off data en s
  (if bad then .data else .ok, s)

/-- The host holds a line of the span in a way that a data-plane access must snoop first: any copy for a write, an
exclusive one for a read (R431). -/
def dirBlocks (x : SliceSt) (off len : Nat) (write : Bool) : Bool :=
  x.dir.any (fun d => decide (off / 64 ≤ d.line) && decide (d.line ≤ (off + len - 1) / 64) && (write || d.exclusive))

/-- An access to a slice: UNREACH when fenced or beyond 12 GiB (R311, R314); it waits while the slice has no clock or
is not ready (R323, R324) and while the host's copy must be snooped (R431); `none`: it waits. -/
def sliceAcc (s : State) (k : Nat) (acc : Acc) (fromHost : Bool := false) : Option (Status × List Byte × State) :=
  let x := s.slice k
  let (off, len, write) := match acc with
    | .read o l => (o, l, false)
    | .write o d _ => (o, d.length, true)
  if s.drowsy || s.sliceFenced k || decide (0x300000000 < off + len) then some (.unreach, [], s)
  else if !x.clkOk || !x.ready then none
  else if !fromHost && dirBlocks x off len write then none
  else
    match acc with
    | .read o l => some (dramRead s k o l)
    | .write o d en =>
      let (st, s) := dramWrite s k o d en
      some (st, [], s)

/-! ## Translation (R311, R312) -/

/-- The set bits of the slice map, in ascending order (R312, R326). -/
def activeSlices (m : SliceMap) : List Nat := (countFrom 0 80).filter (fun i => m.bits.getLsbD i)

/-- The slice and offset of an HBM address under a map; `none` beyond it. -/
def translateBy (m : SliceMap) (l : Loc) : Option (Nat × Nat) :=
  match l with
  | .hbmI a =>
    let n := m.n
    let g := a / 4096
    if n * 3145728 ≤ g then none
    else some (lget 0 (activeSlices m) (g % n), g / n * 4096 + a % 4096)
  | .hbmS k o => if o < 0x300000000 then some (k, o) else none
  | _ => none

def translate (s : State) (l : Loc) : Option (Nat × Nat) := translateBy s.smap l

/-! ## Accesses by global address (R519, R523, R524) -/

/-- The answer of an access: its status, the bytes of a read, and whether the register raises PRIV (R113). -/
structure AccRes where
  status : Status
  data : List Byte
  priv : Bool := false
  s : State

/-- How register writes are performed. -/
abbrev RegW := State → Agent → Nat → List Byte → List Bool → RegAns × State

/-- No register write takes place: for accesses that R523 keeps away from registers. -/
def noRegW : RegW := fun s _ _ _ _ => (.nowin, s)

/-- The host aperture is open to the access (R432), and no stream of CXL.io Insecure (R436; log 92). -/
def apertureOk (s : State) (off len : Nat) : Bool :=
  s.host.busMaster && !s.host.ideInsecure && !s.host.selInsecure && decide (s.host.mode ≠ 0) && decide (off + len ≤ 4096 * s.host.apSize)

/-- Host physical address of an aperture offset (R432). -/
def apertureHpa (s : State) (off : Nat) : Nat := (4096 * s.host.apBase.toNat + off) % 2 ^ 64

/-- One piece of an access, within a 512-byte block of a local address. What the host takes of its aperture does not come
here (R432; `performOnce`). -/
def localAcc (rw : RegW) (s : State) (a : Agent) (addr : Nat) (acc : Acc) : Option AccRes :=
  let l := decodeLocal addr
  match l with
  | .hbmI _ | .hbmS _ _ =>
    match translate s l with
    | none => some ⟨.unreach, [], false, s⟩
    | some (k, o) =>
      let acc := match acc with
        | .read _ n => Acc.read o n
        | .write _ d e => Acc.write o d e
      match sliceAcc s k acc with
      | none => none
      | some (st, d, s) => some ⟨st, d, false, s⟩
  | .spad c o =>
    let acc := match acc with
      | .read _ n => Acc.read o n
      | .write _ d e => Acc.write o d e
    let (st, d, s) := keeperAcc s a c acc
    some ⟨st, d, false, s⟩
  | .multicast col n o =>
    match acc, a with
    | .write _ d e, .peer _ => let _ := (d, e); some ⟨.nowin, [], false, s⟩
    | .write _ d e, _ =>
      let (st, s) := multicastWrite s a col n o d e
      some ⟨st, [], false, s⟩
    | _, _ => some ⟨.nowin, [], false, s⟩
  | .skvBuf k o =>
    let acc := match acc with
      | .read _ n => Acc.read o n
      | .write _ d e => Acc.write o d e
    (bufWindow s a k acc).map (fun r => ⟨r.1, r.2.1, false, r.2.2⟩)
  | .edge south o =>
    match acc with
    | .read _ _ => some ⟨.nowin, [], false, s⟩
    | .write _ d e =>
      (edgeWrite s a south (.write o d e)).map (fun r => ⟨r.1, [], false, r.2⟩)
  | .aperture _ => some ⟨.unreach, [], false, s⟩
  | .none => some ⟨.unreach, [], false, s⟩
  | _ =>
    match acc with
    | .read _ n =>
      let (r, d, s) := regRead s a addr n
      some ⟨if r = .ok then .ok else .nowin, d, decide (r = .priv), s⟩
    | .write _ d e =>
      match rw s a addr d e with
      | (.wait, _) => none
      | (r, s) => some ⟨if r = .ok then .ok else .nowin, [], decide (r = .priv), s⟩

/-- What a peer may reach on this device (R406). -/
def peerMay (s : State) (addr : Nat) : Bool :=
  match decodeLocal addr with
  | .hbmI _ | .hbmS _ _ => s.lat.memen
  | .spad _ _ | .skvBuf _ _ | .none => true
  | _ => false

/-- Pieces of an access that stay within 512-byte blocks of the local address (R235): start and length. -/
def pieces : Nat → Nat → Nat → List (Nat × Nat)
  | 0, _, _ => []
  | f + 1, a, n =>
    if n = 0 then []
    else
      let k := min n (512 - a % 512)
      (a, k) :: pieces f (a + k) (n - k)

/-- Read the pieces of an access in ascending order; the first refusal ends it. -/
def readPieces (rw : RegW) (a : Agent) : List (Nat × Nat) → State → Option AccRes
  | [], s => some ⟨.ok, [], false, s⟩
  | (p, n) :: ps, s =>
    match localAcc rw s a p (.read p n) with
    | none => none
    | some r =>
      if r.status ≠ .ok then some r
      else
        match readPieces rw a ps r.s with
        | none => none
        | some r2 => some { r2 with data := r.data ++ r2.data }

def writePieces (rw : RegW) (a : Agent) (base : Nat) (data : List Byte) (en : List Bool) :
    List (Nat × Nat) → State → Option AccRes
  | [], s => some ⟨.ok, [], false, s⟩
  | (p, n) :: ps, s =>
    match localAcc rw s a p (.write p (slice data (p - base) n) (slice en (p - base) n)) with
    | none => none
    | some r => if r.status ≠ .ok then some r else writePieces rw a base data en ps r.s

/-- An access by local address: a remote span of at most 512 bytes may cross one row boundary and is one access;
anything else goes block by block, and so does a read that runs through the register region (R428, R519). -/
def accLocal (rw : RegW) (s : State) (a : Agent) (acc : Acc) : Option AccRes :=
  match acc with
  | .read ad n =>
    let byBlock := readPieces rw a (pieces (n / 512 + 2) ad n) s
    match decodeLocal ad with
    | .hbmI _ | .hbmS _ _ => byBlock
    | .skvBuf _ _ => if 512 < n then byBlock else localAcc rw s a ad acc
    | l => if l.isReg then byBlock else localAcc rw s a ad acc
  | .write ad d e =>
    match decodeLocal ad with
    | .hbmI _ | .hbmS _ _ => writePieces rw a ad d e (pieces (d.length / 512 + 2) ad d.length) s
    | _ => localAcc rw s a ad acc

/-- An access by global address (R406, R524); a remote one has left for its device, and the world answers. -/
def accGlobal (rw : RegW) (s : State) (a : Agent) (ext : ExtAns) (acc : Acc) : Option AccRes :=
  let (ga, len) := match acc with
    | .read g n => (g, n)
    | .write g d _ => (g, d.length)
  let lo := ga % 2 ^ 48
  let acc := match acc with
    | .read _ n => Acc.read lo n
    | .write _ d e => Acc.write lo d e
  let dev := ga / 2 ^ 48 % 1024
  let rem := bitOf ga 58
  if 2 ^ 59 ≤ ga ∨ (!rem ∧ dev ≠ 0) ∨ 2 ^ 48 < lo + len then some ⟨.unreach, [], false, s⟩
  else if !rem ∨ dev = s.lat.id.toNat then accLocal rw s a acc
  else
    let st := if 992 ≤ dev then multiStatus [] ext.status (multiTargets s (decide (dev = 993))) else ext.status
    some ⟨st, padTo 0 len ext.data, false, s⟩

/-- Offset and length of an access. -/
def accOff : Acc → Nat
  | .read o _ => o
  | .write o _ _ => o
def accLen : Acc → Nat
  | .read _ n => n
  | .write _ d _ => d.length
def accWrites : Acc → Bool
  | .read _ _ => false
  | .write _ _ _ => true

end Sys2Proof.Machine
end

