-- ==== Sys2Proof/Machine/MtxNum.lean ====
section
/-! DEFINITION. What the matrix engine computes: tile configurations (R168 to R170), the tile product (R182 to R185),
the drain (R188 to R195). -/

namespace Sys2Proof.Machine

/-! ## Tile configurations -/

structure TileCfg where
  code : Nat
  rows : Nat
  cols : Nat
  pitch : Nat
  soff : Nat
  deriving DecidableEq, Repr

def tcfgOf (w : Word) : TileCfg :=
  let n := w.toNat
  { code := bitsOf n 63 59, rows := bitsOf n 58 48, cols := bitsOf n 47 33, pitch := bitsOf n 32 22, soff := bitsOf n 21 12 }

/-- Bytes of the extent (R169). -/
def TileCfg.extent (k : TileCfg) : Nat := k.rows * k.pitch * 16

/-- Data bytes of a row (R169). -/
def rowData (e : Elem) (cols : Nat) : Nat := (cols * e.width + 7) / 8

/-- tcfg accepts the word (R170). -/
def tcfgOk (w : Word) : Bool :=
  let k := tcfgOf w
  match formatOfCode k.code with
  | none => false
  | some f =>
    let d := rowData f.elem k.cols
    decide (f.elem ≠ .int32) && decide (w.toNat % 2 ^ 12 = 0)
    && decide (1 ≤ k.rows ∧ k.rows ≤ 1024) && decide (1 ≤ k.cols) && decide (1 ≤ k.pitch ∧ k.pitch ≤ 1024)
    && decide (k.extent ≤ 16384)
    && !(decide (f.elem.width = 6) && decide (k.cols % 4 ≠ 0)) && !(decide (f.elem.width = 4) && decide (k.cols % 2 ≠ 0))
    && (if f.mx then
          decide (k.cols % 32 = 0) && decide (d ≤ k.soff * 16) && decide (k.soff * 16 + k.cols / 32 ≤ k.pitch * 16)
        else decide (k.soff = 0) && decide (d ≤ k.pitch * 16))

/-- Formats that Perica-compatible code may not configure (R170). -/
def tcfgNoCompat (w : Word) : Bool :=
  match formatOfCode (tcfgOf w).code with
  | some f => f.mx || decide (f.elem.width = 6) || decide (f.elem = .e2m1)
  | none => false

/-- A configured tile's format and shape. -/
def Tile.shape (t : Tile) : Option (Format × TileCfg) :=
  if t.cfg then (formatOfCode (tcfgOf t.conf).code).map (fun f => (f, tcfgOf t.conf)) else none

def Tile.extent (t : Tile) : Nat := (tcfgOf t.conf).extent

/-! ## Rows of a tile laid over bytes -/

/-- Encodings of row r. -/
def rowElems (m : Bytes) (f : Format) (k : TileCfg) (r : Nat) : List Nat :=
  unpack f.elem k.cols (readBytes m (r * k.pitch * 16) (elemBytes f.elem k.cols))

/-- Scale bytes of row r of an MX tile. -/
def rowScales (m : Bytes) (k : TileCfg) (r : Nat) : List Nat :=
  (readBytes m (r * k.pitch * 16 + k.soff * 16) (k.cols / 32)).map BitVec.toNat

/-! ## The tile product -/

/-- Products of one output element over one instruction: groups of G, promotion at chunk boundaries, nothing at the
end (R66, R182). `scales` are the block-scale exponents of the promotions in order; `fuel` is at least the groups. -/
def mmaRun (g chunk : Nat) : Nat → List FVal → List FVal → List (Option Int) → Nat → AccEl → AccEl
  | 0, _, _, _, _, x => x
  | _ + 1, [], _, _, _, x => x
  | f + 1, as, bs, sc, n, x =>
    let x := accGroup g x (products (as.take g) (bs.take g))
    let n := n + g
    if n % chunk = 0 then mmaRun g chunk f (as.drop g) (bs.drop g) (sc.drop 1) n (accPromote x (sc.headD (some 0)))
    else mmaRun g chunk f (as.drop g) (bs.drop g) sc n x

/-- The exponent of the product of two block scales; NaN where either is (R44, R66). -/
def scaleProd (a b : Option Int) : Option Int :=
  match a, b with
  | some x, some y => some (x + y)
  | _, _ => none

/-- Block-scale exponents of a row: those of an MX row, 2^0 in every block of another (R65). -/
def blockExps (f : Format) (blocks : Nat) (scales : List Nat) : List (Option Int) :=
  if f.mx then scales.map scaleExp else List.replicate blocks (some 0)

/-- The mode that a t.mma of two formats needs (R184). -/
def mmaMode (a b : Format) (chunk : BitVec 2) : AccMode :=
  if a.elem.isInt && b.elem.isInt then .int
  else .float (groupSize a.elem b.elem) (chunkOf (a.mx || b.mx) chunk)

/-- One element of the product. -/
def mmaEl (fa fb : Format) (mode : AccMode) (n : Nat) (ra rb : List Nat) (sc : List (Option Int)) (x : AccEl) : AccEl :=
  match mode with
  | .int => accInt x ((ra.zip rb).map (fun p => signedOf fa.elem.width p.1 * signedOf fb.elem.width p.2))
  | .float g c => mmaRun g c (ra.length + 1) (ra.map fa.elem.value) (rb.map fb.elem.value) sc n x

/-- The working copy of a set after a t.mma, committed (R182, R185). -/
def mmaSet (s : AccSet) (ta tb : Tile) (fa fb : Format) (ka kb : TileCfg) (chunk : BitVec 2) : AccSet :=
  let mode := mmaMode fa fb chunk
  let g := groupSize fa.elem fb.elem
  let mx := fa.mx || fb.mx
  let blocks := ka.cols / 32
  let rows := fun (m : Bytes) (f : Format) (k : TileCfg) =>
    (countFrom 0 32).map (fun i => (rowElems m f k i, blockExps f blocks (rowScales m k i)))
  let as := rows ta.data fa ka
  let bs := rows tb.data fb kb
  let vals := as.flatMap (fun a => bs.map (fun b =>
    (a.1, b.1, if mx then (a.2.zip b.2).map (fun p => scaleProd p.1 p.2) else [])))
  let els := ((countFrom 0 1024).zip vals).map (fun p =>
    (p.1, mmaEl fa fb mode s.n p.2.1 p.2.2.1 p.2.2.2 (tget elDef s.els p.1)))
  { s with els := els.filter (fun p => decide (p.2 ≠ elDef 0)), n := s.n + ka.cols, mode := some mode,
           chunkCode := if s.mode.isSome then s.chunkCode else if mx then 1 else chunk,
           gval := if s.mode.isSome then s.gval else g }

/-! ## The drain -/

/-- The end of a floating accumulation (R66). -/
def setTotal (s : AccSet) (i : Nat) : Half :=
  let x := tget elDef s.els i
  match s.mode with
  | some (.float _ c) => if s.n % c = 0 then x.total else (accPromote x (some 0)).total
  | _ => x.total

def scaleOr1 (b : Nat) : Half := if b = 0 then f32One else BitVec.ofNat 32 b

/-- Tensor scales of a set (R47, R193): none leaves the total as it is. -/
def setScaled (s : AccSet) (v : Half) : Half :=
  let a := s.sb.toNat / 2 ^ 32
  let b := s.sb.toNat % 2 ^ 32
  if a = 0 ∧ b = 0 then v else tensorScale v (scaleOr1 a) (scaleOr1 b)

def setScalar (s : AccSet) (v : Half) : Half := if bitOf s.sa.toNat 32 then f32Mul v (BitVec.ofNat 32 s.sa.toNat) else v

/-- The fused elements as FP32, row-major (step 3 of R189). -/
def fusedVals (m : Bytes) (f : Format) (k : TileCfg) : List Half :=
  (countFrom 0 32).flatMap (fun r =>
    let sc := rowScales m k r
    ((countFrom 0 32).zip (rowElems m f k r)).map (fun p =>
      toF32 (if f.mx then mxValue f.elem (lget 0 sc (p.1 / 32)) p.2 else f.elem.value p.2)))

/-- Steps 3 and 4 of R189. -/
def fuseOne (s : AccSet) (fuse : Nat) (v f : Half) : Half :=
  setScalar s (match fuse with
    | 1 => f32Add v f
    | 2 => f32Mul v f
    | _ => v)

/-- The source value of an element before fusion: of a floating set, of an integer one, +0 of a cleared one (R186, R189,
R190). -/
def drainBase (s : AccSet) (i : Nat) : Half :=
  match s.mode with
  | none => 0
  | some .int => toF32 (.ofInt (tget elDef s.els i).total.toInt)
  | some (.float _ _) => setScaled s (setTotal s i)

/-- The integer path of R190 applies. -/
def drainDirect (s : AccSet) (e : Elem) (fuse : Nat) : Bool :=
  decide (s.mode = some .int) && decide (e = .int8) && decide (fuse = 0) && !bitOf s.sa.toNat 32

/-- What a drain produces: data encodings, scale bytes (MX), the running maximum, the first special element. -/
structure DrainOut where
  els : List Nat
  scales : List Nat
  amax : Half
  special : Option (Nat × Nat)
  deriving DecidableEq, Repr

/-- Kind of a special element: source NaN, +∞, −∞, or a finite source that became NaN or ±∞ (R195). -/
def specialKind (e : Elem) (mx : Bool) (v : FVal) (out : Nat) : Nat :=
  match v with
  | .nan => 1
  | .inf false => 2
  | .inf true => 3
  | _ => if !mx && !e.isInt && ((e.value out).isNan || (e.value out).isInf) then 4 else 0

/-- The first special element in row-major order: its number and kind. -/
def firstSpecial (e : Elem) (mx : Bool) (vs : List FVal) (outs : List Nat) : Option (Nat × Nat) :=
  ((countFrom 0 1024).zip ((vs.zip outs).map (fun p => specialKind e mx p.1 p.2))).find? (fun p => decide (p.2 ≠ 0))

def drainOut (s : AccSet) (f : Format) (cvm : BitVec 2) (us : List Nat) (fuse : Nat) (fused : List Half) : DrainOut :=
  if drainDirect s f.elem fuse then
    let ts := (countFrom 0 1024).map (fun i => (tget elDef s.els i).total.toInt)
    let sat := fun (t : Int) => unsignedOf 8 (max (-128) (min 127 t))
    let mx := ts.foldl (fun m t => max m t.natAbs) 0
    { els := ts.map sat, scales := [], amax := toF32 (.ofInt mx), special := none }
  else
    let base := (countFrom 0 1024).map (drainBase s)
    let vals := (base.zip (padTo 0 1024 fused)).map (fun p => f32 (fuseOne s fuse p.1 p.2))
    let (sc, els) := if f.mx then mxConvert f.elem cvm 33 us vals
      else ([], (vals.zip us).map (fun p => f.elem.conv cvm p.2 p.1))
    { els := els, scales := sc, amax := amaxBits vals, special := firstSpecial f.elem f.mx vals els }

/-- The bytes of the extent: rows of data, scale bytes, zeros elsewhere (R192). -/
def drainBytes (f : Format) (k : TileCfg) (o : DrainOut) : List Byte :=
  (countFrom 0 32).flatMap (fun r =>
    let d := pack f.elem (slice o.els (32 * r) 32)
    let row := if f.mx then padTo 0 (k.soff * 16) d ++ [BitVec.ofNat 8 (lget 0 o.scales r)] else d
    padTo 0 (k.pitch * 16) row)

/-- MTX_SPECIAL of a captured element (R204). -/
def specialWord (n : Nat) (el kind : Nat) : Half :=
  BitVec.ofNat 32 (2 ^ 31 + kind * 2 ^ 28 + n * 2 ^ 27 + el / 32 * 2 ^ 22 + el % 32 * 2 ^ 17)

end Sys2Proof.Machine
end

