-- ==== Sys2Proof/Machine/FabBase.lean ====
section
/-! DEFINITION. Source ports of the fabric (R372, R375, R380 to R384, R386, R391): slots, class windows, buckets, planes
and ways of packets, the targets' records of performed requests, and requests with their responses. -/

namespace Sys2Proof.Machine

/-- Source port numbers (R372). -/
def portOfCore (c : Nat) : Nat := c
def portOfSlice (k : Nat) : Nat := 512 + k
def portHost : Nat := 592
def portCp : Nat := 593
def portGroup (g : Nat) : Nat := 594 + g

/-- The source port an agent's requests leave from: none for the management plane, which does not use the mesh (R24),
and for a peer, whose requests arrive at any group port (R411). -/
def agentPort : Agent → Option Nat
  | .thread t => some t.core.val
  | .dma c => some c.val
  | .skiver k => some (512 + k.val)
  | .cp => some portCp
  | .host => some portHost
  | .mgmt | .peer _ => none

def State.port (s : State) (p : Nat) : FabPort := tget portDef s.fabric.ports p
def State.modPort (s : State) (p : Nat) (f : FabPort → FabPort) : State :=
  { s with fabric := { s.fabric with ports := tmod portDef s.fabric.ports p f } }
def FabPort.slot (p : FabPort) (n : Nat) : FabSlot := tget slotDef p.slots n
def FabPort.modSlot (p : FabPort) (n : Nat) (f : FabSlot → FabSlot) : FabPort := { p with slots := tmod slotDef p.slots n f }
def FabPort.win (p : FabPort) (c : Nat) : FabWin := tget winDef p.wins c

/-- Requests of a class outstanding at a port. -/
def FabPort.outstanding (p : FabPort) (c : Nat) : Nat := (p.slots.filter (fun q => q.2.busy && !q.2.rein && decide (q.2.cls = c))).length

/-- The class window after a response (R384). -/
def FabWin.respond (w : FabWin) (ce : Bool) : FabWin :=
  if ce ∧ w.win ≤ w.since then { win := max 1 (w.win / 2), since := 0, good := 0 }
  else
    let w := { w with since := w.since + 1 }
    if ce then w
    else if w.win ≤ w.good + 1 then { w with win := min 64 (w.win + 1), good := 0 }
    else { w with good := w.good + 1 }

/-- The clock that a port's timed actions count (R29, R35): the pacer of the cluster at whose router it stands; a slice
counts units of 20 cycles of its stack's clock, 10.24 ns (R380, R399). -/
def portClock (s : State) (p : Nat) : Nat :=
  if 512 ≤ p ∧ p < 592 then (s.slice (p - 512)).clock / 10240 else (s.cluster (unitCluster p)).pacer

/-- The class of a thread's accesses (R386). -/
def threadClass (s : State) (t : Tid) : Nat := bitsOf (s.core t.core.val).tclass.toNat (2 * t.thr.val + 1) (2 * t.thr.val)

/-! ## Buckets (R391) -/

/-- The bulk-mesh bucket of a core or slice port (R398, R399), or the command processor's own. -/
def meshBucket (s : State) (p : Nat) : Bucket :=
  if p < 512 then tget bucketDef (s.cluster (p / 8)).meshTb (p % 8)
  else if p < 592 then (s.slice (p - 512)).stb
  else if p = portCp then s.cp.bucket
  else {}

def reinBucket (s : State) (p : Nat) : Bucket :=
  if p < 512 then tget bucketDef (s.cluster (p / 8)).reinTb (p % 8)
  else if p < 592 then (s.slice (p - 512)).rtb
  else if p = portCp then s.cp.bucket
  else {}

def setMeshBucket (s : State) (p : Nat) (f : Bucket → Bucket) : State :=
  if p < 512 then s.modCluster (p / 8) (fun x => { x with meshTb := tmod bucketDef x.meshTb (p % 8) f })
  else if p < 592 then s.modSlice (p - 512) (fun x => { x with stb := f x.stb })
  else if p = portCp then { s with cp := { s.cp with bucket := f s.cp.bucket } }
  else s

def setReinBucket (s : State) (p : Nat) (f : Bucket → Bucket) : State :=
  if p < 512 then s.modCluster (p / 8) (fun x => { x with reinTb := tmod bucketDef x.reinTb (p % 8) f })
  else if p < 592 then s.modSlice (p - 512) (fun x => { x with rtb := f x.rtb })
  else if p = portCp then { s with cp := { s.cp with bucket := f s.cp.bucket } }
  else s

/-- A class-0 packet at its bucket (R391): none, it waits; else the class it travels as. A demotion counts in the cluster at
whose router the source stands (log 99). -/
def admitClass0 (s : State) (p : Nat) (rein : Bool) (cost : Nat) : Option (Nat × State) :=
  let b := if rein then reinBucket s p else meshBucket s p
  if !b.en then
    some (1, s.modCluster (unitCluster p) (fun x => { x with demote := x.demote + 1 }))
  else if b.tokens < cost then none
  else
    let take := fun (b : Bucket) => { b with tokens := b.tokens - cost }
    some (0, if rein then setReinBucket s p take else setMeshBucket s p take)

/-! ## Planes and ways (R374, R375, R378, R383) -/

/-- The planes of a source in rotation behind the last one taken, fenced ones left out. -/
def planesFrom (f : Fabric) (p : Nat) : List Nat := ((countFrom 1 4).map (fun i => (p + i) % 4)).filter (fun q => !f.planeFenced.getLsbD q)

/-- The plane that a packet takes: class 0 the next one, another class any that it comes to by passing over planes whose
lane is off, which is free (R375, R377). -/
def nextPlane (f : Fabric) (p cls : Nat) (w : Word) : Nat :=
  let l := planesFrom f p
  lget p l (if cls = 0 then 0 else bitsOf w.toNat 7 6 % max 1 l.length)

/-- The router at which a source injects: a group port's is the side router of one of its links. -/
def srcCluster (p : Nat) (w : Word) : Nat :=
  if 594 ≤ p ∧ p < 597 then linkCluster (16 * (p - 594) + bitsOf w.toNat 63 60) else unitCluster p

/-- One more packet at each router of a way, on one plane (R383). -/
def countWay (plane : Nat) (t : Table (BitVec 16)) (way : List Nat) : Table (BitVec 16) :=
  way.foldl (fun t k => tmod cnt16Def t (64 * plane + k) (· + 1)) t

/-- A packet of a port crosses the bulk mesh, from router `c0` and by way of cluster `mid`: where they are not given, the
source's router and a cluster that is drawn (R374). The routers count it, and those whose lanes are full mark it unless it is
of class 0, which is free (R383). Answers its plane and its mark. -/
def crossVia (s : State) (p cls : Nat) (c0 mid : Option Nat) (d : Dest) : (Nat × Bool) × State :=
  let (w, s) := drawFree s
  let plane := nextPlane s.fabric (s.port p).plane cls w
  let way := d.way (c0.getD (srcCluster p w)) (mid.getD (w.toNat % 64))
  let marks : List Bool := (countFrom 0 way.length).map (fun i => decide (cls ≠ 0) && w.getLsbD (8 + i))
  let marking := ((way.zip marks).filter (fun (p : Nat × Bool) => p.2)).map (fun (p : Nat × Bool) => p.1)
  let f := s.fabric
  let s := { s with fabric := { f with pkts := countWay plane f.pkts way, marked := countWay plane f.marked marking } }
  ((plane, decide (cls ≠ 0) && marks.any id), s.modPort p (fun x => { x with plane := plane }))

def crossMesh (s : State) (p cls : Nat) (d : Dest) : (Nat × Bool) × State := crossVia s p cls none none d

/-! ## Slots (R372, R380, R381, R384) -/

/-- A request of a slot is on its way over a plane of the mesh, to a target on the die. -/
def FabSlot.onPlane (y : FabSlot) (p : Nat) : Bool := y.busy && !y.rein && !y.dest.remote && !y.lost && decide (y.plane = p)

/-- No packet is on a plane (R506). -/
def planeClear (s : State) (p : Nat) : Bool := s.fabric.ports.all (fun x => x.2.slots.all (fun y => !y.2.onPlane p))

/-- What is on a plane is discarded (R506). -/
def planeDiscard (s : State) (p : Nat) : State :=
  let drop := fun (x : FabPort) => { x with slots := x.slots.map (fun y => (y.1, if y.2.onPlane p then { y.2 with lost := true } else y.2)) }
  { s with fabric := { s.fabric with ports := s.fabric.ports.map (fun x => (x.1, drop x.2)) } }

/-- The class that a request is admitted as; none: it waits for its tokens (R391). -/
def admitAs (s : State) (p cls : Nat) (rein : Bool) (cost : Nat) : Option (Nat × State) :=
  if cls = 0 then admitClass0 s p rein cost else some (cls, s)

/-- What targets have recorded of an earlier use of a slot under its present generation is no record of the request that takes
it now, which none has performed (R381). DEDUCED (log 105). -/
def newUse (s : State) (p n : Nat) : State :=
  let g := ((tget portDef s.fabric.ports p).slot n).gen
  let old := fun (r : Nat × DupRec) => decide (r.1 % (597 * 128) = p * 128 + n) && decide (r.2.gen = g)
  { s with fabric := { s.fabric with dups := s.fabric.dups.filter (fun r => !old r) } }

/-- Take the lowest free slot of a port for a request of a class and send it on its way, from router `c0` where it does not
start at its source's; none: it waits for a slot, or for its class window (bulk mesh only, R384). `cross`: the request crosses
the mesh as one packet. -/
def fabTake (s : State) (p cls : Nat) (rein cross : Bool) (c0 : Option Nat) (d : Dest) : Option (Nat × State) :=
  let x := s.port p
  if !rein && decide (cls ≠ 0) && decide ((x.win cls).win ≤ x.outstanding cls) then none
  else match (countFrom 0 128).find? (fun n => !(x.slot n).busy) with
    | none => none
    | some n =>
      let (q, s) := if rein || !cross then ((0, false), s) else crossVia s p cls c0 none d
      let use := fun (y : FabSlot) =>
        { y with busy := true, lost := false, cls := cls, attempts := 1, rein := rein, dest := d, plane := q.1, cm := q.2
                 map := s.smap, sent := portClock s p }
      some (n, (newUse s p n).modPort p (fun x => x.modSlot n use))

/-- A request at its source: admitted, then in a slot; none: it waits there. -/
def fabAlloc (s : State) (p cls : Nat) (rein : Bool) (d : Dest) (cost : Nat) : Option (Nat × State) :=
  (admitAs s p cls rein cost).bind (fun a => fabTake a.2 p a.1 rein true none d)

/-- A response with its mark's echo: the slot is free with its next generation, the class window moves (R381, R384). -/
def fabRespond (s : State) (p n : Nat) (ce : Bool) : State :=
  s.modPort p (fun x =>
    let y := x.slot n
    if !y.busy then x
    else
      let x := x.modSlot n (fun y => { gen := !y.gen })
      if y.rein ∨ y.cls = 0 then x else { x with wins := tmod winDef x.wins y.cls (·.respond ce) })

/-- The units that answer a request on the die: of a multicast every router's, of an edge row every unfenced slice (R378). -/
def respUnits (s : State) : Dest → List Nat
  | .unit u => [u]
  | .row y => (countFrom 0 8).map (fun x => 600 + 8 * y + x)
  | .column x => (countFrom 0 8).map (fun y => 600 + 8 * y + x)
  | .edge south => ((countFrom (if south then 40 else 0) 40).filter (fun k => !s.sliceFenced k)).map portOfSlice
  | .link _ => []

/-- The responses of a slot's request cross the mesh with its class (R386). -/
def crossBack (s : State) (p n : Nat) : State :=
  let y := (s.port p).slot n
  if y.rein then s else (respUnits s y.dest).foldl (fun s u => (crossMesh s u y.cls (.unit p)).2) s

/-- The response of a request comes back; CM of the request is echoed (R384, R386). -/
def fabFree (s : State) (p n : Nat) : State :=
  let y := (s.port p).slot n
  if !y.busy then s else fabRespond (crossBack s p n) p n y.cm

/-- The request of a slot has been discarded on its way (R506). -/
def slotLost (s : State) (p n : Nat) : Bool := decide (n < 128) && ((s.port p).slot n).lost

/-! ## Duplicate records (R381) -/

/-- The unit that answers a local address; none where several answer one write. -/
def targetOf (s : State) (addr : Nat) : Option Nat :=
  let l := decodeLocal addr
  match l with
  | .hbmI _ | .hbmS _ _ => (translate s l).map (fun p => portOfSlice p.1)
  | .spad c _ | .coreReg c _ => some c
  | .sliceReg k _ | .skvBuf k _ => some (portOfSlice k)
  | .aperture _ => some portHost
  | .cluster k _ => some (600 + k)
  | .device _ => some 700
  | .multicast _ _ _ | .edge _ _ => some 701
  | .none => none

def dupKey (target port slot : Nat) : Nat := (target * 597 + port) * 128 + slot
def dupGet (s : State) (target port slot : Nat) : DupRec := tget dupDef s.fabric.dups (dupKey target port slot)
def dupSet (s : State) (target port slot : Nat) (gen : Bool) (status : Nat) : State :=
  let r : DupRec := { gen := gen, status := status, valid := true }
  { s with fabric := { s.fabric with dups := tset dupDef s.fabric.dups (dupKey target port slot) r } }

def statusNum : Status → Nat
  | .ok => 0 | .nowin => 1 | .bound => 2 | .data => 3 | .unreach => 4

/-- A recorded outcome: the status, or 5 for a register's PRIV (R113). -/
def outcomeNum (st : Status) (priv : Bool) : Nat := if priv then 5 else statusNum st

/-- The outcome that a target has recorded for the request of a slot, when the request is no read. -/
def recorded (s : State) (addr port slot : Nat) (gen : Bool) (acc : Acc) : Option Nat :=
  match targetOf s addr with
  | some t =>
    let r := dupGet s t port slot
    if accWrites acc ∧ r.valid ∧ r.gen = gen ∧ r.status < 16 then some r.status else none
  | none => none

/-- Record that a request of a port's slot has been performed at its target. -/
def dupNote (s : State) (addr port slot : Nat) (gen : Bool) (outcome : Nat) : State :=
  match targetOf s addr with
  | some t => if slot < 128 then dupSet s t port slot gen outcome else s
  | none => s

/-- The answer that a number stands for. -/
def answerOf (n : Nat) (data : List Byte) (s : State) : AccRes :=
  if n = 5 then ⟨.nowin, data, true, s⟩ else ⟨statusOfNat n, data, false, s⟩

/-- A response for an access that waits in a slot: it is held until its owner goes on; a peer's FULL sends the access
again (R381, R411). -/
def GAcc.take (slot : Nat) (ans : Nat × List Byte) (g : GAcc) : GAcc :=
  if g.slot = slot then { g with slot := 128, answer := if ans.1 = 16 + stFull then none else some ans } else g

def Held.take (slot : Nat) (ans : Nat × List Byte) : Held → Held
  | .acc g => .acc (g.take slot ans)
  | .miss g => .miss (g.take slot ans)
  | .drain i (some g) => .drain i (some (g.take slot ans))
  | h => h

def Req.take (slot : Nat) (ans : Nat × List Byte) (r : Req) : Req :=
  if r.slot = slot then { r with slot := 128, answer := if ans.1 = 16 + stFull then none else some ans } else r

def WriteBack.take (slot : Nat) (ans : Nat × List Byte) (w : WriteBack) : WriteBack :=
  if w.slot = slot then { w with slot := 128, answer := if ans.1 = 16 + stFull then none else some ans } else w

def SkvDel.take (slot : Nat) (ans : Nat × List Byte) (d : SkvDel) : SkvDel :=
  if d.slot ≠ slot then d
  else if ans.1 = 16 + stFull then { d with slot := 128, issued := false, status := none }
  else { d with slot := 128, status := some ans.1 }

/-- The response reaches what holds the slot in a core. -/
def CoreSt.take (slot : Nat) (ans : Nat × List Byte) (x : CoreSt) : CoreSt :=
  { x with
    thr := x.thr.map (fun p => (p.1, { p.2 with held := p.2.held.map (Held.take slot ans) }))
    dc := { x.dc with wbs := x.dc.wbs.map (WriteBack.take slot ans) }
    mtx := { x.mtx with ops := x.mtx.ops.map (fun o => { o with reqs := o.reqs.map (Req.take slot ans) }) }
    dma := x.dma.map (fun p => (p.1, { p.2 with reqs := p.2.reqs.map (Req.take slot ans) })) }

def SkvCtx.take (slot : Nat) (ans : Nat × List Byte) (c : SkvCtx) : SkvCtx := { c with dels := c.dels.map (SkvDel.take slot ans) }

/-- The response of a slot reaches its owner at the source (R380). -/
def releaseOwner (s : State) (port slot : Nat) (ans : Nat × List Byte) : State :=
  let s := if port < 512 then s.modCore port (CoreSt.take slot ans)
    else if port < 592 then s.modSkv (port - 512) (fun v => { v with prio := v.prio.take slot ans, ord := v.ord.take slot ans })
    else s
  let own := fun (m : Msg) => !m.lost && decide (m.sender.port = port) && decide (m.slot = slot)
  let take := fun (m : Msg) => { m with slot := 128, status := m.status.orElse (fun _ => some (ans.1 % 16)) }
  { s with msgs := s.msgs.map (fun m => if own m then take m else m) }

/-- Whether a global address leaves the device (R406, R524). -/
def isRemoteGa (s : State) (ga : Nat) : Bool := bitOf ga 58 && decide (ga / 2 ^ 48 % 1024 ≠ s.lat.id.toNat)

/-! ## Requests at the host port for the aperture (R432 to R434) -/

def ApReq.writes (r : ApReq) : Bool := accWrites r.acc

/-- The flushing read that answers the writes waiting so far, when none is outstanding (R433). -/
def flushWrites (s : State) : State :=
  if s.host.waiting.any (fun r => r.writes && r.flushed) then s
  else match s.host.waiting.find? ApReq.writes with
    | none => s
    | some r =>
      { s with host := { s.host with waiting := s.host.waiting.map (fun (r : ApReq) => { r with flushed := r.writes }) } }.out (.hostRead r.hpa 0)

/-- An access by its offset in the aperture. -/
def accIn (off : Nat) : Acc → Acc
  | .read _ n => .read off n
  | .write _ d en => .write off d en

/-- A request leaves for the host and waits for its answer. -/
def apEnter (s : State) (a : Option Agent) (slot : Option (Nat × Nat × Bool)) (off : Nat) (acc : Acc) : State :=
  let h := apertureHpa s off
  let o := match acc with
    | .read _ n => Out.hostRead h n
    | .write _ d en => Out.hostWrite h d en
  let r : ApReq := { agent := a, hpa := h, acc := accIn off acc, slot := slot }
  flushWrites (State.out { s with host := { s.host with waiting := s.host.waiting ++ [r] } } o)

/-- The offset of an access in this device's aperture (R523, R524). -/
def apertureOff (s : State) (acc : Acc) : Option Nat :=
  let ga := accOff acc
  if 2 ^ 59 ≤ ga ∨ isRemoteGa s ga ∨ (!bitOf ga 58 ∧ ga / 2 ^ 48 % 1024 ≠ 0) then none
  else match decodeLocal (ga % 2 ^ 48) with
    | .aperture o => some o
    | _ => none

/-- The same, where the host takes the access (R432). -/
def apertureAt (s : State) (acc : Acc) : Option Nat := (apertureOff s acc).filter (fun o => apertureOk s o (accLen acc))

/-- The transaction of a slot's request that is still outstanding at the host (R434). -/
def apWaits (s : State) (p n : Nat) (gen : Bool) (acc : Acc) : Option ApReq :=
  (apertureOff s acc).bind (fun o => s.host.waiting.find? (fun r => decide (r.slot = some (p, n, gen)) && decide (r.acc = accIn o acc)))

/-- A slot's request reaches the host port, once: a re-sent one is attached to its transaction (R434). -/
def apSend (s : State) (p n : Nat) (gen : Bool) (acc : Acc) : State :=
  match apWaits s p n gen acc, apertureAt s acc with
  | none, some off => apEnter s none (some (p, n, gen)) off acc
  | _, _ => s

/-- The status that a completion gives. -/
def HostCplStatus : HostCpl → Status
  | .success => .ok
  | .poisoned => .data
  | .unsupported | .abort | .timeout => .unreach

/-- A completion's status for a read or a write: only data can be poisoned. -/
def apStatus (writes : Bool) (st : Status) : Status :=
  match st with
  | .ok => .ok
  | .data => if writes then .ok else .data
  | _ => .unreach

/-- An answered request's response returns to its slot, with the outcome of a write recorded (R381, R434). -/
def apResponse (s : State) (r : ApReq) (st : Status) (d : List Byte) : State :=
  let s := match r.slot with
    | none => s
    | some (p, n, gen) =>
      let y := (s.port p).slot n
      let s := if r.writes ∧ y.gen = gen then dupSet s portHost p n gen (statusNum st) else s
      if y.busy ∧ y.gen = gen then releaseOwner (fabFree s p n) p n (statusNum st, d) else s
  s.answer { status := st, data := d }

/-- The answers of several requests. -/
def apResponses (l : List ApReq) (st : Status) (s : State) : State := l.foldl (fun s r => apResponse s r st []) s

/-- A completion answers the oldest request: a read its data, the writes before a flushing read their status (R433). -/
def apertureDone (s : State) (st : Status) (data : List Byte) : State :=
  match s.host.waiting with
  | [] => s
  | r :: rest =>
    let st := apStatus r.writes st
    match r.acc with
    | .read _ len => apResponse { s with host := { s.host with waiting := rest } } r st (if st = .ok then padTo 0 len data else [])
    | .write _ _ _ =>
      let left := rest.filter (fun r => !r.flushed)
      flushWrites (apResponses (r :: rest.filter (·.flushed)) st { s with host := { s.host with waiting := left } })

/-- The host's answer to one request that waits, with its response. A write waits until the flushing read that follows it
completes, which answers every write before that read. -/
def apAnswer (s : State) (r : ApReq) (ext : ExtAns) : Option AccRes :=
  let st := apStatus r.writes ext.status
  let others := s.host.waiting.filter (fun x => decide (x ≠ r))
  match r.acc with
  | .read _ n => some ⟨st, if st = .ok then padTo 0 n ext.data else [], false, { s with host := { s.host with waiting := others } }⟩
  | .write _ _ _ =>
    if r.flushed then
      let s := { s with host := { s.host with waiting := others.filter (fun x => !x.flushed) } }
      some ⟨st, [], false, flushWrites (apResponses (others.filter (·.flushed)) st s)⟩
    else none

/-- A request of a slot is performed at its target, once, and recorded (R381); one for the host is answered by it. -/
def performOnce (rw : RegW) (s : State) (a : Agent) (port slot : Nat) (gen : Bool) (ext : ExtAns) (acc : Acc) : Option AccRes :=
  let lo := accOff acc % 2 ^ 48
  let away := isRemoteGa s (accOff acc)
  match (if away ∨ 128 ≤ slot then none else recorded s lo port slot gen acc) with
  | some n => some (answerOf n [] s)
  | none =>
    let s := apSend s port slot gen acc
    let r := match apWaits s port slot gen acc with
      | some r => apAnswer s r ext
      | none => accGlobal rw s a ext acc
    r.map (fun r => if away then r else { r with s := dupNote r.s lo port slot gen (outcomeNum r.status r.priv) })

/-! ## Requests and their responses -/

/-- The way to a local address (R368, R378). -/
def localDest (s : State) (addr : Nat) : Dest :=
  match decodeLocal addr with
  | .multicast col i _ => if col then .column i else .row i
  | .edge south _ => .edge south
  | _ => .unit ((targetOf s addr).getD 700)

/-- Tokens of a request: its own flits, and a read's response flits (R391). -/
def accCost (acc : Acc) : Nat := if accWrites acc then 1 else 2

/-- What happens to a request at its source: it waits, it is refused there, or it has left in a slot. -/
inductive Sent where
  | wait
  | refused (st : Status)
  | slot (n : Nat)
  deriving DecidableEq, Repr

/-- The frames of a request to a peer device (R404, R409): a write's bytes are those enabled. -/
def latBody (lo : Nat) : Acc → LatBody
  | .read _ n => { kind := .read, taddr := BitVec.ofNat 64 lo, rlen := n }
  | .write _ d en =>
    let first := (en.findIdx? id).getD 0
    { kind := .write, taddr := BitVec.ofNat 64 (lo + first)
      bytes := ((d.zip en).filter (·.2)).map (·.1) }

/-- One copy of a multicast to each device that it can be sent to, across the die to its link (R409). -/
def sendMulti (s : State) (column : Bool) (f : LatFrom) (b : LatBody) : State :=
  (multiTargets s column).foldl (fun s p =>
    if p.2.2 then
      let h : Hop := ⟨p.2.1, if column then 1 else 0, false⟩
      match gangLink s h with
      | some l =>
        let (q, s) := crossMesh (turnGang s h.entry l) f.src f.cls (.link l)
        emitFrames s l { f with cm := q.2 } (if column then 993 else 992) h.pos (p.1 % 32) b
      | none => s
    else s) s

/-- The header of a slot's request to another device. -/
def slotFrom (s : State) (p n : Nat) : LatFrom :=
  let y := (s.port p).slot n
  { sdev := s.lat.id.toNat, src := p, slot := n, gen := y.gen, cls := y.cls, cm := y.cm }

/-- A slot holds what its request to another device carries. -/
def setBody (s : State) (p n dev mcol : Nat) (b : LatBody) : State :=
  s.modPort p (fun x => x.modSlot n (fun y => { y with dev := dev, mcol := mcol, body := some b }))

/-- Send a request to a peer device, or to those of a row or column (R406, R407, R409): the class that it is admitted as
decides its way (R391). -/
def sendRemote (s : State) (p cls : Nat) (acc : Acc) : Sent × State :=
  let dev := accOff acc / 2 ^ 48 % 1024
  let b := latBody (accOff acc % 2 ^ 48) acc
  let multi := decide (992 ≤ dev)
  if multi && (!accWrites acc || decide (993 < dev)) then (.refused .nowin, s)
  else match admitAs s p cls false (accCost acc) with
    | none => (.wait, s)
    | some (k, s1) =>
      if multi then
        match fabTake s1 p k false false none (.link 0) with
        | none => (.wait, s)
        | some (n, s1) => (.slot n, sendMulti (setBody s1 p n dev 0 b) (decide (dev = 993)) (slotFrom s1 p n) b)
      else if !routeTo s (decide (k = 0)) dev then (.refused .unreach, s)
      else match chooseLink s1 (decide (k = 0)) dev none with
        | (none, _) => (.refused .unreach, s)
        | (some (h, m, l), s1) =>
          match fabTake s1 p k false true none (.link l) with
          | none => (.wait, s)
          | some (n, s1) => (.slot n, emitFrames (setBody s1 p n dev m b) l (slotFrom s1 p n) dev h.pos m b)

/-- Send a request of a source port by global address. -/
def sendReq (s : State) (p cls : Nat) (acc : Acc) : Sent × State :=
  if isRemoteGa s (accOff acc) then sendRemote s p cls acc
  else match fabAlloc s p cls false (localDest s (accOff acc % 2 ^ 48)) (accCost acc) with
    | some (n, s) => (.slot n, apSend s p n ((s.port p).slot n).gen acc)
    | none => (.wait, s)

/-- A request of a source port with its response, within one event. -/
def reqOnce (rw : RegW) (s : State) (a : Agent) (p cls : Nat) (ext : ExtAns) (acc : Acc) : Option AccRes :=
  match sendReq s p cls acc with
  | (.wait, _) => none
  | (.refused st, s) => some ⟨st, [], false, s⟩
  | (.slot n, s) =>
    (performOnce rw s a p n ((s.port p).slot n).gen ext acc).map (fun r => { r with s := fabFree r.s p n })

/-- A request inside a meaning: it waits for room at its port, and as R323 and R431 say. -/
def reqM (rw : RegW) (a : Agent) (p cls : Nat) (ext : ExtAns) (acc : Acc) : M AccRes := do
  let s ← get
  match reqOnce rw s a p cls ext acc with
  | none => throw .wait
  | some r =>
    set r.s
    pure r

/-- The access leaves the part. -/
def toWorld (ga : Nat) : Bool := bitOf ga 58 || (match decodeLocal (ga % 2 ^ 48) with | .aperture _ => true | _ => false)

/-- A request of a thread whose answer, if it comes from the world, is free. -/
def reqFree (t : Tid) (acc : Acc) : M AccRes := do
  let s ← get
  let c := t.core.val
  if toWorld (accOff acc) then
    let (e, s) := freeExt (accLen acc) s
    set s
    reqM noRegW (.thread t) c (threadClass s t) e acc
  else reqM noRegW (.thread t) c (threadClass s t) ⟨.ok, []⟩ acc

/-- A state as a translator sees it that still holds another map (R315). -/
def withMap (m : SliceMap) (s : State) (f : State → Option AccRes) : Option AccRes :=
  (f { s with smap := m }).map (fun r => { r with s := { r.s with smap := s.smap } })

/-- Send a request under the map that translated its access (R315). -/
def sendUnder (m : SliceMap) (s : State) (p cls : Nat) (acc : Acc) : Sent × State :=
  let (r, s') := sendReq { s with smap := m } p cls acc
  (r, { s' with smap := s.smap })

/-! ## Requests of engines -/

/-- Send the requests of a list that have not left, in order, as far as there is room; one that its source refuses has
its answer. -/
def sendReqs (m : SliceMap) (p cls : Nat) (acc : Req → Acc) : List Req → State → List Req × State
  | [], s => ([], s)
  | r :: rs, s =>
    if r.slot < 128 ∨ r.answer.isSome then
      let (l, s) := sendReqs m p cls acc rs s
      (r :: l, s)
    else match sendUnder m s p cls (acc r) with
      | (.slot n, s) =>
        let (l, s) := sendReqs m p cls acc rs s
        ({ r with slot := n } :: l, s)
      | (.refused st, s) =>
        let (l, s) := sendReqs m p cls acc rs s
        ({ r with answer := some (statusNum st, []) } :: l, s)
      | (.wait, _) => (r :: rs, s)

/-- The outcome of a request that has left: the response its port has taken, or what its target answers now; none: it
has not left, or its target waits. -/
def outcome (rw : RegW) (s : State) (a : Agent) (p : Nat) (m : SliceMap) (ext : ExtAns) (acc : Acc) (slot : Nat)
    (answer : Option (Nat × List Byte)) : Option AccRes :=
  match answer with
  | some (n, d) => some (answerOf n (padTo 0 (if accWrites acc then 0 else accLen acc) d) s)
  | none =>
    if decide (128 ≤ slot) || slotLost s p slot then none
    else (withMap m s (fun s => performOnce rw s a p slot ((s.port p).slot slot).gen ext acc)).map (fun r =>
      { r with s := fabFree r.s p slot })

/-- The requests of a list that have left: what an engine that issues nothing more still waits for. -/
def outstanding (l : List Req) : List Req := l.filter (fun r => decide (r.slot < 128) || r.answer.isSome)

/-- A fence or a reset ends the request of a slot, which takes its next generation (R380, R381); nobody takes the host's answer. -/
def endSlot (p : Nat) (s : State) (n : Nat) : State :=
  if n < 128 then (apDetach s (fun q => decide (q.1 = p ∧ q.2.1 = n))).modPort p (fun x => x.modSlot n (fun y => { gen := !y.gen })) else s

/-- A fence ends requests of a port. -/
def endReqs (p : Nat) (l : List Req) (s : State) : State := l.foldl (fun s r => endSlot p s r.slot) s

end Sys2Proof.Machine
end

