-- ==== Sys2Proof/Machine/Admit.lean ====
section
/-! DEFINITION. Class-0 streams: what a declaration charges (R389, R413), whether it fits (R390), the buckets of its
sources (R390, R391), and the revocation of what no longer fits (R395). -/

namespace Sys2Proof.Machine

/-- The number of a router's port: 0 to 63 local, 64 to 127 edge, 128 on west and east sides. -/
def portPlace (p : Nat) : Nat :=
  if p < 512 then p / 8 else if p < 592 then 64 + portCluster p else 128 + portCluster p

/-! ## Charges -/

/-- A declaration entry's fields (R458). -/
def DeclEnt.ddev (e : DeclEnt) : Nat := bitsOf e.w0.toNat 57 48
def DeclEnt.skv (e : DeclEnt) : Bool := bitOf e.w0.toNat 40
def DeclEnt.rsf (e : DeclEnt) : Nat := bitsOf e.w0.toNat 39 36
def DeclEnt.rqf (e : DeclEnt) : Nat := bitsOf e.w0.toNat 35 32
def DeclEnt.dst (e : DeclEnt) : Nat := bitsOf e.w0.toNat 25 16
def DeclEnt.src (e : DeclEnt) : Nat := bitsOf e.w0.toNat 9 0
def DeclEnt.backlog (e : DeclEnt) : Nat := bitsOf e.w1.toNat 47 32
def DeclEnt.rate (e : DeclEnt) : Nat := bitsOf e.w1.toNat 31 0

def isSlicePort (p : Nat) : Bool := decide (512 ≤ p) && decide (p < 592)

/-- A resource: its kind (0 bulk port, 1 bulk link, 2 rein port, 3 rein link, 4 die-to-die share, 5 DRAM, 6 intake,
7 latigo link) and number. -/
def resKey (kind n : Nat) : Nat := kind * 4096 + n

/-- Links of a hop's routing entry that carry packets. -/
def gangLinks (s : State) (h : Hop) : List Nat := (countFrom 0 48).filter (mayTake s h.last (routeEntry s h.entry))

def planesLeft (s : State) : Nat := (countFrom 0 4).foldl (fun n p => n + b2n (!s.fabric.planeFenced.getLsbD p)) 0

/-- 25 % of a resource's capacity (R389, R390, R413), in the charges' units: flits per µs times 768,000,000, bytes per
µs times 1,000,000, operations per µs times 1,000,000. -/
def resLimit (s : State) (key : Nat) : Nat :=
  let n := key % 4096
  match key / 4096 with
  | 4 => 125000000000
  | 5 => 222750000000
  | 6 => 100000000
  | 7 => if (s.link (n / 2)).lanes = 3 then 23500000000 else 11750000000
  | _ => 240000000000

/-- Flits over the bulk mesh from a port to a port, whose routers are given. -/
def bulkCharges (s : State) (rate n pa ca pb cb : Nat) : List (Nat × Nat) :=
  let q := rate * n * (12 / max 1 (planesLeft s))
  [(resKey 0 (2 * pa), q * 64), (resKey 0 (2 * pb + 1), q * 64)]
  ++ (countFrom 0 64).flatMap (fun mid => (xyLinks ca mid ++ xyLinks mid cb).map (fun l => (resKey 1 (4 * l.1 + l.2), q)))

def reinCharges (rate n pa ca pb cb : Nat) : List (Nat × Nat) :=
  let q := rate * n * 768
  [(resKey 2 (2 * pa), q), (resKey 2 (2 * pb + 1), q)] ++ (xyLinks ca cb).map (fun l => (resKey 3 (4 * l.1 + l.2), q))

/-- The networks that an entry's packets can use: bulk mesh, rein (R370; log 19). -/
def DeclEnt.onBulk (e : DeclEnt) : Bool := !e.skv && decide (e.src ≠ portCp)
def DeclEnt.onRein (e : DeclEnt) : Bool := decide (e.rqf ≤ 8) && decide (e.dst ≠ portHost) && (e.skv || !isSlicePort e.dst)

/-- The hop by which responses of another device come in: a row hop from a device of this row, else the column hop that ends
their minimal route (R407, R413). -/
def returnHop (me d : Nat) : Hop := if d / 32 = me / 32 then ⟨d % 32, 0, true⟩ else ⟨32 + d / 32, 1, true⟩

/-- The links over which an entry's requests leave and its responses come in. -/
def DeclEnt.gangs (s : State) (e : DeclEnt) : List Nat × List Nat :=
  (gangLinks s (minimalHop s.lat.id.toNat e.ddev), gangLinks s (returnHop s.lat.id.toNat e.ddev))

/-- What an entry charges (R389, R413), with the half per cent for pacer tolerance. -/
def entryCharges (s : State) (e : DeclEnt) : List (Nat × Nat) :=
  let r := e.rate * 1005
  let (pa, ca) := (portPlace e.src, portCluster e.src)
  let bytes := r * (Config.packetBytes false e.rqf + Config.packetBytes true e.rsf)
  let own := if isSlicePort e.src then [(resKey 4 (e.src - 512), bytes)] else []
  let way := fun (n pa ca pb cb k : Nat) =>
    ((if e.onBulk then bulkCharges s r n pa ca pb cb else []) ++ (if e.onRein then reinCharges r n pa ca pb cb else [])).map
      (fun c => (c.1, (c.2 + k - 1) / k))
  if e.ddev = s.lat.id.toNat then
    let (pb, cb) := (portPlace e.dst, portCluster e.dst)
    own ++ way e.rqf pa ca pb cb 1 ++ way e.rsf pb cb pa ca 1
    ++ (if isSlicePort e.dst then
          (resKey 4 (e.dst - 512), bytes) :: (if e.skv then [] else [(resKey 5 (e.dst - 512), bytes)])
        else if e.dst < 512 then [(resKey 6 e.dst, r)] else [])
  else
    let (out, back) := e.gangs s
    let part := fun (b k : Nat) => (r * b + k - 1) / k
    own ++ out.flatMap (fun l => (resKey 7 (2 * l), part (Config.packetBytes false e.rqf) out.length)
        :: way e.rqf pa ca (128 + linkCluster l) (linkCluster l) out.length)
    ++ back.flatMap (fun l => (resKey 7 (2 * l + 1), part (Config.packetBytes true e.rsf) back.length)
        :: way e.rsf (128 + linkCluster l) (linkCluster l) pa ca back.length)

def addCharges (t : Table Nat) (l : List (Nat × Nat)) : Table Nat := l.foldl (fun t c => tmod natDef t c.1 (· + c.2)) t

/-- Some resource is charged beyond a quarter. -/
def overCharged (s : State) (t : Table Nat) : Bool := t.any (fun p => decide (resLimit s p.1 < p.2))

/-- A link counts as fenced for its group (R402, R403). -/
def groupFenced (s : State) (g : Nat) : Bool := (countFrom (16 * g) 16).all (fun l => (s.link l).isFenced)

/-- A resource that the entry needs is fenced, or its path crosses a link in Perica format (R390, R413). -/
def entryFenced (s : State) (e : DeclEnt) : Bool :=
  let unit := fun (p : Nat) =>
    if p < 512 then s.coreFenced p
    else if p < 592 then s.sliceFenced (p - 512)
    else decide (593 < p) && groupFenced s (p - 594)
  unit e.src ||
    (if e.ddev = s.lat.id.toNat then unit e.dst
     else
       let (out, back) := e.gangs s
       out.isEmpty || back.isEmpty || (out ++ back).any (fun l => (tget groupDef s.lat.groups (l / 16)).fmt))

/-! ## Admission (R390) -/

/-- What the streams in force hold: charges, sources, skiver contexts. -/
structure Held0 where
  charges : Table Nat := []
  srcs : List Nat := []
  /-- device and slice of each priority context held -/
  ctxs : List (Nat × Nat) := []
  deriving DecidableEq, Repr

def Held0.add (h : Held0) (s : State) (l : List DeclEnt) : Held0 :=
  { charges := l.foldl (fun t e => addCharges t (entryCharges s e)) h.charges
    srcs := h.srcs ++ l.map (·.src)
    ctxs := h.ctxs ++ (l.filter (·.skv)).map (fun e => (e.ddev, e.dst)) }

/-- The reasons of R390, as R447 numbers them. -/
def rsnFenced : Nat := 5
def rsnCapacity : Nat := 7
def rsnSource : Nat := 8
def rsnContext : Nat := 9

/-- The first entry that fails and why; none: the stream fits. -/
def fitGo (s : State) (h : Held0) : List DeclEnt → Nat → Table Nat → Option (Nat × Nat)
  | [], _, _ => none
  | e :: es, i, t =>
    let t := addCharges t (entryCharges s e)
    if overCharged s t then some (rsnCapacity, i)
    else if h.srcs.contains e.src then some (rsnSource, i)
    else if e.skv && h.ctxs.contains (e.ddev, e.dst) then some (rsnContext, i)
    else if entryFenced s e then some (rsnFenced, i)
    else fitGo s h es (i + 1) t

def heldBy (s : State) (l : List Stream) : Held0 := l.foldl (fun h x => h.add s x.ents) {}

/-! ## Buckets -/

/-- A bucket as admission sets it: per window the declared flits, requests and responses together, rounded up; depth
16, or the largest packet's cost (log 20). `ns100`: the window in hundredths of a nanosecond. -/
def admitBucket (clock : Nat) (l : List DeclEnt) (ns100 : Nat) : Bucket :=
  let flits := l.foldl (fun v e => v + e.rate * (e.rqf + e.rsf)) 0
  let depth := l.foldl (fun v e => max v (e.rqf + e.rsf)) 16
  { en := true, depth := depth, rate := min 65535 ((flits * ns100 + 99999999) / 100000000), tokens := depth, since := clock }

/-- Window of a source's buckets, in units of its clock (R391, R399). -/
def windowTicks (s : State) (p : Nat) : Nat :=
  if 512 ≤ p ∧ p < 592 then (s.slice (p - 512)).swin.toNat else (s.cluster (unitCluster p)).tbwin.toNat

/-- The same in hundredths of a nanosecond. -/
def windowOf (s : State) (p : Nat) : Nat := windowTicks s p * (if 512 ≤ p ∧ p < 592 then 1024 else 1000)

/-- Both buckets of a source; the command processor has one. -/
def setBuckets (s : State) (p : Nat) (f : Bucket → Bucket) : State :=
  if p = portCp then setMeshBucket s p f else setReinBucket (setMeshBucket s p f) p f

def openBuckets (s : State) (l : List DeclEnt) : State :=
  (l.map (·.src)).eraseDups.foldl (fun s p =>
    let b := admitBucket (portClock s p) (l.filter (fun e => decide (e.src = p))) (windowOf s p)
    setBuckets s p (fun _ => b)) s

def closeBuckets (s : State) (l : List DeclEnt) (f : Bucket → Bucket) : State :=
  (l.map (·.src)).eraseDups.foldl (fun s p => setBuckets s p f) s

/-! ## Revocation (R395) -/

/-- Streams in force in ascending admission sequence: each is charged again on what is left; one that no longer fits
loses its buckets' EN bits, and the host is told. -/
def revokeGo : List Stream → Held0 → State → State
  | [], _, s => s
  | x :: xs, h, s =>
    if x.revoked then revokeGo xs h s
    else match fitGo s h x.ents 0 h.charges with
      | none => revokeGo xs (h.add s x.ents) s
      | some _ =>
        let s := closeBuckets s x.ents (fun b => { b with en := false })
        let mark := fun (y : Stream) => if y.num = x.num then { y with revoked := true } else y
        let s := { s with cp := { s.cp with streams := s.cp.streams.map mark } }
        revokeGo xs h (s.notify { status := 3, result0 := BitVec.ofNat 64 x.num, result1 := BitVec.ofNat 64 x.seq })

/-- What the command processor does when a fence or fault removes capacity. Streams stand in admission order. -/
def revokeUnfit (s : State) : State := revokeGo s.cp.streams {} s

end Sys2Proof.Machine
end

