-- ==== Sys2Proof/Machine/Spans.lean ====
section
/-! DEFINITION. Which bytes the unfinished instructions of a core use (R292, R295), and the scopes of locations (R289). -/

namespace Sys2Proof.Machine

/-- Bytes that an access uses: physical scratchpad bytes of the core, bytes of a slice's memory, other global bytes, or an
address that is not resolved yet. -/
inductive Span where
  | spad (off len : Nat)
  | dram (slice off len : Nat)
  | glob (ga len : Nat)
  | any
  deriving DecidableEq, Repr

/-- Bytes of a core's scratchpad by their window, as core `c` sees them (R292). -/
def coreSpan (c k off len : Nat) : Span := if k = c then .spad off len else .glob (0x028000000000 + k * 0x800000 + off) len

/-- The bytes behind a span of the interleaved view, granule by granule (R312); what lies beyond the map has none. -/
def dramSpans (m : SliceMap) : Nat → Nat → Nat → List Span
  | 0, _, _ => []
  | f + 1, a, n =>
    if n = 0 then []
    else
      let k := min n (4096 - a % 4096)
      (translateBy m (.hbmI a)).toList.map (fun p => Span.dram p.1 p.2 k) ++ dramSpans m f (a + k) (n - k)

/-- The bytes of a global span as core `c` sees them, so that two names of one byte meet: both views of the memory, the
windows of its own scratchpad, and each copy of a multicast (R292, R378, R523). -/
def spansOf (m : SliceMap) (c ga len : Nat) : List Span :=
  if 2 ^ 48 ≤ ga then [.glob ga len]
  else match decodeLocal ga with
    | .hbmI a => dramSpans m (len / 4096 + 2) a len
    | .hbmS k o => [.dram k o len]
    | .spad k o => [coreSpan c k o len]
    | .multicast col n o => (multicastTargets col n (o / 0x400000)).map (fun k => coreSpan c k (o % 0x400000) len)
    | .edge south o => (countFrom (if south then 40 else 0) 40).map (fun k => Span.glob (0x030001000000 + k * 0x200000 + 0x100000 + o) len)
    | _ => [.glob ga len]

/-- Two runs of bytes of one space meet. -/
def runsMeet (a n b m : Nat) : Bool := decide (a < b + m) && decide (b < a + n)

def Span.meets : Span → Span → Bool
  | .spad a n, .spad b m => runsMeet a n b m
  | .dram k a n, .dram l b m => decide (k = l) && runsMeet a n b m
  | .glob a n, .glob b m => runsMeet a n b m
  | .spad _ _, .any | .any, .spad _ _ => false
  | .any, _ | _, .any => true
  | _, _ => false

/-- A longer span from the same place. -/
def MLoc.upTo (n : Nat) : MLoc → MLoc
  | .spad a _ => .spad a n
  | .glob g _ k => .glob g n k
  | .none => .none

/-- The memory operands of a matrix instruction: where, once checked, which kind before, and whether written. A t.rest
may read as much as its item's longest record (R202, R203). -/
def MtxOp.mem (o : MtxOp) : List (TWord × MLoc × Bool) :=
  match o.i with
  | .tLd _ _ _ => [(o.a, o.la, false)]
  | .tRest _ item _ => [(o.a, o.la.upTo (if item.toNat < 8 then 16448 else 8256), false)]
  | .tSt _ _ _ => [(o.a, o.la, true)]
  | .tSave _ _ _ => [(o.a, o.la, true)]
  | .tDrain _ _ _ ds fuse fs _ _ _ _ =>
    (if ds then [(o.a, o.la, true)] else []) ++ (if fuse ≠ 0 ∧ fs then [(o.b, o.lb, false)] else [])
  | _ => []

/-- The spans of a memory operand of core `c`; before its checks, all that its kind can reach: an ADDR may lie in the core's
own scratchpad too. -/
def memSpan (m : SliceMap) (c : Nat) (o : MtxOp) (w : TWord) (l : MLoc) : List Span :=
  match l with
  | .spad a n => [.spad a n]
  | .glob g n _ => spansOf m c g n
  | .none =>
    if o.checked then []
    else if w.tag = .addr then [.any, .spad 0 (8192 * 512)] else [.spad 0 (8192 * 512)]

def MtxOp.spans (c : Nat) (o : MtxOp) : List (Span × Bool) :=
  o.mem.flatMap (fun p => (memSpan o.map c o p.1 p.2.1).map (fun sp => (sp, p.2.2)))

/-- The rows a vector instruction moves: physical offset, length, written. -/
def VecOp.spans (o : VecOp) : List (Span × Bool) :=
  match o.i with
  | .vLd _ _ _ => [(.spad o.row 512, false)]
  | .vSt _ _ _ => [(.spad o.row 512, true)]
  | .vSave _ item _ => [(.spad o.row (if 17 ≤ item.val then 1024 else 512), true)]
  | .vRest _ item _ => [(.spad o.row (if 17 ≤ item.val then 1024 else 512), false)]
  | _ => []

/-- The access of a thread that is outstanding or still to be made. -/
def Held.access : Held → Option GAcc
  | .acc g | .miss g => some g
  | .drain _ g => g
  | _ => none

/-- The spans of a thread's access that is not finished: a miss uses its whole line (R158, R292). -/
def heldSpans (c : Nat) (h : Option Held) : List (Span × Bool) :=
  match h with
  | some (.miss g) => (spansOf g.map c (g.ga / 64 * 64) 64).map (fun sp => (sp, g.wdata.isSome))
  | _ => (h.bind Held.access).toList.flatMap (fun g => (spansOf g.map c g.ga g.size).map (fun sp => (sp, g.wdata.isSome)))

/-- Some of a list of earlier accesses uses the span's bytes (R292: it finishes first, whatever the two do). -/
def hits (l : List (Span × Bool)) (sp : Span) : Bool := l.any (fun p => p.1.meets sp)

/-- Two instructions use common bytes and one of them writes them (R175). -/
def clash (l r : List (Span × Bool)) : Bool := l.any (fun p => r.any (fun q => (p.2 || q.2) && p.1.meets q.1))

/-- Unfinished accesses of the core's engines and of its other threads: their spans, and whether they write. -/
def unfinished (x : CoreSt) (c n : Nat) : List (Span × Bool) :=
  x.mtx.ops.flatMap (fun o => o.spans c) ++ x.vec.ops.flatMap (fun o => o.spans)
  ++ (countFrom 0 8).flatMap (fun k => if k = n then [] else heldSpans c (x.t k).held)

/-- An access of thread `n` to these bytes must wait for earlier accesses of the core's engines and other threads: each is held
until those to the same bytes have finished (R292). -/
def mustWait (x : CoreSt) (c : Nat) (n : Nat) (l : List Span) : Bool := l.any (hits (unfinished x c n))

/-- Hold back an instruction while an earlier access to its bytes is unfinished: nothing happens yet. -/
def waitFor (t : Tid) (l : List Span) : M Unit := do
  let s ← get
  if mustWait (s.core t.core.val) t.core.val t.thr.val l then throw .wait

/-! ## Scopes of locations (R289) -/

/-- Core, cluster, die and system scope as rising numbers. -/
def scopeLevel : Scope → Nat
  | .core => 0 | .cluster => 1 | .die => 2 | .system => 3

/-- The narrowest scope of core `c` that a location lies within. -/
def locLevel (c ga : Nat) : Nat :=
  if 2 ^ 48 ≤ ga then 3
  else match decodeLocal ga with
    | .spad k _ => if k = c then 0 else if clusterOf k = clusterOf c then 1 else 2
    | .aperture _ => 3
    | _ => 2

def Span.level (c : Nat) : Span → Nat
  | .spad _ _ | .any => 0
  | .dram _ _ _ => 2
  | .glob ga _ => locLevel c ga

/-- A write to a location within the scope, by an engine or another thread of the core, has not reached its point of
visibility (R298). -/
def writesPending (x : CoreSt) (c n : Nat) (scope : Scope) : Bool :=
  (unfinished x c n).any (fun p => p.2 && decide (p.1.level c ≤ scopeLevel scope))

/-- Some access of the core before the present instruction is unfinished (R295). -/
def accessesPending (x : CoreSt) (c n : Nat) : Bool := !(unfinished x c n).isEmpty

end Sys2Proof.Machine
end

