-- ==== Sys2Proof/Machine/Cache.lean ====
section
/-! DEFINITION. The scalar data cache (R158 to R162, R292, R293, R550): lookup, ages, overlay of dirty bytes, starting
write-backs, and the accesses that a meaning performs at once (tables, frames). -/

namespace Sys2Proof.Machine

/-- Way `w` of set `s` has key 8 s + w. -/
def dcSet (line : Nat) : Nat := line % 64

/-- The key of the way that holds a line (line number = global address / 64). -/
def dcFind (d : DCache) (line : Nat) : Option Nat :=
  ((countFrom 0 8).map (fun w => 8 * dcSet line + w)).find? (fun k =>
    let l := tget lineDef d.ways k
    l.valid && decide (l.line = line))

def dcGet (d : DCache) (k : Nat) : DLine := tget lineDef d.ways k
def dcPut (d : DCache) (k : Nat) (l : DLine) : DCache := { d with ways := tset lineDef d.ways k l }
def dcDrop (d : DCache) (k : Nat) : DCache := { d with ways := terase d.ways k }

/-- The lowest way with age 3, ageing all until there is one (R159); `fuel` 4 always suffices. -/
def dcVictimGo (d : DCache) (set : Nat) : Nat → Nat × DCache
  | 0 => (8 * set, d)
  | f + 1 =>
    let keys := (countFrom 0 8).map (fun w => 8 * set + w)
    match keys.find? (fun k => decide ((dcGet d k).age = 3)) with
    | some k => (k, d)
    | none =>
      let d := keys.foldl (fun d k => let l := dcGet d k; dcPut d k { l with age := l.age + 1 }) d
      dcVictimGo d set f

/-- The way a fill replaces: the lowest invalid one, else by age (R159). -/
def dcVictim (d : DCache) (line : Nat) : Nat × DCache :=
  let set := dcSet line
  match ((countFrom 0 8).map (fun w => 8 * set + w)).find? (fun k => !(dcGet d k).valid) with
  | some k => (k, d)
  | none => dcVictimGo d set 4

/-- Bytes of a list replaced where the mask bit of their position is set. -/
def maskMerge (mask : Nat) : List Byte → List Byte → Nat → List Byte
  | b :: bs, n :: ns, i => (if bitOf mask i then n else b) :: maskMerge mask bs ns (i + 1)
  | bs, _, _ => bs

/-- Bits `o … o+n-1` set. -/
def maskBits (o n : Nat) : Nat := (2 ^ n - 1) * 2 ^ o

/-- Mask without the bits of another. -/
def maskClear (m c : Nat) : Nat := m - (m &&& c)

/-- The line's name in the other view of the memory, if it has one (R311, R312). -/
def otherName (m : SliceMap) (line : Nat) : Option Nat :=
  if 2 ^ 42 ≤ line then none
  else match decodeLocal (64 * line) with
    | .hbmI a => (translateBy m (.hbmI a)).map (fun p => (0x010000000000 + p.1 * 2 ^ 34 + p.2) / 64)
    | .hbmS k o =>
      ((activeSlices m).idxOf? k).bind (fun i =>
        let g := o / 4096 * m.n + i
        if g < m.n * 3145728 then some ((g * 4096 + o % 4096) / 64) else none)
    | _ => none

/-- The names under which the cache may hold a line's bytes: its tags are global addresses, and the memory has two views
(R158, R523). -/
def dcNames (m : SliceMap) (line : Nat) : List Nat := line :: (otherName m line).toList

/-- Memory bytes at `ga` overlaid with the core's own bytes that are dirty or on their way back (R292); the span stays
within one line. -/
def dcOverlay (m : SliceMap) (d : DCache) (ga : Nat) (bytes : List Byte) : List Byte :=
  let o := ga % 64
  let names := dcNames m (ga / 64)
  let lay := fun (mask : Nat) (src : List Byte) (b : List Byte) => maskMerge (mask >>> o) b (slice src o b.length) 0
  let bytes := d.wbs.foldl (fun b w => if names.contains w.line then lay w.mask w.bytes b else b) bytes
  names.foldl (fun b n =>
    match dcFind d n with
    | none => b
    | some k => lay (dcGet d k).dirty (dcGet d k).bytes b) bytes

/-- Overlay of a longer span, line by line. -/
def dcOverlayGo (m : SliceMap) (d : DCache) : Nat → Nat → List Byte → List Byte
  | 0, _, bytes => bytes
  | _ + 1, _, [] => []
  | f + 1, ga, bytes =>
    let n := 64 - ga % 64
    dcOverlay m d ga (bytes.take n) ++ dcOverlayGo m d f (ga + n) (bytes.drop n)

/-- A line's bytes with some of them replaced. -/
def DLine.put (l : DLine) (o : Nat) (bytes : List Byte) : DLine :=
  { l with bytes := l.bytes.take o ++ bytes ++ l.bytes.drop (o + bytes.length) }

/-- Bytes stored elsewhere update the copy of a line, which is not dirty with them. -/
def dcCopy (o : Nat) (bytes : List Byte) (d : DCache) (line : Nat) : DCache :=
  match dcFind d line with
  | none => d
  | some k => dcPut d k { (dcGet d k).put o bytes with dirty := maskClear (dcGet d k).dirty (maskBits o bytes.length) }

/-- Bytes stored past the cache update a copy there without marking it dirty (R298), and follow a write-back of the same
bytes that is on its way (R292). -/
def dcUpdate (m : SliceMap) (d : DCache) (ga : Nat) (bytes : List Byte) : DCache :=
  let names := dcNames m (ga / 64)
  let cut := fun (w : WriteBack) =>
    if names.contains w.line then { w with mask := maskClear w.mask (maskBits (ga % 64) bytes.length) } else w
  names.foldl (dcCopy (ga % 64) bytes) { d with wbs := d.wbs.map cut }

/-- A store that hits: merged, dirty, age 0 (R158, R159); a copy under the line's other name follows (R292). -/
def dcStore (m : SliceMap) (d : DCache) (k ga : Nat) (bytes : List Byte) : DCache :=
  let d := (otherName m (ga / 64)).toList.foldl (dcCopy (ga % 64) bytes) d
  let l := dcGet d k
  dcPut d k { l.put (ga % 64) bytes with dirty := l.dirty ||| maskBits (ga % 64) bytes.length, age := 0 }

/-- Keys of the dirty lines, in ascending order. -/
def dcDirty (d : DCache) : List Nat := (d.ways.filter (fun p => p.2.valid && decide (p.2.dirty ≠ 0))).map (·.1)

/-- Parity struck lines met by a write-back: a clean one is refetched later, a dirty one is lost (R161). -/
def dcParityAt (d : DCache) (k : Nat) : Option Bool × DCache :=
  let l := dcGet d k
  if l.valid && l.parity then
    if l.dirty = 0 then (some false, { dcDrop d k with parCnt := d.parCnt + 1 })
    else (some true, { dcDrop d k with mcCnt := d.mcCnt + 1 })
  else (none, d)

def State.modDc (s : State) (c : Nat) (f : DCache → DCache) : State :=
  s.modCore c (fun x => { x with dc := f x.dc })

/-- Enable list of a mask over `n` bytes. -/
def maskList (m n : Nat) : List Bool := (countFrom 0 n).map (fun i => bitOf m i)

/-! ## Write-backs (R160, R162, R297, R298, R386) -/

/-- The request of a write-back: only the dirty bytes are written (R297). -/
def WriteBack.acc (w : WriteBack) : Acc := .write (64 * w.line) w.bytes (maskList w.mask 64)

/-- The thread whose access caused a write-back; any of the core's for the others (its agent is a thread of the core). -/
def WriteBack.thr (w : WriteBack) : Fin 8 :=
  match w.why with
  | .evict t | .drain t => t
  | _ => 0

/-- The thread whose class a write-back takes (R386). DESIGN CHOICE (log 84): one that no thread's access caused takes
that of thread 0, or of the thread that armed the channel. -/
def wbClass (s : State) (c : Nat) (t : Fin 8) : Nat := threadClass s ⟨Fin.ofNat 512 c, t⟩

/-- Send the write-backs that have no slot yet, in order, as far as there is room (R372). -/
def wbSendGo (c : Nat) : List Nat → State → State
  | [], s => s
  | i :: is, s =>
    match (s.core c).dc.wbs[i]? with
    | none => s
    | some w =>
      if w.slot < 128 ∨ w.answer.isSome then wbSendGo c is s
      else match fabAlloc s c w.cls false (localDest s (64 * w.line)) 1 with
        | none => s
        | some (n, s) => wbSendGo c is (s.modDc c (fun d => { d with wbs := lset d.wbs i { w with slot := n } }))

def wbSend (s : State) (c : Nat) : State := wbSendGo c (countFrom 0 (s.core c).dc.wbs.length) s

/-- Take a dirty line's bytes into a write-back; the line stays valid and clean (R162, R298). -/
def dcStartWb (d : DCache) (map : SliceMap) (cls : Nat) (why : WbWhy) (k : Nat) : DCache :=
  let l := dcGet d k
  let d := dcPut d k { l with dirty := 0 }
  { d with wbs := d.wbs ++ [{ line := l.line, bytes := l.bytes, mask := l.dirty, why := why, cls := cls, map := map }] }

/-- Start write-backs of the given lines; the lines lost to parity are returned. -/
def dcStartAll (map : SliceMap) (cls : Nat) (why : WbWhy) : List Nat → DCache → List Nat × DCache
  | [], d => ([], d)
  | k :: ks, d =>
    match dcParityAt d k with
    | (some _, d') =>
      let (lost, d2) := dcStartAll map cls why ks d'
      ((dcGet d k).line :: lost, d2)
    | (none, d) => dcStartAll map cls why ks (dcStartWb d map cls why k)

/-- Start write-backs of a core's lines and send them. -/
def startWbs (s : State) (c : Nat) (cls : Nat) (why : WbWhy) (keys : List Nat) : List Nat × State :=
  let (lost, d) := dcStartAll s.smap cls why keys (s.core c).dc
  (lost, wbSend (s.modDc c (fun _ => d)) c)

/-- Perform a write-back that has been sent, under the map that translated it. -/
def wbPerform (s : State) (c : Nat) (ext : ExtAns) (w : WriteBack) : Option AccRes :=
  outcome noRegW s (.thread ⟨Fin.ofNat 512 c, w.thr⟩) c w.map ext w.acc w.slot w.answer

/-- A line is lost (R161, R550). -/
def dcLose (d : DCache) (k : Nat) : DCache := { dcDrop d k with mcCnt := d.mcCnt + 1 }

/-- Write a line's dirty bytes back within the meaning that needs it; a failure, or a parity error, loses the line and
counts it (R161, R550). -/
def wbNow (c cls : Nat) (k : Nat) : M Bool := do
  let s ← get
  let l := dcGet (s.core c).dc k
  if l.dirty = 0 then pure true
  else if l.parity then do
    set (s.modDc c (fun d => dcLose d k))
    pure false
  else
    let (e, s) := cond (toWorld (64 * l.line)) (freeExt 0 s) (⟨.ok, []⟩, s)
    let w : WriteBack := { line := l.line, bytes := l.bytes, mask := l.dirty, why := .dma }
    match reqOnce noRegW s (.thread ⟨Fin.ofNat 512 c, 0⟩) c cls e w.acc with
    | none => throw .wait
    | some r =>
      if r.status = .ok then
        set (r.s.modDc c (fun d => dcPut d k { l with dirty := 0 }))
        pure true
      else
        set (r.s.modDc c (fun d => dcLose d k))
        pure false

/-- Forget what the core's outstanding miss has read, if its line is one of those: it is asked for again, so that no line joins
the cache with bytes older than an acquire, an invalidation or another engine's write (R293, R299, R301). -/
def refetch (s : State) (c : Nat) (which : Nat → Bool) : State :=
  match (s.core c).dc.miss with
  | none => s
  | some n =>
    match ((s.core c).t n.val).held with
    | some (.miss g) =>
      if g.answer.isSome && which (g.ga / 64) then
        s.modCore c (fun x => x.modT n.val (fun t => { t with held := some (.miss { g with slot := 128, answer := none }) }))
      else s
    | _ => s

/-- Lines of a span of global addresses, under all their names. -/
def linesOf (m : SliceMap) (ga len : Nat) : List Nat :=
  (countFrom (ga / 64) ((ga + len - 1) / 64 + 1 - ga / 64)).flatMap (dcNames m)

/-- Before another engine of the core reads or writes global bytes, dirty bytes of their lines are written back, and
before a write the lines are invalidated, and one on its way is asked for again (R293). Answers the addresses of the lines that were lost. -/
def flushSpan (c cls : Nat) (inval : Bool) : List Nat → M (List Nat)
  | [] => pure []
  | l :: ls => do
    let s ← get
    if (s.core c).dc.wbs.any (fun w => decide (w.line = l)) then throw .wait
    if inval then modify (fun s => refetch s c (fun k => decide (k = l)))
    match dcFind (s.core c).dc l with
    | none => flushSpan c cls inval ls
    | some k => do
      let ok ← wbNow c cls k
      if inval then modify (fun s => s.modDc c (fun d => dcDrop d k))
      let lost ← flushSpan c cls inval ls
      pure (if ok then lost else (64 * l) :: lost)

/-- What a refused access raises (R89, R149, R314, R549). -/
def statusTrap (kseg : Bool) (opnd : Nat) (detail : TWord) : Status → M Unit
  | .ok => pure ()
  | .nowin => mtrap (if kseg then .keepRefused else .accRefused) opnd detail
  | .bound => mtrap .keepRefused opnd detail
  | .data => mtrap .machineCheck opnd detail
  | .unreach => mtrap .machineCheck opnd detail

/-! ## Accesses that a meaning performs at once (log 13) -/

/-- Fill the line of an address for an access that missed: nothing while a miss is outstanding (R160); the victim leaves
the set, written back first when it is dirty; one with a parity error is dropped, and lost when it is dirty (R159, R161,
R550). -/
def syncFill (t : Tid) (addr : TWord) (ga : Nat) : M Nat := do
  let s ← get
  let c := t.core.val
  let line := ga / 64
  if (s.core c).dc.miss.isSome || (s.core c).dc.wbs.any (fun w => decide (w.line = line)) then throw .wait
  let (v, d) := dcVictim (s.core c).dc line
  set (s.modDc c (fun _ => d))
  let old := dcGet d v
  let (p, d2) := dcParityAt d v
  if p.isSome then set (s.modDc c (fun _ => d2))
  let ok ← (if p = some true then pure false else if p.isNone && old.valid then wbNow c (threadClass s t) v else pure true)
  if !ok then mtrap .machineCheck 0 (wInt (BitVec.ofNat 64 (64 * old.line)))
  modify (fun s => s.modDc c (fun d => dcDrop d v))
  let r ← reqFree t (.read (64 * line) 64)
  statusTrap false 0 addr r.status
  modify (fun s => s.modDc c (fun d => dcPut d v { valid := true, line := line, bytes := dcOverlay s.smap d (64 * line) r.data }))
  pure v

/-- The way that holds an address's line, brought in when it is absent or a clean line was struck (R158, R161). -/
def syncLine (t : Tid) (addr : TWord) (ga : Nat) : M Nat := do
  let s ← get
  let c := t.core.val
  match dcFind (s.core c).dc (ga / 64) with
  | none => syncFill t addr ga
  | some k =>
    match dcParityAt (s.core c).dc k with
    | (none, _) => pure k
    | (some true, d) => do
      set (s.modDc c (fun _ => d))
      mtrap .machineCheck 0 addr
    | (some false, d) => do
      set (s.modDc c (fun _ => d))
      syncFill t addr ga

/-- A load performed at once by a thread, behind earlier accesses to its bytes (R292): through its core's cache where
`cached`, else at memory with the core's dirty bytes laid over. -/
def syncLoad (t : Tid) (addr : TWord) (ga n : Nat) (cached : Bool) : M (List Byte) := do
  let c := t.core.val
  waitFor t (spansOf (← get).smap c ga n)
  if cached then do
    let k ← syncLine t addr ga
    let s ← get
    let l := dcGet (s.core c).dc k
    set (s.modDc c (fun d => dcPut d k { l with age := 0 }))
    pure (slice l.bytes (ga % 64) n)
  else do
    let r ← reqFree t (.read ga n)
    statusTrap false 0 addr r.status
    let s ← get
    pure (dcOverlayGo s.smap (s.core c).dc (n / 64 + 2) ga r.data)

/-- A store performed at once by a thread (log 13). -/
def syncStore (t : Tid) (addr : TWord) (ga : Nat) (data : List Byte) (cached : Bool) : M Unit := do
  let c := t.core.val
  waitFor t (spansOf (← get).smap c ga data.length)
  if cached then do
    let k ← syncLine t addr ga
    modify (fun s => s.modDc c (fun d => dcStore s.smap d k ga data))
  else do
    let r ← reqFree t (.write ga data (allOn data))
    statusTrap false 0 addr r.status
    modify (fun s => s.modDc c (fun d => dcUpdate s.smap d ga data))

end Sys2Proof.Machine
end

