-- ==== Sys2Proof/Machine/Exc.lean ====
section
/-! DEFINITION. Segments (R86 to R88), exception and gate entry (R121, R122), the shadow bank (R125), double and third
faults (R130, R131), eret (R128, R129), thread commands (R112), core reset (R503), halts (R514). -/

namespace Sys2Proof.Machine

/-! ## Segments -/

/-- An entry is valid (R86). -/
def SegEnt.ok (e : SegEnt) : Bool :=
  bitOf e.attr.toNat 48 && decide (bitsOf e.attr.toNat 63 55 = 0) && decide (e.base.toNat % 16 = 0)

def SegEnt.limit (e : SegEnt) : Nat := e.attr.toNat % 2 ^ 48
def SegEnt.r (e : SegEnt) : Bool := bitOf e.attr.toNat 49
def SegEnt.w (e : SegEnt) : Bool := bitOf e.attr.toNat 50
def SegEnt.x (e : SegEnt) : Bool := bitOf e.attr.toNat 51
def SegEnt.t (e : SegEnt) : Bool := bitOf e.attr.toNat 52
def SegEnt.k (e : SegEnt) : Bool := bitOf e.attr.toNat 53
def SegEnt.c (e : SegEnt) : Bool := bitOf e.attr.toNat 54

/-- The table of the thread's level (R115). -/
def segTable (x : ThreadSt) (sup : Bool) : Nat := (if sup then x.ssegt else x.segt).toNat

/-- Put an entry into the 64-entry segment cache; which entry a full cache gives up is open (R87). -/
def segPut (s : State) (c : Nat) (e : SegEnt) : State :=
  let l := (s.core c).segs
  if l.length < 64 then s.modCore c (fun x => { x with segs := e :: l })
  else
    let (w, s) := drawFree s
    s.modCore c (fun x => { x with segs := e :: l.eraseIdx (w.toNat % 64) })

/-- An address with bit 58 that names this device is one without it (R406). -/
def ownGa (s : State) (ga : Nat) : Nat :=
  if bitOf ga 58 ∧ ga / 2 ^ 48 % 1024 = s.lat.id.toNat ∧ ga < 2 ^ 59 then ga % 2 ^ 48 else ga

/-- The entry of a selector through the segment cache, read from the table when absent; a failed read raises
MACHINE_CHECK with the entry's address and caches nothing (R88). -/
def segLookup (t : Tid) (table sel : Nat) : M SegEnt := do
  let s ← get
  match (s.core t.core.val).segs.find? (fun e => decide (e.table = table) && decide (e.sel = sel)) with
  | some e => pure e
  | none => do
    let a := ownGa s (table + 16 * sel)
    let r ← reqFree t (.read a 16)
    if r.status ≠ .ok then mtrap .machineCheck 0 (wInt (BitVec.ofNat 64 a))
    else
      let d := dcOverlayGo r.s.smap (r.s.core t.core.val).dc 3 a r.data
      let e : SegEnt := { table := table, sel := sel, base := BitVec.ofNat 64 (leNat (d.take 8)),
                          attr := BitVec.ofNat 64 (leNat (d.drop 8)) }
      modify (fun s => segPut s t.core.val e)
      pure e

/-- The global address of an offset in a segment; `none` when the sum leaves the local space or BASE breaks the layout
of R524. -/
def segGa (e : SegEnt) (off : Nat) : Option Nat :=
  let lo := e.base.toNat % 2 ^ 48 + off
  if 2 ^ 48 ≤ lo ∨ 2 ^ 59 ≤ e.base.toNat ∨ (!bitOf e.base.toNat 58 ∧ bitsOf e.base.toNat 57 48 ≠ 0) then none
  else some (e.base.toNat / 2 ^ 48 * 2 ^ 48 + lo)

inductive Perm where
  | r | w | x
  deriving DecidableEq, Repr

/-- The checks of R88 on an offset with a found entry, in order; the global address of the access. `tagged` demands a
T segment, `align` the multiple the offset must be of. -/
def segChecks (e : SegEnt) (off size align : Nat) (tagged : Bool) (p : Perm) (opnd : Nat) (addr : TWord) :
    Except Stop Nat :=
  let lo := (e.base.toNat % 2 ^ 48 + off) % 2 ^ 48
  let region := (decodeLocal lo).isCoreRegion
  if !e.ok then trap .segNone opnd addr
  else if tagged ≠ e.t ∨ region ≠ e.k ∨ (tagged && !(decodeLocal lo).isTaggable) then
    trap .segKind opnd addr
  else if !(match p with | .r => e.r | .w => e.w | .x => e.x) then trap .segPerm opnd addr
  else if off % align ≠ 0 then trap .align opnd addr
  else if e.limit < off + size - 1 then trap .segBound opnd addr
  else match segGa e off with
    | some g => .ok g
    | none => trap .machineCheck opnd addr

/-- The whole check of an access through the current table (or the supervisor's, for frames); the global address as R406
performs it. -/
def segCheck (t : Tid) (sup : Bool) (addr : Word) (size align : Nat) (tagged : Bool) (p : Perm) (opnd : Nat) :
    M (SegEnt × Nat) := do
  let s ← get
  let e ← segLookup t (segTable (s.thr t) sup) (pSel addr)
  let g ← lift (segChecks e (pOff addr) size align tagged p opnd (wAddr addr))
  pure (e, ownGa s g)

/-! ## Tagged words in memory (R79) -/

def wordBytes (w : TWord) : List Byte := leBytes 8 w.data.toNat ++ leBytes 8 w.tag.num

/-- The word 16 bytes hold, when they hold one (R79). -/
def bytesWord (b : List Byte) : Option TWord :=
  let v := BitVec.ofNat 64 (leNat (b.take 8))
  let t := leNat (b.drop 8)
  match Tag.ofNum t with
  | some g => if formOk g v then some ⟨g, v⟩ else none
  | none => none

/-- A word that a load may deliver. EMPTY in memory is EMPTY in the register, with data zero (R70, R73). -/
def normWord (w : TWord) : TWord := if w.tag = .empty then {} else w

/-- HBM and host-aperture data of this device through a C segment are cached (R89, R158, R523). -/
def cacheable (e : SegEnt) (ga : Nat) : Bool := e.c && decide (ga < 2 ^ 48) && (decodeLocal ga).isTaggable

/-- A watchpoint matches a global access (R516). -/
def wpMatch (d : DbgSt) (n ga size : Nat) (write : Bool) : Bool :=
  (countFrom 0 2).any (fun i =>
    let b := (tget wordDef d.wp i).toNat
    let w := (tget wordDef d.wpc i).toNat
    bitOf w (56 + n) && bitOf w (if write then 49 else 48) && decide (ga < b + w % 2 ^ 48) && decide (b < ga + size))

/-- A watchpoint that matches an access of an instruction halts the core when the instruction has completed (R516). -/
def watch (t : Tid) (ga size : Nat) (write : Bool) : M Unit :=
  modify (fun s => if wpMatch (s.core t.core.val).dbg t.thr.val ga size write then
    s.modCore t.core.val (fun x => { x with dbg := { x.dbg with haltReq := true } }) else s)

/-- Store of a tagged word through a table, performed at once. -/
def tagStoreAt (t : Tid) (sup : Bool) (addr : Word) (w : TWord) : M Unit := do
  let (e, g) ← segCheck t sup addr 16 16 true .w 0
  syncStore t (wAddr addr) g (wordBytes w) (cacheable e g)
  watch t g 16 true

/-- Load of a tagged word through a table, performed at once. -/
def tagLoadAt (t : Tid) (sup : Bool) (addr : Word) : M TWord := do
  let (e, g) ← segCheck t sup addr 16 16 true .r 0
  let b ← syncLoad t (wAddr addr) g 16 (cacheable e g)
  watch t g 16 false
  match bytesWord b with
  | some w => pure (normWord w)
  | none => mtrap .tagMem 0 (wAddr addr)

/-! ## Frames (R121) -/

/-- The nine words of a frame with their offsets, in the order stored. -/
def frameWords (n : Nat) (x : ThreadSt) (cause : Word) (detail : TWord) (ret : Word) : List (Nat × TWord) :=
  [(128, wAddr x.le), (112, wAddr x.ls), (96, wInt x.lc), (80, detail), (64, wInt cause), (48, wAddr x.rtp),
   (32, wAddr x.dsp), (16, ⟨.stat, srWord n x⟩), (0, ⟨.code, mkCode ret x.compat⟩)]

def storeFrame (t : Tid) (f : Word) : List (Nat × TWord) → M Unit
  | [] => pure ()
  | (o, w) :: r => do
    tagStoreAt t true (pAdd f o) w
    storeFrame t f r

/-! ## Stopping and core reset -/

/-- A write of MTX_ARM takes effect (R194, R195): bit 0 the capture, bits 1 and 2 the maxima. -/
def MtxSt.armNow (m : MtxSt) (v : BitVec 3) : MtxSt :=
  let m := if v.getLsbD 0 then { m with special := 0 } else m
  let m := if v.getLsbD 1 then { m with amaxCum := tset halfDef m.amaxCum 0 0 } else m
  if v.getLsbD 2 then { m with amaxCum := tset halfDef m.amaxCum 1 0 } else m

/-- The drain of thread `n` is over: arms that waited for it alone take effect, in order (R196). -/
def MtxSt.drainOver (m : MtxSt) (n : Nat) : MtxSt :=
  let l := m.arms.map (fun p => (p.1, p.2.filter (fun t => decide (t.val ≠ n))))
  (l.filter (fun p => p.2.isEmpty)).foldl (fun m p => m.armNow p.1) { m with arms := l.filter (fun p => !p.2.isEmpty) }

/-- Drop the unwritten matrix instructions of a thread (R176). -/
def mtxAbandon (x : CoreSt) (n : Nat) : CoreSt :=
  let m := { x.mtx with ops := x.mtx.ops.filter (fun o => decide (o.t.val ≠ n) || o.written) }
  { x with mtx := if m.ops.any (fun o => decide (o.t.val = n)) then m else m.drainOver n }

/-- The thread stands at an instruction boundary, or at one it may abandon: nothing outstanding, no written matrix
instruction, no accepted vector instruction (R112, R176, R207, R551). -/
def atBoundary (x : CoreSt) (n : Nat) : Bool :=
  (match (x.t n).held with
   | none => true
   | some (.wait _) => true
   | some .engine => x.mtx.ops.all (fun o => decide (o.t.val ≠ n) || !o.written)
   | _ => false)
  && x.vec.ops.all (fun o => decide (o.t.val ≠ n))

/-- Registers under R77; the THR_ registers and the staging buffer stay. -/
def resetRegs (n : Nat) (x : ThreadSt) : ThreadSt :=
  { x with regs := [], pc := 0, dsp := 0, rtp := 0, lnk := {}, lc := 0, ls := 0, le := 0, priv := decide (n = 0),
           compat := false }

/-- STOP at a boundary: the wait is abandoned and pc stays (R112). DESIGN CHOICE (log 82): a FAULTED thread stays
FAULTED also where R122 stops the others. -/
def stopNow (x : CoreSt) (n : Nat) : CoreSt :=
  let x := mtxAbandon x n
  x.modT n (fun t =>
    match t.st with
    | .run | .wait | .dispatch => { t with st := .stopped, held := none }
    | _ => t)

/-- What START and KILL of thread 0 do beside its registers: R77 sends it to R503, where both banks are EMPTY. DESIGN
CHOICE (log 82): it is then in its primary bank with both gate counts 0. -/
def resetBanks (n : Nat) (x : CoreSt) : CoreSt :=
  if n = 0 then { x with shadow := {}, inShadow := false, gnp := 0, gns := 0, holdOff := false } else x

/-- KILL at a boundary (R112, R259). -/
def killNow (x : CoreSt) (n : Nat) : CoreSt :=
  if (x.t n).st = .stopped then mtxAbandon x n
  else (resetBanks n (mtxAbandon x n)).modT n (fun t =>
    { resetRegs n t with st := .stopped, held := none, staging := [], handler := none, df := false, notified := false })

/-- START from STOPPED (R112). -/
def startNow (x : CoreSt) (n : Nat) : CoreSt :=
  if (x.t n).st = .stopped then (resetBanks n x).modT n (fun t =>
    { resetRegs n t with st := .run, priv := true, pc := codePc t.entry, dsp := codePc t.sdsp, rtp := codePc t.srtp,
                         compat := codeMode t.entry, lc := 0, held := none, df := false, notified := false })
  else x

/-- STOP of every thread but one at its next boundary (R122). -/
def stopOthers (x : CoreSt) (but : Option Nat) : CoreSt :=
  (countFrom 0 8).foldl (fun x n =>
    if some n = but then x
    else if atBoundary x n then stopNow x n
    else x.modT n (fun t => { t with cmds := t.cmds ++ [.stop] })) x

/-- Epochs advance by one, skipping 0 (R255). -/
def nextEpoch (e : BitVec 16) : BitVec 16 := if e + 1 = 0 then 1 else e + 1

/-- The core-reset state (R503, R284, R518): scratchpad contents, debug registers, fence marks and cinch membership
stay; the epoch advances. -/
def resetCore (x : CoreSt) : CoreSt :=
  { (coreDef 0) with
    spad := { mem := x.spad.mem }
    epoch := nextEpoch x.epoch
    resetCause := x.resetCause
    cinch := x.cinch.map (fun p => (p.1, { p.2 with out := false }))
    dbg := x.dbg
    fenced := x.fenced
    hardFence := x.hardFence
    stale := x.stale }

/-- Drop cinch entries that became the default, to keep the table canonical. -/
def cinchNorm (x : CoreSt) : CoreSt := { x with cinch := x.cinch.filter (fun p => decide (p.2 ≠ {})) }

/-- Slots of a source port emptied; one that was in use takes its next generation (R380, R381). -/
def clearSlots (s : State) (port : Nat) : State :=
  let p := tget portDef s.fabric.ports port
  let free := fun (q : Nat × FabSlot) => (q.1, ({ gen := q.2.gen != q.2.busy } : FabSlot))
  let p := { p with slots := (p.slots.map free).filter (fun q => decide (q.2 ≠ {})) }
  apDetach { s with fabric := { s.fabric with ports := tset portDef s.fabric.ports port p } } (fun q => decide (q.1 = port))

def Sender.ofCore (c : Nat) (dev : Nat) : Sender → Bool
  | .thread d k _ => decide (d = dev) && decide (k = c)
  | _ => false

/-- The same queue, whatever the epoch (R262). -/
def Target.same : Target → Target → Bool
  | .queue d c q _, .queue e k r _ => decide (d = e) && decide (c = k) && decide (q = r)
  | .skiver d k p _, .skiver e l r _ => decide (d = e) && decide (k = l) && decide (p = r)
  | .injection d, .injection e => decide (d = e)
  | _, _ => false

/-- The engine that holds the message sends it again after FULL: a commit of a thread that waits for its status has its
last one (R258, R260). -/
def Msg.retries (m : Msg) : Bool := (decide (m.form = .posted) || decide (m.form = .other)) && decide (m.status = some 1)

/-- An earlier message of the sender to the same queue is neither accepted nor refused (R262). -/
def heldBack (s : State) (m : Msg) : Bool :=
  s.msgs.any (fun k => decide (k.id < m.id) && decide (k.sender = m.sender) && k.target.same m.target
    && (k.status.isNone || k.retries))

/-- A message still waits to set out, for the first time or again. -/
def Msg.unsent (s : State) (m : Msg) : Bool := m.parked || m.retries || (m.status.isNone && heldBack s m)

/-- A message to a peer has left the part: its slot holds its packet. -/
def Msg.away (s : State) (m : Msg) : Bool :=
  !m.lost && decide (m.slot < 128) && ((tget slotDef (tget portDef s.fabric.ports m.sender.port).slots m.slot).body).isSome

/-- A core reset: its state, its unsent messages, its fabric slots; what has set out arrives, and nobody takes its status
(R131, R284). -/
def State.resetCoreAt (s : State) (c : Nat) : State :=
  let old := s
  let keep := fun (m : Msg) =>
    if !m.sender.ofCore c old.lat.id.toNat then some m
    else if m.status.isSome || m.unsent old || m.away old then none
    else some { m with lost := true }
  let s := s.modCore c (fun x => cinchNorm (resetCore x))
  clearSlots { s with msgs := s.msgs.filterMap keep } c

/-! ## Entries -/

/-- Third fault (R131): the core is reset and fenced, the cause recorded; streams that no longer fit are revoked, then
the host is told (R395). -/
def thirdFault (c : Nat) (cause : Word) : M Unit :=
  modify (fun s =>
    let s := s.resetCoreAt c
    let s := s.modCore c (fun x => { x with
      fenced := true, hardFence := true, resetCause := BitVec.ofNat 17 (65536 + cause.toNat % 65536) })
    (revokeUnfit s).faultedCore c true cause)

def setCause (t : Tid) (cause : Word) : M Unit :=
  modify (fun s => s.modThr t (fun x => { x with cause := cause.truncate 32 }))

/-- The double-fault entry (R130): the frame goes to the thread's emergency slot with the state as it stood before;
a fault of one of its stores is a third fault. DESIGN CHOICE (log 82): entered from task level, dsp is THR_SDSP, as R121
switches it. -/
def doubleFault (t : Tid) (first : Nat) (tr : Trap) (ret : Word) : M Unit := do
  let s ← get
  let n := t.thr.val
  let x := s.thr t
  let em := (s.core t.core.val).emstk
  let f := mkPtr (pSel em) (pOff em + 256 * (n + 1) - 144)
  let cause := causeWord 3 n { tr with extra := first } tr.cause.code
  let (r, s') := runM (storeFrame t f (frameWords n x cause tr.detail ret)) s
  match r with
  | .error .wait => throw .wait
  | .error (.trap t3) => do
    set s'
    thirdFault t.core.val (causeWord 0 n t3 t3.cause.code)
  | .ok _ => do
    set s'
    setCause t cause
    modify (fun s => s.modThr t (fun x =>
      { x with dsp := if x.priv then x.dsp else codePc x.sdsp, rtp := f, priv := true, compat := false, lc := 0,
               df := true, pc := codePc (s.core t.core.val).dfvec, held := none, st := .run }))
    let s ← get
    if (s.core t.core.val).policyStop then
      set ((s.modCore t.core.val (fun x => { stopOthers x none with stopped := true })).faultedCore t.core.val false cause)

/-- The stack entry of R121 with its cause word and return address; answers whether it was made. A fault of a store is a
double fault, or a third fault of a thread whose DF is 1 (R130, R131). -/
def stackEntry (t : Tid) (first : Nat) (cause : Word) (detail : TWord) (ret : Word) : M Bool := do
  let s ← get
  let x := s.thr t
  let ndsp := if x.priv then x.dsp else codePc x.sdsp
  let nrtp := if x.priv then x.rtp else codePc x.srtp
  let f := pAdd nrtp (-144)
  let (r, s') := runM (storeFrame t f (frameWords t.thr.val x cause detail ret)) s
  match r with
  | .error .wait => throw .wait
  | .error (.trap t2) => do
    set s'
    if x.df then thirdFault t.core.val (causeWord 0 t.thr.val t2 t2.cause.code)
    else doubleFault t first t2 ret
    pure false
  | .ok _ => do
    set s'
    setCause t cause
    modify (fun s => s.modThr t (fun x => { x with dsp := ndsp, rtp := f, priv := true, compat := false, lc := 0 }))
    pure true

/-- The registers of thread 0's two banks change places (R125). -/
def swapBanks (x : CoreSt) : CoreSt :=
  let t := x.t 0
  let b : Bank := { regs := t.regs, dsp := t.dsp, rtp := t.rtp, lc := t.lc, ls := t.ls, le := t.le }
  let o := x.shadow
  { (x.modT 0 (fun t => { t with regs := o.regs, dsp := o.dsp, rtp := o.rtp, lc := o.lc, ls := o.ls, le := o.le })) with
    shadow := b }

/-- Entry to the shadow bank (R125): w30 and w31 save the return address and sr, w1 to w3 as the table gives, GNS
becomes 0, and execution goes on at `pc`. -/
def shadowEntry (x : CoreSt) (ret : Word) (w1 w2 : TWord) (w3 : Option TWord) (pc : Word) (compat : Bool) : CoreSt :=
  let t0 := x.t 0
  let sr := srWord 0 t0
  let code := mkCode ret t0.compat
  let x := swapBanks x
  let x := x.modT 0 (fun t =>
    let t := ((t.setReg 30 ⟨.code, code⟩).setReg 31 ⟨.stat, sr⟩).setReg 1 w1
    let t := t.setReg 2 w2
    let t := match w3 with | some w => t.setReg 3 w | none => t
    { t with priv := true, compat := compat, pc := pc, held := none, st := .run, lc := 0 })
  { x with inShadow := true, gns := 0 }

/-- Under STOP every other thread stops and the host is told (R122). -/
def policyAfter (c : Nat) (faulting : Nat) (cause : Word) : M Unit :=
  modify (fun s =>
    let x := s.core c
    if x.policyStop then
      (s.modCore c (fun x => { stopOthers x (some faulting) with stopped := true })).faultedCore c false cause
    else s)

/-- Taking a fault (R120 to R131): which entry depends on the thread and where it runs. `ret` is the faulting
instruction. -/
def takeFault (t : Tid) (tr : Trap) (ret : Word) : M Unit := do
  let s ← get
  let c := t.core.val
  let n := t.thr.val
  let cause := causeWord 0 n tr tr.cause.code
  modify (fun s => s.modThr t (fun x => { x with held := none, st := .run }))
  if (s.thr t).df then thirdFault c cause
  else if n = 0 then
    if (s.core c).inShadow then doubleFault t 0 tr ret
    else do
      modify (fun s => s.modCore c (fun x => shadowEntry x ret (wInt cause) tr.detail none (codePc x.excvec) false))
      setCause t cause
      let s ← get
      if (s.core c).policyStop then
        set ((s.modCore c (fun x => { stopOthers x none with stopped := true })).faultedCore c false cause)
  else do
    let made ← stackEntry t tr.cause.code cause tr.detail ret
    if made then
      modify (fun s => s.modThr t (fun x => { x with st := .faulted, notified := (s.core c).policyStop }))
      policyAfter c n cause

/-! ## eret (R128, R129) -/

/-- What a stack frame restores. -/
structure Frame9 where
  pc : Word
  priv : Bool
  compat : Bool
  dsp : Word
  rtp : Word
  lc : Word
  ls : Word
  le : Word

def needTag (g : Tag) (w : TWord) : M Word :=
  if w.tag = g then pure w.data else mtrap .eretPriv

/-- Read and check the frame at rtp (R128); nothing changes. -/
def readFrame (t : Tid) : M Frame9 := do
  let s ← get
  let x := s.thr t
  let at_ := fun (o : Int) => tagLoadAt t true (pAdd x.rtp o)
  let ret ← at_ 0
  let st ← at_ 16
  let dsp ← at_ 32
  let rtp ← at_ 48
  let cause ← at_ 64
  let detail ← at_ 80
  let lc ← at_ 96
  let ls ← at_ 112
  let le ← at_ 128
  let ret ← needTag .code ret
  let st ← needTag .stat st
  let dsp ← needTag .addr dsp
  let rtp ← needTag .addr rtp
  let _ ← needTag .int cause
  if detail.tag ≠ .int ∧ detail.tag ≠ .addr then mtrap .eretPriv
  let lc ← needTag .int lc
  let ls ← needTag .addr ls
  let le ← needTag .addr le
  let p := bitOf st.toNat 1
  if p && !x.maxpriv then mtrap .eretPriv
  pure { pc := codePc ret, priv := p, compat := bitOf st.toNat 0, dsp := dsp, rtp := rtp, lc := lc, ls := ls, le := le }

def Frame9.restore (f : Frame9) (x : ThreadSt) : ThreadSt :=
  { x with pc := f.pc, priv := f.priv, compat := f.compat, dsp := f.dsp, rtp := f.rtp, lc := f.lc, ls := f.ls, le := f.le }

/-- The gate count of thread 0's current bank (R119). -/
def gateCountOf (x : CoreSt) : BitVec 8 := if x.inShadow then x.gns else x.gnp
def setGateCount (x : CoreSt) (v : BitVec 8) : CoreSt := if x.inShadow then { x with gns := v } else { x with gnp := v }

/-- Return from the frame at rtp (first and last rows of R128). DESIGN CHOICE (log 82): a frame whose STAT has PRIV 0
takes thread 0 to task level too, as R128 has it, against R115. -/
def eretStack (t : Tid) (fromDf : Bool) : M Unit := do
  let f ← readFrame t
  modify (fun s =>
    let s := s.modThr t (fun x => { f.restore x with df := if fromDf then false else x.df })
    if t.thr.val = 0 && !fromDf then
      s.modCore t.core.val (fun x => if gateCountOf x ≠ 0 then setGateCount x (gateCountOf x - 1) else x)
    else s)

/-- Return from the shadow bank (second row of R128). -/
def eretShadow (t : Tid) : M Unit := do
  let s ← get
  let x := s.thr t
  let code ← needTag .code (x.reg 30)
  let st ← needTag .stat (x.reg 31)
  let _ := st
  modify (fun s => s.modCore t.core.val (fun x =>
    let x := swapBanks x
    { (x.modT 0 (fun t => { t with pc := codePc code, compat := bitOf st.toNat 0 })) with inShadow := false }))

/-- eret at supervisor level, by situation (R128). -/
def eretBody (t : Tid) : M Unit := do
  let s ← get
  let x := s.core t.core.val
  if (s.thr t).df then eretStack t true
  else if t.thr.val = 0 && x.inShadow && decide (x.gns = 0) then eretShadow t
  else eretStack t false

/-! ## Thread commands (R112, R113) -/

/-- RESUME of a FAULTED thread (R112, R129): the checks of eret on its frame; a failure records the cause and notifies
again. -/
def resumeFaulted (t : Tid) : M Unit := do
  let s ← get
  let (r, s') := runM (eretStack t (s.thr t).df) s
  match r with
  | .error .wait => throw .wait
  | .ok _ => set (s'.modThr t (fun x => { x with st := .run, notified := false }))
  | .error (.trap tr) =>
    let cause := causeWord 0 t.thr.val { tr with opnd := 0 } tr.cause.code
    let s := s'.modThr t (fun x => { x with cause := cause.truncate 32, notified := (s'.core t.core.val).policyStop })
    set (if (s.core t.core.val).policyStop then s.faultedCore t.core.val false cause else s)

/-- A command at a boundary of the thread. -/
def applyCmd (t : Tid) (k : ThrCmd) : M Unit := do
  let s ← get
  let c := t.core.val
  let n := t.thr.val
  match k with
  | .stop => set (s.modCore c (fun x => stopNow x n))
  | .kill => set (s.modCore c (fun x => killNow x n))
  | .start => set (s.modCore c (fun x => startNow x n))
  | .resume =>
    match (s.thr t).st with
    | .stopped => set (s.modThr t (fun x => { x with st := .run }))
    | .faulted => resumeFaulted t
    | _ => pure ()

/-- Apply the commands that waited for this boundary, in order. -/
def applyCmds (t : Tid) : Nat → M Unit
  | 0 => pure ()
  | f + 1 => do
    let s ← get
    match (s.thr t).cmds with
    | [] => pure ()
    | k :: ks =>
      if atBoundary (s.core t.core.val) t.thr.val then do
        set (s.modThr t (fun x => { x with cmds := ks }))
        applyCmd t k
        applyCmds t f
      else pure ()

/-- Every thread stands where it may execute again: waits and unwritten matrix instructions are abandoned (R514, R479). -/
def quiesce (x : CoreSt) : CoreSt :=
  (countFrom 0 8).foldl (fun x n =>
    (mtxAbandon x n).modT n (fun t =>
      match t.held with
      | some (.wait _) | some .engine => { t with held := none }
      | _ => t)) x

def allAtBoundary (x : CoreSt) : Bool := (countFrom 0 8).all (atBoundary x)

/-- A halt is complete when every thread is at a boundary (R514). -/
def settleHalt (x : CoreSt) : CoreSt :=
  if x.dbg.haltReq && !x.dbg.halted && allAtBoundary x then
    { quiesce x with dbg := { x.dbg with halted := true } }
  else x

/-- After an instruction: waiting commands, then a waiting halt. -/
def settle (t : Tid) : M Unit := do
  let s ← get
  applyCmds t ((s.thr t).cmds.length + 1)
  modify (fun s => s.modCore t.core.val settleHalt)

/-- A command written to THR_CTL (R112, R122): START and RESUME end a stop under policy STOP. -/
def thrCommand (t : Tid) (k : ThrCmd) : M Unit := do
  modify (fun s =>
    let s := s.modThr t (fun x => { x with cmds := x.cmds ++ [k] })
    if k = .start ∨ k = .resume then s.modCore t.core.val (fun x => { x with stopped := false }) else s)
  settle t
  modify (deadlockOver t.core.val)

/-- Ask a core to halt (R514). -/
def haltCore (c : Nat) (s : State) : State :=
  s.modCore c (fun x => settleHalt { x with dbg := { x.dbg with haltReq := true } })

/-! ## Issue of an instruction -/

/-- How an instruction that raised nothing ends. -/
inductive Ctl where
  /-- at the next instruction, through the loop-end test of R97 -/
  | next
  /-- at another address, no loop-end test -/
  | jump (pc : Word)
  /-- held: not complete -/
  | hold (h : Held)
  /-- pc is already as it should be -/
  | stay
  deriving DecidableEq, Repr

/-- The loop-end test of R97 and the advance of pc. -/
def advance (x : ThreadSt) : ThreadSt :=
  if x.lc ≠ 0 ∧ x.pc = x.le then
    if 1 < x.lc.toNat then { x with lc := x.lc - 1, pc := x.ls }
    else { x with lc := 0, pc := pAdd x.le 4 }
  else { x with pc := pAdd x.pc 4 }

/-- A thread may issue: RUN, or WAIT with its wait abandoned by a halt, not held, no command waiting, core neither fenced nor halted (but for a step), power
state ACTIVE. -/
def canIssue (s : State) (t : Tid) : Bool :=
  let x := s.core t.core.val
  let th := s.thr t
  (decide (th.st = .run) || decide (th.st = .wait)) && th.held.isNone && th.cmds.isEmpty && !s.coreFenced t.core.val
    && (!x.dbg.haltReq || decide (x.dbg.stepping = some t.thr)) && s.active

/-- A breakpoint matches the fetch (R516). -/
def bpMatch (d : DbgSt) (n : Nat) (pc : Word) : Bool :=
  (countFrom 0 4).any (fun i =>
    let w := (tget wordDef d.bp i).toNat
    bitOf w (48 + n) && decide (w / 2 ^ 56 = pSel pc) && decide (w % 2 ^ 48 = pOff pc))

/-- A struck line of the instruction cache is invalidated and counted (R163). -/
def icRefetch (x : CoreSt) (line : Nat) : CoreSt :=
  if tget boolDef x.icStruck line then
    { x with icache := terase x.icache line, icStruck := terase x.icStruck line, icPar := x.icPar + 1 }
  else x

/-- A line is brought in; which line a full cache of 512 gives up is open (R163, log 2). -/
def icFill (s : State) (c line : Nat) (bytes : List Byte) : State :=
  let put := fun (s : State) => s.modCore c (fun x => { x with icache := tset bytesDef x.icache line bytes })
  if (s.core c).icache.length < 512 then put s
  else
    let (w, s) := drawFree s
    put (s.modCore c (fun x =>
      let out := (x.icache.getD (w.toNat % x.icache.length) (0, [])).1
      { x with icache := terase x.icache out, icStruck := terase x.icStruck out }))

/-- The instruction word at address `g` in the bytes of its line (R81: little-endian). -/
def wordOfLine (line : List Byte) (g : Nat) : Half := BitVec.ofNat 32 (leNat (slice line (g % 64) 4))

/-- The instruction fetch: the word at pc, under the checks of R88 and through the instruction cache, whose failing read
raises MACHINE_CHECK (R163, R314). A fetch through a K segment is a keeper access of 4 bytes, never cached; nor are the
register region's bytes (R89, R523). -/
def fetchWord (t : Tid) : M Half := do
  let s ← get
  let x := s.thr t
  let (e, g) ← segCheck t x.priv x.pc 4 4 false .x 0
  if e.k || (decide (g < 2 ^ 48) && !(decodeLocal g).isTaggable) then do
    let r ← reqFree t (.read g 4)
    statusTrap e.k 0 (wAddr x.pc) r.status
    pure (BitVec.ofNat 32 (leNat (r.data.take 4)))
  else do
    modify (fun s => s.modCore t.core.val (fun x => icRefetch x (g / 64)))
    let s ← get
    let line := tget bytesDef (s.core t.core.val).icache (g / 64)
    if line ≠ [] then pure (wordOfLine line g)
    else do
      let r ← reqFree t (.read (g / 64 * 64) 64)
      statusTrap false 0 (wAddr x.pc) r.status
      modify (fun s => icFill s t.core.val (g / 64) r.data)
      pure (wordOfLine r.data g)

/-- The fetch before an instruction: its effects and faults. The instruction is the command (log 10). -/
def fetchCheck (t : Tid) : M Unit := do
  let _ ← fetchWord t

/-- The command that thread `t` issues next: the word that its fetch reads, decoded (R81 to R85); `ext` as for
`decodeInsn`. A fetch that faults spells no command: the fault is any command's. -/
def State.insnAt (s : State) (t : Tid) (ext : BitVec 16) : Option Instr :=
  match runM (fetchWord t) s with
  | (.ok w, _) => some (insnOf t ext w)
  | _ => none

/-- The hold is a wait that a debugger or a STOP abandons. -/
def Held.isWait : Held → Bool
  | .wait _ => true
  | _ => false

/-- The end of an instruction of `t` at `pc` that was accepted in state `s`: its fault, or how it goes on from `s'`. -/
def insnEnd (t : Tid) (s : State) (pc : Word) : Except Stop Ctl × State → M Unit
  | (.error .wait, _) => throw .wait
  | (.error (.trap tr), s') => do
    set s'
    takeFault t tr pc
  | (.ok .next, s') => set (s'.modThr t advance)
  | (.ok (.jump p), s') => set (s'.modThr t (fun x => { x with pc := p }))
  | (.ok .stay, s') => set s'
  | (.ok (.hold h), s') =>
    if h.isWait && (s'.core t.core.val).dbg.stepping.isSome then
      set (s.modCore t.core.val (fun x => { x with dbg := { x.dbg with waited := true } }))
    else
      set (s'.modThr t (fun x => { x with held := some h, st := if h.isWait then .wait else .run }))

/-- Run the meaning of an instruction that has been accepted for issue, take its fault if it raises one. -/
def runInsn (t : Tid) (body : M Ctl) : M Unit := do
  let s ← get
  insnEnd t s (s.thr t).pc (runM body (s.modThr t (fun x => { x with st := .run })))

/-- After an instruction of thread 0 that R123 names, notices wait for the next one. -/
def holdNotices (t : Tid) : M Unit :=
  modify (fun s => if t.thr.val = 0 then s.modCore t.core.val (fun x => { x with holdOff := true }) else s)

/-- An instruction with its fetch, the loop-end rule for instructions of control flow (R97), and the mode check.
DEDUCED (log 28): LOOP_END comes before COMPAT_OP. -/
def insnBody (t : Tid) (control noCompat : Bool) (body : M Ctl) : M Ctl := do
  let s ← get
  let x := s.thr t
  fetchCheck t
  if control && decide (x.lc ≠ 0) && decide (x.pc = x.le) then mtrap .loopEnd
  else if noCompat && x.compat then mtrap .compatOp
  else body

/-- After an issue by a stepped thread the core is halted again, once the instruction has ended (R515). -/
def endStep (t : Tid) : M Unit :=
  modify (fun s =>
    if (s.core t.core.val).dbg.stepping = some t.thr then
      s.modCore t.core.val (fun x =>
        { x with dbg := { x.dbg with stepping := none, halted := false, stepOut := (x.t t.thr.val).held.isSome } })
    else s)

/-- What an issue of thread `n` ends on its core: a deadlock that was reported and the count towards one (R132), the hold-off of
R123. -/
def CoreSt.atIssue (n : Nat) (x : CoreSt) : CoreSt :=
  { x with deadlock := false, dlTicks := 0, holdOff := x.holdOff && decide (n ≠ 0) }

/-- Issue an instruction of thread `t`: nothing happens while it cannot issue; a breakpoint halts first; then its body
runs, then a debugger's step ends and the boundary is reached. -/
def issueM (t : Tid) (control noCompat : Bool) (body : M Ctl) : M Unit := do
  let s ← get
  let x := s.thr t
  if !canIssue s t then pure ()
  else if bpMatch (s.core t.core.val).dbg t.thr.val x.pc && !(decide ((s.core t.core.val).dbg.stepping = some t.thr)) then
    set (haltCore t.core.val s)
  else do
    modify (fun s => s.modCore t.core.val (CoreSt.atIssue t.thr.val))
    runInsn t (insnBody t control noCompat body)
    endStep t
    settle t

/-- Run a meaning as a command: one that must wait leaves the state as it was. -/
def runCmd (m : M Unit) (s : State) : Host.Outcome State Fault Refusal :=
  match runM m s with
  | (.ok _, s') => .next s'
  | (.error _, _) => .next s

def issue (t : Tid) (control noCompat : Bool) (body : M Ctl) (s : State) : Host.Outcome State Fault Refusal :=
  runCmd (issueM t control noCompat body) s

end Sys2Proof.Machine
end

