-- ==== Sys2Proof/Machine/Operands.lean ====
section
/-! DEFINITION. The operations on tagged words: each takes its operand words, makes the checks of R71 in order, and
gives the result word with its tag (R72, R84, R90, R105 to R108). -/

namespace Sys2Proof.Machine

/-- Two INT operands. -/
def intInt (f : Word → Word → Word) (a b : TWord) : Except Stop TWord := do
  let x ← need [.int] 1 a
  let y ← need [.int] 2 b
  pure (wInt (f x y))

/-- One INT operand and an immediate. -/
def intImm (f : Word → Word) (a : TWord) : Except Stop TWord := do
  let x ← need [.int] 1 a
  pure (wInt (f x))

/-- Two F64 operands. -/
def f64f64 (f : Word → Word → TWord) (a b : TWord) : Except Stop TWord := do
  let x ← need [.f64] 1 a
  let y ← need [.f64] 2 b
  pure (f x y)

/-- One F64 operand. -/
def f64one (f : Word → TWord) (a : TWord) : Except Stop TWord := do
  let x ← need [.f64] 1 a
  pure (f x)

def wF64 (w : Word) : TWord := ⟨.f64, w⟩
def wBool (b : Bool) : TWord := wInt (if b then 1 else 0)

/-- add: INT + INT, or ADDR + INT in either order (R90, R108). A pair of ADDRs fails at rb. -/
def opAdd (a b : TWord) : Except Stop TWord := do
  let x ← need [.int, .addr] 1 a
  let y ← need (if a.tag = .addr then [.int] else [.int, .addr]) 2 b
  pure (match a.tag, b.tag with
    | .addr, _ => wAddr (pAdd x y.toInt)
    | _, .addr => wAddr (pAdd y x.toInt)
    | _, _ => wInt (x + y))

/-- The signed value of the low 48 bits. -/
def sext48 (n : Nat) : Word := BitVec.ofInt 64 (signedOf 48 (n % 2 ^ 48))

/-- sub: INT − INT, ADDR − INT, ADDR − ADDR of equal selectors (R90). -/
def opSub (a b : TWord) : Except Stop TWord := do
  let x ← need [.int, .addr] 1 a
  let y ← need (if a.tag = .addr then [.int, .addr] else [.int]) 2 b
  match a.tag, b.tag with
  | .addr, .addr =>
    if pSel x = pSel y then pure (wInt (sext48 (pOff x + 2 ^ 48 - pOff y))) else trap .tagType 2
  | .addr, _ => pure (wAddr (pAdd x (-y.toInt)))
  | _, _ => pure (wInt (x - y))

def wAnd (x y : Word) : Word := x &&& y
def wOr (x y : Word) : Word := x ||| y
def wXor (x y : Word) : Word := x ^^^ y
/-- Shifts use bits 5:0 of the count (R105). -/
def wShl (x y : Word) : Word := x <<< (y.toNat % 64)
def wShr (x y : Word) : Word := x >>> (y.toNat % 64)
def wSar (x y : Word) : Word := x.sshiftRight (y.toNat % 64)
def wMul (x y : Word) : Word := x * y
/-- Upper halves of the signed and unsigned 128-bit products. -/
def wMulh (x y : Word) : Word := BitVec.ofInt 64 (x.toInt * y.toInt / (2 ^ 64 : Nat))
def wMulhu (x y : Word) : Word := BitVec.ofNat 64 (x.toNat * y.toNat / 2 ^ 64)
/-- Division never faults (R105). DESIGN CHOICE (log 97): the quotient is cut towards zero, and the remainder has the
dividend's sign. -/
def wDiv (x y : Word) : Word := if y = 0 then BitVec.allOnes 64 else BitVec.ofInt 64 (x.toInt.tdiv y.toInt)
def wDivu (x y : Word) : Word := if y = 0 then BitVec.allOnes 64 else BitVec.ofNat 64 (x.toNat / y.toNat)
def wRem (x y : Word) : Word := if y = 0 then x else BitVec.ofInt 64 (x.toInt.tmod y.toInt)
def wRemu (x y : Word) : Word := if y = 0 then x else BitVec.ofNat 64 (x.toNat % y.toNat)
def wMin (x y : Word) : Word := if y.toInt < x.toInt then y else x
def wMax (x y : Word) : Word := if x.toInt < y.toInt then y else x
def wMinu (x y : Word) : Word := if y.toNat < x.toNat then y else x
def wMaxu (x y : Word) : Word := if x.toNat < y.toNat then y else x
def wSlt (x y : Word) : Word := if x.toInt < y.toInt then 1 else 0
def wSltu (x y : Word) : Word := if x.toNat < y.toNat then 1 else 0

/-- seq: tags and data equal (R108). -/
def opSeq (a b : TWord) : Except Stop TWord := do
  let x ← needAny 1 a
  let y ← needAny 2 b
  pure (wBool (x = y))

/-- neg: 0 − ra, an INT (R84; log 14). -/
def opNeg (a : TWord) : Except Stop TWord := intImm (fun x => 0 - x) a

/-- mka (R107). -/
def opMka (sel : BitVec 8) (a : TWord) : Except Stop TWord := do
  let x ← need [.int] 1 a
  if x.toNat / 2 ^ 48 ≠ 0 then trap .addrForm 1 else pure (wAddr (mkPtr sel.toNat x.toNat))

/-- addi on INT or ADDR (R107). -/
def opAddi (imm : Int) (a : TWord) : Except Stop TWord := do
  let x ← need [.int, .addr] 1 a
  pure (if a.tag = .addr then wAddr (pAdd x imm) else wInt (x + BitVec.ofInt 64 imm))

/-- Which tags tag.set may give at each level (R73). -/
def mayCreate (sup : Bool) : Tag → Bool
  | .int | .f64 | .empty | .tcfg => true
  | _ => sup

/-- tag.set: target tag checked (R74), then the level (R73), then the form (R74). DESIGN CHOICE (log 97): SEG with bits 63:8
nonzero is written as it is. -/
def opTagSet (sup : Bool) (a b : TWord) : Except Stop TWord := do
  let x ← needAny 1 a
  let v ← need [.int] 2 b
  match Tag.ofNum v.toNat with
  | none => trap .tagRsvd 2
  | some g =>
    if !mayCreate sup g then trap .priv
    else if g = .empty then pure {}
    else if !formOk g x.data then trap .addrForm 1
    else pure ⟨g, x.data⟩

/-- ofs and sel of ADDR or CODE (R108). -/
def opOfs (a : TWord) : Except Stop TWord := do
  let x ← need [.addr, .code] 1 a
  pure (wInt (BitVec.ofNat 64 (pOff x)))
def opSel (a : TWord) : Except Stop TWord := do
  let x ← need [.addr, .code] 1 a
  pure (wInt (BitVec.ofNat 64 (pSel x)))

/-- Sign- and zero-extended immediates. -/
def simm (n : BitVec k) : Word := n.signExtend 64
def zimm (n : BitVec k) : Word := n.zeroExtend 64

/-! ## Instructions of one result -/

/-- An instruction that reads registers, computes one word and writes rd (R71, R72). -/
def regOp (t : Tid) (rd : Reg) (f : ThreadSt → Except Stop TWord) (s : State) : Host.Outcome State Fault Refusal :=
  issue t false false (do
    let s ← get
    let v ← lift (f (s.thr t))
    modify (fun s => s.setReg t rd.val v)
    pure .next) s

/-- Operation of ra and rb. -/
def regOp2 (t : Tid) (rd ra rb : Reg) (f : TWord → TWord → Except Stop TWord) (s : State) :
    Host.Outcome State Fault Refusal :=
  regOp t rd (fun x => f (x.reg ra.val) (x.reg rb.val)) s

/-- Operation of ra. -/
def regOp1 (t : Tid) (rd ra : Reg) (f : TWord → Except Stop TWord) (s : State) : Host.Outcome State Fault Refusal :=
  regOp t rd (fun x => f (x.reg ra.val)) s

/-! ## Short operations (R83, R84) -/

/-- The destination of a short operation; nop has none. -/
def shortRd : ShortOp → Option Nat
  | .nop => none
  | .mov d _ | .add d _ | .sub d _ | .and d _ | .or d _ | .xor d _ | .shl d _ | .shr d _ | .sar d _
  | .addi d _ | .shli d _ | .shri d _ | .sari d _ | .li d _ | .neg d _ | .fadd d _ | .fsub d _ | .fmul d _
  | .min d _ | .max d _ | .clr d | .slt d _ | .sltu d _ => some d.val

/-! Two-address forms: ra is checked first as operand 1, then rd as operand 3 (R71, R84). -/

def shortInt (f : Word → Word → Word) (d a : TWord) : Except Stop TWord := do
  let y ← need [.int] 1 a
  let x ← need [.int] 3 d
  pure (wInt (f x y))

def shortImm (f : Word → Word) (d : TWord) : Except Stop TWord := do
  let x ← need [.int] 3 d
  pure (wInt (f x))

def shortF64 (f : Word → Word → Word) (d a : TWord) : Except Stop TWord := do
  let y ← need [.f64] 1 a
  let x ← need [.f64] 3 d
  pure (wF64 (f x y))

def shortAdd (d a : TWord) : Except Stop TWord := do
  let y ← need [.int, .addr] 1 a
  let x ← need (if a.tag = .addr then [.int] else [.int, .addr]) 3 d
  pure (match d.tag, a.tag with
    | .addr, _ => wAddr (pAdd x y.toInt)
    | _, .addr => wAddr (pAdd y x.toInt)
    | _, _ => wInt (x + y))

def shortSub (d a : TWord) : Except Stop TWord := do
  let y ← need [.int, .addr] 1 a
  let x ← need (if a.tag = .addr then [.addr] else [.int, .addr]) 3 d
  match d.tag, a.tag with
  | .addr, .addr => if pSel x = pSel y then pure (wInt (sext48 (pOff x + 2 ^ 48 - pOff y))) else trap .tagType 3
  | .addr, _ => pure (wAddr (pAdd x (-y.toInt)))
  | _, _ => pure (wInt (x - y))

def shortAddi (i : Int) (d : TWord) : Except Stop TWord := do
  let x ← need [.int, .addr] 3 d
  pure (if d.tag = .addr then wAddr (pAdd x i) else wInt (x + BitVec.ofInt 64 i))

/-- The result of a short operation from the words of rd and ra (R84). -/
def shortEval (x : ThreadSt) : ShortOp → Except Stop (Option TWord)
  | .nop => .ok none
  | .mov _ a => some <$> needAny 1 (x.reg a.val)
  | .add d a => some <$> shortAdd (x.reg d.val) (x.reg a.val)
  | .sub d a => some <$> shortSub (x.reg d.val) (x.reg a.val)
  | .and d a => some <$> shortInt wAnd (x.reg d.val) (x.reg a.val)
  | .or d a => some <$> shortInt wOr (x.reg d.val) (x.reg a.val)
  | .xor d a => some <$> shortInt wXor (x.reg d.val) (x.reg a.val)
  | .shl d a => some <$> shortInt wShl (x.reg d.val) (x.reg a.val)
  | .shr d a => some <$> shortInt wShr (x.reg d.val) (x.reg a.val)
  | .sar d a => some <$> shortInt wSar (x.reg d.val) (x.reg a.val)
  | .addi d i => some <$> shortAddi i.toInt (x.reg d.val)
  | .shli d i => some <$> shortImm (fun v => v <<< i.toNat) (x.reg d.val)
  | .shri d i => some <$> shortImm (fun v => v >>> i.toNat) (x.reg d.val)
  | .sari d i => some <$> shortImm (fun v => v.sshiftRight i.toNat) (x.reg d.val)
  | .li _ i => .ok (some (wInt (simm i)))
  | .neg _ a => some <$> opNeg (x.reg a.val)
  | .fadd d a => some <$> shortF64 f64Add (x.reg d.val) (x.reg a.val)
  | .fsub d a => some <$> shortF64 f64Sub (x.reg d.val) (x.reg a.val)
  | .fmul d a => some <$> shortF64 f64Mul (x.reg d.val) (x.reg a.val)
  | .min d a => some <$> shortInt wMin (x.reg d.val) (x.reg a.val)
  | .max d a => some <$> shortInt wMax (x.reg d.val) (x.reg a.val)
  | .clr _ => .ok (some {})
  | .slt d a => some <$> shortInt wSlt (x.reg d.val) (x.reg a.val)
  | .sltu d a => some <$> shortInt wSltu (x.reg d.val) (x.reg a.val)

/-- Both halves read before either writes; the same destination raises PAIR_DEST; the high half is checked first
(R83). DESIGN CHOICE (log 81): PAIR_DEST comes before a fault of a half. -/
def pairEval (hi lo : ShortOp) (x : ThreadSt) : Except Stop ThreadSt := do
  if (shortRd hi).isSome && decide (shortRd hi = shortRd lo) then trap .pairDest
  else
    let a ← shortEval x hi
    let b ← shortEval x lo
    let put := fun (x : ThreadSt) (d : Option Nat) (v : Option TWord) =>
      match d, v with
      | some d, some v => x.setReg d v
      | _, _ => x
    pure (put (put x (shortRd hi) a) (shortRd lo) b)

end Sys2Proof.Machine
end

