-- ==== Sys2Proof/Machine/Hazard.lean ====
section
/-! DEFINITION. Checks of scratchpad operands (R93, R144) and the completion of an instruction that holds its thread (R174, R207). -/

namespace Sys2Proof.Machine

/-- Checks of R93 on `rows` rows from byte offset `b` of a window, for a port (0 D, 1 M, 2 V): the physical byte
offset. -/
def spadCheck (x : CoreSt) (w : Window) (b : Word) (rows align port : Nat) : Except Stop Nat :=
  let r0 := b.toNat / 512
  let p0 := w.base + r0
  if w.bound < r0 + rows ∨ 8192 < p0 + rows then trap .spadRange 0 (wInt b)
  else if b.toNat % align ≠ 0 then trap .align 0 (wInt b)
  else if (countFrom p0 rows).any (fun r => decide (groupOwner x r ≠ port)) then trap .spadPort 0 (wInt b)
  else .ok (512 * p0 + b.toNat % 512)

/-! ## Instructions that hold their thread -/

/-- The end of an instruction that held its thread: its effect, then the loop-end test; or its fault. -/
def finishHeld (t : Tid) (body : M Unit) : M Unit := do
  let s ← get
  let pc := (s.thr t).pc
  let (r, s') := runM body s
  match r with
  | .error .wait => throw .wait
  | .error (.trap tr) => do
    set s'
    takeFault t tr pc
    settle t
  | .ok _ => do
    set (s'.modThr t (fun x => advance { x with held := none, st := .run }))
    settle t

end Sys2Proof.Machine
end

