-- ==== Sys2Proof/Machine/ScalarInt.lean ====
section
/-! DEFINITION. The scalar integer group (R90, R105, R108), pairs (R83, R84) and illegal instructions (R85). -/

namespace Sys2Proof.Machine

abbrev O := Host.Outcome State Fault Refusal

/-- add: INT or ADDR sum (R90, R108) (R108). -/
def execAdd (t : Tid) (rd ra rb : Reg) (s : State) : O := regOp2 t rd ra rb opAdd s

/-- sub: INT or ADDR difference (R90, R108) (R108). -/
def execSub (t : Tid) (rd ra rb : Reg) (s : State) : O := regOp2 t rd ra rb opSub s

/-- and (R108). -/
def execAnd (t : Tid) (rd ra rb : Reg) (s : State) : O := regOp2 t rd ra rb (intInt wAnd) s

/-- or (R108). -/
def execOr (t : Tid) (rd ra rb : Reg) (s : State) : O := regOp2 t rd ra rb (intInt wOr) s

/-- xor (R108). -/
def execXor (t : Tid) (rd ra rb : Reg) (s : State) : O := regOp2 t rd ra rb (intInt wXor) s

/-- shl by bits 5:0 of rb (R105) (R108). -/
def execShl (t : Tid) (rd ra rb : Reg) (s : State) : O := regOp2 t rd ra rb (intInt wShl) s

/-- shr, logical (R108). -/
def execShr (t : Tid) (rd ra rb : Reg) (s : State) : O := regOp2 t rd ra rb (intInt wShr) s

/-- sar, arithmetic (R108). -/
def execSar (t : Tid) (rd ra rb : Reg) (s : State) : O := regOp2 t rd ra rb (intInt wSar) s

/-- mul modulo 2^64 (R108). -/
def execMul (t : Tid) (rd ra rb : Reg) (s : State) : O := regOp2 t rd ra rb (intInt wMul) s

/-- mulh: upper half, signed (R108). -/
def execMulh (t : Tid) (rd ra rb : Reg) (s : State) : O := regOp2 t rd ra rb (intInt wMulh) s

/-- mulhu: upper half, unsigned (R108). -/
def execMulhu (t : Tid) (rd ra rb : Reg) (s : State) : O := regOp2 t rd ra rb (intInt wMulhu) s

/-- div, signed; never faults (R105) (R108). -/
def execDiv (t : Tid) (rd ra rb : Reg) (s : State) : O := regOp2 t rd ra rb (intInt wDiv) s

/-- divu (R108). -/
def execDivu (t : Tid) (rd ra rb : Reg) (s : State) : O := regOp2 t rd ra rb (intInt wDivu) s

/-- rem (R108). -/
def execRem (t : Tid) (rd ra rb : Reg) (s : State) : O := regOp2 t rd ra rb (intInt wRem) s

/-- remu (R108). -/
def execRemu (t : Tid) (rd ra rb : Reg) (s : State) : O := regOp2 t rd ra rb (intInt wRemu) s

/-- min, signed (R108). -/
def execMin (t : Tid) (rd ra rb : Reg) (s : State) : O := regOp2 t rd ra rb (intInt wMin) s

/-- max, signed (R108). -/
def execMax (t : Tid) (rd ra rb : Reg) (s : State) : O := regOp2 t rd ra rb (intInt wMax) s

/-- minu (R108). -/
def execMinu (t : Tid) (rd ra rb : Reg) (s : State) : O := regOp2 t rd ra rb (intInt wMinu) s

/-- maxu (R108). -/
def execMaxu (t : Tid) (rd ra rb : Reg) (s : State) : O := regOp2 t rd ra rb (intInt wMaxu) s

/-- slt (R108). -/
def execSlt (t : Tid) (rd ra rb : Reg) (s : State) : O := regOp2 t rd ra rb (intInt wSlt) s

/-- sltu (R108). -/
def execSltu (t : Tid) (rd ra rb : Reg) (s : State) : O := regOp2 t rd ra rb (intInt wSltu) s

/-- seq: tags and data equal (R108). -/
def execSeq (t : Tid) (rd ra rb : Reg) (s : State) : O := regOp2 t rd ra rb opSeq s

/-- neg: 0 − ra; the short operation in a pair whose other half is nop (R84, log 14). -/
def execNeg (t : Tid) (rd ra : Reg) (s : State) : O := regOp1 t rd ra opNeg s

/-- A pair of short operations: one instruction (R83). -/
def execInsnPair (t : Tid) (hi lo : ShortOp) (s : State) : O :=
  issue t false false (do
    let s ← get
    let x ← lift (pairEval hi lo (s.thr t))
    set (s.modThr t (fun _ => x))
    pure .next) s

/-- A word that R85 makes illegal raises INSN_ILLEGAL. -/
def execIllegalInstruction (t : Tid) (s : State) : O := issue t false false (mtrap .insnIllegal) s

/-- nop: no effect (R107). -/
def execScalarNop (t : Tid) (s : State) : O := issue t false false (pure .next) s

end Sys2Proof.Machine
end

