-- ==== Sys2Proof/Machine/Vector.lean ====
section
/-! DEFINITION. The vector engine (R205 to R226): what each instruction computes on registers of 64 lanes, the checks at
issue, and the performance of accepted instructions in order. -/

namespace Sys2Proof.Machine

abbrev Vreg := BitVec 2048

def vregDef (_ : Nat) : Vreg := 0
def maskDef (_ : Nat) : BitVec 64 := 0

def VecSt.v_ (x : VecSt) (r : Nat) : Vreg := tget vregDef x.v r
def VecSt.setV (x : VecSt) (r : Nat) (v : Vreg) : VecSt := { x with v := tset vregDef x.v r v }
/-- m0 reads as all ones (R205). -/
def VecSt.mask (x : VecSt) (m : Nat) : BitVec 64 := if m = 0 then BitVec.allOnes 64 else tget maskDef x.m m
/-- A write to m0 is discarded. -/
def VecSt.setMask (x : VecSt) (m : Nat) (v : BitVec 64) : VecSt :=
  if m = 0 then x else { x with m := tset maskDef x.m m v }
def VecSt.acc (x : VecSt) (n : Nat) : AccSet := tget accDef x.accs n
def VecSt.setAcc (x : VecSt) (n : Nat) (a : AccSet) : VecSt := { x with accs := tset accDef x.accs n a }

/-- The 64 lanes of a register, lane 0 first (R206). -/
def lanes (v : Vreg) : List Half := (unpackNat 32 64 v.toNat).map (BitVec.ofNat 32)
def ofLanes (l : List Half) : Vreg := BitVec.ofNat 2048 (packNat 32 (l.map BitVec.toNat))
/-- Bit i of a mask, lane by lane. -/
def maskBools (m : BitVec 64) : List Bool := (countFrom 0 64).map (fun i => m.getLsbD i)
def ofBools (l : List Bool) : BitVec 64 := BitVec.ofNat 64 (packNat 1 (l.map b2n))

/-- Lanes whose mask bit is 0 keep their old value (R208). -/
def select (m : BitVec 64) (old new : List α) : List α :=
  ((maskBools m).zip (old.zip new)).map (fun p => if p.1 then p.2.2 else p.2.1)

/-! ## Lane-wise arithmetic (R209) -/

/-- Element kinds of R206. -/
def kindElem : Nat → Option Elem
  | 0 => some .fp32 | 1 => some .int32 | 2 => some .bf16 | 3 => some .fp16 | 4 => some .int8 | _ => none

/-- One element of a floating kind, rounded once. -/
def floatOp (f : Fmt) (op d a b : Nat) : Nat :=
  let x := f.decode a
  let y := f.decode b
  match op with
  | 0 => f.enc (x.add y)
  | 1 => f.enc (x.add y.neg)
  | 2 => f.enc (x.mul y)
  | 3 => f.enc ((f.decode d).add (x.mul y))
  | 4 => f.enc (x.ordMin y)
  | 5 => f.enc (x.ordMax y)
  | 6 => f.enc x.abs
  | _ => f.enc x.neg

/-- One element of an integer kind, wrapping (R49). -/
def intOp (w op d a b : Nat) : Nat :=
  let x := signedOf w a
  let y := signedOf w b
  unsignedOf w (match op with
    | 0 => x + y
    | 1 => x - y
    | 2 => x * y
    | 3 => signedOf w d + x * y
    | 4 => min x y
    | 5 => max x y
    | 6 => x.natAbs
    | _ => -x)

def elemOp (e : Elem) (op d a b : Nat) : Nat :=
  match e.fmt with
  | some f => floatOp f op d a b
  | none => intOp e.width op d a b

/-- One lane: its elements one by one. -/
def laneOp (e : Elem) (op : Nat) (d a b : Half) : Half :=
  let w := e.width
  let n := 32 / w
  let l := (unpackNat w n d.toNat).zip ((unpackNat w n a.toNat).zip (unpackNat w n b.toNat))
  BitVec.ofNat 32 (packNat w (l.map (fun p => elemOp e op p.1 p.2.1 p.2.2)))

def zip3 (f : α → β → γ → δ) (a : List α) (b : List β) (c : List γ) : List δ :=
  (a.zip (b.zip c)).map (fun p => f p.1 p.2.1 p.2.2)

def vArith (e : Elem) (op : Nat) (m : BitVec 64) (d a b : Vreg) : Vreg :=
  ofLanes (select m (lanes d) (zip3 (laneOp e op) (lanes d) (lanes a) (lanes b)))

/-- Comparisons of R210 on FP32 and INT32 lanes. -/
def cmpOp (int : Bool) (c : Nat) (a b : Half) : Bool :=
  if int then
    match c with
    | 0 => decide (a = b)
    | 1 => decide (a ≠ b)
    | 2 => decide (a.toInt < b.toInt)
    | 3 => decide (a.toInt ≤ b.toInt)
    | _ => decide (a.toNat < b.toNat)
  else
    match c with
    | 0 => (f32 a).eqC (f32 b)
    | 1 => !(f32 a).eqC (f32 b)
    | 2 => (f32 a).ltC (f32 b)
    | _ => (f32 a).leC (f32 b)

def vCmp (int : Bool) (c : Nat) (m old : BitVec 64) (a b : Vreg) : BitVec 64 :=
  ofBools (select m (maskBools old) (((lanes a).zip (lanes b)).map (fun p => cmpOp int c p.1 p.2)))

/-! ## Reductions (R212) -/

def pairUp (f : α → α → α) : List α → List α
  | a :: b :: r => f a b :: pairUp f r
  | l => l

/-- The fixed tree of six levels over 64 values. -/
def tree (f : α → α → α) : Nat → List α → List α
  | 0, l => l
  | n + 1, l => tree f n (pairUp f l)

/-- The identities a masked lane enters as. -/
def redIdentity (fn : Nat) (int : Bool) : Half :=
  match fn, int with
  | 0, _ => 0
  | 1, false => toF32 .nan
  | 1, true => 0x80000000
  | _, false => toF32 (.inf false)
  | _, true => 0x7FFFFFFF

def redOp (fn : Nat) (int : Bool) (a b : Half) : Half :=
  match fn, int with
  | 0, false => f32Add a b
  | 0, true => a + b
  | 1, false => f32Max a b
  | 1, true => if a.toInt < b.toInt then b else a
  | _, false => f32Min a b
  | _, true => if b.toInt < a.toInt then b else a

/-- The same value: equal bits for integers, equal under R51 for floats. -/
def sameVal (int : Bool) (a b : Half) : Bool := if int then decide (a = b) else decide (f32 a = f32 b)

/-- A reduction writes all 64 lanes of vd (R212), whatever its mask: the mask picks what enters the tree. DESIGN CHOICE (log 46):
R208 has a masked instruction write its lanes alone. -/
def vReduce (fn : Nat) (int : Bool) (m : BitVec 64) (a : Vreg) : Vreg :=
  let l := select m (List.replicate 64 (redIdentity fn int)) (lanes a)
  let r := (tree (redOp fn int) 6 l).headD 0
  let i := BitVec.ofNat 32 (l.findIdx (sameVal int r))
  ofLanes (r :: (if fn = 0 then 0 else i) :: List.replicate 62 0)

/-! ## Dot products (R213, R214) -/

/-- The group of a lane. -/
def laneGroup (e : Elem) (l : Half) : List Nat := unpackNat e.width (32 / max e.width (if e.width = 6 then 8 else e.width)) l.toNat

/-- The mode a format locks (R184, R213). -/
def dotMode (e : Elem) (chunk : BitVec 2) : AccMode :=
  if e.isInt then .int else .float (groupSize e e) (chunkOf false chunk)

def dotLane (e : Elem) (g : Nat) (promote : Bool) (x : AccEl) (a b : Half) : AccEl :=
  if e.isInt then
    accInt x (((laneGroup e a).zip (laneGroup e b)).map (fun p => signedOf e.width p.1 * signedOf e.width p.2))
  else
    let x := accGroup g x (products ((laneGroup e a).map e.value) ((laneGroup e b).map e.value))
    if promote then accPromote x (some 0) else x

/-- One group step in every lane. -/
def vDotStep (s : AccSet) (e : Elem) (chunk : BitVec 2) (a b : Vreg) : AccSet :=
  let mode := dotMode e chunk
  let g := groupSize e e
  let n := s.n + g
  let promote := match mode with
    | .int => false
    | .float _ c => decide (n % c = 0)
  let els := (zip3 (fun i x y => (i, dotLane e g promote (tget elDef s.els i) x y)) (countFrom 0 64) (lanes a) (lanes b))
  { s with els := els.filter (fun p => decide (p.2 ≠ elDef 0)), n := n, mode := some mode,
           chunkCode := if s.mode.isSome then s.chunkCode else chunk, gval := if s.mode.isSome then s.gval else g }

/-- The end of an accumulation: a pending run is promoted (R66). -/
def accEnd (s : AccSet) (x : AccEl) : Half :=
  match s.mode with
  | some (.float _ c) => if s.n % c = 0 then x.total else (accPromote x (some 0)).total
  | _ => x.total

def vDgetVal (s : AccSet) : Vreg := ofLanes ((countFrom 0 64).map (fun i => accEnd s (tget elDef s.els i)))

/-! ## Conversion (R215, R216) -/

/-- The format of a v.cvt code: 0x00 to 0x0A. -/
def cvtElem (c : BitVec 4) : Option Elem :=
  if c.toNat ≤ 10 then (formatOfCode c.toNat).map (·.elem) else none

/-- Elements i to i+63 of a register, as bits. -/
def vPart (e : Elem) (v : Vreg) (i : Nat) : List Nat := unpackNat e.width 64 (v.toNat >>> (e.width * i))

/-- v.cvt: the new vd and the source values. -/
def vCvtVal (src dst : Elem) (cvm : BitVec 2) (p : Nat) (us : List Nat) (d a : Vreg) : Vreg × List FVal :=
  let from_ := if src.width < dst.width then 64 * p else 0
  let to_ := if dst.width < src.width then 64 * p else 0
  let vs := (vPart src a from_).map src.value
  let out := (vs.zip us).map (fun q => dst.conv cvm q.2 q.1)
  let w := dst.width
  let mask := (2 ^ (64 * w) - 1) <<< (w * to_)
  (BitVec.ofNat 2048 ((d.toNat - (d.toNat &&& mask)) + (packNat w out) <<< (w * to_)), vs)

/-! ## Helpers of softmax and top-k (R217, R218) -/

/-- exp2(a − b), +0 where a is −∞. -/
def sexp (a b : Half) : Half :=
  match f32 a with
  | .inf true => 0
  | _ => specialFn 0 (toF32 ((f32 a).add (f32 b).neg))

/-- Score-index pairs in order: higher score first, then lower index; earlier ones keep their place among equals. -/
def pairBefore (a b : Half × Half) : Bool :=
  if (f32 b.1).ordLt (f32 a.1) then true
  else if (f32 a.1).ordLt (f32 b.1) then false
  else decide (a.2.toNat ≤ b.2.toNat)

def insertPair (x : Half × Half) : List (Half × Half) → List (Half × Half)
  | [] => [x]
  | y :: r => if pairBefore y x then y :: insertPair x r else x :: y :: r

/-- Stable order of a list of pairs. -/
def sortPairs : List (Half × Half) → List (Half × Half)
  | l => l.foldl (fun acc x => insertPair x acc) []

/-! ## Performing an accepted instruction -/

/-- The next draw counter after `blocks` blocks (R220). -/
def ctrOf (x : VecSt) (base : Nat) : Nat :=
  leNat ((countFrom base 4).flatMap (fun j => leBytes 4 (tget halfDef x.ctr j).toNat))

def setCtr (x : VecSt) (base v : Nat) : VecSt :=
  { x with ctr := (countFrom 0 4).foldl (fun t j => tset halfDef t (base + j) (BitVec.ofNat 32 (v % 2 ^ 128 / 2 ^ (32 * j)))) x.ctr }

/-- Key and counter of a consumer with counter base 0 (vector) or 4 (drain). -/
def rngOf (x : VecSt) (base : Nat) : Half × Half × Nat := (tget halfDef x.key 0, tget halfDef x.key 1, ctrOf x base)

def rngWords (r : Half × Half × Nat) (blocks : Nat) : List Half := philoxWords r.1 r.2.1 r.2.2 blocks

/-- The record of a vector accumulator set, two rows (R222). -/
def vecAccRecord (a : AccSet) : List Byte :=
  padTo 0 512 (leBytes 8 ((accHeader a 3).headD 0).toNat)
  ++ (countFrom 0 64).flatMap (fun i => leBytes 4 (tget elDef a.els i).total.toNat)
  ++ (countFrom 0 64).flatMap (fun i => leBytes 4 (runWord a.g (tget elDef a.els i).run))

/-- The set that a record holds; none where it is malformed: a field that R202 or R222 has at zero is not (R203). DESIGN CHOICE
(log 98): a record of OPEN 0 gives a cleared set with its n; its mode, CHUNK, totals and runs are dropped. -/
def accOfRecord (w0 : Nat) (kind : Nat) (sa sb : Word) (totals runs : List Nat) : Option AccSet :=
  let int := bitOf w0 9
  let opened := bitOf w0 8
  let g := bitsOf w0 13 10
  let code := BitVec.ofNat 2 (bitsOf w0 15 14)
  if w0 % 256 ≠ kind ∨ bitsOf w0 31 16 ≠ 0 then none
  else if !(g = 1 ∨ g = 2 ∨ g = 4 ∨ g = 8) then none
  else if opened && decide (g ≠ 1) && runs.any (fun r => decide (2 ^ 24 ≤ r)) then none
  else
    let mode := if !opened then Option.none else some (if int then .int else .float g (chunkOf false code))
    let els := if opened then
        ((countFrom 0 totals.length).zip (totals.zip runs)).map (fun p =>
          (p.1, AccEl.mk (BitVec.ofNat 32 p.2.1) (if int then 0 else runOfWord g p.2.2)))
      else []
    some { els := els.filter (fun p => decide (p.2 ≠ elDef 0)), n := w0 / 2 ^ 32 % 2 ^ 32, mode := mode, sa := sa, sb := sb,
           chunkCode := if opened then code else 0, gval := if opened then g else 0 }

/-- Words of a v.save row for the masks: m0 as it reads. -/
def maskRow (x : VecSt) : List Byte :=
  padTo 0 512 ((countFrom 0 8).flatMap (fun m => leBytes 8 (x.mask m).toNat))

def vregBytes (v : Vreg) : List Byte := leBytes 256 v.toNat
def bytesVreg (b : List Byte) : Vreg := BitVec.ofNat 2048 (leNat b)

/-- A row pair put into registers r and r+1. -/
def setPair (x : VecSt) (r : Nat) (b : List Byte) : VecSt :=
  (x.setV r (bytesVreg (b.take 256))).setV (r + 1) (bytesVreg (b.drop 256))

/-- The engine state after a computing instruction. -/
def vecPure (o : VecOp) (x : VecSt) : VecSt :=
  match o.i with
  | .vArithmetic _ vd va vb m fn =>
    match kindElem (fn.toNat / 8) with
    | some e => x.setV vd.val (vArith e (fn.toNat % 8) (x.mask m.val) (x.v_ vd.val) (x.v_ va.val) (x.v_ vb.val))
    | none => x
  | .vCompare _ md va vb m fn =>
    x.setMask md.val (vCmp (decide (fn.toNat / 8 = 1)) (fn.toNat % 8) (x.mask m.val) (x.mask md.val) (x.v_ va.val) (x.v_ vb.val))
  | .vSpecialFunction _ vd va m fn =>
    x.setV vd.val (ofLanes (select (x.mask m.val) (lanes (x.v_ vd.val)) ((lanes (x.v_ va.val)).map (specialFn fn.toNat))))
  | .vRsum _ vd va m int => x.setV vd.val (vReduce 0 int (x.mask m.val) (x.v_ va.val))
  | .vRmax _ vd va m int => x.setV vd.val (vReduce 1 int (x.mask m.val) (x.v_ va.val))
  | .vRmin _ vd va m int => x.setV vd.val (vReduce 2 int (x.mask m.val) (x.v_ va.val))
  | .vDot _ n va vb fmt chunk =>
    match cvtElem fmt with
    | some e => x.setAcc n.val (vDotStep (x.acc n.val) e chunk (x.v_ va.val) (x.v_ vb.val))
    | none => x
  | .vDget _ vd n => (x.setV vd.val (vDgetVal (x.acc n.val))).setAcc n.val {}
  | .vDclr _ mask => (countFrom 0 2).foldl (fun x n => if mask.getLsbD n then x.setAcc n {} else x) x
  | .vCvt _ vd va src dst cvm p =>
    match cvtElem src, cvtElem dst with
    | some e, some f =>
      let us := if cvmRnd cvm then draws (rngWords o.rng 8) else List.replicate 64 0
      let r := vCvtVal e f cvm p.toNat us (x.v_ vd.val) (x.v_ va.val)
      let mx := amaxBits r.2
      let x := x.setV vd.val r.1
      { x with amaxLast := mx, amaxCum := amaxJoin x.amaxCum mx }
    | _, _ => x
  | .vSexp _ vd va vb m =>
    x.setV vd.val (ofLanes (select (x.mask m.val) (lanes (x.v_ vd.val))
      (((lanes (x.v_ va.val)).zip (lanes (x.v_ vb.val))).map (fun p => sexp p.1 p.2))))
  | .vTk _ vd va k =>
    let l := (sortPairs ((lanes (x.v_ va.val)).zip (lanes (x.v_ (va.val + 1))))).take k.toNat
    (x.setV vd.val (ofLanes (padTo (toF32 .nan) 64 (l.map (fun p => f32Score p.1))))).setV (vd.val + 1)
      (ofLanes (padTo 0xFFFFFFFF 64 (l.map (·.2))))
  | .vRand _ vd => x.setV vd.val (ofLanes (rngWords o.rng 16))
  | .vBcast _ vd _ => x.setV vd.val (ofLanes (List.replicate 64 (BitVec.ofNat 32 o.a.data.toNat)))
  | .vMaskLogic _ md ma mb fn =>
    let a := x.mask ma.val
    let b := x.mask mb.val
    x.setMask md.val (match fn.toNat with
      | 0 => a &&& b
      | 1 => a ||| b
      | 2 => a ^^^ b
      | _ => a &&& ~~~b)
  | _ => x

def State.modVec (s : State) (c : Nat) (f : VecSt → VecSt) : State :=
  s.modCore c (fun x => { x with vec := f x.vec })

/-- The record bytes of a v.save item. -/
def vSaveBytes (x : VecSt) (item : Nat) : List Byte :=
  if item < 16 then vregBytes (x.v_ (2 * item)) ++ vregBytes (x.v_ (2 * item + 1))
  else if item = 16 then maskRow x
  else vecAccRecord (x.acc (item - 17))

/-- The engine state after a v.rest of the given bytes; none where the record is malformed. -/
def vRestore (x : VecSt) (item : Nat) (b : List Byte) : Option VecSt :=
  if item < 16 then some (setPair x (2 * item) b)
  else if item = 16 then
    some ((countFrom 0 8).foldl (fun x m => x.setMask m (BitVec.ofNat 64 (leNat (slice b (8 * m) 8)))) x)
  else if (slice b 8 504).any (fun y => decide (y ≠ 0)) then none
  else
    let words := fun (o : Nat) => (chunksOf 4 64 (slice b o 256)).map leNat
    (accOfRecord (leNat (b.take 8)) 3 0 0 (words 512) (words 768)).map (fun a => x.setAcc (item - 17) a)

/-- The memory part of an instruction, or its computation: the trap of v.ld and v.rest, and what v.get returns. -/
def vecStep (c : Nat) (o : VecOp) (s : State) : Except Cause (Option Word) × State :=
  match o.i with
  | .vLd _ vd _ =>
    match spadRead s c o.row 512 with
    | (some b, s) => (.ok none, s.modVec c (fun x => setPair x vd.val b))
    | (none, s) => (.error .machineCheck, s)
  | .vSt _ vs _ =>
    let x := (s.core c).vec
    let b := vregBytes (x.v_ vs.val) ++ vregBytes (x.v_ (vs.val + 1))
    (.ok none, (spadWrite s c o.row b (allOn b)).2)
  | .vSave _ item _ =>
    let b := vSaveBytes (s.core c).vec item.val
    (.ok none, (spadWrite s c o.row b (allOn b)).2)
  | .vRest _ item _ =>
    match spadRead s c o.row (if 17 ≤ item.val then 1024 else 512) with
    | (some b, s) =>
      match vRestore (s.core c).vec item.val b with
      | some x => (.ok none, s.modVec c (fun _ => x))
      | none => (.error .vecRestBad, s)
    | (none, s) => (.error .machineCheck, s)
  | .vGet _ _ va lane =>
    (.ok (some ((lget 0 (lanes ((s.core c).vec.v_ va.val)) lane.toNat).zeroExtend 64)), s)
  | _ => (.ok none, s.modVec c (vecPure o))

/-- The engine state that the accepted instructions will leave (R207). -/
def vecAfter (c : Nat) : List VecOp → State → State
  | [], s => s
  | o :: r, s => vecAfter c r (vecStep c o s).2

/-! ## Issue -/

/-- Accept an instruction: it joins the queue; the thread goes on, or is held until it completes. -/
def vecAccept (t : Tid) (o : VecOp) (hold : Bool) : M Ctl := do
  modify (fun s => s.modVec t.core.val (fun x => { x with ops := x.ops ++ [o] }))
  pure (if hold then .hold .engine else .next)

/-- An instruction on registers alone: its checks, then acceptance. -/
def vecIssue (t : Tid) (noCompat hold : Bool) (i : Instr) (chk : VecSt → Except Stop Unit) (s : State) :
    Host.Outcome State Fault Refusal :=
  issue t false noCompat (do
    let s ← get
    lift (chk (vecAfter t.core.val (s.core t.core.val).vec.ops s |>.core t.core.val).vec)
    vecAccept t { t := t.thr, i := i } hold) s

/-- A consumer of the vector counter: it takes its blocks at issue, in issue order (R220). -/
def vecDraw (t : Tid) (blocks : Nat) (i : Instr) : M Ctl := do
  let s ← get
  let x := (s.core t.core.val).vec
  let r := rngOf x 0
  modify (fun s => s.modVec t.core.val (fun x => setCtr x 0 (r.2.2 + blocks)))
  vecAccept t { t := t.thr, i := i, rng := r } false

/-- A row instruction: the address checks, then the register pair, then acceptance once earlier accesses to the rows
are done (R221, R292). -/
def vecMem (t : Tid) (noCompat hold : Bool) (ra : Reg) (rows : Nat) (okPair : Bool) (i : Instr) (s : State) :
    Host.Outcome State Fault Refusal :=
  issue t false noCompat (do
    let s ← get
    let w := (s.thr t).reg ra.val
    let b ← lift (need [.int] 1 w)
    let x := s.core t.core.val
    let p ← lift (spadCheck x (x.win t.thr.val) b rows 512 2)
    if !okPair then mtrap .vecPair
    let sp := Span.spad p (512 * rows)
    if x.mtx.ops.any (fun o => hits (o.spans t.core.val) sp)
        || (countFrom 0 8).any (fun k => decide (k ≠ t.thr.val) && hits (heldSpans t.core.val (x.t k).held) sp) then
      throw .wait
    vecAccept t { t := t.thr, i := i, a := w, row := p } hold) s

/-! ## The instructions -/

/-- v.ld: one row into a register pair; holds its thread until the row has been read. -/
def execVLd (t : Tid) (vd ra : Reg) (s : State) : O :=
  vecMem t false true ra 1 (decide (vd.val % 2 = 0)) (.vLd t vd ra) s

/-- v.st: a register pair as one whole row. -/
def execVSt (t : Tid) (vs ra : Reg) (s : State) : O :=
  vecMem t false false ra 1 (decide (vs.val % 2 = 0)) (.vSt t vs ra) s

/-- Group 0x52 (R209). -/
def execVArithmetic (t : Tid) (vd va vb : Reg) (m : Fin 8) (fn : BitVec 6) (s : State) : O :=
  vecIssue t false false (.vArithmetic t vd va vb m fn) (fun _ =>
    if 6 ≤ fn.toNat % 8 ∧ vb ≠ 0 then trap .insnIllegal
    else if (kindElem (fn.toNat / 8)).isNone then trap .vecFmt else .ok ()) s

/-- Group 0x54 (R210). -/
def execVCompare (t : Tid) (md : Fin 8) (va vb : Reg) (m : Fin 8) (fn : BitVec 6) (s : State) : O :=
  vecIssue t false false (.vCompare t md va vb m fn) (fun _ =>
    if 5 ≤ fn.toNat % 8 then trap .insnIllegal
    else if 2 ≤ fn.toNat / 8 ∨ fn.toNat = 4 then trap .vecFmt else .ok ()) s

/-- Group 0x55 (R211, log 3). -/
def execVSpecialFunction (t : Tid) (vd va : Reg) (m : Fin 8) (fn : BitVec 2) (s : State) : O :=
  vecIssue t false false (.vSpecialFunction t vd va m fn) (fun _ => .ok ()) s

/-- v.rsum (R212). -/
def execVRsum (t : Tid) (vd va : Reg) (m : Fin 8) (int : Bool) (s : State) : O :=
  vecIssue t false false (.vRsum t vd va m int) (fun _ => .ok ()) s

/-- v.rmax (R212). -/
def execVRmax (t : Tid) (vd va : Reg) (m : Fin 8) (int : Bool) (s : State) : O :=
  vecIssue t false false (.vRmax t vd va m int) (fun _ => .ok ()) s

/-- v.rmin (R212). -/
def execVRmin (t : Tid) (vd va : Reg) (m : Fin 8) (int : Bool) (s : State) : O :=
  vecIssue t false false (.vRmin t vd va m int) (fun _ => .ok ()) s

/-- v.dot: refuses MX, INT32 and reserved codes, and a mode other than the set's (R213). -/
def execVDot (t : Tid) (n : Fin 2) (va vb : Reg) (fmt : BitVec 4) (chunk : BitVec 2) (s : State) : O :=
  vecIssue t true false (.vDot t n va vb fmt chunk) (fun x =>
    match cvtElem fmt with
    | none => trap .vecFmt
    | some .int32 => trap .vecFmt
    | some e =>
      match (x.acc n.val).mode with
      | none => .ok ()
      | some m => if m = dotMode e chunk then .ok () else trap .vecAccMode) s

/-- v.dget: the totals, and the set cleared (R214). -/
def execVDget (t : Tid) (vd : Reg) (n : Fin 2) (s : State) : O := vecIssue t false false (.vDget t vd n) (fun _ => .ok ()) s

/-- v.dclr. -/
def execVDclr (t : Tid) (mask : BitVec 2) (s : State) : O := vecIssue t false false (.vDclr t mask) (fun _ => .ok ()) s

/-- The part number fits the narrower width; equal widths allow part 0 only (R215). -/
def cvtOk (src dst : BitVec 4) (p : BitVec 3) : Bool :=
  match cvtElem src, cvtElem dst with
  | some e, some f =>
    decide (p.toNat < 2048 / (64 * min e.width f.width)) && (decide (e.width ≠ f.width) || decide (p = 0))
  | _, _ => false

/-- v.cvt (R215, R216); a stochastic one takes 8 blocks. -/
def execVCvt (t : Tid) (vd va : Reg) (src dst : BitVec 4) (cvm : BitVec 2) (p : BitVec 3) (s : State) : O :=
  issue t false false (do
    if !cvtOk src dst p then mtrap .vecFmt
    if cvmRnd cvm then vecDraw t 8 (.vCvt t vd va src dst cvm p)
    else vecAccept t { t := t.thr, i := .vCvt t vd va src dst cvm p } false) s

/-- v.sexp (R217). -/
def execVSexp (t : Tid) (vd va vb : Reg) (m : Fin 8) (s : State) : O :=
  vecIssue t true false (.vSexp t vd va vb m) (fun _ => .ok ()) s

/-- v.tk (R218). -/
def execVTk (t : Tid) (vd va : Reg) (k : BitVec 6) (s : State) : O :=
  vecIssue t true false (.vTk t vd va k) (fun _ =>
    if k = 0 ∨ 32 < k.toNat then trap .insnIllegal
    else if vd.val % 2 ≠ 0 ∨ va.val % 2 ≠ 0 then trap .vecPair else .ok ()) s

/-- v.rand: 16 blocks of the vector counter (R220). -/
def execVRand (t : Tid) (vd : Reg) (s : State) : O := issue t false false (vecDraw t 16 (.vRand t vd)) s

/-- v.bcast of bits 31:0 of an INT or F64 (R223). -/
def execVBcast (t : Tid) (vd ra : Reg) (s : State) : O :=
  issue t false false (do
    let s ← get
    let w := (s.thr t).reg ra.val
    let _ ← lift (need [.int, .f64] 1 w)
    vecAccept t { t := t.thr, i := .vBcast t vd ra, a := w } false) s

/-- v.get: its result is a scalar register, so it holds its thread until the lane has been read. -/
def execVGet (t : Tid) (rd va : Reg) (lane : BitVec 6) (s : State) : O :=
  vecIssue t false true (.vGet t rd va lane) (fun _ => .ok ()) s

/-- Mask logic: and, or, xor, andn (R223). -/
def execVMaskLogic (t : Tid) (md ma mb : Fin 8) (fn : BitVec 2) (s : State) : O :=
  vecIssue t false false (.vMaskLogic t md ma mb fn) (fun _ => .ok ()) s

/-- v.save; items 19 to 31 are illegal (R222). -/
def execVSave (t : Tid) (item : Reg) (ra : Reg) (s : State) : O :=
  if 19 ≤ item.val then issue t false true (mtrap .insnIllegal) s
  else vecMem t true false ra (if 17 ≤ item.val then 2 else 1) true (.vSave t item ra) s

/-- v.rest: the record is checked when its rows have been read, so it holds its thread. -/
def execVRest (t : Tid) (item : Reg) (ra : Reg) (s : State) : O :=
  if 19 ≤ item.val then issue t false true (mtrap .insnIllegal) s
  else vecMem t true true ra (if 17 ≤ item.val then 2 else 1) true (.vRest t item ra) s

/-- The instruction holds its thread (R207). -/
def vecHolds : Instr → Bool
  | .vLd _ _ _ | .vRest _ _ _ | .vGet _ _ _ _ => true
  | _ => false

/-- The register a v.get writes. -/
def vecRd : Instr → Nat
  | .vGet _ rd _ _ => rd.val
  | _ => 0

def vecComplete (c : Fin 512) : M Unit := do
  let s ← get
  match (s.core c.val).vec.ops with
  | [] => pure ()
  | o :: r => do
    let t : Tid := ⟨c, o.t⟩
    set (s.modVec c.val (fun x => { x with ops := r }))
    let arm := modify (fun s => s.modVec c.val (fun x =>
      { x with arms := (x.arms.map (· - 1)).filter (· ≠ 0), amaxCum := if x.arms.contains 1 then 0 else x.amaxCum }))
    if vecHolds o.i then do
      finishHeld t (do
        let (res, s) := vecStep c.val o (← get)
        set s
        match res with
        | .error e => mtrap e 0 (if e = .machineCheck then o.a else wInt 0)
        | .ok (some w) => modify (fun s => s.setReg t (vecRd o.i) (wInt w))
        | .ok none => pure ())
      arm
    else do
      modify (fun s => (vecStep c.val o s).2)
      settle t
      arm

/-- The engine performs its oldest accepted instruction (R207); a write of VEC_ARM that waited for it takes effect after it
(R216). -/
def execVInsnComplete (c : Fin 512) (s : State) : O := runCmd (vecComplete c) s

end Sys2Proof.Machine
end

