-- ==== Sys2Proof/Machine/Queues.lean ====
section
/-! DEFINITION. Hardware queues: records and rings (R252, R253, R264 to R266), admission of senders (R260, R263),
combining slots (R272 to R278, R552), opening and closing (R287). -/

namespace Sys2Proof.Machine

/-- Ring capacity in granules (R252). -/
def QueueSt.cap (q : QueueSt) : Nat := 32 * 2 ^ q.log2
/-- Granules in the ring. -/
def QueueSt.used (q : QueueSt) : Nat := (q.tail - q.head).toNat

/-- SDEV, SUNIT, STHR and STYPE of a header (R253), at their places. -/
def Sender.bits : Sender → Nat
  | .thread d c t => d % 1024 * 2 ^ 20 + c % 512 * 2 ^ 11 + t % 8 * 2 ^ 8
  | .skiver d k => 2 ^ 30 + d % 1024 * 2 ^ 20 + k % 512 * 2 ^ 11
  | .cp d => 2 * 2 ^ 30 + d % 1024 * 2 ^ 20

/-- The sender is admitted at a queue of core `c` with this SCOPE (R263). -/
def admits (own : Nat) (c : Nat) (scope : BitVec 2) : Sender → Bool
  | .thread d k _ =>
    if d = own then (if k = c then true else if clusterOf k = clusterOf c then decide (1 ≤ scope.toNat) else decide (2 ≤ scope.toNat))
    else decide (scope = 3)
  | .skiver d _ | .cp d => if d = own then decide (2 ≤ scope.toNat) else decide (scope = 3)

/-! ## Writes of rows by deliveries (R265) -/

inductive RowRes where
  | ok | port | data
  deriving DecidableEq, Repr

/-- Bytes of row `r` that disjoint spans cover. -/
def coverOf (spans : List (Nat × List Byte)) (r : Nat) : Nat :=
  spans.foldl (fun n p => n + (min (p.1 + p.2.length) (512 * r + 512) - max p.1 (512 * r))) 0

/-- Write spans of the scratchpad through the D-port as one act: first the port test, then the rows that are covered
in part, then the bytes. -/
def deliverWrite (s : State) (c : Nat) (spans : List (Nat × List Byte)) : RowRes × State :=
  let x := s.core c
  let rows := (spans.flatMap (fun p => if p.2.isEmpty then [] else rowsOf p.1 p.2.length)).eraseDups
  if rows.any (fun r => decide (groupOwner x r ≠ 0)) then (.port, s)
  else
    let whole := fun r => decide (coverOf spans r = 512)
    let (bad, ce, m, s) := checkRows true (rows.filter (fun r => !whole r)) x.spad.mem s
    if bad then (.data, s.modCore c (fun x => setSpadMem x m ce))
    else
      let m := (rows.filter whole).foldl EccMem.fresh m
      let m := spans.foldl (fun m p => { m with bytes := writeBytes m.bytes p.1 p.2 }) m
      (.ok, s.modCore c (fun x => setSpadMem x m ce))

/-! ## Rings -/

/-- HEAD passes over PAD records (R266). -/
def skipPads : Nat → QueueSt → QueueSt
  | 0, q => q
  | f + 1, q =>
    match q.recs with
    | (n, true) :: r => skipPads f { q with head := q.head + BitVec.ofNat 16 n, recs := r }
    | _ => q

/-- Close a queue: its slots are discarded (R278); `port` sets PORTERR (R265). -/
def closeQueue (q : QueueSt) (port : Bool) : QueueSt :=
  { q with opened := false, portErr := q.portErr || port, slots := [] }

/-- Physical byte of a ring position. -/
def ringByte (q : QueueSt) (pos : Nat) : Nat := 512 * q.base + 16 * pos

/-- Room for a record of n granules (R264): where it goes and the PAD granules before it. -/
inductive Place where
  | tooLong | full | at_ (pos pad : Nat)
  deriving DecidableEq, Repr

def placeOf (q : QueueSt) (n : Nat) : Place :=
  let c := q.cap
  let pos := q.tail.toNat % c
  let free := c - q.used
  let e := c - pos
  if c < n then .tooLong
  else if n ≤ e ∧ n ≤ free then .at_ pos 0
  else if e < n ∧ e + n ≤ free then .at_ 0 e
  else .full

/-- The words of a record header (R253). -/
def recHeader (kind len sender : Nat) (hdr : Word) : List Byte :=
  leBytes 8 (kind * 2 ^ 60 + len * 2 ^ 40 + sender) ++ leBytes 8 hdr.toNat

/-- Place a record in the ring of queue `q` of core `c`. A PAD's sender fields, second word and payload are free
(log 16). A row that fails the port test closes the queue. -/
def placeRecord (s : State) (c q : Nat) (kind sender : Nat) (hdr : Word) (payload : List Byte) : Nat × State :=
  let x := (s.core c).q q
  let n := payload.length / 16 + 1
  match placeOf x n with
  | .tooLong => (stTooLong, s)
  | .full => (stFull, s)
  | .at_ pos pad =>
    let (b, s) := freeBytes (if pad = 0 then 0 else 16 * pad - 4) s
    let padBytes := if pad = 0 then [] else
      leBytes 8 (2 ^ 60 + (pad - 1) * 2 ^ 37 + leNat (b.take 4) / 256 * 256) ++ b.drop 4
    let rec_ := recHeader kind (n - 1) sender hdr ++ payload
    let (r, s) := deliverWrite s c [(ringByte x (x.cap - pad), padBytes), (ringByte x pos, rec_)]
    match r with
    | .port => (stClosed, s.modCore c (fun y => y.modQ q (fun z => closeQueue z true)))
    | .data => (stData, s)
    | .ok =>
      (stOk, s.modCore c (fun y => y.modQ q (fun z =>
        skipPads 2 { z with tail := z.tail + BitVec.ofNat 16 (pad + n),
                            recs := z.recs ++ (if pad = 0 then [] else [(pad, true)]) ++ [(n, false)] })))

/-! ## Combining (R272 to R277) -/

def words32 (b : List Byte) : List Half := (chunksOf 4 b.length b).map (fun w => BitVec.ofNat 32 (leNat w))
def bytes32 (l : List Half) : List Byte := l.flatMap (fun w => leBytes 4 w.toNat)

/-- A contribution as slot words: BF16 vectors become FP32, the others stay (R273). -/
def contribWords (op : Nat) (b : List Byte) : List Half :=
  if op = 2 then (chunksOf 2 b.length b).map (fun w => toF32 (fmtBf16.decode (leNat w))) else words32 b

/-- One softmax partial: m, l, o (R274). -/
def softmaxMerge (a b : List Half) : List Half :=
  match a, b with
  | m1 :: r1, m2 :: r2 =>
    let m := f32Max m1 m2
    let a1 := sexp m1 m
    let a2 := sexp m2 m
    m :: (r1.zip r2).map (fun p => toF32 (((f32 p.1).mul (f32 a1)).add (f32 (f32Mul p.2 a2))))
  | _, _ => a

/-- Index-score pairs as score-index pairs. -/
def scorePairs (l : List Half) : List (Half × Half) :=
  (chunksOf 2 l.length l).map (fun p => (lget 0 p 1, lget 0 p 0))

/-- Combine an incoming value into a slot value (R274). -/
def combine (op param : Nat) (a b : List Half) : List Half :=
  match op with
  | 0 | 2 => (a.zip b).map (fun p => f32Add p.1 p.2)
  | 1 => (a.zip b).map (fun p => p.1 + p.2)
  | 3 => (a.zip b).map (fun p => f32Max p.1 p.2)
  | 4 => (a.zip b).map (fun p => if p.1.toInt < p.2.toInt then p.2 else p.1)
  | 5 =>
    let d := param + 2
    ((chunksOf d a.length a).zip (chunksOf d b.length b)).flatMap (fun p => softmaxMerge p.1 p.2)
  | _ => ((sortPairs (scorePairs a ++ scorePairs b)).take param).flatMap (fun p => [p.2, f32Score p.1])

/-- Bytes of a contribution with this OP, PARAM, padded length and NPART; none is SHAPE (R273). -/
def contribLen (op param n npart : Nat) : Option Nat :=
  if op = 5 then
    let len := 4 * (param + 2) * npart
    if 1 ≤ npart ∧ npart ≤ 341 ∧ n < len + 16 ∧ len ≤ n then some len else none
  else if npart ≠ 0 then none
  else if op = 6 then (if n = (8 * param + 15) / 16 * 16 then some (8 * param) else none)
  else if op = 2 then (if 16 ≤ n ∧ n ≤ 2048 then some n else none)
  else if 16 ≤ n ∧ n ≤ 4096 then some n else none

/-- Bytes of the combined result. -/
def resultLen (op len : Nat) : Nat := if op = 2 then 2 * len else len

/-- Bytes of the combined result that a contribution of n bytes would produce, whether or not it meets R272 and R273: the
measure of TOO_LONG, which R260 checks before SHAPE. -/
def wouldBe (op param n npart : Nat) : Nat :=
  if op = 5 then 4 * (param + 2) * npart else if op = 6 then 8 * param else resultLen op n

/-- Read slot rows for combining: a bad row's words are the canonical NaN (R552). -/
def combRows (c : Nat) : Nat → Nat → Nat → State → List Byte × State
  | 0, _, _, s => ([], s)
  | f + 1, off, n, s =>
    if n = 0 then ([], s)
    else
      let k := min 512 n
      let (r, s) := spadRead s c off k
      let b := match r with
        | some b => b
        | none => (List.replicate (k / 4) (toF32 .nan)).flatMap (fun w => leBytes 4 w.toNat)
      let (rest, s) := combRows c f (off + k) (n - k) s
      (b ++ rest, s)

/-- First physical byte of slot i. -/
def slotByte (q : QueueSt) (i : Nat) : Nat := 512 * (q.slotRow + i * q.slotRows)

/-- A slot that still takes contributions. -/
def Slot.open_ (k : Slot) : Bool := k.used && decide (k.arrived < k.count)
/-- A slot whose result waits for the ring. -/
def Slot.done (k : Slot) : Bool := k.used && decide (k.count ≤ k.arrived)

def QueueSt.slot (q : QueueSt) (i : Nat) : Slot := tget cslotDef q.slots i
def slotIds (q : QueueSt) : List Nat := countFrom 0 (q.nslot.toNat + 1)

/-- Rows of 512 bytes that n bytes fill. -/
def rowsUp (n : Nat) : Nat := (n + 511) / 512

/-- A span of the scratchpad meets a row whose group the D-port does not own (R265). -/
def portBlocks (s : State) (c off len : Nat) : Bool :=
  decide (len ≠ 0) && (rowsOf off len).any (fun r => decide (groupOwner (s.core c) r ≠ 0))

/-- Store or combine an accepted contribution into slot i (R276). -/
def storeContribution (s : State) (c q i : Nat) (k : Slot) (index len : Nat) (payload : List Byte) : Nat × State :=
  let x := (s.core c).q q
  let op := x.op.toNat
  let body := payload.take len
  let base := slotByte x i
  let (bytes, off, s) :=
    if x.ord then (body, base + 512 * (index * rowsUp len), s)
    else if k.arrived = 0 ∨ portBlocks s c base (resultLen op len) then (bytes32 (contribWords op body), base, s)
    else
      let n := resultLen op len
      let (old, s) := combRows c (n / 512 + 2) base n s
      (bytes32 (combine op x.param.toNat (words32 old) (contribWords op body)), base, s)
  match deliverWrite s c [(off, bytes)] with
  | (.port, s) => (stClosed, s.modCore c (fun y => y.modQ q (fun z => closeQueue z true)))
  | (.data, s) => (stData, s)
  | (.ok, s) =>
    let k := { k with arrived := k.arrived + 1, bitmap := if x.ord then k.bitmap ||| 2 ^ index else k.bitmap }
    (stOk, s.modCore c (fun y => y.modQ q (fun z => { z with slots := tset cslotDef z.slots i k })))

/-- A contribution to an open combining queue (R260, R272 to R276). -/
def contribute (s : State) (c q : Nat) (hdr : Word) (payload : List Byte) : Nat × State :=
  let x := (s.core c).q q
  let op := x.op.toNat
  let h := hdr.toNat
  let key := bitsOf h 63 48
  let npart := bitsOf h 47 32
  let count := bitsOf h 31 16
  let index := bitsOf h 15 0
  if x.cap < (wouldBe op x.param.toNat payload.length npart + 15) / 16 + 1 then (stTooLong, s)
  else
    match contribLen op x.param.toNat payload.length npart with
    | none => (stShape, s)
    | some l =>
      let rows := if x.ord then (index + 1) * rowsUp l else rowsUp (resultLen op l)
      if count = 0 ∨ (if x.ord then 256 else 1024) < count ∨ count ≤ index ∨ x.slotRows < rows then (stShape, s)
      else
        match (slotIds x).find? (fun i => (x.slot i).open_ && decide ((x.slot i).key = key)) with
        | some i =>
          let k := x.slot i
          if k.len ≠ l ∨ k.count ≠ count then (stShape, s)
          else if x.ord && bitOf k.bitmap index then (stDup, s)
          else storeContribution s c q i k index l payload
        | none =>
          match (slotIds x).find? (fun i => !(x.slot i).used) with
          | none => (stFull, s)
          | some i =>
            storeContribution s c q i { used := true, key := key, count := count, npart := npart, len := l } index l payload

/-- Write words over slot rows, row by row: a row that is bad and covered in part keeps its poison (R155, R552). -/
def putRows (c : Nat) : Nat → Nat → List Byte → State → State
  | 0, _, _, s => s
  | f + 1, off, b, s =>
    if b.isEmpty then s
    else putRows c f (off + 512) (b.drop 512) (deliverWrite s c [(off, b.take 512)]).2

/-- Combine contributors 1, 2, … into the slot value, in index order. Every step reads its operands back from the slot rows
and keeps the value there, from the slot's first row on (R276, R552). DESIGN CHOICE (log 85): the place of the value, and
that the steps follow the last arrival. -/
def foldOrdered (c base op param len : Nat) : List Nat → State → State
  | [], s => s
  | j :: js, s =>
    let wide := resultLen op len
    let (old, s) := combRows c (wide / 512 + 2) base (if j = 1 then len else wide) s
    let (inc, s) := combRows c (len / 512 + 2) (base + 512 * (j * rowsUp len)) len s
    let v := combine op param (if j = 1 then contribWords op old else words32 old) (contribWords op inc)
    foldOrdered c base op param len js (putRows c (wide / 512 + 2) base (bytes32 v) s)

/-- The bytes of slot i's rows that delivering its result reads. -/
def slotSpan (x : QueueSt) (i : Nat) : Nat × Nat :=
  let k := x.slot i
  if x.ord then (slotByte x i, 512 * (k.count * rowsUp k.len)) else (slotByte x i, resultLen x.op.toNat k.len)

/-- The value of a complete slot, read back from its rows. -/
def slotValue (s : State) (c q i : Nat) : List Byte × State :=
  let x := (s.core c).q q
  let k := x.slot i
  let op := x.op.toNat
  let base := slotByte x i
  let n := resultLen op k.len
  if x.ord ∧ k.count ≤ 1 then
    let (b, s) := combRows c (k.len / 512 + 2) base k.len s
    (bytes32 (contribWords op b), s)
  else combRows c (n / 512 + 2) base n
    (if x.ord then foldOrdered c base op x.param.toNat k.len (countFrom 1 (k.count - 1)) s else s)

/-- Deliver the result of slot i, with no sender to answer: a row failure closes the queue (R265, R276). -/
def deliverResult (s : State) (c q i : Nat) : State :=
  let x := (s.core c).q q
  let k := x.slot i
  let (off, len) := slotSpan x i
  if portBlocks s c off len then s.modCore c (fun y => y.modQ q (fun z => closeQueue z true))
  else
    let (v, s) := slotValue s c q i
    let v := padTo 0 ((v.length + 15) / 16 * 16) v
    let hdr := BitVec.ofNat 64 (k.key * 2 ^ 48 + k.npart * 2 ^ 32 + k.count * 2 ^ 16)
    let sender := 3 * 2 ^ 30 + s.lat.id.toNat * 2 ^ 20 + c * 2 ^ 11
    let (st, s) := placeRecord s c q 2 sender hdr v
    if st = stOk then s.modCore c (fun y => y.modQ q (fun z => { z with slots := terase z.slots i }))
    else if st = stData then s.modCore c (fun y => y.modQ q (fun z => closeQueue z true))
    else s

/-- The lowest complete slot whose record has room (log 17). -/
def readySlot (x : QueueSt) : Option Nat :=
  (slotIds x).find? (fun i =>
    (x.slot i).done &&
      (match placeOf x ((resultLen x.op.toNat (x.slot i).len + 15) / 16 + 1) with
       | .at_ _ _ => true
       | _ => false))

/-! ## Delivery of a message (R260) -/

/-- The core takes no message: fenced, or the die not yet started (R260). -/
def coreUnreach (s : State) (c : Nat) : Bool := s.drowsy || s.coreFenced c || decide (512 ≤ c)

def deliver (s : State) (sender : Sender) (c q : Nat) (epoch : BitVec 16) (hdr : Word) (payload : List Byte) : Nat × State :=
  let x := s.core c
  let y := x.q q
  if coreUnreach s c then (stUnreach, s)
  else if epoch ≠ x.epoch then (stStale, s)
  else if !admits s.lat.id.toNat c y.scope sender then (stNowin, s)
  else if !y.opened then (stClosed, s)
  else if y.kind then contribute s c q hdr payload
  else placeRecord s c q 0 sender.bits hdr payload

/-! ## Opening and closing (R273, R287) -/

/-- The configuration may be opened. -/
def mayOpen (q : QueueSt) : Bool :=
  decide (q.base + 2 ^ q.log2 ≤ 8192)
  && (!q.kind ||
      (decide (q.slotRows ≠ 0) && decide (q.slotRow + (q.nslot.toNat + 1) * q.slotRows ≤ 8192) && decide (q.op ≠ 7)
       && (decide (q.op ≠ 5) || (decide (1 ≤ q.param.toNat) && decide (q.param.toNat ≤ 1022)))
       && (decide (q.op ≠ 6) || (decide (1 ≤ q.param.toNat) && decide (q.param.toNat ≤ 256)))))

/-- A write of MQ_CTL: the other fields only while the queue is closed; one that would open an invalid configuration is
ignored whole, the configuration judged with the KIND it writes (R287). -/
def writeMqCtl (q : QueueSt) (v : Half) : QueueSt :=
  if q.opened then (if v.getLsbD 0 then q else closeQueue q false)
  else
    let new := { q with thr := BitVec.toFin (v.extractLsb' 5 3), bind := v.getLsbD 4, kind := v.getLsbD 3, scope := v.extractLsb' 1 2 }
    if !v.getLsbD 0 then new
    else if mayOpen new then { new with opened := true, portErr := false }
    else q

/-- A write of MQ_BASE or MQ_SIZE sets HEAD and TAIL to 0; one of 11 to 15 to LOG2 is ignored. -/
def writeMqBase (q : QueueSt) (v : Half) : QueueSt :=
  if q.opened then q else { q with base := v.toNat % 8192, head := 0, tail := 0, recs := [], inServ := false }

def writeMqSize (q : QueueSt) (v : Half) : QueueSt :=
  let n := v.toNat % 16
  if q.opened ∨ 10 < n then q else { q with log2 := n, head := 0, tail := 0, recs := [], inServ := false }

def writeMqCcfg (q : QueueSt) (v : Half) : QueueSt :=
  if q.opened then q else
    { q with ord := v.getLsbD 31, op := v.extractLsb' 28 3, nslot := v.extractLsb' 24 4, param := v.extractLsb' 0 10 }

def writeMqCslot (q : QueueSt) (v : Half) : QueueSt :=
  if q.opened then q else { q with slotRows := bitsOf v.toNat 28 16, slotRow := bitsOf v.toNat 12 0 }

/-- CODE data: bits 55:49 read zero (R12, R70). -/
def codeMask : Word := 0xFF01FFFFFFFFFFFF
def writeMqHandler (q : QueueSt) (v : Word) : QueueSt := if q.opened then q else { q with handler := v &&& codeMask }

end Sys2Proof.Machine
end

