-- ==== Sys2Proof/Machine/Cinch.lean ====
section
/-! DEFINITION. Cinch barriers (R279 to R284, R288, R415): counting at the nodes and the root, release, completion at the
members, aborts. An arrival and a completion are separate events, so each stands in the state while it travels. -/

namespace Sys2Proof.Machine

def CoreSt.map (x : CoreSt) (g : Nat) : CinchMap := tget mapDef x.cinch g
def CoreSt.modMap (x : CoreSt) (g : Nat) (f : CinchMap → CinchMap) : CoreSt := { x with cinch := tmod mapDef x.cinch g f }
def ClusterSt.node (x : ClusterSt) (g : Nat) : CinchNode := tget nodeDef x.nodes g
def ClusterSt.modNode (x : ClusterSt) (g : Nat) (f : CinchNode → CinchNode) : ClusterSt :=
  { x with nodes := tmod nodeDef x.nodes g f }

/-- A node whose count reaches LOCAL reports, once an episode; LOCAL 0 never does (R279). -/
def CinchNode.met (n : CinchNode) : CinchNode :=
  if n.loc ≠ 0 ∧ n.loc ≤ n.arr ∧ !n.reported then { n with reported := true, sent := true } else n

/-- Completion lines that are not an episode's: OUT clears, ABORT is set as given, the line fires (R280, R283). -/
def complete (x : CoreSt) (g : Nat) (abort : Bool) : CoreSt :=
  let m := x.map g
  (x.modMap g (fun m => { m with out := false, abort := m.abort || abort, due := false })).fireAcq m.evline.toNat

/-- An episode of group g is open on the die. -/
def episodeOpen (s : State) (g : Nat) : Bool :=
  let r := s.rootOf g
  decide (r.arr + r.next + r.child + r.childNext ≠ 0) || r.reported
  || s.clusters.any (fun p => let n := p.2.node g; decide (n.arr + n.next ≠ 0) || n.reported)
  || s.cores.any (fun p => let m := p.2.map g; m.flight || m.cur || m.nxt)

/-- Abort of an open episode (R283). -/
def abortGroup (s : State) (g : Nat) : State :=
  if episodeOpen s g then
    let s := s.modRoot g (fun r => { r with arr := 0, next := 0, child := 0, childNext := 0, reported := false })
    let s := (countFrom 0 64).foldl (fun s k => s.modCluster k (fun x =>
      x.modNode g (fun n => { n with arr := 0, next := 0, reported := false, sent := false }))) s
    (countFrom 0 512).foldl (fun s c =>
      let m := (s.core c).map g
      if m.flight || m.cur || m.nxt then
        s.modCore c (fun x => complete (x.modMap g (fun m => { m with flight := false, cur := false, nxt := false })) g true)
      else s) s
  else s

/-- The node of a cluster sees the release: its next count becomes current (R281). -/
def nodeRelease (n : CinchNode) : CinchNode :=
  if n.reported then CinchNode.met { n with par := !n.par, arr := n.next, next := 0, reported := false, sent := false } else n

/-- A member core of a released episode: those counted, and members that had nothing to count, complete; an arrival that
was counted for the next episode is then of the current one (R281). -/
def mapRelease (m : CinchMap) : CinchMap :=
  let due := m.due || m.cur || (m.member && !m.flight && !m.nxt)
  { m with due := due, cur := m.nxt, nxt := false }

/-- The root releases the group: down to its nodes and members, and to child devices (R279). -/
def releaseGroup (s : State) (g : Nat) : State :=
  let r := s.rootOf g
  let s := s.modRoot g (fun r => { r with par := !r.par, arr := r.next, next := 0, child := r.childNext, childNext := 0, reported := false })
  let s := (countFrom 0 64).foldl (fun s k => s.modCluster k (fun x => x.modNode g nodeRelease)) s
  let s := (countFrom 0 512).foldl (fun s c => s.modCore c (fun x => x.modMap g mapRelease)) s
  if r.children ≠ 0 then s.out (.cinchRelease g) else s

/-- A report meets UNREACH (R415). -/
def reportLost (s : State) (g : Nat) : State :=
  abortGroup { s with lat := { s.lat with cinchLost := s.lat.cinchLost + 1 } } g

/-- The parent is two hops away: the device between may have no link to it, which is free (R407, R415, log 86). -/
def lostOnTheWay (s : State) (d : Nat) : Bool × State :=
  let me := s.lat.id.toNat
  if (minimalHop me d).last then (false, s)
  else
    let (w, s) := drawFree s
    (w.getLsbD 0, s)

/-- The root reports to its parent, on the minimal route (R415). A link in Perica format takes no cinch traffic: the report
has NOWIN and does not leave, and the group stays open (R418). -/
def reportUp (s : State) (g : Nat) : State :=
  let d := (s.rootOf g).parent
  let h := minimalHop s.lat.id.toNat d
  let waits := s.modRoot g (fun r => { r with reported := true })
  if !routeTo s true d then reportLost s g
  else if !entryUsable s false (routeEntry s h.entry) then waits
  else
    let (lost, w) := lostOnTheWay waits d
    if lost then reportLost w g else w.out (.cinchReport d g)

/-- The root acts when both counts are met (R279); a report that cannot reach its parent aborts the group (R415). -/
def rootMet (s : State) (g : Nat) : State :=
  let r := s.rootOf g
  if r.reported ∨ (r.clusters = 0 ∧ r.children = 0) ∨ r.arr < r.clusters ∨ r.child < r.children then s
  else if r.parent = 0x3FF then releaseGroup s g
  else reportUp s g

/-- An arrival reaches the node of the core's cluster (R279, R281). -/
def nodeArrival (s : State) (c g : Nat) : State :=
  let m := (s.core c).map g
  if !m.flight then s
  else
    let k := clusterOf c
    let n := (s.cluster k).node g
    let late := n.reported
    let s := s.modCore c (fun x => x.modMap g (fun m => { m with flight := false, cur := m.cur || !late, nxt := m.nxt || late }))
    s.modCluster k (fun x => x.modNode g (fun n =>
      if late then { n with next := n.next + 1 } else CinchNode.met { n with arr := n.arr + 1 }))

/-- A report reaches the root (R279), unless a fault has put it out of service (R510): a node's, a child device's, or the parent's release. -/
def rootReport (s : State) (src : CinchFrom) (g : Nat) : State :=
  if s.cp.rootOut then s
  else match src with
  | .node k =>
    if ((s.cluster k.val).node g).sent then
      let s := s.modCluster k.val (fun x => x.modNode g (fun n => { n with sent := false }))
      rootMet (s.modRoot g (fun r => if r.reported then { r with next := r.next + 1 } else { r with arr := r.arr + 1 })) g
    else s
  | .child =>
    rootMet (s.modRoot g (fun r => if r.reported then { r with childNext := r.childNext + 1 } else { r with child := r.child + 1 })) g
  | .parent =>
    if (s.rootOf g).reported then rootMet (releaseGroup s g) g else s

/-- A completion reaches a member core (R279, R280). -/
def cinchComplete (s : State) (c g : Nat) : State :=
  if ((s.core c).map g).due then s.modCore c (fun x => complete x g false) else s

/-- Writes of the configuration registers (R283, R288). -/
def writeNode (s : State) (k g : Nat) (v : Half) : State :=
  let n := v.toNat % 16
  let s := abortGroup s g
  if n ≤ 8 then s.modCluster k (fun x => x.modNode g (fun y => { y with loc := n })) else s

def writeRoot (s : State) (g : Nat) (v : Half) : State :=
  let n := v.toNat % 128
  let s := abortGroup s g
  if n ≤ 64 then s.modRoot g (fun r => { r with clusters := n }) else s

def writeXcfg (s : State) (g : Nat) (v : Half) : State :=
  let n := bitsOf v.toNat 9 0
  let s := abortGroup s g
  s.modRoot g (fun r => { r with en := v.getLsbD 31, parent := bitsOf v.toNat 30 21, children := if n ≤ 624 then n else r.children })

/-- A write of CINCH_MAP aborts nothing (R283). -/
def writeCinchMap (x : CoreSt) (g : Nat) (v : Half) : CoreSt :=
  x.modMap g (fun m => { m with member := v.getLsbD 4, evline := v.extractLsb' 0 4 })

end Sys2Proof.Machine
end

