-- ==== Sys2Proof/Machine/DmaDesc.lean ====
section
/-! DEFINITION. DMA descriptors (R227, R228), and the stop of a channel (R237 to R240). -/

namespace Sys2Proof.Machine

/-- A side of a descriptor: selector, scratchpad or not, reserved bits, offset, strides of the three loops. -/
structure DescSide where
  sel : Nat
  spad : Bool
  rsvd : Nat
  ofs : Nat
  s0 : Int
  s1 : Int
  s2 : Int
  deriving DecidableEq, Repr

/-- The fields of R227. -/
structure Desc where
  src : DescSide
  dst : DescSide
  l0 : Nat
  l1 : Nat
  l2 : Nat
  rsvdL : Nat
  esize : Nat
  rsvdE : Nat
  link : Bool
  next : Nat
  rsvdN : Nat
  cls : Nat
  start : Nat
  sarg : Nat
  halfEn : Bool
  fullEn : Bool
  hline : Nat
  fline : Nat
  rsvdZ : Nat
  deriving DecidableEq, Repr

/-- A little-endian field of a descriptor. -/
def descField (b : List Byte) (o n : Nat) : Nat := leNat (slice b o n)

def descSide (b : List Byte) (o s : Nat) : DescSide :=
  let w := descField b o 8
  { sel := w / 2 ^ 56, spad := bitOf w 55, rsvd := bitsOf w 54 48, ofs := w % 2 ^ 48,
    s0 := signedOf 40 (descField b s 5), s1 := signedOf 40 (descField b (s + 5) 5), s2 := signedOf 40 (descField b (s + 10) 5) }

def descOf (b : List Byte) : Desc :=
  let l0 := descField b 0x32 4
  let e := descField b 0x36 2
  let w := descField b 0x38 8
  { src := descSide b 0 0x10, dst := descSide b 8 0x1F,
    l0 := bitsOf l0 20 0, l1 := descField b 0x30 2, l2 := descField b 0x2E 2, rsvdL := l0 / 2 ^ 21,
    esize := bitsOf e 12 0, rsvdE := e / 2 ^ 13,
    link := bitOf w 63, next := bitsOf w 62 47, rsvdN := bitsOf w 46 40, cls := bitsOf w 39 38,
    start := bitsOf w 37 36, sarg := bitsOf w 35 12, halfEn := bitOf w 11, fullEn := bitOf w 10,
    hline := bitsOf w 9 6, fline := bitsOf w 5 2, rsvdZ := bitsOf w 1 0 }

/-- Malformed under R228, with the zero fields that R227 requires of SARG. -/
def Desc.malformed (d : Desc) (ch : Nat) : Bool :=
  decide (d.src.rsvd ≠ 0 ∨ d.dst.rsvd ≠ 0 ∨ d.rsvdL ≠ 0 ∨ d.rsvdE ≠ 0 ∨ d.rsvdN ≠ 0 ∨ d.rsvdZ ≠ 0)
  || decide (d.esize = 0 ∨ 4096 < d.esize) || decide (2 ^ 20 < d.l0) || decide (d.start = 3)
  || (d.src.spad && decide (d.src.sel ≠ 0)) || (d.dst.spad && decide (d.dst.sel ≠ 0))
  || (decide (d.start = 0) && decide (d.sarg ≠ 0))
  || (decide (d.start = 2) && (decide (bitsOf d.sarg 7 4 ≠ 0) || decide (d.sarg % 16 = ch)))

/-- The byte offset of an element on a side: a signed 64-bit value (R229). -/
def DescSide.at_ (x : DescSide) (i0 i1 i2 : Nat) : Int :=
  signedOf 64 (unsignedOf 64 ((x.ofs : Int) + i0 * x.s0 + i1 * x.s1 + i2 * x.s2))

/-- The word that DMA_SRC or DMA_DST shows of an element, in the layout of SRC (R245). -/
def DescSide.word (x : DescSide) (i0 i1 i2 : Nat) : Word :=
  BitVec.ofNat 64 (x.sel * 2 ^ 56 + b2n x.spad * 2 ^ 55 + unsignedOf 48 (x.at_ i0 i1 i2))

def Desc.empty (d : Desc) : Bool := decide (d.l0 = 0 ∨ d.l1 = 0 ∨ d.l2 = 0)

/-- Fire a channel's full line, if its descriptor has one. -/
def fireFull (x : CoreSt) (ch : Nat) : CoreSt :=
  let d := descOf (x.ch ch).desc
  if d.fullEn then x.fire d.fline else x

/-- A channel becomes STOPPED with its status; the current descriptor's full line fires (R237). -/
def dmaEnd (x : CoreSt) (ch : Nat) : CoreSt :=
  fireFull (x.modCh ch (fun d => { d with run := .stopped, buf := none, ending := none, reqs := [], got := [], short := false })) ch

/-- A failure or a stop: the status is recorded, nothing more is issued; the channel becomes STOPPED once its issued
requests have their responses (R238). -/
def dmaFail (x : CoreSt) (ch : Nat) (status : BitVec 4) (cause : Nat) : CoreSt :=
  x.modCh ch (fun d =>
    let left := d.reqs.filter (fun r => decide (r.slot < 128) || r.answer.isSome)
    { d with status := status, cause := BitVec.ofNat 8 cause, ending := some status, reqs := left
             short := d.short || decide (left.length < d.reqs.length) })

/-- A stop with ABORTED (R239): a wait for a start ends at once; an idle, stopped or ending channel is left alone. -/
def dmaAbort (x : CoreSt) (ch : Nat) : CoreSt :=
  let d := x.ch ch
  if d.ending.isSome then x
  else match d.run with
    | .waitStart => dmaEnd (dmaFail x ch 1 0) ch
    | .run => dmaFail x ch 1 0
    | _ => x

/-- A fence stops every channel (R240). -/
def dmaFence (x : CoreSt) : CoreSt :=
  (countFrom 0 16).foldl (fun x ch =>
    match (x.ch ch).run with
    | .waitStart | .run => dmaEnd (if (x.ch ch).ending.isSome then x else dmaFail x ch 1 0) ch
    | _ => x) x

end Sys2Proof.Machine
end

