-- ==== Sys2Proof/Machine/RegWrite.lean ====
section
/-! DEFINITION. What a write of each register does (R10 to R12, R519 to R521, R526 to R530, and the register rules of the
chapters), and the writes as commands. -/

namespace Sys2Proof.Machine

/-- The core stops and the host is told, whatever the policy (R161, R550). -/
def coreMachineCheck (s : State) (c : Nat) : State :=
  (s.modCore c (fun x => { stopOthers x none with stopped := true })).faultedCore c false
    (causeWord 0 0 { cause := .machineCheck } Cause.machineCheck.code)

/-! ## Core register block -/

/-- A flush or invalidation begins (R162): every dirty line goes into a write-back; dirty lines struck by parity are
lost and stop the core (R161). -/
def cacheAction (s : State) (c : Nat) (inval : Bool) : State :=
  let (lost, s) := startWbs s c (wbClass s c 0) .action (dcDirty (s.core c).dc)
  let s := s.modDc c (fun d => { d with action := some (inval || d.action.getD false) })
  if lost.isEmpty then s else coreMachineCheck s c

/-- A full sweep of the scratchpad is requested (R157). -/
def spadSweep (x : CoreSt) : CoreSt :=
  { x with spad := { x.spad with sweep := [(0, 2048), (1, 2048), (2, 2048), (3, 2048)] } }

/-- Bank groups whose owner differs. -/
def changedGroups (old new : BitVec 8) : List Nat :=
  (countFrom 0 4).filter (fun g => decide (old.extractLsb' (2 * g) 2 ≠ new.extractLsb' (2 * g) 2))

/-- The masked write of SPAD_PORTMAP (R11, R164). -/
def portmapWrite (old : BitVec 8) (v : Half) : BitVec 8 :=
  let mask := v.extractLsb' 16 8
  let new := (old &&& ~~~mask) ||| (v.extractLsb' 0 8 &&& mask)
  (countFrom 0 4).foldl (fun r g =>
    if new.extractLsb' (2 * g) 2 = 3 then
      (r &&& ~~~(3#8 <<< (2 * g))) ||| ((old.extractLsb' (2 * g) 2).zeroExtend 8 <<< (2 * g))
    else r) new

/-- Scratchpad rows of a changed group that an unfinished engine instruction still uses (R143). -/
def groupBusy (x : CoreSt) (c g : Nat) : Bool :=
  let sp := Span.spad (g * 2048 * 512) (2048 * 512)
  x.mtx.ops.any (fun o => hits (o.spans c) sp) || x.vec.ops.any (fun o => hits o.spans sp)

/-- SPAD_, KEEP_ and cache registers (R164 to R166). -/
def writeSpad (s : State) (c o : Nat) (v : Half) : RegAns × State :=
  let x := s.core c
  let put := fun (f : CoreSt → CoreSt) => (RegAns.ok, s.modCore c f)
  let n := v.toNat
  if 0x440 ≤ o ∧ o < 0x480 then
    let t := (o - 0x440) / 8
    let w := x.win t
    let w := if o % 8 = 0 then { w with base := n % 8192 } else { w with bound := min (n % 16384) 8192 }
    put (fun x => { x with wins := tset Window.reset x.wins t w })
  else if 0x500 ≤ o ∧ o < 0x600 then
    let k := (o - 0x500) / 16
    let keep := fun (f : Keeper → Keeper) => put (fun x => { x with keep := { x.keep with k := tmod keepDef x.keep.k k f } })
    match o % 16 with
    | 0 => keep (fun y => { y with base := n % 8192 })
    | 4 => keep (fun y => { y with bound := min (n % 16384) 8192 })
    | 8 => keep (fun y => { y with scope := if bitsOf n 4 3 = 3 then y.scope else BitVec.ofNat 2 (bitsOf n 4 3),
                                   wr := bitOf n 2, rd := bitOf n 1, en := bitOf n 0 })
    | _ => (.ok, s)
  else match o with
    | 0x400 =>
      let new := portmapWrite x.spad.portmap v
      if (changedGroups x.spad.portmap new).any (groupBusy x c) then (.wait, s)
      else put (fun x => { x with spad := { x.spad with portmap := new } })
    | 0x404 => put (fun x =>
        let x := { x with spad := { x.spad with period := v.extractLsb' 0 8 } }
        if bitOf n 8 then spadSweep x else x)
    | 0x608 => put (fun x => { x with keep := { x.keep with even := bitOf n 4, evline := v.extractLsb' 0 4 } })
    | 0x680 => (.ok, if bitOf n 1 then cacheAction s c true else if bitOf n 0 then cacheAction s c false else s)
    | 0x688 => if bitOf n 0 then put (fun x => { x with icache := [], icStruck := [] }) else (.ok, s)
    | _ => (.ok, s)

/-- MTX_SPCFG and MTX_ARM (R196, R204). -/
def writeMtx (s : State) (c o : Nat) (v : Half) : RegAns × State :=
  let x := s.core c
  let n := v.toNat
  match o with
  | 0x708 => (.ok, s.modCore c (fun x => { x with mtx := { x.mtx with spEven := bitOf n 4, spLine := v.extractLsb' 0 4 } }))
  | 0x70C =>
    let before := (x.mtx.ops.filter (fun y => decide (mtxUnit y.i = 2))).map MtxOp.t
    (.ok, s.modCore c (fun x => { x with mtx :=
      if before.isEmpty then x.mtx.armNow (v.extractLsb' 0 3)
      else { x.mtx with arms := x.mtx.arms ++ [(v.extractLsb' 0 3, before)] } }))
  | _ => (.ok, s)

def drainStoch : Instr → Bool
  | .tDrain _ _ _ _ _ _ _ cvm _ _ => cvmRnd cvm
  | _ => false

/-- Stochastic drains already issued keep the key and counter they would have used (R191, R220). -/
def snapDrains (x : CoreSt) : List MtxOp → Nat → List MtxOp
  | [], _ => []
  | o :: r, k =>
    if drainStoch o.i then
      let (k0, k1, ctr) := rngOf x.vec 4
      { o with rng := some (o.rng.getD (k0, k1, (ctr + 128 * k) % 2 ^ 128)) } :: snapDrains x r (k + 1)
    else o :: snapDrains x r k

def isCvt : Instr → Bool
  | .vCvt _ _ _ _ _ _ _ => true
  | _ => false

/-- VEC_RNG_KEY, VEC_RNG_CTR and VEC_ARM (R216, R220, R226). -/
def writeVec (s : State) (c o : Nat) (v : Half) : RegAns × State :=
  let x := s.core c
  let snap := fun (x : CoreSt) => { x with mtx := { x.mtx with ops := snapDrains x x.mtx.ops 0 } }
  if o = 0x800 ∨ o = 0x804 then
    (.ok, s.modCore c (fun x => let x := snap x
      { x with vec := { x.vec with key := tset halfDef x.vec.key ((o - 0x800) / 4) v } }))
  else if 0x810 ≤ o ∧ o < 0x830 then
    (.ok, s.modCore c (fun x => let x := snap x
      { x with vec := { x.vec with ctr := tset halfDef x.vec.ctr ((o - 0x810) / 4) v } }))
  else if o = 0x838 ∧ v.getLsbD 0 then
    let before := x.vec.ops.length - (x.vec.ops.reverse.takeWhile (fun y => !isCvt y.i)).length
    (.ok, s.modVec c (fun y => if before = 0 then { y with amaxCum := 0 } else { y with arms := y.arms ++ [before] }))
  else (.ok, s)

/-- MQ_ registers (R287). -/
def writeMq (s : State) (c q o : Nat) (v : Half) : State :=
  let put := fun f => s.modCore c (fun x => x.modQ q f)
  match o with
  | 0x00 => put (writeMqBase · v)
  | 0x04 => put (writeMqSize · v)
  | 0x10 => deadlockOver c (put (writeMqCtl · v))
  | 0x14 => put (writeMqCcfg · v)
  | 0x20 => put (writeMqCslot · v)
  | _ => s

/-- End of a halt (R514). -/
def debugResume (x : CoreSt) : CoreSt := { x with dbg := { x.dbg with haltReq := false, halted := false, stepping := none, stepOut := false } }

/-- CORE_DBG_CTL, CORE_DBG_CMD and CORE_DBG_MTX (R514, R515, R518). -/
def writeDbg (s : State) (c o : Nat) (v : Half) : State :=
  let n := v.toNat
  match o with
  | 0x1A00 => s.modCore c (fun x => { x with dbg := { x.dbg with tqmask := v.extractLsb' 20 8 } })
  | 0x1A04 =>
    let step := v.extractLsb' 1 3
    let s := s.modCore c (fun x => { x with dbg := { x.dbg with step := step } })
    if bitOf n 0 then
      let halted := (s.core c).dbg.halted
      let s := haltCore c s
      if bitOf n 4 && halted then
        s.modCore c (fun x => { x with dbg := { x.dbg with stepping := some (BitVec.toFin step), waited := false, stepOut := false } })
      else s
    else s.modCore c debugResume
  | 0x1A50 => s.modCore c (fun x => { x with dbg := { x.dbg with item := v.extractLsb' 0 4 } })
  | _ => s

/-! ## Thread banks (R527) -/

/-- A tagged word that R70 and R74 allow. -/
def wordOk (w : TWord) : Bool := !(decide (w.tag = .empty) && decide (w.data ≠ 0)) && formOk w.tag w.data

/-- A bank register after a write of its value word (`tag` false) or of its tag word; none where it is discarded. -/
def bankNew (old : TWord) (tag : Bool) (v : Word) : Option TWord :=
  if tag then
    match Tag.ofNum (v.toNat % 16) with
    | some g => if wordOk ⟨g, old.data⟩ then some ⟨g, old.data⟩ else none
    | none => none
  else if wordOk ⟨old.tag, v⟩ then some ⟨old.tag, v⟩ else none

/-- Write a 64-bit word of a thread bank. -/
def writeBank (x : CoreSt) (n : Nat) (shadow : Bool) (o : Nat) (v : Word) : CoreSt :=
  match bankNew (bankWord x n shadow o) (decide (o % 16 = 8)) v with
  | none => x
  | some w =>
    let frozen := (decide (n = 0) && x.inShadow) != shadow
    let r := o / 16
    if r = 0 then x
    else if r < 32 then
      if frozen then { x with shadow := { x.shadow with regs := tset regDef x.shadow.regs r w } }
      else x.modT n (fun t => t.setReg r w)
    else
      let addr := fun (f : ThreadSt → ThreadSt) (g : Bank → Bank) =>
        if w.tag ≠ .addr then x
        else if frozen then { x with shadow := g x.shadow } else x.modT n f
      match r with
      | 0x20 => if shadow ∨ w.tag ≠ .addr then x else x.modT n (fun t => { t with pc := w.data })
      | 0x21 => addr (fun t => { t with dsp := w.data }) (fun b => { b with dsp := w.data })
      | 0x22 => addr (fun t => { t with rtp := w.data }) (fun b => { b with rtp := w.data })
      | 0x23 => if shadow ∨ w.tag ≠ .code then x else x.modT n (fun t => { t with lnk := w })
      | 0x24 => if shadow ∨ w.tag ≠ .int then x else x.modT n (fun t => { t with compat := w.data.getLsbD 0 })
      | 0x25 =>
        if w.tag ≠ .int then x
        else if frozen then { x with shadow := { x.shadow with lc := w.data } } else x.modT n (fun t => { t with lc := w.data })
      | 0x26 => addr (fun t => { t with ls := w.data }) (fun b => { b with ls := w.data })
      | 0x27 => addr (fun t => { t with le := w.data }) (fun b => { b with le := w.data })
      | _ => x

/-! ## The debug record window (R513, R518, R202) -/

/-- A tile changes: a reuse latch that holds it is no longer valid (R171, R172, R179). -/
def MtxSt.setTile (x : MtxSt) (t : Nat) (v : Tile) : MtxSt :=
  let keep := fun (l : Option Reuse) => if l.map (fun r => r.tile.val) = some t then none else l
  { x with tiles := tset tileDef x.tiles t v, reuseA := keep x.reuseA, reuseB := keep x.reuseB }

/-- The record of an item with its data part and what it holds behind it, whatever its header says. -/
def fullRecord (m : MtxSt) (item : Nat) : List Byte :=
  if item < 8 then
    let t := tget tileDef m.tiles item
    leBytes 8 t.conf.toNat ++ ((tileRecord t).take 64).drop 8 ++ readBytes t.data 0 16384
  else
    let a := tget accDef m.accs (item - 8)
    (accRecord a 2).take 64
    ++ (countFrom 0 1024).flatMap (fun i => leBytes 4 (tget elDef a.els i).total.toNat)
    ++ (countFrom 0 1024).flatMap (fun i => leBytes 4 (runWord a.g (tget elDef a.els i).run))

/-- A tile with everything that a record's bytes say, also behind CFG 0 and FULL 0; none where the header is malformed. -/
def tileOfBytes (b : List Byte) : Option Tile :=
  let w1 := leNat (slice b 8 8)
  if w1 % 256 ≠ 1 ∨ w1 / 1024 ≠ 0 ∨ (slice b 16 48).any (fun y => decide (y ≠ 0)) then none
  else
    some { data := writeBytes [] 0 (slice b 64 16384), conf := BitVec.ofNat 64 (leNat (b.take 8)), cfg := bitOf w1 8, full := bitOf w1 9 }

/-- A tile from its record: an EMPTY tile's data is zero (R203). DESIGN CHOICE (log 98): a nonzero word 0 beside CFG 0 is
accepted and dropped. -/
def tileOfRecord (b : List Byte) : Option Tile :=
  (tileOfBytes b).map (fun t => { t with data := if t.full then t.data else [], conf := if t.cfg then t.conf else 0 })

/-- An accumulator set from its record. -/
def setOfRecord (b : List Byte) : Option AccSet :=
  if (slice b 24 40).any (fun y => decide (y ≠ 0)) || decide (2 ^ 33 ≤ leNat (slice b 8 8)) then none
  else
    let word := fun (o : Nat) => BitVec.ofNat 64 (leNat (slice b o 8))
    let words := fun (o : Nat) => (chunksOf 4 1024 (slice b o 4096)).map leNat
    accOfRecord (leNat (b.take 8)) 2 (word 8) (word 16) (words 64) (words 4160)

/-- Bytes of the record window written: the item becomes what its record then says, if that is a record. A tile keeps what is
written behind CFG 0 and FULL 0 until they are set (R513, log 36), and no latch holds it any longer. -/
def writeRecord (m : MtxSt) (item off : Nat) (b : List Byte) : MtxSt :=
  let r := fullRecord m item
  let r := r.take off ++ b ++ r.drop (off + b.length)
  if item < 8 then
    match tileOfBytes r with
    | some t => m.setTile item t
    | none => m
  else if item < 10 then
    match setOfRecord r with
    | some a => { m with accs := tset accDef m.accs (item - 8) a }
    | none => m
  else m

/-! ## 32-bit and 64-bit registers of a core -/

/-- Run a meaning in a register write; one that must wait makes the write wait. -/
def regM (m : M Unit) (s : State) : RegAns × State :=
  match runM m s with
  | (.ok _, s') => (.ok, s')
  | (.error _, _) => (.wait, s)

/-- THR_CTL (R112, R113): the program cannot command thread 0. -/
def writeThrCtl (s : State) (own : Bool) (c n : Nat) (v : Half) : RegAns × State :=
  let s := s.modCore c (fun x => x.modT n (fun t => { t with pri := v.extractLsb' 4 2 }))
  let t : Tid := ⟨Fin.ofNat 512 c, Fin.ofNat 8 n⟩
  if own ∧ n = 0 then (.ok, s)
  else match v.toNat % 8 with
    | 1 => regM (thrCommand t .start) s
    | 2 => regM (thrCommand t .stop) s
    | 3 => regM (thrCommand t .resume) s
    | 4 => regM (thrCommand t .kill) s
    | _ => (.ok, s)

/-- A 4-byte write to a 32-bit register of core `c`; `own`: the writer is the core itself. -/
def writeCore32 (s : State) (own : Bool) (c o : Nat) (v : Half) : RegAns × State :=
  let n := v.toNat
  if o = 0 then (.ok, s.modCore c (fun x => { x with policyStop := bitOf n 0 }))
  else if o = 8 then (.ok, s.modCore c (fun x => { x with gateCount := min (n % 32768) 16384 }))
  else if 0x100 ≤ o ∧ o < 0x300 then
    let t := (o - 0x100) / 0x40
    match (o - 0x100) % 0x40 with
    | 0x00 => writeThrCtl s own c t v
    | 0x08 => (.ok, if t = 0 then s else s.modCore c (fun x => x.modT t (fun y => { y with maxpriv := bitOf n 0 })))
    | _ => (.ok, s)
  else if 0x400 ≤ o ∧ o < 0x690 then writeSpad s c o v
  else if 0x700 ≤ o ∧ o < 0x780 then writeMtx s c o v
  else if 0x800 ≤ o ∧ o < 0x880 then writeVec s c o v
  else if 0x900 ≤ o ∧ o < 0xD00 then
    (.ok, if (o - 0x900) % 0x40 = 4 ∧ bitOf n 0 then s.modCore c (fun x => dmaAbort x ((o - 0x900) / 0x40)) else s)
  else if o = 0xE00 then (.ok, s.modCore c (fun x => { x with tclass := v.extractLsb' 0 16 }))
  else if 0x1000 ≤ o ∧ o < 0x1800 then (.ok, writeMq s c ((o - 0x1000) / 0x40) ((o - 0x1000) % 0x40) v)
  else if 0x1900 ≤ o ∧ o < 0x1A00 then (.ok, s.modCore c (fun x => writeCinchMap x ((o - 0x1900) / 4) v))
  else if 0x1A00 ≤ o ∧ o < 0x1A54 then (.ok, writeDbg s c o v)
  else if 0x10000 ≤ o ∧ o < 0x14040 ∧ (s.core c).dbg.halted then
    (.ok, s.modCore c (fun x => { x with mtx := writeRecord x.mtx x.dbg.item.toNat (o - 0x10000) (leBytes 4 n) }))
  else (.ok, s)

/-- Pointers in the layout of CORE_EXCVEC (R136): bits 55:48 read zero. -/
def vecMask : Word := 0xFF00FFFFFFFFFFFF

/-- An 8-byte write to a 64-bit register of core `c`. -/
def writeCore64 (s : State) (c o : Nat) (v : Word) : State :=
  let put := fun f => s.modCore c f
  if o = 0x10 then put (fun x => { x with gateBase := v })
  else if o = 0x18 then put (fun x => { x with excvec := v &&& vecMask })
  else if o = 0x20 then put (fun x => { x with dfvec := v &&& vecMask })
  else if o = 0x28 then put (fun x => { x with emstk := v &&& vecMask })
  else if 0x100 ≤ o ∧ o < 0x300 then
    let thr := fun (f : ThreadSt → ThreadSt) => put (fun x => x.modT ((o - 0x100) / 0x40) f)
    match (o - 0x100) % 0x40 with
    | 0x10 => thr (fun t => { t with entry := v &&& codeMask })
    | 0x18 => thr (fun t => { t with segt := v })
    | 0x20 => thr (fun t => { t with ssegt := v })
    | 0x28 => thr (fun t => { t with sdsp := v &&& vecMask })
    | 0x30 => thr (fun t => { t with srtp := v &&& vecMask })
    | _ => s
  else if 0x1000 ≤ o ∧ o < 0x1800 then
    if (o - 0x1000) % 0x40 = 0x18 then put (fun x => x.modQ ((o - 0x1000) / 0x40) (writeMqHandler · v)) else s
  else if 0x1A10 ≤ o ∧ o < 0x1A30 then
    put (fun x => { x with dbg := { x.dbg with bp := tset wordDef x.dbg.bp ((o - 0x1A10) / 8) v } })
  else if 0x1A30 ≤ o ∧ o < 0x1A50 then
    let n := (o - 0x1A30) / 16
    if o % 16 = 0 then put (fun x => { x with dbg := { x.dbg with wp := tset wordDef x.dbg.wp n v } })
    else put (fun x => { x with dbg := { x.dbg with wpc := tset wordDef x.dbg.wpc n (v &&& 0xFF03FFFFFFFFFFFF) } })
  else if 0x4000 ≤ o ∧ o < 0x6000 then
    put (fun x => writeBank x ((o - 0x4000) / 0x400) false ((o - 0x4000) % 0x400) v)
  else if 0x6000 ≤ o ∧ o < 0x6400 then put (fun x => writeBank x 0 true (o - 0x6000) v)
  else s

/-- An aligned 8-byte offset of a core block that holds one 64-bit register. -/
def coreIs64 (o : Nat) : Bool :=
  decide (o = 0x10 ∨ o = 0x18 ∨ o = 0x20 ∨ o = 0x28)
  || (decide (0x100 ≤ o ∧ o < 0x300) && decide (0x10 ≤ (o - 0x100) % 0x40 ∧ (o - 0x100) % 0x40 < 0x38))
  || (decide (0x900 ≤ o ∧ o < 0xD00) && (let r := (o - 0x900) % 0x40; decide (r = 8 ∨ r = 0x18 ∨ r = 0x20)))
  || (decide (0x1000 ≤ o ∧ o < 0x1800) && decide ((o - 0x1000) % 0x40 = 0x18))
  || decide (0x1A10 ≤ o ∧ o < 0x1A50) || decide (0x2000 ≤ o ∧ o < 0x3000) || decide (0x4000 ≤ o ∧ o < 0x6400)

/-! ## Cluster block (R283, R398, R493, R528) -/

/-- A token bucket written (R391, R398): tokens fill when EN is set. -/
def writeBucket (clock : Nat) (b : Bucket) (v : Half) : Bucket :=
  let n := v.toNat
  let depth := max 9 (min 32 (bitsOf n 23 16))
  let en := bitOf n 31
  let set := en && !b.en
  { en := en, depth := depth, rate := n % 65536, tokens := if set then depth else b.tokens, since := if set then clock else b.since }

/-- Zero written as one. -/
def orOne (n : Nat) : Nat := if n = 0 then 1 else n

/-- LOAD_HINT of each quadrant: high while any of its clusters holds UP (R16, R487). -/
def quadrantOf (k : Nat) : Nat := 2 * (k / 8 / 4) + k % 8 / 4
def loadHints (s : State) : BitVec 4 :=
  BitVec.ofNat 4 ((countFrom 0 4).foldl (fun v q =>
    v + b2n ((countFrom 0 64).any (fun k => decide (quadrantOf k = q) && (s.cluster k).hintUp)) * 2 ^ q) 0)
def State.setHint (s : State) (k : Nat) (up : Bool) : State :=
  let s := s.modCluster k (fun x => { x with hintUp := up })
  { s with pwr := { s.pwr with loadHint := loadHints s } }

def writeCluster32 (s : State) (k o : Nat) (v : Half) : State :=
  let n := v.toNat
  let put := fun f => s.modCluster k f
  if 0x200 ≤ o ∧ o < 0x300 then writeNode s k ((o - 0x200) / 4) v
  else if 0x400 ≤ o ∧ o < 0x440 then
    let i := (o - 0x400) / 8
    if o % 8 = 0 then put (fun x => { x with meshTb := tmod bucketDef x.meshTb i (writeBucket x.pacer · v) })
    else put (fun x => { x with reinTb := tmod bucketDef x.reinTb i (writeBucket x.pacer · v) })
  else match o with
    | 0x440 => if n % 65536 = 0 then s else put (fun x => { x with tbwin := v.extractLsb' 0 16 })
    | 0x444 =>
      let w := orOne (bitsOf n 23 16) * 65536 + orOne (bitsOf n 15 8) * 256 + orOne (bitsOf n 7 0)
      put (fun x => { x with wrr := BitVec.ofNat 24 w })
    | 0x448 => put (fun x => { x with retryMax := orOne (bitsOf n 19 16), retryTimeout := orOne (n % 65536) })
    | 0x44C => put (fun x => { x with mark := v.extractLsb' 0 4 })
    | 0x500 => s.setHint k (bitOf n 0)
    | _ => s

def clusterHasReg (o : Nat) : Bool :=
  decide ((0x200 ≤ o ∧ o < 0x300) ∨ (0x400 ≤ o ∧ o < 0x450) ∨ (0x460 ≤ o ∧ o < 0x478))

/-- The command processor and the management plane. -/
def isCtlAgent : Agent → Bool
  | .cp | .mgmt => true
  | _ => false

/-- The core an access comes from. -/
def agentCore : Agent → Option Nat
  | .thread t => some t.core.val
  | .dma c => some c.val
  | _ => none

def clusterWriteOk (a : Agent) (k o : Nat) : RegAns :=
  if o = 0x500 then
    (if isCtlAgent a || decide ((agentCore a).map clusterOf = some k) then .ok else .nowin)
  else if clusterHasReg o then (if isCtlAgent a then .ok else .nowin)
  else .ok

/-! ## Slice block (R325, R366, R399) -/


def sliceSectors : Nat := 0x300000000 / 32

/-- A full sweep of a slice is requested (R320). -/
def sliceSweep (x : SliceSt) : SliceSt := { x with sweepLeft := sliceSectors }

def writeSkvCtl (k : SkvSt) (v : Half) : SkvSt :=
  let n := v.toNat
  let scope := if 2 ≤ bitsOf n 6 5 then bitsOf n 6 5 else bitsOf k.ctl.toNat 6 5
  let b := bitsOf n 2 1
  let bscope := if b = 1 ∨ b = 2 then b else bitsOf k.ctl.toNat 2 1
  { k with ctl := BitVec.ofNat 32 (b2n (bitOf n 7) * 128 + scope * 32 + b2n (bitOf n 4) * 16 + b2n (bitOf n 3) * 8 + bscope * 2) }

def writeSlice32 (s : State) (k o : Nat) (v : Half) : State :=
  let n := v.toNat
  let put := fun f => s.modSlice k f
  let skv := fun f => s.modSkv k f
  match o with
  | 0x10 => put (fun x =>
      let x := { x with period := v.extractLsb' 0 8 }
      if bitOf n 8 then sliceSweep x else x)
  | 0x40 => skv (writeSkvCtl · v)
  | 0x44 => skv (fun y => { y with bwin := BitVec.ofNat 32 (min (bitsOf n 27 16) 2048 * 65536 + bitsOf n 10 0) })
  | 0x60 => if bitOf n 0 then skv (fun y => { y with amaxCum := 0 }) else s
  | 0x68 => skv (fun y => { y with rngKey := tset halfDef y.rngKey 0 v })
  | 0x6C => skv (fun y => { y with rngKey := tset halfDef y.rngKey 1 v })
  | 0x70 => skv (fun y => { y with rngCtr := tset halfDef y.rngCtr 0 v })
  | 0x74 => skv (fun y => { y with rngCtr := tset halfDef y.rngCtr 1 v })
  | 0x78 => skv (fun y => { y with rngCtr := tset halfDef y.rngCtr 2 v })
  | 0x7C => skv (fun y => { y with rngCtr := tset halfDef y.rngCtr 3 v })
  | 0x100 => put (fun x => { x with stb := writeBucket (x.clock / 10240) x.stb v })
  | 0x104 => put (fun x => { x with rtb := writeBucket (x.clock / 10240) x.rtb v })
  | 0x108 => if n % 65536 = 0 then s else put (fun x => { x with swin := v.extractLsb' 0 16 })
  | 0x10C => put (fun x => { x with sretryMax := orOne (bitsOf n 19 16), sretryTimeout := orOne (n % 65536) })
  | _ => s

def sliceHasReg (o : Nat) : Bool :=
  decide (o < 0x1C ∨ (0x40 ≤ o ∧ o < 0x80) ∨ (0x100 ≤ o ∧ o < 0x110)) || (decide (0x80 ≤ o ∧ o < 0x100) && decide (o % 16 ≠ 12))

def sliceWriteOk (a : Agent) (o : Nat) : RegAns :=
  if !sliceHasReg o || isCtlAgent a then .ok
  else if o = 0x60 then (if (agentCore a).isSome then .ok else .nowin)
  else .nowin

/-! ## Device block (R530) -/

/-- Entries that name a link disagree with the device at its far end (R405, R416). -/
def linkMismatch (s : State) (l : Nat) : Bool :=
  let me := s.lat.id.toNat
  let peer := (s.link l).peer.toNat
  (countFrom 0 25).any (fun c => (tget (fun _ => (0 : BitVec 48)) s.lat.rows c).getLsbD l && decide (peer ≠ me / 32 * 32 + c))
  || (countFrom 0 25).any (fun r => (tget (fun _ => (0 : BitVec 48)) s.lat.cols r).getLsbD l && decide (peer ≠ r * 32 + me % 32))

/-- MISMATCH of every link follows its PEER and the entries that name it, whatever its state (R419). -/
def State.relink (s : State) : State :=
  (countFrom 0 48).foldl (fun s l => s.modLink l (fun x => { x with mismatch := linkMismatch s l })) s

def writeLat32 (s : State) (o : Nat) (v : Half) : State :=
  let n := v.toNat
  let lat := s.lat
  match o with
  | 0x000 => { s with lat := { lat with id := v.extractLsb' 0 10 } }.relink
  | 0x004 => { s with lat := { lat with memen := bitOf n 16, degthr := v.extractLsb' 0 16 } }
  | 0x008 =>
    let mx := orOne (n / 2 ^ 28)
    let hold := bitsOf n 27 16
    let tmo := n % 65536
    if 100 * hold < (mx + 1) * tmo then s else { s with lat := { lat with retryMax := mx, hold := hold, timeout := tmo } }
  | 0x010 | 0x014 | 0x018 =>
    let g := (o - 0x10) / 4
    if groupFenced s g then
      { s with lat := { lat with groups := tmod groupDef lat.groups g (fun x =>
          { x with fmt := bitOf n 2, rate := if n % 4 = 3 then x.rate else v.extractLsb' 0 2 }) } }
    else s
  | _ => s


def writeLat64 (s : State) (o : Nat) (v : Word) : State :=
  let b : BitVec 48 := v.truncate 48
  if 0x100 ≤ o ∧ o < 0x1C8 then { s with lat := { s.lat with rows := tset linkRowDef s.lat.rows ((o - 0x100) / 8) b } }.relink
  else if 0x200 ≤ o ∧ o < 0x2C8 then { s with lat := { s.lat with cols := tset linkRowDef s.lat.cols ((o - 0x200) / 8) b } }.relink
  else s

def latHasReg (o : Nat) : Bool :=
  decide (o < 0x1C ∨ (0x100 ≤ o ∧ o < 0x1C8) ∨ (0x200 ≤ o ∧ o < 0x2C8) ∨ (0x400 ≤ o ∧ o < 0x580))

def writeRamp (v : Half) : Half :=
  let n := v.toNat
  BitVec.ofNat 32 (b2n (bitOf n 31) * 2 ^ 31 + orOne (bitsOf n 23 8) * 256 + max 1 (min 8 (n % 16)))

def writeDevice32 (s : State) (o : Nat) (v : Half) : State :=
  let n := v.toNat
  if 0x400 ≤ o ∧ o < 0x500 then writeRoot s ((o - 0x400) / 4) v
  else if 0x500 ≤ o ∧ o < 0x600 then writeXcfg s ((o - 0x500) / 4) v
  else if 0x2000 ≤ o ∧ o < 0x2600 then writeLat32 s (o - 0x2000) v
  else match o with
    | 0x00C => { s with mgmt := { s.mgmt with telemPeriod := BitVec.ofNat 16 (max 100 (n % 65536)) } }
    | 0x104 => { s with pwr := { s.pwr with ramp := writeRamp v } }
    | 0x108 => { s with pwr := { s.pwr with fcast := v, fcastDue := s.pwr.fcastDue ++ [(v, s.mgmt.time)] } }
    | 0x600 => { s with fabric := { s.fabric with cmapPeriod := BitVec.ofNat 16 (max 10 (n % 65536)) } }
    | _ => s

/-- Writers of the device block (R283, R326, R400, R419, R460, R476, R492). -/
def deviceWriteOk (a : Agent) (o : Nat) : RegAns :=
  let mg := decide (a = .mgmt)
  let ans := fun (b : Bool) => if b then RegAns.ok else .nowin
  if o < 0x00C then ans mg
  else if o = 0x00C then ans (isCtlAgent a)
  else if o = 0x100 ∨ o = 0x104 then ans mg
  else if o = 0x108 then ans (isCtlAgent a)
  else if 0x400 ≤ o ∧ o < 0x600 then ans (isCtlAgent a)
  else if o = 0x600 then ans (isCtlAgent a)
  else if 0x700 ≤ o ∧ o < 0x800 then ans mg
  else if 0x2000 ≤ o ∧ o < 0x2600 then ans (!latHasReg (o - 0x2000) || isCtlAgent a)
  else .ok

/-! ## One access (R519) -/

/-- Whether an aligned 8-byte place holds one 64-bit register. -/
def is64 (l : Loc) : Bool :=
  match l with
  | .coreReg _ o => coreIs64 o
  | .sliceReg _ o => decide (o = 8) || (decide (0x80 ≤ o ∧ o < 0x100) && decide (o % 16 = 0))
  | .device o => decide (0x2100 ≤ o ∧ o < 0x21C8) || decide (0x2200 ≤ o ∧ o < 0x22C8)
  | _ => false

def writeOk (s : State) (a : Agent) (l : Loc) : RegAns :=
  match l with
  | .coreReg c o => coreWriteOk s a c o
  | .cluster k o => clusterWriteOk a k o
  | .sliceReg _ o => sliceWriteOk a o
  | .device o => deviceWriteOk a o
  | _ => .ok

/-- The register location of the 8-byte piece that holds `l`. -/
def Loc.align8 : Loc → Loc
  | .coreReg c o => .coreReg c (o / 8 * 8)
  | .cluster k o => .cluster k (o / 8 * 8)
  | .sliceReg k o => .sliceReg k (o / 8 * 8)
  | .device o => .device (o / 8 * 8)
  | l => l

/-- An aligned 4-byte write; to half of a 64-bit register it is ignored. -/
def regWrite32 (s : State) (a : Agent) (l : Loc) (v : Half) : RegAns × State :=
  match writeOk s a l with
  | .ok =>
    if is64 l.align8 then (.ok, s)
    else match l with
      | .coreReg c o => writeCore32 s (decide (agentCore a = some c)) c o v
      | .cluster k o => (.ok, writeCluster32 s k o v)
      | .sliceReg k o => (.ok, writeSlice32 s k o v)
      | .device o => (.ok, writeDevice32 s o v)
      | _ => (.ok, s)
  | r => (r, s)

/-- An aligned 8-byte write: one 64-bit register, or two 32-bit ones, the lower first. -/
def regWrite64 (s : State) (a : Agent) (l h : Loc) (v : Word) : RegAns × State :=
  if is64 l then
    match writeOk s a l with
    | .ok =>
      match l with
      | .coreReg c o => (.ok, writeCore64 s c o v)
      | .device o => (.ok, writeLat64 s (o - 0x2000) v)
      | _ => (.ok, s)
    | r => (r, s)
  else
    match regWrite32 s a l (v.extractLsb' 0 32) with
    | (.ok, s) => regWrite32 s a h (v.extractLsb' 32 32)
    | r => r

/-- A write of the bytes of one 8-byte piece that starts at `p`: `b` and `e` are its bytes and enables from offset
`o` on (R519). -/
def regPiece (s : State) (a : Agent) (p o : Nat) (b : List Byte) (e : List Bool) : RegAns × State :=
  let en := List.replicate o false ++ e ++ List.replicate (8 - o - e.length) false
  let d := List.replicate o 0 ++ b ++ List.replicate (8 - o - b.length) 0
  let at_ := fun (n : Nat) => decodeLocal (p + n)
  if !en.any id then (.ok, s)
  else if en.all id then regWrite64 s a (at_ 0) (at_ 4) (BitVec.ofNat 64 (leNat d))
  else if en = [true, true, true, true, false, false, false, false] then regWrite32 s a (at_ 0) (BitVec.ofNat 32 (leNat (d.take 4)))
  else if en = [false, false, false, false, true, true, true, true] then regWrite32 s a (at_ 4) (BitVec.ofNat 32 (leNat (d.drop 4)))
  else
    let lo := if (en.take 4).any id then writeOk s a (at_ 0) else .ok
    let hi := if (en.drop 4).any id then writeOk s a (at_ 4) else .ok
    (if lo = .ok then hi else lo, s)

/-- A write of any length, piece by piece in ascending order; a refused piece ends it. -/
def regWriteGo (a : Agent) : Nat → Nat → List Byte → List Bool → State → RegAns × State
  | 0, _, _, _, s => (.ok, s)
  | f + 1, addr, b, e, s =>
    if b.isEmpty then (.ok, s)
    else
      let o := addr % 8
      let n := min b.length (8 - o)
      match regPiece s a (addr - o) o (b.take n) (e.take n) with
      | (.ok, s) => regWriteGo a f (addr + n) (b.drop n) (e.drop n) s
      | r => r

/-- Register writes of the whole device map. -/
def regW : RegW := fun s a addr data en => regWriteGo a (data.length / 8 + 2) addr data en s

/-! ## Register accesses as commands -/

/-- The base of a core's register block (R523). -/
def coreBlock (c : Nat) : Nat := 0x028000400000 + c * 0x800000
def clusterBlock (k : Nat) : Nat := 0x030000000000 + k * 0x10000
def sliceBlock (k : Nat) : Nat := 0x030001000000 + k * 0x200000
def deviceBlock : Nat := 0x03000D000000

/-- Status of a register access (R519). -/
def RegAns.status : RegAns → Status
  | .ok => .ok
  | _ => .nowin

/-- In OFF-RAILS the management plane finds no supply behind a fence-and-test port; the MGT_ and PWR_ areas are its own
(R24, R25, R477). -/
def unpowered (s : State) (a : Agent) (addr : Nat) : Bool :=
  decide (a = .mgmt) && decide (s.pwr.state = 3)
  && (match decodeLocal addr with
      | .device o => decide (0x400 ≤ o)
      | _ => true)

/-- The port reports that its unit has no supply and does nothing else (R25; log 87). -/
def reportUnpowered (s : State) : State := s.answer { status := .unreach }

/-- A register write by an agent: a task thread of the core raises PRIV where R113 says so, with the ADDR that it used as
detail (R134): the row does not say through which segment, so that ADDR is free (log 2). The status is the reply. -/
def regCmd (a : Agent) (addr n v : Nat) (s : State) : Host.Outcome State Fault Refusal :=
  let d := leBytes n v
  if unpowered s a addr then .next (reportUnpowered s)
  else match regW s a addr d (allOn d) with
  | (.wait, _) => .next s
  | (.priv, s) =>
    match a with
    | .thread t =>
      if canIssue s t then
        let (w, s) := drawFree s
        runCmd (do takeFault t { cause := .priv, detail := wAddr (mkPtr (w.toNat / 2 ^ 56) w.toNat) } (s.thr t).pc; settle t) s
      else .next s
    | _ => .next s
  | (r, s) => .next (s.answer { status := r.status })

/-- A register read by an agent: status and bytes are the reply. -/
def regReadCmd (a : Agent) (addr n : Nat) (s : State) : Host.Outcome State Fault Refusal :=
  if unpowered s a addr then .next (reportUnpowered s)
  else
    let (r, d, s) := regRead s a addr n
    .next (s.answer { status := r.status, data := d })

def sizeBytes : Size → Nat
  | .b1 => 1 | .b2 => 2 | .b4 => 4 | .b8 => 8

/-- THR_CTL commands (R112). -/
def thrCtlCmd (a : Agent) (t : Tid) (cmd : Nat) (s : State) : Host.Outcome State Fault Refusal :=
  regCmd a (coreBlock t.core.val + 0x100 + 0x40 * t.thr.val) 4 ((s.thr t).pri.toNat * 16 + cmd) s

def execStart (a : Agent) (t : Tid) (s : State) : Host.Outcome State Fault Refusal := thrCtlCmd a t 1 s
def execStop (a : Agent) (t : Tid) (s : State) : Host.Outcome State Fault Refusal := thrCtlCmd a t 2 s
def execResume (a : Agent) (t : Tid) (s : State) : Host.Outcome State Fault Refusal := thrCtlCmd a t 3 s
def execKill (a : Agent) (t : Tid) (s : State) : Host.Outcome State Fault Refusal := thrCtlCmd a t 4 s

/-- MTX_ARM.SPEC empties the capture latch (R196). -/
def execMtxArmSpec (a : Agent) (c : Fin 512) (s : State) : Host.Outcome State Fault Refusal :=
  regCmd a (coreBlock c.val + 0x70C) 4 1 s
/-- MTX_ARM.AMAX (R194). -/
def execMtxArmAmax (a : Agent) (c : Fin 512) (n : Fin 2) (s : State) : Host.Outcome State Fault Refusal :=
  regCmd a (coreBlock c.val + 0x70C) 4 (2 * 2 ^ n.val) s
/-- VEC_ARM.AMAX (R216). -/
def execVecArmAmax (a : Agent) (c : Fin 512) (s : State) : Host.Outcome State Fault Refusal :=
  regCmd a (coreBlock c.val + 0x838) 4 1 s
/-- DMA_CTL.STOP (R239). -/
def execDmaCtlStop (a : Agent) (c : Fin 512) (ch : Fin 16) (s : State) : Host.Outcome State Fault Refusal :=
  regCmd a (coreBlock c.val + 0x904 + 0x40 * ch.val) 4 1 s
/-- MQ_CTL (R287). -/
def execMqCtlWrite (a : Agent) (c : Fin 512) (q : Fin 32) (value : Half) (s : State) : Host.Outcome State Fault Refusal :=
  regCmd a (coreBlock c.val + 0x1010 + 0x40 * q.val) 4 value.toNat s
/-- MQ_BASE or MQ_SIZE (R287). -/
def execMqBaseSizeWrite (a : Agent) (c : Fin 512) (q : Fin 32) (size : Bool) (value : Half) (s : State) :
    Host.Outcome State Fault Refusal :=
  regCmd a (coreBlock c.val + 0x1000 + 0x40 * q.val + (if size then 4 else 0)) 4 value.toNat s
/-- CINCH_NODE, CINCH_ROOT or CINCH_XCFG (R283). -/
def execCinchConfigWrite (a : Agent) (r : CinchReg) (g : Fin 64) (value : Half) (s : State) : Host.Outcome State Fault Refusal :=
  regCmd a (match r with
    | .node k => clusterBlock k.val + 0x200 + 4 * g.val
    | .root => deviceBlock + 0x400 + 4 * g.val
    | .xcfg => deviceBlock + 0x500 + 4 * g.val) 4 value.toNat s
/-- KEEP_BASE, KEEP_BOUND or KEEP_CTL (R153). -/
def execKeeperConfigWrite (a : Agent) (c : Fin 512) (n : Fin 16) (r : KeepReg) (value : Half) (s : State) :
    Host.Outcome State Fault Refusal :=
  regCmd a (coreBlock c.val + 0x500 + 16 * n.val + (match r with | .base => 0 | .bound => 4 | .ctl => 8)) 4 value.toNat s
/-- SPAD_PORTMAP (R143). -/
def execSpadPortmapWrite (a : Agent) (c : Fin 512) (value : Half) (s : State) : Host.Outcome State Fault Refusal :=
  regCmd a (coreBlock c.val + 0x400) 4 value.toNat s
/-- SPAD_BURNISH.SWEEP (R157); PERIOD is written as it stands. -/
def execSpadBurnishSweep (a : Agent) (c : Fin 512) (s : State) : Host.Outcome State Fault Refusal :=
  regCmd a (coreBlock c.val + 0x404) 4 (256 + (s.core c.val).spad.period.toNat) s
/-- CORE_DCACHE_CTL.FLUSH (R162). -/
def execFlush (a : Agent) (c : Fin 512) (s : State) : Host.Outcome State Fault Refusal := regCmd a (coreBlock c.val + 0x680) 4 1 s
/-- CORE_DCACHE_CTL.INVAL (R162). -/
def execInval (a : Agent) (c : Fin 512) (s : State) : Host.Outcome State Fault Refusal := regCmd a (coreBlock c.val + 0x680) 4 2 s
/-- CORE_ICACHE_CTL.INVAL (R163). -/
def execIcacheInval (a : Agent) (c : Fin 512) (s : State) : Host.Outcome State Fault Refusal :=
  regCmd a (coreBlock c.val + 0x688) 4 1 s
/-- SLICE_BURNISH.SWEEP (R320). -/
def execSliceBurnishSweep (a : Agent) (k : Fin 80) (s : State) : Host.Outcome State Fault Refusal :=
  regCmd a (sliceBlock k.val + 0x10) 4 (256 + (s.slice k.val).period.toNat) s
/-- SKV_ARM.AMAX (R359). -/
def execSkvArmAmax (a : Agent) (k : Fin 80) (s : State) : Host.Outcome State Fault Refusal :=
  regCmd a (sliceBlock k.val + 0x60) 4 1 s
/-- LAT_GROUP (R402). -/
def execLatGroupWrite (a : Agent) (g : Fin 3) (value : Half) (s : State) : Host.Outcome State Fault Refusal :=
  regCmd a (deviceBlock + 0x2010 + 4 * g.val) 4 value.toNat s
/-- LAT_RETRY (R411). -/
def execLatRetryWrite (a : Agent) (value : Half) (s : State) : Host.Outcome State Fault Refusal :=
  regCmd a (deviceBlock + 0x2008) 4 value.toNat s
/-- PWR_HINT.UP (R487). -/
def execPwrHintWrite (a : Agent) (k : Fin 64) (value : Half) (s : State) : Host.Outcome State Fault Refusal :=
  regCmd a (clusterBlock k.val + 0x500) 4 value.toNat s
/-- PWR_FCAST (R489). -/
def execPwrFcastWrite (a : Agent) (value : Half) (s : State) : Host.Outcome State Fault Refusal :=
  regCmd a (deviceBlock + 0x108) 4 value.toNat s
/-- CORE_DBG_CMD.HALT written 1 (R514), by the management plane. -/
def execHalt (c : Fin 512) (s : State) : Host.Outcome State Fault Refusal :=
  regCmd .mgmt (coreBlock c.val + 0x1A04) 4 ((s.core c.val).dbg.step.toNat * 2 + 1) s
/-- CORE_DBG_CMD.HALT written 0 (R514). -/
def execDebugResume (c : Fin 512) (s : State) : Host.Outcome State Fault Refusal :=
  regCmd .mgmt (coreBlock c.val + 0x1A04) 4 ((s.core c.val).dbg.step.toNat * 2) s
/-- CORE_DBG_CMD.STEPGO (R515): the thread named may issue one instruction. -/
def execStepgo (c : Fin 512) (thr : Fin 8) (s : State) : Host.Outcome State Fault Refusal :=
  regCmd .mgmt (coreBlock c.val + 0x1A04) 4 (16 + thr.val * 2 + 1) s
/-- MGT_PACER_LO read (R37). -/
def execPacerLoRead (a : Agent) (k : Fin 64) (s : State) : Host.Outcome State Fault Refusal :=
  regReadCmd a (clusterBlock k.val + 0x100) 4 s
/-- MGT_TIME_LO read (R476). -/
def execMgtTimeLoRead (a : Agent) (s : State) : Host.Outcome State Fault Refusal := regReadCmd a deviceBlock 4 s

end Sys2Proof.Machine
end

