-- ==== Sys2Proof/Machine/ScalarMem.lean ====
section
/-! DEFINITION. Loads and stores of the scalar engine (R78, R79, R91 to R93), the data cache under them (R158 to R162),
acquires, releases and fences (R298 to R300), push and pop (R100), and the rows that complete them (R160, R294, R550). -/

namespace Sys2Proof.Machine

/-! ## Addresses -/

/-- Scale of the indexed form (R91). -/
def scaleOf (size : Nat) (sc : BitVec 2) : Nat :=
  match sc.toNat with
  | 0 => 1 | 1 => size | 2 => 64 | _ => 512

/-- The address of an M-layout access and the base register's update (R91); ra is checked before rb. -/
def mAddr (x : ThreadSt) (ra : Reg) (glob : Bool) (size : Nat) (mode : MMode) : Except Stop (Word × Option (Nat × Word)) := do
  let b ← need [if glob then .addr else .int] 1 (x.reg ra.val)
  let move := fun (d : Int) => if glob then pAdd b d else b + BitVec.ofInt 64 d
  match mode with
  | .disp d => pure (move (d.toInt * size), none)
  | .post d => pure (b, some (ra.val, move (d.toNat * size)))
  | .pre d => pure (move (-(d.toNat * size : Nat)), some (ra.val, move (-(d.toNat * size : Nat))))
  | .idx rb sc =>
    let i ← need [.int] 2 (x.reg rb.val)
    pure (move (i.toInt * scaleOf size sc), none)

/-- A load in a modify mode that names its base as destination is illegal (R85). -/
def modifies : MMode → Bool
  | .post _ | .pre _ => true
  | _ => false

def loadLegal (rd ra : Reg) (mode : MMode) : Except Stop Unit :=
  if modifies mode && decide (rd = ra) then trap .insnIllegal else .ok ()

/-- The source of a plain store (R78). DESIGN CHOICE (log 81): an EMPTY source raises TAG_EMPTY, as R71 has it, not
TAG_STORE. -/
def storeSource (w : TWord) : Except Stop Word :=
  if w.tag = .empty then trap .tagEmpty 3
  else if w.tag = .int ∨ w.tag = .f64 then .ok w.data
  else trap .tagStore 3

/-- What a base update gives the register: ADDR for global accesses, INT for scratchpad ones. -/
def baseUpd (t : Tid) (tag : Tag) (b : Option (Nat × Word)) : M Unit :=
  match b with
  | some (r, v) => modify (fun s => s.setReg t r ⟨tag, v⟩)
  | none => pure ()

/-- The INT a load of `n` bytes delivers. -/
def loadWord (sign : Bool) (b : List Byte) : Word :=
  let v := leNat b
  if sign then BitVec.ofInt 64 (signedOf (8 * b.length) v) else BitVec.ofNat 64 v

/-! ## Acquires and releases -/

def wide : Scope → Bool
  | .die | .system => true
  | _ => false

/-- Write every dirty line back now; a failure raises MACHINE_CHECK with the line's address (R161, R550). -/
def flushNow (t : Tid) : List Nat → M Unit
  | [] => pure ()
  | k :: ks => do
    let s ← get
    let line := (dcGet (s.core t.core.val).dc k).line
    let ok ← wbNow t.core.val (threadClass s t) k
    if ok then flushNow t ks else mtrap .machineCheck 0 (wInt (BitVec.ofNat 64 (64 * line)))

/-- Release performed within one event (R298, R304): writes within the scope first, then, for a wide one, the dirty
lines. -/
def releaseNow (t : Tid) (scope : Scope) : M Unit := do
  let s ← get
  let x := s.core t.core.val
  if writesPending x t.core.val t.thr.val scope then throw .wait
  if wide scope then
    if !x.dc.wbs.isEmpty then throw .wait
    flushNow t (dcDirty x.dc)

/-- The accesses of an asynchronous activity follow every access before the instruction that starts it (R295). -/
def afterAll (t : Tid) : M Unit := do
  let s ← get
  if accessesPending (s.core t.core.val) t.core.val t.thr.val then throw .wait

/-- What an acquire of wide scope leaves: no cached line, none on its way with what it read before, no buffer copy that later
descriptors may use (R299, R301, R353). -/
def acquireNow (t : Tid) (scope : Scope) : M Unit := do
  if wide scope then
    let s ← get
    let c := t.core.val
    if !(s.core c).dc.wbs.isEmpty then throw .wait
    flushNow t (dcDirty (s.core c).dc)
    modify (fun s => ((refetch s c (fun _ => true)).modDc c (fun d => { d with ways := [] })).modCore c (fun x =>
      { x with stale := BitVec.allOnes 80 }))

/-! ## Completion of an access -/

/-- What an access that has its bytes does to its thread. -/
def accFinish (t : Tid) (g : GAcc) (bytes : List Byte) : M Ctl := do
  watch t g.ga g.size g.wdata.isSome
  let word : M TWord := match bytesWord bytes with
    | some w => pure (normWord w)
    | none => mtrap .tagMem 0 (wAddr g.addr)
  match g.fin with
  | .load rd as base => do
    let v ← match as with
      | .zero => pure (wInt (loadWord false bytes))
      | .sign => pure (wInt (loadWord true bytes))
      | .f64 => pure (wF64 (loadWord false bytes))
      | .tagged => word
    baseUpd t .addr base
    modify (fun s => s.setReg t rd v)
    pure .next
  | .store base => do
    baseUpd t .addr base
    pure .next
  | .push => do
    modify (fun s => s.modThr t (fun x => { x with dsp := pAdd x.dsp (-16) }))
    pure .next
  | .pop rd => do
    let v ← word
    modify (fun s => (s.modThr t (fun x => { x with dsp := pAdd x.dsp 16 })).setReg t rd v)
    pure .next
  | .call target compat => do
    let s ← get
    if (s.thr t).compat ≠ compat then holdNotices t
    modify (fun s => s.modThr t (fun x => { x with rtp := pAdd x.rtp (-16), compat := compat }))
    pure (.jump target)
  | .ret => do
    let v ← word
    if v.tag ≠ .code then mtrap .retTag
    let s ← get
    if (s.thr t).compat ≠ codeMode v.data then holdNotices t
    modify (fun s => s.modThr t (fun x => { x with rtp := pAdd x.rtp 16, compat := codeMode v.data }))
    pure (.jump (codePc v.data))
  | .acquire rd scope => do
    acquireNow t scope
    modify (fun s => s.setReg t rd (wInt (loadWord false bytes)))
    pure .next
  | .release => pure .next

/-- The end of an instruction that was held: its effect, or its fault. -/
def finishCtl (t : Tid) (body : M Ctl) : M Unit := do
  let s ← get
  let pc := (s.thr t).pc
  let (r, s') := runM body s
  match r with
  | .error .wait => throw .wait
  | .error (.trap tr) => do
    set s'
    takeFault t tr pc
    settle t
  | .ok .next => do
    set (s'.modThr t (fun x => advance { x with held := none, st := .run }))
    settle t
  | .ok (.jump p) => do
    set (s'.modThr t (fun x => { x with pc := p, held := none, st := .run }))
    settle t
  | .ok .stay => do
    set (s'.modThr t (fun x => { x with held := none, st := .run }))
    settle t
  | .ok (.hold h) => set (s'.modThr t (fun x => { x with held := some h }))

/-! ## The cache -/



/-- The fill of a thread's miss is requested; without room at the port it waits there. -/
def sendFill (s : State) (t : Tid) (g : GAcc) : State :=
  match sendUnder g.map s t.core.val (threadClass s t) (.read (g.ga / 64 * 64) 64) with
  | (.slot n, s) => s.modThr t (fun x => { x with held := some (.miss { g with slot := n }) })
  | _ => s

/-- A miss: stalled while another is outstanding; else the victim leaves the set, written back first when dirty, and
the fill is requested when no write-back of it is left (R159, R160). -/
def startMiss (t : Tid) (g : GAcc) : M Ctl := do
  let s ← get
  let c := t.core.val
  let d := (s.core c).dc
  if d.miss.isSome then pure (.hold (.miss g))
  else do
    let (k, d) := dcVictim d (g.ga / 64)
    let v := dcGet d k
    let (p, d2) := dcParityAt d k
    match p with
    | some true => do
      set (s.modDc c (fun _ => d2))
      mtrap .machineCheck 0 (wInt (BitVec.ofNat 64 (64 * v.line)))
    | _ => do
      let own := fun (d : DCache) => { dcDrop d k with miss := some t.thr }
      if v.valid ∧ v.dirty ≠ 0 then do
        let w := dcStartWb d2 s.smap (threadClass s t) (.evict t.thr) k
        set (wbSend (s.modDc c (fun _ => own w)) c)
        pure (.hold (.miss g))
      else do
        set (s.modDc c (fun _ => own d2))
        let s ← get
        match sendUnder g.map s c (threadClass s t) (.read (g.ga / 64 * 64) 64) with
        | (.slot n, s) => do
          set s
          pure (.hold (.miss { g with slot := n }))
        | _ => pure (.hold (.miss g))

/-- A cached access: a hit completes, a clean line with a parity error is refetched, a dirty one is lost (R158, R161). -/
def cacheAccess (t : Tid) (g : GAcc) : M Ctl := do
  let s ← get
  let c := t.core.val
  let d := (s.core c).dc
  match dcFind d (g.ga / 64) with
  | none => startMiss t g
  | some k => do
    let (p, d) := dcParityAt d k
    match p with
    | some true => do
      set (s.modDc c (fun _ => d))
      mtrap .machineCheck 0 (wAddr g.addr)
    | some false => do
      set (s.modDc c (fun _ => d))
      startMiss t g
    | none =>
      match g.wdata with
      | some b => do
        set (s.modDc c (fun _ => dcStore s.smap d k g.ga b))
        accFinish t g []
      | none => do
        let l := dcGet d k
        set (s.modDc c (fun _ => if g.stream then d else dcPut d k { l with age := 0 }))
        accFinish t g (slice l.bytes (g.ga % 64) g.size)

/-- The bus access of a checked access. -/
def GAcc.acc (g : GAcc) : Acc :=
  match g.wdata with
  | some b => .write g.ga b (allOn b)
  | none => .read g.ga g.size

/-- An access past the cache: outstanding until its response (R89, R160, R294); one that no route takes has its status
(R406). -/
def startAcc (t : Tid) (g : GAcc) : M Ctl := do
  let s ← get
  match sendUnder g.map s t.core.val (threadClass s t) g.acc with
  | (.wait, _) => throw .wait
  | (.refused st, s) => do
    set s
    pure (.hold (.acc { g with answer := some (statusNum st, []) }))
  | (.slot n, s) => do
    set s
    pure (.hold (.acc { g with slot := n }))

/-- A checked global access of a thread (R88), after earlier accesses of the core to its bytes (R292). -/
def globalAcc (t : Tid) (addr : Word) (size : Nat) (tagged : Bool) (wdata : Option (List Byte)) (stream : Bool) (fin : AccFin) :
    M Ctl := do
  let s ← get
  let (e, ga) ← segCheck t (s.thr t).priv addr size size tagged (if wdata.isSome then .w else .r) 0
  waitFor t (spansOf s.smap t.core.val ga size)
  let g : GAcc := { addr := addr, ga := ga, size := size, tagged := tagged, wdata := wdata, kseg := e.k, stream := stream, fin := fin,
                    map := s.smap }
  if cacheable e ga then cacheAccess t g else startAcc t g

/-! ## Loads and stores -/

def loadInsn (t : Tid) (rd ra : Reg) (size : Nat) (mode : MMode) (as : LoadAs) (stream : Bool) (s : State) : O :=
  issue t false false (do
    let s ← get
    lift (loadLegal rd ra mode)
    let (a, u) ← lift (mAddr (s.thr t) ra true size mode)
    globalAcc t a size (decide (as = .tagged)) none stream (.load rd.val as u)) s

/-- ld: zero-extending (R78). -/
def execLd (t : Tid) (rd ra : Reg) (size : Size) (mode : MMode) (s : State) : O := loadInsn t rd ra (sizeBytes size) mode .zero false s
/-- ldx: sign-extending. -/
def execLdx (t : Tid) (rd ra : Reg) (size : Size) (mode : MMode) (s : State) : O := loadInsn t rd ra (sizeBytes size) mode .sign false s
/-- ld.s: streaming (R159). -/
def execLdS (t : Tid) (rd ra : Reg) (size : Size) (mode : MMode) (s : State) : O := loadInsn t rd ra (sizeBytes size) mode .zero true s
/-- ld.f: eight bytes as F64. -/
def execLdF (t : Tid) (rd ra : Reg) (mode : MMode) (s : State) : O := loadInsn t rd ra 8 mode .f64 false s
/-- ld.t: a tagged word (R79). -/
def execLdT (t : Tid) (rd ra : Reg) (mode : MMode) (s : State) : O := loadInsn t rd ra 16 mode .tagged false s

/-- st: the low bytes of an INT or F64 (R78). -/
def execSt (t : Tid) (rs ra : Reg) (size : Size) (mode : MMode) (s : State) : O :=
  issue t false false (do
    let s ← get
    let (a, u) ← lift (mAddr (s.thr t) ra true (sizeBytes size) mode)
    let v ← lift (storeSource (s.reg t rs.val))
    globalAcc t a (sizeBytes size) false (some (leBytes (sizeBytes size) v.toNat)) false (.store u)) s

/-- st.t: any word, EMPTY included (R71, R79). -/
def execStT (t : Tid) (rs ra : Reg) (mode : MMode) (s : State) : O :=
  issue t false false (do
    let s ← get
    let (a, u) ← lift (mAddr (s.thr t) ra true 16 mode)
    globalAcc t a 16 true (some (wordBytes (s.reg t rs.val))) false (.store u)) s

/-- ls: scratchpad load through the D-port (R93). -/
def execLs (t : Tid) (rd ra : Reg) (size : Size) (mode : MMode) (s : State) : O :=
  issue t false false (do
    let s ← get
    let n := sizeBytes size
    let c := t.core.val
    lift (loadLegal rd ra mode)
    let (b, u) ← lift (mAddr (s.thr t) ra false n mode)
    let p ← lift (spadCheck (s.core c) ((s.core c).win t.thr.val) b 1 n 0)
    waitFor t [.spad p n]
    let (r, s) := spadRead s c p n
    set s
    match r with
    | none => mtrap .machineCheck 0 (wInt b)
    | some d => do
      baseUpd t .int u
      modify (fun s => s.setReg t rd.val (wInt (loadWord false d)))
      pure .next) s

/-- ss: scratchpad store (R93). -/
def execSs (t : Tid) (rs ra : Reg) (size : Size) (mode : MMode) (s : State) : O :=
  issue t false false (do
    let s ← get
    let n := sizeBytes size
    let c := t.core.val
    let (b, u) ← lift (mAddr (s.thr t) ra false n mode)
    let v ← lift (storeSource (s.reg t rs.val))
    let p ← lift (spadCheck (s.core c) ((s.core c).win t.thr.val) b 1 n 0)
    waitFor t [.spad p n]
    let d := leBytes n v.toNat
    let (ok, s) := spadWrite s c p d (allOn d)
    set s
    if !ok then mtrap .machineCheck 0 (wInt b)
    baseUpd t .int u
    pure .next) s

/-- push: tagged store at dsp − 16 (R100). -/
def execPush (t : Tid) (ra : Reg) (s : State) : O :=
  issue t false false (do
    let s ← get
    let w ← lift (needAny 1 (s.reg t ra.val))
    globalAcc t (pAdd (s.thr t).dsp (-16)) 16 true (some (wordBytes w)) false .push) s

/-- pop: tagged load at dsp (R100). -/
def execPop (t : Tid) (rd : Reg) (s : State) : O :=
  issue t false false (do
    let s ← get
    globalAcc t (s.thr t).dsp 16 true none false (.pop rd.val)) s

/-! ## Acquire, release, fence -/

/-- Write-backs that a held instruction still waits for: those of its own line before the read of ld.acq (R299), every one
for a release or fence of wide scope (R298). -/
def drainWaits (d : DCache) (i : Instr) (g : Option GAcc) : Bool :=
  match i with
  | .ldAcq _ _ _ _ _ _ => d.wbs.any (fun w => g.any (fun x => (dcNames x.map (x.ga / 64)).contains w.line))
  | .stRel _ _ _ scope _ _ | .fenceAcq _ scope | .fenceRel _ scope | .fenceBoth _ scope => wide scope && !d.wbs.isEmpty
  | _ => false

/-- Write the given dirty lines back, the thread held until those it waits for are done; then go on. -/
def drainThen (t : Tid) (keys : List Nat) (i : Instr) (g : Option GAcc) (go : M Ctl) : M Ctl := do
  let s ← get
  let c := t.core.val
  let (lost, s') := startWbs s c (threadClass s t) (.drain t.thr) keys
  let bad := lost.find? (fun l => keys.any (fun k => let y := dcGet (s.core c).dc k; decide (y.line = l) && decide (y.dirty ≠ 0)))
  set s'
  match bad with
  | some l => mtrap .machineCheck 0 (wInt (BitVec.ofNat 64 (64 * l)))
  | none => if drainWaits (s'.core c).dc i g then pure (.hold (.drain i g)) else go

/-- The dirty lines that a scope makes visible. -/
def scopeKeys (x : CoreSt) (scope : Scope) : List Nat := if wide scope then dcDirty x.dc else []

/-- ld.acq (R299): its own line first, then the read at the point of visibility; its response does the rest. -/
def ldAcqBody (t : Tid) (rd ra : Reg) (scope : Scope) (size : Size) (disp : BitVec 10) : M Ctl := do
  let s ← get
  let n := sizeBytes size
  let c := t.core.val
  let (a, _) ← lift (mAddr (s.thr t) ra true n (.disp disp))
  let (e, ga) ← segCheck t (s.thr t).priv a n n false .r 0
  waitFor t (spansOf s.smap c ga n)
  let g : GAcc := { addr := a, ga := ga, size := n, tagged := false, wdata := none, kseg := e.k, stream := false,
                    fin := .acquire rd.val scope, map := s.smap }
  let x := (← get).core c
  let own := (dcDirty x.dc).filter (fun k => (dcNames s.smap (ga / 64)).contains (dcGet x.dc k).line)
  drainThen t own (.ldAcq t rd ra scope size disp) (some g) (startAcc t g)

/-- st.rel (R298): earlier writes within its scope first, then its own store past the cache. -/
def stRelBody (t : Tid) (rs ra : Reg) (scope : Scope) (size : Size) (disp : BitVec 10) : M Ctl := do
  let s ← get
  let n := sizeBytes size
  let c := t.core.val
  let (a, _) ← lift (mAddr (s.thr t) ra true n (.disp disp))
  let v ← lift (storeSource (s.reg t rs.val))
  let (e, ga) ← segCheck t (s.thr t).priv a n n false .w 0
  waitFor t (spansOf s.smap c ga n)
  let g : GAcc := { addr := a, ga := ga, size := n, tagged := false, wdata := some (leBytes n v.toNat), kseg := e.k,
                    stream := false, fin := .release, map := s.smap }
  let x := (← get).core c
  if writesPending x c t.thr.val scope then throw .wait
  drainThen t (scopeKeys x scope) (.stRel t rs ra scope size disp) (some g) (startAcc t g)

/-- The end of a fence: an acquire empties the cache (R299). -/
def fenceEnd (t : Tid) (scope : Scope) (acq : Bool) : M Ctl := do
  if acq then acquireNow t scope
  pure .next

/-- The fences (R298 to R300): `rel` waits for writes within the scope at the start. -/
def fenceBody (t : Tid) (scope : Scope) (acq rel : Bool) (i : Instr) : M Ctl := do
  let s ← get
  let x := s.core t.core.val
  if rel && writesPending x t.core.val t.thr.val scope then throw .wait
  drainThen t (scopeKeys x scope) i none (fenceEnd t scope acq)

def execLdAcq (t : Tid) (rd ra : Reg) (scope : Scope) (size : Size) (disp : BitVec 10) (s : State) : O :=
  issue t false false (ldAcqBody t rd ra scope size disp) s
def execStRel (t : Tid) (rs ra : Reg) (scope : Scope) (size : Size) (disp : BitVec 10) (s : State) : O :=
  issue t false false (stRelBody t rs ra scope size disp) s
def execFenceAcq (t : Tid) (scope : Scope) (s : State) : O :=
  issue t false false (fenceBody t scope true false (.fenceAcq t scope)) s
def execFenceRel (t : Tid) (scope : Scope) (s : State) : O :=
  issue t false false (fenceBody t scope false true (.fenceRel t scope)) s
def execFenceBoth (t : Tid) (scope : Scope) (s : State) : O :=
  issue t false false (fenceBody t scope true true (.fenceBoth t scope)) s

/-- The rest of an instruction whose write-backs are done. -/
def drainedBody (t : Tid) (i : Instr) (g : Option GAcc) : M Ctl :=
  match g, i with
  | some g, _ => startAcc t g
  | none, .fenceAcq _ scope | none, .fenceBoth _ scope => fenceEnd t scope true
  | none, _ => pure .next

/-! ## Completion rows -/

/-- Let held instructions whose write-backs are done go on; one that still finds no room at its port stays held. -/
def resumeDrains (c : Fin 512) : List Nat → M Unit
  | [] => pure ()
  | n :: ns => do
    let s ← get
    let t : Tid := ⟨c, Fin.ofNat 8 n⟩
    match (s.thr t).held with
    | some (.drain i g) =>
      if !drainWaits (s.core c.val).dc i g then
        let (r, s') := runM (finishCtl t (drainedBody t i g)) s
        match r with
        | .ok _ => set s'
        | .error _ => pure ()
    | _ => pure ()
    resumeDrains c ns

/-- Let stalled accesses try again once the miss slot is free (R160). -/
def resumeMisses (c : Fin 512) : List Nat → M Unit
  | [] => pure ()
  | n :: ns => do
    let s ← get
    let t : Tid := ⟨c, Fin.ofNat 8 n⟩
    match (s.thr t).held with
    | some (.miss g) =>
      if (s.core c.val).dc.miss ≠ some t.thr then
        let (r, s') := runM (finishCtl t (cacheAccess t g)) s
        match r with
        | .ok _ => set s'
        | .error _ => pure ()
    | _ => pure ()
    resumeMisses c ns

/-- The answer of an outstanding access: performed at its target under the map of its issue, its thread goes on or
faults (R89, R294, R315, R549). One that a peer had no record for sets out again (R411). -/
def accResponse (t : Tid) (g : GAcc) (ext : ExtAns) : M Ctl := do
  let s ← get
  let c := t.core.val
  if 128 ≤ g.slot ∧ g.answer.isNone then startAcc t g
  else
  match outcome regW s (.thread t) c g.map ext g.acc g.slot g.answer with
  | none => throw .wait
  | some r => do
    set r.s
    if r.priv then mtrap .priv 0 (wAddr g.addr)
    statusTrap g.kseg 0 (wAddr g.addr) r.status
    match g.wdata with
    | some b => do
      modify (fun s => s.modDc c (fun d => dcUpdate s.smap d g.ga b))
      accFinish t g []
    | none => do
      let s ← get
      accFinish t g (dcOverlayGo s.smap (s.core c).dc 3 g.ga (padTo 0 g.size r.data))

/-- The line of a fill joins the cache and its access completes. -/
def fillEnd (t : Tid) (g : GAcc) (st : Status) (b : List Byte) : M Ctl := do
  let c := t.core.val
  let line := g.ga / 64
  statusTrap false 0 (wAddr g.addr) st
  let s ← get
  let (k, d) := dcVictim (s.core c).dc line
  let b := dcOverlay s.smap d (64 * line) b
  let l : DLine := { valid := true, line := line, bytes := b, age := if g.stream then 3 else 0 }
  set (s.modDc c (fun _ => dcPut d k l))
  match g.wdata with
  | some b => do
    modify (fun s => s.modDc c (fun d => dcStore s.smap d k g.ga b))
    accFinish t g []
  | none => accFinish t g (slice b (g.ga % 64) g.size)

/-- A fill: the line joins the cache, its access completes, stalled accesses go on (R159, R160). A fill that has not
been requested is requested now, once its victim is written back. -/
def fillComplete (c : Fin 512) (ext : ExtAns) : M Unit := do
  let s ← get
  let d := (s.core c.val).dc
  match d.miss with
  | none => pure ()
  | some n =>
    let t : Tid := ⟨c, n⟩
    match (s.thr t).held with
    | some (.miss g) =>
      if d.wbs.any (fun w => decide (w.why = .evict n)) then pure ()
      else if 128 ≤ g.slot ∧ g.answer.isNone then set (sendFill s t g)
      else do
        let acc := Acc.read (g.ga / 64 * 64) 64
        let done : Option AccRes := match g.answer with
          | some (n, d) => some (answerOf n d s)
          | none => if slotLost s c.val g.slot then none else withMap g.map s (fun s => performOnce noRegW s (.thread t) c.val g.slot ((s.port c.val).slot g.slot).gen ext acc)
        match done with
        | none => throw .wait
        | some r => do
          let s := if g.slot < 128 then fabFree r.s c.val g.slot else r.s
          set (s.modDc c.val (fun d => { d with miss := none }))
          finishCtl t (fillEnd t g r.status r.data)
          resumeMisses c (countFrom 0 8)
    | _ => set (s.modDc c.val (fun d => { d with miss := none }))

def execDcacheFillComplete (c : Fin 512) (ext : ExtAns) (s : State) : O :=
  runCmd (fillComplete c ext) s

/-- A write-back that its instruction waits for has failed: MACHINE_CHECK at it; one whose instruction has faulted already is
only counted; any other stops the core (R550). -/
def wbFailed (c : Fin 512) (w : WriteBack) : M Unit := do
  let s ← get
  let fault := fun (n : Fin 8) => do
    let s ← get
    takeFault ⟨c, n⟩ { cause := .machineCheck, detail := wInt (BitVec.ofNat 64 (64 * w.line)) } (s.thr ⟨c, n⟩).pc
    settle ⟨c, n⟩
  match w.why with
  | .evict n =>
    match (s.thr ⟨c, n⟩).held with
    | some (.miss _) => do
      set (s.modDc c.val (fun d => { d with miss := none }))
      fault n
      resumeMisses c (countFrom 0 8)
    | _ => pure ()
  | .drain n =>
    match (s.thr ⟨c, n⟩).held with
    | some (.drain _ _) => fault n
    | _ => pure ()
  | _ => set (coreMachineCheck s c.val)

/-- The fill behind a victim that has been written is requested (R160). -/
def fillBehind (c : Fin 512) (w : WriteBack) : M Unit := do
  let s ← get
  match w.why with
  | .evict n =>
    match (s.thr ⟨c, n⟩).held with
    | some (.miss g) => if (s.core c.val).dc.miss = some n then set (sendFill s ⟨c, n⟩ g)
    | _ => pure ()
  | _ => pure ()

/-- A write-back returns its status: done, or the line is lost and the error reported to whom R550 says. One that has
not been sent takes its turn at the port. -/
def writebackComplete (c : Fin 512) (i : Nat) (ext : ExtAns) : M Unit := do
  let s ← get
  match (s.core c.val).dc.wbs[i]? with
  | none => pure ()
  | some w =>
    if 128 ≤ w.slot ∧ w.answer.isNone then set (wbSend s c.val)
    else
      match wbPerform s c.val ext w with
      | none => throw .wait
      | some r => do
        set (wbSend (r.s.modDc c.val (fun d => { d with wbs := d.wbs.eraseIdx i })) c.val)
        if r.status = .ok then fillBehind c w
        else do
          modify (fun s => s.modDc c.val (fun d =>
            match dcFind d w.line with
            | some k => dcLose d k
            | none => { d with mcCnt := d.mcCnt + 1 }))
          wbFailed c w
        resumeDrains c (countFrom 0 8)

def execDcacheWritebackComplete (c : Fin 512) (i : Nat) (ext : ExtAns) (s : State) : O := runCmd (writebackComplete c i ext) s

/-- A FLUSH or INVAL action ends once its write-backs are done; INVAL then invalidates every line (R162). -/
def execDcacheActionComplete (c : Fin 512) (s : State) : O :=
  let d := (s.core c.val).dc
  match d.action with
  | none => .next s
  | some inval =>
    if d.wbs.any (fun w => decide (w.why = .action)) then .next s
    else
      let s := if inval then refetch s c.val (fun _ => true) else s
      .next (s.modDc c.val (fun d => { d with action := none, ways := if inval then [] else d.ways }))

end Sys2Proof.Machine
end

