-- ==== Sys2Proof/Machine/Signal.lean ====
section
/-! DEFINITION. Event lines (R247 to R251), message sending (R253 to R263, R332 to R334), receiving and handlers (R266 to
R270), cinch.arrive (R280), and the rows by which messages, results and barriers travel. -/

namespace Sys2Proof.Machine

/-! ## Event lines -/

/-- Effective priority (R109). -/
def effPri (x : CoreSt) (n : Nat) : Nat :=
  let t := x.t n
  if (decide (n = 0) && x.inShadow) || t.df then 3 else t.pri.toNat

/-- The mask of an event instruction (R250). -/
def evMask (w : TWord) : Except Stop (BitVec 16) := do
  let v ← need [.int] 1 w
  if v.toNat / 65536 ≠ 0 then trap .addrForm 1 else pure (v.truncate 16)

/-- The mask a thread waits on in ev.wait. -/
def waitedMask (x : CoreSt) (n : Nat) : BitVec 16 :=
  match (x.t n).held with
  | some (.wait (.evWait _ _ ra)) => (x.t n).reg ra.val |>.data.truncate 16
  | _ => 0

/-- Another waiting thread takes pending bits of this mask first: any that waits before an instruction that issues now,
or a better one among those that wait (R249). -/
def evYields (x : CoreSt) (n : Nat) (mask : BitVec 16) (waiting : Bool) : Bool :=
  (countFrom 0 8).any (fun k =>
    decide (k ≠ n) && decide (x.evt &&& waitedMask x k &&& mask ≠ 0)
    && (!waiting || decide (effPri x n < effPri x k) || (decide (effPri x n = effPri x k) && decide (k < n))))

/-- Consume pending bits into rd; a completion line among them is an acquire (R248, R304). -/
def evTake (t : Tid) (rd : Nat) (mask : BitVec 16) : M Ctl := do
  let s ← get
  let x := s.core t.core.val
  let got := x.evt &&& mask
  if x.evtAcq &&& mask ≠ 0 then acquireNow t .system
  modify (fun s => (s.modCore t.core.val (fun x =>
    { x with evt := x.evt &&& ~~~got, evtAcq := x.evtAcq &&& ~~~got })).setReg t rd (wInt (got.zeroExtend 64)))
  pure .next

/-- ev.wait (R248); `waiting`: its thread is already in WAIT. -/
def evWaitBody (t : Tid) (rd ra : Reg) (waiting : Bool) : M Ctl := do
  let s ← get
  let mask ← lift (evMask (s.reg t ra.val))
  let x := s.core t.core.val
  if mask ≠ 0 ∧ evYields x t.thr.val mask waiting then throw .wait
  if mask = 0 ∨ x.evt &&& mask ≠ 0 then evTake t rd.val mask else pure (.hold (.wait (.evWait t rd ra)))

def execEvWait (t : Tid) (rd ra : Reg) (s : State) : O := issue t false false (evWaitBody t rd ra false) s

/-- ev.poll (R250). -/
def execEvPoll (t : Tid) (rd ra : Reg) (s : State) : O :=
  issue t false false (do
    let s ← get
    let mask ← lift (evMask (s.reg t ra.val))
    if evYields (s.core t.core.val) t.thr.val mask false then throw .wait
    evTake t rd.val mask) s

/-- ev.sig (R250). -/
def execEvSig (t : Tid) (ra : Reg) (s : State) : O :=
  issue t false false (do
    let s ← get
    let mask ← lift (evMask (s.reg t ra.val))
    modify (fun s => s.modCore t.core.val (fun x => { x with evt := x.evt ||| mask }))
    pure .next) s

/-! ## Handles -/

/-- The device of a handle, when it is another one. -/
def remDev (s : State) (rem : Bool) (dev : Nat) : Option (BitVec 10) :=
  if rem ∧ dev ≠ s.lat.id.toNat then some (BitVec.ofNat 10 dev) else none

/-- A queue handle's layout holds (R254). -/
def queueHandleOk (n : Nat) : Bool :=
  (bitOf n 55 || decide (bitsOf n 54 45 = 0)) && decide (bitsOf n 34 21 = 0)
  && (!bitOf n 35 || (decide (bitsOf n 44 36 = 0) && decide (bitsOf n 20 16 = 0) && decide (bitsOf n 15 0 = 0)))

/-- A skiver handle's layout holds (R332). -/
def skiverHandleOk (n : Nat) : Bool := decide (bitsOf n 44 38 ≤ 79) && decide (bitsOf n 37 16 = 0)

/-- Where a handle points (R254, R332, R334); CLASS 0 enters a skiver's priority queue. -/
def handleTarget (s : State) (w : Word) (cls : BitVec 2) : Option Target :=
  let n := w.toNat
  let dev := remDev s (bitOf n 55) (bitsOf n 54 45)
  let epoch := BitVec.ofNat 16 n
  if n / 2 ^ 56 = 1 then
    if !queueHandleOk n then none
    else if bitOf n 35 then some (.injection dev)
    else some (.queue dev (bitsOf n 44 36) (bitsOf n 20 16) epoch)
  else if n / 2 ^ 56 = 3 then
    if skiverHandleOk n then some (.skiver dev (bitsOf n 44 38) (decide (cls = 0)) epoch) else none
  else none

/-- The epoch mq.h writes (R255): 0 for a fenced or unreachable target and for the injection port; a peer's own is
what the world answers. -/
def handleEpoch (s : State) (n : Nat) (ext : BitVec 16) : BitVec 16 :=
  if bitOf n 35 then 0
  else match remDev s (bitOf n 55) (bitsOf n 54 45) with
    | some d => if routeTo s false d.toNat then ext else 0
    | none => if coreUnreach s (bitsOf n 44 36) then 0 else (s.core (bitsOf n 44 36)).epoch

/-- mq.h: completes a handle (R255). -/
def execMqH (t : Tid) (rd ra : Reg) (ext : BitVec 16) (s : State) : O :=
  issue t false false (do
    let s ← get
    let v ← lift (need [.int] 1 (s.reg t ra.val))
    let n := v.toNat
    let w := (v &&& 0x00FFFFFFFFFF0000) ||| 0x0100000000000000 ||| (handleEpoch s n ext).zeroExtend 64
    modify (fun s => s.setReg t rd.val ⟨.hndl, w⟩)
    pure .next) s

/-! ## Staging (R256, R259) -/

def stage (t : Tid) (b : List Byte) : M Ctl := do
  let s ← get
  if 4096 < (s.thr t).staging.length + b.length then mtrap .mqStage
  modify (fun s => s.modThr t (fun x => { x with staging := x.staging ++ b }))
  pure .next

/-- mq.put. -/
def execMqPut (t : Tid) (ra : Reg) (s : State) : O :=
  issue t false false (do
    let s ← get
    let v ← lift (need [.int, .f64] 1 (s.reg t ra.val))
    stage t (leBytes 8 v.toNat)) s

/-- mq.putr: its checks in the order of R256, then the bytes through the D-port. -/
def execMqPutr (t : Tid) (ra rb : Reg) (s : State) : O :=
  issue t false false (do
    let s ← get
    let c := t.core.val
    let a ← lift (need [.int] 1 (s.reg t ra.val))
    let nb ← lift (need [.int] 2 (s.reg t rb.val))
    let n := nb.toNat
    if n % 16 ≠ 0 ∨ n = 0 ∨ 4096 < n then mtrap .mqStage 2
    if a.toNat % 16 ≠ 0 then mtrap .align 0 (wInt a)
    let rows := (a.toNat % 512 + n + 511) / 512
    let p ← lift (spadCheck (s.core c) ((s.core c).win t.thr.val) a rows 1 0)
    if 4096 < (s.thr t).staging.length + n then mtrap .mqStage
    waitFor t [.spad p n]
    let (r, s) := spadRead s c p n
    set s
    match r with
    | none => mtrap .machineCheck 0 (wInt a)
    | some b => stage t b) s

/-- mq.drop. -/
def execMqDrop (t : Tid) (s : State) : O :=
  issue t false false (do
    modify (fun s => s.modThr t (fun x => { x with staging := [] }))
    pure .next) s

/-! ## Queue trace (R517) -/

/-- Record an event of queue `q` of core `c`: event, status, header word 0; bit i of TQMASK traces queues 4i to 4i + 3 (R518). -/
def traceQ (s : State) (c q event status word0 : Nat) : State :=
  let x := s.core c
  if !bitOf x.dbg.tqmask.toNat (q / 4) || coreUnreach s c then s
  else
    let w0 := (s.cluster (clusterOf c)).pacer % 2 ^ 40 + q * 2 ^ 40 + event * 2 ^ 48 + status * 2 ^ 52
    s.modCore c (fun x => { x with dbg := { x.dbg with
      trace := tset (fun _ => (0, 0)) x.dbg.trace (x.dbg.tcount.toNat % 256) (BitVec.ofNat 64 w0, BitVec.ofNat 64 word0),
      tcount := x.dbg.tcount + 1 } })

/-- Header word 0 of a message record (R253). -/
def msgWord0 (m : Msg) : Nat := (m.payload.length / 16) * 2 ^ 40 + m.sender.bits

def traceTarget (s : State) (m : Msg) (event status : Nat) : State :=
  match m.target with
  | .queue none c q _ => traceQ s c q event status (msgWord0 m)
  | _ => s

/-! ## Commit (R257, R258, R334) -/

/-- Staged bytes padded with zeros to whole granules; an empty buffer sends 16 bytes. -/
def padGranules (b : List Byte) : List Byte := padTo 0 (16 * max 1 ((b.length + 15) / 16)) b

def scopeOfNum (n : Nat) : Scope :=
  match n with
  | 0 => .core | 1 => .cluster | 2 => .die | _ => .system

/-- A posting of a descriptor starts an asynchronous activity (R295). -/
def Target.isSkiver : Target → Bool
  | .skiver _ _ _ _ => true
  | _ => false

/-- The scope of the release that a commit is (R304). -/
def commitScope (s : State) : Target → Scope
  | .queue none c q _ => scopeOfNum ((s.core c).q q).scope.toNat
  | .queue (some _) _ _ _ => .system
  | .skiver _ _ _ _ | .injection _ => .die

/-- The device of a target, when it is another one. -/
def Target.dev : Target → Option (BitVec 10)
  | .queue d _ _ _ | .skiver d _ _ _ | .injection d => d

def Target.remote (t : Target) : Bool := t.dev.isSome

/-- The unit of this device that a target stands at. -/
def Target.dest : Target → Dest
  | .queue _ c _ _ => .unit c
  | .skiver _ k _ _ => .unit (portOfSlice k)
  | .injection _ => .unit portCp

/-- Granules of a record, its network (R257, R370) and its flits (R369, R371). -/
def recGranules (payload : List Byte) : Nat := payload.length / 16 + 1
def onRein (payload : List Byte) : Bool := decide (recGranules payload ≤ 4)
def recCost (payload : List Byte) : Nat :=
  if onRein payload then 2 * recGranules payload else (recGranules payload + 31) / 32

/-- A posting from a core carries and clears its stale bit of the slice (R353). -/
def takeStale (s : State) (m : Msg) : Bool × State :=
  match m.sender, m.target with
  | .thread _ c _, .skiver none k _ _ =>
    ((s.core c).stale.getLsbD k, s.modCore c (fun x => { x with stale := x.stale &&& ~~~(BitVec.ofNat 80 (2 ^ k)) }))
  | _, _ => (false, s)

/-- A refused posting leaves the bit set, so that no later one uses a copy made before the acquire (R299). -/
def giveStale (s : State) (m : Msg) : State :=
  match m.sender, m.target with
  | .thread _ c _, .skiver _ k _ _ =>
    if m.stale then s.modCore c (fun x => { x with stale := x.stale ||| BitVec.ofNat 80 (2 ^ k) }) else s
  | _, _ => s

/-- A slot of its source port for a message; a peer's is on its way to the link that its class and its draw of MCOL choose,
and without one goes nowhere (R372, R391, R407). -/
def msgTake (s : State) (m : Msg) : Option (Nat × State) :=
  let p := m.sender.port
  match m.target.dev with
  | none => fabAlloc s p m.cls.toNat m.rein m.target.dest (recCost m.payload)
  | some d =>
    (admitAs s p m.cls.toNat m.rein (recCost m.payload)).bind (fun a =>
      match chooseLink a.2 (decide (a.1 = 0)) d.toNat none with
      | (some (_, c, l), s) =>
        (fabTake s p a.1 m.rein true none (.link l)).map (fun r =>
          (r.1, r.2.modPort p (fun x => x.modSlot r.1 (fun y => { y with mcol := c }))))
      | (none, _) => fabTake a.2 p a.1 m.rein false none (.link 0))

/-- The generation that a slot has now. -/
def slotGen (s : State) (p n : Nat) : Bool := ((s.port p).slot n).gen

/-- A message sets out: it takes a slot of its source port; none while there is no room. -/
def sendMsg (s : State) (m : Msg) : Option State :=
  let m := { m with rein := onRein m.payload }
  match msgTake s m with
  | none => none
  | some (n, s) =>
    let (stale, s) := takeStale s m
    let m := { m with id := s.nextId, slot := n, gen := slotGen s m.sender.port n, status := none, parked := false, stale := stale }
    some { traceTarget s m 0 0 with msgs := s.msgs ++ [m], nextId := s.nextId + 1 }

/-- Posted messages of a thread that are outstanding (R258). -/
def postedOut (s : State) (c n : Nat) : Nat :=
  (s.msgs.filter (fun m => decide (m.form = .posted) && decide (m.sender = .thread s.lat.id.toNat c n))).length

def commitBody (t : Tid) (ra rb : Reg) (rd : Reg) (cls : BitVec 2) (form : Form) (i : Instr) : M Ctl := do
  let s ← get
  let c := t.core.val
  let w ← lift (need [.hndl] 1 (s.reg t ra.val))
  let hdr ← lift (need [.int] 2 (s.reg t rb.val))
  match handleTarget s w cls with
  | none => mtrap .mqHandle 1
  | some tgt => do
    if form = .posted ∧ 4 ≤ postedOut s c t.thr.val then pure (.hold (.wait i))
    else do
      releaseNow t (commitScope s tgt)
      if form = .posted ∨ tgt.isSkiver then afterAll t
      let s ← get
      let m : Msg := { id := 0, sender := .thread s.lat.id.toNat c t.thr.val, target := tgt, hdr := hdr,
                       payload := padGranules (s.thr t).staging, cls := cls, form := form }
      match sendMsg s m with
      | none => throw .wait
      | some s' => do
        set s'
        if form = .posted then
          modify (fun s => (s.modThr t (fun x => { x with staging := [] })).setReg t rd.val (wInt 0))
          pure .next
        else pure (.hold (.commit s.nextId i))

def execMqCommitBlocking (t : Tid) (rd ra rb : Reg) (cls : BitVec 2) (s : State) : O :=
  issue t false false (commitBody t ra rb rd cls .blocking (.mqCommitBlocking t rd ra rb cls)) s
def execMqCommitNonblocking (t : Tid) (rd ra rb : Reg) (cls : BitVec 2) (s : State) : O :=
  issue t false false (commitBody t ra rb rd cls .nonblocking (.mqCommitNonblocking t rd ra rb cls)) s
def execMqCommitPosted (t : Tid) (rd ra rb : Reg) (cls : BitVec 2) (s : State) : O :=
  issue t false false (commitBody t ra rb rd cls .posted (.mqCommitPosted t rd ra rb cls)) s

/-! ## Statuses -/

/-- MQ_SEND_INFO of a refusal (R287). -/
def sendInfo (m : Msg) (thr st : Nat) : Half :=
  let (unit, q, rem, kind) := match m.target with
    | .queue d c q _ => (c, q, d.isSome, 0)
    | .skiver d k p _ => (k, b2n p, d.isSome, 1)
    | .injection d => (0, 0, d.isSome, 2)
  BitVec.ofNat 32 (2 ^ 31 + st * 2 ^ 27 + thr * 2 ^ 24 + unit * 2 ^ 15 + q * 2 ^ 10 + b2n rem * 512 + kind * 128)

/-- A refusal other than FULL is counted at the sending core (R261). -/
def countRefusal (s : State) (m : Msg) (st : Nat) : State :=
  match m.sender with
  | .thread _ c n =>
    if st = stOk ∨ st = stFull then s
    else s.modCore c (fun x => { x with sendErr := x.sendErr + 1, sendInfo := sendInfo m n st })
  | _ => s

def State.dropMsg (s : State) (id : Nat) : State := { s with msgs := s.msgs.filter (fun m => decide (m.id ≠ id)) }
/-- Messages that are discarded where they stand give up their slots (R284). -/
def discardMsgs (s : State) (gone : Msg → Bool) : State :=
  (s.msgs.filter gone).foldl (fun s m => endSlot m.sender.port s m.slot) { s with msgs := s.msgs.filter (fun m => !gone m) }
def State.setMsg (s : State) (id : Nat) (f : Msg → Msg) : State :=
  { s with msgs := s.msgs.map (fun m => if m.id = id then f m else m) }
def State.msg (s : State) (id : Nat) : Option Msg := s.msgs.find? (fun m => decide (m.id = id))

/-- The destination register of a commit. -/
def commitRd : Instr → Nat
  | .mqCommitBlocking _ rd _ _ _ | .mqCommitNonblocking _ rd _ _ _ | .mqCommitPosted _ rd _ _ _ => rd.val
  | _ => 0

/-- The stepped instruction of thread `n` would wait: its thread stays there and WAITED is set (R515). -/
def stepWaits (n : Nat) (x : CoreSt) : CoreSt :=
  if x.dbg.stepOut ∧ x.dbg.step.toNat = n then { x with dbg := { x.dbg with stepOut := false, waited := true } } else x

/-- The status of a thread's message returns (R258, R259, R551); a posted one that a fenced core would send again is
discarded (R284). -/
def commitStatus (m : Msg) (st c n : Nat) : M Unit := do
  let s ← get
  let s := fabFree s c m.slot
  let s := if st = stOk ∨ (m.form = .posted ∧ st = stFull) then s else giveStale s m
  if m.form = .posted then
    set (if st = stFull ∧ !s.coreFenced c then s.setMsg m.id (fun m => { m with slot := 128, parked := true })
         else (countRefusal s m st).dropMsg m.id)
  else do
    let t := tidOf c n
    set ((countRefusal s m st).dropMsg m.id)
    match (s.thr t).held with
    | some (.commit id i) =>
      if id ≠ m.id then pure ()
      else if st = stFull ∧ m.form = .blocking then do
        modify (fun s => (s.modThr t (fun x => { x with held := some (.wait i), st := .wait })).modCore c (stepWaits n))
        settle t
      else
        finishCtl t (do
          modify (fun s => (s.setReg t (commitRd i) (wInt (BitVec.ofNat 64 st))).modThr t (fun x =>
            if st = stFull then x else { x with staging := [] }))
          pure .next)
    | _ => pure ()

/-- COMMIT_STATUS. -/
def execCommitStatus (id : Nat) (s : State) : O :=
  match s.msg id with
  | some m =>
    match m.sender, m.status, m.parked with
    | .thread _ c n, some st, false => runCmd (commitStatus m st c n) s
    | _, _, _ => .next s
  | none => .next s

/-- A message that was answered FULL waits for its next attempt; it keeps its place in the order of R262. -/
def State.park (s : State) (id : Nat) : State := s.setMsg id (fun m => { m with status := some stFull, slot := 128, parked := true })

/-- A parked message sets out again, in a fresh slot (R258, R357, R381, R454); none while there is no room. -/
def resendMsg (s : State) (m : Msg) : Option State :=
  (msgTake s m).map (fun p =>
    p.2.setMsg m.id (fun m => { m with slot := p.1, gen := slotGen p.2 m.sender.port p.1, status := none, parked := false }))

/-- POSTED_RESEND. -/
def execPostedResend (id : Nat) (s : State) : O :=
  .next (match s.msg id with
    | some m => if m.parked && decide (m.form = .posted) then (resendMsg s m).getD s else s
    | none => s)

/-! ## Delivery -/

/-- TADDR of a record or posting: its handle's bits below DEV (R254, R332, R404; log 83). -/
def targetWord : Target → Nat
  | .queue _ c q e => c * 2 ^ 36 + q * 2 ^ 16 + e.toNat
  | .skiver _ k _ e => k * 2 ^ 38 + e.toNat
  | .injection _ => 2 ^ 35

/-- The bytes of a message's packet: the record of R253. -/
def msgBytes (m : Msg) : List Byte := leBytes 8 (msgWord0 m) ++ leBytes 8 m.hdr.toNat ++ m.payload

/-- The packet of a message to a peer. -/
def msgBody (kind : PktKind) (m : Msg) : LatBody :=
  { kind := kind, taddr := BitVec.ofNat 64 (targetWord m.target)
    bytes := msgBytes m }

/-- The unit of this device that a target stands at, as FabBase numbers them. -/
def Target.unit : Target → Option Nat
  | .queue none c _ _ => some c
  | .skiver none k _ _ => some (portOfSlice k)
  | .injection none => some 700
  | _ => none

/-- A message that has been performed is recorded at its target (R381), with 16 added to its status; FULL is not
performed. -/
def dupMsg (s : State) (m : Msg) (st : Nat) : State :=
  match m.target.unit with
  | some u =>
    if st = stFull ∨ 128 ≤ m.slot then s
    else dupSet s u m.sender.port m.slot m.gen (16 + st)
  | none => s

/-- Take a delivery's status and trace it; a response to a sender that has been reset is discarded (R382). -/
def answerMsg (s : State) (m : Msg) (st : Nat) : State :=
  let s := dupMsg s m st
  let s := if m.lost then s.dropMsg m.id else s.setMsg m.id (fun m => { m with status := some st })
  traceTarget s m (if st = stOk then 1 else 2) st

/-- A message reaches its peer's link: UNREACH without a route (R260, R407), else its frames leave, once, by the link that its
way leads to, and its status is the peer's answer (R411). Frames whose link cannot carry them any more are lost (R410). -/
def reachPeer (s : State) (kind : PktKind) (m : Msg) (d : Nat) : State :=
  let p := m.sender.port
  let y := (s.port p).slot m.slot
  let cls := if m.lost then m.cls.toNat else y.cls
  let minimal := decide (cls = 0)
  let me := s.lat.id.toNat
  if m.away s then s
  else if !routeTo s minimal d then answerMsg s m stUnreach
  else
    let b := msgBody kind m
    let h := if minimal then minimalHop me d else spreadHop me d y.mcol
    let f : LatFrom := { sdev := me, src := p, slot := m.slot % 128, gen := m.gen, cls := cls, cm := y.cm }
    let l := match y.dest with
      | .link l => if !m.lost && mayTake s h.last (routeEntry s h.entry) l then some l else none
      | _ => none
    match l with
    | some l => emitFrames (setBody s p m.slot d y.mcol b) l f d h.pos (if minimal then d % 32 else y.mcol) b
    | none => if m.lost then (sendLat s minimal f d none b).2.dropMsg m.id else setBody s p m.slot d y.mcol b

/-- A message reaches its target; what its packet meets there is `here`. A packet that has been discarded reaches nothing. -/
def reach (kind : PktKind) (here : State → Msg → Option (Nat × State)) (id : Nat) (s : State) : State :=
  match s.msg id with
  | some m =>
    if m.status.isSome || heldBack s m || (!m.lost && slotLost s m.sender.port m.slot) then s
    else match m.target.dev with
      | some d => reachPeer s kind m d.toNat
      | none =>
        match here s m with
        | some (st, s) => answerMsg s m st
        | none => s
  | none => s

/-- A message at a queue of this device; `combining`: which kind of queue this row is for. -/
def atQueue (combining : Bool) (s : State) (m : Msg) : Option (Nat × State) :=
  match m.target with
  | .queue _ c q e => if ((s.core c).q q).kind ≠ combining then none else some (deliver s m.sender c q e m.hdr m.payload)
  | _ => none

/-- A message reaches its queue. A peer's queue may be of either kind. -/
def reachQueue (combining : Bool) (id : Nat) (s : State) : State :=
  match (s.msg id).map Msg.target with
  | some (.queue _ _ _ _) => reach (if combining then .contribution else .record) (atQueue combining) id s
  | _ => s

/-- The injection-port queue takes a message, up to 64 (R21). -/
def injPut (s : State) (sender : Sender) (hdr : Word) (payload : List Byte) : Nat × State :=
  if portDepth ≤ s.cp.inj.length then (stFull, s)
  else (stOk, { s with cp := { s.cp with inj := s.cp.inj ++ [.message sender hdr payload] } })

/-- A message reaches the injection port, here or on a peer device (R21, R260). -/
def reachInjection (id : Nat) (s : State) : State :=
  match (s.msg id).map Msg.target with
  | some (.injection _) => reach .record (fun s m => some (injPut s m.sender m.hdr m.payload)) id s
  | _ => s

/-- MESSAGE_DELIVERY (R260, R264). -/
def execMessageDelivery (id : Nat) (s : State) : O := .next (reachQueue false id s)
/-- COMBINING_CONTRIBUTION (R276). -/
def execCombiningContribution (id : Nat) (s : State) : O := .next (reachQueue true id s)

/-- COMBINED_RESULT_DELIVERY (R276): the lowest complete slot that fits (log 17). -/
def execCombinedResultDelivery (c : Fin 512) (q : Fin 32) (s : State) : O :=
  let x := (s.core c.val).q q.val
  if s.coreFenced c.val || !x.opened || !x.kind then .next s
  else match readySlot x with
    | none => .next s
    | some i =>
      let n := (resultLen x.op.toNat (x.slot i).len + 15) / 16
      let w := 2 * 2 ^ 60 + n * 2 ^ 40 + 3 * 2 ^ 30 + s.lat.id.toNat * 2 ^ 20 + c.val * 2 ^ 11
      let s := deliverResult s c.val q.val i
      .next (if ((s.core c.val).q q.val).opened then traceQ s c.val q.val 6 0 w else s)

/-! ## Receiving (R266 to R270) -/

/-- A message that may be taken into service. -/
def QueueSt.ready (q : QueueSt) : Bool :=
  !q.inServ && (match q.recs with
    | (_, false) :: _ => true
    | _ => false)

/-- Payload granules of the message at HEAD. -/
def QueueSt.headLen (q : QueueSt) : Nat :=
  match q.recs with
  | (n, _) :: _ => n - 1
  | [] => 0

/-- Physical byte of the record at HEAD. -/
def QueueSt.headByte (q : QueueSt) : Nat := ringByte q (q.head.toNat % q.cap)

/-- The message address for a thread (R268). -/
def msgAddr (x : CoreSt) (n q : Nat) : Word :=
  BitVec.ofInt 64 (((x.q q).headByte + 16 : Nat) - (512 * (x.win n).base : Nat) : Int)

/-- Header word 0 of the record at HEAD, as it stands in the ring. -/
def headWord0 (x : CoreSt) (q : Nat) : Nat := leNat (readBytes x.spad.mem.bytes (x.q q).headByte 8)

/-- Take the message at HEAD into service. -/
def serve (s : State) (c q event : Nat) : State :=
  let s := traceQ s c q event 0 (headWord0 (s.core c) q)
  s.modCore c (fun x => x.modQ q (fun y => { y with inServ := true }))

/-- mq.recv (R267). -/
def recvBody (t : Tid) (rd ra : Reg) (nb : Bool) : M Ctl := do
  let s ← get
  let c := t.core.val
  let v ← lift (need [.int] 1 (s.reg t ra.val))
  if 32 ≤ v.toNat then mtrap .mqQueue 1
  let q := v.toNat
  let x := (s.core c).q q
  if x.bind then mtrap .mqMode
  if x.inServ || x.ready then do
    acquireNow t (scopeOfNum x.scope.toNat)
    modify (fun s =>
      let s := if x.inServ then s else serve s c q 3
      let a := (msgAddr (s.core c) t.thr.val q).toNat % 2 ^ 48
      s.setReg t rd.val (wInt (BitVec.ofNat 64 (a + x.headLen * 2 ^ 52))))
    pure .next
  else if !x.opened && x.recs.isEmpty then mtrap .mqQueue
  else if nb then do
    modify (fun s => s.setReg t rd.val (wInt 0))
    pure .next
  else pure (.hold (.wait (.mqRecv t rd ra nb)))

def execMqRecv (t : Tid) (rd ra : Reg) (nb : Bool) (s : State) : O := issue t false false (recvBody t rd ra nb) s

/-- HEAD passes over the record in service and the PADs behind it (R266, R270). -/
def freeHead (q : QueueSt) : QueueSt :=
  match q.recs with
  | (n, _) :: r => skipPads (r.length + 1) { q with head := q.head + BitVec.ofNat 16 n, recs := r, inServ := false }
  | [] => { q with inServ := false }

/-- mq.done (R270). -/
def execMqDone (t : Tid) (ra : Reg) (s : State) : O :=
  issue t false false (do
    let s ← get
    let c := t.core.val
    let th := s.thr t
    let v ← lift (need [.int] 1 (s.reg t ra.val))
    if 32 ≤ v.toNat then mtrap .mqQueue 1
    let q := v.toNat
    let x := (s.core c).q q
    let mine := decide (th.handler.map Fin.val = some q)
    if !th.priv && x.bind && !mine then mtrap .priv
    if !x.inServ then mtrap .mqNomsg
    let s := traceQ s c q 5 0 (headWord0 (s.core c) q)
    set (s.modCore c (fun y => y.modQ q freeHead))
    if t.thr.val ≠ 0 ∧ mine then
      modify (fun s => s.modThr t (fun y => { y with handler := none, st := .dispatch }))
      pure .stay
    else pure .next) s

/-- mq.disp (R269, R285): thread 0 and a thread with no bound queue raise MQ_MODE. -/
def execMqDisp (t : Tid) (s : State) : O :=
  issue t false false (do
    let s ← get
    let x := s.core t.core.val
    let bound := (countFrom 0 32).any (fun q => (x.q q).bind && decide ((x.q q).thr = t.thr))
    if t.thr.val = 0 ∨ !bound then mtrap .mqMode
    modify (fun s => s.modThr t (fun y => { y with handler := none, st := .dispatch }))
    pure .stay) s

/-- The lowest bound queue of a thread with a message to dispatch (R269). -/
def nextDispatch (x : CoreSt) (n : Nat) : Option Nat :=
  (countFrom 0 32).find? (fun q => let y := x.q q; y.bind && decide (y.thr.val = n) && y.ready)

/-- The core runs: not fenced, not halted, power ACTIVE. -/
def coreRuns (s : State) (c : Nat) : Bool := !s.coreFenced c && !(s.core c).dbg.haltReq && s.active

/-- The acquire of a dispatch; no instruction waits for its write-backs, so a failed one stops the core (R550). -/
def dispatchAcquire (t : Tid) (q : Nat) : M Bool := do
  let s ← get
  let (r, s') := runM (acquireNow t (scopeOfNum ((s.core t.core.val).q q).scope.toNat)) s
  match r with
  | .ok _ => do
    set s'
    pure true
  | .error .wait => throw .wait
  | .error (.trap _) => do
    set (coreMachineCheck s' t.core.val)
    pure false

/-- HANDLER_DISPATCH on threads 1 to 7 (R269). -/
def handlerDispatch (t : Tid) : M Unit := do
  let s ← get
  let c := t.core.val
  let n := t.thr.val
  if n = 0 ∨ (s.thr t).st ≠ .dispatch ∨ !coreRuns s c then pure ()
  else match nextDispatch (s.core c) n with
    | none => pure ()
    | some q => do
      let ok ← dispatchAcquire t q
      if ok then
        modify (fun s =>
          let s := serve s c q 4
          let x := s.core c
          let h := (x.q q).handler
          s.modThr t (fun y =>
            let y := ((y.setReg 1 (wInt (msgAddr x n q))).setReg 2 (wInt (BitVec.ofNat 64 (16 * (x.q q).headLen)))).setReg 3
              (wInt (BitVec.ofNat 64 q))
            { y with pc := codePc h, compat := codeMode h, priv := false, st := .run, handler := some (Fin.ofNat 32 q) }))
      settle t

def execHandlerDispatch (t : Tid) (s : State) : O := runCmd (handlerDispatch t) s

/-! ## Cinch (R279, R280) -/

/-- cinch.arrive: a second one while the first is outstanding is held (R280). -/
def arriveBody (t : Tid) (g : Fin 64) : M Ctl := do
  let s ← get
  let c := t.core.val
  let m := (s.core c).map g.val
  if !m.member then mtrap .cinchGroup
  if m.out then pure (.hold (.wait (.cinchArrive t g)))
  else do
    releaseNow t (if (s.rootOf g.val).en then .system else .die)
    modify (fun s => s.modCore c (fun x => x.modMap g.val (fun m => { m with out := true, abort := false, flight := true })))
    pure .next

def execCinchArrive (t : Tid) (g : Fin 64) (s : State) : O := issue t false false (arriveBody t g) s
def execCinchNodeArrival (c : Fin 512) (g : Fin 64) (s : State) : O := .next (nodeArrival s c.val g.val)
def execCinchRootReport (src : CinchFrom) (g : Fin 64) (s : State) : O := .next (rootReport s src g.val)
def execCinchCompletion (c : Fin 512) (g : Fin 64) (s : State) : O := .next (cinchComplete s c.val g.val)

end Sys2Proof.Machine
end

