-- ==== Sys2Proof/Machine/Threads.lean ====
section
/-! DEFINITION. Entries of thread 0 into its shadow bank (R125, R126), the end of waits (R111), and deadlock (R132, R133).
dma.wait joins the waits in the family of the DMA engine. -/

namespace Sys2Proof.Machine

/-! ## Shadow bank entries -/

/-- Thread 0 may accept notices and dispatches (R126), and no instruction of R123 was its last; `held` is an abandoned wait
or nothing. -/
def mayAccept (s : State) (c : Nat) : Bool :=
  let x := s.core c
  let t := x.t 0
  coreRuns s c && !x.inShadow && !t.df && !x.holdOff && atBoundary x 0
  && (match t.st with
      | .run | .wait => true
      | _ => false)

/-- The lowest FAULTED thread not yet notified (R126). -/
def faultedThread (x : CoreSt) : Option Nat :=
  (countFrom 1 7).find? (fun n => decide ((x.t n).st = .faulted) && !(x.t n).notified)

/-- The global address of a fault frame: its pointer through the supervisor's table of its thread; a table that no longer
translates it leaves the address open (log 2). -/
def frameGa (t : Tid) : M Word := do
  let s ← get
  let x := s.thr t
  let e ← segLookup t x.ssegt.toNat (pSel x.rtp)
  match segGa e (pOff x.rtp) with
  | some g => pure (BitVec.ofNat 64 g)
  | none => mtrap .machineCheck

/-- A notice entry (R125): kind NOTICE, the code in w1's cause word. -/
def noticeEntry (s : State) (c : Nat) (w1 w2 : TWord) : State :=
  s.modCore c (fun x => shadowEntry (mtxAbandon x 0) (x.t 0).pc w1 w2 none (codePc x.excvec) false)

/-- THR_CAUSE[0] of a notice taken: kind NOTICE (R134). -/
def noticeCause (code : Nat) : Word := causeWord 2 0 { cause := .deadlock } code

def shadowBankEntry (c : Fin 512) : M Unit := do
  let s ← get
  let t0 : Tid := ⟨c, 0⟩
  let k := c.val
  if !mayAccept s k then pure ()
  else match (s.core k).dlPend with
    | some mask => do
      let w := noticeCause Cause.deadlock.code
      set (noticeEntry (s.modCore k (fun x => { x with dlPend := none })) k (wInt w) (wInt (BitVec.ofNat 64 mask)))
      setCause t0 w
    | none =>
      match faultedThread (s.core k) with
      | some n => do
        let t := tidOf k n
        let (r, s') := runM (frameGa t) s
        match r with
        | .error .wait => throw .wait
        | _ => do
          let (ga, s') := match r with
            | .ok w => (w, s')
            | .error _ => drawFree s'
          let w1 := wInt ((s.thr t).cause.zeroExtend 64)
          set (noticeEntry (s'.modThr t (fun x => { x with notified := true })) k w1 (wInt ga))
          setCause t0 (noticeCause Cause.threadFault.code)
      | none =>
        match nextDispatch (s.core k) 0 with
        | none => pure ()
        | some q => do
          let ok ← dispatchAcquire t0 q
          if ok then
            modify (fun s =>
              let s := serve s k q 4
              s.modCore k (fun x =>
                let y := x.q q
                let x := shadowEntry (mtxAbandon x 0) (x.t 0).pc (wInt (msgAddr x 0 q))
                  (wInt (BitVec.ofNat 64 (16 * y.headLen))) (some (wInt (BitVec.ofNat 64 q))) (codePc y.handler) (codeMode y.handler)
                x.modT 0 (fun t => { t with handler := some (Fin.ofNat 32 q) })))

/-- SHADOW_BANK_ENTRY. -/
def execShadowBankEntry (c : Fin 512) (s : State) : O := runCmd (shadowBankEntry c) s

/-! ## Deadlock -/

/-- The core acts on a deadlock (R133, R446). DESIGN CHOICE (log 82): the cause word of the host's FAULTED under STOP has
kind NOTICE and thread 0. -/
def deadlockAct (s : State) (c : Nat) : State :=
  let mask := waitMask s c
  let s := s.modCore c (fun x => { x with deadlock := true })
  if mayAccept s c then s.modCore c (fun x => { x with dlPend := some mask })
  else if (s.core c).policyStop then
    (s.modCore c (fun x => { stopOthers x none with stopped := true })).faultedCore c false (noticeCause Cause.deadlock.code)
  else s.viaPort { status := 6, result0 := unitWord 0 c, result1 := BitVec.ofNat 64 mask }

/-- One pacer tick more or less of the condition of R132; a core that is halted, fenced or not in ACTIVE does not count (R514). -/
def tickDeadlock (s : State) (c : Nat) : State :=
  if coreRuns s c then s.modCore c (fun x => { x with dlTicks := if deadlocked s c then min 100 (x.dlTicks + 1) else 0 }) else s

/-- A tick of every core that has left its reset state; in that state no thread counts. -/
def tickCores (s : State) : State := (s.cores.map (·.1)).foldl tickDeadlock s

/-- DEADLOCK: the condition of R132 has held for 100 pacer ticks; it is reported once. -/
def execDeadlock (c : Fin 512) (s : State) : O :=
  let x := s.core c.val
  .next (if coreRuns s c.val && deadlocked s c.val && decide (100 ≤ x.dlTicks) && !x.deadlock then deadlockAct s c.val else s)

end Sys2Proof.Machine
end

