-- ==== Sys2Proof/Machine/Dma.lean ====
section
/-! DEFINITION. DMA channels (R227 to R245): arming, starts, elements, chains, stops; and the end of a blocked
instruction's wait (R111), which needs dma.wait. One element moves at a time: its read is one command, its write the
next. -/

namespace Sys2Proof.Machine

def dmaStatusOf : Status → BitVec 4
  | .ok => 0 | .nowin => 4 | .bound => 5 | .data => 6 | .unreach => 7

/-! ## Becoming current, starting, completing -/

/-- DMA_SRC and DMA_DST follow the position (R245). -/
def dmaWords (d : DmaCh) : DmaCh :=
  let x := descOf d.desc
  { d with srcW := x.src.word d.i0 d.i1 d.i2, dstW := x.dst.word d.i0 d.i1 d.i2 }

/-- A descriptor completes (R231, R232, R237): counted, its full line fires; a linked one is read next, else the
channel is IDLE. -/
def dmaComplete (x : CoreSt) (ch : Nat) : CoreSt :=
  let d := descOf (x.ch ch).desc
  fireFull (x.modCh ch (fun y =>
    let y := { y with done := BitVec.ofNat 16 (satInc 16 y.done.toNat), buf := none }
    if d.link then { y with chain := true } else { y with run := .idle, status := 0, cause := 0 })) ch

/-- A channel starts its descriptor; one that moves nothing is complete at once (R229). -/
def dmaStart (x : CoreSt) (ch : Nat) : CoreSt :=
  let x := x.modCh ch (fun y => { y with run := .run })
  if (descOf (x.ch ch).desc).empty then dmaComplete x ch else x

/-- The descriptor's start condition needs no wait (R231). -/
def startsAtOnce (d : Desc) : Bool :=
  decide (d.start = 0) || (decide (d.start = 1) && decide (d.sarg = 0)) || (decide (d.start = 2) && decide (d.sarg / 256 = 0))

/-- A side whose base names this device by bit 58 is one without it (R406). -/
def DmaSide.own (s : State) : DmaSide → DmaSide
  | .seg base attr => .seg (BitVec.ofNat 64 (ownGa s base.toNat)) attr
  | .spad => .spad

/-- Resolve a side's selector once, through the arming thread's table of its level at the arm (R234). -/
def dmaSide (c : Fin 512) (thr : Fin 8) (sup : Bool) (x : DescSide) : M DmaSide := do
  if x.spad then pure .spad
  else do
    let s ← get
    let t : Tid := ⟨c, thr⟩
    let e ← segLookup t (segTable (s.thr t) sup) x.sel
    pure (.seg e.base e.attr)

/-- The 64 bytes `b` at window offset `ofs` become the channel's current descriptor (R231, R234). A table entry that
cannot be read stops the channel (R234, R238). -/
def dmaCurrent (c : Fin 512) (ch : Nat) (ofs : Nat) (b : List Byte) : M Unit := do
  let s ← get
  let k := c.val
  let y := (s.core k).ch ch
  let d := descOf b
  let now := (s.cluster (clusterOf k)).pacer
  set (s.modCore k (fun x => x.modCh ch (fun y =>
    dmaWords { y with desc := b, cur := ofs, i0 := 0, i1 := 0, i2 := 0, half := false, chain := false, buf := none, since := now })))
  let s ← get
  let (r, s') := runM (do
    let a ← dmaSide c y.thr y.sup d.src
    let e ← dmaSide c y.thr y.sup d.dst
    pure (a, e)) s
  match r with
  | .error .wait => throw .wait
  | .error (.trap tr) => set (s'.modCore k (fun x => dmaEnd (dmaFail x ch 3 tr.cause.code) ch))
  | .ok (a, e) =>
    set (s'.modCore k (fun x =>
      let x := x.modCh ch (fun y => { y with src := a.own s', dst := e.own s' })
      if startsAtOnce d then dmaStart x ch else x.modCh ch (fun y => { y with run := .waitStart })))

/-! ## Instructions (R241 to R243) -/

/-- The channel of a handle (step 1 of R242). -/
def dmaHandle (w : TWord) : Except Stop Nat := do
  let v ← need [.hndl] 1 w
  if v.toNat / 16 ≠ 2 ^ 53 then trap .dmaHandle 1 else pure (v.toNat % 16)

def execDmaH (t : Tid) (rd : Reg) (ch : Fin 16) (s : State) : O :=
  regOp t rd (fun _ => .ok ⟨.hndl, BitVec.ofNat 64 (2 * 2 ^ 56 + ch.val)⟩) s

def dmaBusy (d : DmaCh) : Bool :=
  match d.run with
  | .waitStart | .run => true
  | _ => false

/-- dma.arm: the checks of R242 in order; then the window and the level are captured. -/
def execDmaArm (t : Tid) (ra rb : Reg) (s : State) : O :=
  issue t false false (do
    let s ← get
    let c := t.core.val
    let x := s.core c
    let _ ← lift (need [.hndl] 1 (s.reg t ra.val))
    let b ← lift (need [.int] 2 (s.reg t rb.val))
    let ch ← lift (dmaHandle (s.reg t ra.val))
    if dmaBusy (x.ch ch) then mtrap .dmaBusy
    if b.toNat % 64 ≠ 0 then mtrap .align 0 (wInt b)
    let p ← lift (spadCheck x (x.win t.thr.val) b 1 1 0)
    waitFor t [.spad p 64]
    afterAll t
    let (r, s) := spadRead s c p 64
    set s
    match r with
    | none => mtrap .machineCheck 0 (wInt b)
    | some d => do
      if (descOf d).malformed ch then mtrap .dmaDesc
      modify (fun s => s.modCore c (fun x => x.modCh ch (fun _ =>
        { win := x.win t.thr.val, thr := t.thr, sup := (s.thr t).priv })))
      dmaCurrent t.core ch b.toNat d
      pure .next) s

/-- DMA_STAT (R245). -/
def dmaWaitBody (t : Tid) (rd ra : Reg) (nb : Bool) : M Ctl := do
  let s ← get
  let ch ← lift (dmaHandle (s.reg t ra.val))
  let d := (s.core t.core.val).ch ch
  if nb || !dmaBusy d then do
    modify (fun s => s.setReg t rd.val (wInt (BitVec.ofNat 64 (dmaStat d))))
    pure .next
  else pure (.hold (.wait (.dmaWait t rd ra nb)))

def execDmaWait (t : Tid) (rd ra : Reg) (nb : Bool) (s : State) : O := issue t false false (dmaWaitBody t rd ra nb) s

/-- dma.stop (R239). -/
def execDmaStop (t : Tid) (ra : Reg) (s : State) : O :=
  issue t false false (do
    let s ← get
    let ch ← lift (dmaHandle (s.reg t ra.val))
    modify (fun s => s.modCore t.core.val (fun x => dmaAbort x ch))
    pure .next) s

/-! ## Starts -/

/-- Elements and descriptors start only while the power state is ACTIVE (R479). -/
def dmaMoves (s : State) (c : Nat) : Bool := s.active && !s.coreFenced c

/-- An element is under way: it goes on in HOLD too, until it is finished (R479). -/
def DmaCh.underWay (y : DmaCh) : Bool := !y.reqs.isEmpty || y.buf.isSome

/-- DMA_START_DELAY: SARG ticks of the cluster's pacer after the descriptor became current (R35, R231). -/
def execDmaStartDelay (c : Fin 512) (ch : Fin 16) (s : State) : O :=
  let y := (s.core c.val).ch ch.val
  let d := descOf y.desc
  let due := decide (y.since + d.sarg ≤ (s.cluster (clusterOf c.val)).pacer)
  if dmaMoves s c.val ∧ y.run = .waitStart ∧ d.start = 1 ∧ due then .next (s.modCore c.val (fun x => dmaStart x ch.val))
  else .next s

/-- DMA_START_AFTER_CHANNEL: the named channel has completed enough (R231). -/
def execDmaStartAfterChannel (c : Fin 512) (ch : Fin 16) (s : State) : O :=
  let y := (s.core c.val).ch ch.val
  let d := descOf y.desc
  if dmaMoves s c.val ∧ y.run = .waitStart ∧ d.start = 2 ∧ d.sarg / 256 ≤ ((s.core c.val).ch (d.sarg % 16)).done.toNat then
    .next (s.modCore c.val (fun x => dmaStart x ch.val))
  else .next s

/-! ## Elements (R229, R230, R234, R235) -/

/-- How a side's access ended. -/
inductive DmaRes where
  | ok (b : List Byte)
  | fail (status : BitVec 4) (cause : Nat)
  deriving DecidableEq, Repr

/-- The blocks of an element on the global side, widened to whole sectors: start, length, and where the element's
bytes begin (R235). -/
def sectorBlocks (ga n : Nat) : List (Nat × Nat) :=
  (pieces (n / 512 + 2) ga n).map (fun p => (p.1 / 32 * 32, (p.1 + p.2 + 31) / 32 * 32 - p.1 / 32 * 32))

/-- A global access's place, checked under R88 but for alignment; a refusal is ACCESS, a BASE outside the map UNREACH. A
negative offset fails the bound, after the checks that come before it (R88, R234). -/
def dmaGlobal (base attr : Word) (off : Int) (n : Nat) (p : Perm) : Except (BitVec 4 × Nat) Nat :=
  let e : SegEnt := { table := 0, sel := 0, base := base, attr := attr }
  match segChecks e off.toNat n 1 false p 0 ⟨.int, 0⟩ with
  | .ok g => if off < 0 then .error (3, Cause.segBound.code) else .ok g
  | .error (.trap tr) =>
    if off < 0 ∧ tr.cause ≠ .segNone ∧ tr.cause ≠ .segKind ∧ tr.cause ≠ .segPerm then .error (3, Cause.segBound.code)
    else if tr.cause = .machineCheck then .error (7, 0) else .error (3, tr.cause.code)
  | .error .wait => .error (7, 0)

/-- A scratchpad access's place, checked under R144 and R141 with the captured window. -/
def dmaSpad (x : CoreSt) (w : Window) (off : Int) (n : Nat) : Except (BitVec 4 × Nat) Nat :=
  if off < 0 then .error (3, Cause.spadRange.code)
  else match spadCheck x w (BitVec.ofNat 64 off.toNat) ((off.toNat % 512 + n + 511) / 512) 1 0 with
    | .ok p => .ok p
    | .error (.trap tr) => .error (3, tr.cause.code)
    | .error .wait => .error (7, 0)

/-- The thread that armed a channel. -/
def DmaCh.tid (y : DmaCh) (c : Fin 512) : Tid := ⟨c, y.thr⟩

/-- Write the core's dirty bytes of a span back before the engine uses it; a line that is lost stops the core (R293, R550). -/
def dmaFlush (c : Fin 512) (cls : Nat) (inval : Bool) (ga n : Nat) : M Unit := do
  let s ← get
  let lost ← flushSpan c.val cls inval (linesOf s.smap ga n)
  if !lost.isEmpty then modify (fun s => coreMachineCheck s c.val)

/-- The same before a request of the engine is performed: what the core's cache took in since it was issued goes the same way. -/
def dmaMeet (c : Fin 512) (acc : Acc) : M Unit := do
  let s ← get
  dmaFlush c (threadClass s ⟨c, 0⟩) (accWrites acc) (ownGa s (accOff acc)) (accLen acc)

/-- The place of the element at the channel's position on a global side. -/
def dmaPlace (y : DmaCh) (write : Bool) : Except (BitVec 4 × Nat) Nat :=
  let d := descOf y.desc
  let off := (if write then d.dst else d.src).at_ y.i0 y.i1 y.i2
  match if write then y.dst else y.src with
  | .seg base attr => dmaGlobal base attr off d.esize (if write then .w else .r)
  | .spad => .error (7, 0)

/-- The bus access of one request of an element: whole sectors; a write masks the bytes outside the element (R235). -/
def dmaAcc (y : DmaCh) (r : Req) : Acc :=
  match y.buf, dmaPlace y true with
  | some b, .ok ga =>
    let lo := max ga r.ga
    let hi := min (ga + b.length) (r.ga + r.len)
    .write r.ga (padTo 0 r.len (List.replicate (lo - r.ga) 0 ++ slice b (lo - ga) (hi - lo)))
      (padTo false r.len (List.replicate (lo - r.ga) false ++ List.replicate (hi - lo) true))
  | _, _ => .read r.ga r.len

/-- The part of a request's sectors that is the element's. -/
def dmaPart (ga n : Nat) (r : Req) (data : List Byte) : List Byte :=
  let lo := max ga r.ga
  let hi := min (ga + n) (r.ga + r.len)
  slice data (lo - r.ga) (hi - lo)

/-- Global requests of a core's DMA engine that are outstanding (R236). -/
def dmaOut (x : CoreSt) : Nat := ((countFrom 0 16).map (fun n => (outstanding (x.ch n).reqs).length)).foldl (· + ·) 0

/-- Send what room there is for of the element's requests: at most 64 of a core are outstanding (R236, R372, R391). -/
def dmaSend (c : Fin 512) (ch : Nat) (s : State) : State :=
  let y := (s.core c.val).ch ch
  let n := (outstanding y.reqs).length + (64 - dmaOut (s.core c.val))
  let (l, s) := sendReqs y.map c.val (descOf y.desc).cls (dmaAcc y) (y.reqs.take n) s
  s.modCore c.val (fun x => x.modCh ch (fun z => { z with reqs := l ++ y.reqs.drop n }))

/-- The element's requests on a global side, once its place has passed the checks and the core's own cached bytes of it are in
memory. -/
def dmaOpen (c : Fin 512) (ch : Nat) (write : Bool) : M Unit := do
  let s ← get
  let y := (s.core c.val).ch ch
  match dmaPlace y write with
  | .error (st, cs) => set (s.modCore c.val (fun x => dmaFail x ch st cs))
  | .ok ga => do
    let n := (descOf y.desc).esize
    dmaFlush c (threadClass s (y.tid c)) write ga n
    modify (fun s =>
      let reqs := (sectorBlocks ga n).map (fun p => ({ ga := p.1, len := p.2 } : Req))
      dmaSend c ch (s.modCore c.val (fun x => x.modCh ch (fun y => { y with reqs := reqs, got := [], map := s.smap }))))

/-- Read the source bytes of the element at the channel's position from the scratchpad. -/
def dmaReadSpad (c : Fin 512) (ch : Nat) : M Unit := do
  let s ← get
  let k := c.val
  let y := (s.core k).ch ch
  let d := descOf y.desc
  match dmaSpad (s.core k) y.win (d.src.at_ y.i0 y.i1 y.i2) d.esize with
  | .error (st, cs) => set (s.modCore k (fun x => dmaFail x ch st cs))
  | .ok p =>
    let (r, s) := spadRead s k p d.esize
    set (s.modCore k (fun x =>
      match r with
      | some b => x.modCh ch (fun y => { y with buf := some b })
      | none => dmaFail x ch 6 0))

/-- The position moves past a completed element; the half line fires at its point; the last element completes the
descriptor (R229, R237), unless a stop is under way, which then takes the place of completion (R237, R238). -/
def dmaAdvance (x : CoreSt) (ch : Nat) : CoreSt :=
  let y := x.ch ch
  let d := descOf y.desc
  let (i0, i1, i2) :=
    if y.i0 + 1 < d.l0 then (y.i0 + 1, y.i1, y.i2)
    else if y.i1 + 1 < d.l1 then (0, y.i1 + 1, y.i2)
    else (0, 0, y.i2 + 1)
  let point := !y.half && decide (max 1 (d.l2 / 2) ≤ i2)
  let x := x.modCh ch (fun y => dmaWords { y with i0 := i0, i1 := i1, i2 := i2, buf := none, half := y.half || point })
  let x := if point && d.halfEn then x.fire d.hline else x
  if d.l2 ≤ i2 ∧ y.ending.isNone then dmaComplete x ch else x

/-- DMA_REQUEST_ISSUE: the next element's source is read from the scratchpad, or requested; then its writes to a global
destination are requested; what had no room is sent. -/
def dmaIssue (c : Fin 512) (ch : Nat) : M Unit := do
  let s ← get
  let y := (s.core c.val).ch ch
  if !y.reqs.isEmpty then set (dmaSend c ch s)
  else match y.buf, y.src, y.dst with
    | none, .spad, _ => dmaReadSpad c ch
    | none, .seg _ _, _ => dmaOpen c ch false
    | some _, _, .seg _ _ => dmaOpen c ch true
    | some _, _, .spad => pure ()

/-- The channel may issue: the next element only in ACTIVE; what is left of one in HOLD too; after a stop only what had been
issued and must leave again (R238, R411, R479). -/
def dmaMayIssue (s : State) (c : Nat) (y : DmaCh) : Bool :=
  decide (y.run = .run) && !y.chain && !s.coreFenced c && (if y.ending.isSome then !y.reqs.isEmpty else s.active || y.underWay)

def execDmaRequest (c : Fin 512) (ch : Fin 16) (s : State) : O :=
  if dmaMayIssue s c.val ((s.core c.val).ch ch.val) then runCmd (dmaIssue c ch.val) s else .next s

/-- The element's bytes are written to the scratchpad, through the D-port (R142, R237). -/
def dmaWriteSpad (c : Fin 512) (ch : Nat) (b : List Byte) : M Unit := do
  let s ← get
  let k := c.val
  let y := (s.core k).ch ch
  let d := descOf y.desc
  let fail := fun (st : BitVec 4) (cs : Nat) (x : CoreSt) =>
    let x := x.modCh ch (fun y => { y with buf := none })
    if (x.ch ch).ending.isSome then x else dmaFail x ch st cs
  match dmaSpad (s.core k) y.win (d.dst.at_ y.i0 y.i1 y.i2) d.esize with
  | .error (st, cs) => set (s.modCore k (fail st cs))
  | .ok p =>
    let (ok, s) := spadWrite s k p b (allOn b)
    set (s.modCore k (fun x => if ok then dmaAdvance x ch else fail 6 0 x))

/-- The oldest request of the element has its response: the last of a read gives the element's bytes, the last of a write
completes it if none was refused or dropped; a refusal ends the channel once the requests already out are answered (R236 to
R238). What the core's cache holds of a request's bytes goes before it is performed (R293). -/
def dmaAnswer (c : Fin 512) (ch : Nat) (r : Req) (rest : List Req) (ext : ExtAns) : M Unit := do
  let k := c.val
  let y := ((← get).core k).ch ch
  if r.answer.isNone then dmaMeet c (dmaAcc y r)
  let s ← get
  match outcome regW s (.dma c) k y.map ext (dmaAcc y r) r.slot r.answer with
  | none => throw .wait
  | some a =>
    set (a.s.modCore k (fun x =>
      let x := x.modCh ch (fun y => { y with reqs := rest })
      if a.status ≠ .ok then
        let x := if y.ending.isSome then x else dmaFail x ch (dmaStatusOf a.status) 0
        let x := x.modCh ch (fun y => { y with short := true })
        if (x.ch ch).reqs.isEmpty then x.modCh ch (fun y => { y with buf := none, got := [] }) else x
      else match y.buf with
        | some _ =>
          if !rest.isEmpty then x
          else if y.short then x.modCh ch (fun y => { y with buf := none })
          else dmaAdvance x ch
        | none =>
          let d := descOf y.desc
          let got := y.got ++ (match dmaPlace y false with
            | .ok ga => dmaPart ga d.esize r a.data
            | .error _ => [])
          x.modCh ch (fun y => if rest.isEmpty ∧ y.ending.isNone then { y with buf := some got, got := [] } else { y with got := got })))

/-- DMA_REQUEST_STATUS: a request has its response, or the element's D-port write is done (R237, R238). -/
def dmaStatus (c : Fin 512) (ch : Nat) (ext : ExtAns) : M Unit := do
  let s ← get
  let y := (s.core c.val).ch ch
  match y.reqs, y.buf, y.dst with
  | r :: rest, _, _ => dmaAnswer c ch r rest ext
  | [], some b, .spad => dmaWriteSpad c ch b
  | [], _, _ => pure ()

def execDmaRequestStatus (c : Fin 512) (ch : Fin 16) (ext : ExtAns) (s : State) : O :=
  if ((s.core c.val).ch ch.val).run = .run then runCmd (dmaStatus c ch.val ext) s else .next s

/-- A chained descriptor that fails its read: the channel stops, its predecessor's full line fires once more (R233). -/
def chainFail (x : CoreSt) (ch ofs : Nat) (st : BitVec 4) (cs : Nat) : CoreSt :=
  let x := x.modCh ch (fun y => { y with cur := ofs, i0 := 0, i1 := 0, i2 := 0, chain := false })
  dmaEnd (dmaFail x ch st cs) ch

/-- DMA_CHAIN_READ (R233). -/
def chainRead (c : Fin 512) (ch : Nat) : M Unit := do
  let s ← get
  let k := c.val
  let y := (s.core k).ch ch
  let ofs := 64 * (descOf y.desc).next
  match dmaSpad (s.core k) y.win ofs 64 with
  | .error (st, cs) => set (s.modCore k (fun x => chainFail x ch ofs st cs))
  | .ok p =>
    let (r, s) := spadRead s k p 64
    match r with
    | none => set (s.modCore k (fun x => chainFail x ch ofs 6 0))
    | some b => do
      if (descOf b).malformed ch then set (s.modCore k (fun x => chainFail x ch ofs 2 0))
      else do
        set s
        dmaCurrent c ch ofs b

def execDmaChainRead (c : Fin 512) (ch : Fin 16) (s : State) : O :=
  let y := (s.core c.val).ch ch.val
  if dmaMoves s c.val ∧ y.run = .run ∧ y.chain ∧ y.ending = none then runCmd (chainRead c ch.val) s else .next s

/-- DMA_STOPPED: the issued requests are done, the channel becomes STOPPED and its full line fires (R237, R238). -/
def execDmaStopped (c : Fin 512) (ch : Fin 16) (s : State) : O :=
  let y := (s.core c.val).ch ch.val
  if y.run = .run ∧ y.ending.isSome ∧ y.reqs = [] then .next (s.modCore c.val (fun x => dmaEnd x ch.val)) else .next s

/-! ## The end of a wait (R111) -/

/-- A blocked instruction executes again while its thread waits. -/
def waitBody (t : Tid) (i : Instr) : M Ctl :=
  match i with
  | .evWait _ rd ra => evWaitBody t rd ra true
  | .mqRecv _ rd ra nb => recvBody t rd ra nb
  | .mqCommitBlocking _ rd ra rb cls => commitBody t ra rb rd cls .blocking i
  | .mqCommitPosted _ rd ra rb cls => commitBody t ra rb rd cls .posted i
  | .cinchArrive _ g => arriveBody t g
  | .dmaWait _ rd ra nb => dmaWaitBody t rd ra nb
  | _ => pure .next

/-- BLOCKING_WAIT_COMPLETE: nothing changes while the source has not delivered. -/
def execBlockingWaitComplete (t : Tid) (s : State) : O :=
  match (s.thr t).held with
  | some (.wait i) => if coreRuns s t.core.val then runCmd (do finishCtl t (waitBody t i); modify (deadlockOver t.core.val)) s else .next s
  | _ => .next s

end Sys2Proof.Machine
end

