-- ==== Sys2Proof/Machine/Upkeep.lean ====
section
/-! DEFINITION. Memories seen from outside and their upkeep: remote accesses (R147 to R152), burnish (R156, R157, R320),
slice requests (R310), refresh and stack clocks (R321, R323), upsets (R154, R161, R163, R317, R328, R427). -/

namespace Sys2Proof.Machine

/-- A span of 1 to 512 bytes with one enable for each byte of a write (R147): any other is no access (log 88). -/
def accWf (a : Acc) : Bool :=
  decide (1 ≤ accLen a) && decide (accLen a ≤ 512)
  && (match a with
      | .read _ _ => true
      | .write _ d e => decide (d.length = e.length))

/-- REMOTE_ACCESS (R147, R148): the reply is the status with a read's bytes. The management plane comes by the fence-and-test
ports and sends none (R24). -/
def execRemoteAccess (a : Agent) (c : Fin 512) (acc : Acc) (s : State) : O :=
  if !accWf acc || decide (a = .mgmt) then .next s
  else
    let (st, d, s) := keeperAcc s a c.val acc
    .next (s.answer { status := st, data := d })

/-! ## Scratchpad burnish -/

/-- Rows of a group from the pointer on that are poisoned and skipped. -/
def burnishSkip (x : CoreSt) (g : Nat) : Nat → Nat → Nat
  | 0, n => n
  | f + 1, n =>
    let row := g * 2048 + (tget natDef x.spad.ptr g + n) % 2048
    if tget boolDef x.spad.mem.poison row then burnishSkip x g f (n + 1) else n

/-- A visit: poisoned rows are passed over, the next row is read under R155, the pointer moves behind it, and a sweep
counts the rows passed. -/
def burnishVisit (s : State) (c g : Nat) : State :=
  let x := s.core c
  let n := burnishSkip x g 2048 0
  let row := g * 2048 + (tget natDef x.spad.ptr g + n) % 2048
  let (_, ce, m, s) := x.spad.mem.check true row s
  let left := x.spad.sweep.filterMap (fun p =>
    if p.1 = g then (if p.2 ≤ n + 1 then none else some (p.1, p.2 - (n + 1))) else some p)
  s.modCore c (fun x =>
    let x := setSpadMem x m ce
    let p := (tget natDef x.spad.ptr g + n + 1) % 2048
    { x with spad := { x.spad with ptr := tset natDef x.spad.ptr g p, sweep := left
                                   moved := tset natDef x.spad.moved g (s.cluster (clusterOf c)).pacer } })

/-- SPAD_BURNISH_VISIT (R156): while scratchpads have power and no retention voltage (R477). -/
def execSpadBurnishVisit (c : Fin 512) (g : Fin 4) (s : State) : O :=
  .next (if s.drowsy then s else burnishVisit s c.val g.val)

/-- SPAD_BURNISH_FORCED (R156): a group with a minimum rate has not advanced within its interval of pacer ticks. -/
def execSpadBurnishForced (c : Fin 512) (g : Fin 4) (s : State) : O :=
  let x := (s.core c.val).spad
  let due := decide (x.period ≠ 0)
    && decide (tget natDef x.moved g.val + 100000 * x.period.toNat / 2048 ≤ (s.cluster (clusterOf c.val)).pacer)
  .next (if due && !s.drowsy then burnishVisit s c.val g.val else s)

/-! ## Slices -/

/-- An address as it was translated where the access issued (R315): of the interleaved view, that of the slice view. -/
def pinned (s : State) (a : Nat) : Nat :=
  match decodeLocal a with
  | .hbmI _ => ((translate s (decodeLocal a)).map (fun p => 0x010000000000 + p.1 * 2 ^ 34 + p.2)).getD a
  | _ => a

/-- A request waits at its slice, behind those that wait already. -/
def State.hold (s : State) (r : WaitReq) : State := { s with waits := s.waits ++ [r] }

/-- A request at a slice: performed and answered, or it waits at the edge port (R323, R324, R431). -/
def sliceServe (a : Agent) (k : Nat) (acc : Acc) (s : State) : State :=
  match sliceAcc s k acc (decide (a = .host)) with
  | none => s.hold (.request a k acc)
  | some (st, d, s) => s.answer { status := st, data := if st = .ok then d else [] }

/-- SLICE_REQUEST (R310): a span of sectors within one 512-byte block; the management plane sends none (R24), and a peer's is
admitted only while MEMEN is 1 (R406). Any other span is no request (log 88). -/
def execSliceRequest (a : Agent) (k : Fin 80) (acc : Acc) (s : State) : O :=
  let fits := accWf acc && decide (accOff acc % 32 = 0) && decide (accLen acc % 32 = 0)
    && decide (accOff acc / 512 = (accOff acc + accLen acc - 1) / 512)
  .next (if !fits || decide (a = .mgmt) then s
    else if isPeer a && !s.lat.memen then s.answer { status := .nowin }
    else sliceServe a k.val acc s)

/-- SLICE_PATROL_VISIT (R320): also in a fenced slice, while the stack's clock runs. -/
def execSlicePatrolVisit (k : Fin 80) (s : State) : O :=
  let x := s.slice k.val
  if !x.clkOk || !x.ready || s.drowsy then .next s
  else
    let (_, s) := sectorCheck s k.val x.walk
    .next (s.modSlice k.val (fun x => { x with walk := (x.walk + 1) % sliceSectors, sweepLeft := x.sweepLeft - 1 }))

/-- REFRESH (R321): the controller goes on to the next bank. -/
def execRefresh (k : Fin 80) (s : State) : O :=
  if (s.slice k.val).clkOk && decide (s.pwr.state ≠ 2) then .next (s.modSlice k.val (fun x => { x with bank := x.bank + 1 })) else .next s

/-- The multiplier a temperature asks for (R321). -/
def refxOf (temp : Nat) : BitVec 2 := if temp ≤ 85 then 0 else if temp ≤ 95 then 1 else 2

/-- The four slices of a stack. -/
def stackSlices (t : Nat) : List Nat := countFrom (4 * t) 4
def State.modStack (s : State) (t : Nat) (f : SliceSt → SliceSt) : State :=
  (stackSlices t).foldl (fun s k => s.modSlice k f) s

/-- A sensor reading of stack `t` moves the multiplier of its slices; above 95 °C the management controller warns in
telemetry (log 89). -/
def stackTemp (s : State) (t : Nat) (temp : BitVec 8) (f : BitVec 2 → BitVec 2) : State :=
  let s := s.modStack t (fun x => { x with tempValid := true, temp := temp, refx := f x.refx })
  if 95 < temp.toNat ∧ s.mgmt.fwRun then s.out (.thermalWarning t) else s

/-- REFRESH_MULTIPLIER_RISE (R321). -/
def execRefreshMultiplierRise (t : Fin 20) (temp : BitVec 8) (s : State) : O :=
  let m := refxOf temp.toNat
  .next (stackTemp s t.val temp (fun r => if r.toNat < m.toNat then m else r))

/-- REFRESH_MULTIPLIER_FALL (R321): the temperature has stayed 3 °C below a threshold for 10 ms. -/
def execRefreshMultiplierFall (t : Fin 20) (temp : BitVec 8) (s : State) : O :=
  let m := refxOf (temp.toNat + 3)
  .next (stackTemp s t.val temp (fun r => if m.toNat < r.toNat then m else r))

/-- STACK_CLOCK_LOSS (R323); the host is told (R448, R452). -/
def execStackClockLoss (t : Fin 20) (s : State) : O :=
  if !(s.slice (4 * t.val)).clkOk then .next s
  else .next ((s.modStack t.val (fun x => { x with clkOk := false })).viaMail (unitFault 3 t.val 2 0 0))

/-! ## Upsets -/

/-- Symbols of a stored word or sector are struck; the code tells how many, not which (R154, R317). -/
def EccMem.strike (m : EccMem) (unit symbols : Nat) : EccMem :=
  { m with upsets := tset natDef m.upsets unit (tget natDef m.upsets unit + symbols) }

/-- MEMORY_UPSET. A struck line of a cache fails its parity; an invalid one holds nothing. -/
def execMemoryUpset (p : UpsetPlace) (symbols : Nat) (s : State) : O :=
  match p with
  | .spad c w => .next (s.modCore c.val (fun x => { x with spad := { x.spad with mem := x.spad.mem.strike w.val symbols } }))
  | .dram k c => .next (s.modSlice k.val (fun x => { x with mem := x.mem.strike c.val symbols }))
  | .skvBuf k w => .next (s.modSkv k.val (fun y => { y with buf := y.buf.strike w.val symbols }))
  | .ringMem w => .next { s with host := { s.host with ring := s.host.ring.strike w.val symbols } }
  | .dcache c set way =>
    let key := 8 * set.val + way.val
    let l := dcGet (s.core c.val).dc key
    .next (if l.valid ∧ symbols ≠ 0 then s.modDc c.val (fun d => dcPut d key { l with parity := true }) else s)
  | .icache c line =>
    .next (if tget bytesDef (s.core c.val).icache line ≠ [] ∧ symbols ≠ 0 then
        s.modCore c.val (fun x => { x with icStruck := tset boolDef x.icStruck line true })
      else s)

end Sys2Proof.Machine
end

