-- ==== Sys2Proof/Machine/SkvPost.lean ====
section
/-! DEFINITION. Skiver descriptors: their fields (R337 to R340), the checks of a posting (R341), postings (R332 to R335). -/

namespace Sys2Proof.Machine

/-- Word i of a descriptor. -/
def dw (b : List Byte) (i : Nat) : Nat := leNat (slice b (8 * i) 8)
/-- A field of word i. -/
def df (b : List Byte) (i hi lo : Nat) : Nat := bitsOf (dw b i) hi lo

/-! ## Fields (R337 to R339) -/

def dOp (b : List Byte) : Nat := df b 0 63 60
def dKind (b : List Byte) : Nat := df b 0 59 58
def dEven (b : List Byte) : Bool := bitOf (dw b 0) 57
def dLine (b : List Byte) : Nat := df b 0 56 53
def dKey (b : List Byte) : Nat := df b 0 47 32
def dCount (b : List Byte) : Nat := df b 0 31 21
def dIndex (b : List Byte) : Nat := df b 0 20 11
def dTag (b : List Byte) : Nat := df b 0 10 0
def dDest (b : List Byte) : Nat := dw b 1

/-- The fields of words 2 to 6 by operation: word, high bit, low bit. -/
def opFields : Nat → List (Nat × Nat × Nat)
  | 0 => [(2, 63, 34), (2, 33, 0), (3, 52, 50), (3, 49, 45), (3, 44, 32), (3, 31, 0), (4, 55, 54), (4, 53, 49), (4, 48, 33),
          (4, 32, 22), (4, 21, 11), (4, 10, 0), (5, 31, 0)]
  | 1 => [(2, 49, 34), (2, 33, 0), (3, 58, 57), (3, 56, 52), (3, 51, 47), (3, 46, 32), (3, 31, 0), (4, 63, 32), (4, 30, 29),
          (4, 28, 24), (4, 23, 18), (4, 17, 11), (4, 10, 0), (5, 39, 35), (5, 34, 34), (5, 33, 0), (6, 63, 32), (6, 31, 0)]
  | 2 => [(2, 63, 48), (2, 33, 0), (3, 55, 54), (3, 53, 49), (3, 48, 44), (3, 43, 35), (3, 34, 27), (3, 26, 11), (3, 10, 0),
          (4, 35, 35), (4, 34, 24), (4, 23, 18), (4, 17, 11), (4, 10, 0), (5, 31, 0)]
  | 3 => [(2, 63, 34), (2, 33, 0), (3, 56, 55), (3, 54, 50), (3, 49, 45), (3, 44, 32), (3, 31, 0), (4, 32, 24), (4, 23, 18),
          (4, 17, 11), (4, 10, 0), (5, 63, 32), (5, 31, 0)]
  | 4 => [(2, 33, 0), (3, 44, 32), (3, 31, 0), (4, 33, 18), (4, 17, 11), (4, 10, 0)]
  | 5 => [(2, 63, 34), (2, 33, 0), (3, 49, 45), (3, 44, 32), (3, 31, 0), (4, 44, 29), (4, 28, 22), (4, 21, 11), (4, 10, 0)]
  | 6 => [(2, 34, 34), (2, 33, 0), (3, 35, 35), (3, 34, 34), (3, 33, 0), (4, 33, 0)]
  | _ => [(3, 34, 34), (3, 33, 0), (4, 33, 0), (5, 31, 0)]

/-- Bits of word i outside every field are zero. -/
def rsvdZero (b : List Byte) (op i : Nat) : Bool :=
  let used := (opFields op).foldl (fun m f => if f.1 = i then m ||| maskBits f.2.2 (f.2.1 + 1 - f.2.2) else m) 0
  decide (maskClear (dw b i) used = 0)

/-! ## Rows and formats (R339, R340) -/

/-- The format of a code; the callers have checked it. -/
def fmtOf (c : Nat) : Format := (formatOfCode c).getD ⟨.fp32, false⟩

/-- Scale bytes of an n-element row. -/
def scaleBytes (f : Format) (n : Nat) : Nat := if f.mx then (n + 31) / 32 else 0
def dataBytes (f : Format) (n : Nat) : Nat := (n * f.elem.width + 7) / 8
/-- Bytes of an n-element row. -/
def rowBytes (c n : Nat) : Nat := dataBytes (fmtOf c) n + scaleBytes (fmtOf c) n

/-- Byte size of an OFMT, BFMT, QFMT or KVFMT element. -/
def elSize (c : Nat) : Nat := (fmtOf c).elem.width / 8

def wFmts : List Nat := [0x01, 0x02, 0x03, 0x04, 0x05, 0x06, 0x07, 0x13, 0x14, 0x15, 0x16, 0x17]
def aFmts : List Nat := [0x01, 0x03, 0x04, 0x13, 0x14]
def qFmts : List Nat := [0x01, 0x03, 0x04]
def kvFmts : List Nat := [0x01, 0x02, 0x03, 0x04]
def oFmts : List Nat := [0x00, 0x01, 0x02, 0x03, 0x04]
def fFmts : List Nat := [0x00, 0x01]

/-- A length odd in a 4-bit format, or no multiple of 4 in a 6-bit one. -/
def oddLen (c n : Nat) : Bool :=
  match (fmtOf c).elem.width with
  | 4 => decide (n % 2 ≠ 0)
  | 6 => decide (n % 4 ≠ 0)
  | _ => false

def sliceBytes : Nat := 0x300000000

/-- n vectors of `row` bytes from a buffer row on, `pitch` rows apart, stay within the buffer. -/
def bufFits (base n pitch row : Nat) : Bool := decide (n = 0) || decide (base + (n - 1) * pitch + rowsUp row ≤ 2048)
/-- n rows of `row` bytes from a slice offset on, `pitch` bytes apart, stay within the slice. -/
def dramFits (base n pitch row : Nat) : Bool := decide (n = 0) || decide (base + (n - 1) * pitch + row ≤ sliceBytes)
/-- A pitch spaces its rows. -/
def pitchOk (pitch row : Nat) : Bool := decide (1 ≤ pitch) && decide (row ≤ pitch)
def inRange (lo hi n : Nat) : Bool := decide (lo ≤ n) && decide (n ≤ hi)

/-- OPITCH of SK_MATVEC and SK_GATHER. -/
def opitchOk (kind pitch row : Nat) : Bool := if kind = 1 then pitchOk pitch row else decide (pitch = 0)

/-- A result of n bytes in one message. -/
def resultOk (kind n : Nat) : Bool :=
  !(decide (2 ≤ kind) && decide (4096 < 16 * ((n + 15) / 16))) && !(decide (kind = 3) && decide (n = 0))

/-! ## The checks of R341, by operation -/

def shapeGather (b : List Byte) : Bool :=
  let pool := df b 3 52 50
  let t := df b 3 49 45
  let len := df b 3 44 32
  let o := df b 4 53 49
  let bags := df b 4 48 33
  let out := len * elSize o
  inRange 0 4 pool && oFmts.contains t && inRange 1 4096 len && oFmts.contains o && pitchOk (df b 3 31 0) (rowBytes t len) && opitchOk (dKind b) (df b 5 31 0) out
  && (if pool = 0 then decide (df b 4 21 11 = 0) && bufFits (df b 4 10 0) 1 0 (4 * bags)
      else bufFits (df b 4 21 11) 1 0 (4 * (bags + 1)))
  && resultOk (dKind b) (bags * out)

def shapeMatvec (b : List Byte) : Bool :=
  let rows := df b 2 49 34
  let a := df b 3 56 52
  let w := df b 3 51 47
  let k := df b 3 46 32
  let o := df b 4 28 24
  let nl := df b 4 23 18
  let out := rows * elSize o
  aFmts.contains a && wFmts.contains w && inRange 1 16384 k && oFmts.contains o && inRange 1 48 nl && fFmts.contains (df b 5 39 35)
  && !oddLen w k && !oddLen a k && pitchOk (df b 3 31 0) (rowBytes w k)
  && pitchOk (512 * df b 4 17 11) (rowBytes a k) && opitchOk (dKind b) (df b 4 63 32) out
  && bufFits (df b 4 10 0) nl (df b 4 17 11) (rowBytes a k) && dramFits (df b 2 33 0) rows (df b 3 31 0) (rowBytes w k)
  && (!bitOf (dw b 5) 34 || dramFits (df b 5 33 0) rows (elSize (df b 5 39 35)) (elSize (df b 5 39 35)))
  && resultOk (dKind b) (nl * out)

/-- Bytes of a page's key area (R345). -/
def keyBytes (b : List Byte) : Nat := 32 * ((df b 3 34 27 * df b 3 43 35 * elSize (df b 3 48 44) + 31) / 32)

def shapeAttend (b : List Byte) : Bool :=
  let q := df b 3 53 49
  let kv := df b 3 48 44
  let hd := df b 3 43 35
  let ptok := df b 3 34 27
  let nl := df b 4 23 18
  qFmts.contains q && kvFmts.contains kv && inRange 1 256 hd && inRange 1 255 ptok && inRange 1 48 nl
  && decide (1 ≤ df b 2 63 48) && decide (keyBytes b + ptok * hd * elSize kv ≤ 512 * df b 2 63 48)
  && pitchOk (512 * df b 4 17 11) (hd * elSize q) && bufFits (df b 4 10 0) nl (df b 4 17 11) (hd * elSize q)
  && bufFits (df b 3 10 0) 1 0 (8 * df b 3 26 11) && (!bitOf (dw b 4) 35 || bufFits (df b 4 34 24) 1 0 (4 * nl))

def shapeTopk (b : List Byte) : Bool :=
  let q := df b 3 54 50
  let t := df b 3 49 45
  let len := df b 3 44 32
  let nl := df b 4 23 18
  qFmts.contains q && wFmts.contains t && inRange 1 4096 len && inRange 1 256 (df b 4 32 24) && inRange 1 48 nl
  && !oddLen t len && pitchOk (df b 3 31 0) (rowBytes t len) && pitchOk (512 * df b 4 17 11) (rowBytes q len)
  && bufFits (df b 4 10 0) nl (df b 4 17 11) (rowBytes q len) && dramFits (df b 2 33 0) (df b 2 63 34) (df b 3 31 0) (rowBytes t len)

def shapeAppend (b : List Byte) : Bool :=
  let r := df b 3 44 32
  let n := df b 4 33 18
  inRange 1 4096 r && pitchOk (df b 3 31 0) r && pitchOk (512 * df b 4 17 11) r
  && bufFits (df b 4 10 0) n (df b 4 17 11) r && dramFits (df b 2 33 0) n (df b 3 31 0) r

def shapeScatter (b : List Byte) : Bool :=
  let t := df b 3 49 45
  let len := df b 3 44 32
  let n := df b 4 44 29
  fFmts.contains t && inRange 1 4096 len && pitchOk (df b 3 31 0) (rowBytes t len) && pitchOk (512 * df b 4 28 22) (4 * len)
  && bufFits (df b 4 21 11) n (df b 4 28 22) (4 * len) && bufFits (df b 4 10 0) 1 0 (4 * n)

/-- A span of DRAM or of the buffer lies within it. -/
def spanFits (buf : Bool) (at_ len : Nat) : Bool :=
  decide (at_ + len ≤ if buf then 0x100000 else sliceBytes) && (!buf || decide (at_ < 0x100000))

def shapeCopy (b : List Byte) : Bool :=
  let sb := bitOf (dw b 2) 34
  let db := bitOf (dw b 3) 34
  let dst := df b 3 33 0
  let n := df b 4 33 0
  spanFits sb (df b 2 33 0) n && spanFits db dst n
  && (!bitOf (dw b 3) 35 || (!sb && db && decide (dst % 512 = 0) && decide (n % 512 = 0)))

def shapeFill (b : List Byte) : Bool := spanFits (bitOf (dw b 3) 34) (df b 3 33 0) (df b 4 33 0) && decide (df b 4 33 0 % 4 = 0)

/-- A DEST of keeper writes names a byte in the scratchpad part of a core window of this or a peer device: no multicast
window (R338, R523, R524). -/
def destCore (w : Nat) : Bool :=
  decide (w < 2 ^ 59) && (bitOf w 58 || decide (bitsOf w 57 48 = 0))
  && (match decodeLocal (w % 2 ^ 48) with
      | .spad _ _ => true
      | _ => false)

/-- A descriptor of 56 bytes passes R341; `own`: the poster is a core of this device. A handle's data keeps the layout of
R254 with its reserved bits zero. -/
def shapeOk (b : List Byte) (own : Bool) : Bool :=
  let op := dOp b
  let kind := dKind b
  decide (op < 8) && decide (df b 0 52 48 = 0) && [2, 3, 4, 5, 6].all (rsvdZero b op)
  && (if kind = 3 then inRange 1 1024 (dCount b) && decide (dIndex b < dCount b)
      else decide (dKey b = 0) && decide (dCount b = 0) && decide (dIndex b = 0))
  && !(decide (4 ≤ op) && (decide (kind = 1) || decide (kind = 3)))
  && (match kind with
      | 0 => decide (dDest b = 0)
      | 1 => destCore (dDest b)
      | _ => decide (dDest b / 2 ^ 56 = 1) && queueHandleOk (dDest b))
  && (own || !dEven b)
  && (match op with
      | 0 => shapeGather b
      | 1 => shapeMatvec b
      | 2 => shapeAttend b
      | 3 => shapeTopk b
      | 4 => shapeAppend b
      | 5 => shapeScatter b
      | 6 => shapeCopy b
      | _ => shapeFill b)

/-! ## Postings (R335) -/

def SkvSt.ctx (v : SkvSt) (prio : Bool) : SkvCtx := if prio then v.prio else v.ord
def SkvSt.modCtx (v : SkvSt) (prio : Bool) (f : SkvCtx → SkvCtx) : SkvSt :=
  if prio then { v with prio := f v.prio } else { v with ord := f v.ord }

/-- The descriptor that a posting makes. -/
def descOfMsg (m : Msg) : SkvDesc :=
  let (core, thr, byCp, dev) := match m.sender with
    | .thread d c t => (c, t, false, d)
    | .skiver d _ => (0, 0, false, d)
    | .cp d => (0, 0, true, d)
  { bytes := leBytes 8 m.hdr.toNat ++ m.payload, core := core, thr := thr, byCp := byCp, dev := dev, cls := m.cls, stale := m.stale }

def Sender.dev : Sender → Nat
  | .thread d _ _ | .skiver d _ | .cp d => d

/-- The poster is a core of this device. -/
def Sender.isCoreOf (dev : Nat) : Sender → Bool
  | .thread d _ _ => decide (d = dev)
  | _ => false

/-- The status of a posting, and its acceptance. A peer's posting always carries the stale bit (R353). None: it waits at the
edge port of a slice that has no clock or is not trained (R30, R323, R324). -/
def post (s : State) (m : Msg) (k : Nat) (prio : Bool) (epoch : BitVec 16) : Option (Nat × State) :=
  let v := (s.slice k).skv
  let me := s.lat.id.toNat
  let d := descOfMsg m
  if s.drowsy || s.sliceFenced k then some (stUnreach, s)
  else if !(s.slice k).clkOk || !(s.slice k).ready then none
  else if epoch ≠ v.epoch then some (stStale, s)
  else if m.sender.dev ≠ me ∧ bitsOf v.ctl.toNat 6 5 ≠ 3 then some (stNowin, s)
  else if !bitOf v.ctl.toNat 7 then some (stClosed, s)
  else if m.payload.length ≠ 48 ∨ !shapeOk d.bytes (m.sender.isCoreOf me) then some (stShape, s)
  else if (if prio then 16 else 48) ≤ skvCount (v.ctx prio) then some (stFull, s)
  else
    let d := { d with stale := m.stale || decide (m.sender.dev ≠ me) }
    some (stOk, s.modSkv k (fun v => v.modCtx prio (fun c => { c with queue := c.queue ++ [d] })))

/-- A posting at a skiver of this device. -/
def atSkiver (s : State) (m : Msg) : Option (Nat × State) :=
  match m.target with
  | .skiver _ k prio e => post s m k prio e
  | _ => none

/-- A posting reaches its skiver, here or on a peer device. -/
def reachSkiver (id : Nat) (s : State) : State :=
  match (s.msg id).map Msg.target with
  | some (.skiver _ _ _ _) => reach .posting atSkiver id s
  | _ => s

/-- SKIVER_POSTING (R335). -/
def execSkiverPosting (id : Nat) (s : State) : O := .next (reachSkiver id s)

end Sys2Proof.Machine
end

