-- ==== Sys2Proof/Machine/Skiver.lean ====
section
/-! DEFINITION. Skiver contexts: starts, the eight operations, cacheable areas, deliveries, completion, fences
(R336, R342 to R359, R364). -/

namespace Sys2Proof.Machine

/-- A context of a slice. -/
structure SkvId where
  k : Nat
  prio : Bool

def SkvId.get (i : SkvId) (s : State) : SkvCtx := (s.slice i.k).skv.ctx i.prio
def SkvId.mod (i : SkvId) (f : SkvCtx → SkvCtx) (s : State) : State := s.modSkv i.k (fun v => v.modCtx i.prio f)

/-- A completion status, the highest code counting (R356). -/
def skvFlag (i : SkvId) (n : Nat) : M Unit := modify (i.mod (fun c => { c with status := max c.status n }))
def skvFlagIf (i : SkvId) (b : Bool) (n : Nat) : M Unit := if b then skvFlag i n else pure ()

/-! ## DRAM and buffer as a descriptor sees them: bytes, and which of them are poisoned (R358) -/

/-- A DRAM access waits for the stack's clock and training, and for the host's copies (R323, R324, R431). -/
def skvWait (k off len : Nat) (write : Bool) : M Unit := do
  let s ← get
  let x := s.slice k
  if !x.clkOk || !x.ready || dirBlocks x off len write then throw .wait

def sectorMarks (k : Nat) : List Nat → State → List Nat × State
  | [], s => ([], s)
  | c :: cs, s =>
    let (b, s) := sectorCheck s k c
    let (r, s) := sectorMarks k cs s
    (if b then c :: r else r, s)

/-- Read DRAM. No rule says what a table row past the end of the slice holds: its bytes are free (log 18). -/
def skvRead (i : SkvId) (off len : Nat) : M (List Byte × List Bool) := do
  if len = 0 then pure ([], [])
  else do
    let s ← get
    if sliceBytes < off + len then do
      let (b, s) := freeBytes len s
      set s
      pure (b, List.replicate len false)
    else do
      skvWait i.k off len false
      let (bad, s) := sectorMarks i.k (sectorsOf off len) s
      set s
      skvFlagIf i (!bad.isEmpty) 2
      pure (readBytes (s.slice i.k).mem.bytes off len, (countFrom off len).map (fun a => bad.contains (a / 32)))

/-- Poison sectors: marked, and counted when newly so (R318). -/
def poisonSector (k : Nat) (s : State) (c : Nat) : State :=
  if tget boolDef (s.slice k).mem.poison c then s
  else s.modSlice k (fun x =>
    let m := { x.mem with poison := tset boolDef x.mem.poison c true, upsets := terase x.mem.upsets c }
    { x with mem := m, ueCnt := x.ueCnt + 1, eccValid := true, eccAddr := c * 32 })

/-- Units of `n` bytes in which a poisoned byte of a span from `off` on falls. -/
def poisonUnits (n off : Nat) (mask : List Bool) : List Nat :=
  ((countFrom off mask.length).zip mask).foldl (fun l p => if p.2 && !l.contains (p.1 / n) then p.1 / n :: l else l) []

/-- Write DRAM; poisoned source bytes poison the sectors they go to (R358). Past the end of the slice nothing is
written (log 18). -/
def skvWrite (i : SkvId) (off : Nat) (b : List Byte) (mask : List Bool) : M Unit := do
  if b.isEmpty ∨ sliceBytes < off + b.length then pure ()
  else do
    skvWait i.k off b.length true
    let s ← get
    let (st, s) := dramWrite s i.k off b (allOn b)
    let bad := poisonUnits 32 off mask
    set (bad.foldl (poisonSector i.k) s)
    skvFlagIf i (decide (st = .data) || !bad.isEmpty) 2

def markRows : List Nat → EccMem → State → List Nat × Nat × EccMem × State
  | [], m, s => ([], 0, m, s)
  | r :: rs, m, s =>
    let (b, c1, m, s) := m.check false r s
    let (l, c2, m, s) := markRows rs m s
    (if b then r :: l else l, c1 + c2, m, s)

/-- Write the part of a span that lies in one buffer row; a row to be merged that is poisoned stays as it is. -/
def bufRow (k r : Nat) (s : State) (off : Nat) (b : List Byte) : Bool × State :=
  let lo := max off (512 * r)
  let hi := min (off + b.length) (512 * r + 512)
  let d := slice b (lo - off) (hi - lo)
  let (ok, ce, m, s) := (s.slice k).skv.buf.write false lo d (allOn d) s
  (!ok, s.modSkv k (fun v => { v with buf := m, ceCnt := v.ceCnt + BitVec.ofNat 16 ce }))

def bufRows (k off : Nat) (b : List Byte) : List Nat → State → Bool × State
  | [], s => (false, s)
  | r :: rs, s =>
    let (b1, s) := bufRow k r s off b
    let (b2, s) := bufRows k off b rs s
    (b1 || b2, s)

def poisonRow (k : Nat) (s : State) (r : Nat) : State :=
  s.modSkv k (fun v => { v with buf := { v.buf with poison := tset boolDef v.buf.poison r true } })

/-- Store bytes in the buffer, row by row. -/
def bufPut (i : SkvId) (off : Nat) (b : List Byte) (mask : List Bool) : M Unit := do
  if b.isEmpty then pure ()
  else do
    let s ← get
    let (bad, s) := bufRows i.k off b (rowsOf off b.length) s
    let p := poisonUnits 512 off mask
    set (p.foldl (poisonRow i.k) s)
    skvFlagIf i (bad || !p.isEmpty) 2

/-- A descriptor's write to the buffer drops the areas it touches (R352). -/
def bufWrite (i : SkvId) (off : Nat) (b : List Byte) (mask : List Bool) : M Unit := do
  modify (fun s => dropAreas s i.k (if b.isEmpty then [] else rowsOf off b.length))
  bufPut i off b mask

/-- A STALE area is read again from its source and is VALID (R353). -/
def refreshArea (i : SkvId) (n : Nat) : M Unit := do
  let s ← get
  let a := tget careaDef (s.slice i.k).skv.careas n
  let st := (i.get s).status
  let (b, mask) ← skvRead i a.src (512 * a.nrows)
  bufPut i (512 * a.row) b mask
  modify (fun s => (i.mod (fun c => { c with status := st }) s).modSkv i.k (fun v =>
    { v with careas := tset careaDef v.careas n { a with stale := false } }))

def refreshGo (i : SkvId) (rows : List Nat) : List Nat → M Unit
  | [] => pure ()
  | n :: ns => do
    let s ← get
    let a := tget careaDef (s.slice i.k).skv.careas n
    if a.used && a.stale && rows.any (fun r => decide (a.row ≤ r) && decide (r < a.row + a.nrows)) then refreshArea i n
    refreshGo i rows ns

/-- Read the buffer, refreshing STALE areas first. -/
def bufRead (i : SkvId) (off len : Nat) : M (List Byte × List Bool) := do
  if len = 0 then pure ([], [])
  else do
    refreshGo i (rowsOf off len) (countFrom 0 8)
    let s ← get
    let v := (s.slice i.k).skv
    let (bad, ce, m, s) := markRows (rowsOf off len) v.buf s
    set (s.modSkv i.k (fun v => { v with buf := m, ceCnt := v.ceCnt + BitVec.ofNat 16 ce }))
    skvFlagIf i (!bad.isEmpty) 2
    pure (readBytes m.bytes off len, (countFrom off len).map (fun a => bad.contains (a / 512)))

/-! ## Elements (R339, R358) -/

/-- Values of a row's elements apart from block scales, and the exponents of its blocks; poison is NaN. -/
def rowVals (c n : Nat) (b : List Byte) (mask : List Bool) : List FVal × List (Option Int) :=
  let f := fmtOf c
  let w := f.elem.width
  let nd := dataBytes f n
  let els := unpackNat w n (leNat (b.take nd))
  let hit := fun (i : Nat) => lget false mask (w * i / 8) || lget false mask ((w * i + w - 1) / 8)
  let vals := ((countFrom 0 n).zip els).map (fun p => if hit p.1 then FVal.nan else f.elem.value p.2)
  let exps := (countFrom 0 (scaleBytes f n)).map (fun j =>
    if lget false mask (nd + j) then none else scaleExp (lget 0 b (nd + j)).toNat)
  (vals, exps)

/-- Elements as FP32 encodings, exactly (R60). -/
def rowHalfs (c n : Nat) (b : List Byte) (mask : List Bool) : List Half := (rowVals c n b mask).1.map toF32

/-- 32-bit words of a list, with their poison. -/
def wordList (b : List Byte) (mask : List Bool) : List (Nat × Bool) :=
  ((chunksOf 4 b.length b).map leNat).zip ((chunksOf 4 b.length mask).map (fun m => m.any id))

/-- One accumulation over two rows (R66, R67), with the chunk code and start value given; MX rows are padded to whole
blocks. -/
def rowDot (ca cb : Nat) (chunk : BitVec 2) (start : Half) (a b : List FVal × List (Option Int)) : Half :=
  let fa := fmtOf ca
  let fb := fmtOf cb
  let mx := fa.mx || fb.mx
  let pad := fun (f : Format) (l : List (Option Int)) => if f.mx then l else List.replicate ((a.1.length + 31) / 32) (some 0)
  let sc := if mx then ((pad fa a.2).zip (pad fb b.2)).map (fun p => scaleProd p.1 p.2) else []
  let n := if mx then (a.1.length + 31) / 32 * 32 else a.1.length
  let zero := FVal.num false 0 0
  (accRun (groupSize fa.elem fb.elem) (chunkOf mx chunk) (n + 1) (padTo zero n a.1) (padTo zero n b.1) sc 0
    { total := start, run := 0 }).total

/-! ## Conversion (R57, R359) -/

/-- Convert FP32 results in delivery order: draws from the slice's generator, the running maximum. -/
def skvConvert (i : SkvId) (ofmt : Nat) (cvm : BitVec 2) (vs : List Half) : M (List Byte) := do
  if vs.isEmpty then pure []
  else do
    let s ← get
    let v := (s.slice i.k).skv
    let blocks := (vs.length + 7) / 8
    let ctr := leNat ((countFrom 0 4).flatMap (fun j => leBytes 4 (tget halfDef v.rngCtr j).toNat))
    let us := if cvmRnd cvm then draws (philoxWords (tget halfDef v.rngKey 0) (tget halfDef v.rngKey 1) ctr blocks)
      else List.replicate vs.length 0
    let src := vs.map f32
    let mx := amaxBits src
    let next := ctr + blocks
    let adv := (countFrom 0 4).foldl (fun t j => tset halfDef t j (BitVec.ofNat 32 (next % 2 ^ 128 / 2 ^ (32 * j)))) v.rngCtr
    set (s.modSkv i.k (fun v => { v with
      amaxLast := mx, amaxCum := amaxJoin v.amaxCum mx, rngCtr := if cvmRnd cvm then adv else v.rngCtr }))
    let e := (fmtOf ofmt).elem
    pure (pack e ((src.zip us).map (fun p => e.conv cvm p.2 p.1)))

/-! ## Deliveries (R354) -/

/-- A keeper write in spans that cross no 512-byte boundary. -/
def keeperDels (addr : Nat) (b : List Byte) : List SkvDel :=
  (pieces (b.length / 512 + 2) addr b.length).map (fun p => { addr := p.1, bytes := slice b (p.1 - addr) p.2 })

/-- The header word of message j (R354, R272). -/
def resultHeader (b : List Byte) (status j npart : Nat) : Word :=
  if dKind b = 2 then BitVec.ofNat 64 (dw b 0 / 2 ^ 52 * 2 ^ 52 + status * 2 ^ 48 + j % 65536 * 2 ^ 32 + dw b 0 % 2 ^ 32)
  else BitVec.ofNat 64 ((dKey b + j) % 65536 * 2 ^ 48 + npart * 2 ^ 32 + dCount b * 2 ^ 16 + dIndex b)

/-- The deliveries of a result: `writes` for RKIND 1 (address and bytes), `msgs` for RKIND 2 and 3 (payload, NPART). -/
def resultDels (b : List Byte) (status : Nat) (writes : List (Nat × List Byte)) (msgs : List (List Byte × Nat)) : List SkvDel :=
  match dKind b with
  | 0 => []
  | 1 => writes.flatMap (fun w => keeperDels w.1 w.2)
  | _ => ((countFrom 0 msgs.length).zip msgs).map (fun p =>
      { addr := dDest b, bytes := padGranules p.2.1, hdr := some (resultHeader b status p.1 p.2.2) })

def deliverAll (i : SkvId) (b : List Byte) (writes : List (Nat × List Byte)) (msgs : List (List Byte × Nat)) : M Unit :=
  modify (fun s => i.mod (fun c => { c with executed := true, dels := resultDels b c.status writes msgs }) s)

def mapGo (f : α → M β) : List α → M (List β)
  | [] => pure []
  | x :: xs => do
    let y ← f x
    let ys ← mapGo f xs
    pure (y :: ys)

/-! ## SK_MATVEC (R342) -/

def tscale (x : Nat) (v : Half) : Half :=
  let a := x / 2 ^ 32
  let w := x % 2 ^ 32
  let one := fun (n : Nat) => if n = 0 then f32One else BitVec.ofNat 32 n
  if a = 0 ∧ w = 0 then v else tensorScale v (one a) (one w)

/-- Lanes of buffer vectors. -/
def bufLanes (i : SkvId) (base pitch nl fmt n : Nat) : M (List (List FVal × List (Option Int))) :=
  mapGo (fun l => do
    let (b, m) ← bufRead i (512 * (base + l * pitch)) (rowBytes fmt n)
    pure (rowVals fmt n b m)) (countFrom 0 nl)

def matvec (i : SkvId) (b : List Byte) : M Unit := do
  let rows := df b 2 49 34
  let k := df b 3 46 32
  let wf := df b 3 51 47
  let af := df b 3 56 52
  let nl := df b 4 23 18
  let bf := df b 5 39 35
  let chunk := BitVec.ofNat 2 (df b 3 58 57)
  let as ← (if rows = 0 then pure [] else bufLanes i (df b 4 10 0) (df b 4 17 11) nl af k)
  let bias ← (if bitOf (dw b 5) 34 then do
      let (x, m) ← skvRead i (df b 5 33 0) (rows * elSize bf)
      pure (rowHalfs bf rows x m)
    else pure [])
  let ys ← mapGo (fun r => do
    let (x, m) ← skvRead i (df b 2 33 0 + r * df b 3 31 0) (rowBytes wf k)
    let w := rowVals wf k x m
    pure (as.map (fun a => tscale (dw b 6) (rowDot wf af chunk (lget 0 bias r) w a)))) (countFrom 0 rows)
  let vals := (countFrom 0 nl).flatMap (fun l => ys.map (fun y => lget 0 y l))
  let out ← skvConvert i (df b 4 28 24) (BitVec.ofNat 2 (df b 4 30 29)) vals
  let n := rows * elSize (df b 4 28 24)
  deliverAll i b ((countFrom 0 nl).map (fun l => (dDest b + l * df b 4 63 32, slice out (l * n) n))) [(out, 0)]

/-! ## SK_GATHER (R343, R344) -/

/-- A quotient by a count, rounded once. -/
def f32DivNat (v : Half) (n : Nat) : Half :=
  match f32 v with
  | .num neg m e => if m = 0 then v else toF32 (divVal 40 neg m e false n 0)
  | x => toF32 x

/-- One more pooled row (R344). -/
def poolStep (pool : Nat) (w : Half) (acc : Option (List Half)) (x : List Half) : Option (List Half) :=
  match pool, acc with
  | 0, _ => some x
  | 4, none => some x
  | 4, some a => some ((a.zip x).map (fun p => f32Max p.1 p.2))
  | 3, a => some (((a.getD (x.map (fun _ => 0))).zip x).map (fun p => toF32 ((f32 p.1).add ((f32 w).mul (f32 p.2)))))
  | _, a => some (((a.getD (x.map (fun _ => 0))).zip x).map (fun p => f32Add p.1 p.2))

/-- Row `idx` of the table as FP32. -/
def tableRow (i : SkvId) (b : List Byte) (idx : Nat) : M (List Half) := do
  let len := df b 3 44 32
  let t := df b 3 49 45
  let (x, m) ← skvRead i (df b 2 33 0 + idx * df b 3 31 0) (rowBytes t len)
  pure (rowHalfs t len x m)

/-- Pool list entries (index and poison, weight) in order; entries out of range are skipped. -/
def poolGo (i : SkvId) (b : List Byte) : List ((Nat × Bool) × Half) → Nat → Option (List Half) → M (Nat × Option (List Half))
  | [], n, acc => pure (n, acc)
  | ((idx, bad), w) :: r, n, acc => do
    if bad ∨ df b 2 63 34 ≤ idx then do
      skvFlag i 1
      poolGo i b r n acc
    else do
      let x ← tableRow i b idx
      poolGo i b r (n + 1) (poolStep (df b 3 52 50) w acc x)

/-- One bag: list positions lo to hi − 1. Positions past the buffer are skipped. -/
def gatherBag (i : SkvId) (b : List Byte) (lo hi : Nat) : M (List Half) := do
  let pool := df b 3 52 50
  let room := fun (base : Nat) => (0x100000 - 512 * base) / 4
  let top := if pool = 3 then min (room (df b 4 10 0)) (room (df b 4 32 22)) else room (df b 4 10 0)
  let stop := min hi top
  skvFlagIf i (decide (lo < hi) && decide (top < hi)) 1
  let n := stop - lo
  let (x, m) ← bufRead i (512 * df b 4 10 0 + 4 * lo) (4 * n)
  let ws ← (if pool = 3 then do
      let (y, my) ← bufRead i (512 * df b 4 32 22 + 4 * lo) (4 * n)
      pure ((wordList y my).map (fun p => if p.2 then toF32 .nan else BitVec.ofNat 32 p.1))
    else pure (List.replicate n f32One))
  let (cnt, acc) ← poolGo i b ((wordList x m).zip ws) 0 none
  let zero := List.replicate (df b 3 44 32) (0 : Half)
  pure (if pool = 2 then (if cnt = 0 then zero else (acc.getD zero).map (fun v => f32DivNat v cnt)) else acc.getD zero)

/-- A bag between two offsets; a falling or poisoned pair makes it empty (R344, R358). -/
def gatherSpan (i : SkvId) (b : List Byte) (lo hi : Nat × Bool) : M (List Half) := do
  if lo.2 || hi.2 || decide (hi.1 < lo.1) then do
    skvFlag i 1
    gatherBag i b 0 0
  else gatherBag i b lo.1 hi.1

def gather (i : SkvId) (b : List Byte) : M Unit := do
  let bags := df b 4 48 33
  let offs ← (if df b 3 52 50 = 0 ∨ bags = 0 then pure ((countFrom 0 (bags + 1)).map (fun n => (n, false)))
    else do
      let (x, m) ← bufRead i (512 * df b 4 21 11) (4 * (bags + 1))
      pure (wordList x m))
  let rows ← mapGo (fun p => gatherSpan i b p.1 p.2) (offs.zip (offs.drop 1))
  let out ← skvConvert i (df b 4 53 49) (BitVec.ofNat 2 (df b 4 55 54)) (rows.flatMap id)
  let n := df b 3 44 32 * elSize (df b 4 53 49)
  deliverAll i b ((countFrom 0 bags).map (fun j => (dDest b + j * df b 5 31 0, slice out (j * n) n))) [(out, 0)]

/-! ## SK_ATTEND (R345 to R347) -/

/-- A lane's partial: m, λ and o. -/
structure Partial3 where
  m : Half
  lam : Half
  o : List Half

def f32NegInf : Half := BitVec.ofNat 32 (fmtFp32.infBits true)

def Partial3.token (x : Partial3) (sc : Half) (v : List Half) : Partial3 :=
  let mn := f32Max x.m sc
  let a := sexp x.m mn
  let p := sexp sc mn
  { m := mn, lam := toF32 (((f32 x.lam).mul (f32 a)).add (f32 p)),
    o := (x.o.zip v).map (fun y => toF32 (((f32 y.1).mul (f32 a)).add (f32 (f32Mul y.2 p)))) }

/-- A token updates every lane whose limit admits it: query, limit, partial. -/
def attendToken (b : List Byte) (tok : Nat) (kv vv : List FVal) (l : (List FVal × Option Int) × Partial3) :
    (List FVal × Option Int) × Partial3 :=
  let admits := match l.1.2 with
    | none => true
    | some lim => decide ((tok : Int) < lim)
  if admits then
    let d := rowDot (df b 3 53 49) (df b 3 48 44) (BitVec.ofNat 2 (df b 3 55 54)) 0 (l.1.1, []) (kv, [])
    (l.1, l.2.token (f32Mul d (BitVec.ofNat 32 (df b 5 31 0))) (vv.map toF32))
  else l

abbrev Lanes := List ((List FVal × Option Int) × Partial3)

def attendSlots (b : List Byte) (first : Nat) (kd vd : List Byte × List Bool) : List Nat → Lanes → Lanes
  | [], ls => ls
  | t :: ts, ls =>
    let hd := df b 3 43 35
    let kv := df b 3 48 44
    let n := hd * elSize kv
    let cut := fun (x : List Byte × List Bool) => (rowVals kv hd (slice x.1 (t * n) n) (slice x.2 (t * n) n)).1
    attendSlots b first kd vd ts (ls.map (attendToken b (first + t) (cut kd) (cut vd)))

def attendPage (i : SkvId) (b : List Byte) (e : Nat × Bool) (ls : Lanes) : M Lanes := do
  let valid := bitsOf e.1 39 32
  let size := 512 * df b 2 63 48
  let at_ := df b 2 33 0 + bitsOf e.1 31 0 * size
  if e.2 ∨ df b 3 34 27 < valid ∨ sliceBytes < at_ + size then do
    skvFlag i 1
    pure ls
  else do
    let n := valid * df b 3 43 35 * elSize (df b 3 48 44)
    let kd ← skvRead i at_ n
    let vd ← skvRead i (at_ + keyBytes b) n
    pure (attendSlots b (bitsOf e.1 63 40) kd vd (countFrom 0 valid) ls)

def attendGo (i : SkvId) (b : List Byte) : List (Nat × Bool) → Lanes → M Lanes
  | [], ls => pure ls
  | e :: es, ls => do
    let ls ← attendPage i b e ls
    attendGo i b es ls

/-- Lanes to a message (R347). -/
def lanesPer (b : List Byte) : Nat := min (df b 4 23 18) (4096 / (4 * (df b 3 43 35 + 2)))

/-- A signed LIMIT word; a poisoned one lies below every token. -/
def limitOf (w : Nat × Bool) : Option Int := some (if w.2 then -1 else signedOf 32 w.1)

def attend (i : SkvId) (b : List Byte) : M Unit := do
  let hd := df b 3 43 35
  let nl := df b 4 23 18
  let np := df b 3 26 11
  let qs ← (if np = 0 then pure (List.replicate nl ([], [])) else bufLanes i (df b 4 10 0) (df b 4 17 11) nl (df b 3 53 49) hd)
  let lims ← (if bitOf (dw b 4) 35 ∧ np ≠ 0 then do
      let (x, m) ← bufRead i (512 * df b 4 34 24) (4 * nl)
      pure ((wordList x m).map limitOf)
    else pure (List.replicate nl none))
  let (pt, pm) ← bufRead i (512 * df b 3 10 0) (8 * np)
  let ents := ((chunksOf 8 pt.length pt).map leNat).zip ((chunksOf 8 pt.length pm).map (fun m => m.any id))
  let start : Partial3 := ⟨f32NegInf, 0, List.replicate hd 0⟩
  let ls ← attendGo i b ents ((qs.zip lims).map (fun p => ((p.1.1, p.2), start)))
  let lanes := ls.map (fun l => bytes32 (l.2.m :: l.2.lam :: l.2.o))
  let p := lanesPer b
  deliverAll i b [(dDest b, lanes.flatMap id)] ((chunksOf p nl lanes).map (fun g => (g.flatMap id, g.length)))

/-! ## SK_TOPK (R348) -/

def topkRow (i : SkvId) (b : List Byte) (qs : List (List FVal × List (Option Int))) (r : Nat) : M (List Half) := do
  let len := df b 3 44 32
  let t := df b 3 49 45
  let (x, m) ← skvRead i (df b 2 33 0 + r * df b 3 31 0) (rowBytes t len)
  let row := rowVals t len x m
  pure (qs.map (fun q => f32Mul (rowDot (df b 3 54 50) t (BitVec.ofNat 2 (df b 3 56 55)) 0 q row) (BitVec.ofNat 32 (df b 5 31 0))))

def topk (i : SkvId) (b : List Byte) : M Unit := do
  let rows := df b 2 63 34
  let nl := df b 4 23 18
  let k := df b 4 32 24
  let qs ← (if rows = 0 then pure [] else bufLanes i (df b 4 10 0) (df b 4 17 11) nl (df b 3 54 50) (df b 3 44 32))
  let sc ← mapGo (topkRow i b qs) (countFrom 0 rows)
  let lanes := (countFrom 0 nl).map (fun l =>
    let pairs := ((countFrom 0 rows).zip sc).map (fun p => (lget 0 p.2 l, BitVec.ofNat 32 (df b 5 63 32 + p.1)))
    let best := (sortPairs pairs).take k
    let fill : Half × Half := (toF32 .nan, 0xFFFFFFFF)
    (padTo fill k best).flatMap (fun p => bytes32 [p.2, f32Score p.1]))
  deliverAll i b [(dDest b, lanes.flatMap id)] (lanes.map (fun l => (l, 0)))

/-! ## Row updates, copies and fills (R349 to R352) -/

/-- Operations without result data send one empty message under RKIND 2. -/
def noResult (i : SkvId) (b : List Byte) : M Unit := deliverAll i b [] [([], 0)]

def appendGo (i : SkvId) (b : List Byte) : List Nat → M Unit
  | [] => pure ()
  | n :: ns => do
    let (x, m) ← bufRead i (512 * (df b 4 10 0 + n * df b 4 17 11)) (df b 3 44 32)
    skvWrite i (df b 2 33 0 + n * df b 3 31 0) x m
    appendGo i b ns

def append (i : SkvId) (b : List Byte) : M Unit := do
  appendGo i b (countFrom 0 (df b 4 33 18))
  noResult i b

def scatterGo (i : SkvId) (b : List Byte) : List (Nat × (Nat × Bool)) → M Unit
  | [] => pure ()
  | (j, (idx, bad)) :: r => do
    if bad ∨ df b 2 63 34 ≤ idx then skvFlag i 1
    else do
      let len := df b 3 44 32
      let t := df b 3 49 45
      let (v, vm) ← bufRead i (512 * (df b 4 21 11 + j * df b 4 28 22)) (4 * len)
      let old ← tableRow i b idx
      let e := (fmtOf t).elem
      let new := (old.zip (rowHalfs 0 len v vm)).map (fun p => e.conv 0 0 ((f32 p.1).add (f32 p.2)))
      skvWrite i (df b 2 33 0 + idx * df b 3 31 0) (pack e new) []
    scatterGo i b r

def scatter (i : SkvId) (b : List Byte) : M Unit := do
  let n := df b 4 44 29
  let (x, m) ← bufRead i (512 * df b 4 10 0) (4 * n)
  scatterGo i b ((countFrom 0 n).zip (wordList x m))
  noResult i b

/-- Place a cacheable area (R352): overlapping areas go first; the lowest free record takes it, if there is one. -/
def placeArea (i : SkvId) (a : Carea) : M Bool := do
  modify (fun s => dropAreas s i.k (countFrom a.row a.nrows))
  let s ← get
  match (countFrom 0 8).find? (fun n => !(tget careaDef (s.slice i.k).skv.careas n).used) with
  | none => pure false
  | some n => do
    set (s.modSkv i.k (fun v => { v with careas := tset careaDef v.careas n a }))
    pure true

def copy (i : SkvId) (b : List Byte) : M Unit := do
  let n := df b 4 33 0
  let src := df b 2 33 0
  let dst := df b 3 33 0
  let area := bitOf (dw b 3) 35 && decide (n ≠ 0)
  let ok ← (if area then placeArea i { used := true, src := src, nrows := n / 512, row := dst / 512 } else pure true)
  if ok then do
    let (x, m) ← (if bitOf (dw b 2) 34 then bufRead i src n else skvRead i src n)
    if !bitOf (dw b 3) 34 then skvWrite i dst x m
    else if area then bufPut i dst x m
    else bufWrite i dst x m
  else skvFlag i 4
  noResult i b

def fill (i : SkvId) (b : List Byte) : M Unit := do
  let n := df b 4 33 0
  let dst := df b 3 33 0
  let x := (List.replicate (n / 4) (leBytes 4 (df b 5 31 0))).flatMap id
  if bitOf (dw b 3) 34 then bufWrite i dst x [] else skvWrite i dst x []
  noResult i b

/-! ## The rows -/

/-- Contexts start descriptors in ACTIVE; on the way into DROWSE they still perform those outstanding (R479, R480). -/
def skvMay (s : State) : Bool := s.active || (decide (s.pwr.state ≠ 2) && decide (s.pwr.target = 2))

/-- SKV_DESCRIPTOR_START (R336): a carried stale bit marks every area STALE (R353). -/
def skvStart (s : State) (k : Nat) (prio : Bool) : State :=
  let i : SkvId := ⟨k, prio⟩
  let c := i.get s
  if c.desc.isSome || s.sliceFenced k || !skvMay s then s
  else match c.queue with
    | [] => s
    | d :: q =>
      let s := i.mod (fun c => { c with desc := some d, queue := q, started := true, executed := false, status := 0, dels := [] }) s
      if d.stale then
        s.modSkv k (fun v => { v with careas := v.careas.map (fun p => (p.1, { p.2 with stale := true })) })
      else s

def execSkvDescriptorStart (k : Fin 80) (prio : Bool) (s : State) : O := .next (skvStart s k.val prio)

/-- Perform the running descriptor of a context when its operation is this one. -/
def skvRun (op : Nat) (body : SkvId → List Byte → M Unit) (k : Fin 80) (prio : Bool) (s : State) : O :=
  let i : SkvId := ⟨k.val, prio⟩
  let c := i.get s
  match c.desc with
  | some d => if c.executed || decide (dOp d.bytes ≠ op) then .next s else runCmd (body i d.bytes) s
  | none => .next s

def execSkGather (k : Fin 80) (prio : Bool) (s : State) : O := skvRun 0 gather k prio s
def execSkMatvec (k : Fin 80) (prio : Bool) (s : State) : O := skvRun 1 matvec k prio s
def execSkAttend (k : Fin 80) (prio : Bool) (s : State) : O := skvRun 2 attend k prio s
def execSkTopk (k : Fin 80) (prio : Bool) (s : State) : O := skvRun 3 topk k prio s
def execSkAppend (k : Fin 80) (prio : Bool) (s : State) : O := skvRun 4 append k prio s
def execSkScatterAdd (k : Fin 80) (prio : Bool) (s : State) : O := skvRun 5 scatter k prio s
def execSkCopy (k : Fin 80) (prio : Bool) (s : State) : O := skvRun 6 copy k prio s
def execSkFill (k : Fin 80) (prio : Bool) (s : State) : O := skvRun 7 fill k prio s

/-- Where a DEST word of TYPE 0x01 sends a message (R254, R338). -/
def destTarget (s : State) (w : Nat) : Target :=
  let dev := remDev s (bitOf w 55) (bitsOf w 54 45)
  if bitOf w 35 then .injection dev else .queue dev (bitsOf w 44 36) (bitsOf w 20 16) (BitVec.ofNat 16 w)

/-- The delivery with this place in the list. -/
def setDel (l : List SkvDel) (n : Nat) (d : SkvDel) : List SkvDel := lset l n d

/-- A keeper write leaves the slice's port in a slot (R372) and is performed; its status waits in the delivery. -/
def issueWrite (i : SkvId) (d : SkvDesc) (n : Nat) (x : SkvDel) (ext : ExtAns) : M Unit := do
  let s ← get
  let acc : Acc := .write x.addr x.bytes (allOn x.bytes)
  let p := portOfSlice i.k
  let put := fun (slot st : Nat) (s : State) =>
    i.mod (fun c => { c with dels := setDel c.dels n { x with issued := true, slot := slot, status := some st } }) s
  match sendReq s p d.cls.toNat acc with
  | (.wait, _) => throw .wait
  | (.refused st, s) => set (put 128 (statusNum st) s)
  | (.slot k, s) =>
    match performOnce regW s (.skiver (Fin.ofNat 80 i.k)) p k ((s.port p).slot k).gen ext acc with
    | none => throw .wait
    | some r => set (put k (statusNum r.status) r.s)

/-- Issue a delivery: a keeper write, or a message, which sets out; one answered FULL sets out again (R357). -/
def issueDel (i : SkvId) (d : SkvDesc) (n : Nat) (x : SkvDel) (ext : ExtAns) : M Unit := do
  match x.hdr with
  | none => issueWrite i d n x ext
  | some h => do
    let s ← get
    let put := fun (id : Nat) => i.mod (fun c => { c with dels := setDel c.dels n { x with issued := true, msg := id } })
    match s.msg x.msg with
    | some m =>
      match resendMsg s m with
      | none => throw .wait
      | some s' => set (put m.id s')
    | none =>
      let m : Msg := { id := 0, sender := .skiver s.lat.id.toNat i.k, target := destTarget s x.addr, hdr := h,
                       payload := x.bytes, cls := d.cls, form := .other }
      match sendMsg s m with
      | none => throw .wait
      | some s' => set (put s.nextId s')

/-- A notice of an ended descriptor that waits for room at the slice's port (R364) sets out. -/
def orphanSend (s : State) (k : Nat) : State :=
  match s.msgs.find? (fun m => decide (m.sender = .skiver s.lat.id.toNat k) && decide (m.form = .posted) && m.parked) with
  | some m => (resendMsg s m).getD s
  | none => s

/-- SKV_RESULT_DELIVERY (R354): the first delivery not issued; a message waits for every earlier one's status. -/
def execSkvResultDelivery (k : Fin 80) (prio : Bool) (ext : ExtAns) (s : State) : O :=
  let i : SkvId := ⟨k.val, prio⟩
  let c := i.get s
  match c.desc, c.dels.findIdx? (fun d => !d.issued) with
  | some d, some n =>
    match c.dels[n]? with
    | some x => if x.hdr.isSome && decide (n ≠ 0) then .next s else runCmd (issueDel i d n x ext) s
    | none => .next s
  | _, _ => .next (orphanSend s k.val)

/-- The status of an issued delivery, once it is known; a message's is taken from the message. -/
def delStatus (s : State) (d : SkvDel) : Option Nat :=
  if !d.issued then none
  else if d.hdr.isSome then (s.msg d.msg).bind (·.status) else d.status

/-- A message of a slice that no running descriptor waits for: of a descriptor that a fence ended, or its notice to a
queue (R364), which is sent again after FULL. A parked one waits to set out. -/
def orphanReturn (s : State) (k : Nat) : State :=
  let v := (s.slice k).skv
  let owned := (v.prio.dels ++ v.ord.dels).map (·.msg)
  let mine := fun (m : Msg) =>
    decide (m.sender = .skiver s.lat.id.toNat k) && m.status.isSome && !m.parked && !owned.contains m.id
  match s.msgs.find? mine with
  | none => s
  | some m =>
    let s := fabFree s m.sender.port m.slot
    if m.form = .posted ∧ m.status = some stFull then s.park m.id else s.dropMsg m.id

/-- SKV_DELIVERY_STATUS (R357): FULL is sent again; another refusal is counted and abandons what is not issued yet. -/
def delReturn (s : State) (i : SkvId) : State :=
  let c := i.get s
  match c.dels.findIdx? (fun d => (delStatus s d).isSome) with
  | none => orphanReturn s i.k
  | some n =>
    match c.dels[n]? with
    | none => s
    | some d =>
      let st := (delStatus s d).getD 0
      let full := d.hdr.isSome && decide (st = stFull)
      let p := portOfSlice i.k
      let s := if d.hdr.isSome then
          (match s.msg d.msg with
           | some m => if full then (fabFree s p m.slot).park d.msg else (fabFree s p m.slot).dropMsg d.msg
           | none => s)
        else fabFree s p d.slot
      if st = 0 then i.mod (fun c => { c with dels := c.dels.eraseIdx n }) s
      else if full then i.mod (fun c => { c with dels := setDel c.dels n { d with issued := false } }) s
      else
        let s := s.modSkv i.k (fun v => { v with err := v.err + 0x10000 })
        i.mod (fun c => { c with dels := (c.dels.eraseIdx n).filter (·.issued), status := max c.status 3 }) s

def execSkvDeliveryStatus (k : Fin 80) (prio : Bool) (s : State) : O := .next (delReturn s ⟨k.val, prio⟩)

/-- Count and record a descriptor that ended with a status other than OK (R356, R366). -/
def skvRecord (s : State) (k : Nat) (d : SkvDesc) (st : Nat) : State :=
  if st = 0 then s
  else
    let rem := decide (d.dev ≠ s.lat.id.toNat)
    let info := 2 ^ 31 + st * 2 ^ 27 + dOp d.bytes * 2 ^ 23 + (if d.byCp then 0 else d.core % 512) * 2 ^ 14 + b2n rem * 2 ^ 13
      + b2n d.byCp * 2 ^ 12 + dTag d.bytes
    s.modSkv k (fun v => { v with
      err := BitVec.ofNat 32 (v.err.toNat / 65536 * 65536 + (v.err.toNat + 1) % 65536), errInfo := BitVec.ofNat 32 info })

/-- The posting core's line fires (R355). -/
def skvLine (s : State) (d : SkvDesc) : State :=
  if dEven d.bytes && !d.byCp && decide (d.dev = s.lat.id.toNat) then
    s.modCore d.core (fun x => x.fireAcq (dLine d.bytes))
  else s

/-- SKV_DESCRIPTOR_COMPLETE (R355, R356). -/
def skvDone (s : State) (i : SkvId) : State :=
  let c := i.get s
  match c.desc with
  | some d =>
    if c.executed && c.dels.isEmpty then
      let s := skvLine (skvRecord s i.k d c.status) d
      i.mod (fun c => { queue := c.queue }) s
    else s
  | none => s

def execSkvDescriptorComplete (k : Fin 80) (prio : Bool) (s : State) : O := .next (skvDone s ⟨k.val, prio⟩)

/-- A remote access to the window of a buffer: answered, or it waits at the edge port (R323, R324, R329). -/
def bufferServe (a : Agent) (k : Nat) (acc : Acc) (s : State) : State :=
  match bufWindow s a k acc with
  | none => s.hold (.buffer a k acc)
  | some (st, d, s) => s.answer { status := st, data := d }

/-- A write to an edge window (R330): answered, or it waits. -/
def edgeServe (a : Agent) (south : Bool) (acc : Acc) (s : State) : State :=
  match edgeWrite s a south acc with
  | none => s.hold (.edge a south acc)
  | some (st, s) => s.answer { status := st }

/-- SKV_BUFFER_ACCESS (R329). -/
def execSkvBufferAccess (a : Agent) (k : Fin 80) (acc : Acc) (s : State) : O :=
  .next (if accWf acc then bufferServe a k.val acc s else s)

/-- EDGE_WINDOW_WRITE (R330): a peer's is refused (R406). -/
def execEdgeWindowWrite (a : Agent) (south : Bool) (off : BitVec 20) (data : List Byte) (en : List Bool) (s : State) : O :=
  let acc : Acc := .write off.toNat data en
  .next (if !accWf acc then s
    else if isPeer a then s.answer { status := .nowin }
    else edgeServe a south acc s)

/-! ## Fences and resets (R364, R365) -/

/-- A descriptor ends ABORTED: recorded; with a clock its line fires and a message of one granule tells a queue. -/
def skvAbort (k : Nat) (clock : Bool) (s : State) (d : SkvDesc) : State :=
  let s := skvRecord s k d 5
  if !clock then s
  else
    let s := if dKind d.bytes = 2 then
        (let m : Msg := { id := s.nextId, sender := .skiver s.lat.id.toNat k, target := destTarget s (dDest d.bytes),
                          hdr := resultHeader d.bytes 5 0 0, payload := padGranules [], cls := d.cls, form := .posted
                          rein := onRein (padGranules []), status := some stFull, parked := true }
         (sendMsg s m).getD { s with msgs := s.msgs ++ [m], nextId := s.nextId + 1 })
      else s
    skvLine s d

/-- A fence of a slice ends its accepted descriptors and drops its areas; messages that have not set out go with them,
and keeper writes on their way need no slot any more. -/
def skvFence (s : State) (k : Nat) : State :=
  let v := (s.slice k).skv
  let ds := v.prio.desc.toList ++ v.prio.queue ++ v.ord.desc.toList ++ v.ord.queue
  let gone := fun (m : Msg) => decide (m.sender = .skiver s.lat.id.toNat k) && decide (m.form = .other) && m.unsent s
  let s := discardMsgs s gone
  let s := ((v.prio.dels ++ v.ord.dels).map (·.slot)).foldl (endSlot (portOfSlice k)) s
  let s := s.modSkv k (fun v => { v with prio := {}, ord := {}, careas := [] })
  ds.foldl (skvAbort k (s.slice k).clkOk) s

/-- SKV_ registers at their reset values, queues empty, areas dropped; the buffer stays (R365). -/
def skvReset (v : SkvSt) : SkvSt := { buf := v.buf, epoch := nextEpoch v.epoch }

end Sys2Proof.Machine
end

