-- ==== Sys2Proof/Machine/Fabric.lean ====
section
/-! DEFINITION. The on-die fabric's own events (R367 to R392): multicast, arrivals, responses, re-sends, bucket refills,
congestion maps, plane drains; and the pacers and pace monitors (R31 to R37). -/

namespace Sys2Proof.Machine

/-- The class of an agent's accesses where its command names none (R386): a DMA engine's and a skiver's are of their
descriptors; here class 1. -/
def agentClass (s : State) : Agent → Nat
  | .thread t => threadClass s t
  | .cp => 2
  | .host => s.host.cls.toNat
  | _ => 1

/-- The global address of a byte of a mesh multicast window (R525). -/
def windowAddr (column : Bool) (i off : Nat) : Nat := 0x029000000000 + b2n column * 0x10000000 + i * 0x2000000 + off

/-- MESH_MULTICAST_WRITE (R378, R525): offset of core index and byte in the window of a row or column. A peer's is refused
(R406); the host and the management plane send none (R24, R428). -/
def execMeshMulticastWrite (a : Agent) (rc : RowCol) (i : Fin 8) (off : BitVec 25) (data : List Byte) (en : List Bool)
    (s : State) : O :=
  let acc : Acc := .write (windowAddr (decide (rc = .column)) i.val off.toNat) data en
  match a with
  | .host | .mgmt => .next s
  | .peer _ => .next (if accWf acc then s.answer { status := .nowin } else s)
  | _ =>
    if !accWf acc then .next s
    else match (agentPort a).bind (fun p => reqOnce regW s a p (agentClass s a) ⟨.ok, []⟩ acc) with
      | some r => .next (r.s.answer { status := r.status })
      | none => .next s

/-! ## Arrivals -/

/-- The access of an arriving request at its address. -/
def accAt (addr : Nat) : Acc → Acc
  | .read _ n => .read addr n
  | .write _ d e => .write addr d e

/-- The payload that a request's packet carries. -/
def accPayload : Acc → List Byte
  | .read _ _ => []
  | .write _ d _ => d

/-- The cluster in which a unit's packets are checked (R379, R398): that of its router. -/
def crcCluster (s : State) (addr : Nat) : Nat := unitCluster ((targetOf s addr).getD 700)

/-- A packet that fails its check is discarded and counted (R379). -/
def countCrc (s : State) (k : Nat) : State := s.modCluster k (fun x => { x with crc := x.crc + 1 })

/-- A packet's slot still waits for its response, under the packet's generation. -/
def packetLive (s : State) (h : Packet) : Bool :=
  let y := (s.port h.src.val).slot h.slot.val
  y.busy && decide (y.gen = h.gen)

/-- The map that translated a packet's address: its slot's, while that is live (R315, R316). -/
def packetMap (s : State) (h : Packet) : SliceMap := if packetLive s h then ((s.port h.src.val).slot h.slot.val).map else s.smap

/-- A packet that no meaning of the model has sent crosses the mesh now, by way of its MID; the others were counted on their
way (R374, R383). -/
def countArrival (s : State) (h : Packet) (addr : Nat) : State :=
  if packetLive s h then s else (crossVia s h.src.val h.cls.toNat none (some h.mid.val) (localDest s addr)).2

/-! ### Records of peers' requests (R411) -/

/-- The store of a unit: a slice's at the slice, any other at the cluster of the unit's router. -/
def storeAt (unit : Nat) : Bool × Nat :=
  if 512 ≤ unit ∧ unit < 592 then (true, unit - 512) else (false, unitCluster unit)

def storeGet (s : State) (u : Bool × Nat) : List RemoteRec := if u.1 then (s.slice u.2).remote else (s.cluster u.2).remote
def storeMod (s : State) (u : Bool × Nat) (f : List RemoteRec → List RemoteRec) : State :=
  if u.1 then s.modSlice u.2 (fun x => { x with remote := f x.remote }) else s.modCluster u.2 (fun x => { x with remote := f x.remote })

/-- The clock that a store's records age by (R29, R35). -/
def storeClock (s : State) (u : Bool × Nat) : Nat := portClock s (if u.1 then 512 + u.2 else 600 + u.2)

/-- The key of a peer's request: SDEV, source port and slot. -/
def remoteKey (sdev src slot : Nat) : Nat := (sdev * 597 + src) * 128 + slot

/-- A peer's request other than a read is performed once and recorded; a full store answers FULL (R381, R411). The number
of a message's status has 16 added. None: it waits. -/
def oncePeer (s : State) (u : Bool × Nat) (key : Nat) (gen read : Bool) (f : State → Option (Nat × List Byte × State)) :
    Option (Nat × List Byte × State) :=
  if read then f s
  else
    let store := storeGet s u
    match store.find? (fun r => decide (r.key = key)) with
    | some r =>
      if r.gen = gen then some (r.status, [], s)
      else (f s).map (fun p =>
        if p.1 = 16 + stFull then p
        else (p.1, p.2.1, storeMod p.2.2 u (fun l => l.filter (fun r => decide (r.key ≠ key)) ++ [⟨key, gen, p.1, storeClock s u⟩])))
    | none =>
      if 1024 ≤ store.length then some (16 + stFull, [], s)
      else (f s).map (fun p =>
        if p.1 = 16 + stFull then p else (p.1, p.2.1, storeMod p.2.2 u (fun l => l ++ [⟨key, gen, p.1, storeClock s u⟩])))

/-- A peer's access, as far as R406 admits it: the number of its status, and its data. -/
def peerAcc (s : State) (dev : BitVec 10) (acc : Acc) : Option (Nat × List Byte × State) :=
  if !peerMay s (accOff acc) then some (statusNum .nowin, [], s)
  else (accLocal regW s (.peer dev) acc).map (fun r => (statusNum r.status, r.data, r.s))

/-- What the core's data cache took in since a DMA engine's request was issued is dealt with before the request is performed
(R293); none: it waits. -/
def beforeDma (s : State) (a : Agent) (acc : Acc) : Option State :=
  match a with
  | .dma c =>
    match runM (dmaMeet c acc) s with
    | (.ok _, s) => some s
    | (.error _, _) => none
  | _ => some s

/-- A request is performed at its target, once, under the map that translated it: its status number and data (R315, R381,
R411). -/
def arrive (s : State) (a : Agent) (h : Packet) (acc : Acc) (ext : ExtAns) : Option (Nat × List Byte × State) :=
  match a with
  | .peer d =>
    let v := { s with smap := packetMap s h }
    (oncePeer v (storeAt ((targetOf v (accOff acc)).getD 700)) (remoteKey d.toNat h.src.val h.slot.val) h.gen (!accWrites acc)
      (fun s => peerAcc s d acc)).map (fun r => (r.1, r.2.1, { r.2.2 with smap := s.smap }))
  | _ =>
    (beforeDma s a acc).bind (fun s =>
      (withMap (packetMap s h) s (fun s => performOnce regW s a h.src.val h.slot.val h.gen ext acc)).map (fun r =>
        (statusNum r.status, r.data, r.s)))

/-- The host takes an arriving request: of its aperture, and not one whose outcome is recorded (R381, R432). -/
def hostTakes (s : State) (a : Agent) (h : Packet) (acc : Acc) : Bool :=
  (match a with | .peer _ => false | _ => true) && (recorded s (accOff acc) h.src.val h.slot.val h.gen acc).isNone
  && (apertureAt s acc).isSome

/-- A request at its target: performed and answered with its congestion mark's echo (R384), or it waits there (R323, R324,
R431); one for the host waits for its completion, and a re-sent one is attached to it (R434). -/
def arriveServe (a : Agent) (h : Packet) (addr : Nat) (acc : Acc) (ext : ExtAns) (s : State) : State :=
  let acc' := accAt addr acc
  let waits := fun (s : State) => s.hold (.arrival a h (pinned { s with smap := packetMap s h } addr) acc ext)
  if (apWaits s h.src.val h.slot.val h.gen acc').isSome then s
  else if hostTakes s a h acc' then
    match beforeDma s a acc' with
    | none => waits s
    | some s => apSend s h.src.val h.slot.val h.gen acc'
  else match arrive s a h acc' ext with
  | none => waits s
  | some (n, d, s) =>
    s.answer { status := statusOfNat n, data := d, poison := decide (n = 3), full := decide (n = 16 + stFull), ce := h.cm }

/-- MC of a packet to a local address (R378). -/
def mcOf (addr : Nat) : Multicast :=
  match decodeLocal addr with
  | .multicast column _ _ => if column then .column else .row
  | .edge _ _ => .edgeRow
  | _ => .none

/-- The source port of an agent's packets, a peer's being any group port (R372, R411). -/
def packetFrom (a : Agent) (h : Packet) : Bool :=
  match a with
  | .peer _ => decide (594 ≤ h.src.val)
  | _ => decide (agentPort a = some h.src.val)

/-- A request packet of R371: its header agrees with its access, its address and its source. -/
def Packet.isRequest (a : Agent) (h : Packet) (addr : Nat) (acc : Acc) : Bool :=
  !h.rsp && packetLenOk false h && accWf acc && decide (h.kind = if accWrites acc then .write else .read)
  && decide (h.mc = mcOf addr) && packetFrom a h

/-! ### Records, contributions and postings as packets -/

/-- The kind of a message's packet (R264, R276, R334). -/
def msgKind (s : State) (m : Msg) : PktKind :=
  match m.target with
  | .queue none c q _ => if ((s.core c).q q).kind then .contribution else .record
  | .skiver _ _ _ _ => .posting
  | _ => .record

/-- The message on the die whose packet this is. -/
def packetMsg (s : State) (h : Packet) : Option Msg :=
  s.msgs.find? (fun m =>
    !m.lost && m.status.isNone && decide (m.sender.port = h.src.val) && decide (m.slot = h.slot.val) && decide (m.gen = h.gen)
    && !m.target.remote && decide (h.kind = msgKind s m) && packetLenOk m.rein h)

/-- A message reaches what its target word names. -/
def reachTarget (m : Msg) (s : State) : State :=
  match m.target with
  | .queue _ c q _ => reachQueue ((s.core c).q q).kind m.id s
  | .skiver _ _ _ _ => reachSkiver m.id s
  | .injection _ => reachInjection m.id s

/-- A message's packet at its target: a failed check discards it, and its source sends it again (R379, R380). -/
def msgArrives (s : State) (h : Packet) : State :=
  match packetMsg s h with
  | none => s
  | some m =>
    if packetCrcOk h (msgBytes m) then reachTarget m s
    else match m.target.dest with
      | .unit u => countCrc s (unitCluster u)
      | _ => s

/-- MESH_REQUEST_ARRIVAL (R379, R381). What is no request packet does not arrive (log 88). A record's, contribution's or
posting's bytes are those of the message whose slot it names. -/
def execMeshArrival (a : Agent) (h : Packet) (addr : BitVec 48) (acc : Acc) (ext : ExtAns) (s : State) : O :=
  match h.kind with
  | .record | .contribution | .posting => .next (if !h.rsp && packetFrom a h then msgArrives s h else s)
  | _ =>
    if !Packet.isRequest a h addr.toNat acc || (packetLive s h && slotLost s h.src.val h.slot.val) then .next s
    else
      let s := countArrival s h addr.toNat
      .next (if packetCrcOk h (accPayload acc) then arriveServe a h addr.toNat acc ext s
        else countCrc s (crcCluster { s with smap := packetMap s h } addr.toNat))

/-! ## Responses and re-sends -/

/-- What a response says: the number of its status, and the bytes of a read (log 83). -/
def responseOf (kind : PktKind) (data : List Byte) : Option (Nat × List Byte) :=
  match kind with
  | .status => some ((lget 0 data 0).toNat, [])
  | .data => some (0, data)
  | _ => none

/-- A response at its source: the slot is free, the class window moves, and the owner has its answer; one that finds its
slot free or used again is discarded (R381, R382, R384). -/
def takeResponse (s : State) (port slot : Nat) (gen ce : Bool) (ans : Nat × List Byte) : State :=
  let y := (s.port port).slot slot
  if y.busy ∧ y.gen = gen then releaseOwner (fabRespond s port slot ce) port slot ans else s

/-- A response packet crosses the mesh with its request's class, whatever becomes of it at its source (R383, R386): that of a
slot that has ended comes from the port its header names. -/
def countResponse (s : State) (port : Nat) (h : Packet) : State :=
  let y := (s.port port).slot h.slot.val
  if y.busy ∧ y.gen = h.gen then crossBack s port h.slot.val
  else (crossMesh s h.src.val h.cls.toNat (.unit port)).2

/-- MESH_RESPONSE (R379, R382, R384): it echoes its request's mark; a peer's response carries its own. -/
def execMeshResponse (port : Fin 597) (h : Packet) (data : List Byte) (s : State) : O :=
  let y := (s.port port.val).slot h.slot.val
  match responseOf h.kind data with
  | none => .next s
  | some ans =>
    if !h.rsp || !packetLenOk y.rein h then .next s
    else
      let s := countResponse s port.val h
      .next (if packetCrcOk h data then
        takeResponse s port.val h.slot.val h.gen (if y.dest.remote then h.ce else y.cm) ans
      else countCrc s (unitCluster port.val))

/-- Attempts before the fault notice, and the timeout, of a request on the die (R398, R399) or to a peer (R411). -/
def retryMaxOf (s : State) (p : Nat) (remote : Bool) : Nat :=
  if remote then s.lat.retryMax else if isSlicePort p then (s.slice (p - 512)).sretryMax else (s.cluster (unitCluster p)).retryMax
def timeoutOf (s : State) (p : Nat) (remote : Bool) : Nat :=
  if remote then s.lat.timeout
  else if isSlicePort p then (s.slice (p - 512)).sretryTimeout else (s.cluster (unitCluster p)).retryTimeout

/-- A slot whose request has waited its timeout by the clock of its port (R29, R35, R380). -/
def timedOut (s : State) (p n : Nat) : Bool :=
  let x := (s.port p).slot n
  x.busy && decide (x.sent + timeoutOf s p x.dest.remote ≤ portClock s p)

/-- The unit that a fabric fault names (R448, R452). -/
def faultUnit (p : Nat) : Nat × Nat :=
  if p < 512 then (1, p / 8) else if p < 592 then (2, p - 512) else if p = 592 then (7, 0)
  else if p = 593 then (1, 24) else (10, p - 594)

/-- A re-send is counted, a core's in MESH_ERR.RESEND (R398); at the limit of attempts the source counts the fault in its
cluster and reports it once (R380; log 99). -/
def countResend (s : State) (p n : Nat) : State :=
  let x := (s.port p).slot n
  let s := if x.attempts = retryMaxOf s p x.dest.remote then
      (let (ut, u) := faultUnit p
       (s.modCluster (unitCluster p) (fun y => { y with fault := y.fault + 1 })).viaPort (unitFault ut u 1 0 x.attempts))
    else s
  let s := if p < 512 then s.modCluster (p / 8) (fun y => { y with resend := y.resend + 1 }) else s
  s.modPort p (fun y => y.modSlot n (fun z => { z with attempts := z.attempts + 1, sent := portClock s p }))

/-- A request crosses the die again, with a fresh MID on the next plane (R380). -/
def crossAgain (s : State) (p n : Nat) : State :=
  let x := (s.port p).slot n
  if x.rein then s.modPort p (fun y => y.modSlot n (fun z => { z with lost := false }))
  else
    let (q, s) := crossMesh s p x.cls x.dest
    s.modPort p (fun y => y.modSlot n (fun z => { z with plane := q.1, cm := q.2, lost := false }))

/-- A request leaves again. -/
def resend (s : State) (p n : Nat) : State := crossAgain (countResend s p n) p n

/-- MESH_RESEND_TIMEOUT (R380). -/
def execMeshResendTimeout (port : Fin 597) (slot : Fin 128) (s : State) : O :=
  .next (if timedOut s port.val slot.val && !((s.port port.val).slot slot.val).dest.remote then resend s port.val slot.val else s)

/-- A bucket at a window boundary (R391). -/
def Bucket.refill (b : Bucket) : Bucket := if b.en then { b with tokens := min b.depth (b.tokens + b.rate) } else b

/-- A bucket whose window has passed by its source's clock is refilled, once for the window (R35, R391). -/
def Bucket.window (clock win : Nat) (b : Bucket) : Bucket :=
  if b.en ∧ b.since + win ≤ clock then { b.refill with since := b.since + win } else b

/-- TOKEN_BUCKET_REFILL: both buckets of a source share its window. -/
def execTokenBucketRefill (port : Fin 597) (s : State) : O :=
  .next (setBuckets s port.val (Bucket.window (portClock s port.val) (windowTicks s port.val)))

/-- One level of the congestion map (R385), and the counts it was taken at. -/
def cmapOne (s : State) (i : Nat) : State :=
  let f := s.fabric
  let dp := (tget cnt16Def f.pkts i - tget cnt16Def f.cmapPkts i).toNat
  let dm := (tget cnt16Def f.marked i - tget cnt16Def f.cmapMarked i).toNat
  let level := BitVec.ofNat 8 (min 255 (256 * dm / max 1 dp))
  { s with fabric := { f with
      cmap := tset (fun _ => 0) f.cmap i level
      cmapPkts := tset cnt16Def f.cmapPkts i (tget cnt16Def f.pkts i)
      cmapMarked := tset cnt16Def f.cmapMarked i (tget cnt16Def f.marked i) } }

/-- CMAP_GATHER (R385): by the running firmware. -/
def execCmapGather (s : State) : O :=
  if !s.mgmt.fwRun then .next s
  else
    let s := (countFrom 0 256).foldl cmapOne s
    .next { s with fabric := { s.fabric with cmapValid := true, cmapSeq := s.fabric.cmapSeq + 1, cmapTime := s.mgmt.time } }

/-- PLANE_FENCE_DRAIN_TIMEOUT (R506): what remains on the plane is discarded; its sources send it again (R380). -/
def execPlaneFenceDrainTimeout (p : Fin 4) (s : State) : O :=
  let mask : BitVec 4 := BitVec.ofNat 4 (2 ^ p.val)
  .next (if s.mgmt.time < tget natDef s.fabric.drainSince p.val + 50000 then s
    else
      let s := if s.fabric.planeDraining.getLsbD p.val then planeDiscard s p.val else s
      { s with fabric := { s.fabric with planeDraining := s.fabric.planeDraining &&& ~~~mask } })

/-! ## Pacers and pace monitors -/

/-- PACE_MEASUREMENT (R35): a cluster's monitor has power outside OFF-RAILS; a slice's counts its stack's clock too. -/
def execPaceMeasurement (u : PaceUnit) (pace : BitVec 16) (s : State) : O :=
  if s.pwr.state = 3 then .next s
  else match u with
    | .cluster k => .next (s.modCluster k.val (fun x => { x with paceValid := true, pace := pace }))
    | .slice k =>
      .next (if (s.slice k.val).clkOk then s.modSlice k.val (fun x => { x with paceValid := true, pace := pace }) else s)

/-- A trim: free at the first calibration after a cold reset, then at most 100 ppm from the last (R33). -/
def newTrim (x : ClusterSt) (t : BitVec 16) : BitVec 16 :=
  if x.calOnce then BitVec.ofInt 16 (max (x.trim.toInt - 100) (min (x.trim.toInt + 100) t.toInt)) else t

/-- A calibration of a pacer: a trim is applied no more often than once per ms (R33). -/
def calibrate (now : Nat) (t : BitVec 16) (x : ClusterSt) : ClusterSt :=
  if x.calOnce ∧ now < x.calTime + 1000000 then x
  else { x with trim := newTrim x t, cal := true, calOnce := true, calTime := now }

/-- PACER_CALIBRATION (R33, R462): one trim for each cluster. -/
def execPacerCalibration (trims : List (BitVec 16)) (s : State) : O :=
  if trims.length ≠ 64 || !s.mgmt.fwRun || decide (s.pwr.state = 3) then .next s
  else .next ((countFrom 0 64).foldl (fun s k => s.modCluster k (calibrate s.mgmt.time (lget 0 trims k))) s)

/-- PACER_CAL_LAPSE (R34): 10 ms of management time without a calibration. -/
def execPacerCalLapse (k : Fin 64) (s : State) : O :=
  .next (s.modCluster k.val (fun x => if x.calTime + 10000000 ≤ s.mgmt.time then { x with cal := false } else x))

end Sys2Proof.Machine
end

