-- ==== Sys2Proof/Machine/Latigo.lean ====
section
/-! DEFINITION. Latigo links (R401 to R418): frames received, forwarded or assembled, requests of peers and the remote
records, multicast to devices, training, loss of links. -/

namespace Sys2Proof

open Machine

/-! ## Frames (R404) -/

def Frame.f (x : Frame) (hi lo : Nat) : Nat := bitsOf x.w0.toNat hi lo
def Frame.sdev (x : Frame) : Nat := x.f 63 54
def Frame.ddev (x : Frame) : Nat := x.f 53 44
def Frame.hop (x : Frame) : Nat := x.f 43 42
def Frame.mcol (x : Frame) : Nat := x.f 41 37
def Frame.cls (x : Frame) : Nat := x.f 36 35
def Frame.rsp (x : Frame) : Bool := bitOf x.w0.toNat 34
def Frame.kind (x : Frame) : Nat := x.f 33 31
def Frame.slot (x : Frame) : Nat := x.f 30 24
def Frame.gen (x : Frame) : Bool := bitOf x.w0.toNat 23
def Frame.src (x : Frame) : Nat := x.f 22 13
def Frame.len (x : Frame) : Nat := x.f 12 9
def Frame.fidx (x : Frame) : Nat := x.f 8 5
def Frame.cm (x : Frame) : Bool := bitOf x.w0.toNat 4
def Frame.ce (x : Frame) : Bool := bitOf x.w0.toNat 3
def Frame.plen (x : Frame) : Nat := x.w2.toNat / 2 ^ 32
def Frame.crc (x : Frame) : Half := x.w2.truncate 32
def Frame.fctl (x : Frame) : BitVec 24 := BitVec.ofNat 24 (x.w3.toNat / 2 ^ 40)

/-- A read request: PLEN holds the bytes it asks for, and it carries none (log 83). -/
def Frame.asks (x : Frame) : Bool := !x.rsp && decide (x.kind = 0)

/-- Every header field in its range. Kinds are numbered in the order of R371 (log 21). -/
def Frame.ok (x : Frame) (perica : Bool) : Bool :=
  decide (x.w0.toNat % 8 = 0) && decide (x.w3.toNat % 2 ^ 40 = 0) && decide (x.hop ≤ 2) && decide (x.mcol ≤ 24)
  && decide (1 ≤ x.len) && decide (x.len ≤ 9) && decide (x.fidx < x.len) && decide (x.kind ≤ 6) && decide (x.src < 597)
  && isDevice x.sdev && (isDevice x.ddev || decide (x.ddev = 992) || decide (x.ddev = 993))
  && decide (x.payload.length % 32 = 0) && decide (x.payload.length ≤ if perica then 256 else 512)
  && decide (x.plen ≤ if x.asks then 512 else x.payload.length)

/-- The packet's bytes in a frame. -/
def Frame.bytes (x : Frame) : List Byte := if x.asks then [] else x.payload.take x.plen

/-- What the frames of one packet share. -/
def Frame.key (x : Frame) : Nat :=
  ((((x.sdev * 1024 + x.ddev) * 1024 + x.src) * 128 + x.slot) * 2 + b2n x.gen) * 2 + b2n x.rsp

end Sys2Proof

namespace Sys2Proof.Machine

/-- A frame is discarded (R404, R417). -/
def discardFrame (s : State) (l : Nat) : State :=
  s.modLink l (fun x => { x with uncorr := x.uncorr + 1,
                                 recent := (x.recent.filter (fun t => decide (s.mgmt.time < t + 10000000))) ++ [s.mgmt.time] })

/-! ## Requests of peers (R411) -/

/-- The sender that a record's header names (R253). -/
def senderOf (dev w0 : Nat) : Sender :=
  match bitsOf w0 31 30 with
  | 1 => .skiver dev (bitsOf w0 19 11)
  | 2 => .cp dev
  | _ => .thread dev (bitsOf w0 19 11) (bitsOf w0 10 8)

/-- The unit that a peer's request is for, as `targetOf` numbers them. -/
def frameUnit (s : State) (x : Frame) : Nat :=
  let h := x.w1.toNat
  if x.kind ≤ 1 then (targetOf s (h % 2 ^ 48)).getD 700
  else if x.kind = 4 then (if bitsOf h 44 38 < 80 then portOfSlice (bitsOf h 44 38) else 700)
  else if bitOf h 35 then portCp else bitsOf h 44 36

/-- A peer's request performed: its status (16 added for messages) and data; none: it waits. -/
def peerPerform (s : State) (x : Frame) (b : List Byte) : Option (Nat × List Byte × State) :=
  let h := x.w1.toNat
  let dev := BitVec.ofNat 10 x.sdev
  let sender := senderOf x.sdev (leNat (b.take 8))
  let hdr := BitVec.ofNat 64 (leNat (slice b 8 8))
  let body := b.drop 16
  let msg := fun (r : Nat × State) => (16 + r.1, ([] : List Byte), r.2)
  match x.kind with
  | 0 => peerAcc s dev (.read (h % 2 ^ 48) x.plen)
  | 1 => peerAcc s dev (.write (h % 2 ^ 48) b (allOn b))
  | 4 =>
    let m : Msg := { id := 0, sender := sender, target := .injection none, hdr := hdr, payload := body,
                     cls := BitVec.ofNat 2 x.cls, form := .other }
    if 80 ≤ bitsOf h 44 38 then some (msg (stUnreach, s))
    else (post s m (bitsOf h 44 38) (decide (x.cls = 0)) (BitVec.ofNat 16 h)).map msg
  | _ =>
    if bitOf h 35 then some (msg (injPut s sender hdr body))
    else
      let (c, q) := (bitsOf h 44 36, bitsOf h 20 16)
      let (st, s) := deliver s sender c q (BitVec.ofNat 16 h) hdr body
      some (msg (st, traceQ s c q (if st = stOk then 1 else 2) st (leNat (b.take 8))))

/-- Records of up to 64 bytes and postings travel on the rein, on the die (R370). -/
def frameRein (x : Frame) (b : List Byte) : Bool :=
  decide (x.kind = 4) || ((decide (x.kind = 2) || decide (x.kind = 3)) && onRein (b.drop 16))

/-- The response of a packet goes back to its source: across the die from the unit that answers (or from router `c0`) to its link,
on the minimal route for class 0, else on a spread one (R374, R407); `ce` is the request's mark (R384, R411). A read's data, else the number of
the status (log 83). -/
def sendResponse (s : State) (x : Frame) (unit : Nat) (c0 : Option Nat) (rein ce : Bool) (st : Nat) (d : List Byte) : State :=
  let ok := decide (st = 0) && decide (x.kind = 0)
  let b : LatBody := { rsp := true, kind := if ok then .data else .status, taddr := x.w1
                       bytes := if ok then d else [BitVec.ofNat 8 st] }
  match chooseLink s (decide (x.cls = 0)) x.sdev none with
  | (none, s) => s
  | (some (h, m, l), s) =>
    let (q, s) := if rein then ((0, false), s) else crossVia s unit x.cls c0 none (.link l)
    let f : LatFrom := { sdev := s.lat.id.toNat, src := x.src, slot := x.slot, gen := x.gen, cls := x.cls, ce := ce, cm := q.2 }
    emitFrames s l f x.sdev h.pos m b

/-- A whole request of a peer has a slot of the group port it came by, or takes one and crosses the die from the side router
of its link (R372, R374, R411); none: it waits there. -/
def peerTake (s : State) (l n : Nat) (x : Frame) (b : List Byte) : Option (Nat × State) :=
  let p := portGroup (l / 16)
  if n < 128 then some (n, s)
  else (fabTake s p x.cls (frameRein x b) true (some (linkCluster l)) (.unit (frameUnit s x))).map (fun r =>
    (r.1, r.2.modPort p (fun y => y.modSlot r.1 (fun z => { z with cm := z.cm || x.cm }))))

/-- It is performed at its target: suppressed, refused for want of a record, or performed and recorded; then the response goes
back. It waits at a slice that cannot perform it yet, its address translated where it entered (R315). -/
def peerRequest (l n : Nat) (x : Frame) (h : Word) (b : List Byte) (s : State) : State :=
  let y := { x with w1 := h }
  let p := portGroup (l / 16)
  match peerTake s l n y b with
  | none => s.hold (.peer l 128 x h b)
  | some (n, s) =>
    let u := frameUnit s y
    match oncePeer s (storeAt u) (remoteKey x.sdev x.src x.slot) x.gen (decide (x.kind = 0)) (fun s => peerPerform s y b) with
    | none =>
      let a := h.toNat % 2 ^ 48
      s.hold (.peer l n x (BitVec.ofNat 64 (h.toNat - a + pinned s a)) b)
    | some (st, d, s) =>
      let ce := ((s.port p).slot n).cm
      sendResponse (fabRespond s p n ce) x u none (frameRein x b) ce st d

/-! ## Reception -/

/-- The bytes of a packet's frames. -/
def framesBytes (l : List Frame) : List Byte := l.flatMap (·.bytes)

/-- The end-to-end check of a packet (R379, R404). -/
def framesCrcOk (l : List Frame) : Bool :=
  match l with
  | [] => false
  | y :: _ => decide (y.crc = frameCrc y.w0.toNat y.w1 (framesBytes l))

/-- Bytes in a flit of a packet's frames. -/
def flitBytes (l : List Frame) (i : Nat) : Nat := (framesBytes (l.filter (fun y => decide (y.fidx = i)))).length

/-- A frame goes on with a packet: the next flit, or a part of the flit behind the parts before it (R404, R418). The frames of
a packet come in their order over one link (R408). -/
def goesOn (l : List Frame) (x : Frame) : Bool :=
  match l.getLast? with
  | none => decide (x.fidx = 0)
  | some y =>
    decide (y.crc = x.crc) && decide (y.w1 = x.w1) && decide (y.len = x.len)
    && (decide (x.fidx = y.fidx + 1) || (decide (x.fidx = y.fidx) && decide (flitBytes l x.fidx + x.bytes.length ≤ 512)))

/-- The bytes that a packet has, where something says it: a record's LEN (R253), the read that it answers (log 101). -/
def packetBytes (s : State) (x : Frame) (b : List Byte) : Option Nat :=
  match x.rsp, x.kind with
  | true, 5 => some 1
  | true, _ => (((s.port x.src).slot x.slot).body).map (·.rlen)
  | false, 0 => some 0
  | false, 1 => none
  | false, _ => if b.length < 8 then some 8 else some (16 + 16 * bitsOf (leNat (b.take 8)) 51 40)

/-- A packet's frames are all there: as many bytes as it has; a write's end with a full flit or with a frame that is not. -/
def framesEnd (s : State) (l : List Frame) : Bool :=
  match l.getLast? with
  | none => false
  | some y =>
    decide (y.fidx + 1 = y.len) &&
      (match packetBytes s y (framesBytes l) with
       | some n => decide (n ≤ (framesBytes l).length)
       | none => decide (512 ≤ flitBytes l y.fidx) || decide (y.plen % 32 ≠ 0))

/-- What a frame completes: a packet that passes its check, one that fails it, or none yet. -/
inductive Gathered where
  | whole (l : List Frame)
  | failed (x : Frame)
  | more
  deriving DecidableEq, Repr

/-- A frame behind those of its packet that have come by its link; it may also begin the packet anew, as a re-send does. -/
def joinFrame (s : State) (old : List Frame) (x : Frame) : Gathered × List Frame :=
  let l := old ++ [x]
  let passes := fun (l : List Frame) => framesCrcOk l && (match l.getLast? with
    | some y => decide (y.fidx + 1 = y.len)
    | none => false)
  if goesOn old x then
    if passes l then (.whole l, [])
    else if !framesEnd s l then (.more, l)
    else if x.fidx = 0 && passes [x] then (.whole [x], [])
    else (.failed x, if x.fidx = 0 && !framesEnd s [x] then [x] else [])
  else if x.fidx ≠ 0 then (.more, [])
  else if passes [x] then (.whole [x], [])
  else if framesEnd s [x] then (.failed x, [])
  else (.more, [x])

/-- The frames of the packet in order, this one included, once they are complete. -/
def gatherFrames (s : State) (l : Nat) (x : Frame) : Gathered × State :=
  let key := x.key * 48 + l
  let old := ((s.lat.parts.find? (fun p => decide (p.key = key))).map (·.frames)).getD []
  let (g, keep) := joinFrame s old x
  let rest := s.lat.parts.filter (fun p => decide (p.key ≠ key))
  (g, { s with lat := { s.lat with parts := if keep.isEmpty then rest else rest ++ [⟨key, keep⟩] } })

/-- What a response frame says. -/
def frameAnswer (y : Frame) (b : List Byte) : Option (Nat × List Byte) :=
  if y.kind = 5 then some ((lget 0 b 0).toNat, []) else if y.kind = 6 then some (0, b) else none

/-- A response from a device: it answers its slot; of a multicast, with those of the other devices (R409). -/
def peerResponse (s : State) (y : Frame) (ce : Bool) (ans : Nat × List Byte) : State :=
  let q := (s.port y.src).slot y.slot
  if !(q.busy && q.dest.remote && decide (q.gen = y.gen)) then s
  else if q.dev < 992 then (if q.dev = y.sdev then takeResponse s y.src y.slot y.gen ce ans else s)
  else
    let got := q.got.filter (fun g => decide (g.1 ≠ y.sdev)) ++ [(y.sdev, ans.1)]
    let targets := multiTargets s (decide (q.dev = 993))
    if targets.all (fun t => !t.2.2 || got.any (fun g => decide (g.1 = t.1))) then
      let st := multiStatus (got.map (fun g => (g.1, statusOfNat g.2))) .ok targets
      takeResponse s y.src y.slot y.gen ce (statusNum st, [])
    else s.modPort y.src (fun x => x.modSlot y.slot (fun z => { z with got := got }))

/-- A response crosses the die from the side router of its link to its source's port; that of a request on the rein does not
take the bulk mesh (R370, R374, R383). -/
def crossIn (s : State) (l : Nat) (y : Frame) : State :=
  let q := (s.port y.src).slot y.slot
  if q.busy && q.rein then s else (crossVia s (portGroup (l / 16)) y.cls (some (linkCluster l)) none (.unit y.src)).2

/-- A packet for this device, once all its frames are there: a response answers its slot, a request is performed; a
failed check discards it (R379). -/
def receiveHere (s : State) (l : Nat) (x : Frame) : State :=
  match gatherFrames s l x with
  | (.more, s) => s
  | (.failed y, s) =>
    let s := if y.rsp then crossIn s l y
      else if frameRein y (framesBytes [y]) then s
      else (crossVia s (portGroup (l / 16)) y.cls (some (linkCluster l)) none (.unit (frameUnit s y))).2
    countCrc s (unitCluster (if y.rsp then y.src else frameUnit s y))
  | (.whole fs, s) =>
    match fs with
    | [] => s
    | y :: _ =>
      let b := framesBytes fs
      let y := if fs.any (·.cm) then { y with w0 := y.w0 ||| 16 } else y
      if y.rsp then
        match frameAnswer y b with
        | some ans => peerResponse (crossIn s l y) y y.ce ans
        | none => s
      else if 5 ≤ y.kind then s
      else peerRequest l 128 y y.w1 b s

/-- The next hop of a packet that passes through (R407). A forwarding device stands in the target's row, or takes the
column hop to it. -/
def nextHop (s : State) (x : Frame) : Hop :=
  let me := s.lat.id.toNat
  if x.ddev / 32 = me / 32 then ⟨x.ddev % 32, 2, true⟩ else ⟨32 + x.ddev / 32, 1, decide (x.ddev % 32 = me % 32)⟩

/-- A frame leaves over a link: in parts where the link's format asks for them (R418). Its FCTL and whether the egress
lane marks its packet are free (R383, R408). -/
def passFrame (s : State) (l hop : Nat) (x : Frame) : State :=
  (partsOf (linkPerica s l) x.bytes).foldl (fun s b =>
    let (w, s) := drawFree s
    let mark := b2n (!x.cm && decide (x.cls ≠ 0) && w.getLsbD 63) * 16
    sendFrame s l (laneOf x.cls x.rsp hop) {
      w0 := BitVec.ofNat 64 (x.w0.toNat - x.hop * 2 ^ 42 + hop * 2 ^ 42 + mark), w1 := x.w1
      w2 := BitVec.ofNat 64 ((if x.asks then x.plen else b.length) * 2 ^ 32 + x.crc.toNat)
      w3 := BitVec.ofNat 64 (w.toNat % 2 ^ 24 * 2 ^ 40), payload := padFrame b, fecOk := true }) s

/-- A packet whose frames pass through goes on with this frame. -/
def Forwarded.goesOn (p : Forwarded) (x : Frame) : Bool :=
  decide (p.crc = x.crc) && (decide (x.fidx = p.flit + 1)
    || (decide (x.fidx = p.flit) && decide (x.bytes.length ≠ 0) && decide (p.bytes + x.bytes.length ≤ 512)))

/-- The packet after it. -/
def Forwarded.next (p : Forwarded) (x : Frame) : Forwarded :=
  { p with flit := x.fidx, bytes := (if x.fidx = p.flit then p.bytes else 0) + x.bytes.length }

/-- Forward a frame over its packet's link, the first, which crosses the die there, over the next link of the gang; without one the packet's response is
UNREACH. Frames of a packet whose link cannot carry them any more are lost (R408, R410). -/
def forward (s : State) (from_ : Nat) (x : Frame) : State :=
  let h := nextHop s x
  let key := x.key * 48 + from_
  let others := s.lat.fwd.filter (fun p => decide (p.key ≠ key))
  let go := fun (x : Frame) (p : Forwarded) (s : State) =>
    passFrame { s with lat := { s.lat with fwd := others ++ [p.next x] } } p.link h.pos x
  match s.lat.fwd.find? (fun p => decide (p.key = key) && p.goesOn x) with
  | some p => if mayTake s h.last (routeEntry s h.entry) p.link then go x p s else s
  | none =>
    if x.fidx ≠ 0 then s
    else match gangLink s h with
      | some l =>
        let (q, s) := crossVia (turnGang s h.entry l) (portGroup (from_ / 16)) x.cls (some (linkCluster from_)) none (.link l)
        go (if q.2 then { x with w0 := x.w0 ||| 16 } else x) { key := key, crc := x.crc, link := l } s
      | none =>
        if x.rsp then s
        else
          let s := { s with lat := { s.lat with noroute := s.lat.noroute + 1 } }
          sendResponse s x (portGroup (from_ / 16)) (some (linkCluster from_)) false x.cm (if x.kind ≤ 1 then statusNum .unreach else 16 + stUnreach) []

/-- FRAME_RECEIVE (R404): on a link that is up and in use (R416). How many codewords the FEC corrected is free. A frame's FCTL
says which of this end's lanes are on; a control frame carries nothing else (R408). -/
def execFrameReceive (l : Fin 48) (f : Frame) (s : State) : O :=
  if !linkUsable s l.val then .next s
  else
    let (w, s) := drawFree s
    let s := s.modLink l.val (fun x => { x with corr := if f.fecOk && w.getLsbD 0 then x.corr + 1 else x.corr })
    if !f.fecOk || !f.ok (linkPerica s l.val) then .next (discardFrame s l.val)
    else
      let s := takeFctl s l.val f.fctl
      if f.payload.isEmpty then .next s
      else if f.ddev = s.lat.id.toNat ∨ 992 ≤ f.ddev then .next (receiveHere s l.val f)
      else .next (forward s l.val f)

/-! ## Multicast to devices (R409) -/

/-- The answers of all devices of a multicast: where the row names none, any. -/
def fillAnswers (answers : List (Nat × Status)) : List (Nat × Nat × Bool) → State → List (Nat × Status) × State
  | [], s => ([], s)
  | (d, _, _) :: ds, s =>
    let (st, s) := match answers.find? (fun a => decide (a.1 = d)) with
      | some a => (a.2, s)
      | none =>
        let (x, s) := freeExt 0 s
        (x.status, s)
    let (r, s) := fillAnswers answers ds s
    ((d, st) :: r, s)

/-- LATIGO_MULTICAST: a write to the devices of this row or column leaves in a slot and is answered. Peers send none, nor do
the host and the management plane (R24, R428). -/
def execLatigoMulticast (a : Agent) (rc : RowCol) (addr : BitVec 48) (data : List Byte) (answers : List (Nat × Status))
    (s : State) : O :=
  let column := decide (rc = .column)
  let acc : Acc := .write (2 ^ 58 + (992 + b2n column) * 2 ^ 48 + addr.toNat) data (allOn data)
  match agentPort a with
  | none => .next s
  | some p =>
    if a = .host ∨ !accWf acc then .next s
    else match sendReq s p (agentClass s a) acc with
      | (.wait, _) => .next s
      | (.refused st, s) => .next (s.answer { status := st })
      | (.slot n, s) =>
        let (l, s) := fillAnswers answers (multiTargets s column) s
        .next ((fabFree s p n).answer { status := multiStatus l .ok (multiTargets s column) })

/-! ## Re-sends, records -/

/-- What a slot's request carries leaves again, by a fresh way (R380, R411): it crosses the die to the link that its class and
MCOL choose. A message that has not come to its link yet only crosses again. -/
def emitAgain (s : State) (p n mcol : Nat) : State :=
  let x := (s.port p).slot n
  match x.body with
  | none => crossAgain s p n
  | some b =>
    if 992 ≤ x.dev then sendMulti s (decide (x.dev = 993)) (slotFrom s p n) b
    else match chooseLink s (decide (x.cls = 0)) x.dev (some mcol) with
      | (none, s) => s
      | (some (h, m, l), s) =>
        let s := crossAgain (s.modPort p (fun y => y.modSlot n (fun z => { z with dest := .link l, mcol := m }))) p n
        emitFrames s l (slotFrom s p n) x.dev h.pos m b

/-- LAT_RESEND_TIMEOUT (R411): MCOL is a column that R407 lets the source draw. -/
def execLatResendTimeout (port : Fin 597) (slot : Fin 128) (mcol : Fin 25) (s : State) : O :=
  let x := (s.port port.val).slot slot.val
  let may := decide (x.cls = 0) || decide (992 ≤ x.dev) || (spreadCols s x.dev).contains mcol.val
  .next (if timedOut s port.val slot.val && x.dest.remote && may then
    emitAgain (countResend s port.val slot.val) port.val slot.val mcol.val else s)

/-- REMOTE_RECORD_EXPIRY (R411): HOLD counts hundreds of ticks of the target's clock. -/
def execRemoteRecordExpiry (slice : Bool) (unit : Fin 80) (key : Nat) (s : State) : O :=
  let u := (slice, unit.val)
  .next (storeMod s u (fun l => l.filter (fun r => decide (r.key ≠ key) || decide (storeClock s u < r.since + 100 * s.lat.hold))))

/-! ## Links (R403, R416) -/

/-- A failed stage waits for its restart. -/
def stageFailed : Nat := 9

/-- A link's state as LAT_LINK.ST shows it. -/
def LinkSt.shown (x : LinkSt) : Nat := if x.isFenced then 3 else x.st.toNat

/-- What waits at a link for its lane, and what the far end said of its lanes, go with the link (R410). -/
def LinkSt.settle (x : LinkSt) : LinkSt := if x.st = 2 ∧ !x.isFenced then x else { x with laneOff := 0, egress := [] }

/-- A change of a link; the management controller reports a change of its state in telemetry (R416). -/
def changeLink (s : State) (l : Nat) (f : LinkSt → LinkSt) : State :=
  let n := (f (s.link l)).shown
  let s' := s.modLink l (fun x => (f x).settle)
  if n = (s.link l).shown then s' else s'.out (.linkState l n)

/-- A stage has failed; it restarts after 1 ms (R416). -/
def LinkSt.fail (now : Nat) (x : LinkSt) : LinkSt := { x with stage := stageFailed, failedAt := now }

/-- A control frame, with no payload, as a link comes up: FCTL is free (R408). -/
def controlFrame (s : State) (l : Nat) : State :=
  let (w, s) := drawFree s
  let peer := (s.link l).peer.toNat
  s.out (.frame (Fin.ofNat 48 l) {
    w0 := BitVec.ofNat 64 (s.lat.id.toNat * 2 ^ 54 + peer * 2 ^ 44 + 2 ^ 9), w1 := 0, w2 := 0
    w3 := BitVec.ofNat 64 (w.toNat % 2 ^ 24 * 2 ^ 40), payload := [], fecOk := true })

/-- LINK_TRAINING, from start-up stage 9 on (R497). Lanes that are fenced take no part; a number that is no device's fails the
exchange. -/
def execLinkTraining (l : Fin 48) (stage : TrainStage) (s : State) : O :=
  let x := s.link l.val
  let put := fun (f : LinkSt → LinkSt) => Host.Outcome.next (changeLink s l.val f)
  let fail := LinkSt.fail s.mgmt.time
  if x.isFenced || !(tget groupDef s.lat.groups (l.val / 16)).locked || decide (s.pwr.state = 3) then .next s
  else match stage with
    | .start => if x.st = 0 ∧ s.mgmt.booted then put (fun x => { x with st := 1, stage := 0 }) else .next s
    | .equalise a b =>
      let lanes : BitVec 2 := BitVec.ofNat 2 (b2n a + 2 * b2n b) &&& ~~~x.laneFenced
      if x.st = 1 ∧ x.stage = 0 then put (fun x => if lanes = 0 then fail { x with lanes := 0 } else { x with lanes := lanes, stage := 1 })
      else .next s
    | .measure ns =>
      if x.st = 1 ∧ x.stage = 1 then put (fun x => if 50 < ns then fail x else { x with stage := 2 }) else .next s
    | .exchange peer =>
      if x.st = 1 ∧ x.stage = 2 then
        if isDevice peer.toNat then
          .next (controlFrame (changeLink s l.val (fun x => { x with st := 2, stage := 3, peer := peer })).relink l.val)
        else put fail
      else .next s

/-- LINK_TRAINING_RETRY: training restarts, 1 ms after a stage failed. -/
def execLinkTrainingRetry (l : Fin 48) (s : State) : O :=
  let x := s.link l.val
  .next (if x.st = 1 ∧ x.stage = stageFailed ∧ x.failedAt + 1000000 ≤ s.mgmt.time then
    s.modLink l.val (fun x => { x with stage := 0, lanes := 0 }) else s)

/-- A link leaves UP: streams that no longer fit are revoked, then the host is told (R395, R410, R452). It keeps PEER and
with it MISMATCH (R419). -/
def linkLost (s : State) (l : Nat) : State :=
  let down := changeLink s l (fun x => { x with st := 0, lanes := 0, stage := 0 })
  if (s.link l).st = 2 then (revokeUnfit down).viaMail (unitFault 4 l 3 0 0) else down

/-- LINK_DOWN. -/
def execLinkDown (l : Fin 48) (s : State) : O := .next (if (s.link l.val).st = 2 then linkLost s l.val else s)

/-- LATIGO_REFCLK_LOSS (R543). -/
def execLatigoRefclkLoss (s : State) : O :=
  let s := (countFrom 0 3).foldl (fun s g =>
    { s with lat := { s.lat with groups := tmod groupDef s.lat.groups g (fun x => { x with locked := false }) } }) s
  .next ((countFrom 0 48).foldl linkLost s)

/-- GROUP_CLOCK_LOCK (R419): the multiplier of a group locks. -/
def execGroupClockLock (g : Fin 3) (s : State) : O :=
  .next { s with lat := { s.lat with groups := tmod groupDef s.lat.groups g.val (fun x => { x with locked := true }) } }

end Sys2Proof.Machine
end

