-- ==== Sys2Proof/Machine/CpBase.lean ====
section
/-! DEFINITION. The command processor's ground: ring memory (R427), MSI-X (R435), command addresses (R438), doorbells
(R440, R442), replies and notices (R441, R445, R449, R452), taking commands (R443, R444, R450, R459). -/

namespace Sys2Proof.Machine

/-! ## Flash (R465, R466) -/

def slotBytes : Nat := 0x1C00000
def sectorBytes : Nat := 0x10000

/-- Byte of the flash as long as nothing has written it: erased, the unused region too, or as manufactured. -/
def flashDef (m : MgmtSt) (a : Nat) : Byte :=
  if tget boolDef m.erased (a / sectorBytes) ∨ 0x3920000 ≤ a then 0xFF else Config.flashByte a
def flashByte (m : MgmtSt) (a : Nat) : Byte := tget (flashDef m) m.flash a
def flashBytes (m : MgmtSt) (a n : Nat) : List Byte := (countFrom 0 n).map (fun i => flashByte m (a + i))

/-- Where an image slot and a configuration bank begin. -/
def slotBase (slot : Bool) : Nat := if slot then 0x1D00000 else 0x100000
def bankBase (bank : Bool) : Nat := if bank then 0x3910000 else 0x3900000

/-- The factory region: the certificate chain. -/
def factoryBytes (m : MgmtSt) : List Byte := flashBytes m 0 0x100000

/-- A field of a slot's image header. -/
def imageField (m : MgmtSt) (slot : Bool) (o n : Nat) : Nat := leNat (flashBytes m (slotBase slot + o) n)

/-- The running firmware's version number (R453, R466). -/
def fwVersion (m : MgmtSt) : Nat := imageField m m.slot 8 8

/-! ## Ring memory -/

def ringBytes : Nat := 0x400000

/-- Words of ring memory that a span touches. -/
def ringWords (off len : Nat) : List Nat := countFrom (off / 8) ((off + len - 1) / 8 + 1 - off / 8)

/-- Check the struck words of a span: none of it readable when one is uncorrectable (R154). -/
def ringCheck : List Nat → State → Bool × State
  | [], s => (true, s)
  | w :: ws, s =>
    match tget natDef s.host.ring.upsets w with
    | 0 => ringCheck ws s
    | n =>
      let clear := fun (s : State) (f : Bytes → Bytes) =>
        { s with host := { s.host with ring := { s.host.ring with upsets := terase s.host.ring.upsets w, bytes := f s.host.ring.bytes } } }
      match wordFate false n 8 s with
      | (.corrected _, s) => ringCheck ws (clear s id)
      | (.detected, s) => (false, s)
      | (.miscorrected b, s) | (.unnoticed b, s) => ringCheck ws (clear s (fun m => writeBytes m (8 * w) b))

def ringRead (s : State) (off len : Nat) : Option (List Byte) × State :=
  let (ok, s) := ringCheck (ringWords off len) s
  (if ok then some (readBytes s.host.ring.bytes off len) else none, s)

/-- A write; words covered whole get fresh check symbols. -/
def ringWrite (s : State) (off : Nat) (data : List Byte) : State :=
  let whole := fun (w : Nat) => decide (off ≤ 8 * w) && decide (8 * w + 8 ≤ off + data.length)
  let r := s.host.ring
  { s with host := { s.host with ring := { r with bytes := writeBytes r.bytes off data, upsets := r.upsets.filter (fun p => !whole p.1) } } }

/-! ## Interrupts (R435) -/

/-- Traffic of CXL.io passes the port: it is in service (R510), and the IDE stream that carries it is not Insecure (R436;
log 92). -/
def ioStream (s : State) : Bool := !s.cp.portOut && !s.host.ideInsecure && !s.host.selInsecure

/-- Traffic of CXL.cache and CXL.mem passes the port (R436, R510). -/
def cmStream (s : State) : Bool := !s.cp.portOut && !s.host.cmInsecure

/-- A vector's message may be sent: MSI-X enabled, the vector not masked, a nonzero address, the function neither masked nor
barred from the bus, which D3hot bars it from too (as PCIe has these, log 7). -/
def msixOpen (s : State) (m : MsixEnt) : Bool :=
  s.host.msixEn && !m.masked && decide (m.addr ≠ 0) && !s.host.funcMask && s.host.busMaster && !s.host.d3hot

/-- A message leaves, or is discarded at the port (R436). -/
def msixOut (s : State) (m : MsixEnt) : State := if ioStream s then s.out (.msix m.addr m.data) else s

/-- Raise a vector: its message, or its pending bit. -/
def msixRaise (s : State) (v : Nat) : State :=
  let m := tget msixDef s.host.msix v
  if msixOpen s m then msixOut s m
  else { s with host := { s.host with msix := tset msixDef s.host.msix v { m with pending := true } } }

/-- A vector that is no longer masked sends its pending message. -/
def msixFlush (s : State) (v : Nat) : State :=
  let m := tget msixDef s.host.msix v
  if m.pending && msixOpen s m then
    msixOut { s with host := { s.host with msix := tset msixDef s.host.msix v { m with pending := false } } } m
  else s

/-! ## Command addresses (R438) -/

def cSpace (n : Nat) : Nat := n / 2 ^ 62
def cAddr (n : Nat) : Nat := n % 2 ^ 62

/-- The layout holds. -/
def cmdAddrOk (n : Nat) : Bool :=
  match cSpace n with
  | 0 => decide (cAddr n < 2 ^ 48)
  | 1 => decide (cAddr n < 2 ^ 22)
  | 2 => true
  | _ => false

/-- An extent lies within ring memory, or within the host addresses; a local one meets what its bytes meet. -/
def cmdExtentOk (n len : Nat) : Bool :=
  match cSpace n with
  | 1 => decide (cAddr n + len ≤ ringBytes)
  | 2 => decide (cAddr n + len ≤ 2 ^ 62)
  | _ => true

/-- The command processor may send CXL.io memory requests: Bus Master Enable is set, the stream not Insecure (R436, R438). -/
def State.hostBus (s : State) : Bool := s.host.busMaster && ioStream s

/-- The command processor's own accesses leave its source port (R372). DESIGN CHOICE (log 83): in class 2.
`ext` is the host's answer at an address of the host aperture. -/
def cpReq (ext : ExtAns) (acc : Acc) : M AccRes := reqM regW .cp portCp 2 ext acc

/-- Read bytes at a command address; the host's answer is `ext`. -/
def cpRead (n len : Nat) (ext : ExtAns) : M (Status × List Byte) := do
  let s ← get
  match cSpace n with
  | 0 =>
    let r ← cpReq ext (.read (cAddr n) len)
    pure (r.status, r.data)
  | 1 =>
    let (r, s) := ringRead s (cAddr n) len
    set s
    match r with
    | some b => pure (.ok, b)
    | none => pure (.data, [])
  | _ =>
    if !s.hostBus then pure (.unreach, [])
    else do
      set (s.out (.hostRead (cAddr n) len))
      pure (match ext.status with | .ok => .ok | .data => .data | _ => .unreach, padTo 0 len ext.data)

/-- Write bytes at a command address. -/
def cpWrite (n : Nat) (data : List Byte) (ext : ExtAns) : M Status := do
  let s ← get
  match cSpace n with
  | 0 =>
    let r ← cpReq ext (.write (cAddr n) data (allOn data))
    pure r.status
  | 1 => do
    set (ringWrite s (cAddr n) data)
    pure .ok
  | _ =>
    if !s.hostBus then pure .unreach
    else do
      set (s.out (.hostWrite (cAddr n) data (allOn data)))
      pure (match ext.status with | .ok => .ok | _ => .unreach)

/-! ## Rings -/

def State.ring (s : State) (p : Nat) : RingSt := tget ringDef s.cp.rings p
def State.modRing (s : State) (p : Nat) (f : RingSt → RingSt) : State :=
  { s with cp := { s.cp with rings := tmod ringDef s.cp.rings p f } }

def RingSt.sqSize (r : RingSt) : Nat := if r.version = 1 then 48 else 64
def RingSt.cqSize (r : RingSt) : Nat := if r.version = 1 then 16 else 32

/-- Completion entries neither written and unread nor reserved (R442). -/
def RingSt.room (r : RingSt) : Nat := 2 ^ r.cqLog2 - ((r.cqTail - r.cqHead).toNat + r.reserved)

/-- Status codes of R446 and reasons of R447. -/
def cOk : Nat := 0
def cBusy : Nat := 1
def cRefused : Nat := 2
def cFaulted : Nat := 4
def cTimeout : Nat := 5
def rOpcode : Nat := 1
def rFormat : Nat := 2
def rRange : Nat := 3
def rState : Nat := 4
def rAccess : Nat := 6
def rMailbox : Nat := 10
def rPoison : Nat := 11
def rDoorbell : Nat := 12

/-- The pair enters the error state (R440). -/
def ringError (s : State) (p : Nat) : State :=
  (s.modRing p (fun r => { r with error := true })).notify
    { status := cRefused, result0 := BitVec.ofNat 64 rDoorbell, result1 := BitVec.ofNat 64 p }

/-- A doorbell value reaches a pair (R426, R440). -/
def bellApply (s : State) (p : Nat) (cq : Bool) (v : Half) : State :=
  let r := s.ring p
  let n : BitVec 16 := v.truncate 16
  if !r.exist || r.error then s
  else if v.toNat / 65536 ≠ 0 then ringError s p
  else if cq then
    (if (r.cqTail - n).toNat ≤ 2 ^ r.cqLog2 then s.modRing p (fun r => { r with cqHead := n }) else ringError s p)
  else if (n - r.sqHead).toNat ≤ 2 ^ r.sqLog2 then s.modRing p (fun r => { r with sqTail := n }) else ringError s p

/-- A doorbell write: recorded while READY is 0 (R442). -/
def doorbell (s : State) (p : Nat) (cq : Bool) (v : Half) : State :=
  if s.host.ready then bellApply s p cq v
  else s.modRing p (fun r => if cq then { r with cqBell := some v } else { r with sqBell := some v })

/-- READY rises: the latest recorded values take effect, and what waits at the injection port is taken (R23). -/
def setReady (s : State) : State :=
  let s := { s with host := { s.host with ready := true } }
  (countFrom 0 64).foldl (fun s p =>
    let r := s.ring p
    let s := s.modRing p (fun r => { r with sqBell := none, cqBell := none })
    let s := match r.sqBell with | some v => bellApply s p false v | none => s
    match r.cqBell with | some v => bellApply s p true v | none => s) s.portIntake

/-! ## Replies and notices -/

/-- Write a completion entry: its bytes with the phase bit, the tail, the vector (R441, R449). -/
def cqPut (s : State) (p : Nat) (entry : Bool → List Byte) : State :=
  let r := s.ring p
  let e := 2 ^ r.cqLog2
  let v := r.cqTail.toNat
  let b := entry (decide (v / e % 2 = 0))
  let a := r.cplBase.toNat + r.cqSize * (v % e)
  let s := s.modRing p (fun r => { r with cqTail := r.cqTail + 1 })
  let s := match cSpace a with
    | 1 => ringWrite s (cAddr a) b
    | _ => if s.hostBus then s.out (.hostWrite (cAddr a) b (allOn b)) else s
  msixRaise s r.vec.toNat

/-- A version-2 reply (R445). -/
def replyBytes (time tag op st : Nat) (notice : Bool) (sqhead : Nat) (r0 r1 : Word) (phase : Bool) : List Byte :=
  let w0 := tag + op * 2 ^ 16 + st * 2 ^ 32 + b2n phase * 2 ^ 40 + b2n notice * 2 ^ 41 + sqhead * 2 ^ 48
  leBytes 8 w0 ++ leBytes 8 time ++ leBytes 8 r0.toNat ++ leBytes 8 r1.toNat

/-- A Perica reply (R459). -/
def pericaReply (tag st : Nat) (r0 : Word) (phase : Bool) : List Byte :=
  leBytes 2 tag ++ leBytes 1 st ++ leBytes 1 (b2n phase) ++ leBytes 4 0 ++ leBytes 8 r0.toNat

/-- A reply enters the host mailbox's outbound slot, or waits for it. -/
def mailPut (s : State) (b : List Byte) : State :=
  if s.host.mailOut.isSome then { s with host := { s.host with mailWait := s.host.mailWait ++ [b] } }
  else { s with host := { s.host with mailOut := some b } }.out (.mailbox b)

/-- The reply of a command; an OK is not written for QUIET, none for a pair that is gone (R444, R453). -/
def cmdReply (s : State) (c : Cmd) (st : Nat) (r0 r1 : Word) : State :=
  match c.ring with
  | none =>
    if c.quiet ∧ st = cOk then s
    else mailPut s (replyBytes s.mgmt.time c.tag.toNat c.opcode st false 0 r0 r1 true)
  | some p =>
    if c.gone then s
    else
      let s := s.modRing p.val (fun r => { r with reserved := r.reserved - 1 })
      if c.quiet ∧ st = cOk then s
      else if c.version = 1 then cqPut s p.val (pericaReply c.tag.toNat st r0)
      else cqPut s p.val (replyBytes s.mgmt.time c.tag.toNat c.opcode st false c.pos r0 r1)

/-- A command ends; while the command processor is out of service none does (R510). -/
def finishCmd (s : State) (id st : Nat) (r0 r1 : Word) : State :=
  match s.cp.cmds.find? (fun c => decide (c.id = id)) with
  | none => s
  | some c =>
    if s.cp.outOfService then s
    else cmdReply { s with cp := { s.cp with cmds := s.cp.cmds.filter (fun c => decide (c.id ≠ id)) } } c st r0 r1

/-- The end of a command stands in the mailbox already. -/
def replyWaits (s : State) (id : Nat) : Bool :=
  (s.cp.toCp.toList ++ s.cp.cpWait).any (fun m => decide (m.done.map (·.1) = some id))

/-- The management controller ends a command: its answer passes through the plane mailbox, or waits there (R26, R27). -/
def mgmtDone (s : State) (id st : Nat) (r0 r1 : Word) : State :=
  if s.cp.toCp.isNone && s.cpUp then finishCmd s id st r0 r1
  else if replyWaits s id then s
  else putCp s { done := some (id, st, r0, r1) }

/-- A command for the management controller waits while the mailbox's slot towards it is full (R26, R27). -/
def viaMgmt : M Unit := do
  let s ← get
  if s.cp.toMgmt.isSome then throw .wait

/-- An answer of the management controller that the command's row itself gives waits while the mailbox's slot towards the
command processor is full (R20, R26). -/
def viaCp : M Unit := do
  let s ← get
  if s.cp.toCp.isSome ∨ s.cp.cpWait ≠ [] then throw .wait

def State.cmd (s : State) (id : Nat) : Option Cmd := s.cp.cmds.find? (fun c => decide (c.id = id))
def State.modCmd (s : State) (id : Nat) (f : Cmd → Cmd) : State :=
  { s with cp := { s.cp with cmds := s.cp.cmds.map (fun c => if c.id = id then f c else c) } }

/-- The pair that notices go to: the lowest of version 2 created with NOTICE (R452). -/
def noticePair (s : State) : Option Nat :=
  (countFrom 0 64).find? (fun p => let r := s.ring p; r.exist && decide (r.version = 2) && r.notice)

/-- Room in the queue of notices: one NOTICES_LOST tells of those lost; its unit is free. -/
def tellLost (s : State) : State :=
  if s.cp.lostPending = 0 ∨ 256 ≤ s.cp.notices.length then s
  else
    let (w, s) := drawFree s
    { s with cp := { s.cp with lostPending := 0 } }.notify
      { status := cFaulted, result0 := someUnit w, result1 := BitVec.ofNat 64 (5 + s.cp.lostPending % 2 ^ 32 * 2 ^ 32) }

/-- Deliver the oldest notice when its pair has room. -/
def pushNotice (s : State) : State :=
  match s.cp.notices, noticePair s with
  | n :: rest, some p =>
    if (s.ring p).room = 0 then s
    else
      let s := { s with cp := { s.cp with notices := rest } }
      tellLost (cqPut s p (replyBytes s.mgmt.time 0 0xFFFF n.status true 0 n.result0 n.result1))
  | _, _ => s

/-- A trip's notice (R484). -/
def Notice.isTrip (n : Notice) : Bool :=
  decide (n.status = cFaulted) && decide (n.result0 = unitWord 9 0) && decide (n.result1.toNat % 256 = 4)

/-- A trip's notice has not been written yet, here or in the plane mailbox. -/
def tripWaits (s : State) : Bool :=
  s.cp.notices.any (·.isTrip) || (s.cp.toCp.toList ++ s.cp.cpWait).any (fun m => match m.notice with | some n => n.isTrip | none => false)

/-- The command that a trip has ended replies FAULTED with TRIP after the trip's notice (R484). -/
def tripReply (s : State) : State :=
  match s.pwr.tripCmd with
  | some (id, cause, index) =>
    if tripWaits s then s
    else mgmtDone { s with pwr := { s.pwr with tripCmd := none } } id cFaulted (unitWord 9 0) (BitVec.ofNat 64 (4 + cause * 256 + index * 2 ^ 32))
  | none => s

/-- NOTICE_DELIVERY: the oldest one; the revocations of a fault stand before its FAULTED (R395). -/
def execNoticeDelivery (s : State) : O := .next (if s.cpUp then tripReply (pushNotice s) else s)

/-! ## Taking (R443, R444, R450, R459) -/

/-- The bits that each parameter word of an opcode may set; none: the opcode is unassigned (R453). -/
def opMasks (op : Nat) : Option (List Nat) :=
  let all := 2 ^ 64 - 1
  let range := 0x03FF01FF
  match op with
  | 0x00 => some []
  | 0x01 => some [0x01FF3F01033F, all, all, 0xFF]
  | 0x02 => some [0x3F]
  | 0x10 => some [all, all, all]
  | 0x11 => some [all, all, all, range]
  | 0x12 => some [all, 0xFF, all, all, range]
  | 0x13 => some [0x1FF, all, all, all, all, all]
  | 0x14 => some [all, all, 1]
  | 0x15 => some [all, 0, 1]
  | 0x20 => some [all, all, 0x1FFFFFFFF, all, all, 0xFFFF000003FF, 0x3FFFFFFFF]
  | 0x21 => some [all, 0xFFFFFFFF, 0xFFFF, all, 0, 0xFFFF00000000, 0x3FFFFFFFF]
  | 0x30 => some [all, 0x103FFFFFFFF, all, 0x3FFFFFFFF, 0xFFFFFFFFFFFF, 0x1FFFFF]
  | 0x31 => some [0xFFFFFFFF, 0xFFFFFFFF, 0xFFFF, 0x7F]
  | 0x32 => some [0x11F, 0xFFFFFFFFFFFF]
  | 0x33 => some [0x3FF03FF0001]
  | 0x40 => some [all, 0x7F]
  | 0x41 => some [0x3F]
  | 0x50 | 0x51 => some [0xF03FF]
  | 0x52 => some [0xF03FF, 0xFF, 0xFFFFFFFF]
  | 0x60 => some [3, all]
  | 0x61 => some [0xFFFFFFFF]
  | 0x70 => some [0xFFFF, all, 0xFFFFFFFF]
  | 0x80 => some [0xFF, all, 0xFFFF, all, 0xFFFF, 0xFFFFFFFF]
  | _ => none

/-- Parameters that are command addresses. -/
def opAddrs (op : Nat) : List Nat :=
  match op with
  | 0x01 => [1, 2]
  | 0x10 | 0x11 => [0, 1]
  | 0x12 | 0x14 | 0x15 | 0x21 | 0x30 | 0x40 => [0]
  | 0x70 => [1]
  | 0x80 => [1, 3]
  | _ => []

/-- The opcode that a Perica POP is performed as. -/
def pericaOp : Nat → Option Nat
  | 1 => some 0x00 | 2 => some 0x10 | 3 => some 0x11 | 4 => some 0x12 | 5 => some 0x20 | 6 => some 0x70 | _ => none

/-- The first parameter with a bit it may not set, or an address of no layout. -/
def badParam (op : Nat) (masks : List Nat) (ps : List Word) : Option Nat :=
  (countFrom 0 ps.length).find? (fun i =>
    let v := (lget 0 ps i).toNat
    decide (maskClear v (lget 0 masks i) ≠ 0) || ((opAddrs op).contains i && !cmdAddrOk v))

/-- What taking an entry finds: the command, and its refusal if there is one. -/
def checkPacket (c : Cmd) (b : List Byte) : Cmd × Option (Nat × Nat) :=
  let w := fun (i : Nat) => leNat (slice b (8 * i) 8)
  if c.version = 1 then
    let pop := w 0 % 65536
    let ps := (countFrom 1 5).map (fun i => BitVec.ofNat 64 (w i))
    let c := { c with tag := BitVec.ofNat 16 (w 0 / 65536), opcode := pop, params := ps }
    match pericaOp pop with
    | none => (c, some (rOpcode, 0))
    | some op =>
      if w 0 / 2 ^ 32 ≠ 0 then (c, some (rFormat, 0))
      else (c, (badParam op ((opMasks op).getD []) ps).map (fun i => (rFormat, i)))
  else
    let h := w 0
    let op := h % 65536
    let ps := (countFrom 1 7).map (fun i => BitVec.ofNat 64 (w i))
    let c := { c with tag := BitVec.ofNat 16 (h / 2 ^ 48), opcode := op, params := ps, seq := bitOf h 24, quiet := bitOf h 25 }
    if bitsOf h 23 16 ≠ 2 then (c, some (rFormat, 0))
    else match opMasks op with
      | none => (c, some (rOpcode, 0))
      | some masks =>
        if bitsOf h 31 26 ≠ 0 ∨ bitsOf h 47 32 ≠ 8 * masks.length then (c, some (rFormat, 0))
        else (c, (badParam op masks ps).map (fun i => (rFormat, i)))

/-- A command is in progress, or refused at once. -/
def acceptCmd (s : State) (c : Cmd) (refusal : Option (Nat × Nat)) : State :=
  let mail := decide (c.ring = none) && decide (2 < c.opcode) && (countFrom 0 64).any (fun p => (s.ring p).exist)
  match refusal, mail with
  | some (r, i), _ => cmdReply s c cRefused (BitVec.ofNat 64 r) (BitVec.ofNat 64 i)
  | none, true => cmdReply s c cRefused (BitVec.ofNat 64 rMailbox) 0
  | none, false => { s with cp := { s.cp with cmds := s.cp.cmds ++ [c] }, nextId := s.nextId + 1 }

/-- The pair that is served next (R450). -/
def nextPair (s : State) : Option Nat :=
  ((countFrom 1 64).map (fun i => (s.cp.lastPair + i) % 64)).find? (fun p =>
    let r := s.ring p
    r.exist && !r.error && decide (r.sqTail ≠ r.sqHead) && decide (0 < r.room))

/-- A read of a ring in host memory: by CXL.cache where the mode has it, else by CXL.io (R421, R434); none: it cannot leave. -/
def ringBus (s : State) (a n : Nat) : Option State :=
  if s.host.cache then (if cmStream s then some (s.out (.hostRdCurr a n)) else none)
  else if s.hostBus then some (s.out (.hostRead a n))
  else none

/-- An entry's bytes: from ring memory, or as the host answers its read; none with the reason of the refusal. -/
def entryRead (s : State) (r : RingSt) (a : Nat) (entry : List Byte) (status : Status) : (List Byte ⊕ (Nat × Nat)) × State :=
  match cSpace a with
  | 1 =>
    match ringRead s (cAddr a) r.sqSize with
    | (some b, s) => (.inl b, s)
    | (none, s) => (.inr (rPoison, 0), s)
  | _ =>
    match ringBus s (cAddr a) r.sqSize with
    | none => (.inr (rAccess, a), s)
    | some s =>
      match status with
      | .ok => (.inl (padTo 0 r.sqSize entry), s)
      | .data => (.inr (rPoison, 0), s)
      | _ => (.inr (rAccess, a), s)

/-- COMMAND_TAKE: the host mailbox's packet first, then the next pair's entry. An entry that cannot be read has TAG
0xFFFF and a free opcode. -/
def takeCmd (s : State) (entry : List Byte) (status : Status) : State :=
  let blank : Cmd := { id := s.nextId, ring := none, pos := 0, tag := 0xFFFF, opcode := 0, version := 2, quiet := false,
                       seq := false, params := [] }
  if !s.cpUp ∨ 256 ≤ s.cp.cmds.length then s
  else match s.host.mailIn with
    | some b =>
      let s := { s with host := { s.host with mailIn := s.host.mailQueue.head?, mailQueue := s.host.mailQueue.tail } }
      let (c, r) := checkPacket blank b
      acceptCmd s c r
    | none =>
      match nextPair s with
      | none => s
      | some p =>
        let r := s.ring p
        let a := r.subBase.toNat + r.sqSize * (r.sqHead.toNat % 2 ^ r.sqLog2)
        let s := s.modRing p (fun r => { r with sqHead := r.sqHead + 1, reserved := r.reserved + 1 })
        let s := { s with cp := { s.cp with lastPair := p } }
        let blank := { blank with ring := some (Fin.ofNat 64 p), pos := (r.sqHead + 1).toNat, version := r.version, base := r.coreBase }
        match entryRead s r a entry status with
        | (.inl b, s) =>
          let (c, ref) := checkPacket blank b
          acceptCmd s c ref
        | (.inr (why, i), s) =>
          let (w, s) := drawFree s
          cmdReply s { blank with opcode := w.toNat % 65536 } cRefused (BitVec.ofNat 64 why) (BitVec.ofNat 64 i)

def execCommandTake (entry : List Byte) (status : Status) (s : State) : O := .next (takeCmd s entry status)

end Sys2Proof.Machine
end

