-- ==== Sys2Proof/Machine/Commands.lean ====
section
/-! DEFINITION. Commands of R453 over memory, registers, rings, maps, sweeps and streams, and their Perica forms (R459). -/

namespace Sys2Proof.Machine

/-! ## The frame of a command row -/

/-- Commands of a pair start in submission order; SEQ waits for every earlier reply of its pair (R450). Those of a pair that
has been deleted are not the present pair's (R453). -/
def mayStart (s : State) (c : Cmd) : Bool :=
  s.cp.cmds.all (fun k => !(decide (k.id < c.id) && decide (k.ring = c.ring) && decide (k.gone = c.gone) && c.ring.isSome)
    || (k.started && !c.seq))

/-- The opcode that a command is performed as. -/
def Cmd.op (c : Cmd) : Nat := if c.version = 1 then (pericaOp c.opcode).getD 0xFFFF else c.opcode

def Cmd.p (c : Cmd) (i : Nat) : Word := lget 0 c.params i
def Cmd.n (c : Cmd) (i : Nat) : Nat := (c.p i).toNat

/-- The resource that a command holds (R451, R453). A core held by CORE_INIT is the unit that FENCE holds. -/
def Cmd.holds (c : Cmd) : Option (Nat × Nat) :=
  match c.op with
  | 0x01 | 0x02 => some (0, c.n 0 % 64)
  | 0x13 => some (1, c.n 0 % 512)
  | 0x50 | 0x51 | 0x52 => some (1, c.n 0)
  | 0x30 | 0x31 => some (2, 0)
  | 0x32 => some (3, 0)
  | 0x40 | 0x41 => some (4, 0)
  | 0x60 | 0x61 => some (5, 0)
  | _ => none

/-- An earlier command in progress holds the resource. -/
def heldByOther (s : State) (c : Cmd) : Bool :=
  c.holds.isSome && s.cp.cmds.any (fun k => decide (k.id < c.id) && decide (k.holds = c.holds))

/-- Commands that R482 refuses while the state is not ACTIVE. -/
def needsActive (op : Nat) : Bool := [0x10, 0x11, 0x12, 0x13, 0x20, 0x21, 0x30, 0x33, 0x52].contains op

/-- End a command. -/
def done (c : Cmd) (st : Nat) (r0 r1 : Word) : M Unit := modify (fun s => finishCmd s c.id st r0 r1)
def ok0 (c : Cmd) : M Unit := done c cOk 0 0
def okWith (c : Cmd) (r0 : Nat) : M Unit := done c cOk (BitVec.ofNat 64 r0) 0
def refuse (c : Cmd) (why i : Nat) : M Unit := done c cRefused (BitVec.ofNat 64 why) (BitVec.ofNat 64 i)

/-- A TIMEOUT of so many µs since the command's start has passed; 0 means none (R453, R454; log 91). -/
def expired (s : State) (c : Cmd) (us : Nat) : Bool := decide (us ≠ 0) && decide (c.since + 1000 * us ≤ s.mgmt.time)

/-- A command's row: nothing happens when it is not that command's turn; BUSY and the power state are judged at its
start. -/
def cmdRow (op : Nat) (perica : Bool) (id : Nat) (body : Cmd → M Unit) (s : State) : O :=
  match s.cmd id with
  | none => .next s
  | some c =>
    if !s.cpUp || decide (c.op ≠ op) || decide ((c.version = 1) ≠ (perica = true)) || c.started || !mayStart s c then .next s
    else runCmd (do
      modify (fun s => s.modCmd id (fun c => { c with started := true, since := s.mgmt.time }))
      if heldByOther s c then done c cBusy 0 0
      else if needsActive op && decide (s.pwr.state ≠ 0) then refuse c rState 0
      else body c) s

/-! ## Rings -/

def nopBody (c : Cmd) : M Unit := do
  let s ← get
  okWith c (fwVersion s.mgmt)

/-- NOP. -/
def execNop (id : Nat) (s : State) : O := cmdRow 0x00 false id nopBody s
/-- PERICA_NOP. -/
def execPericaNop (id : Nat) (s : State) : O := cmdRow 0x00 true id nopBody s

/-- A ring's base: ring memory or the host, aligned to its entries, within bounds. -/
def ringBaseOk (n entry log2 : Nat) : Bool :=
  decide (cSpace n ≠ 0) && decide (cAddr n % entry = 0) && cmdExtentOk n (entry * 2 ^ log2)

/-- RING_CREATE. -/
def execRingCreate (id : Nat) (s : State) : O :=
  cmdRow 0x01 false id (fun c => do
    let s ← get
    let p0 := c.n 0
    let ver := bitsOf p0 9 8
    let base := bitsOf p0 40 32
    let (sl, cl) := (bitsOf (c.n 3) 3 0, bitsOf (c.n 3) 7 4)
    let r : RingSt := { exist := true, version := BitVec.ofNat 2 ver, notice := bitOf p0 16, vec := BitVec.ofNat 6 (bitsOf p0 29 24),
                        coreBase := base, subBase := c.p 1, cplBase := c.p 2, sqLog2 := sl, cqLog2 := cl }
    if (ver ≠ 1 ∧ ver ≠ 2) ∨ (ver = 1 ∧ (bitOf p0 16 ∨ base % 8 ≠ 0 ∨ 496 < base)) ∨ (ver = 2 ∧ base ≠ 0) then refuse c rRange 0
    else if (s.ring (p0 % 64)).exist then refuse c rState 0
    else if sl < 4 ∨ 12 < sl ∨ cl < 4 ∨ 12 < cl then refuse c rRange 3
    else if !ringBaseOk (c.n 1) r.sqSize sl then refuse c rRange 1
    else if !ringBaseOk (c.n 2) r.cqSize cl then refuse c rRange 2
    else do
      modify (fun s => s.modRing (p0 % 64) (fun _ => r))
      ok0 c) s

/-- RING_DELETE: the reply comes first; commands of the pair run on without replies. -/
def execRingDelete (id : Nat) (s : State) : O :=
  cmdRow 0x02 false id (fun c => do
    let s ← get
    let p := c.n 0 % 64
    if !(s.ring p).exist then refuse c rState 0
    else do
      ok0 c
      let gone := fun (k : Cmd) => if k.ring.map (·.val) = some p then { k with gone := true } else k
      modify (fun s => { (s.modRing p (fun _ => {})) with cp := { (s.modRing p (fun _ => {})).cp with cmds := s.cp.cmds.map gone } })) s

/-! ## Copies -/

/-- Blocks in which an address is copied: sectors of HBM, registers one by one (R519), rows elsewhere. -/
def copyGrain (n : Nat) : Nat :=
  if cSpace n ≠ 0 then 512
  else
    let l := decodeLocal (cAddr n)
    match l with
    | .hbmI _ | .hbmS _ _ => 32
    | _ => if !l.isReg then 512 else if is64 l.align8 then 8 else 4

/-- Read a span block by block up to the first refusal: the bytes before it, and its status and address. -/
def readUpTo (n len : Nat) (ext : ExtAns) : Nat → Nat → M (List Byte × Option (Status × Nat))
  | 0, _ => pure ([], none)
  | f + 1, i => do
    if len ≤ i then pure ([], none)
    else do
      let a := n + i
      let k := min (len - i) (copyGrain a - cAddr a % copyGrain a)
      let (st, b) ← cpRead a k { ext with data := ext.data.drop i }
      if st ≠ .ok then pure ([], some (st, a))
      else do
        let (r, e) ← readUpTo n len ext f (i + k)
        pure (b ++ r, e)

/-- Copy in ascending order, at most to the distance of an overlapping destination at a time: bytes done and the first
refusal. -/
def copyGo (src dst len : Nat) (ext : ExtAns) : Nat → Nat → M (Nat × Option (Status × Nat))
  | 0, i => pure (i, none)
  | f + 1, i => do
    if len ≤ i then pure (len, none)
    else do
      let d := dst + i
      let k := min (len - i) (copyGrain d - cAddr d % copyGrain d)
      let k := if src < dst ∧ dst - src < k then dst - src else k
      let (b, e) ← readUpTo (src + i) k { ext with data := ext.data.drop i } k 0
      let st ← if b.isEmpty then pure .ok else cpWrite d b ext
      if st ≠ .ok then pure (i, some (st, d))
      else match e with
        | some (st, a) => pure (i + b.length, some (st, a))
        | none => copyGo src dst len ext f (i + k)

/-- How a failed access ends a command: REFUSED ACCESS before any effect, else FAULTED with ACCESS or DATA and the
bytes done; the unit is free (R446, R448). -/
def accessEnd (c : Cmd) (before : Bool) (doneBytes : Nat) (st : Status) (addr : Nat) : M Unit := do
  if before then refuse c rAccess addr
  else do
    let s ← get
    let (w, s) := drawFree s
    set s
    done c cFaulted (someUnit w) (BitVec.ofNat 64 ((if st = .data then 7 else 6) + doneBytes % 2 ^ 32 * 2 ^ 32))

/-- The checks of MEM_COPY: the parameter at fault. -/
def copyBad (c : Cmd) : Option Nat :=
  let (a, b, n) := (c.n 0, c.n 1, c.n 2)
  if n = 0 ∨ 2 ^ 40 < n then some 2
  else if cSpace a = 2 ∧ cSpace b = 2 then some 1
  else if !cmdExtentOk a n then some 0
  else if !cmdExtentOk b n then some 1
  else none

/-- What the scratchpads, slices and skiver buffers hold. -/
def heldBytes (s : State) : List Bytes :=
  s.cores.map (fun p => p.2.spad.mem.bytes) ++ s.slices.flatMap (fun p => [p.2.mem.bytes, p.2.skv.buf.bytes])

/-- No memory has changed: a write to several rows that one of them refuses has had its effect on the others (R446). -/
def untouched (before s : State) : Bool := decide (heldBytes before = heldBytes s)

/-- Perform the copy of a command, then go on. -/
def copyThen (c : Cmd) (ext : ExtAns) (next : M Unit) : M Unit := do
  match copyBad c with
  | some i => refuse c rRange i
  | none => do
    let s ← get
    let (n, e) ← copyGo (c.n 0) (c.n 1) (c.n 2) ext (c.n 2) 0
    let s' ← get
    match e with
    | some (st, a) => accessEnd c (decide (n = 0) && untouched s s') n st a
    | none => next

def memCopyBody (ext : ExtAns) (c : Cmd) : M Unit := copyThen c ext (ok0 c)

/-- MEM_COPY. -/
def execMemCopy (id : Nat) (ext : ExtAns) (s : State) : O := cmdRow 0x10 false id (memCopyBody ext) s
/-- PERICA_MEM_COPY. -/
def execPericaMemCopy (id : Nat) (ext : ExtAns) (s : State) : O := cmdRow 0x10 true id (memCopyBody ext) s

/-! ## Core ranges -/

/-- FIRST and COUNT of a core range; a Perica pair's lies in its sixteen cores from CORE_BASE on (R459). -/
def coreRange (c : Cmd) (i : Nat) : Option (Nat × Nat) :=
  let (f, n) := (bitsOf (c.n i) 8 0, bitsOf (c.n i) 25 16)
  let top := if c.version = 1 then 16 else 512
  if n = 0 ∨ top < f + n then none else some (c.base + f, n)

/-- Act on every unfenced core of a range; the number of fenced ones. -/
def onCores (r : Nat × Nat) (f : CoreSt → CoreSt) (s : State) : Nat × State :=
  (countFrom r.1 r.2).foldl (fun (p : Nat × State) k =>
    if p.2.coreFenced k then (p.1 + 1, p.2) else (p.1, p.2.modCore k f)) (0, s)

def onCoresM (c : Cmd) (r : Nat × Nat) (f : CoreSt → CoreSt) : M Unit := do
  let s ← get
  let (n, s) := onCores r f s
  set s
  okWith c n

def loadProgramBody (ext : ExtAns) (c : Cmd) : M Unit :=
  match coreRange c 3 with
  | none => refuse c rRange 3
  | some r =>
    if cSpace (c.n 1) ≠ 0 then refuse c rRange 1
    else copyThen c ext (onCoresM c r (fun x => { x with icache := [], icStruck := [], segs := [] }))

/-- LOAD_PROGRAM. -/
def execLoadProgram (id : Nat) (ext : ExtAns) (s : State) : O := cmdRow 0x11 false id (loadProgramBody ext) s
/-- PERICA_LOAD_PROGRAM. -/
def execPericaLoadProgram (id : Nat) (ext : ExtAns) (s : State) : O := cmdRow 0x11 true id (loadProgramBody ext) s

/-- The answer of the host at a table in its aperture is free: the row carries none. -/
def mapSegmentBody (c : Cmd) : M Unit := do
  let a := c.n 0 + 16 * c.n 1
  let b := leBytes 8 (c.n 2) ++ leBytes 8 (c.n 3)
  if cSpace (c.n 0) ≠ 0 ∨ c.n 0 % 16 ≠ 0 then refuse c rRange 0
  else match coreRange c 4 with
    | none => refuse c rRange 4
    | some r => do
      let s ← get
      let (e, s) := if toWorld a then freeExt 0 s else (⟨.ok, []⟩, s)
      set s
      let x ← cpReq e (.write a b (allOn b))
      if x.status ≠ .ok then refuse c rAccess a
      else onCoresM c r (fun x => { x with segs := x.segs.filter (fun e => decide (e.sel ≠ c.n 1)) })

/-- MAP_SEGMENT. -/
def execMapSegment (id : Nat) (s : State) : O := cmdRow 0x12 false id mapSegmentBody s
/-- PERICA_MAP_SEGMENT. -/
def execPericaMapSegment (id : Nat) (s : State) : O := cmdRow 0x12 true id mapSegmentBody s

/-- A core reset, the five registers, and thread 0's START. -/
def initCore (c : Cmd) (k : Nat) (s : State) : State :=
  (s.resetCoreAt k).modCore k (fun x =>
    { x.modT 0 (fun t => { t with entry := c.p 1 &&& codeMask, ssegt := c.p 2, sdsp := c.p 3 &&& vecMask, srtp := c.p 4 &&& vecMask })
      with emstk := c.p 5 &&& vecMask, fenced := false, hardFence := false })

/-- CORE_INIT. -/
def execCoreInit (id : Nat) (s : State) : O :=
  cmdRow 0x13 false id (fun c => do
    let s ← get
    let k := c.n 0
    if !s.coreFenced k && !(countFrom 0 8).all (fun n => decide (((s.core k).t n).st = .stopped)) then refuse c rState 0
    else do
      modify (initCore c k)
      thrCommand ⟨Fin.ofNat 512 k, 0⟩ .start
      ok0 c) s

/-! ## Registers -/

/-- An address that REG_READ takes: a core's register block or the region of clusters, slices and the device. -/
def regAddrOk (a size : Nat) : Bool :=
  decide (cSpace a = 0) && decide (a % size = 0)
  && (match decodeLocal a with
      | .coreReg _ _ => true
      | _ => decide (0x030000000000 ≤ a) && decide (a < 0x030010000000))

/-- Registers that REG_WRITE leaves alone. -/
def regExcluded (a : Nat) : Bool :=
  match decodeLocal a with
  | .cluster _ o => decide (0x400 ≤ o) && decide (o < 0x440)
  | .sliceReg _ o => decide (0x100 ≤ o) && decide (o < 0x108)
  | .device o => (decide (0x200 ≤ o) && decide (o < 0x210)) || (decide (0x700 ≤ o) && decide (o < 0x800))
      || (decide (0x2100 ≤ o) && decide (o < 0x21C8)) || (decide (0x2200 ≤ o) && decide (o < 0x22C8))
  | _ => false

def regSize (c : Cmd) : Nat := if bitOf (c.n 2) 0 then 8 else 4

/-- REG_WRITE: the value read back is the result; free where the read is refused. -/
def execRegWrite (id : Nat) (s : State) : O :=
  cmdRow 0x14 false id (fun c => do
    let a := c.n 0
    let b := leBytes (regSize c) (c.n 1)
    if !regAddrOk a (regSize c) ∨ regExcluded a ∨ (regSize c = 8 ∧ regExcluded (a + 4)) then refuse c rRange 0
    else do
      let x ← cpReq ⟨.ok, []⟩ (.write a b (allOn b))
      if x.status ≠ .ok then refuse c rAccess a
      else do
        let r ← cpReq ⟨.ok, []⟩ (.read a (regSize c))
        let s ← get
        let (w, s') := drawFree s
        if r.status = .ok then okWith c (leNat r.data)
        else do
          set s'
          done c cOk w 0) s

/-- REG_READ. -/
def execRegRead (id : Nat) (s : State) : O :=
  cmdRow 0x15 false id (fun c => do
    let a := c.n 0
    if !regAddrOk a (regSize c) then refuse c rRange 0
    else do
      let r ← cpReq ⟨.ok, []⟩ (.read a (regSize c))
      if r.status ≠ .ok then refuse c rAccess a else okWith c (leNat r.data)) s

/-! ## Maps -/

def popCount (n bits : Nat) : Nat := (countFrom 0 bits).foldl (fun v i => v + b2n (bitOf n i)) 0

/-- The check of R326; the map as words 0 to 2 and N. -/
def sliceMapOk (v n : Nat) : Bool := decide (v < 2 ^ 80) && decide (popCount v 80 = n)

/-- SLICE_MAP_SET. -/
def execSliceMapSet (id : Nat) (s : State) : O :=
  cmdRow 0x31 false id (fun c => do
    let v := c.n 0 + c.n 1 * 2 ^ 32 + c.n 2 * 2 ^ 64
    if !sliceMapOk v (c.n 3) then refuse c rRange 3
    else do
      modify (fun s => { s with smap := { bits := BitVec.ofNat 80 v, n := c.n 3 } })
      ok0 c) s

/-- What R419 refuses: an entry for the device's own column or row, a link that another entry names. -/
def routeBad (s : State) (col : Bool) (i links : Nat) : Option Nat :=
  let me := s.lat.id.toNat
  let b : BitVec 48 := BitVec.ofNat 48 links
  let meets := fun (isCol : Bool) (k : Nat) (e : BitVec 48) => decide ((isCol, k) ≠ (col, i)) && decide (e &&& b ≠ 0)
  if 24 < i ∨ i = (if col then me / 32 else me % 32) then some 0
  else if (countFrom 0 25).any (fun k =>
      meets false k (tget linkRowDef s.lat.rows k) || meets true k (tget linkRowDef s.lat.cols k)) then some 1
  else none

def setRoute (s : State) (col : Bool) (i links : Nat) : State :=
  let b : BitVec 48 := BitVec.ofNat 48 links
  if col then { s with lat := { s.lat with cols := tset linkRowDef s.lat.cols i b } }.relink
  else { s with lat := { s.lat with rows := tset linkRowDef s.lat.rows i b } }.relink

/-- LAT_ROUTE_SET. -/
def execLatRouteSet (id : Nat) (s : State) : O :=
  cmdRow 0x32 false id (fun c => do
    let s ← get
    let (col, i) := (bitOf (c.n 0) 8, bitsOf (c.n 0) 4 0)
    match routeBad s col i (c.n 1) with
    | some k => refuse c rRange k
    | none => do
      set (setRoute s col i (c.n 1))
      ok0 c) s

/-! ## Placement (R456) -/

/-- Where row i goes: slice and offset. -/
def placeRow (m : SliceMap) (mode : Bool) (rows i dofs pitch : Nat) : Nat × Nat :=
  let n := m.n
  let a := activeSlices m
  if !mode then (lget 0 a (i % n), dofs + i / n * pitch)
  else
    let (q, r) := (rows / n, rows % n)
    let j := if i < r * (q + 1) then i / (q + 1) else r + (i - r * (q + 1)) / max 1 q
    (lget 0 a j, dofs + (i - (j * q + min j r)) * pitch)

/-- Rows of a slice at most. -/
def placeMax (rows n : Nat) : Nat := (rows + n - 1) / n

/-- Where a source row starts; a local one does not leave the local addresses: past their end there is nothing (R523). -/
def rowStart (src d : Nat) : Nat := if cSpace src = 0 ∧ 2 ^ 48 ≤ src + d then 2 ^ 48 else src + d

def placeGo (c : Cmd) (m : SliceMap) (rows bytes : Nat) (ext : ExtAns) : Nat → Nat → M Unit
  | 0, _ => ok0 c
  | f + 1, i => do
    let sp := c.n 2
    let (k, o) := placeRow m (bitOf (c.n 1) 40) rows i (bitsOf (c.n 1) 33 0) (c.n 3)
    let dst := 0x010000000000 + k * 2 ^ 34 + o
    let (n, e) ← copyGo (rowStart (c.n 0) (i * sp)) dst bytes { ext with data := ext.data.drop (i * sp) } bytes 0
    match e with
    | some (st, a) =>
      let atDst := decide (cSpace a = 0) && decide (dst ≤ a) && decide (a < dst + bytes)
      accessEnd c (!atDst && decide (i = 0) && decide (n = 0)) (i * bytes + n) st (if atDst then a else c.n 0 + i * sp + n)
    | none => placeGo c m rows bytes ext f (i + 1)

/-- SKV_PLACE: it ends at the first row that fails. -/
def execSkvPlace (id : Nat) (ext : ExtAns) (s : State) : O :=
  cmdRow 0x30 false id (fun c => do
    let s ← get
    let (sp, dp, rows, rb) := (c.n 2, c.n 3, c.n 4, c.n 5)
    let top := bitsOf (c.n 1) 33 0 + (placeMax rows s.smap.n - 1) * dp + rb
    if s.smap.n = 0 then refuse c rState 0
    else if rb = 0 ∨ 2 ^ 20 < rb then refuse c rRange 5
    else if sp < rb then refuse c rRange 2
    else if dp < rb ∨ (rows ≠ 0 ∧ 0x300000000 < top) then refuse c rRange 3
    else if rows ≠ 0 ∧ !cmdExtentOk (c.n 0) ((rows - 1) * sp + rb) then refuse c rRange 0
    else placeGo c s.smap rows rb ext rows 0) s

/-! ## Sweeps -/

def sweepUnits (c : Cmd) : List Nat := countFrom (bitsOf (c.n 0) 25 16) (bitsOf (c.n 0) 41 32)

/-- SWEEPING of a unit (R157, R320). -/
def sweeping (s : State) (slices : Bool) (k : Nat) : Bool :=
  if slices then decide ((s.slice k).sweepLeft ≠ 0) else !(s.core k).spad.sweep.isEmpty

/-- SWEEP: its first run requests the sweeps; it replies at a run that finds them all done. -/
def execSweep (id : Nat) (s : State) : O :=
  match s.cmd id with
  | some c =>
    let slices := bitOf (c.n 0) 0
    if c.started then
      if c.op = 0x33 ∧ c.version = 2 ∧ s.cpUp ∧ !(sweepUnits c).any (sweeping s slices) then
        .next (finishCmd s id cOk (BitVec.ofNat 64 c.progress) 0)
      else .next s
    else
      cmdRow 0x33 false id (fun c => do
        let s ← get
        let l := sweepUnits c
        let fenced := fun (k : Nat) => if slices then s.sliceFenced k else s.coreFenced k
        if l.isEmpty ∨ l.any (fun k => decide ((if slices then 80 else 512) ≤ k)) then refuse c rRange 0
        else do
          let s := (l.filter (fun k => !fenced k)).foldl (fun s k =>
            if slices then s.modSlice k sliceSweep else s.modCore k spadSweep) s
          set (s.modCmd id (fun c => { c with progress := (l.filter fenced).length }))) s
  | none => .next s

/-! ## Streams (R458) -/

/-- A declaration's entries. -/
def declOf (b : List Byte) : List DeclEnt :=
  (chunksOf 16 64 b).map (fun e => ⟨BitVec.ofNat 64 (leNat (e.take 8)), BitVec.ofNat 64 (leNat (e.drop 8))⟩)

/-- Fields in their ranges, and nothing outside them (R13, R458); a backlog goes with SKV only. -/
def DeclEnt.ok (e : DeclEnt) (me : Nat) : Bool :=
  decide (maskClear e.w0.toNat 0x03FF01FF03FF03FF = 0) && decide (e.w1.toNat < 2 ^ 48) && (e.skv || decide (e.backlog = 0))
  && (decide (e.src < 592) || decide (e.src = portCp)) && decide (e.dst < 597) && inRange 1 9 e.rqf && inRange 0 9 e.rsf
  && (isDevice e.ddev || decide (e.ddev = me)) && (!e.skv || (isSlicePort e.dst && decide (e.backlog ≤ 820)))

/-- ADMIT_STREAM. -/
def execAdmitStream (id : Nat) (ext : ExtAns) (s : State) : O :=
  cmdRow 0x40 false id (fun c => do
    let n := c.n 1
    if n = 0 ∨ 64 < n then refuse c rRange 1
    else if !cmdExtentOk (c.n 0) (16 * n) then refuse c rRange 0
    else do
      let (b, e) ← readUpTo (c.n 0) (16 * n) ext (16 * n) 0
      match e with
      | some (_, a) => refuse c rAccess a
      | none => do
        let s ← get
        let l := declOf b
        let h := heldBy s (s.cp.streams.filter (fun x => !x.revoked))
        match l.findIdx? (fun e => !e.ok s.lat.id.toNat), (countFrom 0 64).find? (fun k => s.cp.streams.all (fun x => decide (x.num ≠ k))) with
        | some i, _ => refuse c rRange i
        | none, none => refuse c rsnCapacity 0
        | none, some k =>
          match fitGo s h l 0 h.charges with
          | some (why, i) => refuse c why i
          | none => do
            let q := s.cp.nextSeq
            let x : Stream := { num := k, seq := q, time := s.mgmt.time, ents := l }
            set (openBuckets { s with cp := { s.cp with streams := s.cp.streams ++ [x], nextSeq := q + 1 } } l)
            done c cOk (BitVec.ofNat 64 k) (BitVec.ofNat 64 q)) s

/-- RELEASE_STREAM: a revoked stream has no buckets any more. -/
def execReleaseStream (id : Nat) (s : State) : O :=
  cmdRow 0x41 false id (fun c => do
    let s ← get
    match s.cp.streams.find? (fun x => decide (x.num = c.n 0)) with
    | none => refuse c rState 0
    | some x => do
      let s := if x.revoked then s else closeBuckets s x.ents (fun _ => {})
      set { s with cp := { s.cp with streams := s.cp.streams.filter (fun y => decide (y.num ≠ x.num)) } }
      ok0 c) s

end Sys2Proof.Machine
end

