-- ==== Sys2Proof/Machine/Launch.lean ====
section
/-! DEFINITION. Launches (R454, R455, R457, R459, R271), and the injection port's queue (R21). -/

namespace Sys2Proof.Machine

/-- Handle data that a launch accepts: TYPE 0x01, no REM, no CP, the layout of R254. -/
def launchHandleOk (w : Word) : Bool :=
  decide (w.toNat / 2 ^ 56 = 1) && queueHandleOk w.toNat && !bitOf w.toNat 55 && !bitOf w.toNat 35

/-- The payload of a strand batch (R271). -/
def batchBytes (count first : Nat) (grid : Half) (w2 w3 : Word) : List Byte :=
  leBytes 8 (count * 2 ^ 32 + first) ++ leBytes 8 grid.toNat ++ leBytes 8 w2.toNat ++ leBytes 8 w3.toNat

/-- Batch j: target core and queue, and payload. -/
def Launch.batch (l : Launch) (j : Nat) : Nat × Nat × List Byte :=
  match l.src with
  | .grid core q batch strands ntgt w2 w3 =>
    (core + j % ntgt, q, batchBytes (min batch (strands - j * batch)) (j * batch) l.grid w2 w3)
  | .steps ents w2 =>
    let e := lget (0, 0) ents j
    (bitsOf e.1.toNat 44 36, bitsOf e.1.toNat 20 16, batchBytes 1 j l.grid w2 e.2)

/-- The next batch of a launch sets out when none is in flight and the port has room, one answered FULL again under its
own message (R262, R454): with the target's current epoch and a free header word, which the spec does not give. -/
def launchSend (s : State) (id : Nat) : State :=
  match (s.cmd id).bind (·.launch) with
  | some l =>
    match l.msg.bind s.msg with
    | some m => if m.parked then (resendMsg s m).getD s else s
    | none =>
    if l.total ≤ l.sent then s
    else
      let (core, q, b) := l.batch l.sent
      let (w, s1) := drawFree s
      let m : Msg := { id := 0, sender := .cp s.lat.id.toNat, target := .queue none core q (s.core core).epoch, hdr := w,
                       payload := b, cls := l.cls, form := .other, owner := id }
      match sendMsg s1 m with
      | none => s
      | some s2 => s2.modCmd id (fun c => { c with launch := some { l with msg := some s1.nextId } })
  | none => s

/-- A launch has a message that has not set out. -/
def launchWaits (s : State) (id : Nat) : Bool :=
  match (s.cmd id).bind (·.launch) with
  | some l =>
    match l.msg.bind s.msg with
    | some m => m.parked
    | none => decide (l.sent < l.total)
  | none => false

/-- Launches send in the order of their starts; none overtakes one that finds no room at the port (R22, R450). -/
def launchPumpGo : List Nat → State → State
  | [], s => s
  | id :: ids, s =>
    let s' := launchSend s id
    if launchWaits s' id then s' else launchPumpGo ids s'

/-- Put a launch before those that started later. -/
def insertLaunch (x : Nat × Nat) : List (Nat × Nat) → List (Nat × Nat)
  | [] => [x]
  | y :: ys => if x.1 ≤ y.1 then x :: y :: ys else y :: insertLaunch x ys

/-- The launches in progress in the order in which they started (R450). -/
def launchOrder (s : State) : List Nat :=
  ((s.cp.cmds.filterMap (fun c => c.launch.map (fun l => (l.order, c.id)))).foldr insertLaunch []).map (·.2)

def launchPump (s : State) : State := launchPumpGo (launchOrder s) s

/-- A launch ends well at its last completion message; one that waits for none, when its last batch is accepted. -/
def launchCheck (s : State) (id : Nat) : State :=
  match (s.cmd id).bind (·.launch) with
  | some l =>
    if (if l.ndone = 0 then l.total ≤ l.sent else l.ndone ≤ l.got) then finishCmd s id cOk (BitVec.ofNat 64 l.ndone) l.last else s
  | none => s

/-- A launch in progress that waits for completion messages of this GRID. -/
def gridBusy (s : State) (grid : Half) : Bool :=
  s.cp.cmds.any (fun c => match c.launch with | some l => decide (l.grid = grid) && decide (0 < l.ndone) | none => false)

/-- A launch starts. -/
def launchGo (c : Cmd) (l : Launch) : M Unit := do
  let s ← get
  if gridBusy s l.grid then refuse c rState 1
  else
    let s := { s with nextId := s.nextId + 1 }
    set (launchPump (s.modCmd c.id (fun c => { c with launch := some { l with order := s.nextId } })))

/-- NTGT, NDONE, TIMEOUT and CLASS of a command: fixed for a Perica packet (R459). -/
def Cmd.ntgt (c : Cmd) : Nat := if c.version = 1 then 1 else bitsOf (c.n 5) 9 0
def Cmd.ndone (c : Cmd) : Nat := if c.version = 1 then 1 else bitsOf (c.n 5) 47 32
def Cmd.timeout (c : Cmd) : Nat := if c.version = 1 then 0 else bitsOf (c.n 6) 31 0
def Cmd.cls (c : Cmd) : BitVec 2 := if c.version = 1 then 1 else BitVec.ofNat 2 (bitsOf (c.n 6) 33 32)

def launchGridBody (c : Cmd) : M Unit :=
  let h := c.p 0
  let core := bitsOf h.toNat 44 36
  let (batch, strands) := (bitsOf (c.n 1) 63 32, c.n 2)
  if !launchHandleOk h ∨ (c.version = 1 ∧ 15 < core) then refuse c rRange 0
  else if batch = 0 then refuse c rRange 1
  else if strands = 0 ∨ 2 ^ 32 < strands then refuse c rRange 2
  else if c.ntgt = 0 ∨ 512 < core + c.ntgt then refuse c rRange 5
  else
    let src : LaunchSrc := .grid (c.base + core) (bitsOf h.toNat 20 16) batch strands c.ntgt (c.p 3) (c.p 4)
    launchGo c { grid := (c.p 1).truncate 32, src := src, ndone := c.ndone, total := (strands + batch - 1) / batch, cls := c.cls }

/-- LAUNCH_GRID. -/
def execLaunchGrid (id : Nat) (s : State) : O := cmdRow 0x20 false id launchGridBody s
/-- PERICA_LAUNCH_GRID. -/
def execPericaLaunchGrid (id : Nat) (s : State) : O := cmdRow 0x20 true id launchGridBody s

/-- LAUNCH_STEP: the table is read and checked before any send. -/
def execLaunchStep (id : Nat) (ext : ExtAns) (s : State) : O :=
  cmdRow 0x21 false id (fun c => do
    let n := c.n 2
    if n = 0 ∨ 4096 < n then refuse c rRange 2
    else if !cmdExtentOk (c.n 0) (16 * n) then refuse c rRange 0
    else do
      let (b, e) ← readUpTo (c.n 0) (16 * n) ext (16 * n) 0
      match e with
      | some (_, a) => refuse c rAccess a
      | none =>
        let ents := (chunksOf 16 n b).map (fun e => (BitVec.ofNat 64 (leNat (e.take 8)), BitVec.ofNat 64 (leNat (e.drop 8))))
        match ents.findIdx? (fun e => !launchHandleOk e.1) with
        | some i => refuse c rRange i
        | none => launchGo c { grid := (c.p 1).truncate 32, src := .steps ents (c.p 3), ndone := c.ndone, total := n, cls := c.cls }) s

/-- The status of a batch: OK goes on to the next, FULL tries again, a refusal ends the launch (R454). -/
def batchStatus (s : State) (m : Msg) (st : Nat) : State :=
  let s := fabFree s portCp m.slot
  match (s.cmd m.owner).bind (·.launch) with
  | none => s.dropMsg m.id
  | some l =>
    if l.msg ≠ some m.id then s.dropMsg m.id
    else if st = stFull then launchPump (s.park m.id)
    else
      let s := s.dropMsg m.id
      let put := fun (s : State) (l : Launch) => s.modCmd m.owner (fun c => { c with launch := some l })
      if st = stOk then launchCheck (launchPump (put s { l with msg := none, sent := l.sent + 1 })) m.owner
      else finishCmd s m.owner cFaulted (unitWord 0 (l.batch l.sent).1) (BitVec.ofNat 64 (8 + st * 256 + l.sent % 2 ^ 32 * 2 ^ 32))

/-- LAUNCH_BATCH_STATUS: the message's status, and whatever launches wait for room at the port. -/
def execLaunchBatchStatus (id : Nat) (s : State) : O :=
  if !s.cpUp then .next s
  else match s.msg id with
    | some m =>
      match m.sender, m.status, m.parked with
      | .cp _, some st, false => .next (launchPump (batchStatus s m st))
      | _, _, _ => .next (launchPump s)
    | none => .next (launchPump s)

/-- LAUNCH_COMPLETION_MESSAGE: the oldest message of the injection-port queue, and the notices that stand behind it. -/
def execLaunchCompletionMessage (s : State) : O :=
  if !s.cpUp then .next s
  else match s.cp.inj with
    | [] => .next s
    | .notice _ :: _ => .next s.portIntake
    | .message _ hdr _ :: rest =>
      let s := ({ s with cp := { s.cp with inj := rest } } : State).portIntake
      let grid : Half := hdr.truncate 32
      let mine := fun (c : Cmd) => match c.launch with | some l => decide (l.grid = grid) && decide (0 < l.ndone) | none => false
      match s.cp.cmds.find? mine with
      | none => .next { s with cp := { s.cp with orphan := s.cp.orphan + 1 } }
      | some c =>
        let count := fun (l : Launch) => { l with got := l.got + 1, last := BitVec.ofNat 64 (bitsOf hdr.toNat 63 32) }
        .next (launchCheck (s.modCmd c.id (fun c => { c with launch := c.launch.map count })) c.id)

/-- A launch ends early: nothing more is sent, and a message that waits for another attempt is given up (R454). -/
def launchDrop (s : State) (l : Launch) : State :=
  match l.msg.bind s.msg with
  | some m => if m.unsent s then discardMsgs s (fun k => decide (k.id = m.id)) else s
  | none => s

/-- LAUNCH_TIMEOUT: the reply holds the count so far; nothing more is sent. -/
def execLaunchTimeout (id : Nat) (s : State) : O :=
  match s.cmd id with
  | some c =>
    match c.launch with
    | some l =>
      .next (if s.cpUp && expired s c c.timeout && decide (l.ndone ≠ 0) then
        finishCmd (launchDrop s l) id cTimeout (BitVec.ofNat 64 l.got) 0 else s)
    | none => .next s
  | none => .next s

/-- INJECTION_PORT_MESSAGE: a message reaches the injection port, here or on a peer device (R21, R260). -/
def execInjectionPortMessage (id : Nat) (s : State) : O :=
  .next (reachInjection id s)

end Sys2Proof.Machine
end

