-- ==== Sys2Proof/Machine/HostIf.lean ====
section
/-! DEFINITION. The host interface (R420 to R437): BAR0 and its registers, CXL.mem with the host-line directory, BAR2,
the aperture, the device mailbox, configuration space, interrupts, IDE. -/

namespace Sys2Proof.Machine

/-- The port takes the host's CXL.io memory requests (R436, R510); in D3hot a function takes none (R420; log 7). -/
def ioOpen (s : State) : Bool := ioStream s && !s.host.d3hot

/-! ## The host mailbox (R427) -/

/-- A packet for the inbound slot: a sender that finds it full waits, in order (R26); in recovery it is ignored (R500). -/
def mailSend (s : State) (b : List Byte) : State :=
  if s.mgmt.recovery then s
  else if s.host.mailIn.isSome then { s with host := { s.host with mailQueue := s.host.mailQueue ++ [b] } }
  else { s with host := { s.host with mailIn := some b } }

/-- HOST_MAILBOX_PACKET. -/
def execHostMailboxPacket (bytes : List Byte) (s : State) : O :=
  .next (if ioOpen s then mailSend s (padTo 0 64 bytes) else s)

/-- The host has read the outbound slot: its flag falls, and a reply that waits takes its place. -/
def mailTaken (s : State) : State :=
  match s.host.mailOut, s.host.mailWait with
  | none, _ => s
  | some _, [] => { s with host := { s.host with mailOut := none } }
  | some _, b :: rest => { s with host := { s.host with mailOut := some b, mailWait := rest } }.out (.mailbox b)

/-- HOST_MAILBOX_REPLY_TAKEN (R427). -/
def execHostMailboxReplyTaken (s : State) : O := .next (mailTaken s)

/-- A word of the host mailbox's page: the inbound slot, or the flags, where bit 0 sends the packet in the slot and bit 1 says
that the outbound slot has been read (log 7). -/
def mailWord (s : State) (o v : Nat) : State :=
  if o = Config.hostMailFull then
    let b := (countFrom 0 16).flatMap (fun i => leBytes 4 (tget halfDef s.host.mailBuf i).toNat)
    let s := if bitOf v 0 then mailSend s b else s
    if bitOf v 1 then mailTaken s else s
  else if inRange Config.hostMailIn (Config.hostMailIn + 255) o then
    { s with host := { s.host with mailBuf := tset halfDef s.host.mailBuf ((o - Config.hostMailIn) / 4) (BitVec.ofNat 32 v) } }
  else s

def mailVal (s : State) (o : Nat) : Nat :=
  if o = Config.hostMailFull then b2n s.host.mailIn.isSome + 2 * b2n s.host.mailOut.isSome
  else if inRange Config.hostMailOut (Config.hostMailOut + 255) o then leNat (padTo 0 4 ((s.host.mailOut.getD []).drop (o - Config.hostMailOut)))
  else 0

/-! ## HDM decoders (R429) -/

/-- Commit a decoder: interleave ways other than 1 set Commit Error. -/
def hdmCommit (s : State) (i : Nat) (base size skip : Word) (ways : Nat) : State :=
  let unit : Word := 0xFFFFFFFFF0000000
  let d : HdmDec := if ways = 1 then { base := base &&& unit, size := size &&& unit, skip := skip &&& unit, committed := true }
    else { (tget hdmDef s.host.hdm i) with committed := false, error := true }
  { s with host := { s.host with hdm := tset hdmDef s.host.hdm i d } }

/-- HDM_DECODER_COMMIT. -/
def execHdmDecoderCommit (i : Fin 2) (base size skip : Word) (ways : Nat) (s : State) : O := .next (hdmCommit s i.val base size skip ways)

/-- The decoders with the first device address of each (R429, R431): a decoder's range begins at its skip past the end of the
one before it; one that is not committed decodes nothing. -/
def hdmSpans : List HdmDec → Nat → List (HdmDec × Nat)
  | [], _ => []
  | d :: ds, first =>
    if d.committed then (d, first + d.skip.toNat) :: hdmSpans ds (first + d.skip.toNat + d.size.toNat) else hdmSpans ds first

def hdmTable (s : State) : List (HdmDec × Nat) := hdmSpans ((countFrom 0 2).map (tget hdmDef s.host.hdm)) 0

/-- The host's address as the `dpa` of MEMRD, MEMWR and MEMWRPTL; none where no decoder takes it (log 68). -/
def hdmDpa (s : State) (hpa : Nat) : Option Nat :=
  ((hdmTable s).find? (fun d => decide (d.1.base.toNat ≤ hpa) && decide (hpa < d.1.base.toNat + d.1.size.toNat))).map (fun d =>
    d.2 + (hpa - d.1.base.toNat))

/-- A committed decoder decodes to a device address. -/
def hdmHas (s : State) (dpa : Nat) : Bool := (hdmTable s).any (fun d => decide (d.2 ≤ dpa) && decide (dpa < d.2 + d.1.size.toNat))

/-! ## The device mailbox (R423) -/

/-- DPAs of a poisoned sector: of the slice view, and of the interleaved view when the map holds its slice. -/
def poisonDpas (s : State) (k sec : Nat) : List Nat :=
  let o := 32 * sec
  let n := s.smap.n
  let a := (activeSlices s.smap).findIdx? (fun j => decide (j = k))
  (2 ^ 40 + k * 2 ^ 34 + o) :: (match a with | some j => [(o / 4096 * n + j) * 4096 + o % 4096] | none => [])

/-- The poisoned addresses of a span. -/
def poisonList (s : State) (dpa len : Nat) : List Byte :=
  let l := (countFrom 0 80).flatMap (fun k => (s.slice k).mem.poison.flatMap (fun p => if p.2 then poisonDpas s k p.1 else []))
  (l.filter (fun a => decide (dpa ≤ a) && decide (a < dpa + len))).flatMap (leBytes 8)

/-- The records of an event log. -/
def eventBytes (s : State) (log : Byte) : List Byte :=
  log :: (s.host.events.filter (fun e => decide (e.2.1 = log.toNat))).flatMap (fun e => leBytes 2 e.1 ++ e.2.2)

/-- The records named leave their log. -/
def clearEvents (s : State) (log : Byte) (handles : List Nat) : State :=
  let keep := fun (e : Nat × Nat × List Byte) => !(decide (e.2.1 = log.toNat) && handles.contains e.1)
  { s with host := { s.host with events := s.host.events.filter keep } }

/-- What the standard answers a request of the device mailbox. -/
def mailAnswer (s : State) (kind : Nat) (b : List Byte) : O := .next (s.answer { status := .ok, data := Config.standardAnswer kind b })

def execIdentify (s : State) : O := mailAnswer s 0 []
def execGetSupportedLogs (s : State) : O := mailAnswer s 1 []
def execGetLog (uuid off len : Nat) (s : State) : O := mailAnswer s 2 (leBytes 16 uuid ++ leBytes 4 off ++ leBytes 4 len)
/-- GET_EVENT_RECORDS: the records of the log, as the standard frames them. -/
def execGetEventRecords (log : BitVec 8) (s : State) : O := mailAnswer s 3 (eventBytes s log)
/-- CLEAR_EVENT_RECORDS. -/
def execClearEventRecords (log : BitVec 8) (handles : List Nat) (s : State) : O := mailAnswer (clearEvents s log handles) 4 []
/-- GET_POISON_LIST: the poisoned addresses of the span, as the standard frames them. -/
def execGetPoisonList (dpa len : Nat) (s : State) : O := mailAnswer s 5 (poisonList s dpa len)

/-- A command given through the mailbox's registers, with its payload: return code (3: Unsupported), answer (log 7). -/
def mailboxRun (s : State) (opcode : Nat) (b : List Byte) : Nat × List Byte × State :=
  let log := lget 0 b 0
  if opcode = Config.identifyOpcode then (0, Config.standardAnswer 0 [], s)
  else match opcode with
    | 0x0400 => (0, Config.standardAnswer 1 [], s)
    | 0x0401 => (0, Config.standardAnswer 2 (padTo 0 24 b), s)
    | 0x0100 => (0, Config.standardAnswer 3 (eventBytes s log), s)
    | 0x0101 =>
      let hs := (countFrom 0 (lget 0 b 2).toNat).map (fun i => leNat (slice b (6 + 2 * i) 2))
      (0, Config.standardAnswer 4 [], clearEvents s log hs)
    | 0x4300 => (0, Config.standardAnswer 5 (poisonList s (leNat (slice b 0 8)) (64 * leNat (slice b 8 8))), s)
    | _ => (3, [], s)

/-! ## Component and device registers (R423; their places and layouts as the standard has them, log 7) -/

def cxlReg (s : State) (o : Nat) : Nat := (tget halfDef s.host.cxlRegs o).toNat
def setCxlReg (s : State) (o v : Nat) : State :=
  { s with host := { s.host with cxlRegs := tset halfDef s.host.cxlRegs o (BitVec.ofNat 32 v) } }

/-- The mailbox's doorbell: the command runs at once, and its return code and answer stand in the registers. -/
def mailboxBell (s : State) : State :=
  let m := Config.devMailbox
  let len := bitsOf (cxlReg s (m + 8)) 31 16 + cxlReg s (m + 12) % 32 * 65536
  let b := ((countFrom 0 ((len + 3) / 4)).flatMap (fun i => leBytes 4 (cxlReg s (m + 0x20 + 4 * i)))).take len
  let op := cxlReg s (m + 8) % 65536
  let (rc, d, s) := mailboxRun s op b
  let s := (countFrom 0 ((d.length + 3) / 4)).foldl (fun s i => setCxlReg s (m + 0x20 + 4 * i) (leNat (slice d (4 * i) 4))) s
  setCxlReg (setCxlReg (setCxlReg s (m + 8) (op + d.length % 65536 * 65536)) (m + 12) (d.length / 65536)) (m + 0x14) rc

/-- A register of HDM decoder i: base, size, control and skip. -/
def hdmReg (i k : Nat) : Nat := Config.hdmCap + 0x10 + 0x20 * i + 4 * k

/-- Commit as bit 9 of a decoder's control register asks; the ways are coded from 0 for 1. -/
def hdmBell (s : State) (i : Nat) : State :=
  let w := fun (k : Nat) => BitVec.ofNat 64 (cxlReg s (hdmReg i k) + cxlReg s (hdmReg i (k + 1)) * 2 ^ 32)
  let ctl := cxlReg s (hdmReg i 4)
  if bitOf ctl 9 then hdmCommit s i (w 0) (w 2) (w 5) (bitsOf ctl 7 4 + 1)
  else { s with host := { s.host with hdm := tset hdmDef s.host.hdm i {} } }

/-- A 4-byte write of a component or device register. -/
def cxlWrite (s : State) (o v : Nat) : State :=
  if o = Config.rasCap then (if bitOf v 7 then { s with host := { s.host with rasMemErr := false } } else s)
  else
    let s := setCxlReg s o v
    if o = hdmReg 0 4 then hdmBell s 0
    else if o = hdmReg 1 4 then hdmBell s 1
    else if o = Config.devMailbox + 4 ∧ bitOf v 0 then mailboxBell s
    else s

/-- The bits of these registers that the model's state holds: offset, the bits, their value. -/
def cxlFixed (s : State) : List (Nat × Nat × Nat) :=
  let ctl := fun (i : Nat) =>
    let d := tget hdmDef s.host.hdm i
    (hdmReg i 4, 0xC00, b2n d.committed * 0x400 + b2n d.error * 0x800)
  let logs := (countFrom 0 4).foldl (fun n k => n + b2n (s.host.events.any (fun e => decide (e.2.1 = k))) * 2 ^ k) 0
  [(Config.rasCap, 0x80, b2n s.host.rasMemErr * 0x80), (Config.hdmCap, 0xF, 1), ctl 0, ctl 1, (Config.devStatus, 0xF, logs),
   (Config.devMailbox + 4, 1, 0)]

/-- A word with some of its bits fixed. -/
def fixBits (o v : Nat) (l : List (Nat × Nat × Nat)) : Nat := l.foldl (fun v f => if f.1 = o then maskClear v f.2.1 + f.2.2 else v) v

/-- A component or device register as it reads: the mailbox's as the model holds them, others as the standard gives. -/
def cxlVal (s : State) (o : Nat) : Nat :=
  let v := tget halfDef s.host.cxlRegs o
  fixBits o (if Config.devMailbox + 4 ≤ o then v else Config.cxlRegister o v).toNat (cxlFixed s)

/-! ## BAR0 (R425, R426, R437) -/

/-- A host's doorbell; while the boot ROM is in recovery it is ignored (R500). -/
def bellWrite (s : State) (p : Nat) (off : Nat) (v : Half) : State :=
  if s.mgmt.recovery then s
  else match off % 8 with
    | 0 => doorbell s p false v
    | 4 => doorbell s p true v
    | _ => s

/-- DOORBELL_WRITE. -/
def execDoorbellWrite (page : Fin 64) (off : BitVec 12) (value : Half) (s : State) : O :=
  .next (if ioOpen s then bellWrite s page.val off.toNat value else s)

/-- A 4-byte write of an HIF_ register: one to half of a 64-bit register is ignored (R519). -/
def hifWrite (s : State) (o v : Nat) : State :=
  match o with
  | 0x18 => { s with host := { s.host with cls := BitVec.ofNat 2 (orOne (v % 4)) } }
  | _ => s

/-- An 8-byte write: of a 64-bit register (a size above 2^32 reads as 2^32), or of two 32-bit ones (R519). -/
def hifWrite64 (s : State) (o v : Nat) : State :=
  match o with
  | 0x08 => { s with host := { s.host with apBase := BitVec.ofNat 52 (v / 4096) } }
  | 0x10 => { s with host := { s.host with apSize := min (2 ^ 32) (bitsOf v 44 12) } }
  | _ => hifWrite (hifWrite s o (v % 2 ^ 32)) (o + 4) (v / 2 ^ 32)

/-- A word of the MSI-X table; an entry that is no longer masked sends what is pending. -/
def msixWrite (s : State) (o v : Nat) : State :=
  let put := fun (f : MsixEnt → MsixEnt) =>
    msixFlush { s with host := { s.host with msix := tmod msixDef s.host.msix (o / 16) f } } (o / 16)
  match o % 16 with
  | 0 => put (fun m => { m with addr := BitVec.ofNat 64 (m.addr.toNat / 2 ^ 32 * 2 ^ 32 + v / 4 * 4) })
  | 4 => put (fun m => { m with addr := BitVec.ofNat 64 (m.addr.toNat % 2 ^ 32 + v * 2 ^ 32) })
  | 8 => put (fun m => { m with data := BitVec.ofNat 32 v })
  | _ => put (fun m => { m with masked := bitOf v 0 })

/-- A 4-byte word written at an offset of BAR0, ring memory apart. -/
def bar0Word (s : State) (o v : Nat) : State :=
  if o < 0x40000 then bellWrite s (o / 0x1000) o (BitVec.ofNat 32 v)
  else if o / 0x1000 = 0x40 then mailWord s (o % 0x1000) v
  else if o / 0x1000 = 0x41 then hifWrite s (o % 0x1000) v
  else if 0x50000 ≤ o ∧ o < 0x50400 then msixWrite s (o - 0x50000) v
  else if 0x60000 ≤ o ∧ o < 0x80000 then cxlWrite s o v
  else s

/-- The runs of enabled bytes of a write: where each begins, and its bytes. -/
def enabledRuns (off : Nat) : List (Byte × Bool) → List (Nat × List Byte)
  | [] => []
  | (b, e) :: rest =>
    match e, enabledRuns (off + 1) rest with
    | false, l => l
    | true, (o, bs) :: l => if o = off + 1 then (off, b :: bs) :: l else (off, [b]) :: (o, bs) :: l
    | true, [] => [(off, [b])]

/-- Ring memory takes a write of any size with byte enables (R425); REGISTER_WRITE's enable every byte of its size. -/
def ringStore (s : State) (off : Nat) (data : List Byte) (en : List Bool) : State :=
  (enabledRuns off (data.zip en)).foldl (fun s r => ringWrite s r.1 r.2) s

/-- A write through BAR0; one that meets no register is ignored. -/
def bar0Write (s : State) (o : Nat) (size : Size) (v : Word) : State :=
  let n := sizeBytes size
  let low := v.toNat % 2 ^ (8 * n)
  if 0x400000 ≤ o ∧ o < 0x800000 then ringStore s (o - 0x400000) (leBytes n low) (List.replicate n true)
  else match size with
    | .b4 => bar0Word s o low
    | .b8 => if o / 0x1000 = 0x41 then hifWrite64 s (o % 0x1000) low else bar0Word (bar0Word s o (low % 2 ^ 32)) (o + 4) (low / 2 ^ 32)
    | _ => s

/-- A word of the HIF_ page as it reads: reserved bits and offsets as zero (R11, R12, R437). -/
def hifVal (s : State) (o : Nat) : Nat :=
  let h := s.host
  match o with
  | 0x00 => b2n h.ready * 2 ^ 31 + b2n h.cache * 2 ^ 30 + b2n h.mem * 2 ^ 29 + h.mode.toNat * 2 ^ 26 + h.width.toNat * 2 ^ 21
      + h.rate.toNat * 2 ^ 18 + b2n h.ideCm * 2 ^ 17 + b2n (h.ideIo || h.ideSel) * 2 ^ 16
  | 0x08 => h.apBase.toNat * 4096 % 2 ^ 32
  | 0x0C => h.apBase.toNat * 4096 / 2 ^ 32
  | 0x10 => h.apSize * 4096 % 2 ^ 32
  | 0x14 => h.apSize * 4096 / 2 ^ 32
  | 0x18 => h.cls.toNat
  | 0x1C => h.memErr.toNat * 2 ^ 16 + h.bar2Wr.toNat
  | 0x20 => h.memErrAddr.toNat % 2 ^ 32
  | 0x24 => b2n h.memErrValid * 2 ^ 31 + h.memErrAddr.toNat / 2 ^ 32
  | _ => 0

/-- A word of the MSI-X table or of its pending bits as it reads (R425, R435). -/
def msixVal (s : State) (o : Nat) : Nat :=
  let m := tget msixDef s.host.msix (o / 16)
  match o % 16 with
  | 0 => m.addr.toNat % 2 ^ 32
  | 4 => m.addr.toNat / 2 ^ 32
  | 8 => m.data.toNat
  | _ => b2n m.masked

def pendingBits (s : State) : Nat := (countFrom 0 64).foldl (fun n v => n + b2n (tget msixDef s.host.msix v).pending * 2 ^ v) 0

/-- A 4-byte word of BAR0 as the host reads it, ring memory apart: doorbells are WO and read as zero (R11, R426), as does
what lies outside the ranges of R425. -/
def bar0Val (s : State) (o : Nat) : Nat :=
  if o / 0x1000 = 0x40 then mailVal s (o % 0x1000)
  else if o / 0x1000 = 0x41 then hifVal s (o % 0x1000)
  else if 0x50000 ≤ o ∧ o < 0x50400 then msixVal s (o - 0x50000)
  else if o = 0x51000 then pendingBits s % 2 ^ 32
  else if o = 0x51004 then pendingBits s / 2 ^ 32
  else if 0x60000 ≤ o ∧ o < 0x80000 then cxlVal s o
  else 0

/-- What a read of a word of BAR0 completes with: a value, or (none) poisoned data where ring memory has an uncorrectable error
(R427). The table has no row for it: the host's programs are outside the part. -/
def bar0Read (s : State) (o : Nat) : Option Nat × State :=
  if 0x400000 ≤ o ∧ o < 0x800000 then
    let (b, s) := ringRead s (o - 0x400000) 4
    (b.map leNat, s)
  else (some (bar0Val s o), s)

/-- A write that meets no register of the sender's: refused at an address of the part, ignored in BAR0 (R425, R523). -/
def noRegister (a : Agent) (s : State) : State := if a = .host then s else s.answer { status := .unreach }

/-- A write to a register (R519). The host's is a write through BAR0; the command processor and the management plane
reach the HIF_ registers at their BAR0 offsets (R437). A misaligned write is judged like any other (R519, R528). -/
def execRegisterWrite (a : Agent) (addr : BitVec 48) (size : Size) (value : Word) (s : State) : O :=
  let o := addr.toNat
  let n := sizeBytes size
  let hif := decide (o / 0x1000 = 0x41) && decide (o % n = 0)
  match a with
  | .host =>
    let ring := decide (0x400000 ≤ o) && decide (o + n ≤ 0x800000)
    .next (if ioOpen s && (ring || decide (o % n = 0) && decide (o < 0x4000000)) then bar0Write s o size value else s)
  | .cp | .mgmt =>
    if hif then .next (bar0Write s o size value)
    else if (decodeLocal o).isReg then regCmd a o n value.toNat s
    else .next (noRegister a s)
  | _ => if (decodeLocal o).isReg then regCmd a o n value.toNat s else .next (noRegister a s)

/-! ## CXL.mem (R429 to R431) -/

/-- The port takes CXL.mem requests: negotiated and enabled, its stream not Insecure (R436). -/
def memOpen (s : State) : Bool := s.host.mem && cmStream s

/-- The port's answer over CXL.mem; that of an Insecure stream is discarded (R436). -/
def memAnswer (s : State) (r : Reply) : State := if cmStream s then s.answer r else s

/-- Record an outcome other than "Performed" (R430). -/
def memErr (s : State) (dpa : Nat) : State :=
  { s with host := { s.host with memErr := s.host.memErr + 1, memErrValid := true, memErrAddr := BitVec.ofNat 48 dpa, rasMemErr := true } }

/-- The slice and offset of a DPA; none: it decodes to no byte. A DPA that no committed decoder gives is none of the host's
(R429; log 68). -/
def dpaPlace (s : State) (dpa : Nat) : Option (Nat × Nat) :=
  if 2 ^ 48 ≤ dpa || !hdmHas s dpa then none
  else match decodeLocal dpa with
    | .hbmI a => translate s (.hbmI a)
    | .hbmS k o => some (k, o)
    | _ => none

/-- A host request for a line of a slice: in its slot, or one that it takes now at the host port (R372, R429), it is
performed; its slot, and its answer, if it does not wait. -/
def hostLine (s : State) (slot k : Nat) (acc : Acc) : Nat × Option (Status × List Byte × State) × State :=
  match (if slot < 128 then some (slot, s) else fabAlloc s portHost s.host.cls.toNat false (.unit (portOfSlice k)) (accCost acc)) with
  | none => (128, none, s)
  | some (n, s) => (n, (sliceAcc s k acc true).map (fun r => (r.1, r.2.1, fabFree r.2.2 portHost n)), s)

/-- A host write: Cmp, whatever its outcome (R430); it waits for stage 9 (R500), at the host port or at its slice. What still
waits at the port when its stream is Insecure is discarded (R436). -/
def hostWrite (slot dpa : Nat) (place : Option (Nat × Nat)) (data : List Byte) (en : List Bool) (s : State) : State :=
  if !cmStream s && decide (128 ≤ slot) then s
  else if !s.mgmt.booted then s.hold (.memWrite slot dpa none data en)
  else match place <|> dpaPlace s dpa with
  | none => memAnswer (memErr s dpa) { status := .ok }
  | some (k, o) =>
    match hostLine s slot k (.write o data en) with
    | (n, none, s) => s.hold (.memWrite n dpa (some (k, o)) data en)
    | (_, some (st, _, s), _) => memAnswer (if st = .ok then s else memErr s dpa) { status := .ok }

/-- A write of a line that the port takes; anything else is no such request (log 88). -/
def memWrite (s : State) (dpa : Nat) (data : List Byte) (en : List Bool) : O :=
  .next (if memOpen s && decide (data.length = 64) && decide (en.length = 64) && decide (dpa % 64 = 0) then
    hostWrite 128 dpa none data en s else s)

/-- MEMWR: a whole line. -/
def execMemwr (dpa : BitVec 52) (data : List Byte) (s : State) : O := memWrite s dpa.toNat data (allOn data)

/-- MEMWRPTL: bytes of a line. -/
def execMemwrptl (dpa : BitVec 52) (data : List Byte) (en : List Bool) (s : State) : O := memWrite s dpa.toNat data en

/-- Records of a slice's directory (R431). -/
def dirEntries : Nat := 16384

def modDir (s : State) (k : Nat) (f : List DirEnt → List DirEnt) : State := s.modSlice k (fun x => { x with dir := f x.dir })

/-- Send a back-invalidate snoop for a recorded line, once. -/
def sendSnoop (s : State) (k line : Nat) (write : Bool) : State :=
  match (s.slice k).dir.find? (fun d => decide (d.line = line)) with
  | some d =>
    if d.snoop.isSome then s
    else
      let s := modDir s k (fun l => l.map (fun d => if d.line = line then { d with snoop := some write } else d))
      if cmStream s then s.out (.biSnoop k line write) else s
  | none => s

/-- Whether a read that grants the host a copy has room for its record, and the state with the record. -/
def recordLine (s : State) (k line : Nat) (exclusive : Bool) : Bool × State :=
  let l := (s.slice k).dir
  if l.any (fun d => decide (d.line = line)) then
    (true, modDir s k (fun l => l.map (fun d => if d.line = line then { d with exclusive := d.exclusive || exclusive } else d)))
  else if l.length < dirEntries then (true, modDir s k (fun l => l ++ [{ line := line, exclusive := exclusive }]))
  else (false, match l with | d :: _ => sendSnoop s k d.line true | [] => s)

/-- A host read: data, or zeros or bad data with Poison (R430). It waits for stage 9 (R500), at the host port, at its
slice, and in a full directory for the snoop of the oldest record (R431). -/
def hostRead (slot dpa : Nat) (place : Option (Nat × Nat)) (grants exclusive : Bool) (s : State) : State :=
  let poisoned := fun (s : State) (b : List Byte) => memAnswer (memErr s dpa) { status := .ok, data := b, poison := true }
  if !cmStream s && decide (128 ≤ slot) then s
  else if !s.mgmt.booted then s.hold (.memRead slot dpa none grants exclusive)
  else match place <|> dpaPlace s dpa with
  | none => poisoned s (List.replicate 64 0)
  | some (k, o) =>
    match hostLine s slot k (.read o 64) with
    | (n, none, s) => s.hold (.memRead n dpa (some (k, o)) grants exclusive)
    | (_, some (.unreach, _, s), _) => poisoned s (List.replicate 64 0)
    | (n, some (st, b, s'), s) =>
      let (room, s') := if grants then recordLine s' k (o / 64) exclusive else (true, s')
      if !room then
        (match (s.slice k).dir with
         | d :: _ => sendSnoop s k d.line true
         | [] => s).hold (.memRead n dpa (some (k, o)) grants exclusive)
      else if st = .ok then memAnswer s' { status := .ok, data := b }
      else poisoned s' b

/-- MEMRD. -/
def execMemrd (dpa : BitVec 52) (grants exclusive : Bool) (s : State) : O :=
  .next (if memOpen s && decide (dpa.toNat % 64 = 0) then hostRead 128 dpa.toNat none grants exclusive s else s)

/-- BISNP: an access that the directory blocks sends its snoop (R431). -/
def execBisnp (k : Fin 80) (line : Nat) (write : Bool) (s : State) : O :=
  .next (if dirBlocks (s.slice k.val) (64 * line) 64 write then sendSnoop s k.val line write else s)

/-- GPF_FLUSH: it completes at once. -/
def execGpfFlush (s : State) : O := .next (s.answer { status := .ok })

/-- HOST_SNOOP: RspIHitI, for no line is cached (R434); the port discards that of an Insecure stream (R436). -/
def execHostSnoop (hpa : Word) (s : State) : O := .next (if cmStream s then s.out (.snoopMiss hpa) else s)

/-! ## BAR2 (R428) -/

/-- A BAR2 read: its bytes, poisoned data, or all ones; it waits for stage 9 (R500) and for a slot (R372). -/
def bar2Read (off len : Nat) (s : State) : State :=
  if !s.mgmt.booted then s.hold (.bar2 off len)
  else match runM (reqM regW .host portHost s.host.cls.toNat ⟨.ok, []⟩ (.read (0x030000000000 + off) len)) s with
  | (.error _, _) => s.hold (.bar2 off len)
  | (.ok r, s) =>
    match r.status with
    | .ok => s.answer { status := .ok, data := r.data }
    | .data =>
      let (b, s) := freeBytes len s
      s.answer { status := .ok, data := b, poison := true }
    | _ => s.answer { status := .ok, data := List.replicate len 0xFF }

/-- BAR2_READ; one of no bytes, or past the end of BAR2, is none of its reads (log 88). -/
def execBar2Read (off : BitVec 28) (len : Nat) (s : State) : O :=
  .next (if ioOpen s && decide (len ≠ 0) && decide (off.toNat + len ≤ 2 ^ 28) then bar2Read off.toNat len s else s)

/-- BAR2_WRITE: discarded and counted; one past the end of BAR2 is none of its writes (log 88). -/
def execBar2Write (off : BitVec 28) (data : List Byte) (s : State) : O :=
  if 2 ^ 28 < off.toNat + data.length || !ioOpen s then .next s
  else .next { s with host := { s.host with bar2Wr := s.host.bar2Wr + 1 } }

/-! ## The aperture (R432, R433) -/

/-- HOST_APERTURE_ACCESS: UNREACH at once, or a request to the host that waits for its answer. A peer's is refused (R406); the
host and the management plane send none (R24). -/
def execHostApertureAccess (a : Agent) (acc : Acc) (s : State) : O :=
  match a with
  | .host | .mgmt => .next s
  | .peer _ => .next (s.answer { status := .nowin })
  | _ =>
    .next (if apertureOk s (accOff acc) (accLen acc) then apEnter s (some a) none (accOff acc) acc
      else s.answer { status := .unreach })

/-- HOST_APERTURE_COMPLETION. -/
def execHostApertureCompletion (cpl : HostCpl) (data : List Byte) (s : State) : O := .next (apertureDone s (HostCplStatus cpl) data)

/-- The first host address of a command. -/
def hostAddrOf (c : Cmd) : Option Nat := (((opAddrs c.op).map c.n).find? (fun a => decide (cSpace a = 2)))

/-- COMPLETION_TIMEOUT: of an aperture request, or of the first access of the oldest command that reads or writes the
host's memory. -/
def execCompletionTimeout (cpHostAccess : Bool) (s : State) : O :=
  if !cpHostAccess then .next (apertureDone s (HostCplStatus .timeout) [])
  else match s.cp.cmds.find? (fun c => !c.started && mayStart s c && (hostAddrOf c).isSome) with
    | some c =>
      if !s.cpUp then .next s
      else .next (finishCmd s c.id cRefused (BitVec.ofNat 64 rAccess) (BitVec.ofNat 64 ((hostAddrOf c).getD 0)))
    | none => .next s

/-- All that waits at the port receives UNREACH. -/
def dropWaiting (s : State) : State := apResponses s.host.waiting .unreach { s with host := { s.host with waiting := [] } }

/-- IDE_INTEGRITY_FAILURE: the stream goes to Insecure (R436); of the two of CXL.io it is the selective one where that alone is
Secure (log 92). -/
def execIdeIntegrityFailure (cachemem : Bool) (s : State) : O :=
  let h := s.host
  let h := if cachemem then { h with cmInsecure := true, ideCm := false }
    else if h.ideSel && !h.ideIo then { h with selInsecure := true, ideSel := false }
    else { h with ideInsecure := true, ideIo := false }
  .next (dropWaiting { s with host := h })

/-! ## Configuration space, interrupts -/

/-- HIF_STATUS.CACHE and MEM: negotiated and enabled (R421, R437). -/
def hostLinks (s : State) : State :=
  let m := s.host.mode.toNat
  { s with host := { s.host with cache := inRange 1 3 m && s.host.cacheEn, mem := decide (m = 1) && s.host.memEn } }

/-- Every vector whose message may go, after a change of Function Mask or of Bus Master Enable. -/
def msixFlushAll (s : State) : State := (countFrom 0 64).foldl msixFlush s

/-- The bits of the capability structures that R420 to R422 and R425 give, or that the state holds: offset, the bits, their
value. PCI Express: an endpoint without Function Level Reset, 16 lanes, ASPM L1 only, completion timeout ranges A to D; Power
Management: no D1, D2 or D3cold wake; MSI-X: 64 vectors in BAR0; DVSEC 0: Cache, IO and Mem Capable, HDM_Count 2, CXL Reset
Capable, Cache Size 0; DVSEC 5: Phase 2 duration 0; DVSEC 8: the two register blocks of BAR0. -/
def cfgFixed (s : State) : List (Nat × Nat × Nat) :=
  let h := s.host
  let e := Config.pcieCap
  let x := Config.cxlDvsec
  let l := Config.locatorDvsec
  let timeout := match h.timeoutRange with | some v => v.toNat | none => if Config.timeoutA then 1 else 2
  [(e, 0xF00000, 0), (e + 0x04, 0x10000000, 0), (e + 0x0C, 0xFF0, 0x900), (e + 0x10, 3, b2n h.aspmL1 * 2), (e + 0x24, 0xF, 0xF),
   (e + 0x28, 0xF, timeout), (Config.pmCap, 0x86000000, 0), (Config.pmCap + 4, 3, b2n h.d3hot * 3),
   (Config.msixCap, 0xC7FF0000, 0x3F0000 + b2n h.funcMask * 2 ^ 30 + b2n h.msixEn * 2 ^ 31), (Config.msixCap + 4, 0xFFFFFFFF, 0x50000),
   (Config.msixCap + 8, 0xFFFFFFFF, 0x51000), (Config.serialCap + 4, 0xFFFFFFFF, Config.serial.toNat % 2 ^ 32),
   (Config.serialCap + 8, 0xFFFFFFFF, Config.serial.toNat / 2 ^ 32), (x + 8, 0xB7FFFF, 0xA70000),
   (Config.cxlControl, 5, b2n h.cacheEn + b2n h.memEn * 4), (x + 0x14, 0xFF000000, 0), (Config.gpfDvsec + 8, 0xFFFFF, 5),
   (Config.flexDvsec + 8, 0xFFFF, 7), (l + 8, 0xFFFF, 8), (l + 0x0C, 0xFFFFFFFF, 0x60100), (l + 0x10, 0xFFFFFFFF, 0),
   (l + 0x14, 0xFFFFFFFF, 0x70300), (l + 0x18, 0xFFFFFFFF, 0)]

/-- A configuration register (R422): the standard header, the capabilities, and what the standards give beyond (log 7). -/
def cfgValue (s : State) (o : Nat) : Half :=
  let w := tget halfDef s.host.config o
  match o with
  | 0x00 => BitVec.ofNat 32 (0x4820 * 65536) ||| (Config.vendorId.zeroExtend 32)
  | 0x04 => (Config.pciConfig o w &&& 0xFFFFFFFB) ||| (if s.host.busMaster then 4 else 0)
  | 0x08 => 0x12000000 ||| (Config.stepping.zeroExtend 32)
  | 0x10 => (s.host.bar0.truncate 32) ||| 4
  | 0x14 => (s.host.bar0 >>> 32).truncate 32
  | 0x18 => (s.host.bar2.truncate 32) ||| 4
  | 0x1C => (s.host.bar2 >>> 32).truncate 32
  | 0x20 => 0
  | 0x24 => 0
  | _ => if o < 0x40 then Config.pciConfig o w else BitVec.ofNat 32 (fixBits o (Config.pciConfig o w).toNat (cfgFixed s))

/-- What a write does beyond the word that the register holds: BAR0 decodes 64 MiB, BAR2 256 MiB (R425); of the power states D0
and D3hot exist (R420). -/
def cfgEffect (h : HostSt) (o : Nat) (v : Half) : HostSt :=
  let w : Word := v.zeroExtend 64
  match o with
  | 0x04 => { h with busMaster := v.getLsbD 2 }
  | 0x10 => { h with bar0 := (h.bar0 &&& 0xFFFFFFFF00000000) ||| (w &&& 0xFC000000) }
  | 0x14 => { h with bar0 := (h.bar0 &&& 0xFFFFFFFF) ||| (w <<< 32) }
  | 0x18 => { h with bar2 := (h.bar2 &&& 0xFFFFFFFF00000000) ||| (w &&& 0xF0000000) }
  | 0x1C => { h with bar2 := (h.bar2 &&& 0xFFFFFFFF) ||| (w <<< 32) }
  | _ =>
    if o < 0x40 then h
    else if o = Config.msixCap then { h with funcMask := v.getLsbD 30, msixEn := v.getLsbD 31 }
    else if o = Config.cxlControl then { h with cacheEn := v.getLsbD 0, memEn := v.getLsbD 2 }
    else if o = Config.pmCap + 4 then
      { h with d3hot := match v.toNat % 4 with | 0 => false | 3 => true | _ => h.d3hot }
    else if o = Config.pcieCap + 0x10 then { h with aspmL1 := v.getLsbD 1 }
    else if o = Config.pcieCap + 0x28 then { h with timeoutRange := some (v.truncate 4) }
    else h

/-- A write of a configuration register. -/
def cfgWrite (s : State) (o : Nat) (v : Half) : State :=
  msixFlushAll (hostLinks { s with host := cfgEffect { s.host with config := tset halfDef s.host.config o v } o v })

/-- CONFIGURATION_REQUEST, while the port is in service (R510): Request Retry Status until stage 9 (R500); in recovery the identity answers. -/
def execConfigurationRequest (write : Bool) (off : BitVec 12) (value : Half) (s : State) : O :=
  let o := off.toNat / 4 * 4
  if s.pwr.state = 3 ∨ s.cp.portOut then .next s
  else if !s.mgmt.booted && !s.mgmt.recovery then .next (s.out .cfgRetry)
  else if write then .next (cfgWrite s o value)
  else .next (s.out (.cfgRead (cfgValue s o)))

/-- MSIX_UNMASK: a vector's mask bit is cleared (R435). -/
def execMsixUnmask (vec : Fin 64) (s : State) : O :=
  .next (msixFlush { s with host := { s.host with msix := tmod msixDef s.host.msix vec.val (fun m => { m with masked := false }) } } vec.val)

end Sys2Proof.Machine
end

