-- ==== Sys2Proof/Machine/Waiting.lean ====
section
/-! DEFINITION. Requests that wait at their slices (R323, R324, R431), and the events that let them go on. -/

namespace Sys2Proof.Machine

/-- A waiting request tries again: it is performed, refused, or waits on. -/
def WaitReq.serve : WaitReq → State → State
  | .request a k acc, s => sliceServe a k acc s
  | .arrival a h addr acc ext, s => arriveServe a h addr acc ext s
  | .memRead n dpa place grants exclusive, s => hostRead n dpa place grants exclusive s
  | .memWrite n dpa place data en, s => hostWrite n dpa place data en s
  | .bar2 off len, s => bar2Read off len s
  | .buffer a k acc, s => bufferServe a k acc s
  | .edge a south acc, s => edgeServe a south acc s
  | .peer l n f h b, s => peerRequest l n f h b s

/-- A request of the host to its memory windows. -/
def WaitReq.isHost : WaitReq → Bool
  | .memRead .. | .memWrite .. | .bar2 .. => true
  | .request .. | .arrival .. | .buffer .. | .edge .. | .peer .. => false

/-- The class of a waiting request. -/
def WaitReq.cls (s : State) : WaitReq → Nat
  | .request a _ _ | .buffer a _ _ | .edge a _ _ => agentClass s a
  | .arrival _ h _ _ _ => h.cls.toNat
  | .memRead .. | .memWrite .. | .bar2 .. => s.host.cls.toNat
  | .peer _ _ f _ _ => f.cls

/-- All waiting requests try again: those of class 0 before all others, oldest first (R309). -/
def serveWaits (s : State) : State :=
  let first := fun (r : WaitReq) => decide (r.cls s = 0)
  (s.waits.filter first ++ s.waits.filter (fun r => !first r)).foldl (fun s r => r.serve s) { s with waits := [] }

/-- STACK_CLOCK_RESTORE (R323). -/
def execStackClockRestore (t : Fin 20) (s : State) : O :=
  .next (serveWaits (s.modStack t.val (fun x => { x with clkOk := true })))

/-- BIRSP: the host's answer, with a write-back if it holds the line modified; the record is dropped or downgraded, and
what waited for it goes on (R431); the port discards it when its stream is Insecure (R436). -/
def execBirsp (k : Fin 80) (line : Nat) (keepShared : Bool) (writeback : Option (List Byte)) (s : State) : O :=
  let wb : State → Option State := fun s =>
    match writeback with
    | some b =>
      match sliceAcc s k.val (.write (64 * line) (padTo 0 64 b) (List.replicate 64 true)) true with
      | none => none
      | some (st, _, s) => some (if st = Status.ok then s else memErr s (2 ^ 40 + k.val * 2 ^ 34 + 64 * line))
    | none => some s
  if !cmStream s then .next s
  else match (s.slice k.val).dir.find? (fun d => decide (d.line = line)) with
  | some d =>
    match d.snoop, wb s with
    | some write, some s =>
      let keep := keepShared && !write
      .next (serveWaits (modDir s k.val (fun l =>
        if keep then l.map (fun (d : DirEnt) => if d.line = line then { d with exclusive := false, snoop := none } else d)
        else l.filter (fun (d : DirEnt) => decide (d.line ≠ line)))))
    | _, _ => .next s
  | none => .next s

end Sys2Proof.Machine
end

