-- ==== Sys2Proof/Machine/Power.lean ====
section
/-! DEFINITION. Power states, voltages, protective trips, ramp windows and forecasts (R477 to R493). -/

namespace Sys2Proof.Machine

def State.setPwr (s : State) (f : PwrSt → PwrSt) : State := { s with pwr := f s.pwr }

/-- A message that the controller holds for the BMC (R542). -/
def State.toBmc (s : State) (b : List Byte) : State := { s with mgmt := { s.mgmt with bmc := s.mgmt.bmc ++ [b] } }

/-! ## HOLD, DROWSE and back (R478 to R482) -/

/-- No element of a channel is under way (R479). -/
def dmaQuiet (x : CoreSt) : Bool := (countFrom 0 16).all (fun n => !(x.ch n).underWay || decide ((x.ch n).run ≠ .run))

/-- The packets of messages, write-backs and cinch arrivals that are in the fabric have been delivered (R479). -/
def fabricQuiet (s : State) : Bool :=
  s.msgs.all (fun m => m.status.isSome || m.parked)
  && s.cores.all (fun p => p.2.dc.wbs.all (fun w => decide (128 ≤ w.slot)) && p.2.cinch.all (fun m => !m.2.flight && !m.2.due))
  && (s.cp.rootOut || s.clusters.all (fun p => p.2.nodes.all (fun n => !n.2.sent)))

/-- What HOLD waits for has settled: threads at boundaries, no element and no descriptor under way, no packet in the
fabric (R479). -/
def holdSettled (s : State) : Bool :=
  fabricQuiet s && s.cores.all (fun p => s.coreFenced p.1 || (allAtBoundary p.2 && dmaQuiet p.2))
  && s.slices.all (fun p => p.2.skv.prio.desc.isNone && p.2.skv.ord.desc.isNone)

/-- No descriptor is outstanding (R480). -/
def skvEmpty (s : State) : Bool :=
  s.slices.all (fun p => p.2.skv.prio.desc.isNone && p.2.skv.ord.desc.isNone && p.2.skv.prio.queue.isEmpty && p.2.skv.ord.queue.isEmpty)

/-- Waits and unwritten matrix instructions are abandoned (R479); each runs again after the exit. -/
def quiesceAll (s : State) : State :=
  (s.cores.map (·.1)).foldl (fun s c => if s.coreFenced c then s else s.modCore c quiesce) s

/-- Hints fall at the entry to DROWSE or OFF-RAILS (R493). -/
def dropHints (s : State) : State := (countFrom 0 64).foldl (fun s k => s.setHint k false) s

def vddOf (t : Table (BitVec 16)) (q : Nat) : Nat := (tget cnt16Def t q).toNat

/-- Every quadrant stands at a voltage. -/
def setVdd (s : State) (mv : Nat → BitVec 16) : State :=
  s.setPwr (fun p => { p with vdd := (countFrom 0 4).foldl (fun t q => tset cnt16Def t q (mv q)) p.vdd })

/-- The SET_POWER_STATE that has no answer yet. -/
def moving (s : State) : Option Cmd :=
  s.cp.cmds.find? (fun c => decide (c.op = 0x60) && c.started && !replyWaits s c.id && decide (s.pwr.tripCmd.map (·.1) ≠ some c.id))

/-- A move ends where it was to end: BUSY falls, its command replies, a move to ACTIVE clears TRIPPED (R485). -/
def moveDone (s : State) : State :=
  let s := s.setPwr (fun p =>
    if p.target = 0 ∧ p.leaves then { p with busy := false, leaves := false, tripped := false, thermTripLow := false }
    else { p with busy := false, leaves := false })
  match moving s with
  | some c => mgmtDone s c.id cOk 0 0
  | none => s

/-- The rails fall: only the management plane and what has left the part remain (R477, R481). -/
def railsOff (s : State) : State :=
  let m := { s.mgmt with booted := false }
  let p := { s.pwr with state := 3, target := 3, busy := false, leaves := false, tripCmd := none, loadHint := 0, vdd := [] }
  { State.reset with mgmt := m, pwr := p, outbox := s.outbox, reply := s.reply, nextId := s.nextId, fresh := s.fresh, pending := s.pending }

/-- Deliver what waits while there is room. -/
def pushAll : Nat → State → State
  | 0, s => s
  | n + 1, s => if s.cpUp then pushAll n (pushNotice s) else s

/-- The reply of the command that OFF-RAILS ends, and every mailbox reply, has been written (R481). -/
def offReplied (s : State) : Bool :=
  s.cp.cmds.all (fun c => !(decide (c.op = 0x60) && c.started)) && s.host.mailWait.isEmpty

/-- A move to OFF-RAILS: the rails fall once the reply and the trip's notice have been written (R481, R484). -/
def offWhenTold (s : State) : State :=
  let s := tripReply (pushAll (s.cp.notices.length + 1) s)
  if offReplied s && !tripWaits s then railsOff s else s.setPwr (fun p => { p with target := 3, busy := true })

/-- POWER_STATE_SETTLED: the next step of a move, when what it waits for has settled. -/
def powerSettled (s : State) : State :=
  let s := tripReply s
  let p := s.pwr
  if !p.busy then s
  else if p.target = 3 then offWhenTold s
  else if p.state = 0 ∧ p.target ≠ 0 then
    if !holdSettled s then s
    else
      let s := (quiesceAll s).setPwr (fun p => { p with state := 1 })
      if p.target = 1 ∧ p.vdd = p.vddTarget then moveDone s else s
  else if p.state = 1 ∧ p.target = 2 then
    if skvEmpty s then dropHints (serveWaits (s.setPwr (fun p => { p with state := 2 }))) else s
  else if p.state = 1 ∧ p.target = 0 then
    let s := s.setPwr (fun p => { p with state := 0 })
    if p.vdd = p.vddTarget then moveDone s else s
  else s

def execPowerStateSettled (s : State) : O := .next (powerSettled s)

/-- VOLTAGE_SLEW_COMPLETE: 500 mV in DROWSE, the host's values elsewhere; the exit from DROWSE goes on from there. -/
def slewDone (s : State) : State :=
  let p := s.pwr
  if !p.busy ∨ p.target = 3 then s
  else if p.state = 2 ∧ p.target = 2 then moveDone (setVdd s (fun _ => 500))
  else
    let s := setVdd s (fun q => tget cnt16Def p.vddTarget q)
    if p.state = 2 then
      let s := s.setPwr (fun p => { p with state := 1 })
      if p.target = 1 then moveDone s else s
    else if p.state = p.target then moveDone s
    else s

def execVoltageSlewComplete (s : State) : O := .next (slewDone s)

/-! ## Trips (R483 to R485) -/

/-- Current limits of the rails in 10 mA units (R534). -/
def railLimit (r : Nat) : Nat := 100 * lget 0 [560, 560, 560, 560, 210, 780, 100, 310, 260, 80, 90, 8] r

/-- A sensor reads above this many degrees. -/
def hotterThan (s : State) (deg : Int) : Bool :=
  (countFrom 0 89).any (fun i => decide (16 * deg < (tget (fun _ => (0x8000 : BitVec 16)) s.mgmt.temps i).toInt))

/-- The trip bars a move to ACTIVE: as the last readings show its condition (R485). -/
def tripBars (s : State) : Bool :=
  s.pwr.tripped &&
    (match s.pwr.tripCause.toNat with
     | 1 => hotterThan s 105
     | 3 => decide (33000 < s.mgmt.power.toNat)
            || (countFrom 0 12).any (fun r => decide (railLimit r < (tget (fun _ => ((0 : BitVec 16), (0 : Half))) s.mgmt.rails r).2.toNat))
     | _ => true)

/-- What a trip does in any case: TRIPPED, the cause, the notice and the BMC's message (R484). The 100 ms of a thermal trip
count from the one that is in force (R483). -/
def tripReport (s : State) (cause index : Nat) (notice : Bool) : State :=
  let first := decide (cause = 1) && !s.pwr.thermTripLow
  let s := s.setPwr (fun p => { p with tripped := true, tripCause := BitVec.ofNat 4 cause, tripIndex := BitVec.ofNat 8 index,
                                       thermTripLow := p.thermTripLow || decide (cause = 1), tripTime := if first then s.mgmt.time else p.tripTime })
  let s := if notice then s.viaMail (unitFault 9 0 4 cause index) else s
  s.toBmc [0x7E, BitVec.ofNat 8 cause, BitVec.ofNat 8 index]

/-- A SET_POWER_STATE in progress ends without reaching its state (R484). -/
def tripEnds (s : State) (cause index : Nat) : State :=
  let s := match moving s with
    | some c => s.setPwr (fun p => { p with tripCmd := some (c.id, cause, index) })
    | none => s
  tripReply (pushAll (s.cp.notices.length + 1) s)

/-- The part moves towards HOLD. -/
def tripHold (s : State) : State :=
  let p := s.pwr
  if p.state = 1 then s.setPwr (fun p => { p with target := 1, busy := false, leaves := false })
  else s.setPwr (fun p => { p with target := 1, busy := true, leaves := true })

/-- A trip of R483; `off`: its action is OFF-RAILS in every state; `notice`: the host link carries its notice. A fault of
the SerDes rails lets the rails fall at once (R484). -/
def trip (cause index : Nat) (off notice : Bool) (s : State) : O :=
  if !s.mgmt.fwRun ∨ s.pwr.state = 3 then .next s
  else
    let drowse := decide (s.pwr.state = 2)
    let falling := decide (s.pwr.target = 3)
    let s := tripEnds (tripReport s cause index notice) cause index
    .next (if !notice then railsOff s else if off ∨ drowse ∨ falling then offWhenTold s else tripHold s)

/-- THERMAL_TRIP. -/
def execThermalTrip (sensor : Fin 89) (s : State) : O := trip 1 sensor.val false true s
/-- CURRENT_TRIP. -/
def execCurrentTrip (rail : Fin 12) (s : State) : O := trip 3 rail.val false true s
/-- RAIL_TRIP: after start-up (R491); of the SerDes rails only the BMC is told. -/
def execRailTrip (rail : Fin 12) (s : State) : O :=
  if !s.mgmt.booted then .next s else trip 2 rail.val true (decide (rail.val ≠ 8) && decide (rail.val ≠ 9)) s

/-- THERMAL_TRIP_ESCALATION: the sensor still reads above 115 °C after 100 ms. -/
def execThermalTripEscalation (s : State) : O :=
  let due := s.mgmt.fwRun && decide (s.pwr.state ≠ 3) && s.pwr.tripped && s.pwr.thermTripLow
    && decide (s.pwr.tripTime + 100000000 ≤ s.mgmt.time)
  .next (if due then offWhenTold s else s)

/-! ## Commands -/

/-- A quadrant's value in P1 of SET_POWER_STATE: 0 keeps what is set. -/
def vddArg (c : Cmd) (q : Nat) : Nat := bitsOf (c.n 1) (16 * q + 15) (16 * q)

/-- An answer of the management controller (R20). -/
def mgmtEnd (c : Cmd) (st : Nat) (r0 r1 : Word) : M Unit := modify (fun s => mgmtDone s c.id st r0 r1)
def mgmtOk (c : Cmd) : M Unit := mgmtEnd c cOk 0 0
def mgmtRefuse (c : Cmd) (why i : Nat) : M Unit := mgmtEnd c cRefused (BitVec.ofNat 64 why) (BitVec.ofNat 64 i)

/-- SET_POWER_STATE. -/
def execSetPowerState (id : Nat) (s : State) : O :=
  cmdRow 0x60 false id (fun c => do
    viaMgmt
    let s ← get
    let st := BitVec.ofNat 2 (c.n 0)
    let vs := (countFrom 0 4).map (vddArg c)
    if vs.any (fun v => decide (v ≠ 0) && !inRange 600 850 v) then mgmtRefuse c rRange 1
    else if s.pwr.state = 3 ∨ s.pwr.target = 3 then mgmtRefuse c rState 0
    else if st = 3 then do
      mgmtOk c
      modify offWhenTold
    else if s.pwr.busy then throw .wait
    else if st = 0 ∧ tripBars s then mgmtRefuse c rState 0
    else if st = s.pwr.state ∧ st ≠ 0 then mgmtOk c
    else do
      let put := (countFrom 0 4).foldl (fun t q => if vddArg c q = 0 then t else tset cnt16Def t q (BitVec.ofNat 16 (vddArg c q))) s.pwr.vddTarget
      modify (fun s => s.setPwr (fun p => { p with target := st, busy := true, leaves := decide (st ≠ p.state), vddTarget := put }))
      if st = 0 ∧ s.pwr.state = 0 ∧ put = s.pwr.vdd then modify moveDone) s

/-- SET_RAMP: the value as PWR_RAMP takes it, for every cluster (R488). -/
def execSetRamp (id : Nat) (s : State) : O :=
  cmdRow 0x61 false id (fun c => do
    viaMgmt
    modify (fun s => s.setPwr (fun p => { p with ramp := writeRamp (BitVec.ofNat 32 (c.n 0)) }))
    mgmtOk c) s

/-! ## Ramp windows and forecasts -/

/-- An instruction performs on the array. -/
def arrayBusy (x : CoreSt) : Bool := x.mtx.ops.any (fun o => o.started && (match o.i with | .tMma _ _ _ _ _ _ _ => true | _ => false))

/-- RAMP_WINDOW: a window of WIN pacer ticks of a cluster ends (R35, R488). -/
def execRampWindow (k : Fin 64) (s : State) : O :=
  let x := s.cluster k.val
  let win := bitsOf s.pwr.ramp.toNat 23 8
  if x.pacer < x.rampSince + win then .next s
  else
    let s := (countFrom (8 * k.val) 8).foldl (fun s c =>
      s.modCore c (fun x => { x with mtx := { x.mtx with warm := x.mtx.busyWin, busyWin := arrayBusy x } })) s
    .next (s.modCluster k.val (fun y => { y with rampUsed := 0, rampSince := y.rampSince + win }))

/-- FCAST_BMC_MESSAGE: the oldest forecast is sent to the BMC: type 0x7E, code 0x8001 (R489). -/
def execFcastBmcMessage (s : State) : O :=
  match s.pwr.fcastDue with
  | [] => .next s
  | (v, t) :: rest =>
    if !s.mgmt.fwRun then .next s
    else .next ((s.setPwr (fun p => { p with fcastDue := rest })).toBmc (0x7E :: (leBytes 2 0x8001 ++ leBytes 2 (v.toNat / 65536) ++ leBytes 2 v.toNat ++ leBytes 8 t)))

end Sys2Proof.Machine
end

