-- ==== Sys2Proof/Machine/FenceTest.lean ====
section
/-! DEFINITION. Fences, in-field tests and faults of units that only a reset restores (R505 to R512, R364, R240, R284). -/

namespace Sys2Proof.Machine

/-! ## Units (R448, R505) -/

/-- Units of a type. -/
def unitCount (u : Nat) : Nat := if u ≤ 6 then unitsOf u else 0

/-- The mark of a unit. -/
def unitMark (s : State) (u n : Nat) : Bool :=
  match u with
  | 0 => (s.core n).fenced
  | 1 => (s.cluster n).fenced
  | 2 => (s.slice n).fenced
  | 3 => tget boolDef s.stackFenced n
  | 4 => (s.link n).fenced
  | 5 => (s.link (n / 2)).laneFenced.getLsbD (n % 2)
  | _ => s.fabric.planeFenced.getLsbD n

/-- A unit is fenced by its own mark or by that of what holds it. -/
def unitFenced (s : State) (u n : Nat) : Bool :=
  match u with
  | 0 => s.coreFenced n
  | 2 => s.sliceFenced n
  | 5 => unitMark s 5 n || (s.link (n / 2)).fenced
  | _ => unitMark s u n

def bit2 (v : BitVec 2) (i : Nat) (b : Bool) : BitVec 2 :=
  let m : BitVec 2 := BitVec.ofNat 2 (2 ^ i)
  if b then v ||| m else v &&& ~~~m

def bit4 (v : BitVec 4) (i : Nat) (b : Bool) : BitVec 4 :=
  let m : BitVec 4 := BitVec.ofNat 4 (2 ^ i)
  if b then v ||| m else v &&& ~~~m

/-- Set or clear a mark. -/
def setMark (s : State) (u n : Nat) (b : Bool) : State :=
  match u with
  | 0 => s.modCore n (fun x => { x with fenced := b })
  | 1 => s.modCluster n (fun x => { x with fenced := b })
  | 2 => s.modSlice n (fun x => { x with fenced := b })
  | 3 => { s with stackFenced := tset boolDef s.stackFenced n b }
  | 4 => s.modLink n (fun x => { x with fenced := b })
  | 5 => s.modLink (n / 2) (fun x => { x with laneFenced := bit2 x.laneFenced (n % 2) b })
  | _ =>
    let since := if b then tset natDef s.fabric.drainSince n s.mgmt.time else s.fabric.drainSince
    { s with fabric := { s.fabric with planeFenced := bit4 s.fabric.planeFenced n b, planeDraining := bit4 s.fabric.planeDraining n b, drainSince := since } }

/-- A channel's requests that are on their way reach their targets; nobody takes their answers (log 90). -/
def dmaLand (c : Fin 512) (s : State) (ch : Nat) : State :=
  let y := (s.core c.val).ch ch
  y.reqs.foldl (fun s r =>
    if (apWaits s c.val r.slot ((s.port c.val).slot r.slot).gen (dmaAcc y r)).isSome then endSlot c.val s r.slot
    else match outcome regW s (.dma c) c.val y.map ⟨.ok, []⟩ (dmaAcc y r) r.slot r.answer with
    | some a => a.s
    | none => endSlot c.val s r.slot) s

/-- A core becomes fenced: its channels end, its posted messages that are not sent are discarded (R240, R284). -/
def coreFence (s : State) (c : Nat) : State :=
  let mine := fun (m : Msg) => m.sender.ofCore c s.lat.id.toNat && decide (m.form = .posted) && m.unsent s
  let s := discardMsgs s mine
  ((countFrom 0 16).foldl (dmaLand (Fin.ofNat 512 c)) s).modCore c dmaFence

/-- A link out of use carries nothing: it leaves UP and its lanes stand idle. -/
def linkFence (s : State) (l : Nat) : State :=
  s.modLink l (fun x => { x with st := 0, lanes := 0, stage := 0, laneOff := 0, egress := [] })

/-- A link's new state goes to telemetry (R416). -/
def linkTold (old s : State) (l : Nat) : State :=
  if (s.link l).shown = (old.link l).shown then s else s.out (.linkState l (s.link l).shown)

/-- The effects of a new fence mark (R506); units already fenced by another mark have theirs. Requests that wait at fenced
slices receive UNREACH (R323); a link whose last working lane is fenced leaves UP (R403). -/
def fenceUnit (s : State) (u n : Nat) : State :=
  let s' := setMark s u n true
  match u with
  | 0 => if s.coreFenced n then s' else coreFence s' n
  | 1 => ((countFrom (8 * n) 8).filter (fun c => !s.coreFenced c)).foldl coreFence (s'.setHint n false)
  | 2 => if s.sliceFenced n then s' else serveWaits (skvFence s' n)
  | 3 => serveWaits (((countFrom (4 * n) 4).filter (fun k => !s.sliceFenced k)).foldl skvFence s')
  | 4 => linkTold s (linkFence s' n) n
  | 5 =>
    let l := n / 2
    if (s'.link l).isFenced then linkTold s (linkFence s' l) l
    else
      let s' := s'.modLink l (fun x => { x with lanes := bit2 x.lanes (n % 2) false })
      if (s.link l).lanes ≠ 0 ∧ (s'.link l).lanes = 0 then linkLost s' l else s'
  | _ => s'

/-- Fences of start-up (R498): the core's own mark goes only with CORE_INIT (R507). -/
def startFence (s : State) (u n : Nat) : State :=
  let s := fenceUnit s u n
  if u = 0 then s.modCore n (fun x => { x with hardFence := true }) else s

/-- An unfenced slice advances its epoch (R333, R508). -/
def sliceBack (s : State) (k : Nat) : State :=
  if s.sliceFenced k then s else s.modSkv k (fun v => { v with epoch := nextEpoch v.epoch })

/-- A mark goes (R508): cores resume where they stood, links train. -/
def unfenceUnit (s : State) (u n : Nat) : State :=
  let s' := setMark s u n false
  match u with
  | 2 => sliceBack s' n
  | 3 => ((countFrom (4 * n) 4).filter (fun k => s.sliceFenced k)).foldl sliceBack s'
  | 4 => linkTold s s' n
  | 5 => linkTold s s' (n / 2)
  | _ => s'

/-- What R507 refuses to unfence. -/
def unfenceBad (s : State) (u n : Nat) : Bool :=
  let locked := fun (l : Nat) => (tget groupDef s.lat.groups (l / 16)).locked
  match u with
  | 0 => (s.core n).hardFence
  | 2 => !(s.slice n).clkOk
  | 3 => !(s.slice (4 * n)).clkOk
  | 4 => !locked n
  | 5 => !locked (n / 2)
  | _ => false

/-! ## FENCE, UNFENCE -/

def Cmd.utype (c : Cmd) : Nat := bitsOf (c.n 0) 19 16
def Cmd.unit (c : Cmd) : Nat := bitsOf (c.n 0) 9 0

def unitOk (c : Cmd) : Bool := decide (c.utype ≤ 6) && decide (c.unit < unitCount c.utype)

/-- The other three planes are fenced. -/
def lastPlane (s : State) (n : Nat) : Bool := (countFrom 0 4).all (fun p => decide (p = n) || s.fabric.planeFenced.getLsbD p)

/-- Streams that stand revoked. -/
def revokedCount (s : State) : Nat := (s.cp.streams.filter (·.revoked)).length

/-- A FENCE that revokes a stream has notices to wait for before its reply (R452). -/
def noteRevoked (old : State) (id : Nat) (s : State) : State :=
  if revokedCount old < revokedCount s then s.modCmd id (fun c => { c with progress := 1 }) else s

/-- FENCE: the mark and what it stops; the reply comes with FENCE_CHANGE_SETTLED. -/
def execFence (id : Nat) (s : State) : O :=
  cmdRow 0x50 false id (fun c => do
    viaMgmt
    let s ← get
    if !unitOk c then mgmtRefuse c rRange 0
    else if unitMark s c.utype c.unit then mgmtOk c
    else if c.utype = 6 ∧ lastPlane s c.unit then mgmtRefuse c rState 0
    else set (noteRevoked s id (fenceUnit s c.utype c.unit))) s

/-- UNFENCE. -/
def execUnfence (id : Nat) (s : State) : O :=
  cmdRow 0x51 false id (fun c => do
    viaMgmt
    let s ← get
    if !unitOk c then mgmtRefuse c rRange 0
    else if !unitMark s c.utype c.unit then mgmtOk c
    else if unfenceBad s c.utype c.unit then mgmtRefuse c rState 0
    else set (unfenceUnit s c.utype c.unit)) s

/-- Cores that a fence stops. -/
def fencedCores (u n : Nat) : List Nat :=
  match u with
  | 0 => [n]
  | 1 => countFrom (8 * n) 8
  | _ => []

/-- A fence has taken effect: its threads stand at boundaries, nothing is left on its plane; streams that no longer fit are
revoked, and their notices are written before the reply (R395, R452). -/
def fenceSettled (s : State) (c : Cmd) : State :=
  let l := fencedCores c.utype c.unit
  if !l.all (fun k => allAtBoundary (s.core k)) then s
  else if c.utype = 6 ∧ !planeClear s c.unit then s
  else
    let s := l.foldl (fun s k => s.modCore k quiesce) s
    let s := if c.utype = 6 then
        { s with fabric := { s.fabric with planeDraining := bit4 s.fabric.planeDraining c.unit false } }
      else s
    let s := noteRevoked s c.id (revokeUnfit s)
    let s := pushAll (s.cp.notices.length + 1) s
    if ((s.cmd c.id).map (·.progress)).getD 0 ≠ 0 ∧ s.cp.notices.any (fun n => decide (n.status = 3)) then s
    else mgmtDone s c.id cOk 0 0

/-- FENCE_CHANGE_SETTLED (R506). -/
def execFenceChangeSettled (id : Nat) (s : State) : O :=
  match s.cmd id with
  | some c =>
    if !c.started ∨ !s.cpUp then .next s
    else if c.op = 0x50 then .next (fenceSettled s c)
    else if c.op = 0x51 then .next (mgmtDone s id cOk 0 0)
    else .next s
  | none => .next s

/-! ## Tests (R511, R512) -/

/-- Tests of a unit type. -/
def testsOf (u : Nat) : List Nat :=
  match u with
  | 0 => [0x01, 0x02, 0x03] | 1 => [0x10, 0x11] | 2 => [0x20, 0x21, 0x22, 0x23] | 3 => [0x28] | 4 => [0x30] | 5 => [0x31] | 6 => [0x38]
  | _ => []

/-- TEST_UNIT: the unit must be fenced; the test runs until TEST_UNIT_COMPLETE or its timeout. -/
def execTestUnit (id : Nat) (s : State) : O :=
  cmdRow 0x52 false id (fun c => do
    viaMgmt
    let s ← get
    if !unitOk c then mgmtRefuse c rRange 0
    else if !(testsOf c.utype).contains (c.n 1) then mgmtRefuse c rRange 1
    else if !unitFenced s c.utype c.unit then mgmtRefuse c rState 0
    else pure ()) s

/-- A read scan meets every sector that is struck (R318). -/
def scanSlice (s : State) (k : Nat) : State :=
  ((s.slice k).mem.upsets.map (·.1)).foldl (fun s sec => (sectorCheck s k sec).2) s

/-- The patterns of test 0x03 over the register files (R511): tiles EMPTY, sets cleared, and the vector registers, whose
contents the spec does not give, free (log 72). -/
def testFiles (s : State) (c : Nat) : State :=
  let s := s.modCore c (fun x => { x with mtx := { x.mtx with tiles := [], accs := [], reuseA := none, reuseB := none }, vec := { x.vec with accs := [] } })
  (countFrom 0 32).foldl (fun s r =>
    let (b, s) := freeBytes 256 s
    s.modCore c (fun x => { x with vec := { x.vec with v := tset vregDef x.vec.v r (BitVec.ofNat 2048 (leNat b)) } })) s

/-- What a test leaves behind. -/
def testEffect (s : State) (test n : Nat) : State :=
  match test with
  | 0x01 => s.resetCoreAt n
  | 0x02 => s.modCore n (fun x => { x with spad := { x.spad with mem := {} } })
  | 0x03 => testFiles s n
  | 0x11 => s.modCluster n (fun x => { x with nodes := (x.nodes.map (fun p => (p.1, { p.2 with arr := 0, next := 0 }))).filter (fun p => decide (p.2 ≠ {})) })
  | 0x20 | 0x21 => s.modSkv n (fun v => { v with buf := {}, careas := [] })
  | 0x22 => scanSlice s n
  | 0x23 => s.modSlice n (fun x => { x with mem := {} })
  | _ => s

/-- A test in progress. -/
def testing (s : State) (id : Nat) : Option Cmd := (s.cmd id).filter (fun c => c.started && decide (c.op = 0x52))

/-- The clock domain of a unit runs: a slice's and a stack's, a link's and a lane's group (R28, R512). -/
def unitClock (s : State) (u n : Nat) : Bool :=
  let locked := fun (l : Nat) => (tget groupDef s.lat.groups (l / 16)).locked
  match u with
  | 2 => (s.slice n).clkOk
  | 3 => (s.slice (4 * n)).clkOk
  | 4 => locked n
  | 5 => locked (n / 2)
  | _ => true

/-- Codes of a test of a unit: NO_CLOCK when its clock domain is stopped, and only then; a stopped one can neither pass nor
run its test (R512). -/
def testCodeOk (clock : Bool) (code : Nat) : Bool := if clock then decide (code ≤ 6 ∧ code ≠ 5) else [3, 5, 6].contains code

/-- TEST_UNIT_COMPLETE: failure code and first failing item, none of a test that passes; codes 3, 5 and 6 tell of a test that
did not run. -/
def execTestUnitComplete (id : Nat) (code : BitVec 8) (item : Half) (s : State) : O :=
  match testing s id with
  | some c =>
    if !testCodeOk (unitClock s c.utype c.unit) code.toNat then .next s
    else
      let ran := [0, 1, 2, 4].contains code.toNat
      let s := if ran then testEffect s (c.n 1) c.unit else s
      let first := if code = 0 then 0 else item.toNat
      .next (mgmtDone s id cOk (BitVec.ofNat 64 (code.toNat + first * 2 ^ 32)) 0)
  | none => .next s

/-- TEST_UNIT_TIMEOUT: the unit stays fenced. -/
def execTestUnitTimeout (id : Nat) (s : State) : O :=
  match testing s id with
  | some c => .next (if expired s c (c.n 2) then finishCmd s id cTimeout 0 0 else s)
  | none => .next s

/-! ## Units that only a reset restores (R510) -/

/-- OUT_OF_SERVICE_FAULT. Without the command processor READY falls; without the host port the link is down. -/
def execOutOfServiceFault (u : OutOfService) (s : State) : O :=
  match u with
  | .cinchRoot => .next { s with cp := { s.cp with rootOut := true } }
  | .commandProcessor => .next { s with cp := { s.cp with outOfService := true }, host := { s.host with ready := false } }
  | .hostPort =>
    let h := { s.host with mode := 0, width := 0, rate := 0 }
    .next (dropWaiting (hostLinks { s with cp := { s.cp with portOut := true }, host := h }))

end Sys2Proof.Machine
end

