-- ==== Sys2Proof/Machine/Matrix.lean ====
section
/-! DEFINITION. The matrix engine's instructions (R170 to R204): checks at issue or, behind conflicting instructions, at
their start; start in order of conflicts (R175); completion. -/

namespace Sys2Proof.Machine

def MtxSt.tile (x : MtxSt) (t : Nat) : Tile := tget tileDef x.tiles t
def MtxSt.acc (x : MtxSt) (n : Nat) : AccSet := tget accDef x.accs n
def MtxSt.setAcc (x : MtxSt) (n : Nat) (a : AccSet) : MtxSt := { x with accs := tset accDef x.accs n a }
def State.modMtx (s : State) (c : Nat) (f : MtxSt → MtxSt) : State := s.modCore c (fun x => { x with mtx := f x.mtx })

/-! ## Resources and conflicts (R175) -/

def maskRes (base n m : Nat) : List (Nat × Bool) := ((countFrom 0 n).filter (fun i => bitOf m i)).map (fun i => (base + i, true))

/-- Resources of an instruction and whether it writes them: tiles 0 to 7, sets 8 and 9, maximum and capture 10. -/
def mtxRes : Instr → List (Nat × Bool)
  | .tcfg _ d _ => [(d.val, true)]
  | .tcfgRd _ _ k => [(k.val, false)]
  | .tLd _ d _ => [(d.val, true)]
  | .tSt _ k _ => [(k.val, false)]
  | .tRel _ m => maskRes 0 8 m.toNat
  | .tMma _ n a b _ _ _ => [(8 + n.val, true), (a.val, false), (b.val, false)]
  | .tDrain _ n d ds fuse _ f _ _ _ =>
    [(8 + n.val, true), (10, true), (d.val, !ds)] ++ (if fuse ≠ 0 then [(f.val, false)] else [])
  | .tClr _ m => maskRes 8 2 m.toNat
  | .tScale _ n _ _ => [(8 + n.val, true)]
  | .tSave _ item _ => [(item.toNat, false)]
  | .tRest _ item _ => [(item.toNat, true)]
  | .tRds _ _ _ => [(10, false)]
  | _ => []

def resConflict (i j : Instr) : Bool :=
  (mtxRes i).any (fun p => (mtxRes j).any (fun q => decide (p.1 = q.1) && (p.2 || q.2)))

/-- Two instructions of the engine conflict: a common resource, or common bytes. -/
def opsConflict (c : Nat) (o p : MtxOp) : Bool :=
  resConflict o.i p.i || clash (o.spans c) (p.spans c)

/-! ## Checks -/

/-- A memory operand under R178: rows through the M-port, or a global span. -/
def mtxAddr (t : Tid) (win : Window) (w : TWord) (len : Nat) (write : Bool) : M MLoc := do
  let s ← get
  if w.tag = .addr then do
    let (e, ga) ← segCheckLen t w.data len write
    pure (.glob ga len e.k)
  else do
    let p ← lift (spadCheck (s.core t.core.val) win w.data ((len + 511) / 512) 512 1)
    pure (.spad p len)
where
  segCheckLen (t : Tid) (addr : Word) (len : Nat) (write : Bool) : M (SegEnt × Nat) := do
    let s ← get
    segCheck t (s.thr t).priv addr len 64 false (if write then .w else .r) 0

def tileOf (s : State) (t : Tid) (k : Fin 8) : Tile := (s.core t.core.val).mtx.tile k.val

/-- A configured tile, or TILE_SHAPE. -/
def needShape (x : Tile) : Except Stop (Format × TileCfg) :=
  match x.shape with
  | some p => .ok p
  | none => trap .tileShape

/-- A 32 × 32 tile, or TILE_SHAPE. -/
def needSquare (x : Tile) : Except Stop (Format × TileCfg) := do
  let (f, k) ← needShape x
  if k.rows ≠ 32 ∨ k.cols ≠ 32 then trap .tileShape else pure (f, k)

/-- Length of a record. -/
def saveLen (m : MtxSt) (item : Nat) : Nat :=
  if item < 8 then (if (m.tile item).full then 16448 else 64) else if (m.acc (item - 8)).isOpen then 8256 else 64

/-- t.mma, in the order of R183. -/
def mmaCheck (m : MtxSt) (n a b : Nat) (chunk : BitVec 2) : Except Stop Unit := do
  let ta := m.tile a
  let tb := m.tile b
  let (fa, ka) ← needShape ta
  if ka.rows ≠ 32 then trap .tileShape
  let (fb, kb) ← needShape tb
  if kb.rows ≠ 32 then trap .tileShape
  if fa.elem = .int32 ∨ fb.elem = .int32 ∨ fa.elem.isInt ≠ fb.elem.isInt then trap .mtxFmt
  if ka.cols ≠ kb.cols ∨ ka.cols % groupSize fa.elem fb.elem ≠ 0 then trap .tileShape
  if !ta.full then trap .tileEmpty
  if !tb.full then trap .tileEmpty
  let s := m.acc n
  match s.mode with
  | some k => if k ≠ mmaMode fa fb chunk then trap .mtxAccMode
  | none => pure ()
  if (fa.mx || fb.mx) && decide (s.n % 32 ≠ 0) then trap .mtxAccMode

/-- Formats a drain may write (R188). -/
def drainFmtOk (f : Format) : Bool := f.mx || (decide (f.elem ≠ .int32) && decide (f.elem ≠ .int4))

/-- The checks of an instruction beyond its tags, in order; where its memory operands lie. -/
def mtxCheck (t : Tid) (o : MtxOp) : M (MLoc × MLoc) := do
  let s ← get
  let m := (s.core t.core.val).mtx
  match o.i with
  | .tLd _ d _ => do
    let _ ← lift (needShape (m.tile d.val))
    let a ← mtxAddr t o.win o.a (m.tile d.val).extent false
    pure (a, .none)
  | .tSt _ k _ => do
    let _ ← lift (needShape (m.tile k.val))
    if !(m.tile k.val).full then mtrap .tileEmpty
    let a ← mtxAddr t o.win o.a (m.tile k.val).extent true
    pure (a, .none)
  | .tMma _ n a b _ _ chunk => do
    lift (mmaCheck m n.val a.val b.val chunk)
    pure (.none, .none)
  | .tDrain _ _ d ds fuse fs f _ _ _ => do
    let (fd, kd) ← lift (needSquare (m.tile d.val))
    if !drainFmtOk fd then mtrap .mtxFmt
    let lb ← (do
      if fuse = 0 then pure MLoc.none
      else do
        let (ff, kf) ← lift (needSquare (m.tile f.val))
        if ff.elem = .int32 then mtrap .mtxFmt
        if !fs && !(m.tile f.val).full then mtrap .tileEmpty
        if fs then mtxAddr t o.win o.b kf.extent false else pure MLoc.none)
    let la ← (if ds then mtxAddr t o.win o.a kd.extent true else pure MLoc.none)
    pure (la, lb)
  | .tSave _ item _ => do
    let a ← mtxAddr t o.win o.a (saveLen m item.toNat) true
    pure (a, .none)
  | .tRest _ _ _ => do
    let a ← mtxAddr t o.win o.a 64 false
    pure (a, .none)
  | _ => pure (.none, .none)

/-! ## Moves -/

/-- The spans of 512 bytes of a transfer from its first byte on (R181). -/
def mtxSpans (a n : Nat) : List Req :=
  (countFrom 0 ((n + 511) / 512)).map (fun i => { ga := a + 512 * i, len := min 512 (n - 512 * i) })

/-- Lost lines of an engine's access fault its instruction (R293, R550). -/
def mtxFlush (t : Tid) (inval : Bool) (ga n : Nat) : M Unit := do
  let s ← get
  let lost ← flushSpan t.core.val (threadClass s t) inval (linesOf s.smap ga n)
  match lost with
  | l :: _ => mtrap .machineCheck 0 (wInt (BitVec.ofNat 64 l))
  | [] => pure ()

/-- The detail word of an access: an ADDR or an INT offset (R134). -/
def accDetail (w : TWord) : TWord := w

/-- Read rows of the scratchpad through the M-port. -/
def mtxRead (t : Tid) (w : TWord) (l : MLoc) : M (List Byte) := do
  match l with
  | .spad p n => do
    let s ← get
    let (r, s) := spadRead s t.core.val p n
    set s
    match r with
    | some b => pure b
    | none => mtrap .machineCheck 0 (accDetail w)
  | _ => pure []

/-- Write rows of the scratchpad through the M-port; the status of a refusal. -/
def mtxWrite (t : Tid) (l : MLoc) (b : List Byte) : M (Option Status) := do
  match l with
  | .spad p _ => do
    let s ← get
    let (ok, s) := spadWrite s t.core.val p b (allOn b)
    set s
    pure (if ok then none else some .data)
  | _ => pure none

/-! ## Effects -/

/-- The item of a record (R203): the tile or the set it replaces, or the fault. -/
def restChecked (item : Nat) (b : List Byte) : Except Stop (Tile ⊕ AccSet) :=
  if item < 8 then
    let w1 := leNat (slice b 8 8)
    let cfg := bitOf w1 8
    if cfg && !tcfgOk (BitVec.ofNat 64 (leNat (b.take 8))) then trap .mtxRestBad
    else if bitOf w1 9 && !cfg then trap .mtxRestBad
    else match tileOfRecord b with
      | some t => .ok (.inl t)
      | none => trap .mtxRestBad
  else match setOfRecord b with
    | some a => .ok (.inr a)
    | none => trap .mtxRestBad

/-- The kind byte of a record header. -/
def headKind (item : Nat) (h : List Byte) : Nat := if item < 8 then leNat (slice h 8 1) else leNat (h.take 1)

/-- Bytes of the record that a header announces. -/
def headLen (item : Nat) (h : List Byte) : Nat :=
  if item < 8 then (if bitOf (leNat (slice h 8 8)) 9 then 16448 else 64) else if bitOf (leNat (h.take 8)) 8 then 8256 else 64

/-- The item of a checked record is replaced; both latches are invalid then (R203). -/
def restPut (t : Tid) (item : Nat) (b : List Byte) : M Unit := do
  let r ← lift (restChecked item b)
  modify (fun s => s.modMtx t.core.val (fun m =>
    let m := match r with
      | .inl x => m.setTile item x
      | .inr a => m.setAcc (item - 8) a
    { m with reuseA := none, reuseB := none }))

/-- The header of a record: its kind, and the place of the whole record when there is more of it. DESIGN CHOICE (log 98): the
address of the whole record is checked before the header's other fields. -/
def restHead (t : Tid) (o : MtxOp) (item : Nat) (h : List Byte) : M (Option MLoc) := do
  if headKind item h ≠ (if item < 8 then 1 else 2) then mtrap .mtxRestSize
  if headLen item h = 64 then pure none
  else do
    let l ← mtxAddr t o.win o.a (headLen item h) false
    pure (some l)

/-- t.rest from the scratchpad: header, kind, address of the whole record, record, checks, replacement (R203). -/
def restDo (t : Tid) (o : MtxOp) (item : Nat) (la : MLoc) : M Unit := do
  let h ← mtxRead t o.a la
  match ← restHead t o item h with
  | none => restPut t item h
  | some l => do
    let b ← mtxRead t o.a l
    restPut t item b

/-- The operand tag and value checks of instructions without memory operands (R170, R193), and their effects. -/
def smallDo (t : Tid) (o : MtxOp) : M Unit := do
  let s ← get
  let c := t.core.val
  let m := (s.core c).mtx
  match o.i with
  | .tcfg _ d _ => do
    if !tcfgOk o.a.data then mtrap .tcfgBad
    if (s.thr t).compat && tcfgNoCompat o.a.data then mtrap .compatOp
    set (s.modMtx c (fun m => m.setTile d.val { m.tile d.val with conf := o.a.data, cfg := true }))
  | .tcfgRd _ rd k => set (s.setReg t rd.val ⟨.tcfg, if (m.tile k.val).cfg then (m.tile k.val).conf else 0⟩)
  | .tRel _ mask =>
    set (s.modMtx c (fun m => (countFrom 0 8).foldl (fun m k =>
      if mask.getLsbD k then m.setTile k { m.tile k with full := false } else m) m))
  | .tClr _ mask =>
    set (s.modMtx c (fun m => (countFrom 0 2).foldl (fun m n => if mask.getLsbD n then m.setAcc n {} else m) m))
  | .tScale _ n _ _ => do
    if o.a.data.toNat / 2 ^ 33 ≠ 0 then mtrap .addrForm 1
    set (s.modMtx c (fun m => m.setAcc n.val { m.acc n.val with sa := o.a.data, sb := o.b.data }))
  | .tRds _ rd sel =>
    let v : Half := match sel.toNat with
      | 0 => tget halfDef m.amaxLast 0
      | 1 => tget halfDef m.amaxLast 1
      | 2 => tget halfDef m.amaxCum 0
      | 3 => tget halfDef m.amaxCum 1
      | _ => m.special
    set (s.setReg t rd.val (wInt (v.zeroExtend 64)))
  | _ => pure ()

/-- Instructions that complete with their start. -/
def isSmall : Instr → Bool
  | .tcfg _ _ _ | .tcfgRd _ _ _ | .tRel _ _ | .tClr _ _ | .tScale _ _ _ _ | .tRds _ _ _ => true
  | _ => false

/-! ## Issue -/

def earlierConflict (c : Nat) (o : MtxOp) (ops : List MtxOp) : Bool := ops.any (fun p => opsConflict c p o)

/-- Accept an instruction whose tags are right: its checks are made now when no earlier instruction can change what
they look at; a small one with nothing to wait for is performed now. -/
def mtxAccept (t : Tid) (i : Instr) (a b : TWord) : M Ctl := do
  let s ← get
  let c := t.core.val
  let x := s.core c
  let o : MtxOp := { t := t.thr, i := i, a := a, b := b, win := x.win t.thr.val }
  let behind := x.mtx.ops.any (fun p => resConflict p.i i)
  if isSmall i then
    if behind then do
      modify (fun s => s.modMtx c (fun m => { m with ops := m.ops ++ [o] }))
      pure (.hold .engine)
    else do
      smallDo t o
      pure .next
  else if behind then do
    modify (fun s => s.modMtx c (fun m => { m with ops := m.ops ++ [o] }))
    pure (.hold .engine)
  else do
    let (la, lb) ← mtxCheck t o
    modify (fun s => s.modMtx c (fun m => { m with ops := m.ops ++ [{ o with checked := true, la := la, lb := lb, map := s.smap }] }))
    pure (.hold .engine)

def mtxIssue (t : Tid) (noCompat : Bool) (i : Instr) (ops : ThreadSt → Except Stop (TWord × TWord)) (s : State) : O :=
  issue t false noCompat (do
    let s ← get
    let (a, b) ← lift (ops (s.thr t))
    mtxAccept t i a b) s

def noOps (_ : ThreadSt) : Except Stop (TWord × TWord) := .ok ({}, {})

/-- An operand of one of two tags, kept as a word. -/
def opIn (tags : List Tag) (n : Nat) (w : TWord) : Except Stop TWord := do
  let _ ← need tags n w
  pure w

def opA (tags : List Tag) (ra : Reg) (x : ThreadSt) : Except Stop (TWord × TWord) := do
  let w ← opIn tags 1 (x.reg ra.val)
  pure (w, {})

/-- tcfg (R170, R171). -/
def execTcfg (t : Tid) (d : Fin 8) (ra : Reg) (s : State) : O := mtxIssue t false (.tcfg t d ra) (opA [.tcfg] ra) s
/-- tcfg.rd. -/
def execTcfgRd (t : Tid) (rd : Reg) (tile : Fin 8) (s : State) : O := mtxIssue t false (.tcfgRd t rd tile) noOps s
/-- t.ld (R178). -/
def execTLd (t : Tid) (d : Fin 8) (ra : Reg) (s : State) : O := mtxIssue t false (.tLd t d ra) (opA [.addr, .int] ra) s
/-- t.st (R180). -/
def execTSt (t : Tid) (tile : Fin 8) (ra : Reg) (s : State) : O := mtxIssue t false (.tSt t tile ra) (opA [.addr, .int] ra) s
/-- t.rel (R172). -/
def execTRel (t : Tid) (mask : BitVec 8) (s : State) : O := mtxIssue t false (.tRel t mask) noOps s
/-- t.mma (R182 to R184). -/
def execTMma (t : Tid) (n : Fin 2) (a b : Fin 8) (reuseA reuseB : Bool) (chunk : BitVec 2) (s : State) : O :=
  mtxIssue t false (.tMma t n a b reuseA reuseB chunk) noOps s
/-- t.drain (R188); the encodings of R198 that are illegal. -/
def execTDrain (t : Tid) (n : Fin 2) (d : Fin 8) (ds : Bool) (fuse : BitVec 2) (fs : Bool) (f : Fin 8) (cvm : BitVec 2)
    (ra rb : Reg) (s : State) : O :=
  let illegal := decide (fuse = 3) || (fs && decide (fuse = 0)) || (!ds && decide (ra ≠ 0))
    || (!(fs && decide (fuse ≠ 0)) && decide (rb ≠ 0))
  mtxIssue t false (.tDrain t n d ds fuse fs f cvm ra rb) (fun x => do
    if illegal then trap .insnIllegal
    let a ← (if ds then opIn [.int] 1 (x.reg ra.val) else pure {})
    let b ← (if fs then opIn [.int] 2 (x.reg rb.val) else pure {})
    pure (a, b)) s
/-- t.clr (R186). -/
def execTClr (t : Tid) (mask : BitVec 2) (s : State) : O := mtxIssue t false (.tClr t mask) noOps s
/-- t.scale (R193). -/
def execTScale (t : Tid) (n : Fin 2) (ra rb : Reg) (s : State) : O :=
  mtxIssue t true (.tScale t n ra rb) (fun x => do
    let a ← opIn [.int] 1 (x.reg ra.val)
    let b ← opIn [.int] 2 (x.reg rb.val)
    pure (a, b)) s
/-- t.save and t.rest; items 10 to 15 are illegal (R198, R202), which the Perica-compatible mode meets as COMPAT_OP (log 28). -/
def execTSave (t : Tid) (item : BitVec 4) (ra : Reg) (s : State) : O :=
  if 10 ≤ item.toNat then issue t false true (mtrap .insnIllegal) s
  else mtxIssue t true (.tSave t item ra) (opA [.addr, .int] ra) s
def execTRest (t : Tid) (item : BitVec 4) (ra : Reg) (s : State) : O :=
  if 10 ≤ item.toNat then issue t false true (mtrap .insnIllegal) s
  else mtxIssue t true (.tRest t item ra) (opA [.addr, .int] ra) s
/-- t.rds; selections 5 to 7 are reserved (R197). -/
def execTRds (t : Tid) (rd : Reg) (sel : BitVec 3) (s : State) : O :=
  mtxIssue t false (.tRds t rd sel) (fun _ => if 5 ≤ sel.toNat then trap .insnIllegal else .ok ({}, {})) s

/-! ## Start (R175, R177) -/

/-- The op of thread `n` and those before it. -/
def splitOps (n : Nat) : List MtxOp → List MtxOp → Option (List MtxOp × MtxOp)
  | _, [] => none
  | acc, o :: r => if o.t.val = n then some (acc, o) else splitOps n (acc ++ [o]) r

def State.setOp (s : State) (c n : Nat) (f : MtxOp → MtxOp) : State :=
  s.modMtx c (fun m => { m with ops := m.ops.map (fun o => if o.t.val = n then f o else o) })
def State.dropOp (s : State) (c n : Nat) : State :=
  s.modMtx c (fun m => { m with ops := m.ops.filter (fun o => decide (o.t.val ≠ n)) })

/-- The unit of an instruction is its own now: it performs no other, and none issued earlier still waits for it (R175). -/
def unitFree (x : CoreSt) (before : List MtxOp) (i : Instr) : Bool :=
  !mtxBusy x (mtxUnit i) && !before.any (fun p => !p.started && !isSmall p.i && decide (mtxUnit p.i = mtxUnit i))

/-- A store to global bytes finds the staging buffer taken by another (R200, log 98). -/
def stagingTaken (x : CoreSt) (o : MtxOp) : Bool := mtxStaged { o with started := true } && x.mtx.ops.any mtxStaged

/-- No vector instruction and no other thread's outstanding access uses the operands' bytes (R292). -/
def memFree (x : CoreSt) (c n : Nat) (o : MtxOp) : Bool :=
  (o.spans c).all (fun p =>
    !x.vec.ops.any (fun v => hits v.spans p.1)
    && (countFrom 0 8).all (fun k => decide (k = n) || !hits (heldSpans c (x.t k).held) p.1))

/-- A cold array's start counts against PWR_RAMP (R488); none: it waits for a later window. -/
def rampAdmit (s : State) (c : Nat) : Option State :=
  let x := s.core c
  let r := s.pwr.ramp.toNat
  let busy := fun (s : State) => s.modMtx c (fun m => { m with busyWin := true })
  if !bitOf r 31 || x.mtx.warm then some (busy s)
  else
    let k := clusterOf c
    if (s.cluster k).rampUsed < r % 16 then
      some (busy (s.modCluster k (fun y => { y with rampUsed := y.rampUsed + 1 })))
    else none

/-- A transfer to global bytes. -/
def writesOut : Instr → Bool
  | .tSt _ _ _ | .tSave _ _ _ => true
  | _ => false

/-- A transfer to or from global bytes is its thread's global access (R516, R549). -/
def mtxWatch (t : Tid) (o : MtxOp) : M Unit :=
  match o.i, o.la with
  | .tLd _ _ _, .glob ga _ _ | .tRest _ _ _, .glob ga _ _ => watch t ga o.buf.length false
  | .tSt _ _ _, .glob ga _ _ | .tSave _ _ _, .glob ga _ _ => watch t ga o.buf.length true
  | _, _ => pure ()

/-- The started instruction of a thread. -/
def startedOp (s : State) (t : Tid) : Option MtxOp :=
  (s.core t.core.val).mtx.ops.find? (fun o => decide (o.t = t.thr) && o.started)

/-- The instruction completes with its thread; arms that waited for a drain of it take effect after it (R196). -/
def mtxFinish (t : Tid) (body : M Unit) : M Unit := do
  let s ← get
  set (s.dropOp t.core.val t.thr.val)
  finishCtl t (do
    body
    (startedOp s t).forM (mtxWatch t)
    pure .next)
  modify (fun s => s.modMtx t.core.val (fun m => m.drainOver t.thr.val))

/-- The bytes that a t.st or t.save writes. -/
def storeBytes (m : MtxSt) : Instr → List Byte
  | .tSt _ k _ => readBytes (m.tile k.val).data 0 (m.tile k.val).extent
  | .tSave _ item _ => mtxRecord m item.toNat
  | _ => []

/-- The tile that a t.mma takes an operand from: the latch of the role where it is allowed and holds the tile, otherwise
the tile register (R187). -/
def operandTile (m : MtxSt) (reuse : Bool) (l : Option Reuse) (k : Fin 8) : Tile :=
  match l with
  | some r => if reuse && decide (r.tile = k) then { m.tile k.val with data := r.rows } else m.tile k.val
  | none => m.tile k.val

/-- The working copy of set `n` that a t.mma computes (R182, R185). -/
def mmaWork (m : MtxSt) (n : Nat) (a b : Fin 8) (ru rv : Bool) (chunk : BitVec 2) : Option AccSet :=
  let ta := operandTile m ru m.reuseA a
  let tb := operandTile m rv m.reuseB b
  match ta.shape, tb.shape with
  | some (fa, ka), some (fb, kb) => some (mmaSet (m.acc n) ta tb fa fb ka kb chunk)
  | _, _ => none

/-- The bus access of a transfer's request. -/
def MtxOp.reqAcc (o : MtxOp) (r : Req) : Acc :=
  let base := match o.la with
    | .glob ga _ _ => ga
    | _ => r.ga
  if writesOut o.i then
    let b := slice o.buf (r.ga - base) r.len
    .write r.ga b (allOn b)
  else .read r.ga r.len

/-- Send what room there is for of a transfer's requests (R372, R386, R391); its first write makes it one that completes (R176). -/
def mtxSend (t : Tid) (s : State) : State :=
  let c := t.core.val
  match (s.core c).mtx.ops.find? (fun o => decide (o.t = t.thr) && o.started) with
  | none => s
  | some o =>
    let (l, s) := sendReqs o.map c (threadClass s t) o.reqAcc o.reqs s
    s.setOp c t.thr.val (fun o => { o with reqs := l, written := o.written || (writesOut o.i && l.any (fun r => decide (r.slot < 128) || r.answer.isSome)) })

/-- A global transfer begins: the core's own cached bytes of the span first (R293), then its requests. -/
def mtxOpen (t : Tid) (inval whole : Bool) (ga n : Nat) (b : List Byte) : M Unit := do
  mtxFlush t inval ga n
  modify (fun s => mtxSend t (s.setOp t.core.val t.thr.val (fun o =>
    { o with started := true, buf := b, reqs := mtxSpans ga n, map := s.smap, whole := whole })))

/-- Run a part of an instruction's work; a fault of it ends the instruction. -/
def mtxTry (t : Tid) (body : M Unit) : M Unit := do
  let s ← get
  let (r, s') := runM body s
  match r with
  | .ok _ => set s'
  | .error .wait => throw .wait
  | .error e => do
    set s'
    mtxFinish t (throw e)

/-- What an instruction does when it starts, its checks passed. -/
def mtxBegin (t : Tid) (o : MtxOp) : M Unit := do
  let s ← get
  let c := t.core.val
  let n := t.thr.val
  match o.i, o.la with
  | .tLd _ _ _, .glob ga k _ => mtxTry t (mtxOpen t false false ga k [])
  | .tLd _ _ _, l => mtxTry t (do
      let b ← mtxRead t o.a l
      modify (fun s => s.setOp c n (fun o => { o with started := true, buf := b })))
  | .tRest _ _ _, .glob ga k _ => mtxTry t (mtxOpen t false false ga k [])
  | .tRest _ item _, l => mtxFinish t (restDo t o item.toNat l)
  | .tSt _ _ _, .glob ga k _ | .tSave _ _ _, .glob ga k _ => mtxTry t (mtxOpen t true false ga k (storeBytes (s.core c).mtx o.i))
  | .tSt _ _ _, l | .tSave _ _ _, l => mtxTry t (do
      let f ← mtxWrite t l (storeBytes (s.core c).mtx o.i)
      modify (fun s => s.setOp c n (fun o => { o with started := true, written := true, fail := f })))
  | .tMma _ k a b ru rv chunk, _ =>
    match rampAdmit s c with
    | none => throw .wait
    | some s => set (s.setOp c n (fun o => { o with started := true, work := mmaWork (s.core c).mtx k.val a b ru rv chunk }))
  | .tDrain _ _ _ _ _ _ _ _ _ _, _ => set (s.setOp c n (fun o => { o with started := true }))
  | _, _ => mtxFinish t (smallDo t o)

/-- MATRIX_INSN_START. -/
def insnStart (t : Tid) : M Unit := do
  let s ← get
  let c := t.core.val
  let n := t.thr.val
  let x := s.core c
  match splitOps n [] x.mtx.ops with
  | none => pure ()
  | some (before, o) =>
    if o.started || earlierConflict c o before || !(isSmall o.i || unitFree x before o.i) then throw .wait
    else do
      let (r, s') := runM (if o.checked then pure (o.la, o.lb) else mtxCheck t o) s
      match r with
      | .error .wait => throw .wait
      | .error e => do
        set s'
        mtxFinish t (throw e)
      | .ok (la, lb) => do
        let o := { o with checked := true, la := la, lb := lb, map := s.smap }
        set (s'.setOp c n (fun _ => o))
        if earlierConflict c o before || !memFree x c n o || stagingTaken x o then throw .wait
        mtxBegin t o

/-- The matrix engine of a core that is fenced performs nothing (R204). -/
def mtxRuns (s : State) (c : Nat) : Bool := !s.coreFenced c && s.active

def execMatrixStart (t : Tid) (s : State) : O :=
  if mtxRuns s t.core.val then runCmd (insnStart t) s else .next s

/-! ## Completion -/

/-- What the refusal of a transfer raises: a register's PRIV, or the status (R113, R181, R549). -/
def mtxRefusal (o : MtxOp) : M Unit := do
  let kseg := match o.la with
    | .glob _ _ k => k
    | _ => false
  if o.priv then mtrap .priv 0 (accDetail o.a)
  match o.fail with
  | some st => statusTrap kseg 0 (accDetail o.a) st
  | none => pure ()

/-- The bytes of a global t.rest are all there: its header, then the whole record. -/
def restNext (t : Tid) (o : MtxOp) (item : Nat) : M Unit := do
  let s ← get
  if o.whole then mtxFinish t (restPut t item o.buf)
  else
    let (r, s') := runM (restHead t o item o.buf) s
    match r with
    | .ok none => mtxFinish t (restPut t item o.buf)
    | .ok (some (.glob ga n _)) => do
      set s'
      mtxTry t (mtxOpen t false true ga n [])
    | .ok (some _) => pure ()
    | .error .wait => throw .wait
    | .error e => do
      set s'
      mtxFinish t (throw e)

/-- All responses of a transfer are there: a refused read faults, a restore goes on; a load waits for its commit, a store for
its completion. -/
def mtxAnswered (t : Tid) (o : MtxOp) : M Unit := do
  match o.i with
  | .tLd _ _ _ => if o.fail.isSome then mtxFinish t (mtxRefusal o) else pure ()
  | .tRest _ item _ => if o.fail.isSome then mtxFinish t (mtxRefusal o) else restNext t o item.toNat
  | _ => pure ()

/-- The oldest request of a thread's transfer has its response; after a refusal nothing more is sent. A fenced core's engine
takes only what a store that has begun to write still needs (R176, R204). -/
def engineResponse (t : Tid) (ext : ExtAns) : M Unit := do
  let s ← get
  match startedOp s t with
  | none => pure ()
  | some o =>
    match o.reqs with
    | [] => pure ()
    | r :: rest =>
      if !mtxRuns s t.core.val && !o.written then throw .wait
      else if 128 ≤ r.slot ∧ r.answer.isNone then set (mtxSend t s)
      else match outcome regW s (.thread t) t.core.val o.map ext (o.reqAcc r) r.slot r.answer with
        | none => throw .wait
        | some a => do
          let bad := decide (a.status ≠ .ok)
          let o := { o with
            reqs := if bad then outstanding rest else rest, buf := if writesOut o.i then o.buf else o.buf ++ a.data
            fail := if o.fail.isNone ∧ bad then some a.status else o.fail, priv := o.priv || (o.fail.isNone && a.priv) }
          set (mtxSend t (a.s.setOp t.core.val t.thr.val (fun _ => o)))
          if o.reqs.isEmpty then mtxAnswered t o

/-- GLOBAL_ACCESS_RESPONSE: of the access of a thread (R294), or of its transfer by the matrix engine. A thread that waits with
its write-backs done takes its turn at the port too. -/
def execGlobalResponse (t : Tid) (ext : ExtAns) (s : State) : O :=
  match (s.thr t).held with
  | some (.acc g) => runCmd (finishCtl t (accResponse t g ext)) s
  | some (.drain _ _) => runCmd (resumeDrains t.core [t.thr.val]) s
  | some .engine => runCmd (engineResponse t ext) s
  | _ => .next s

/-- T_LD_COMMIT (R179). -/
def execTLdCommit (t : Tid) (s : State) : O :=
  match startedOp s t with
  | some o =>
    match o.i with
    | .tLd _ d _ =>
      if mtxRuns s t.core.val && o.reqs.isEmpty then
        runCmd (mtxFinish t (modify (fun s => s.modMtx t.core.val (fun m =>
          m.setTile d.val { m.tile d.val with data := writeBytes [] 0 o.buf, full := true })))) s
      else .next s
    | _ => .next s
  | none => .next s

/-- T_ST_COMPLETE: the last status has returned; a refusal faults only now (R181, R200). -/
def execTStComplete (t : Tid) (s : State) : O :=
  match startedOp s t with
  | some o => if writesOut o.i && o.reqs.isEmpty then runCmd (mtxFinish t (mtxRefusal o)) s else .next s
  | none => .next s

/-- T_MMA_COMMIT: the working copy becomes the committed one, and the latches hold the operands (R185, R187). -/
def mmaCommit (m : MtxSt) (n : Nat) (a b : Fin 8) (w : Option AccSet) : MtxSt :=
  let m := { m with reuseA := some ⟨a, (m.tile a.val).data⟩, reuseB := some ⟨b, (m.tile b.val).data⟩ }
  match w with
  | some x => m.setAcc n x
  | none => m

def execTMmaCommit (t : Tid) (s : State) : O :=
  match startedOp s t with
  | some o =>
    match o.i with
    | .tMma _ n a b _ _ _ =>
      if mtxRuns s t.core.val then
        runCmd (mtxFinish t (modify (fun s => s.modMtx t.core.val (fun m => mmaCommit m n.val a b o.work)))) s
      else .next s
    | _ => .next s
  | none => .next s

/-- The drain's effect on maximum and capture (R194, R195). -/
def drainStats (x : CoreSt) (n : Nat) (o : DrainOut) : CoreSt :=
  let m := x.mtx
  let cum := tget halfDef m.amaxCum n
  let m := { m with amaxLast := tset halfDef m.amaxLast n o.amax, amaxCum := tset halfDef m.amaxCum n (amaxJoin cum o.amax) }
  match o.special with
  | some (el, kind) =>
    if m.special.getLsbD 31 then { x with mtx := m }
    else
      let x := { x with mtx := { m with special := specialWord n el kind } }
      if m.spEven then x.fire m.spLine.toNat else x
  | none => { x with mtx := m }

/-- T_DRAIN_COMPLETE (R189 to R195). DESIGN CHOICE (log 98): a stochastic drain adds its 128 blocks to the counter as it stands
at completion, one written since its issue included. -/
def drainDo (t : Tid) (o : MtxOp) (n d : Nat) (ds : Bool) (fuse : BitVec 2) (fs : Bool) (f : Nat) (cvm : BitVec 2) : M Unit := do
  let s ← get
  let c := t.core.val
  let m := (s.core c).mtx
  match (m.tile d).shape with
  | none => pure ()
  | some (fd, kd) => do
    let fused ← (do
      if fuse = 0 then pure []
      else match (m.tile f).shape with
        | none => pure []
        | some (ff, kf) => do
          let b ← (if fs then mtxRead t o.b o.lb else pure (readBytes (m.tile f).data 0 kf.extent))
          pure (fusedVals (writeBytes [] 0 b) ff kf))
    let s ← get
    let x := s.core c
    let rnd := cvmRnd cvm
    let rng := o.rng.getD (rngOf x.vec 4)
    let us := if rnd then draws (rngWords rng 128) else List.replicate 1024 0
    let out := drainOut (m.acc n) fd cvm us fuse.toNat fused
    let bytes := drainBytes fd kd out
    if ds then do
      let bad ← mtxWrite t o.la bytes
      if bad.isSome then mtrap .machineCheck 0 (accDetail o.a)
    else
      modify (fun s => s.modMtx c (fun m => m.setTile d { m.tile d with data := writeBytes [] 0 bytes, full := true }))
    modify (fun s => s.modCore c (fun x =>
      let x := drainStats { x with mtx := x.mtx.setAcc n {} } n out
      if rnd then { x with vec := setCtr x.vec 4 (ctrOf x.vec 4 + 128) } else x))

def execTDrainComplete (t : Tid) (s : State) : O :=
  match startedOp s t with
  | some o =>
    match o.i with
    | .tDrain _ n d ds fuse fs f cvm _ _ =>
      if mtxRuns s t.core.val then runCmd (mtxFinish t (drainDo t o n.val d.val ds fuse fs f.val cvm)) s else .next s
    | _ => .next s
  | none => .next s

end Sys2Proof.Machine
end

