-- ==== Sys2Proof/Machine/Store.lean ====
section
/-! DEFINITION. Flash, images and the boot ROM (R465 to R467), the configuration store (R468 to R470), the identity key's
indices (R472), and the records that start-up applies (R499). -/

namespace Sys2Proof.Machine

def State.modMgmt (s : State) (f : MgmtSt → MgmtSt) : State := { s with mgmt := f s.mgmt }

/-! ## Image slots -/

def imageSvn (m : MgmtSt) (slot : Bool) : Nat := imageField m slot 0x10 1

/-- Header and body of a slot's image, and the 1,776-byte signature behind them. -/
def imageBytes (m : MgmtSt) (slot : Bool) : List Byte := flashBytes m (slotBase slot) (64 + imageField m slot 4 4)
def imageSig (m : MgmtSt) (slot : Bool) : List Byte := flashBytes m (slotBase slot + 64 + imageField m slot 4 4) 1776

/-- A thermometer code of n of the 64 fuses (R461). -/
def thermo (n : Nat) : BitVec 64 := BitVec.ofNat 64 (2 ^ min 64 n - 1)

/-- The fuses that are blown: at manufacture, or since. -/
def svnFuses (m : MgmtSt) : BitVec 64 := thermo Config.minSvn.val ||| m.fuses

/-- MIN_SVN: the fuses that are blown. -/
def minSvnOf (m : MgmtSt) : Nat := ((countFrom 0 64).filter (fun i => (svnFuses m).getLsbD i)).length

/-- The key carried with an image is the one whose digest the OTP holds, and verifies its signature (R467). -/
def imageSigned (m : MgmtSt) (slot : Bool) : Bool :=
  let key := Config.imageKey (flashBytes m (slotBase slot) slotBytes)
  decide (key.length = 60) && decide (Config.sha256 key = Config.otpKeyDigest)
  && Config.hssVerify key (imageBytes m slot) (imageSig m slot)

/-- The boot ROM accepts the slot's image (R467). -/
def accepts (m : MgmtSt) (slot : Bool) : Bool :=
  decide (imageField m slot 0 4 = 0x5646574D) && decide (64 + imageField m slot 4 4 + 1776 ≤ slotBytes)
  && imageSigned m slot && decide (imageSvn m slot ≤ 64) && decide (minSvnOf m ≤ imageSvn m slot)

/-- A sector is erased. -/
def sectorErase (m : MgmtSt) (k : Nat) : MgmtSt :=
  { m with flash := m.flash.filter (fun p => decide (p.1 / sectorBytes ≠ k)), erased := tset boolDef m.erased k true }

/-- Bytes are written. -/
def flashPut (m : MgmtSt) (a : Nat) (b : List Byte) : MgmtSt :=
  let put := fun (t : Table Byte) (p : Nat × Byte) => tset (flashDef m) t (a + p.1) p.2
  { m with flash := ((countFrom 0 b.length).zip b).foldl put m.flash }

/-- Erase a sector that FW_WRITE touches for the first time since the boot (R471). -/
def flashErase (m : MgmtSt) (k : Nat) : MgmtSt :=
  if tget boolDef m.touched k then m else { sectorErase m k with touched := tset boolDef m.touched k true }

def flashWrite (m : MgmtSt) (a : Nat) (b : List Byte) : MgmtSt :=
  flashPut ((countFrom (a / sectorBytes) ((a + b.length - 1) / sectorBytes + 1 - a / sectorBytes)).foldl flashErase m) a b

/-! ## Configuration store -/

def noBytes (_ : Nat) : List Byte := []

/-- A record as the payload holds it: type, length, value filled up to a multiple of 8 (R470). -/
def recordBytes (ty : Nat) (v : List Byte) : List Byte :=
  leBytes 2 ty ++ leBytes 2 v.length ++ padTo 0 ((v.length + 7) / 8 * 8) v

/-- The payload of a store's records, unknown types among them. DESIGN CHOICE (log 24): in ascending order of type. -/
def storePayload (t : Table (List Byte)) : List Byte := t.flatMap (fun p => recordBytes p.1 p.2)

/-- The records of a payload; `f`: as many as fit. Of two of one type the later counts (log 24). -/
def payloadStore : Nat → List Byte → Table (List Byte)
  | 0, _ => []
  | f + 1, b =>
    if b.length < 4 then []
    else
      let n := leNat (slice b 2 2)
      let t := payloadStore f (b.drop (4 + (n + 7) / 8 * 8))
      let ty := leNat (b.take 2)
      if (tget noBytes t ty).isEmpty then tset noBytes t ty (slice b 4 n) else t

/-- A bank's header (R468). -/
def bankHeader (seq : Nat) (payload : List Byte) : List Byte :=
  let h := leBytes 4 0x56434653 ++ leBytes 4 payload.length ++ leBytes 8 seq
  h ++ leBytes 4 (crc32c (h ++ payload)).toNat ++ List.replicate 12 0

/-- A bank's sequence number and payload, when it is valid: magic, LEN, check word and zero bytes are right (R468). -/
def bankRead (m : MgmtSt) (bank : Bool) : Option (Nat × List Byte) :=
  let h := flashBytes m (bankBase bank) 32
  let n := leNat (slice h 4 4)
  if 65504 < n then none
  else
    let p := flashBytes m (bankBase bank + 32) n
    let seq := leNat (slice h 8 8)
    if h = bankHeader seq p then some (seq, p) else none

/-- The bank that is current at boot: the valid one with the larger SEQ, bank 0 of two that are equal. -/
def bankChoice (m : MgmtSt) : Option (Bool × Nat × List Byte) :=
  match bankRead m false, bankRead m true with
  | some (n, p), some (k, q) => if n < k then some (true, k, q) else some (false, n, p)
  | some (n, p), none => some (false, n, p)
  | none, some (k, q) => some (true, k, q)
  | none, none => none

/-- The store as the boot ROM reads it; without a valid bank it is empty and STORE_OK 0 (R468). -/
def storeLoad (m : MgmtSt) : MgmtSt :=
  match bankChoice m with
  | some (b, n, p) => { m with store := payloadStore p.length p, bank := b, seq := n, storeOk := true }
  | none => { m with store := [], bank := false, seq := 0, storeOk := false }

/-- A record's value; none when it is absent. A SERIAL that is not the OTP's does not count (R470). -/
def storeGet? (m : MgmtSt) (ty : Nat) : Option (List Byte) :=
  if ty = 1 then some (leBytes 8 Config.serial.toNat)
  else match tget noBytes m.store ty with
    | [] => none
    | b => some b

/-- The bank that is not current takes the payload and its header, CRC last (R469). -/
def bankWrite (m : MgmtSt) (t : Table (List Byte)) : MgmtSt :=
  let b := !m.bank
  let p := storePayload t
  flashPut (flashPut (sectorErase m (bankBase b / sectorBytes)) (bankBase b + 32) p) (bankBase b) (bankHeader ((m.seq + 1) % 2 ^ 64) p)

/-- Write a record (R469): the read-back is tried twice; after a second failure the former bank stays current and the other,
whose check fails, is left erased. A payload of more bytes than LEN may say does not pass the check (log 24). -/
def storeWrite (s : State) (ty : Nat) (v : List Byte) : Bool × State :=
  let ok1 := Config.storeReads s.fresh
  let fits := decide ((storePayload (tset noBytes s.mgmt.store ty v)).length ≤ 65504)
  let ok := fits && (ok1 || Config.storeReads (s.fresh + 1))
  let s := { s with fresh := if ok1 then s.fresh + 1 else s.fresh + 2 }
  if ok then
    (true, s.modMgmt (fun m =>
      let t := tset noBytes m.store ty v
      { bankWrite m t with store := t, bank := !m.bank, seq := (m.seq + 1) % 2 ^ 64, storeOk := true }))
  else (false, s.modMgmt (fun m => { sectorErase m (bankBase (!m.bank) / sectorBytes) with storeOk := false }))

/-- The BOOT record: active slot and trial. -/
def bootRec (m : MgmtSt) : Bool × Nat :=
  match tget noBytes m.store 2 with
  | [] => (false, 0)
  | b => (decide ((lget 0 b 0).toNat % 2 = 1), (lget 0 b 1).toNat)

def writeBoot (s : State) (slot : Bool) (trial : Nat) : State := (storeWrite s 2 [BitVec.ofNat 8 (b2n slot), BitVec.ofNat 8 trial]).2

/-! ## The identity key (R472) -/

/-- The 60-byte HSS public key: two levels, the top tree's key. -/
def identityKey : List Byte := [0, 0, 0, 2] ++ padTo 0 56 (Config.lmsPublic Config.otpSeed 0)

/-- A CHILD record: q1, the child tree's public key, its signature with top leaf q1. -/
def childRecord (q1 : Nat) : List Byte :=
  let key := padTo 0 56 (Config.lmsPublic Config.otpSeed (q1 + 1))
  leBytes 4 q1 ++ key ++ padTo 0 1772 (Config.lmsSign Config.otpSeed 0 q1 key)

/-- A signature of 3,604 bytes under index q: one signed key, the top tree's signature of it, the key itself, the child tree's
signature of the message with leaf q mod 2^20, as the standard orders them. The child's are those of the CHILD record. -/
def identitySign (child : List Byte) (q : Nat) (msg : List Byte) : List Byte :=
  [0, 0, 0, 1] ++ slice child 60 1772 ++ slice child 4 56
  ++ padTo 0 1772 (Config.lmsSign Config.otpSeed (q / 2 ^ 20 + 1) (q % 2 ^ 20) msg)

def leafNext? (m : MgmtSt) : Nat := leNat ((storeGet? m 3).getD [])

/-- No index is left. -/
def leafOut (m : MgmtSt) : Bool := decide (2 ^ 40 ≤ m.leafNext)

/-- Reserve 1,024 more indices; none are left at 2^40. Without the write signing stops; at the end of the indices it is over. -/
def leafReserve (s : State) : State :=
  let n := leafNext? s.mgmt
  if 2 ^ 40 ≤ n then s.modMgmt (fun m => { m with leafEnd := n, signOk := !leafOut m })
  else
    let (ok, s) := storeWrite s 3 (leBytes 8 (n + 1024))
    s.modMgmt (fun m => if ok then { m with leafEnd := n + 1024, signOk := true } else { m with signOk := false })

/-- The firmware starts: its first index is the record's NEXT. -/
def leafStart (s : State) : State := leafReserve (s.modMgmt (fun m => { m with leafNext := leafNext? m, leafEnd := leafNext? m }))

/-- The child tree of an index: its record is written before its first use. -/
def leafChild (s : State) (q : Nat) : Bool × State :=
  let q1 := q / 2 ^ 20
  if ((storeGet? s.mgmt 4).map (fun b => leNat (b.take 4))) = some q1 then (true, s)
  else storeWrite s 4 (childRecord q1)

/-- What a request for a signature meets. -/
inductive SignRes where
  | sig (b : List Byte)
  | busy
  | exhausted

/-- Sign with the next index; a request that finds signing stopped is answered Busy, and the write is tried again. -/
def signNext (s : State) (msg : List Byte) : SignRes × State :=
  if leafOut s.mgmt then (.exhausted, s)
  else if !s.mgmt.signOk then (.busy, leafReserve s)
  else
    let s := if s.mgmt.leafEnd ≤ s.mgmt.leafNext then leafReserve s else s
    if !s.mgmt.signOk then (.busy, s)
    else
      let q := s.mgmt.leafNext
      match leafChild s q with
      | (false, s) => (.busy, s)
      | (true, s) =>
        let sig := identitySign ((storeGet? s.mgmt 4).getD []) q msg
        let s := s.modMgmt (fun m => { m with leafNext := q + 1, signOk := decide (q + 1 < 2 ^ 40) })
        let s := if s.mgmt.leafEnd - (q + 1) ≤ 256 ∧ leafNext? s.mgmt < 2 ^ 40 then leafReserve s else s
        (.sig sig, s)

/-! ## Booting (R467) -/

/-- The management firmware of a slot runs. -/
def runSlot (s : State) (slot trial : Bool) : State :=
  leafStart (s.modMgmt (fun m =>
    { m with fwRun := true, fwStarted := true, recovery := false, slot := slot, trial := trial, touched := []
             svn := BitVec.ofNat 8 (imageSvn m slot) }))

/-- The controller stays in the boot ROM (R467): no firmware runs, nothing is signed. -/
def recoveryRom (s : State) : State :=
  s.modMgmt (fun m => { m with fwRun := false, recovery := true, trial := false, signOk := false, svn := 0 })

/-- The boot ROM: it reads the store; the preferred slot, else the other, else recovery. -/
def bootRom (s : State) : State :=
  let s := s.modMgmt (fun m => { storeLoad m with minSvn := BitVec.ofNat 8 (minSvnOf m) })
  let (active, trial) := bootRec s.mgmt
  let pref := if trial = 2 then !active else active
  let s := if trial = 2 then writeBoot s pref 0 else if trial = 1 then writeBoot s pref 2 else s
  if accepts s.mgmt pref then runSlot s pref (decide (trial = 1))
  else if accepts s.mgmt (!pref) then runSlot (writeBoot s (!pref) 0) (!pref) false
  else recoveryRom s

/-- A trial image has set READY: it stays, and fuses raise MIN_SVN to its SVN (R467). -/
def trialPassed (s : State) : State :=
  if !s.mgmt.trial then s
  else
    let s := writeBoot s s.mgmt.slot 0
    s.modMgmt (fun m =>
      let m := { m with trial := false, fuses := m.fuses ||| thermo m.svn.toNat }
      { m with minSvn := BitVec.ofNat 8 (minSvnOf m) })

/-! ## Records of start-up (R499) -/

/-- The slice map of a SLICEMAP value: words 0 to 2 and N, when it passes R326. -/
def sliceMapRec (b : List Byte) : Option SliceMap :=
  let w := fun (i : Nat) => leNat (slice b (4 * i) 4)
  let v := w 0 + w 1 * 2 ^ 32 + w 2 * 2 ^ 64
  if b.length = 16 ∧ sliceMapOk v (w 3) then some { bits := BitVec.ofNat 80 v, n := w 3 } else none

/-- Routing entries one after another; none when one is refused (R419). -/
def routesGo (col : Bool) : Nat → List Nat → State → Option State
  | _, [], s => some s
  | i, l :: ls, s =>
    if l = 0 then routesGo col (i + 1) ls s
    else if 2 ^ 48 ≤ l ∨ (routeBad s col i l).isSome then none
    else routesGo col (i + 1) ls (setRoute s col i l)

/-- A LATIGO value: LAT_ID, three LAT_GROUP, 25 row and 25 column entries, each at its register's width (log 23). -/
def latigoRec (s : State) (b : List Byte) : Option State :=
  let id := leNat (slice b 0 4)
  let g := fun (i : Nat) => leNat (slice b (4 + 4 * i) 4)
  let ents := fun (o : Nat) => (countFrom 0 25).map (fun i => leNat (slice b (o + 8 * i) 8))
  if b.length ≠ 416 ∨ !isDevice id ∨ (countFrom 0 3).any (fun i => decide (7 < g i % 2 ^ 31) || decide (g i % 4 = 3)) then none
  else
    let grp := fun (t : Table LatGroup) (i : Nat) => tmod groupDef t i (fun x => { x with fmt := bitOf (g i) 2, rate := BitVec.ofNat 2 (g i) })
    let lat := { s.lat with id := BitVec.ofNat 10 id, groups := (countFrom 0 3).foldl grp s.lat.groups, rows := [], cols := [] }
    (routesGo false 0 (ents 16) { s with lat := lat }).bind (routesGo true 0 (ents 216))

/-- Where a unit type stands in the fence record of R475: its first byte. -/
def fenceByte (u : Nat) : Nat := lget 0 [0, 113, 64, 80, 88, 96, 112] u

/-- All units that can be fenced. -/
def allUnits : List (Nat × Nat) := (countFrom 0 7).flatMap (fun u => (countFrom 0 (unitCount u)).map (fun n => (u, n)))

/-- The units that a FENCE value names. -/
def fenceRec (b : List Byte) : List (Nat × Nat) :=
  allUnits.filter (fun p => (lget 0 b (fenceByte p.1 + p.2 / 8)).getLsbD (p.2 % 8))

/-- Every bit of a FENCE value names a unit. -/
def namesUnits (b : List Byte) : Bool :=
  let t := (fenceRec b).foldl (fun (t : Table Nat) p => tmod natDef t (fenceByte p.1 + p.2 / 8) (· + 2 ^ (p.2 % 8))) []
  decide (b = (countFrom 0 121).map (fun i => BitVec.ofNat 8 (tget natDef t i)))

/-- A FENCE value passes the checks of FENCE (R499, R507): it names units only, and no plane that is the last unfenced one. -/
def fenceRecOk (s : State) (b : List Byte) : Bool :=
  let planes := ((fenceRec b).filter (fun p => decide (p.1 = 6) && !unitMark s 6 p.2)).map (·.2)
  namesUnits b && (planes.isEmpty || (countFrom 0 4).any (fun p => !planes.contains p && !unitMark s 6 p))

/-- The fence record of QUERY item 6. -/
def fenceBytes (s : State) : List Byte :=
  let t := (allUnits.filter (fun p => unitMark s p.1 p.2)).foldl (fun (t : Table Nat) p =>
    tmod natDef t (fenceByte p.1 + p.2 / 8) (· + 2 ^ (p.2 % 8))) []
  (countFrom 0 128).map (fun i => BitVec.ofNat 8 (tget natDef t i))

end Sys2Proof.Machine
end

