-- ==== Sys2Proof/Machine/Reset.lean ====
section
/-! DEFINITION. Start-up and the reset levels (R494 to R504, R396, R412, R436). -/

namespace Sys2Proof.Machine

/-! ## Device cold reset -/

/-- What the controller keeps without power: OTP and flash. -/
def keptMgmt (m : MgmtSt) : MgmtSt :=
  { flash := m.flash, erased := m.erased, fuses := m.fuses }

/-- The part with every block reset (R502); what has left the part stays with the world. -/
def coldState (s : State) : State :=
  { State.reset with mgmt := keptMgmt s.mgmt, outbox := s.outbox, nextId := s.nextId, fresh := s.fresh, pending := s.pending }

/-- DEVICE_COLD_RESET: stages 1 to 4 of R497. Either cause restarts the controller (R496). -/
def execDeviceColdReset (pin : Bool) (s : State) : O :=
  match pin with
  | true | false => .next (bootRom (coldState s))

/-- The command processor starts: READY rises; a trial image has proved itself (R467, R497). -/
def startCp (s : State) : State := trialPassed (setReady (s.modMgmt (fun m => { m with booted := true })))

/-- A unit that fails its stage is fenced (R498). -/
def failUnit (s : State) (u n : Nat) : State :=
  if n < unitCount u ∧ !unitMark s u n then startFence s u n else s

/-- Stage 5: stacks train, their slices are zeroed. A stack that fails stays without memory. -/
def trainStack (failed : List Nat) (s : State) (t : Nat) : State :=
  if failed.contains t then failUnit s 3 t
  else s.modStack t (fun x => { x with mem := {}, skv := { x.skv with buf := {} }, clkOk := true, ready := true })

/-- Stages 6 and 7: routers, planes and cores that fail their self-tests are fenced (R498). -/
def selfTests (failedClusters failedPlanes failedCores : List Nat) (s : State) : State :=
  let s := failedClusters.foldl (fun s k => failUnit s 1 k) s
  let s := failedPlanes.foldl (fun s p => failUnit s 6 p) s
  failedCores.foldl (fun s c => failUnit s 0 c) s

/-- Stage 7 of a cold start-up: a core's registers are in the core-reset state and its scratchpad is zero; debug registers and marks
stay (R497, R503, R504). -/
def coldCore (x : CoreSt) : CoreSt := { (coreDef 0) with dbg := x.dbg, fenced := x.fenced, hardFence := x.hardFence }

def coldCores (s : State) : State :=
  { s with cores := (s.cores.map (fun p => (p.1, coldCore p.2))).filter (fun p => decide (p.2 ≠ coreDef p.1)) }

/-- Stage 8: the FENCE record, then the first calibration of every pacer, whose trim is free (R33). -/
def applyFence (s : State) : State :=
  match storeGet? s.mgmt 6 with
  | some b =>
    if fenceRecOk s b then (fenceRec b).foldl (fun s p => if unitMark s p.1 p.2 then s else fenceUnit s p.1 p.2) s else s
  | none => s

/-- Stage 8: every pacer is calibrated, within R33; the trim is free (R497). -/
def stageCal (s : State) (k : Nat) : State :=
  let (w, s) := drawFree s
  s.modCluster k (calibrate s.mgmt.time (w.truncate 16))

/-- Stage 9: the SLICEMAP and LATIGO records, each only if it passes its checks (R499). -/
def applyRecords (s : State) : State :=
  let s := match (storeGet? s.mgmt 5).bind sliceMapRec with
    | some m => { s with smap := m }
    | none => s
  ((storeGet? s.mgmt 7).bind (latigoRec s)).getD s

/-- STACK_TRAINING: stages 5 to 9, with the units that fail their stages. -/
def execStackTraining (failedStacks failedClusters failedPlanes failedCores : List Nat) (s : State) : O :=
  if !s.mgmt.fwRun ∨ s.mgmt.booted ∨ s.pwr.state = 3 then .next s
  else
    let s := setVdd s (fun _ => 750)
    let s := s.setPwr (fun p => { p with vddTarget := p.vdd })
    let s := (countFrom 0 20).foldl (trainStack failedStacks) s
    let s := coldCores (selfTests failedClusters failedPlanes failedCores s)
    let s := s.modMgmt (fun m => { m with trained := true })
    .next (serveWaits (startCp (applyRecords ((countFrom 0 64).foldl stageCal (applyFence s)))))

/-! ## Device warm reset (R501, R502) -/

/-- A core after a device warm reset: its debug registers, cinch configuration and reset cause go too (R136, R518). -/
def warmCore (x : CoreSt) : CoreSt := { resetCore x with dbg := {}, resetCause := 0, cinch := [] }

/-- A cluster: fabric registers, cinch configuration and pace reset (R37); pacer, hint and mark stay. -/
def warmCluster (x : ClusterSt) : ClusterSt :=
  { pacer := x.pacer, pacerHi := x.pacerHi, cal := x.cal, trim := x.trim
    calOnce := x.calOnce, calTime := x.calTime, rampSince := x.rampSince, hintUp := x.hintUp, fenced := x.fenced }

/-- A slice: memory, marks, refresh and the host's lines stay; skiver, buckets and records go (R365, R396, R412). -/
def warmSlice (x : SliceSt) : SliceSt :=
  { x with ceCnt := 0, ueCnt := 0, skv := skvReset x.skv, stb := {}, rtb := {}, swin := 0x000A, sretryMax := 4, sretryTimeout := 0x1E8, remote := [] }

/-- A link retrains with the values kept (R419). -/
def warmLink (x : LinkSt) : LinkSt := { x with st := 0, lanes := 0, stage := 0, laneOff := 0, egress := [] }

def mapTable [DecidableEq α] (d : Nat → α) (f : α → α) (n : Nat) (t : Table α) : Table α :=
  (countFrom 0 n).foldl (fun t k => tset d t k (f (tget d t k))) t

/-- Telemetry hears of every link whose state has changed (R416). -/
def linksTold (old s : State) : State := (countFrom 0 48).foldl (linkTold old) s

/-- The state that a device warm reset leaves, the command processor stopped. The management controller keeps the requests that it
has received whole (R502). -/
def warmState (s : State) : State :=
  let links := mapTable linkDef warmLink 48 s.lat.links
  linksTold s { dropWaiting s with
    cores := mapTable coreDef warmCore 512 s.cores
    clusters := mapTable clusterDef warmCluster 64 s.clusters
    slices := mapTable sliceDef warmSlice 80 s.slices
    fabric := { planeFenced := s.fabric.planeFenced }
    lat := { s.lat with links := links, parts := [], fwd := [], gang := [] }
    root := []
    msgs := []
    waits := []
    cp := {}
    host := { s.host with ready := false, mailIn := none, mailQueue := [], mailOut := none, mailWait := [], ring := {}, waiting := [] }
    mgmt := { s.mgmt with parts := [], booted := false }
    pwr := { s.pwr with state := 0, target := 0, busy := false, vdd := s.pwr.vddTarget } }

/-- A device cold start-up is in progress: it has not come to recovery, nor to stage 5 (R495). -/
def coldRuns (s : State) : Bool := !s.mgmt.booted && !s.mgmt.recovery && !s.mgmt.trained

/-- The controller boots again, in the ROM (R501): what it had received is gone. -/
def rebootRom (s : State) : State := bootRom (s.modMgmt (fun m => { m with fwRun := false, reqs := [] }))

/-- A device warm reset: stages 6 to 9 without stored records, with the units that fail their self-tests; with BOOT's trial
at 1 the controller boots again. It is absorbed by a cold start-up and has no effect in OFF-RAILS (R495, R496, R501). Where a cold
start-up ended in recovery and firmware starts now, its stages 5 to 9 follow (log 104). -/
def warmReset (failedClusters failedPlanes failedCores : List Nat) (s : State) : State :=
  if s.pwr.state = 3 ∨ coldRuns s then s
  else
    let s := warmState s
    let s := if (bootRec s.mgmt).2 = 1 then rebootRom s else s
    if s.mgmt.fwRun ∧ s.mgmt.trained then
      startCp ((countFrom 0 64).foldl stageCal (selfTests failedClusters failedPlanes failedCores s))
    else s

/-- DEVICE_WARM_RESET, with the units that fail their self-tests: none unless they are given. -/
def execDeviceWarmReset (s : State) (failedClusters failedPlanes failedCores : List Nat := []) : O :=
  .next (warmReset failedClusters failedPlanes failedCores s)
/-- CXL_RESET (R436). -/
def execCxlReset (s : State) (failedClusters failedPlanes failedCores : List Nat := []) : O :=
  .next (warmReset failedClusters failedPlanes failedCores s)

/-! ## Host domain -/

/-- The command processor's own messages at a host-domain reset: those that have not set out are discarded, nobody takes the
status of the others, and its slots end (R262, R380). -/
def cpMsgsEnd (s : State) : State :=
  let mine := fun (m : Msg) => decide (m.sender = .cp s.lat.id.toNat)
  let s := { s with msgs := s.msgs.filterMap (fun m =>
    if !mine m then some m
    else if m.status.isSome || m.unsent s || m.away s then none
    else some { m with lost := true }) }
  clearSlots s portCp

/-- HOST_DOMAIN_RESET: link, configuration, HIF_ registers, rings and mailbox go; a running command processor starts
again; streams, what waits at the injection port and the management controller's requests stay (R23, R27, R436, R502). A cold
start-up in progress absorbs it (R495). -/
def execHostDomainReset (s : State) : O :=
  if s.pwr.state = 3 ∨ coldRuns s then .next s
  else
    let c := s.cp
    let cp : CpSt := { inj := c.inj, streams := c.streams, nextSeq := c.nextSeq, bucket := c.bucket, outOfService := c.outOfService,
                       injWait := c.injWait, rootOut := c.rootOut, portOut := c.portOut, toMgmt := some {} }
    let s := cpMsgsEnd s
    let slices := s.slices.map (fun (p : Nat × SliceSt) => (p.1, { p.2 with dir := [] }))
    let mgmt := { s.mgmt with parts := [] }
    let waits := s.waits.filter (fun w => !w.isHost)
    let s1 : State := { dropWaiting s with host := {}, cp := cp, mgmt := mgmt, slices := slices.filter (fun p => decide (p.2 ≠ {})), waits := waits }
    .next (if s.mgmt.booted && !c.outOfService then setReady s1 else s1)

/-- The highest rate of a mode (R421). -/
def modeRate (mode : Nat) : Nat := match mode with | 1 | 4 => 6 | 2 | 3 | 5 => 5 | _ => 4

/-- HOST_LINK_TRAINED (R421, R500): the mode is the first of the table that the partner accepts; its rate, or a lower one by
speed fallback. -/
def execHostLinkTrained (mode : Fin 7) (width : BitVec 5) (rate : BitVec 3) (s : State) : O :=
  if mode.val = 0 ∨ !([1, 2, 4, 8, 16].contains width.toNat) ∨ !inRange 1 (modeRate mode.val) rate.toNat then .next s
  else if s.pwr.state = 3 ∨ s.cp.portOut then .next s
  else
    let h := { s.host with mode := BitVec.ofNat 3 mode.val, width := width, rate := rate }
    .next (hostLinks { s with host := h })

/-! ## Cluster and core (R494, R503) -/

/-- CLUSTER_RESET: by the management plane, while the cluster is fenced. -/
def execClusterReset (k : Fin 64) (s : State) : O :=
  if !s.mgmt.fwRun ∨ s.pwr.state = 3 ∨ coldRuns s ∨ !(s.cluster k.val).fenced then .next s
  else
    let s := ((countFrom (8 * k.val) 8).foldl State.resetCoreAt s).setHint k.val false
    .next (s.modCluster k.val (fun x => { x with paceValid := false, pace := 0 }))

/-- CORE_RESET: by the management plane, while the core is fenced. -/
def execCoreReset (c : Fin 512) (s : State) : O :=
  if !s.mgmt.fwRun ∨ s.pwr.state = 3 ∨ coldRuns s ∨ !s.coreFenced c.val then .next s else .next (s.resetCoreAt c.val)

/-- MANAGEMENT_POWER_LOSS: nothing runs until the next device cold reset; OTP and flash stay (R469). -/
def execManagementPowerLoss (s : State) : O :=
  let p : PwrSt := { state := 3, target := 3 }
  .next { coldState s with pwr := p }

end Sys2Proof.Machine
end

