-- ==== Sys2Proof/Machine/Mgmt.lean ====
section
/-! DEFINITION. The plane mailbox (R26, R463), management and debug requests (R471, R513), SPDM (R473), MCTP and JTAG
(R464), telemetry and query records (R474, R475), the BMC's reads (R542). -/

namespace Sys2Proof.Machine

/-! ## The plane mailbox (R26) -/

def putMgmt (s : State) (m : MailMsg) : State :=
  if s.cp.toMgmt.isNone then { s with cp := { s.cp with toMgmt := some m } }
  else { s with cp := { s.cp with mgmtWait := s.cp.mgmtWait ++ [m] } }

/-- A message's pieces of at most 256 bytes. -/
def piecesOf (o : MgmtOrigin) (sub : Nat) (b : List Byte) : List MailMsg :=
  let n := (b.length + 255) / 256
  (countFrom 0 (max 1 n)).map (fun i => { o := some o, sub := sub, bytes := slice b (256 * i) 256, last := decide (n ≤ i + 1) })

/-- MAILBOX_SEND: a sender that finds its slot full waits, in order (R26). More than 256 bytes are no message (log 88). -/
def execMailboxSend (d : MailDir) (bytes : List Byte) (s : State) : O :=
  if 256 < bytes.length then .next s
  else match d with
    | .toMgmt => .next (if s.cpUp then putMgmt s { bytes := bytes } else s)
    | .toCp => .next (if s.mgmt.fwRun then putCp s { bytes := bytes } else s)

/-- Where a response goes: the sideband's to the BMC, the others through the mailbox. -/
def respond (s : State) (o : MgmtOrigin) (b : List Byte) : State :=
  match o with
  | .smbus => s.toBmc b
  | _ => (piecesOf o 0 b).foldl putCp s

/-- A key request's response (R471): code, status, zero, payload. -/
def respondKey (s : State) (o : MgmtOrigin) (code st : Nat) (b : List Byte) : State :=
  respond s o (leBytes 2 code ++ [BitVec.ofNat 8 st, 0] ++ b)

/-- The payload has the form of its request code. -/
def keyReqOk (code : Nat) (b : List Byte) : Bool :=
  let n := b.length
  match code with
  | 1 | 2 | 4 => decide (n = 0)
  | 3 => decide (8 ≤ n) && decide (leNat (slice b 4 4) = n - 8)
  | 5 => decide (n = 2)
  | 6 => decide (2 ≤ n)
  | 0x10 => decide (n = 12) && decide (leNat (slice b 2 2) = 0)
  | 0x11 => decide (12 ≤ n) && decide (leNat (slice b 2 2) = 0) && decide (leNat (slice b 8 4) = n - 12)
  | _ => false

/-! ## The controller's queue (R463) -/

/-- SPDM's request codes, of the requests of R473. -/
def cVersion : Byte := 0x84
def cCapabilities : Byte := 0xE1
def cAlgorithms : Byte := 0xE3
def cDigests : Byte := 0x81
def cCertificate : Byte := 0x82
def cChallenge : Byte := 0x83
def cMeasurements : Byte := 0xE0
def cKeyExchange : Byte := 0xE4
def cFinish : Byte := 0xE5
def cKeyUpdate : Byte := 0xE9
def cHeartbeat : Byte := 0xE8
def cEndSession : Byte := 0xEC
/-- A vendor-defined request, which carries IDE_KM. -/
def cVendor : Byte := 0xFE

def spdmCodes : List Byte :=
  [cVersion, cCapabilities, cAlgorithms, cDigests, cCertificate, cChallenge, cMeasurements, cKeyExchange, cFinish, cKeyUpdate,
   cHeartbeat, cEndSession]

/-- What a request asks for: a key request's bytes, an SPDM request's code and operands. -/
def reqForm (r : MgmtReq) : List Byte :=
  match r.o with
  | .mailbox _ | .doe => if r.sub = 2 then r.bytes else Config.spdmRequest r.sub r.bytes
  | .smbus | .vdm => r.bytes

/-- A key request of no code or form of R471 and R513. -/
def reqBad (r : MgmtReq) : Bool :=
  decide (r.sub = 2) && (decide (r.bytes.length < 4) || decide (leNat (slice r.bytes 2 2) ≠ 0)
    || !keyReqOk (leNat (r.bytes.take 2)) (r.bytes.drop 4))

/-- An SPDM error response (log 25). -/
def spdmError (code : Nat) : List Byte := [0x13, 0x7F, BitVec.ofNat 8 code, 0]
def errInvalid : Nat := 1
def errSession : Nat := 2
def errBusy : Nat := 3
def errUnexpected : Nat := 4
def errUnspecified : Nat := 5
def errUnsupported : Nat := 7

/-- A link key reaches the host port: IDE_KM programs a key, starts its stream with it, or stops the stream (R420, R424, R473). -/
def ideKey (s : State) (b : List Byte) : State :=
  let (kind, stream, key) := Config.ideKm b
  let h := s.host
  let go := fun (on : Bool) => match stream with
    | 0 => { h with ideIo := on, ideInsecure := h.ideInsecure && !on }
    | 1 => { h with ideSel := on, selInsecure := h.selInsecure && !on }
    | _ => { h with ideCm := on, cmInsecure := h.cmInsecure && !on }
  match kind with
  | 1 => if key.length = 32 ∧ stream < 3 then { s with host := { h with ideKeys := tset noBytes h.ideKeys stream key } } else s
  | 2 => if stream < 3 ∧ !(tget noBytes h.ideKeys stream).isEmpty then { s with host := go true } else s
  | 3 => if stream < 3 then { s with host := go false } else s
  | _ => s

/-- A vendor-defined request: IDE_KM, in the finished session only. -/
def vendorRequest (s : State) (o : MgmtOrigin) (sub : Nat) (b : List Byte) : State :=
  let x := s.mgmt.spdm
  if x.session.isSome && x.finished && decide (sub = 1 ∨ o = .doe) then respond (ideKey s b) o (Config.standardAnswer 49 b)
  else respond s o (spdmError errSession)

/-- What no row of the table performs, answered at its turn; none: the request is a row's. -/
def reqOther (s : State) (r : MgmtReq) : Option State :=
  if r.sub = 2 then
    if reqBad r then some (respondKey s r.o (leNat (r.bytes.take 2)) 1 []) else none
  else
    let code := lget 0 (reqForm r) 0
    match r.o with
    | .mailbox _ | .doe =>
      if spdmCodes.contains code then none
      else if code = cVendor then some (vendorRequest s r.o r.sub (reqForm r).tail)
      else some (respond s r.o (spdmError errUnsupported))
    | _ => none

/-- The controller performs its requests in order (R463), as far as the next that a row of the table stands for. -/
def manage : Nat → State → State
  | 0, s => s
  | f + 1, s =>
    match s.mgmt.reqs with
    | [] => s
    | r :: rest =>
      match reqOther (s.modMgmt (fun m => { m with reqs := rest })) r with
      | some s => manage f s
      | none => s

def State.manage (s : State) : State := Machine.manage s.mgmt.reqs.length s

/-- A complete request waits its turn. -/
def takeRequest (s : State) (r : MgmtReq) : State := (s.modMgmt (fun m => { m with reqs := m.reqs ++ [r] })).manage

/-- A piece reaches the controller. -/
def pieceToMgmt (s : State) (m : MailMsg) : State :=
  match m.o with
  | none => s
  | some o =>
    let old := ((s.mgmt.parts.find? (fun r => decide (r.o = o))).map (·.bytes)).getD []
    let r : MgmtReq := { o := o, sub := m.sub, bytes := old ++ m.bytes }
    let s := s.modMgmt (fun x => { x with parts := x.parts.filter (fun r => decide (r.o ≠ o)) })
    if m.last then takeRequest s r else s.modMgmt (fun x => { x with parts := x.parts ++ [r] })

/-- Write bytes at a command address, block by block: bytes done and the first refusal. -/
def putSpan (n : Nat) (data : List Byte) (ext : ExtAns) : Nat → Nat → M (Nat × Option (Status × Nat))
  | 0, i => pure (i, none)
  | f + 1, i => do
    if data.length ≤ i then pure (data.length, none)
    else do
      let a := n + i
      let k := min (data.length - i) (copyGrain a - cAddr a % copyGrain a)
      let st ← cpWrite a (slice data i k) ext
      if st ≠ .ok then pure (i, some (st, a)) else putSpan n data ext f (i + k)

/-- Write a record or a response and reply with the bytes written and its length; `fresh`: nothing has happened before. -/
def putReply (c : Cmd) (dst : Nat) (data : List Byte) (limit : Nat) (fresh : Bool) (ext : ExtAns) : M Unit := do
  let b := data.take limit
  let s ← get
  let (n, e) ← putSpan dst b ext b.length 0
  let s' ← get
  match e with
  | some (st, a) => accessEnd c (fresh && decide (n = 0) && untouched s s') n st a
  | none => done c cOk (BitVec.ofNat 64 b.length) (BitVec.ofNat 64 data.length)

/-- A piece reaches the command processor: a response of MGMT_REQUEST is written when it is whole, others go on to the
host. A posted write of the response needs no answer; one through the aperture meets a free one. None: the response cannot
be written yet, and stays in the slot. -/
def pieceToCp (s : State) (m : MailMsg) : Option State :=
  let s := match m.notice with
    | some n => s.notify n
    | none => s
  let s := match m.done with
    | some (id, st, r0, r1) => finishCmd s id st r0 r1
    | none => s
  match m.o with
  | none => some s
  | some (.mailbox id) =>
    match s.cmd id with
    | none => some s
    | some c =>
      let b := c.rsp ++ m.bytes
      if !m.last then some (s.modCmd id (fun c => { c with rsp := b }))
      else
        let (e, s) := freeExt 0 s
        match runM (putReply c (c.n 3) b (c.n 4) false (if cSpace (c.n 3) = 2 then ⟨.ok, []⟩ else e)) s with
        | (.ok _, s') => some s'
        | (.error _, _) => none
  | some o => some <| s.out (.mgmtReply o (b2n m.last) m.bytes)

/-- MAILBOX_RECEIVE: the receiver reads its slot; the next waiting sender fills it. -/
def execMailboxReceive (d : MailDir) (s : State) : O :=
  match d with
  | .toMgmt =>
    match s.cp.toMgmt, s.mgmt.fwRun with
    | some m, true =>
      let cp := { s.cp with toMgmt := s.cp.mgmtWait.head?, mgmtWait := s.cp.mgmtWait.tail }
      .next (pieceToMgmt { s with cp := cp } m)
    | _, _ => .next s
  | .toCp =>
    match s.cp.toCp with
    | some m =>
      if !s.cpUp then .next s
      else
        let cp := { s.cp with toCp := s.cp.cpWait.head?, cpWait := s.cp.cpWait.tail }
        .next ((pieceToCp { s with cp := cp } m).getD s)
    | none => .next s

/-- DOE_REQUEST (R424). -/
def execDoeRequest (bytes : List Byte) (s : State) : O :=
  if !s.cpUp then .next s else .next ((piecesOf .doe 0 bytes).foldl putMgmt s)

/-- MGMT_REQUEST: one at a time, in the order taken. -/
def execMgmtRequest (id : Nat) (ext : ExtAns) (s : State) : O :=
  cmdRow 0x80 false id (fun c => do
    let s ← get
    let n := c.n 2
    if s.cp.cmds.any (fun k => decide (k.id < id) && decide (k.op = 0x80)) then throw .wait
    else if 2 < c.n 0 then refuse c rRange 0
    else if n = 0 ∨ 4096 < n then refuse c rRange 2
    else if !cmdExtentOk (c.n 1) n then refuse c rRange 1
    else if !cmdExtentOk (c.n 3) (c.n 4) then refuse c rRange 3
    else do
      let (b, e) ← readUpTo (c.n 1) n ext n 0
      match e with
      | some (_, a) => refuse c rAccess a
      | none => modify (fun s => (piecesOf (.mailbox id) (c.n 0) b).foldl putMgmt s)) s

/-- MGMT_REQUEST_TIMEOUT. -/
def execMgmtRequestTimeout (id : Nat) (s : State) : O :=
  match s.cmd id with
  | some c => .next (if c.started && decide (c.op = 0x80) && s.cpUp && decide (c.since + 1000 * c.n 5 ≤ s.mgmt.time) then finishCmd s id cTimeout 0 0 else s)
  | none => .next s

/-! ## Turns (R463) -/

/-- The request in front is this one. A SUB of 0 or 1 asks for SPDM; `sub` 1: in a session. -/
def atTurn (s : State) (o : MgmtOrigin) (sub : Nat) (form : List Byte) : Bool :=
  match s.mgmt.reqs with
  | r :: _ => decide (r.o = o) && (decide (r.sub = sub) || (decide (r.sub + sub ≤ 1) && decide (sub = 0 ∨ o = .doe)) )
      && decide (reqForm r = form)
  | [] => false

/-- A VDM message is on its way to the controller or waits there: the command processor passes on one at a time. -/
def vdmBusy (s : State) : Bool :=
  let at_ := fun (m : MailMsg) => decide (m.o = some .vdm)
  s.cp.toMgmt.any at_ || s.cp.mgmtWait.any at_ || (s.mgmt.parts ++ s.mgmt.reqs).any (fun r => decide (r.o = .vdm))

/-- A request of a row (R463): whether it is its turn, and the state, with the request taken. What came through the mailbox stands
in front. What comes over the sideband is complete now: nothing waits and it is performed, or it joins the queue. A VDM message
goes through the mailbox first. -/
def turn (s : State) (o : MgmtOrigin) (sub : Nat) (form : List Byte) : Bool × State :=
  if atTurn s o sub form then (true, s.modMgmt (fun m => { m with reqs := m.reqs.tail }))
  else
    let r : MgmtReq := { o := o, sub := sub, bytes := form }
    match o with
    | .mailbox _ | .doe => (false, s)
    | .smbus =>
      if s.mgmt.reqs.isEmpty then (true, s)
      else (false, if s.mgmt.reqs.contains r then s else s.modMgmt (fun m => { m with reqs := m.reqs ++ [r] }))
    | .vdm => (false, if s.cpUp && !vdmBusy s then (piecesOf .vdm sub form).foldl putMgmt s else s)

/-- A request that cannot be performed yet stays in front. -/
def stayInFront (s : State) (o : MgmtOrigin) (sub : Nat) (form : List Byte) : State :=
  if atTurn s o sub form then s else s.modMgmt (fun m => { m with reqs := m.reqs ++ [{ o := o, sub := sub, bytes := form }] })

/-- A row's request: performed at its turn, then what follows it; where `body` answers none it waits. `rom`: the boot ROM in
recovery performs it too, over the sideband (R467). -/
def requestWaits (o : MgmtOrigin) (sub : Nat) (form : List Byte) (rom : Bool) (body : State → Option State) (s : State) : O :=
  if !s.mgmt.fwRun && !(rom && s.mgmt.recovery && decide (o = .smbus)) then .next s
  else match turn s o sub form with
    | (false, s) => .next s
    | (true, s') =>
      match body s' with
      | some s => .next s.manage
      | none => .next (stayInFront s o sub form)

def requestRow (o : MgmtOrigin) (sub : Nat) (form : List Byte) (rom : Bool) (body : State → State) (s : State) : O :=
  requestWaits o sub form rom (fun s => some (body s)) s

/-- A key or debug request (R471): its turn, then its status and payload. -/
def keyRow (o : MgmtOrigin) (code : Nat) (payload : List Byte) (rom : Bool) (body : State → Nat × List Byte × State) (s : State) : O :=
  requestRow o 2 (leBytes 2 code ++ [0, 0] ++ payload) rom (fun s =>
    let (st, b, s) := body s
    respondKey s o code st b) s

/-- ID_PUBKEY. -/
def execIdPubkey (o : MgmtOrigin) (s : State) : O := keyRow o 1 [] false (fun s => (0, identityKey, s)) s

/-- LEAF_STATUS. -/
def execLeafStatus (o : MgmtOrigin) (s : State) : O :=
  keyRow o 2 [] false (fun s => (0, leBytes 8 s.mgmt.leafNext ++ leBytes 8 (leafNext? s.mgmt) ++ leBytes 8 (2 ^ 40 - s.mgmt.leafNext), s)) s

/-- FW_WRITE: into the slot that is not running. -/
def execFwWrite (o : MgmtOrigin) (off : Half) (data : List Byte) (s : State) : O :=
  keyRow o 3 (leBytes 4 off.toNat ++ leBytes 4 data.length ++ data) true (fun s =>
    if data.isEmpty ∨ 4000 < data.length ∨ slotBytes < off.toNat + data.length then (1, [], s)
    else (0, [], s.modMgmt (fun m => flashWrite m (slotBase (!m.slot) + off.toNat) data))) s

/-- FW_ACTIVATE: the inactive slot must pass R467; it is tried at the next reset. -/
def execFwActivate (o : MgmtOrigin) (s : State) : O :=
  keyRow o 4 [] true (fun s =>
    if !accepts s.mgmt (!s.mgmt.slot) then (2, [], s)
    else
      let (ok, s') := storeWrite s 2 [BitVec.ofNat 8 (b2n (!s.mgmt.slot)), 1]
      (if ok then 0 else 3, [], s')) s

/-- STORE_GET. -/
def execStoreGet (o : MgmtOrigin) (ty : BitVec 16) (s : State) : O :=
  keyRow o 5 (leBytes 2 ty.toNat) false (fun s =>
    match storeGet? s.mgmt ty.toNat with
    | some b => (0, b, s)
    | none => (1, [], s)) s

/-- The checks of the command that would set the same state (R471). -/
def storeValueOk (s : State) (ty : Nat) (b : List Byte) : Bool :=
  match ty with
  | 5 => (sliceMapRec b).isSome
  | 6 => fenceRecOk s b
  | 7 => (latigoRec s b).isSome
  | _ => false

/-- STORE_PUT. -/
def execStorePut (o : MgmtOrigin) (ty : BitVec 16) (value : List Byte) (s : State) : O :=
  keyRow o 6 (leBytes 2 ty.toNat ++ value) false (fun s =>
    if !storeValueOk s ty.toNat value then (1, [], s)
    else
      let (ok, s) := storeWrite s ty.toNat value
      (if ok then 0 else 3, [], s)) s

/-! ## Debug (R513) -/

/-- Where a span of a core's window lies: the scratchpad by physical row, or the register block. -/
inductive DbgPlace where
  | spad
  | regs
  deriving DecidableEq

def dbgPlace (s : State) (core off len : Nat) : Option DbgPlace :=
  if 512 ≤ core ∨ s.pwr.state = 3 ∨ len < 4 ∨ 4000 < len ∨ len % 4 ≠ 0 then none
  else if off + len ≤ 0x400000 then some .spad
  else if 0x400000 ≤ off ∧ off + len ≤ 0x800000 then some .regs
  else none

/-- DBG_READ: an uncorrectable row's bytes are free. -/
def execDbgRead (o : MgmtOrigin) (core : BitVec 16) (off len : Half) (s : State) : O :=
  let (c, a, n) := (core.toNat, off.toNat, len.toNat)
  keyRow o 0x10 (leBytes 2 c ++ [0, 0] ++ leBytes 4 a ++ leBytes 4 n) false (fun s =>
    match dbgPlace s c a n with
    | none => (1, [], s)
    | some .spad =>
      match spadRead s c a n with
      | (some b, s) => (0, b, s)
      | (none, s) =>
        let (b, s) := freeBytes n s
        (0, b, s)
    | some .regs =>
      let (r, b, s') := regRead s .mgmt (coreBlock c + (a - 0x400000)) n
      if r = .ok then (0, b, s') else (1, [], s)) s

/-- DBG_WRITE: a register write that must wait (R142) is answered when it has been performed. -/
def execDbgWrite (o : MgmtOrigin) (core : BitVec 16) (off : Half) (data : List Byte) (s : State) : O :=
  let (c, a, n) := (core.toNat, off.toNat, data.length)
  let code := 0x11
  requestWaits o 2 (leBytes 2 code ++ [0, 0] ++ (leBytes 2 c ++ [0, 0] ++ leBytes 4 a ++ leBytes 4 n ++ data)) false (fun s =>
    let answer := fun (st : Nat) (s : State) => some (respondKey s o code st [])
    match dbgPlace s c a n with
    | none => answer 1 s
    | some .spad => answer 0 (spadWrite s c a data (allOn data)).2
    | some .regs =>
      match regW s .mgmt (coreBlock c + (a - 0x400000)) data (allOn data) with
      | (.wait, _) => none
      | (.ok, s') => answer 0 s'
      | (_, _) => answer 1 s) s

/-! ## SPDM (R473) -/

def State.modSpdm (s : State) (f : SpdmSt → SpdmSt) : State := s.modMgmt (fun m => { m with spdm := f m.spdm })

/-- An SPDM request: its turn, then its response. `sub` 1: a request of the secured session. -/
def spdmRow (o : MgmtOrigin) (sub : Nat) (form : List Byte) (body : State → List Byte × State) (s : State) : O :=
  requestRow o sub form false (fun s =>
    let (b, s) := body s
    respond s o b) s

/-- A request that needs the connection to have come this far. -/
def whenSpdm (f : SpdmSt → Bool) (s : State) (x : List Byte × State) : List Byte × State :=
  if f s.mgmt.spdm then x else (spdmError errUnexpected, s)

def SpdmSt.ready (x : SpdmSt) : Bool := x.algs

/-- GET_VERSION begins a connection. -/
def execGetVersion (o : MgmtOrigin) (s : State) : O :=
  spdmRow o 0 [cVersion] (fun s => (Config.standardAnswer 32 [], s.modSpdm (fun x => { x with version := true, caps := false, algs := false }))) s

/-- GET_CAPABILITIES. -/
def execGetCapabilities (o : MgmtOrigin) (bytes : List Byte) (s : State) : O :=
  spdmRow o 0 (cCapabilities :: bytes) (fun s => whenSpdm (·.version) s (Config.standardAnswer 33 bytes, s.modSpdm (fun x => { x with caps := true }))) s

/-- NEGOTIATE_ALGORITHMS. -/
def execNegotiateAlgorithms (o : MgmtOrigin) (bytes : List Byte) (s : State) : O :=
  spdmRow o 0 (cAlgorithms :: bytes) (fun s => whenSpdm (·.caps) s (Config.standardAnswer 34 bytes, s.modSpdm (fun x => { x with algs := true }))) s

/-- GET_DIGESTS: of slot 0; slots 1 to 7 are empty. -/
def execGetDigests (o : MgmtOrigin) (s : State) : O :=
  spdmRow o 0 [cDigests] (fun s => whenSpdm (·.ready) s (Config.standardAnswer 35 (Config.sha384 (factoryBytes s.mgmt)), s)) s

/-- GET_CERTIFICATE: the factory chain of slot 0. -/
def execGetCertificate (o : MgmtOrigin) (slot : Fin 8) (off len : Nat) (s : State) : O :=
  spdmRow o 0 (cCertificate :: BitVec.ofNat 8 slot.val :: (leBytes 2 off ++ leBytes 2 len)) (fun s => whenSpdm (·.ready) s
    (if slot.val = 0 then Config.standardAnswer 36 (leBytes 2 off ++ leBytes 2 len ++ factoryBytes s.mgmt) else spdmError errInvalid, s)) s

/-- A response that ends in a signature of what it answers. -/
def signed (s : State) (b : List Byte) : List Byte × State :=
  match signNext s b with
  | (.sig g, s) => (b ++ g, s)
  | (.busy, s) => (spdmError errBusy, s)
  | (.exhausted, s) => (spdmError errUnspecified, s)

/-- CHALLENGE. -/
def execChallenge (o : MgmtOrigin) (slot : Fin 8) (nonce : List Byte) (s : State) : O :=
  spdmRow o 0 (cChallenge :: BitVec.ofNat 8 slot.val :: nonce) (fun s => whenSpdm (·.ready) s
    (if slot.val = 0 then signed s (Config.standardAnswer 37 nonce) else (spdmError errInvalid, s))) s

/-- The value of a measurement block (R473). -/
def measured (m : MgmtSt) (i : Nat) : List Byte :=
  match i with
  | 1 => Config.sha384 Config.romBytes
  | 2 => Config.sha384 (imageBytes m m.slot)
  | 3 => [m.svn, m.minSvn]
  | 4 => Config.sha384 (storePayload m.store)
  | _ => []

/-- GET_MEASUREMENTS: block 1 to 4, all of them, or their number. -/
def execGetMeasurements (o : MgmtOrigin) (index : BitVec 8) (sgn : Bool) (nonce : List Byte) (s : State) : O :=
  let i := index.toNat
  spdmRow o 0 (cMeasurements :: index :: BitVec.ofNat 8 (b2n sgn) :: nonce) (fun s => whenSpdm (·.ready) s (
    if 4 < i ∧ i ≠ 255 then (spdmError errInvalid, s)
    else
      let l := if i = 255 then [1, 2, 3, 4] else if i = 0 then [] else [i]
      let b := Config.standardAnswer 38 (index :: (nonce ++ l.flatMap (fun k => Config.standardAnswer (64 + k) (measured s.mgmt k))))
      if sgn then signed s b else (b, s))) s

/-- KEY_EXCHANGE: a signed answer opens a session; its number is free. -/
def execKeyExchange (o : MgmtOrigin) (slot : Fin 8) (bytes : List Byte) (s : State) : O :=
  spdmRow o 0 (cKeyExchange :: BitVec.ofNat 8 slot.val :: bytes) (fun s => whenSpdm (·.ready) s (
    if slot.val ≠ 0 then (spdmError errInvalid, s)
    else
      let b := Config.standardAnswer 39 bytes
      match signNext s b with
      | (.sig g, s) =>
        let (w, s) := drawFree s
        (b ++ g, s.modSpdm (fun x => { x with session := some (w.toNat % 2 ^ 32), finished := false, keyGen := 0 }))
      | (.busy, s) => (spdmError errBusy, s)
      | (.exhausted, s) => (spdmError errUnspecified, s))) s

/-- FINISH: one that verifies makes the session secure. -/
def execFinish (o : MgmtOrigin) (session : Nat) (bytes : List Byte) (s : State) : O :=
  spdmRow o 1 (cFinish :: (leBytes 4 session ++ bytes)) (fun s =>
    if s.mgmt.spdm.session ≠ some session ∨ s.mgmt.spdm.finished then (spdmError errSession, s)
    else if Config.finishOk session bytes then (Config.standardAnswer 40 bytes, s.modSpdm (fun x => { x with finished := true }))
    else (spdmError errInvalid, s.modSpdm (fun x => { x with session := none }))) s

/-- A request within the secure session. -/
def inSession (session : Nat) (s : State) (x : List Byte × State) : List Byte × State :=
  if s.mgmt.spdm.session = some session ∧ s.mgmt.spdm.finished then x else (spdmError errSession, s)

/-- KEY_UPDATE. -/
def execKeyUpdate (o : MgmtOrigin) (session : Nat) (s : State) : O :=
  spdmRow o 1 (cKeyUpdate :: leBytes 4 session) (fun s => inSession session s (Config.standardAnswer 41 [], s.modSpdm (fun x => { x with keyGen := x.keyGen + 1 }))) s

/-- HEARTBEAT. -/
def execHeartbeat (o : MgmtOrigin) (session : Nat) (s : State) : O :=
  spdmRow o 1 (cHeartbeat :: leBytes 4 session) (fun s => inSession session s (Config.standardAnswer 42 [], s)) s

/-- END_SESSION. -/
def execEndSession (o : MgmtOrigin) (session : Nat) (s : State) : O :=
  spdmRow o 1 (cEndSession :: leBytes 4 session) (fun s => inSession session s (Config.standardAnswer 43 [], s.modSpdm (fun x => { x with session := none, finished := false }))) s

/-! ## MCTP, JTAG, the BMC (R464, R542) -/

/-- MCTP_CONTROL_MESSAGE (type 0x00): the boot ROM in recovery answers it over the sideband. SPDM, secured messages and the
requests of R471 come with types 0x05, 0x06 and 0x7E. -/
def execMctpControlMessage (overPcie : Bool) (bytes : List Byte) (s : State) : O :=
  let o : MgmtOrigin := if overPcie then .vdm else .smbus
  requestRow o 3 bytes true (fun s => respond s o (Config.standardAnswer 48 bytes)) s

/-- A JTAG instruction takes effect (log 8 numbers them): what it drives the pins with. -/
def jtagSet (s : State) (code : Nat) (pins : PinDrive) : State :=
  s.modMgmt (fun m => { m with jtag := BitVec.ofNat 8 code, pins := pins })

/-- BYPASS: one bit, captured as 0. -/
def execBypass (s : State) : O := .next ((jtagSet s 0 .system).out (.jtag 0))
/-- IDCODE. -/
def execIdcode (s : State) : O :=
  .next ((jtagSet s 1 .system).out (.jtag (Config.stepping.toNat % 16 * 2 ^ 28 + 0x4820 * 2 ^ 12 + Config.jedecId.toNat * 2 + 1)))

/-- A scan of the boundary register: what it captured from the pins is free and shifts out; what shifts in, free too, is loaded
(log 8). -/
def scan (s : State) : State :=
  let (w, s) := drawFree s
  let (v, s) := drawFree s
  (s.modMgmt (fun m => { m with boundary := v })).out (.jtag w.toNat)

/-- SAMPLE_PRELOAD: the part goes on driving its pins. -/
def execSamplePreload (s : State) : O := .next (scan (jtagSet s 2 .system))

/-- An instruction that only the boot ROM's time lets act; afterwards it is BYPASS. -/
def jtagRom (s : State) (code : Nat) (pins : PinDrive) (out : State → State) : State :=
  if s.mgmt.fwStarted then (jtagSet s 0 .system).out (.jtag 0) else out (jtagSet s code pins)

/-- EXTEST: the boundary register drives the pins. -/
def execExtest (s : State) : O := .next (jtagRom s 3 .boundary scan)
/-- CLAMP: it drives them while the bypass bit is shifted. -/
def execClamp (s : State) : O := .next (jtagRom s 4 .boundary (fun s => s.out (.jtag 0)))
/-- HIGHZ: nothing does. -/
def execHighz (s : State) : O := .next (jtagRom s 5 .highZ (fun s => s.out (.jtag 0)))

/-- BMC_MESSAGE_READ. -/
def execBmcMessageRead (s : State) : O :=
  match s.mgmt.bmc with
  | [] => .next s
  | b :: rest => .next ((s.modMgmt (fun m => { m with bmc := rest })).out (.bmc b))

/-! ## Telemetry (R474, R475) -/

def noReading (_ : Nat) : BitVec 16 := 0x8000
def noRail (_ : Nat) : BitVec 16 × Half := (0, 0)

/-- Item 1: paces. -/
def paceRec (s : State) : List Byte :=
  (countFrom 0 64).flatMap (fun k => leBytes 2 (if (s.cluster k).paceValid then (s.cluster k).pace.toNat else 0))
  ++ (countFrom 0 80).flatMap (fun k => leBytes 2 (if (s.slice k).paceValid then (s.slice k).pace.toNat else 0))

/-- Item 3: temperatures. -/
def tempRec (s : State) : List Byte :=
  (countFrom 0 128).flatMap (fun i => leBytes 2 (if i < 89 then (tget noReading s.mgmt.temps i).toNat else 0x8000))

/-- Item 4: error counters. -/
def errRec (s : State) : List Byte :=
  let w := leBytes 4
  padTo 0 4096 (
    (countFrom 0 512).flatMap (fun c => w ((s.core c).spad.ceCnt.toNat + (s.core c).sendErr.toNat % 65536 * 65536))
    ++ (countFrom 0 80).flatMap (fun k => w ((s.slice k).ueCnt.toNat * 65536 + (s.slice k).ceCnt.toNat) ++ w (s.slice k).skv.err.toNat)
    ++ (countFrom 0 64).flatMap (fun k => w ((s.cluster k).resend.toNat * 65536 + (s.cluster k).crc.toNat))
    ++ (countFrom 0 48).flatMap (fun l => w ((s.link l).uncorr.toNat * 65536 + (s.link l).corr.toNat))
    ++ w (s.lat.cinchLost.toNat * 65536 + s.lat.noroute.toNat)
    ++ w (s.host.memErr.toNat * 65536 + s.host.bar2Wr.toNat)
    ++ w (cmdVal s 0) ++ w (cmdVal s 4))

/-- Item 7: power state and rails. -/
def powerRec (s : State) : List Byte :=
  let mv := fun (t : Table (BitVec 16)) => (countFrom 0 4).flatMap (fun q => leBytes 2 (tget cnt16Def t q).toNat)
  leBytes 8 (s.pwr.state.toNat + s.pwr.tripCause.toNat * 256) ++ mv s.pwr.vddTarget ++ mv s.pwr.vdd ++ leBytes 8 s.mgmt.power.toNat
  ++ (countFrom 0 12).flatMap (fun r => leBytes 8 ((tget noRail s.mgmt.rails r).1.toNat + (tget noRail s.mgmt.rails r).2.toNat * 65536))

/-- The highest share of a stream's charges, in tenths of a percent of a resource's capacity. -/
def chargeShare (s : State) (x : Stream) : Nat :=
  (x.ents.foldl (fun t e => addCharges t (entryCharges s e)) ([] : Table Nat)).foldl (fun v p => max v (p.2 * 250 / max 1 (resLimit s p.1))) 0

def streamRec (s : State) (k : Nat) : List Byte :=
  match s.cp.streams.find? (fun x => decide (x.num = k)) with
  | none => List.replicate 32 0
  | some x =>
    padTo 0 32 ([if x.revoked then 2 else 1, BitVec.ofNat 8 x.ents.length] ++ List.replicate 6 0 ++ leBytes 8 x.seq ++ leBytes 8 x.time
      ++ leBytes 2 (if x.revoked then 0 else chargeShare s x))

/-- A record as the state gives it now (R475). -/
def liveRec (s : State) (item : Nat) : List Byte :=
  let m := s.mgmt
  let word := leBytes 8
  match item with
  | 0 =>
    word Config.serial.toNat ++ word (fwVersion m) ++ word (fwVersion m)
    ++ word (b2n m.slot + b2n m.trial * 2 + m.svn.toNat * 256 + m.minSvn.toNat * 65536)
    ++ word (0x4820 + Config.stepping.toNat % 16 * 65536) ++ word s.lat.id.toNat ++ word m.time ++ word m.seq
  | 1 => paceRec s
  | 2 =>
    word s.fabric.cmapTime ++ word (s.fabric.cmapSeq.toNat + b2n s.fabric.cmapValid * 256 + s.fabric.cmapPeriod.toNat * 65536)
    ++ (countFrom 0 256).map (fun i => tget (fun _ => 0) s.fabric.cmap i)
  | 3 => tempRec s
  | 4 => errRec s
  | 5 => (countFrom 0 64).flatMap (streamRec s)
  | 6 => fenceBytes s
  | _ => powerRec s

/-- Bytes of a record. -/
def recBytes (item : Nat) : Nat := lget 128 [64, 288, 272, 256, 4096, 2048, 128, 128] item

/-- All records as one gather builds them (R474). -/
def gatherAll (s : State) : Bytes :=
  (countFrom 0 8).foldl (fun b i => writeBytes b (4096 * i) (liveRec s i)) []

/-- TELEMETRY_GATHER: readings of the sensors of item 3 (entries 0 to 88) and of the twelve rails; all records are built of it. -/
def execTelemetryGather (sensors : List (BitVec 16)) (rails : List (BitVec 16 × Half)) (power : Half) (s : State) : O :=
  if sensors.length ≠ 89 ∨ rails.length ≠ 12 ∨ !s.mgmt.fwRun then .next s
  else
    let temps := ((countFrom 0 89).zip sensors).foldl (fun t p => tset noReading t p.1 p.2) []
    let rls := ((countFrom 0 12).zip rails).foldl (fun t p => tset noRail t p.1 p.2) []
    let s := s.modMgmt (fun m => { m with temps := temps, rails := rls, power := power })
    .next (s.modMgmt (fun m => { m with gathered := true, snap := gatherAll s }))

/-- A QUERY record, the vendor-defined MCTP query's too: of the last complete gather, and of none before the first one is
complete (R474, log 103). -/
def queryRec (s : State) (item : Nat) : List Byte :=
  if s.mgmt.gathered then readBytes s.mgmt.snap (4096 * item) (recBytes item) else liveRec s item

/-- QUERY; a Perica packet reads items 0 and 4 only (R459). -/
def queryBody (ext : ExtAns) (c : Cmd) : M Unit := do
  let s ← get
  let item := c.n 0
  viaMgmt
  viaCp
  if 7 < item ∨ (c.version = 1 ∧ item ≠ 0 ∧ item ≠ 4) then refuse c rRange 0
  else
    let b := queryRec s item
    if !cmdExtentOk (c.n 1) (min b.length (c.n 2)) then refuse c rRange 1
    else putReply c (c.n 1) b (c.n 2) true ext

def execQuery (id : Nat) (ext : ExtAns) (s : State) : O := cmdRow 0x70 false id (queryBody ext) s
/-- PERICA_QUERY. -/
def execPericaQuery (id : Nat) (ext : ExtAns) (s : State) : O := cmdRow 0x70 true id (queryBody ext) s

end Sys2Proof.Machine
end

