-- ==== Sys2Proof/Machine/ScalarCtl.lean ====
section
/-! DEFINITION. Control flow (R94 to R104), special registers (R75, R76), gates and eret (R116 to R119, R128), segment
instructions (R86, R87, R107). -/

namespace Sys2Proof.Machine

/-! ## Branches and jumps -/

/-- A branch: its condition on the operand words, then the target (R94). -/
def branch (t : Tid) (off : BitVec 14) (cond : ThreadSt → Except Stop Bool) (s : State) : O :=
  issue t true false (do
    let s ← get
    let x := s.thr t
    let b ← lift (cond x)
    pure (if b then .jump (pAdd x.pc (4 * off.toInt)) else .next)) s

/-- Operands of any tag but EMPTY. -/
def anyAny (ra rb : Reg) (f : TWord → TWord → Bool) (x : ThreadSt) : Except Stop Bool := do
  let a ← needAny 1 (x.reg ra.val)
  let b ← needAny 2 (x.reg rb.val)
  pure (f a b)

def intPair (ra rb : Reg) (f : Word → Word → Bool) (x : ThreadSt) : Except Stop Bool := do
  let a ← need [.int] 1 (x.reg ra.val)
  let b ← need [.int] 2 (x.reg rb.val)
  pure (f a b)

def anyOne (ra : Reg) (f : Word → Bool) (x : ThreadSt) : Except Stop Bool := do
  let a ← needAny 1 (x.reg ra.val)
  pure (f a.data)

def execBEq (t : Tid) (ra rb : Reg) (off : BitVec 14) (s : State) : O := branch t off (anyAny ra rb (fun a b => decide (a = b))) s
def execBNe (t : Tid) (ra rb : Reg) (off : BitVec 14) (s : State) : O := branch t off (anyAny ra rb (fun a b => decide (a ≠ b))) s
def execBLt (t : Tid) (ra rb : Reg) (off : BitVec 14) (s : State) : O :=
  branch t off (intPair ra rb (fun a b => decide (a.toInt < b.toInt))) s
def execBGe (t : Tid) (ra rb : Reg) (off : BitVec 14) (s : State) : O :=
  branch t off (intPair ra rb (fun a b => decide (b.toInt ≤ a.toInt))) s
def execBLtu (t : Tid) (ra rb : Reg) (off : BitVec 14) (s : State) : O :=
  branch t off (intPair ra rb (fun a b => decide (a.toNat < b.toNat))) s
def execBGeu (t : Tid) (ra rb : Reg) (off : BitVec 14) (s : State) : O :=
  branch t off (intPair ra rb (fun a b => decide (b.toNat ≤ a.toNat))) s
def execBZ (t : Tid) (ra : Reg) (off : BitVec 14) (s : State) : O := branch t off (anyOne ra (fun a => decide (a = 0))) s
def execBNz (t : Tid) (ra : Reg) (off : BitVec 14) (s : State) : O := branch t off (anyOne ra (fun a => decide (a ≠ 0))) s

/-- jmp: pc + 4 × off24 (R95). -/
def execJmp (t : Tid) (off : BitVec 24) (s : State) : O :=
  issue t true false (do
    let s ← get
    pure (.jump (pAdd (s.thr t).pc (4 * off.toInt)))) s

/-- jmp.r: to an ADDR. -/
def execJmpR (t : Tid) (ra : Reg) (s : State) : O :=
  issue t true false (do
    let s ← get
    let a ← lift (need [.addr] 1 (s.reg t ra.val))
    pure (.jump a)) s

/-- A call to `target` whose callee runs in mode `callee` (R100, R101, R103): the return word goes where the callee's
mode expects it. -/
def callTo (t : Tid) (target : Word) (callee : Bool) : M Ctl := do
  let s ← get
  let x := s.thr t
  let ret : TWord := ⟨.code, mkCode (pAdd x.pc 4) x.compat⟩
  if callee then do
    modify (fun s => s.modThr t (fun x => { x with lnk := ret, compat := true }))
    if !x.compat then holdNotices t
    pure (.jump target)
  else globalAcc t (pAdd x.rtp (-16)) 16 true (some (wordBytes ret)) false (.call target false)

def execCall (t : Tid) (off : BitVec 24) (s : State) : O :=
  issue t true false (do
    let s ← get
    let x := s.thr t
    callTo t (pAdd x.pc (4 * off.toInt)) x.compat) s

def execCallR (t : Tid) (ra : Reg) (s : State) : O :=
  issue t true false (do
    let s ← get
    let a ← lift (need [.addr] 1 (s.reg t ra.val))
    callTo t a (s.thr t).compat) s

/-- call.m (R103): bit 0 of fn is the callee's mode. -/
def execCallM (t : Tid) (ra : Reg) (mode : Bool) (s : State) : O :=
  issue t true false (do
    let s ← get
    let a ← lift (need [.addr] 1 (s.reg t ra.val))
    callTo t a mode) s

/-- ret (R100, R101). -/
def execRet (t : Tid) (s : State) : O :=
  issue t true false (do
    let s ← get
    let x := s.thr t
    if x.compat then do
      if x.lnk.tag ≠ .code then mtrap .retTag
      modify (fun s => s.modThr t (fun x => { x with compat := codeMode x.lnk.data }))
      if !codeMode x.lnk.data then holdNotices t
      pure (.jump (codePc x.lnk.data))
    else globalAcc t x.rtp 16 true none false .ret) s

/-- loop ra, n (R96, R102); n outside 1 to 8,191 is illegal. -/
def execLoop (t : Tid) (ra : Reg) (n : BitVec 14) (s : State) : O :=
  if n.toNat = 0 ∨ 8191 < n.toNat then issue t false false (mtrap .insnIllegal) s
  else issue t true true (do
    let s ← get
    let x := s.thr t
    let c ← lift (need [.int] 1 (x.reg ra.val))
    if x.lc ≠ 0 then mtrap .loopNest
    if c = 0 then pure (.jump (pAdd x.pc (4 * (n.toNat + 1))))
    else do
      set (s.modThr t (fun x => { x with lc := c, ls := pAdd x.pc 4, le := pAdd x.pc (4 * n.toNat) }))
      pure (.jump (pAdd x.pc 4))) s

/-! ## Special registers (R75, R76) -/

/-- What rds returns: pc, dsp, rtp, lnk, sr, lc, ls, le. -/
def specialReg (n : Nat) (x : ThreadSt) (sp : BitVec 3) : TWord :=
  match sp.toNat with
  | 0 => wAddr x.pc
  | 1 => wAddr x.dsp
  | 2 => wAddr x.rtp
  | 3 => x.lnk
  | 4 => wInt (srWord n x)
  | 5 => wInt x.lc
  | 6 => wAddr x.ls
  | _ => wAddr x.le

def execRds (t : Tid) (rd : Reg) (sp : BitVec 3) (s : State) : O :=
  issue t false (decide (5 ≤ sp.toNat)) (do
    let s ← get
    set (s.setReg t rd.val (specialReg t.thr.val (s.thr t) sp))
    pure .next) s

/-- The tag wrs accepts. -/
def wrsTag (sp : BitVec 3) : Tag :=
  match sp.toNat with
  | 3 => .code
  | 4 | 5 => .int
  | _ => .addr

/-- wrs (R75, R76, R102): pc is not writable, sr only at supervisor level and only its COMPAT. -/
def execWrs (t : Tid) (sp : BitVec 3) (ra : Reg) (s : State) : O :=
  if sp = 0 then issue t false false (mtrap .insnIllegal) s
  else issue t false (decide (5 ≤ sp.toNat)) (do
    let s ← get
    let v ← lift (need [wrsTag sp] 1 (s.reg t ra.val))
    if sp = 4 ∧ !(s.thr t).priv then mtrap .priv
    set (s.modThr t (fun x =>
      match sp.toNat with
      | 1 => { x with dsp := v }
      | 2 => { x with rtp := v }
      | 3 => { x with lnk := ⟨.code, v⟩ }
      | 4 => { x with compat := v.getLsbD 0 }
      | 5 => { x with lc := v }
      | 6 => { x with ls := v }
      | _ => { x with le := v }))
    if sp = 4 ∧ (s.thr t).compat ≠ v.getLsbD 0 then holdNotices t
    pure .next) s

/-! ## Gates and eret -/

/-- The argument checks of R118: tag by TAGS, segment by PERM, in ascending order. -/
def gateArgs (t : Tid) (w1 w2 : Nat) : Nat → Nat → M Unit
  | 0, _ => pure ()
  | f + 1, i => do
    let s ← get
    let d := bitsOf (if i ≤ 4 then w1 else w2) (16 * ((i - 1) % 4) + 15) (16 * ((i - 1) % 4))
    let a := s.reg t i
    if !bitOf d a.tag.num then mtrap .gateArg 0 (wInt 0) i
    let perm := bitsOf d 15 9
    if perm ≠ 0 ∧ (a.tag = .addr ∨ a.tag = .seg) then
      let sel := if a.tag = .addr then pSel a.data else a.data.toNat % 256
      let e ← segLookup t (segTable (s.thr t) (s.thr t).priv) sel
      if bitsOf e.attr.toNat 54 48 &&& perm ≠ perm then mtrap .gateArg 0 (wInt 0) i
    gateArgs t w1 w2 f (i + 1)

/-- gate n (R118, R119). DESIGN CHOICE (log 82): thread 0's full gate count raises GATE_RANGE before the entry is read. -/
def gateBody (t : Tid) (n : Nat) : M Ctl := do
  let s ← get
  let x := s.core t.core.val
  if x.gateCount ≤ n then mtrap .gateRange
  if t.thr.val = 0 ∧ gateCountOf x = 255 then mtrap .gateRange
  let a := (x.gateBase.toNat + 32 * n) % 2 ^ 64
  let r ← reqFree t (.read a 32)
  if r.status ≠ .ok then mtrap .machineCheck 0 (wInt (BitVec.ofNat 64 a))
  watch t a 32 false
  let b := dcOverlayGo r.s.smap (r.s.core t.core.val).dc 3 a r.data
  let w := fun (i : Nat) => leNat (slice b (8 * i) 8)
  let narg := bitsOf (w 0) 55 52
  if !bitOf (w 0) 51 ∨ 8 < narg ∨ bitsOf (w 0) 50 48 ≠ 0 ∨ w 3 ≠ 0 then mtrap .gateRange
  gateArgs t (w 1) (w 2) narg 1
  let pc := (s.thr t).pc
  let made ← stackEntry t 0 (causeWord 1 t.thr.val { cause := .insnIllegal, extra := n } 0) (wInt 0) (pAdd pc 4)
  if made then
    modify (fun s =>
      let s := s.modThr t (fun x => { x with pc := mkPtr (w 0 / 2 ^ 56) (w 0) })
      if t.thr.val = 0 then s.modCore t.core.val (fun x => setGateCount x (gateCountOf x + 1)) else s)
    holdNotices t
  pure .stay

def execGate (t : Tid) (n : BitVec 14) (s : State) : O := issue t true false (gateBody t n.toNat) s

/-- eret (R128): PRIV at task level. -/
def execEret (t : Tid) (s : State) : O :=
  issue t true false (do
    let s ← get
    if !(s.thr t).priv then mtrap .priv
    eretBody t
    holdNotices t
    pure .stay) s

/-! ## Segments -/

/-- seg.h: a SEG word of a selector. -/
def execSegH (t : Tid) (rd : Reg) (selector : BitVec 8) (s : State) : O :=
  regOp t rd (fun _ => .ok ⟨.seg, selector.zeroExtend 64⟩) s

/-- seg.q: LIMIT, or the permission bits, of a valid entry of the current table (R107). -/
def execSegQ (t : Tid) (rd ra : Reg) (perm : Bool) (s : State) : O :=
  issue t false false (do
    let s ← get
    let x := s.thr t
    let w ← lift (need [.seg] 1 (x.reg ra.val))
    let e ← segLookup t (segTable x x.priv) (w.toNat % 256)
    if !e.ok then mtrap .segNone
    let v := if perm then bitsOf e.attr.toNat 54 48 else e.limit
    modify (fun s => s.setReg t rd.val (wInt (BitVec.ofNat 64 v)))
    pure .next) s

/-- seg.inv: entries of a selector, or all, leave the core's segment cache (R87); supervisor only. -/
def execSegInv (t : Tid) (all : Bool) (selector : BitVec 8) (s : State) : O :=
  issue t false false (do
    let s ← get
    if !(s.thr t).priv then mtrap .priv
    set (s.modCore t.core.val (fun x => { x with
      segs := if all then [] else x.segs.filter (fun e => decide (e.sel ≠ selector.toNat)) }))
    pure .next) s

end Sys2Proof.Machine
end

