-- ==== Sys2Proof/Machine/ScalarFp.lean ====
section
/-! DEFINITION. The F64 group (R42, R50, R51, R53, R106 to R108). -/

namespace Sys2Proof.Machine

/-- f.add, correctly rounded. -/
def execFAdd (t : Tid) (rd ra rb : Reg) (s : State) : O := regOp2 t rd ra rb (f64f64 (fun u v => wF64 (f64Add u v))) s

/-- f.sub. -/
def execFSub (t : Tid) (rd ra rb : Reg) (s : State) : O := regOp2 t rd ra rb (f64f64 (fun u v => wF64 (f64Sub u v))) s

/-- f.mul. -/
def execFMul (t : Tid) (rd ra rb : Reg) (s : State) : O := regOp2 t rd ra rb (f64f64 (fun u v => wF64 (f64Mul u v))) s

/-- f.div (log 4). -/
def execFDiv (t : Tid) (rd ra rb : Reg) (s : State) : O := regOp2 t rd ra rb (f64f64 (fun u v => wF64 (f64Div u v))) s

/-- f.min in the order of R51. -/
def execFMin (t : Tid) (rd ra rb : Reg) (s : State) : O := regOp2 t rd ra rb (f64f64 (fun u v => wF64 (f64Min u v))) s

/-- f.max. -/
def execFMax (t : Tid) (rd ra rb : Reg) (s : State) : O := regOp2 t rd ra rb (f64f64 (fun u v => wF64 (f64Max u v))) s

/-- f.eq: INT 0 or 1 (R50). -/
def execFEq (t : Tid) (rd ra rb : Reg) (s : State) : O := regOp2 t rd ra rb (f64f64 (fun u v => wBool ((f64 u).eqC (f64 v)))) s

/-- f.lt. -/
def execFLt (t : Tid) (rd ra rb : Reg) (s : State) : O := regOp2 t rd ra rb (f64f64 (fun u v => wBool ((f64 u).ltC (f64 v)))) s

/-- f.le. -/
def execFLe (t : Tid) (rd ra rb : Reg) (s : State) : O := regOp2 t rd ra rb (f64f64 (fun u v => wBool ((f64 u).leC (f64 v)))) s

/-- f.sqrt (log 4). -/
def execFSqrt (t : Tid) (rd ra : Reg) (s : State) : O := regOp1 t rd ra (f64one (fun u => wF64 (f64Sqrt u))) s

/-- f.cvt.i: nearest even, saturating, NaN to 0. -/
def execFCvtI (t : Tid) (rd ra : Reg) (s : State) : O := regOp1 t rd ra (f64one (fun u => wInt (f64ToInt u))) s

/-- i.cvt.f. -/
def execICvtF (t : Tid) (rd ra : Reg) (s : State) : O := regOp1 t rd ra (fun a => do pure (wF64 (intToF64 (← need [.int] 1 a)))) s

/-- f.abs. -/
def execFAbs (t : Tid) (rd ra : Reg) (s : State) : O := regOp1 t rd ra (f64one (fun u => wF64 (f64Abs u))) s

/-- f.neg. -/
def execFNeg (t : Tid) (rd ra : Reg) (s : State) : O := regOp1 t rd ra (f64one (fun u => wF64 (f64Neg u))) s

/-- f.fma: rd + ra × rb, rounded once; rd is a source, checked last (R71, R107). -/
def execFFma (t : Tid) (rd ra rb : Reg) (s : State) : O :=
  regOp t rd (fun x => do
    let a ← need [.f64] 1 (x.reg ra.val)
    let b ← need [.f64] 2 (x.reg rb.val)
    let d ← need [.f64] 3 (x.reg rd.val)
    pure (wF64 (f64Fma d a b))) s

end Sys2Proof.Machine
end

