-- ==== Sys2Proof/Machine/ScalarTag.lean ====
section
/-! DEFINITION. The move and tag group and the immediates (R71 to R74, R107, R108). -/

namespace Sys2Proof.Machine

/-- mov: word and tag copied. -/
def execMov (t : Tid) (rd ra : Reg) (s : State) : O := regOp1 t rd ra (needAny 1) s

/-- tag.rd: the tag number of any word, EMPTY included. -/
def execTagRd (t : Tid) (rd ra : Reg) (s : State) : O := regOp1 t rd ra (fun a => .ok (wInt (BitVec.ofNat 64 a.tag.num))) s

/-- bits: the data as INT. -/
def execBits (t : Tid) (rd ra : Reg) (s : State) : O := regOp1 t rd ra (fun a => do pure (wInt (← need [.int, .f64] 1 a))) s

/-- fbits: the data as F64. -/
def execFbits (t : Tid) (rd ra : Reg) (s : State) : O := regOp1 t rd ra (fun a => do pure (wF64 (← need [.int] 1 a))) s

/-- ofs: offset of ADDR or CODE. -/
def execOfs (t : Tid) (rd ra : Reg) (s : State) : O := regOp1 t rd ra opOfs s

/-- sel: selector of ADDR or CODE. -/
def execSel (t : Tid) (rd ra : Reg) (s : State) : O := regOp1 t rd ra opSel s

/-- clr: EMPTY (R73). -/
def execClr (t : Tid) (rd : Reg) (s : State) : O := regOp t rd (fun _ => .ok {}) s

/-- tag.set under R73 and R74. -/
def execTagSet (t : Tid) (rd ra rb : Reg) (s : State) : O :=
  regOp t rd (fun x => opTagSet x.priv (x.reg ra.val) (x.reg rb.val)) s

/-- mka: ADDR of a selector and an INT offset below 2^48. -/
def execMka (t : Tid) (rd ra : Reg) (selector : BitVec 8) (s : State) : O := regOp1 t rd ra (opMka selector) s

/-- addi on INT or ADDR. -/
def execAddi (t : Tid) (rd ra : Reg) (imm : BitVec 14) (s : State) : O := regOp1 t rd ra (opAddi imm.toInt) s

/-- andi with the sign-extended immediate. -/
def execAndi (t : Tid) (rd ra : Reg) (imm : BitVec 14) (s : State) : O := regOp1 t rd ra (intImm (fun v => wAnd v (simm imm))) s

/-- ori. -/
def execOri (t : Tid) (rd ra : Reg) (imm : BitVec 14) (s : State) : O := regOp1 t rd ra (intImm (fun v => wOr v (simm imm))) s

/-- xori. -/
def execXori (t : Tid) (rd ra : Reg) (imm : BitVec 14) (s : State) : O := regOp1 t rd ra (intImm (fun v => wXor v (simm imm))) s

/-- shli by imm14[5:0]. -/
def execShli (t : Tid) (rd ra : Reg) (imm : BitVec 6) (s : State) : O := regOp1 t rd ra (intImm (fun v => wShl v (zimm imm))) s

/-- shri, logical. -/
def execShri (t : Tid) (rd ra : Reg) (imm : BitVec 6) (s : State) : O := regOp1 t rd ra (intImm (fun v => wShr v (zimm imm))) s

/-- sari, arithmetic. -/
def execSari (t : Tid) (rd ra : Reg) (imm : BitVec 6) (s : State) : O := regOp1 t rd ra (intImm (fun v => wSar v (zimm imm))) s

/-- slti. -/
def execSlti (t : Tid) (rd ra : Reg) (imm : BitVec 14) (s : State) : O := regOp1 t rd ra (intImm (fun v => wSlt v (simm imm))) s

/-- sltiu: the sign-extended immediate compared as unsigned. -/
def execSltiu (t : Tid) (rd ra : Reg) (imm : BitVec 14) (s : State) : O := regOp1 t rd ra (intImm (fun v => wSltu v (simm imm))) s

/-- li: the sign-extended immediate. -/
def execLi (t : Tid) (rd : Reg) (imm : BitVec 19) (s : State) : O := regOp t rd (fun _ => .ok (wInt (simm imm))) s

/-- lih: (rd << 19) with the immediate in bits 18:0; rd is the source (R107). -/
def execLih (t : Tid) (rd : Reg) (imm : BitVec 19) (s : State) : O :=
  regOp t rd (fun x => do
    let d ← need [.int] 3 (x.reg rd.val)
    pure (wInt ((d <<< 19) ||| zimm imm))) s

end Sys2Proof.Machine
end

