-- ==== Sys2Proof/Machine/Spellings.lean ====
section
/-! DEFINITION. Other spellings of four commands, for senders that name the parts of a response or of a packet themselves: a
request's mark is echoed from its slot (R384), the answer of the world comes with the response that carries it, and a packet
is given by its fields instead of its header. Each is the command that it spells, and no command of its own. -/

namespace Sys2Proof

/-- GLOBAL_ACCESS_RESPONSE with a CE of the sender's: the slot's own mark is echoed. -/
def Instr.globalAccessResponse (t : Tid) (_ : Bool) (ext : ExtAns) : Instr := .globalResponse t ext

/-- MATRIX_INSN_START with an answer: the response of the transfer carries it. -/
def Instr.matrixInsnStart (t : Tid) (_ : ExtAns) : Instr := .matrixStart t

/-- DMA_REQUEST_ISSUE with an answer: DMA_REQUEST_STATUS carries it. -/
def Instr.dmaRequestIssue (c : Fin 512) (ch : Fin 16) (_ : ExtAns) : Instr := .dmaRequest c ch

/-- The request packet with these fields; its check word holds, or it does not. -/
def requestPacket (port : Fin 597) (slot : Fin 128) (gen : Bool) (cls : BitVec 2) (crcOk cm : Bool) (acc : Acc) : Packet :=
  let h : Packet := { dest := 0, src := port, cls := cls, kind := if Machine.accWrites acc then .write else .read, slot := slot
                      gen := gen, cm := cm, crc := 0 }
  let w := Machine.crc32c (Machine.packetHead h ++ Machine.accPayload acc)
  { h with crc := if crcOk then w else ~~~w }

/-- MESH_REQUEST_ARRIVAL by the fields of its packet. -/
def Instr.meshRequestArrival (a : Agent) (port : Fin 597) (slot : Fin 128) (gen : Bool) (cls : BitVec 2) (crcOk cm : Bool)
    (addr : BitVec 48) (acc : Acc) (ext : ExtAns) : Instr :=
  .meshArrival a (requestPacket port slot gen cls crcOk cm acc) addr acc ext

namespace Machine

/-- What `Instr.globalAccessResponse` does. -/
def execGlobalAccessResponse (t : Tid) (_ : Bool) (ext : ExtAns) (s : State) : O := execGlobalResponse t ext s

/-- What `Instr.matrixInsnStart` does. -/
def execMatrixInsnStart (t : Tid) (_ : ExtAns) (s : State) : O := execMatrixStart t s

/-- What `Instr.dmaRequestIssue` does. -/
def execDmaRequestIssue (c : Fin 512) (ch : Fin 16) (_ : ExtAns) (s : State) : O := execDmaRequest c ch s

/-- What `Instr.meshRequestArrival` does. -/
def execMeshRequestArrival (a : Agent) (port : Fin 597) (slot : Fin 128) (gen : Bool) (cls : BitVec 2) (crcOk cm : Bool)
    (addr : BitVec 48) (acc : Acc) (ext : ExtAns) (s : State) : O :=
  execMeshArrival a (requestPacket port slot gen cls crcOk cm acc) addr acc ext s

end Machine

end Sys2Proof
end

