-- ==== Sys2Proof/Machine/Dispatch.lean ====
section
/-! DEFINITION. One arm per command: its meaning, or its rejection by name. -/

namespace Sys2Proof.Machine

def exec (i : Instr) (s : State) : Host.Outcome State Fault Refusal :=
  match i with
  | .add t rd ra rb => Sys2Proof.Machine.execAdd t rd ra rb s
  | .sub t rd ra rb => Sys2Proof.Machine.execSub t rd ra rb s
  | .and t rd ra rb => Sys2Proof.Machine.execAnd t rd ra rb s
  | .or t rd ra rb => Sys2Proof.Machine.execOr t rd ra rb s
  | .xor t rd ra rb => Sys2Proof.Machine.execXor t rd ra rb s
  | .shl t rd ra rb => Sys2Proof.Machine.execShl t rd ra rb s
  | .shr t rd ra rb => Sys2Proof.Machine.execShr t rd ra rb s
  | .sar t rd ra rb => Sys2Proof.Machine.execSar t rd ra rb s
  | .mul t rd ra rb => Sys2Proof.Machine.execMul t rd ra rb s
  | .mulh t rd ra rb => Sys2Proof.Machine.execMulh t rd ra rb s
  | .mulhu t rd ra rb => Sys2Proof.Machine.execMulhu t rd ra rb s
  | .div t rd ra rb => Sys2Proof.Machine.execDiv t rd ra rb s
  | .divu t rd ra rb => Sys2Proof.Machine.execDivu t rd ra rb s
  | .rem t rd ra rb => Sys2Proof.Machine.execRem t rd ra rb s
  | .remu t rd ra rb => Sys2Proof.Machine.execRemu t rd ra rb s
  | .min t rd ra rb => Sys2Proof.Machine.execMin t rd ra rb s
  | .max t rd ra rb => Sys2Proof.Machine.execMax t rd ra rb s
  | .minu t rd ra rb => Sys2Proof.Machine.execMinu t rd ra rb s
  | .maxu t rd ra rb => Sys2Proof.Machine.execMaxu t rd ra rb s
  | .slt t rd ra rb => Sys2Proof.Machine.execSlt t rd ra rb s
  | .sltu t rd ra rb => Sys2Proof.Machine.execSltu t rd ra rb s
  | .seq t rd ra rb => Sys2Proof.Machine.execSeq t rd ra rb s
  | .neg t rd ra => Sys2Proof.Machine.execNeg t rd ra s
  | .fAdd t rd ra rb => Sys2Proof.Machine.execFAdd t rd ra rb s
  | .fSub t rd ra rb => Sys2Proof.Machine.execFSub t rd ra rb s
  | .fMul t rd ra rb => Sys2Proof.Machine.execFMul t rd ra rb s
  | .fDiv t rd ra rb => Sys2Proof.Machine.execFDiv t rd ra rb s
  | .fSqrt t rd ra => Sys2Proof.Machine.execFSqrt t rd ra s
  | .fMin t rd ra rb => Sys2Proof.Machine.execFMin t rd ra rb s
  | .fMax t rd ra rb => Sys2Proof.Machine.execFMax t rd ra rb s
  | .fEq t rd ra rb => Sys2Proof.Machine.execFEq t rd ra rb s
  | .fLt t rd ra rb => Sys2Proof.Machine.execFLt t rd ra rb s
  | .fLe t rd ra rb => Sys2Proof.Machine.execFLe t rd ra rb s
  | .fCvtI t rd ra => Sys2Proof.Machine.execFCvtI t rd ra s
  | .iCvtF t rd ra => Sys2Proof.Machine.execICvtF t rd ra s
  | .fAbs t rd ra => Sys2Proof.Machine.execFAbs t rd ra s
  | .fNeg t rd ra => Sys2Proof.Machine.execFNeg t rd ra s
  | .fFma t rd ra rb => Sys2Proof.Machine.execFFma t rd ra rb s
  | .mov t rd ra => Sys2Proof.Machine.execMov t rd ra s
  | .tagRd t rd ra => Sys2Proof.Machine.execTagRd t rd ra s
  | .bits t rd ra => Sys2Proof.Machine.execBits t rd ra s
  | .fbits t rd ra => Sys2Proof.Machine.execFbits t rd ra s
  | .clr t rd => Sys2Proof.Machine.execClr t rd s
  | .tagSet t rd ra rb => Sys2Proof.Machine.execTagSet t rd ra rb s
  | .ofs t rd ra => Sys2Proof.Machine.execOfs t rd ra s
  | .sel t rd ra => Sys2Proof.Machine.execSel t rd ra s
  | .mka t rd ra selector => Sys2Proof.Machine.execMka t rd ra selector s
  | .addi t rd ra imm => Sys2Proof.Machine.execAddi t rd ra imm s
  | .andi t rd ra imm => Sys2Proof.Machine.execAndi t rd ra imm s
  | .ori t rd ra imm => Sys2Proof.Machine.execOri t rd ra imm s
  | .xori t rd ra imm => Sys2Proof.Machine.execXori t rd ra imm s
  | .shli t rd ra imm => Sys2Proof.Machine.execShli t rd ra imm s
  | .shri t rd ra imm => Sys2Proof.Machine.execShri t rd ra imm s
  | .sari t rd ra imm => Sys2Proof.Machine.execSari t rd ra imm s
  | .slti t rd ra imm => Sys2Proof.Machine.execSlti t rd ra imm s
  | .sltiu t rd ra imm => Sys2Proof.Machine.execSltiu t rd ra imm s
  | .li t rd imm => Sys2Proof.Machine.execLi t rd imm s
  | .lih t rd imm => Sys2Proof.Machine.execLih t rd imm s
  | .insnPair t hi lo => Sys2Proof.Machine.execInsnPair t hi lo s
  | .ld t rd ra size mode => Sys2Proof.Machine.execLd t rd ra size mode s
  | .ldx t rd ra size mode => Sys2Proof.Machine.execLdx t rd ra size mode s
  | .ldS t rd ra size mode => Sys2Proof.Machine.execLdS t rd ra size mode s
  | .ldF t rd ra mode => Sys2Proof.Machine.execLdF t rd ra mode s
  | .st t rs ra size mode => Sys2Proof.Machine.execSt t rs ra size mode s
  | .ldT t rd ra mode => Sys2Proof.Machine.execLdT t rd ra mode s
  | .stT t rs ra mode => Sys2Proof.Machine.execStT t rs ra mode s
  | .ls t rd ra size mode => Sys2Proof.Machine.execLs t rd ra size mode s
  | .ss t rs ra size mode => Sys2Proof.Machine.execSs t rs ra size mode s
  | .ldAcq t rd ra scope size disp => Sys2Proof.Machine.execLdAcq t rd ra scope size disp s
  | .stRel t rs ra scope size disp => Sys2Proof.Machine.execStRel t rs ra scope size disp s
  | .fenceAcq t scope => Sys2Proof.Machine.execFenceAcq t scope s
  | .fenceRel t scope => Sys2Proof.Machine.execFenceRel t scope s
  | .fenceBoth t scope => Sys2Proof.Machine.execFenceBoth t scope s
  | .push t ra => Sys2Proof.Machine.execPush t ra s
  | .pop t rd => Sys2Proof.Machine.execPop t rd s
  | .globalResponse t ext => Sys2Proof.Machine.execGlobalResponse t ext s
  | .bEq t ra rb off => Sys2Proof.Machine.execBEq t ra rb off s
  | .bNe t ra rb off => Sys2Proof.Machine.execBNe t ra rb off s
  | .bLt t ra rb off => Sys2Proof.Machine.execBLt t ra rb off s
  | .bGe t ra rb off => Sys2Proof.Machine.execBGe t ra rb off s
  | .bLtu t ra rb off => Sys2Proof.Machine.execBLtu t ra rb off s
  | .bGeu t ra rb off => Sys2Proof.Machine.execBGeu t ra rb off s
  | .bZ t ra off => Sys2Proof.Machine.execBZ t ra off s
  | .bNz t ra off => Sys2Proof.Machine.execBNz t ra off s
  | .jmp t off => Sys2Proof.Machine.execJmp t off s
  | .call t off => Sys2Proof.Machine.execCall t off s
  | .jmpR t ra => Sys2Proof.Machine.execJmpR t ra s
  | .callR t ra => Sys2Proof.Machine.execCallR t ra s
  | .callM t ra mode => Sys2Proof.Machine.execCallM t ra mode s
  | .ret t => Sys2Proof.Machine.execRet t s
  | .loop t ra n => Sys2Proof.Machine.execLoop t ra n s
  | .rds t rd sp => Sys2Proof.Machine.execRds t rd sp s
  | .wrs t sp ra => Sys2Proof.Machine.execWrs t sp ra s
  | .gate t n => Sys2Proof.Machine.execGate t n s
  | .eret t => Sys2Proof.Machine.execEret t s
  | .segH t rd selector => Sys2Proof.Machine.execSegH t rd selector s
  | .segQ t rd ra perm => Sys2Proof.Machine.execSegQ t rd ra perm s
  | .segInv t all selector => Sys2Proof.Machine.execSegInv t all selector s
  | .scalarNop t => Sys2Proof.Machine.execScalarNop t s
  | .illegalInstruction t => Sys2Proof.Machine.execIllegalInstruction t s
  | .shadowBankEntry c => Sys2Proof.Machine.execShadowBankEntry c s
  | .blockingWaitComplete t => Sys2Proof.Machine.execBlockingWaitComplete t s
  | .deadlock c => Sys2Proof.Machine.execDeadlock c s
  | .start a t => Sys2Proof.Machine.execStart a t s
  | .stop a t => Sys2Proof.Machine.execStop a t s
  | .resume a t => Sys2Proof.Machine.execResume a t s
  | .kill a t => Sys2Proof.Machine.execKill a t s
  | .tcfg t d ra => Sys2Proof.Machine.execTcfg t d ra s
  | .tcfgRd t rd tile => Sys2Proof.Machine.execTcfgRd t rd tile s
  | .tLd t d ra => Sys2Proof.Machine.execTLd t d ra s
  | .tLdCommit t => Sys2Proof.Machine.execTLdCommit t s
  | .tSt t tile ra => Sys2Proof.Machine.execTSt t tile ra s
  | .tStComplete t => Sys2Proof.Machine.execTStComplete t s
  | .tRel t mask => Sys2Proof.Machine.execTRel t mask s
  | .tMma t n a b reuseA reuseB chunk => Sys2Proof.Machine.execTMma t n a b reuseA reuseB chunk s
  | .matrixStart t => Sys2Proof.Machine.execMatrixStart t s
  | .tMmaCommit t => Sys2Proof.Machine.execTMmaCommit t s
  | .tDrain t n d ds fuse fs f cvm ra rb => Sys2Proof.Machine.execTDrain t n d ds fuse fs f cvm ra rb s
  | .tDrainComplete t => Sys2Proof.Machine.execTDrainComplete t s
  | .tClr t mask => Sys2Proof.Machine.execTClr t mask s
  | .tScale t n ra rb => Sys2Proof.Machine.execTScale t n ra rb s
  | .tSave t item ra => Sys2Proof.Machine.execTSave t item ra s
  | .tRest t item ra => Sys2Proof.Machine.execTRest t item ra s
  | .tRds t rd sel => Sys2Proof.Machine.execTRds t rd sel s
  | .mtxArmSpec a c => Sys2Proof.Machine.execMtxArmSpec a c s
  | .mtxArmAmax a c n => Sys2Proof.Machine.execMtxArmAmax a c n s
  | .vLd t vd ra => Sys2Proof.Machine.execVLd t vd ra s
  | .vSt t vs ra => Sys2Proof.Machine.execVSt t vs ra s
  | .vArithmetic t vd va vb m fn => Sys2Proof.Machine.execVArithmetic t vd va vb m fn s
  | .vCompare t md va vb m fn => Sys2Proof.Machine.execVCompare t md va vb m fn s
  | .vSpecialFunction t vd va m fn => Sys2Proof.Machine.execVSpecialFunction t vd va m fn s
  | .vRsum t vd va m int => Sys2Proof.Machine.execVRsum t vd va m int s
  | .vRmax t vd va m int => Sys2Proof.Machine.execVRmax t vd va m int s
  | .vRmin t vd va m int => Sys2Proof.Machine.execVRmin t vd va m int s
  | .vDot t n va vb fmt chunk => Sys2Proof.Machine.execVDot t n va vb fmt chunk s
  | .vDget t vd n => Sys2Proof.Machine.execVDget t vd n s
  | .vDclr t mask => Sys2Proof.Machine.execVDclr t mask s
  | .vCvt t vd va src dst cvm p => Sys2Proof.Machine.execVCvt t vd va src dst cvm p s
  | .vSexp t vd va vb m => Sys2Proof.Machine.execVSexp t vd va vb m s
  | .vTk t vd va k => Sys2Proof.Machine.execVTk t vd va k s
  | .vRand t vd => Sys2Proof.Machine.execVRand t vd s
  | .vBcast t vd ra => Sys2Proof.Machine.execVBcast t vd ra s
  | .vGet t rd va lane => Sys2Proof.Machine.execVGet t rd va lane s
  | .vMaskLogic t md ma mb fn => Sys2Proof.Machine.execVMaskLogic t md ma mb fn s
  | .vSave t item ra => Sys2Proof.Machine.execVSave t item ra s
  | .vRest t item ra => Sys2Proof.Machine.execVRest t item ra s
  | .vInsnComplete c => Sys2Proof.Machine.execVInsnComplete c s
  | .vecArmAmax a c => Sys2Proof.Machine.execVecArmAmax a c s
  | .dmaH t rd ch => Sys2Proof.Machine.execDmaH t rd ch s
  | .dmaArm t ra rb => Sys2Proof.Machine.execDmaArm t ra rb s
  | .dmaWait t rd ra nb => Sys2Proof.Machine.execDmaWait t rd ra nb s
  | .dmaStop t ra => Sys2Proof.Machine.execDmaStop t ra s
  | .dmaCtlStop a c ch => Sys2Proof.Machine.execDmaCtlStop a c ch s
  | .dmaStartDelay c ch => Sys2Proof.Machine.execDmaStartDelay c ch s
  | .dmaStartAfterChannel c ch => Sys2Proof.Machine.execDmaStartAfterChannel c ch s
  | .dmaRequest c ch => Sys2Proof.Machine.execDmaRequest c ch s
  | .dmaRequestStatus c ch ext => Sys2Proof.Machine.execDmaRequestStatus c ch ext s
  | .dmaChainRead c ch => Sys2Proof.Machine.execDmaChainRead c ch s
  | .dmaStopped c ch => Sys2Proof.Machine.execDmaStopped c ch s
  | .evWait t rd ra => Sys2Proof.Machine.execEvWait t rd ra s
  | .evPoll t rd ra => Sys2Proof.Machine.execEvPoll t rd ra s
  | .evSig t ra => Sys2Proof.Machine.execEvSig t ra s
  | .mqH t rd ra ext => Sys2Proof.Machine.execMqH t rd ra ext s
  | .mqPut t ra => Sys2Proof.Machine.execMqPut t ra s
  | .mqPutr t ra rb => Sys2Proof.Machine.execMqPutr t ra rb s
  | .mqCommitBlocking t rd ra rb cls => Sys2Proof.Machine.execMqCommitBlocking t rd ra rb cls s
  | .mqCommitNonblocking t rd ra rb cls => Sys2Proof.Machine.execMqCommitNonblocking t rd ra rb cls s
  | .mqCommitPosted t rd ra rb cls => Sys2Proof.Machine.execMqCommitPosted t rd ra rb cls s
  | .commitStatus id => Sys2Proof.Machine.execCommitStatus id s
  | .postedResend id => Sys2Proof.Machine.execPostedResend id s
  | .mqDrop t => Sys2Proof.Machine.execMqDrop t s
  | .messageDelivery id => Sys2Proof.Machine.execMessageDelivery id s
  | .combiningContribution id => Sys2Proof.Machine.execCombiningContribution id s
  | .combinedResultDelivery c q => Sys2Proof.Machine.execCombinedResultDelivery c q s
  | .mqRecv t rd ra nb => Sys2Proof.Machine.execMqRecv t rd ra nb s
  | .mqDone t ra => Sys2Proof.Machine.execMqDone t ra s
  | .mqDisp t => Sys2Proof.Machine.execMqDisp t s
  | .handlerDispatch t => Sys2Proof.Machine.execHandlerDispatch t s
  | .mqCtlWrite a c q value => Sys2Proof.Machine.execMqCtlWrite a c q value s
  | .mqBaseSizeWrite a c q size value => Sys2Proof.Machine.execMqBaseSizeWrite a c q size value s
  | .cinchArrive t g => Sys2Proof.Machine.execCinchArrive t g s
  | .cinchNodeArrival c g => Sys2Proof.Machine.execCinchNodeArrival c g s
  | .cinchRootReport src g => Sys2Proof.Machine.execCinchRootReport src g s
  | .cinchCompletion c g => Sys2Proof.Machine.execCinchCompletion c g s
  | .cinchConfigWrite a r g value => Sys2Proof.Machine.execCinchConfigWrite a r g value s
  | .remoteAccess a c acc => Sys2Proof.Machine.execRemoteAccess a c acc s
  | .keeperConfigWrite a c n r value => Sys2Proof.Machine.execKeeperConfigWrite a c n r value s
  | .spadPortmapWrite a c value => Sys2Proof.Machine.execSpadPortmapWrite a c value s
  | .spadBurnishVisit c g => Sys2Proof.Machine.execSpadBurnishVisit c g s
  | .spadBurnishForced c g => Sys2Proof.Machine.execSpadBurnishForced c g s
  | .spadBurnishSweep a c => Sys2Proof.Machine.execSpadBurnishSweep a c s
  | .dcacheFillComplete c ext => Sys2Proof.Machine.execDcacheFillComplete c ext s
  | .dcacheWritebackComplete c idx ext => Sys2Proof.Machine.execDcacheWritebackComplete c idx ext s
  | .flush a c => Sys2Proof.Machine.execFlush a c s
  | .inval a c => Sys2Proof.Machine.execInval a c s
  | .dcacheActionComplete c => Sys2Proof.Machine.execDcacheActionComplete c s
  | .icacheInval a c => Sys2Proof.Machine.execIcacheInval a c s
  | .pacerLoRead a k => Sys2Proof.Machine.execPacerLoRead a k s
  | .paceMeasurement u pace => Sys2Proof.Machine.execPaceMeasurement u pace s
  | .pacerCalibration trims => Sys2Proof.Machine.execPacerCalibration trims s
  | .pacerCalLapse k => Sys2Proof.Machine.execPacerCalLapse k s
  | .registerWrite a addr size value => Sys2Proof.Machine.execRegisterWrite a addr size value s
  | .sliceRequest a sl acc => Sys2Proof.Machine.execSliceRequest a sl acc s
  | .slicePatrolVisit sl => Sys2Proof.Machine.execSlicePatrolVisit sl s
  | .sliceBurnishSweep a sl => Sys2Proof.Machine.execSliceBurnishSweep a sl s
  | .refresh sl => Sys2Proof.Machine.execRefresh sl s
  | .refreshMultiplierRise t temp => Sys2Proof.Machine.execRefreshMultiplierRise t temp s
  | .refreshMultiplierFall t temp => Sys2Proof.Machine.execRefreshMultiplierFall t temp s
  | .stackClockLoss t => Sys2Proof.Machine.execStackClockLoss t s
  | .skiverPosting id => Sys2Proof.Machine.execSkiverPosting id s
  | .skvDescriptorStart sl prio => Sys2Proof.Machine.execSkvDescriptorStart sl prio s
  | .skGather sl prio => Sys2Proof.Machine.execSkGather sl prio s
  | .skMatvec sl prio => Sys2Proof.Machine.execSkMatvec sl prio s
  | .skAttend sl prio => Sys2Proof.Machine.execSkAttend sl prio s
  | .skTopk sl prio => Sys2Proof.Machine.execSkTopk sl prio s
  | .skAppend sl prio => Sys2Proof.Machine.execSkAppend sl prio s
  | .skScatterAdd sl prio => Sys2Proof.Machine.execSkScatterAdd sl prio s
  | .skCopy sl prio => Sys2Proof.Machine.execSkCopy sl prio s
  | .skFill sl prio => Sys2Proof.Machine.execSkFill sl prio s
  | .skvResultDelivery sl prio ext => Sys2Proof.Machine.execSkvResultDelivery sl prio ext s
  | .skvDeliveryStatus sl prio => Sys2Proof.Machine.execSkvDeliveryStatus sl prio s
  | .skvDescriptorComplete sl prio => Sys2Proof.Machine.execSkvDescriptorComplete sl prio s
  | .skvBufferAccess a sl acc => Sys2Proof.Machine.execSkvBufferAccess a sl acc s
  | .edgeWindowWrite a south off data en => Sys2Proof.Machine.execEdgeWindowWrite a south off data en s
  | .skvArmAmax a sl => Sys2Proof.Machine.execSkvArmAmax a sl s
  | .meshMulticastWrite a rc idx off data en => Sys2Proof.Machine.execMeshMulticastWrite a rc idx off data en s
  | .meshArrival a h addr acc ext => Sys2Proof.Machine.execMeshArrival a h addr acc ext s
  | .meshResponse port h data => Sys2Proof.Machine.execMeshResponse port h data s
  | .meshResendTimeout port slot => Sys2Proof.Machine.execMeshResendTimeout port slot s
  | .tokenBucketRefill port => Sys2Proof.Machine.execTokenBucketRefill port s
  | .cmapGather => Sys2Proof.Machine.execCmapGather s
  | .planeFenceDrainTimeout p => Sys2Proof.Machine.execPlaneFenceDrainTimeout p s
  | .frameReceive l f => Sys2Proof.Machine.execFrameReceive l f s
  | .latigoMulticast a rc addr data answers => Sys2Proof.Machine.execLatigoMulticast a rc addr data answers s
  | .latResendTimeout port slot mcol => Sys2Proof.Machine.execLatResendTimeout port slot mcol s
  | .remoteRecordExpiry slice unit key => Sys2Proof.Machine.execRemoteRecordExpiry slice unit key s
  | .linkTraining l stage => Sys2Proof.Machine.execLinkTraining l stage s
  | .linkTrainingRetry l => Sys2Proof.Machine.execLinkTrainingRetry l s
  | .linkDown l => Sys2Proof.Machine.execLinkDown l s
  | .latigoRefclkLoss => Sys2Proof.Machine.execLatigoRefclkLoss s
  | .latGroupWrite a g value => Sys2Proof.Machine.execLatGroupWrite a g value s
  | .latRetryWrite a value => Sys2Proof.Machine.execLatRetryWrite a value s
  | .doorbellWrite page off value => Sys2Proof.Machine.execDoorbellWrite page off value s
  | .hostMailboxPacket bytes => Sys2Proof.Machine.execHostMailboxPacket bytes s
  | .memrd dpa grants exclusive => Sys2Proof.Machine.execMemrd dpa grants exclusive s
  | .memwr dpa data => Sys2Proof.Machine.execMemwr dpa data s
  | .memwrptl dpa data en => Sys2Proof.Machine.execMemwrptl dpa data en s
  | .bisnp sl line write => Sys2Proof.Machine.execBisnp sl line write s
  | .birsp sl line keepShared writeback => Sys2Proof.Machine.execBirsp sl line keepShared writeback s
  | .hostSnoop hpa => Sys2Proof.Machine.execHostSnoop hpa s
  | .bar2Read off len => Sys2Proof.Machine.execBar2Read off len s
  | .bar2Write off data => Sys2Proof.Machine.execBar2Write off data s
  | .hostApertureAccess a acc => Sys2Proof.Machine.execHostApertureAccess a acc s
  | .hostApertureCompletion cpl data => Sys2Proof.Machine.execHostApertureCompletion cpl data s
  | .hdmDecoderCommit idx base size skip ways => Sys2Proof.Machine.execHdmDecoderCommit idx base size skip ways s
  | .gpfFlush => Sys2Proof.Machine.execGpfFlush s
  | .identify => Sys2Proof.Machine.execIdentify s
  | .getSupportedLogs => Sys2Proof.Machine.execGetSupportedLogs s
  | .getLog uuid off len => Sys2Proof.Machine.execGetLog uuid off len s
  | .getEventRecords log => Sys2Proof.Machine.execGetEventRecords log s
  | .clearEventRecords log handles => Sys2Proof.Machine.execClearEventRecords log handles s
  | .getPoisonList dpa len => Sys2Proof.Machine.execGetPoisonList dpa len s
  | .doeRequest bytes => Sys2Proof.Machine.execDoeRequest bytes s
  | .configurationRequest write off value => Sys2Proof.Machine.execConfigurationRequest write off value s
  | .msixUnmask vec => Sys2Proof.Machine.execMsixUnmask vec s
  | .ideIntegrityFailure cachemem => Sys2Proof.Machine.execIdeIntegrityFailure cachemem s
  | .hostDomainReset => Sys2Proof.Machine.execHostDomainReset s
  | .cxlReset failedClusters failedPlanes failedCores => Sys2Proof.Machine.execCxlReset s failedClusters failedPlanes failedCores
  | .commandTake entry status => Sys2Proof.Machine.execCommandTake entry status s
  | .nop id => Sys2Proof.Machine.execNop id s
  | .ringCreate id => Sys2Proof.Machine.execRingCreate id s
  | .ringDelete id => Sys2Proof.Machine.execRingDelete id s
  | .memCopy id ext => Sys2Proof.Machine.execMemCopy id ext s
  | .loadProgram id ext => Sys2Proof.Machine.execLoadProgram id ext s
  | .mapSegment id => Sys2Proof.Machine.execMapSegment id s
  | .coreInit id => Sys2Proof.Machine.execCoreInit id s
  | .regWrite id => Sys2Proof.Machine.execRegWrite id s
  | .regRead id => Sys2Proof.Machine.execRegRead id s
  | .launchGrid id => Sys2Proof.Machine.execLaunchGrid id s
  | .launchStep id ext => Sys2Proof.Machine.execLaunchStep id ext s
  | .launchBatchStatus id => Sys2Proof.Machine.execLaunchBatchStatus id s
  | .launchCompletionMessage => Sys2Proof.Machine.execLaunchCompletionMessage s
  | .launchTimeout id => Sys2Proof.Machine.execLaunchTimeout id s
  | .injectionPortMessage id => Sys2Proof.Machine.execInjectionPortMessage id s
  | .skvPlace id ext => Sys2Proof.Machine.execSkvPlace id ext s
  | .sliceMapSet id => Sys2Proof.Machine.execSliceMapSet id s
  | .latRouteSet id => Sys2Proof.Machine.execLatRouteSet id s
  | .sweep id => Sys2Proof.Machine.execSweep id s
  | .admitStream id ext => Sys2Proof.Machine.execAdmitStream id ext s
  | .releaseStream id => Sys2Proof.Machine.execReleaseStream id s
  | .fence id => Sys2Proof.Machine.execFence id s
  | .unfence id => Sys2Proof.Machine.execUnfence id s
  | .testUnit id => Sys2Proof.Machine.execTestUnit id s
  | .testUnitTimeout id => Sys2Proof.Machine.execTestUnitTimeout id s
  | .setPowerState id => Sys2Proof.Machine.execSetPowerState id s
  | .powerStateSettled => Sys2Proof.Machine.execPowerStateSettled s
  | .voltageSlewComplete => Sys2Proof.Machine.execVoltageSlewComplete s
  | .setRamp id => Sys2Proof.Machine.execSetRamp id s
  | .query id ext => Sys2Proof.Machine.execQuery id ext s
  | .mgmtRequest id ext => Sys2Proof.Machine.execMgmtRequest id ext s
  | .mgmtRequestTimeout id => Sys2Proof.Machine.execMgmtRequestTimeout id s
  | .noticeDelivery => Sys2Proof.Machine.execNoticeDelivery s
  | .pericaNop id => Sys2Proof.Machine.execPericaNop id s
  | .pericaMemCopy id ext => Sys2Proof.Machine.execPericaMemCopy id ext s
  | .pericaLoadProgram id ext => Sys2Proof.Machine.execPericaLoadProgram id ext s
  | .pericaMapSegment id => Sys2Proof.Machine.execPericaMapSegment id s
  | .pericaLaunchGrid id => Sys2Proof.Machine.execPericaLaunchGrid id s
  | .pericaQuery id ext => Sys2Proof.Machine.execPericaQuery id ext s
  | .mailboxSend d bytes => Sys2Proof.Machine.execMailboxSend d bytes s
  | .mailboxReceive d => Sys2Proof.Machine.execMailboxReceive d s
  | .idPubkey o => Sys2Proof.Machine.execIdPubkey o s
  | .leafStatus o => Sys2Proof.Machine.execLeafStatus o s
  | .fwWrite o off data => Sys2Proof.Machine.execFwWrite o off data s
  | .fwActivate o => Sys2Proof.Machine.execFwActivate o s
  | .storeGet o ty => Sys2Proof.Machine.execStoreGet o ty s
  | .storePut o ty value => Sys2Proof.Machine.execStorePut o ty value s
  | .dbgRead o core off len => Sys2Proof.Machine.execDbgRead o core off len s
  | .dbgWrite o core off data => Sys2Proof.Machine.execDbgWrite o core off data s
  | .getVersion o => Sys2Proof.Machine.execGetVersion o s
  | .getCapabilities o bytes => Sys2Proof.Machine.execGetCapabilities o bytes s
  | .negotiateAlgorithms o bytes => Sys2Proof.Machine.execNegotiateAlgorithms o bytes s
  | .getDigests o => Sys2Proof.Machine.execGetDigests o s
  | .getCertificate o slot off len => Sys2Proof.Machine.execGetCertificate o slot off len s
  | .challenge o slot nonce => Sys2Proof.Machine.execChallenge o slot nonce s
  | .getMeasurements o index signed nonce => Sys2Proof.Machine.execGetMeasurements o index signed nonce s
  | .keyExchange o slot bytes => Sys2Proof.Machine.execKeyExchange o slot bytes s
  | .finish o session bytes => Sys2Proof.Machine.execFinish o session bytes s
  | .keyUpdate o session => Sys2Proof.Machine.execKeyUpdate o session s
  | .heartbeat o session => Sys2Proof.Machine.execHeartbeat o session s
  | .endSession o session => Sys2Proof.Machine.execEndSession o session s
  | .mctpControlMessage overPcie bytes => Sys2Proof.Machine.execMctpControlMessage overPcie bytes s
  | .bypass => Sys2Proof.Machine.execBypass s
  | .idcode => Sys2Proof.Machine.execIdcode s
  | .samplePreload => Sys2Proof.Machine.execSamplePreload s
  | .extest => Sys2Proof.Machine.execExtest s
  | .clamp => Sys2Proof.Machine.execClamp s
  | .highz => Sys2Proof.Machine.execHighz s
  | .telemetryGather sensors rails power => Sys2Proof.Machine.execTelemetryGather sensors rails power s
  | .mgtTimeLoRead a => Sys2Proof.Machine.execMgtTimeLoRead a s
  | .thermalTrip sensor => Sys2Proof.Machine.execThermalTrip sensor s
  | .thermalTripEscalation => Sys2Proof.Machine.execThermalTripEscalation s
  | .railTrip rail => Sys2Proof.Machine.execRailTrip rail s
  | .currentTrip rail => Sys2Proof.Machine.execCurrentTrip rail s
  | .pwrHintWrite a k value => Sys2Proof.Machine.execPwrHintWrite a k value s
  | .rampWindow k => Sys2Proof.Machine.execRampWindow k s
  | .pwrFcastWrite a value => Sys2Proof.Machine.execPwrFcastWrite a value s
  | .fcastBmcMessage => Sys2Proof.Machine.execFcastBmcMessage s
  | .deviceColdReset pin => Sys2Proof.Machine.execDeviceColdReset pin s
  | .stackTraining failedStacks failedClusters failedPlanes failedCores => Sys2Proof.Machine.execStackTraining failedStacks failedClusters failedPlanes failedCores s
  | .deviceWarmReset failedClusters failedPlanes failedCores => Sys2Proof.Machine.execDeviceWarmReset s failedClusters failedPlanes failedCores
  | .clusterReset k => Sys2Proof.Machine.execClusterReset k s
  | .coreReset c => Sys2Proof.Machine.execCoreReset c s
  | .halt c => Sys2Proof.Machine.execHalt c s
  | .debugResume c => Sys2Proof.Machine.execDebugResume c s
  | .stepgo c thr => Sys2Proof.Machine.execStepgo c thr s
  | .memoryUpset p symbols => Sys2Proof.Machine.execMemoryUpset p symbols s
  | .stackClockRestore t => Sys2Proof.Machine.execStackClockRestore t s
  | .groupClockLock g => Sys2Proof.Machine.execGroupClockLock g s
  | .hostLinkTrained mode width rate => Sys2Proof.Machine.execHostLinkTrained mode width rate s
  | .completionTimeout cpHostAccess => Sys2Proof.Machine.execCompletionTimeout cpHostAccess s
  | .hostMailboxReplyTaken => Sys2Proof.Machine.execHostMailboxReplyTaken s
  | .bmcMessageRead => Sys2Proof.Machine.execBmcMessageRead s
  | .outOfServiceFault u => Sys2Proof.Machine.execOutOfServiceFault u s
  | .testUnitComplete id code item => Sys2Proof.Machine.execTestUnitComplete id code item s
  | .fenceChangeSettled id => Sys2Proof.Machine.execFenceChangeSettled id s
  | .managementPowerLoss => Sys2Proof.Machine.execManagementPowerLoss s

end Sys2Proof.Machine
end

