-- ==== Sys2Proof/Machine/Step.lean ====
section
/-! DEFINITION. One step of the block: the command at the front of the queue; with none waiting, one pacer tick. -/

namespace Sys2Proof.Machine

/-- The queue without its front. -/
def State.dequeue (s : State) : State := { s with pending := s.pending.tail }

/-- The pacer of cluster `k` after one tick. -/
def State.tickPacer (s : State) (k : Nat) : State := s.modCluster k (fun x => { x with pacer := x.pacer + 1 })

/-- The clock of slice `k` after 10 ns, in ps, while its stack's clock runs (R29, R323). -/
def State.tickSlice (s : State) (k : Nat) : State :=
  if (s.slice k).clkOk then s.modSlice k (fun x => { x with clock := x.clock + 10000 }) else s

/-- One tick of 10 ns (R31, R32, R36): the management time, every pacer and the running stack clocks advance; in OFF-RAILS
the clusters have no supply and their pacers stand (R480). Each core counts towards a deadlock (R132). Pacers start with the device cold reset; here all count from
the reset state on. -/
def State.tick (s : State) : State :=
  let s := if s.pwr.state = 3 then s else tickCores ((countFrom 0 64).foldl State.tickPacer s)
  let s := (countFrom 0 80).foldl State.tickSlice s
  { s with mgmt := { s.mgmt with time := s.mgmt.time + 10 } }

/-- Take the command at the front of the queue and run it on the rest; on an empty queue, tick (log 9). -/
def step (s : State) : Host.Outcome State Fault Refusal :=
  match s.pending with
  | [] => .next s.tick
  | c :: _ => exec c s.dequeue

/-- `s` with the command that a table word spells put in front of its queue. -/
def State.withFetchWord (s : State) (nbits w : Nat) : State :=
  match decodeTableWord nbits w with
  | some c => { s with pending := c :: s.pending }
  | none => s

end Sys2Proof.Machine
end

