-- ==== Sys2Proof/WellFormed.lean ====
section
/-! DEFINITION. Which commands are well formed: the operands are of a form that the spec gives the event. An event of any
other form does not occur in the part, and the meaning of such a command leaves the state as it is (log 88); every operand
of a bounded kind is bounded by its type in Syntax.lean. -/

namespace Sys2Proof

open Machine

/-- A write that a sender can make: the host's lies in ring memory, or is aligned and in BAR0 (R425, R426); another agent's has an address of the
part, and its own outcome at each (R519, R528). -/
def registerWf (a : Agent) (addr : BitVec 48) (size : Size) : Bool :=
  match a with
  | .host => (decide (0x400000 ≤ addr.toNat) && decide (addr.toNat + sizeBytes size ≤ 0x800000))
      || (decide (addr.toNat % sizeBytes size = 0) && decide (addr.toNat < 0x4000000))
  | _ => true

/-- A packet that can arrive at a unit: a request, record, contribution or posting of its agent (R371). -/
def packetWf (a : Agent) (h : Packet) (addr : Nat) (acc : Acc) : Bool :=
  match h.kind with
  | .record | .contribution | .posting => !h.rsp && packetFrom a h
  | _ => Packet.isRequest a h addr acc

/-- A command is well formed. Constructors not named here carry no operand that could be ill formed. -/
def Instr.wf : Instr → Bool
  | .remoteAccess a _ acc => accWf acc && decide (a ≠ .mgmt)
  | .sliceRequest a _ acc =>
    decide (a ≠ .mgmt) && accWf acc && decide (accOff acc % 32 = 0) && decide (accLen acc % 32 = 0)
      && decide (accOff acc / 512 = (accOff acc + accLen acc - 1) / 512)
  | .skvBufferAccess _ _ acc => accWf acc
  | .edgeWindowWrite _ _ off data en => accWf (.write off.toNat data en)
  | .meshMulticastWrite a _ _ off data en => decide (a ≠ .host ∧ a ≠ .mgmt) && accWf (.write off.toNat data en)
  | .meshArrival a h addr acc _ => packetWf a h addr.toNat acc
  | .meshResponse _ h data => h.rsp && (responseOf h.kind data).isSome
  | .hostApertureAccess a _ => decide (a ≠ .host ∧ a ≠ .mgmt)
  | .latigoMulticast a _ addr data _ => (agentPort a).isSome && decide (a ≠ .host) && accWf (.write addr.toNat data (allOn data))
  | .pacerCalibration trims => decide (trims.length = 64)
  | .registerWrite a addr size _ => registerWf a addr size
  | .memrd dpa _ _ => decide (dpa.toNat % 64 = 0)
  | .memwr dpa data => decide (data.length = 64) && decide (dpa.toNat % 64 = 0)
  | .memwrptl dpa data en => decide (data.length = 64) && decide (en.length = 64) && decide (dpa.toNat % 64 = 0)
  | .bar2Read off len => decide (len ≠ 0) && decide (off.toNat + len ≤ 2 ^ 28)
  | .bar2Write off data => decide (off.toNat + data.length ≤ 2 ^ 28)
  | .testUnitComplete _ code _ => decide (code.toNat ≤ 6)
  | .mailboxSend _ bytes => decide (bytes.length ≤ 256)
  | .telemetryGather sensors rails _ => decide (sensors.length = 89) && decide (rails.length = 12)
  | .hostLinkTrained mode width rate =>
    decide (mode.val ≠ 0) && [1, 2, 4, 8, 16].contains width.toNat && inRange 1 (modeRate mode.val) rate.toNat
  | _ => true

end Sys2Proof
end

