-- ==== Sys2Proof/Safety.lean ====
section
/-! DEFINITION. The terms that statements about the machine are made in: a thread that is ready to issue and whose fetch
hits, the state its instruction runs in, and the state after an instruction that wrote registers. -/

namespace Sys2Proof.Machine

/-- The fetch at pc finds its segment in the segment cache, passes the checks of R88, names no register, and hits an
instruction cache line in good order. -/
def fetchHits (s : State) (t : Tid) : Bool :=
  let x := s.thr t
  let c := s.core t.core.val
  match c.segs.find? (fun e => decide (e.table = segTable x x.priv) && decide (e.sel = pSel x.pc)) with
  | none => false
  | some e =>
    match segChecks e (pOff x.pc) 4 4 false .x 0 (wAddr x.pc) with
    | .ok g =>
      let g := ownGa s g
      !e.k && (decide (2 ^ 48 ≤ g) || (decodeLocal g).isTaggable) && decide (tget bytesDef c.icache (g / 64) ≠ [])
        && !tget boolDef c.icStruck (g / 64)
    | .error _ => false

/-- The thread may issue, its core is under no debugger's halt or step, and its fetch hits. -/
def ready (s : State) (t : Tid) : Bool :=
  canIssue s t && !bpMatch (s.core t.core.val).dbg t.thr.val (s.thr t).pc && !(s.core t.core.val).dbg.haltReq
    && (s.core t.core.val).dbg.stepping.isNone && fetchHits s t

/-- Ready, and the instruction is not the last of an active loop (R97). -/
def readyFlow (s : State) (t : Tid) : Bool :=
  ready s t && !(decide ((s.thr t).lc ≠ 0) && decide ((s.thr t).pc = (s.thr t).le))

/-- The state in which an accepted instruction of `t` runs: the thread is in RUN, the core's deadlock mark and, on thread
0, the hold-off of R123 are clear. -/
def State.issued (s : State) (t : Tid) : State :=
  (s.modCore t.core.val (CoreSt.atIssue t.thr.val)).modThr t
    (fun x => { x with st := .run })

/-- The state after an instruction of `t` that changed the thread by `f` and went on at the next one (R97). -/
def State.retire (s : State) (t : Tid) (f : ThreadSt → ThreadSt) : State :=
  (s.issued t).modThr t (fun x => advance (f x))

/-- The state after an instruction of `t` that wrote `v` to `rd` (R72). -/
def State.wrote (s : State) (t : Tid) (rd : Reg) (v : TWord) : State := s.retire t (fun x => x.setReg rd.val v)

end Sys2Proof.Machine
end

