-- ==== Sys2Proof/Certificates/Slice0/Obligations.lean ====
section
/-! DEFINITION. The statements for the provers. A statement's docstring names the rules it formalises; the tables of
`Sys2Proof.Claims` give the commands of one shape with the result the spec's tables give each. -/

open Sys2Proof Sys2Proof.Machine

namespace Sys2Proof.Claims

/-- A command of a thread with a destination and two sources. -/
abbrev Cmd3 := Tid → Reg → Reg → Reg → Instr
/-- A command of a thread with a destination and one source. -/
abbrev Cmd2 := Tid → Reg → Reg → Instr

/-- The integer group on two INT words (R105, R108). -/
def integerTable (x y : Word) : List (Cmd3 × Word) :=
  [(.add, x + y), (.sub, x - y), (.and, x &&& y), (.or, x ||| y), (.xor, x ^^^ y),
   (.shl, x <<< (y.toNat % 64)), (.shr, x >>> (y.toNat % 64)), (.sar, x.sshiftRight (y.toNat % 64)),
   (.mul, x * y), (.mulh, BitVec.ofInt 64 (x.toInt * y.toInt / 2 ^ 64)), (.mulhu, BitVec.ofNat 64 (x.toNat * y.toNat / 2 ^ 64)),
   (.min, if y.slt x then y else x), (.max, if x.slt y then y else x), (.minu, if y < x then y else x),
   (.maxu, if x < y then y else x), (.slt, if x.slt y then 1 else 0), (.sltu, if x < y then 1 else 0),
   (.seq, if x = y then 1 else 0)]

/-- Division (R105): a zero divisor gives all ones or the dividend. That a quotient is cut towards zero, and that a remainder has
the sign of its dividend, is the model's choice (log 97). -/
def divisionTable (x y : Word) : List (Cmd3 × Word) :=
  if y = 0 then [(.div, BitVec.allOnes 64), (.divu, BitVec.allOnes 64), (.rem, x), (.remu, x)]
  else [(.div, x.sdiv y), (.divu, x / y), (.rem, x.srem y), (.remu, x % y)]

/-- The F64 group on two F64 words (R50, R51, R106, R108). -/
def f64Table (x y : Word) : List (Cmd3 × TWord) :=
  [(.fAdd, wF64 (f64Add x y)), (.fSub, wF64 (f64Sub x y)), (.fMul, wF64 (f64Mul x y)), (.fDiv, wF64 (f64Div x y)),
   (.fMin, wF64 (f64Min x y)), (.fMax, wF64 (f64Max x y)), (.fEq, wBool ((f64 x).eqC (f64 y))),
   (.fLt, wBool ((f64 x).ltC (f64 y))), (.fLe, wBool ((f64 x).leC (f64 y)))]

/-- The bits of an F64 NaN (R42). -/
def nanBits (x : Word) : Bool := decide (0x7FF0000000000000 < x &&& 0x7FFFFFFFFFFFFFFF)

/-- The F64 group on one F64 word; a NaN result is the canonical one (R42). -/
def f64OneTable (x : Word) : List (Cmd2 × TWord) :=
  [(.fSqrt, wF64 (f64Sqrt x)), (.fCvtI, wInt (f64ToInt x)), (.fAbs, wF64 (if nanBits x then 0x7FF8000000000000 else x &&& 0x7FFFFFFFFFFFFFFF)),
   (.fNeg, wF64 (if nanBits x then 0x7FF8000000000000 else x ^^^ 0x8000000000000000)), (.bits, wInt x), (.tagRd, wInt 2)]

/-- Commands that accept one INT word. -/
def intOneTable (x : Word) : List (Cmd2 × TWord) :=
  [(.neg, wInt (0 - x)), (.iCvtF, wF64 (intToF64 x)), (.bits, wInt x), (.fbits, wF64 x), (.tagRd, wInt 1)]

/-- Immediate commands of one INT word: `i` is the 14-bit immediate, sign-extended; shifts use its low six bits. -/
def immediateTable (x : Word) (i : BitVec 14) (n : BitVec 6) : List ((Tid → Reg → Reg → Instr) × Word) :=
  [(fun t rd ra => .addi t rd ra i, x + i.signExtend 64), (fun t rd ra => .andi t rd ra i, x &&& i.signExtend 64),
   (fun t rd ra => .ori t rd ra i, x ||| i.signExtend 64), (fun t rd ra => .xori t rd ra i, x ^^^ i.signExtend 64),
   (fun t rd ra => .shli t rd ra n, x <<< n.toNat), (fun t rd ra => .shri t rd ra n, x >>> n.toNat),
   (fun t rd ra => .sari t rd ra n, x.sshiftRight n.toNat),
   (fun t rd ra => .slti t rd ra i, if x.slt (i.signExtend 64) then 1 else 0),
   (fun t rd ra => .sltiu t rd ra i, if x < i.signExtend 64 then 1 else 0)]

/-- An ADDR word of a selector and an offset. -/
def addrWord (sel : BitVec 8) (off : BitVec 48) : TWord := ⟨.addr, sel ++ (0 : BitVec 8) ++ off⟩

end Sys2Proof.Claims

open Sys2Proof.Claims

/-- R105, R108: every integer operation of two INT operands writes its INT result to rd (nothing for w0: R72) and
goes on at the next instruction; nothing else changes. -/
def Sys2Proof.Claims.IntegerGroupResults : Prop :=
  ∀ (s : State) (t : Tid) (rd ra rb : Reg) (x y : Word),
    ready s t = true → s.reg t ra.val = wInt x → s.reg t rb.val = wInt y →
    ∀ p ∈ integerTable x y, exec (p.1 t rd ra rb) s = .next (s.wrote t rd (wInt p.2))

/-- R105: division never faults; a zero divisor gives all ones or the dividend, and −2^63 ÷ −1 wraps; how signed quotients round
is the model's choice (log 97). -/
def Sys2Proof.Claims.DivisionNeverFaults : Prop :=
  (∀ (s : State) (t : Tid) (rd ra rb : Reg) (x y : Word),
    ready s t = true → s.reg t ra.val = wInt x → s.reg t rb.val = wInt y →
    ∀ p ∈ divisionTable x y, exec (p.1 t rd ra rb) s = .next (s.wrote t rd (wInt p.2))) ∧
  (∀ (s : State) (t : Tid) (rd ra rb : Reg),
    ready s t = true → s.reg t ra.val = wInt (BitVec.intMin 64) → s.reg t rb.val = wInt (BitVec.allOnes 64) →
    exec (.div t rd ra rb) s = .next (s.wrote t rd (wInt (BitVec.intMin 64))) ∧
    exec (.rem t rd ra rb) s = .next (s.wrote t rd (wInt 0)))

/-- R106 to R108: the F64 group, f.fma with rd as its third source included. -/
def Obligations.F64GroupResults : Prop :=
  ∀ (s : State) (t : Tid) (rd ra rb : Reg) (x y z : Word),
    ready s t = true → s.reg t ra.val = wF64 x → s.reg t rb.val = wF64 y →
    (∀ p ∈ f64Table x y, exec (p.1 t rd ra rb) s = .next (s.wrote t rd p.2)) ∧
    (∀ p ∈ f64OneTable x, exec (p.1 t rd ra) s = .next (s.wrote t rd p.2)) ∧
    (s.reg t rd.val = wF64 z → exec (.fFma t rd ra rb) s = .next (s.wrote t rd (wF64 (f64Fma z x y))))

/-- R90: pointer arithmetic works on the offset alone, modulo 2^48; ADDR − ADDR of one selector is the signed 48-bit
difference; of two selectors, it answers as an instruction that raises TAG_TYPE for its second operand and does nothing else. -/
def Obligations.PointerArithmetic : Prop :=
  ∀ (s : State) (t : Tid) (rd ra rb : Reg) (sel : BitVec 8) (off off2 : BitVec 48) (y : Word) (i : BitVec 14),
    ready s t = true → s.reg t ra.val = addrWord sel off →
    (s.reg t rb.val = wInt y →
      exec (.add t rd ra rb) s = .next (s.wrote t rd (addrWord sel (off + y.truncate 48))) ∧
      exec (.add t rd rb ra) s = .next (s.wrote t rd (addrWord sel (off + y.truncate 48))) ∧
      exec (.sub t rd ra rb) s = .next (s.wrote t rd (addrWord sel (off - y.truncate 48)))) ∧
    (s.reg t rb.val = addrWord sel off2 →
      exec (.sub t rd ra rb) s = .next (s.wrote t rd (wInt ((off - off2).signExtend 64)))) ∧
    exec (.addi t rd ra i) s = .next (s.wrote t rd (addrWord sel (off + i.signExtend 48))) ∧
    (∀ sel2, sel2 ≠ sel → s.reg t rb.val = addrWord sel2 off2 → exec (.sub t rd ra rb) s = issue t false false (mtrap .tagType 2) s)

/-- R107: the immediate commands, li and lih. -/
def Sys2Proof.Claims.ImmediateResults : Prop :=
  ∀ (s : State) (t : Tid) (rd ra : Reg) (x : Word) (i : BitVec 14) (n : BitVec 6) (u : BitVec 19),
    ready s t = true →
    exec (.li t rd u) s = .next (s.wrote t rd (wInt (u.signExtend 64))) ∧
    (s.reg t ra.val = wInt x → ∀ p ∈ immediateTable x i n, exec (p.1 t rd ra) s = .next (s.wrote t rd (wInt p.2))) ∧
    (s.reg t rd.val = wInt x → exec (.lih t rd u) s = .next (s.wrote t rd (wInt ((x <<< 19) ||| u.zeroExtend 64))))

/-- R73, R74, R107, R108: moves, tags, pointers made and taken apart, nop, and commands on one INT word. -/
def Sys2Proof.Claims.MoveAndTagResults : Prop :=
  ∀ (s : State) (t : Tid) (rd ra rb : Reg) (w : TWord) (x : Word) (sel : BitVec 8) (off : BitVec 48) (g : Tag),
    ready s t = true →
    exec (.scalarNop t) s = .next (s.retire t id) ∧
    exec (.clr t rd) s = .next (s.wrote t rd {}) ∧
    (s.reg t ra.val = w →
      exec (.tagRd t rd ra) s = .next (s.wrote t rd (wInt (BitVec.ofNat 64 w.tag.num))) ∧
      (w.tag ≠ .empty → exec (.mov t rd ra) s = .next (s.wrote t rd w))) ∧
    (s.reg t ra.val = wInt x → ∀ p ∈ intOneTable x, exec (p.1 t rd ra) s = .next (s.wrote t rd p.2)) ∧
    (s.reg t ra.val = wInt (off.zeroExtend 64) → exec (.mka t rd ra sel) s = .next (s.wrote t rd (addrWord sel off))) ∧
    (s.reg t ra.val = addrWord sel off →
      exec (.ofs t rd ra) s = .next (s.wrote t rd (wInt (off.zeroExtend 64))) ∧
      exec (.sel t rd ra) s = .next (s.wrote t rd (wInt (sel.zeroExtend 64)))) ∧
    (s.reg t ra.val = w → w.tag ≠ .empty → s.reg t rb.val = wInt (BitVec.ofNat 64 g.num) →
      mayCreate (s.thr t).priv g = true → (g = .empty ∨ formOk g w.data = true) →
      exec (.tagSet t rd ra rb) s = .next (s.wrote t rd (if g = .empty then {} else ⟨g, w.data⟩)))

/-- R83, R84: both halves of a pair read before either writes; a result of one half is no operand of the other. -/
def Sys2Proof.Claims.PairReadsBeforeWriting : Prop :=
  ∀ (s : State) (t : Tid) (d e a b : Reg) (i : BitVec 5) (x y u v : Word),
    ready s t = true → d ≠ e →
    s.reg t d.val = wInt x → s.reg t e.val = wInt y → s.reg t a.val = wInt u → s.reg t b.val = wInt v →
    exec (.insnPair t (.add d a) (.sub e b)) s =
      .next (s.retire t (fun z => (z.setReg d.val (wInt (x + u))).setReg e.val (wInt (y - v)))) ∧
    exec (.insnPair t (.neg d a) (.addi e i)) s =
      .next (s.retire t (fun z => (z.setReg d.val (wInt (0 - u))).setReg e.val (wInt (y + i.signExtend 64)))) ∧
    exec (.insnPair t (.mov d e) (.mov e d)) s =
      .next (s.retire t (fun z => (z.setReg d.val (wInt y)).setReg e.val (wInt x)))

namespace Sys2Proof.Claims

/-- Commands of the integer group that need two INT operands. -/
def intPairCmds : List Cmd3 :=
  [.and, .or, .xor, .shl, .shr, .sar, .mul, .mulh, .mulhu, .div, .divu, .rem, .remu, .min, .max, .minu, .maxu, .slt, .sltu]

/-- The OPND field and the cause code of R71 for two operands that must be INT, ra checked first; none when both pass. -/
def intPairCheck (a b : TWord) : Option (Nat × Nat) :=
  if a.tag = .empty then some (1, 0x02)
  else if a.tag ≠ .int then some (1, 0x03)
  else if b.tag = .empty then some (2, 0x02)
  else if b.tag ≠ .int then some (2, 0x03)
  else none

/-- The shadow bank of core `c` in state `u` after an entry of its thread 0 from state `s` to `pc` (R125), with w1 and w2 as
given: the primary bank frozen, w30 and w31 as saved, the other shadow registers kept from `k` on. -/
def ShadowEntered (s u : State) (c : Fin 512) (w1 w2 : TWord) (k : Nat) (pc : Word) (compat : Bool) : Prop :=
  let t : Tid := ⟨c, 0⟩
  (u.core c.val).inShadow = true ∧ (u.core c.val).gns = 0 ∧ (u.core c.val).gnp = (s.core c.val).gnp ∧
  (u.core c.val).shadow.regs = (s.thr t).regs ∧ (u.core c.val).shadow.dsp = (s.thr t).dsp ∧
  (u.core c.val).shadow.rtp = (s.thr t).rtp ∧ (u.core c.val).shadow.lc = (s.thr t).lc ∧
  u.reg t 30 = ⟨.code, mkCode (s.thr t).pc (s.thr t).compat⟩ ∧ u.reg t 31 = ⟨.stat, srWord 0 (s.thr t)⟩ ∧
  u.reg t 1 = w1 ∧ u.reg t 2 = w2 ∧
  (∀ r, k ≤ r → r < 30 → (u.reg t r) = ({ regs := (s.core c.val).shadow.regs } : ThreadSt).reg r) ∧
  (u.thr t).priv = true ∧ (u.thr t).compat = compat ∧ (u.thr t).st = .run ∧ (u.thr t).held = none ∧ (u.thr t).pc = pc ∧
  (∀ n, 1 ≤ n → n < 8 → ((u.core c.val).t n).regs = ((s.core c.val).t n).regs ∧ ((u.core c.val).t n).pc = ((s.core c.val).t n).pc) ∧
  (∀ d, d ≠ c.val → u.core d = s.core d) ∧ (u.core c.val).spad = (s.core c.val).spad

/-- An entry for a fault of thread 0 itself, or for a deadlock: w1 and THR_CAUSE hold the cause word, w2 the detail or the
mask, and execution goes on at CORE_EXCVEC. -/
def EnteredShadow (s u : State) (c : Fin 512) (cause : Word) (detail : TWord) : Prop :=
  ShadowEntered s u c (wInt cause) detail 3 (codePc (s.core c.val).excvec) false ∧
  (u.thr ⟨c, 0⟩).cause = cause.truncate 32 ∧ (∀ n, 1 ≤ n → n < 8 → (u.core c.val).t n = (s.core c.val).t n)

/-- Everything outside the cores is as before. -/
def OutsideCoresSame (s u : State) : Prop :=
  u.clusters = s.clusters ∧ u.slices = s.slices ∧ u.fabric = s.fabric ∧ u.lat = s.lat ∧ u.root = s.root ∧
  u.smap = s.smap ∧ u.host = s.host ∧ u.cp = s.cp ∧ u.mgmt = s.mgmt ∧ u.pwr = s.pwr ∧ u.msgs = s.msgs ∧
  u.outbox = s.outbox

/-- The command processor runs and nothing stands in its injection port (R20 to R23). -/
def portFree (s : State) : Bool := s.cpUp && s.cp.inj.isEmpty && s.cp.injWait.isEmpty

/-- Thread 0 of the core runs in its primary bank, outside the double-fault handler, under policy NOTIFY. -/
def primary (s : State) (c : Fin 512) : Bool :=
  !(s.core c.val).inShadow && !(s.thr ⟨c, 0⟩).df && !(s.core c.val).policyStop

end Sys2Proof.Claims

/-- R71, R125, R134: a failing operand of thread 0 takes the exception into the shadow bank before the instruction has
any effect; OPND names the first operand that fails, ra before rb. -/
def Sys2Proof.Claims.OperandFaultEntersShadowBank : Prop :=
  ∀ (s : State) (c : Fin 512) (rd ra rb : Reg) (o k : Nat),
    ready s ⟨c, 0⟩ = true → primary s c = true →
    intPairCheck (s.reg ⟨c, 0⟩ ra.val) (s.reg ⟨c, 0⟩ rb.val) = some (o, k) →
    ∀ f ∈ intPairCmds, ∃ u, exec (f ⟨c, 0⟩ rd ra rb) s = .next u ∧
      EnteredShadow s u c (BitVec.ofNat 64 (o * 2048 + k)) (wInt 0) ∧ OutsideCoresSame s u

/-- R85, R125: an illegal instruction of thread 0 enters the shadow bank with cause INSN_ILLEGAL. -/
def Sys2Proof.Claims.IllegalInstructionTraps : Prop :=
  ∀ (s : State) (c : Fin 512), ready s ⟨c, 0⟩ = true → primary s c = true →
    ∃ u, exec (.illegalInstruction ⟨c, 0⟩) s = .next u ∧ EnteredShadow s u c 0x01 (wInt 0) ∧ OutsideCoresSame s u

/-- R128, second row: eret of thread 0 in the shadow bank with GNS 0 goes back to the primary bank: pc and COMPAT from
w30 and w31, the frozen registers in force again, the shadow registers kept for the next activation. -/
def Obligations.EretLeavesShadowBank : Prop :=
  ∀ (s : State) (c : Fin 512) (ret st : Word),
    let t : Tid := ⟨c, 0⟩
    readyFlow s t = true → (s.core c.val).inShadow = true → (s.core c.val).gns = 0 → (s.thr t).df = false →
    (s.thr t).priv = true → s.reg t 30 = ⟨.code, ret⟩ → s.reg t 31 = ⟨.stat, st⟩ →
    ∃ u, exec (.eret t) s = .next u ∧ (u.core c.val).inShadow = false ∧
      (u.thr t).regs = (s.core c.val).shadow.regs ∧ (u.thr t).dsp = (s.core c.val).shadow.dsp ∧
      (u.thr t).rtp = (s.core c.val).shadow.rtp ∧ (u.thr t).lc = (s.core c.val).shadow.lc ∧
      (u.thr t).pc = codePc ret ∧ (u.thr t).compat = st.getLsbD 0 ∧ (u.core c.val).gnp = (s.core c.val).gnp ∧
      (u.core c.val).shadow.regs = (s.thr t).regs ∧
      (∀ n, 1 ≤ n → n < 8 → (u.core c.val).t n = (s.core c.val).t n) ∧ OutsideCoresSame s u

/-- R131, R395: a fault of a thread whose DF is 1 resets the core, records the cause word, fences the core, revokes the streams
that no longer fit, and tells the host. -/
def Obligations.ThirdFaultResetsCore : Prop :=
  ∀ (s : State) (t : Tid) (rd ra rb : Reg),
    ready s t = true → (s.thr t).df = true → (s.reg t ra.val).tag = .empty → s.cp.notices.length + s.cp.streams.length < 256 →
    portFree s = true →
    ∀ f ∈ intPairCmds, ∃ u, exec (f t rd ra rb) s = .next u ∧
      (u.core t.core.val).fenced = true ∧
      (u.core t.core.val).resetCause = BitVec.ofNat 17 (65536 + 2048 + 256 * t.thr.val + 2) ∧
      (u.core t.core.val).epoch = nextEpoch (s.core t.core.val).epoch ∧
      (∀ n, n < 8 → (u.core t.core.val).t n = ThreadSt.reset n) ∧
      (∃ l, u.cp.notices = s.cp.notices ++ l ++ [⟨4, BitVec.ofNat 64 t.core.val ||| 0x80000000, BitVec.ofNat 64 (2048 + 256 * t.thr.val + 2)⟩] ∧
        ∀ n ∈ l, n.status = 3) ∧
      (∀ d, d ≠ t.core.val → u.core d = s.core d)

namespace Sys2Proof.Claims

/-- The byte offset of a scratchpad access whose checks (R93, R144) pass and whose row reads in good order. -/
def spadHit (s : State) (t : Tid) (b : Word) (n : Nat) : Option Nat :=
  let x := s.core t.core.val
  match spadCheck x (x.win t.thr.val) b 1 n 0 with
  | .ok p =>
    if !mustWait x t.core.val t.thr.val [.spad p n] && !tget boolDef x.spad.mem.poison (p / 512)
        && (x.spad.mem.struck (p / 512)).isEmpty then some p else none
  | .error _ => none

/-- An M-layout address that R91 accepts: the address and the base register's update. -/
def addrOf (s : State) (t : Tid) (ra : Reg) (glob : Bool) (n : Nat) (mode : MMode) : Option (Word × Option (Nat × Word)) :=
  match mAddr (s.thr t) ra glob n mode with
  | .ok r => some r
  | .error _ => none

/-- A segment of the cache that passes the checks of R88 for an access at pointer `a`. -/
def segHit (s : State) (t : Tid) (a : Word) (n : Nat) (tagged : Bool) (p : Perm) : Option (SegEnt × Nat) :=
  match (s.core t.core.val).segs.find? (fun e => decide (e.table = segTable (s.thr t) (s.thr t).priv) && decide (e.sel = pSel a)) with
  | none => none
  | some e =>
    match segChecks e (pOff a) n n tagged p 0 (wAddr a) with
    | .ok g => some (e, ownGa s g)
    | .error _ => none

/-- A cached access that hits (R158): its global address and the key of its way; no watchpoint and no earlier access is
in its way and the way's parity is good. -/
def cacheHit (s : State) (t : Tid) (a : Word) (n : Nat) (tagged write : Bool) : Option (Nat × Nat) :=
  match segHit s t a n tagged (if write then .w else .r) with
  | none => none
  | some (e, g) =>
    match dcFind (s.core t.core.val).dc (g / 64) with
    | none => none
    | some k =>
      if cacheable e g && !(dcGet (s.core t.core.val).dc k).parity
          && !mustWait (s.core t.core.val) t.core.val t.thr.val (spansOf s.smap t.core.val g n)
          && !wpMatch (s.core t.core.val).dbg t.thr.val g n write then some (g, k) else none

/-- The request of an access: a write of the given bytes, or a read. -/
def reqOf (g n : Nat) (w : Option (List Byte)) : Acc :=
  match w with
  | some b => .write g b (allOn b)
  | none => .read g n

/-- An access past the cache that may set out (R89): its segment, global address, and the slot it gets at the core's port. -/
def pastCache (s : State) (t : Tid) (a : Word) (n : Nat) (w : Option (List Byte)) : Option (SegEnt × Nat × Nat × State) :=
  match segHit s t a n false (if w.isSome then .w else .r) with
  | none => none
  | some (e, g) =>
    if mustWait (s.core t.core.val) t.core.val t.thr.val (spansOf s.smap t.core.val g n) then none
    else match sendUnder s.smap (s.issued t) t.core.val (threadClass s t) (reqOf g n w) with
      | (.slot k, u) => some (e, g, k, u)
      | _ => none

/-- An access of a disp form that is outstanding past the cache: pointer, global address, bytes, store data, whether its
segment is of the core region, what it completes, its slot, and the map that translated it (R315). -/
def outstanding (s : State) (a : Word) (g n : Nat) (w : Option (List Byte)) (kseg : Bool) (fin : AccFin) (k : Nat) : GAcc :=
  { addr := a, ga := g, size := n, tagged := false, wdata := w, kseg := kseg, stream := false, fin := fin, slot := k, map := s.smap }

/-- A slice that answers: powered, not fenced, clocked, ready. -/
def sliceServes (s : State) (k : Nat) : Bool := !s.drowsy && !s.sliceFenced k && (s.slice k).clkOk && (s.slice k).ready

/-- A slice that answers and whose memory is sound: no line of the host's, no poison, no upset. -/
def sliceSound (s : State) (k : Nat) : Prop :=
  sliceServes s k = true ∧ (s.slice k).dir = [] ∧ (s.slice k).mem.poison = [] ∧ (s.slice k).mem.upsets = []

/-- `n` bytes at global address `ga`, in one 512-byte block, that map `m` translates to offset `o` of a sound slice. -/
def hbmAt (s : State) (m : SliceMap) (ga n : Nat) (k : Fin 80) (o : Nat) : Prop :=
  0 < n ∧ ga < 2 ^ 48 ∧ ga % 512 + n ≤ 512 ∧ translate { s with smap := m } (decodeLocal ga) = some (k.val, o) ∧
  o + n ≤ 0x300000000 ∧ sliceSound s k.val

/-- The bytes of a memory after a write of `d` at `o`. -/
def WroteAt (old new : Bytes) (o : Nat) (d : List Byte) : Prop :=
  ∀ a, readByte new a = if o ≤ a ∧ a < o + d.length then lget 0 d (a - o) else readByte old a

/-- The slices after a write of `d` at `o` of slice `k`: these bytes and no others. -/
def SliceWrote (s u : State) (k : Fin 80) (o : Nat) (d : List Byte) : Prop :=
  WroteAt (s.slice k.val).mem.bytes (u.slice k.val).mem.bytes o d ∧ ∀ j, j ≠ k.val → u.slice j = s.slice j

/-- No core but `c` differs. -/
def OtherCores (s u : State) (c : Fin 512) : Prop := ∀ d, d ≠ c.val → u.core d = s.core d

/-- The thread goes on after what it waited for: nothing waits at the boundary. -/
def quietBoundary (s : State) (t : Tid) : Prop := (s.thr t).cmds = [] ∧ (s.core t.core.val).dbg.haltReq = false

/-- A base register after its update: ADDR of a global access, INT of a scratchpad one. -/
def based (tag : Tag) (u : Option (Nat × Word)) (x : ThreadSt) : ThreadSt :=
  match u with
  | some (r, v) => x.setReg r ⟨tag, v⟩
  | none => x

/-- The bytes of a cached access that hits. -/
def lineBytes (s : State) (t : Tid) (g k n : Nat) : List Byte := slice (dcGet (s.core t.core.val).dc k).bytes (g % 64) n

/-- What a load delivers of the bytes it read; none for 16 bytes that hold no word (R78, R79). -/
def valueAs (as : LoadAs) (b : List Byte) : Option TWord :=
  match as with
  | .zero => some (wInt (BitVec.ofNat 64 (leNat b)))
  | .sign => some (wInt (BitVec.ofInt 64 (signedOf (8 * b.length) (leNat b))))
  | .f64 => some (wF64 (BitVec.ofNat 64 (leNat b)))
  | .tagged => (bytesWord b).map normWord

/-- The thread after an access has ended with bytes `b`; none where its tagged word raises an exception. -/
def ended (g : GAcc) (b : List Byte) (x : ThreadSt) : Option ThreadSt :=
  let y := { x with held := none, st := .run }
  match g.fin with
  | .load rd as base => (valueAs as b).map (fun w => advance ((based .addr base y).setReg rd w))
  | .store base => some (advance (based .addr base y))
  | .push => some (advance { y with dsp := pAdd y.dsp (-16) })
  | .pop rd => (bytesWord b).map (fun w => advance (({ y with dsp := pAdd y.dsp 16 } : ThreadSt).setReg rd (normWord w)))
  | .call target compat => some { y with rtp := pAdd y.rtp (-16), compat := compat, pc := target }
  | .ret => (bytesWord b).bind (fun w =>
      if w.tag = .code then some { y with rtp := pAdd y.rtp 16, compat := codeMode w.data, pc := codePc w.data } else none)
  | .acquire rd _ => some (advance (y.setReg rd (wInt (BitVec.ofNat 64 (leNat b)))))
  | .release => some (advance y)

/-- The core's own view of bytes read past the cache: its dirty bytes over them (R292). -/
def ownView (s : State) (t : Tid) (g : Nat) (b : List Byte) : List Byte := dcOverlayGo s.smap (s.core t.core.val).dc 3 g b

/-- No line in the cache is dirty and no write-back is on its way. -/
def cacheClean (s : State) (t : Tid) : Bool := (s.core t.core.val).dc.wbs.isEmpty && (dcDirty (s.core t.core.val).dc).isEmpty

/-- Every write-back of the core has left. -/
def wbsSent (s : State) (t : Tid) : Prop := ∀ w ∈ (s.core t.core.val).dc.wbs, w.slot < 128 ∨ w.answer.isSome = true

/-- The line of a global address, under each of its names, has no byte in the cache, or on its way back, that memory lacks. -/
def lineClean (s : State) (t : Tid) (g : Nat) : Prop :=
  wbsSent s t ∧ (∀ w ∈ (s.core t.core.val).dc.wbs, w.line ∉ dcNames s.smap (g / 64)) ∧
  ∀ k ∈ dcDirty (s.core t.core.val).dc, (dcGet (s.core t.core.val).dc k).line ∉ dcNames s.smap (g / 64)

/-- What an acquire of the scope leaves (R299, R301): nothing cached, nothing on its way with what it read before, no earlier copy in
a skiver's buffer to be used. -/
def emptied (s : State) (t : Tid) (scope : Scope) : State :=
  if wide scope then (refetch s t.core.val (fun _ => true)).modCore t.core.val (fun x =>
    { x with dc := { x.dc with ways := [] }, stale := BitVec.allOnes 80 }) else s

/-- The dirty lines have become write-backs that thread `t` waits for, in instruction `i` (R160, R298). -/
def Draining (s u : State) (t : Tid) (i : Instr) : Prop :=
  let d := (s.core t.core.val).dc
  let e := (u.core t.core.val).dc
  (u.thr t).held = some (.drain i none) ∧ (u.thr t).pc = (s.thr t).pc ∧ dcDirty e = [] ∧
  e.wbs.map (fun w => (w.line, w.bytes, w.mask, w.why)) =
    d.wbs.map (fun w => (w.line, w.bytes, w.mask, w.why)) ++ (dcDirty d).map (fun k =>
      ((dcGet d k).line, (dcGet d k).bytes, (dcGet d k).dirty, .drain t.thr)) ∧
  (∀ k, (dcGet e k).bytes = (dcGet d k).bytes ∧ (dcGet e k).line = (dcGet d k).line) ∧ ∀ n, n ≠ t.core.val → u.core n = s.core n

/-- The state after a load that hit: the way is young again, unless the load streams (R159). -/
def touched (s : State) (t : Tid) (k : Nat) (stream : Bool) : State :=
  (s.issued t).modDc t.core.val (fun d => if stream then d else dcPut d k { dcGet d k with age := 0 })

end Sys2Proof.Claims

/-- R78, R91, R93: ls and ss through the thread's window: zero-extended bytes to rd; the low bytes of the source to the
row, every other byte of the scratchpad as before; the base register updated as the mode says. -/
def Sys2Proof.Claims.ScratchpadLoadAndStore : Prop :=
  ∀ (s : State) (t : Tid) (r ra : Reg) (size : Size) (mode : MMode) (b : Word) (u : Option (Nat × Word)) (p : Nat),
    ready s t = true → addrOf s t ra false (sizeBytes size) mode = some (b, u) →
    (loadLegal r ra mode = .ok () → spadHit s t b (sizeBytes size) = some p →
      exec (.ls t r ra size mode) s = .next (s.retire t (fun x => (based .int u x).setReg r.val
        (wInt (BitVec.ofNat 64 (leNat (readBytes (s.core t.core.val).spad.mem.bytes p (sizeBytes size)))))))) ∧
    (∀ v, storeSource (s.reg t r.val) = .ok v → spadHit s t b (sizeBytes size) = some p →
      let m := writeBytes (s.core t.core.val).spad.mem.bytes p (leBytes (sizeBytes size) v.toNat)
      exec (.ss t r ra size mode) s = .next ((s.retire t (based .int u)).modCore t.core.val (fun x =>
        { x with spad := { x.spad with mem := { x.spad.mem.fresh (p / 512) with bytes := m } } })) ∧
      (∀ a, a < p ∨ p + sizeBytes size ≤ a → readByte m a = readByte (s.core t.core.val).spad.mem.bytes a))

/-- R78, R79, R91, R158, R159: loads that hit the data cache. -/
def Sys2Proof.Claims.CachedLoads : Prop :=
  ∀ (s : State) (t : Tid) (rd ra : Reg) (size : Size) (mode : MMode) (a : Word) (u : Option (Nat × Word)) (g k : Nat),
    ready s t = true → loadLegal rd ra mode = .ok () →
    (addrOf s t ra true (sizeBytes size) mode = some (a, u) → cacheHit s t a (sizeBytes size) false false = some (g, k) →
      let v := leNat (lineBytes s t g k (sizeBytes size))
      let w := (lineBytes s t g k (sizeBytes size)).length * 8
      exec (.ld t rd ra size mode) s = .next ((touched s t k false).modThr t (fun x =>
        advance ((based .addr u x).setReg rd.val (wInt (BitVec.ofNat 64 v))))) ∧
      exec (.ldS t rd ra size mode) s = .next ((touched s t k true).modThr t (fun x =>
        advance ((based .addr u x).setReg rd.val (wInt (BitVec.ofNat 64 v))))) ∧
      exec (.ldx t rd ra size mode) s = .next ((touched s t k false).modThr t (fun x =>
        advance ((based .addr u x).setReg rd.val (wInt (BitVec.ofInt 64 (signedOf w v))))))) ∧
    (addrOf s t ra true 8 mode = some (a, u) → cacheHit s t a 8 false false = some (g, k) →
      exec (.ldF t rd ra mode) s = .next ((touched s t k false).modThr t (fun x =>
        advance ((based .addr u x).setReg rd.val (wF64 (BitVec.ofNat 64 (leNat (lineBytes s t g k 8)))))))) ∧
    (∀ w, addrOf s t ra true 16 mode = some (a, u) → cacheHit s t a 16 true false = some (g, k) →
      bytesWord (lineBytes s t g k 16) = some w →
      exec (.ldT t rd ra mode) s = .next ((touched s t k false).modThr t (fun x =>
        advance ((based .addr u x).setReg rd.val (normWord w)))))

/-- R78, R79, R100, R158: stores, push and pop that hit the data cache: the bytes are merged into the line and marked
dirty; dsp moves by 16. -/
def Sys2Proof.Claims.CachedStoresAndStack : Prop :=
  ∀ (s : State) (t : Tid) (r ra : Reg) (size : Size) (mode : MMode) (a : Word) (u : Option (Nat × Word)) (g k : Nat),
    ready s t = true →
    (∀ v, addrOf s t ra true (sizeBytes size) mode = some (a, u) → storeSource (s.reg t r.val) = .ok v →
      cacheHit s t a (sizeBytes size) false true = some (g, k) →
      exec (.st t r ra size mode) s = .next (((s.issued t).modDc t.core.val (fun d =>
        dcStore s.smap d k g (leBytes (sizeBytes size) v.toNat))).modThr t (fun x => advance (based .addr u x)))) ∧
    (addrOf s t ra true 16 mode = some (a, u) → cacheHit s t a 16 true true = some (g, k) →
      exec (.stT t r ra mode) s = .next (((s.issued t).modDc t.core.val (fun d =>
        dcStore s.smap d k g (wordBytes (s.reg t r.val)))).modThr t (fun x => advance (based .addr u x)))) ∧
    ((s.reg t r.val).tag ≠ .empty → cacheHit s t (pAdd (s.thr t).dsp (-16)) 16 true true = some (g, k) →
      exec (.push t r) s = .next (((s.issued t).modDc t.core.val (fun d =>
        dcStore s.smap d k g (wordBytes (s.reg t r.val)))).modThr t (fun x => advance { x with dsp := pAdd x.dsp (-16) }))) ∧
    (∀ w, cacheHit s t (s.thr t).dsp 16 true false = some (g, k) → bytesWord (lineBytes s t g k 16) = some w →
      exec (.pop t r) s = .next ((touched s t k false).modThr t (fun x =>
        advance (({ x with dsp := pAdd x.dsp 16 } : ThreadSt).setReg r.val (normWord w)))))

/-- R89, R294, R315: loads and stores of uncached data, in each form, set out from the core's port and hold their thread; pc
stays. -/
def Sys2Proof.Claims.AccessesPastTheCacheSetOut : Prop :=
  ∀ (s : State) (t : Tid) (r ra : Reg) (size : Size) (mode : MMode) (a : Word) (w : Option (Nat × Word))
    (e : SegEnt) (g k : Nat) (u : State),
    ready s t = true → addrOf s t ra true (sizeBytes size) mode = some (a, w) → cacheable e g = false →
    let sent := fun (x : GAcc) => Host.Outcome.next (u.modThr t (fun y => { y with held := some (.acc x), st := .run }))
    (loadLegal r ra mode = .ok () → pastCache s t a (sizeBytes size) none = some (e, g, k, u) →
      exec (.ld t r ra size mode) s = sent (outstanding s a g (sizeBytes size) none e.k (.load r.val .zero w) k) ∧
      exec (.ldx t r ra size mode) s = sent (outstanding s a g (sizeBytes size) none e.k (.load r.val .sign w) k) ∧
      exec (.ldS t r ra size mode) s = sent { outstanding s a g (sizeBytes size) none e.k (.load r.val .zero w) k with stream := true } ∧
      (size = .b8 → exec (.ldF t r ra mode) s = sent (outstanding s a g 8 none e.k (.load r.val .f64 w) k))) ∧
    (∀ v, storeSource (s.reg t r.val) = .ok v →
      pastCache s t a (sizeBytes size) (some (leBytes (sizeBytes size) v.toNat)) = some (e, g, k, u) →
      exec (.st t r ra size mode) s
        = sent (outstanding s a g (sizeBytes size) (some (leBytes (sizeBytes size) v.toNat)) e.k (.store w) k))

/-- R89, R292, R294, R315, R381: the response of an outstanding access to HBM performs it there under the map of its issue, frees
its slot, and ends its instruction, whatever that is; an acquire of wide scope empties the cache. -/
def Sys2Proof.Claims.GlobalAccessResponseCompletes : Prop :=
  ∀ (s : State) (t : Tid) (ext : ExtAns) (g : GAcc) (k : Fin 80) (o : Nat) (x : ThreadSt),
    (s.thr t).held = some (.acc g) → g.slot < 128 → g.answer = none → slotLost s t.core.val g.slot = false → quietBoundary s t →
    wpMatch (s.core t.core.val).dbg t.thr.val g.ga g.size g.wdata.isSome = false → hbmAt s g.map g.ga g.size k o →
    (g.wdata = none → ended g (ownView s t g.ga (readBytes (s.slice k.val).mem.bytes o g.size)) (s.thr t) = some x →
      (∀ rd sc, g.fin = .acquire rd sc → wide sc = true → cacheClean s t = true) →
      ∃ u, exec (.globalResponse t ext) s = .next u ∧ u.thr t = x ∧ u.slices = s.slices ∧
        ((u.port t.core.val).slot g.slot).busy = false ∧ OtherCores s u t.core ∧
        (u.core t.core.val).dc.ways = (match g.fin with
          | .acquire _ sc => if wide sc then [] else (s.core t.core.val).dc.ways
          | _ => (s.core t.core.val).dc.ways)) ∧
    (∀ b, g.wdata = some b → b.length = g.size → (∀ rd sc, g.fin ≠ .acquire rd sc) → ended g [] (s.thr t) = some x →
      recorded { s with smap := g.map } g.ga t.core.val g.slot ((s.port t.core.val).slot g.slot).gen g.acc = none →
      ∃ u, exec (.globalResponse t ext) s = .next u ∧ u.thr t = x ∧ SliceWrote s u k o b ∧
        ((u.port t.core.val).slot g.slot).busy = false ∧ OtherCores s u t.core ∧
        (u.core t.core.val).dc = dcUpdate s.smap (s.core t.core.val).dc g.ga b)

/-- R298, R299: ld.acq and st.rel set out past the cache and, with the response from HBM, complete: the value read at memory in rd
and the cache emptied for a wide scope; the bytes stored at memory, every earlier write within the scope before them. An ld.acq
whose own line is dirty, and a wide st.rel behind dirty lines, write back first. -/
def Sys2Proof.Claims.AcquiresAndReleasesComplete : Prop :=
  ∀ (s : State) (t : Tid) (r ra : Reg) (scope : Scope) (size : Size) (disp : BitVec 10) (a : Word) (w : Option (Nat × Word))
    (e : SegEnt) (g j o : Nat) (k : Fin 80) (u : State),
    let n := sizeBytes size
    let acq := Instr.ldAcq t r ra scope size disp
    let rel := Instr.stRel t r ra scope size disp
    ready s t = true → addrOf s t ra true n (.disp disp) = some (a, w) →
    (pastCache s t a n none = some (e, g, j, u) →
      (lineClean s t g → exec acq s = .next (u.modThr t (fun y =>
          { y with held := some (.acc (outstanding s a g n none e.k (.acquire r.val scope) j)), st := .run }))) ∧
      (lineClean s t g → (wide scope = true → cacheClean s t = true) → hbmAt s s.smap g n k o →
        wpMatch (s.core t.core.val).dbg t.thr.val g n false = false →
        ∃ q, exec acq s = .next q ∧ ∀ ext, ∃ v, exec (.globalResponse t ext) q = .next v ∧
          v.reg t r.val = (if r = 0 then s.reg t 0 else
            wInt (BitVec.ofNat 64 (leNat (ownView s t g (readBytes (s.slice k.val).mem.bytes o n))))) ∧
          (v.thr t).pc = (advance (s.thr t)).pc ∧ (v.thr t).held = none ∧ (wide scope = true → (v.core t.core.val).dc.ways = []))) ∧
    (∀ f, segHit s t a n false .r = some (e, g) → mustWait (s.core t.core.val) t.core.val t.thr.val (spansOf s.smap t.core.val g n) = false →
      (s.core t.core.val).dc.wbs = [] → (dcDirty (s.core t.core.val).dc).filter (fun k => (dcNames s.smap (g / 64)).contains (dcGet (s.core t.core.val).dc k).line) = [f] →
      (dcGet (s.core t.core.val).dc f).parity = false →
      ∃ q, exec acq s = .next q ∧ (q.thr t).pc = (s.thr t).pc ∧ (∃ x, (q.thr t).held = some (.drain acq (some x)) ∧ x.ga = g ∧ x.size = n) ∧
        (q.core t.core.val).dc.wbs.map (·.line) = [(dcGet (s.core t.core.val).dc f).line] ∧ (dcGet (q.core t.core.val).dc f).dirty = 0) ∧
    (∀ v, storeSource (s.reg t r.val) = .ok v → writesPending (s.core t.core.val) t.core.val t.thr.val scope = false →
      let b := leBytes n v.toNat
      (pastCache s t a n (some b) = some (e, g, j, u) → (wide scope = true → cacheClean s t = true) → wbsSent s t →
        exec rel s = .next (u.modThr t (fun y => { y with held := some (.acc (outstanding s a g n (some b) e.k .release j)), st := .run })) ∧
        (hbmAt s s.smap g n k o → wpMatch (s.core t.core.val).dbg t.thr.val g n true = false →
          recorded u g t.core.val j ((u.port t.core.val).slot j).gen (reqOf g n (some b)) = none →
          ∃ q, exec rel s = .next q ∧ ∀ ext, ∃ v, exec (.globalResponse t ext) q = .next v ∧ SliceWrote s v k o b ∧
            (v.thr t).regs = (s.thr t).regs ∧ (v.thr t).pc = (advance (s.thr t)).pc ∧ (v.thr t).held = none)) ∧
      (segHit s t a n false .w = some (e, g) → mustWait (s.core t.core.val) t.core.val t.thr.val (spansOf s.smap t.core.val g n) = false →
        wide scope = true → dcDirty (s.core t.core.val).dc ≠ [] → (∀ k ∈ dcDirty (s.core t.core.val).dc, (dcGet (s.core t.core.val).dc k).parity = false) →
        twf lineDef (s.core t.core.val).dc.ways = true →
        ∃ q, exec rel s = .next q ∧ (q.thr t).pc = (s.thr t).pc ∧ (∃ x, (q.thr t).held = some (.drain rel (some x)) ∧ x.ga = g ∧ x.wdata = some b) ∧
          dcDirty (q.core t.core.val).dc = [] ∧ q.slices = s.slices))

/-- R298 to R300: a fence completes at once where no write within its scope is on its way (a narrow scope sees none in the
cache); one of wide scope writes the dirty lines back and waits for them; with the last write-back's OK it completes. An
acquire of wide scope empties the cache and lets no earlier buffer copy be used. -/
def Sys2Proof.Claims.FencesComplete : Prop :=
  (∀ (s : State) (t : Tid) (scope : Scope), ready s t = true →
    let c := s.core t.core.val
    let after := (wbSend (s.issued t) t.core.val).modThr t advance
    (wide scope = false → exec (.fenceAcq t scope) s = .next after ∧
      (writesPending c t.core.val t.thr.val scope = false → exec (.fenceRel t scope) s = .next after ∧ exec (.fenceBoth t scope) s = .next after)) ∧
    (wide scope = true → cacheClean s t = true → exec (.fenceAcq t scope) s = .next ((emptied (s.issued t) t scope).modThr t advance) ∧
      (writesPending c t.core.val t.thr.val scope = false → exec (.fenceRel t scope) s = .next (s.retire t id) ∧
        exec (.fenceBoth t scope) s = .next ((emptied (s.issued t) t scope).modThr t advance))) ∧
    (wide scope = true → cacheClean s t = false → (∀ k ∈ dcDirty c.dc, (dcGet c.dc k).parity = false) → twf lineDef c.dc.ways = true →
      (∃ q, exec (.fenceAcq t scope) s = .next q ∧ Draining s q t (.fenceAcq t scope)) ∧
      (writesPending c t.core.val t.thr.val scope = false →
        (∃ q, exec (.fenceRel t scope) s = .next q ∧ Draining s q t (.fenceRel t scope)) ∧
        ∃ q, exec (.fenceBoth t scope) s = .next q ∧ Draining s q t (.fenceBoth t scope)))) ∧
  (∀ (s : State) (t : Tid) (scope : Scope) (w : WriteBack) (k : Fin 80) (o : Nat) (ext : ExtAns),
    let c := s.core t.core.val
    c.dc.wbs = [w] → w.why = .drain t.thr → w.slot < 128 → w.answer = none → slotLost s t.core.val w.slot = false → w.bytes.length = 64 → dcDirty c.dc = [] → quietBoundary s t →
    hbmAt s w.map (64 * w.line) 64 k o → (∀ n, n ≠ t.thr.val → n < 8 → ∀ i g, (c.t n).held ≠ some (.drain i g)) →
    recorded { s with smap := w.map } (64 * w.line) t.core.val w.slot ((s.port t.core.val).slot w.slot).gen w.acc = none →
    ∀ i ∈ [Instr.fenceAcq t scope, .fenceRel t scope, .fenceBoth t scope], (s.thr t).held = some (.drain i none) →
      ∃ u, exec (.dcacheWritebackComplete t.core 0 ext) s = .next u ∧ (u.thr t).held = none ∧ (u.thr t).pc = (advance (s.thr t)).pc ∧
        (u.thr t).regs = (s.thr t).regs ∧ (u.core t.core.val).dc.wbs = [] ∧
        (i ≠ .fenceRel t scope → wide scope = true → (u.core t.core.val).dc.ways = [] ∧ (u.core t.core.val).stale = BitVec.allOnes 80) ∧
        (∀ b, readByte (u.slice k.val).mem.bytes b = if o ≤ b ∧ b < o + 64 ∧ bitOf w.mask (b - o) = true then lget 0 w.bytes (b - o)
          else readByte (s.slice k.val).mem.bytes b) ∧ (∀ j, j ≠ k.val → u.slice j = s.slice j))

/-- R92, R93: a scratchpad access that runs past the thread's window raises SPAD_RANGE with the offset as its detail,
and stores nothing. -/
def Sys2Proof.Claims.ScratchpadRangeTraps : Prop :=
  ∀ (s : State) (c : Fin 512) (r ra : Reg) (size : Size) (b : Word),
    ready s ⟨c, 0⟩ = true → primary s c = true → s.reg ⟨c, 0⟩ ra.val = wInt b →
    ((s.core c.val).win 0).bound ≤ b.toNat / 512 →
    (∃ u, exec (.ls ⟨c, 0⟩ r ra size (.disp 0)) s = .next u ∧ EnteredShadow s u c 0x0F (wInt b) ∧ OutsideCoresSame s u) ∧
    ((s.reg ⟨c, 0⟩ r.val).tag = .int →
      ∃ u, exec (.ss ⟨c, 0⟩ r ra size (.disp 0)) s = .next u ∧ EnteredShadow s u c 0x0F (wInt b) ∧ OutsideCoresSame s u)

namespace Sys2Proof.Claims

/-- The state after an instruction of `t` that changed the thread by `f` and went on at `p`. -/
def jumped (s : State) (t : Tid) (p : Word) (f : ThreadSt → ThreadSt) : State :=
  (s.issued t).modThr t (fun x => { f x with pc := p })

/-- A change of mode of thread 0 holds notices back for one instruction (R123). -/
def modeTo (s : State) (t : Tid) (m : Bool) (u : State) : State :=
  if t.thr = 0 ∧ (s.thr t).compat ≠ m then u.modCore t.core.val (fun x => { x with holdOff := true }) else u

/-- Branches on two operands of any tag but EMPTY (R94). -/
def branchAnyTable (a b : TWord) : List ((Tid → Reg → Reg → BitVec 14 → Instr) × Bool) :=
  [(.bEq, decide (a = b)), (.bNe, decide (a ≠ b))]

/-- Branches on two INT operands (R94). -/
def branchIntTable (x y : Word) : List ((Tid → Reg → Reg → BitVec 14 → Instr) × Bool) :=
  [(.bLt, x.slt y), (.bGe, y.sle x), (.bLtu, decide (x < y)), (.bGeu, decide (y ≤ x))]

/-- Branches on one operand of any tag but EMPTY (R94). -/
def branchOneTable (x : Word) : List ((Tid → Reg → BitVec 14 → Instr) × Bool) := [(.bZ, decide (x = 0)), (.bNz, decide (x ≠ 0))]

/-- The return word of a call (R100, R101). -/
def returnWord (s : State) (t : Tid) : TWord := ⟨.code, mkCode (pAdd (s.thr t).pc 4) (s.thr t).compat⟩

/-- R121: the nine words of a frame, in the order in which they are stored: le, ls, lc, detail, cause, rtp, dsp, sr, and
the return address with COMPAT as its MODE bit. -/
def frameOfEntry (n : Nat) (x : ThreadSt) (cause : Word) (detail : TWord) (ret : Word) : List (Int × TWord) :=
  [(128, wAddr x.le), (112, wAddr x.ls), (96, wInt x.lc), (80, detail), (64, wInt cause), (48, wAddr x.rtp),
   (32, wAddr x.dsp), (16, ⟨.stat, srWord n x⟩), (0, ⟨.code, mkCode ret x.compat⟩)]

/-- A tagged word of the supervisor's table that hits the data cache: its global address and the key of its way. -/
def tagHit (s : State) (t : Tid) (a : Word) (p : Perm) : Option (Nat × Nat) :=
  let c := s.core t.core.val
  match c.segs.find? (fun e => decide (e.table = segTable (s.thr t) true) && decide (e.sel = pSel a)) with
  | none => none
  | some e =>
    match segChecks e (pOff a) 16 16 true p 0 (wAddr a) with
    | .error _ => none
    | .ok h =>
      let g := ownGa s h
      match dcFind c.dc (g / 64) with
      | none => none
      | some k =>
        if cacheable e g && !(dcGet c.dc k).parity && decide ((dcGet c.dc k).bytes.length = 64)
            && !mustWait c t.core.val t.thr.val (spansOf s.smap t.core.val g 16) then some (g, k) else none

/-- The bytes of a gate's argument check (R118): its TAGS take the word's tag, and a pointer's or segment's entry of the current
table, cached, grants PERM. -/
def argOk (s : State) (t : Tid) (d : Nat) (a : TWord) : Bool :=
  let perm := bitsOf d 15 9
  let sel := if a.tag = .addr then pSel a.data else a.data.toNat % 256
  bitOf d a.tag.num && (decide (perm = 0) || (decide (a.tag ≠ .addr) && decide (a.tag ≠ .seg)) ||
    match (s.core t.core.val).segs.find? (fun e => decide (e.table = segTable (s.thr t) (s.thr t).priv) && decide (e.sel = sel)) with
    | some e => decide (bitsOf e.attr.toNat 54 48 &&& perm = perm)
    | none => false)

/-- The 16-bit descriptor of argument `i` in a gate's entry `b` (R118). -/
def argField (b : List Byte) (i : Nat) : Nat := leNat (slice b (8 + 2 * (i - 1)) 2)

end Sys2Proof.Claims

/-- R94: a branch whose condition holds goes to pc + 4 × off14, otherwise to the next instruction; no register changes. -/
def Sys2Proof.Claims.BranchesFollowTheirConditions : Prop :=
  ∀ (s : State) (t : Tid) (ra rb : Reg) (off : BitVec 14) (a b : TWord) (x y : Word),
    readyFlow s t = true → s.reg t ra.val = a → s.reg t rb.val = b → a.tag ≠ .empty → b.tag ≠ .empty →
    let target := pAdd (s.thr t).pc (4 * off.toInt)
    let goes := fun (c : Bool) => if c then jumped s t target id else s.retire t id
    (∀ p ∈ branchAnyTable a b, exec (p.1 t ra rb off) s = .next (goes p.2)) ∧
    (∀ p ∈ branchOneTable a.data, exec (p.1 t ra off) s = .next (goes p.2)) ∧
    (a = wInt x → b = wInt y → ∀ p ∈ branchIntTable x y, exec (p.1 t ra rb off) s = .next (goes p.2))

/-- R95, R100, R101, R103, R123: jumps, calls and returns. In Perica-compatible mode the return word goes to lnk; otherwise it is
pushed through rtp, here with its store or load hitting the data cache. -/
def Sys2Proof.Claims.JumpsCallsAndReturns : Prop :=
  ∀ (s : State) (t : Tid) (ra : Reg) (off : BitVec 24) (a : Word) (g k : Nat) (w : TWord),
    readyFlow s t = true →
    let target := pAdd (s.thr t).pc (4 * off.toInt)
    let linked := fun (p : Word) => jumped s t p (fun x => { x with lnk := returnWord s t, compat := true })
    let pushed := fun (p : Word) => ((s.issued t).modDc t.core.val (fun d => dcStore s.smap d k g (wordBytes (returnWord s t)))).modThr t
      (fun x => { x with rtp := pAdd x.rtp (-16), compat := false, pc := p })
    exec (.jmp t off) s = .next (jumped s t target id) ∧
    (s.reg t ra.val = wAddr a → exec (.jmpR t ra) s = .next (jumped s t a id)) ∧
    ((s.thr t).compat = true → exec (.call t off) s = .next (linked target)) ∧
    ((s.thr t).compat = true → s.reg t ra.val = wAddr a → exec (.callR t ra) s = .next (linked a)) ∧
    (s.reg t ra.val = wAddr a → exec (.callM t ra true) s = .next (modeTo s t true (linked a))) ∧
    ((s.thr t).compat = true → (s.thr t).lnk.tag = .code →
      exec (.ret t) s = .next (modeTo s t (codeMode (s.thr t).lnk.data)
        (jumped s t (codePc (s.thr t).lnk.data) (fun x => { x with compat := codeMode x.lnk.data })))) ∧
    (cacheHit s t (pAdd (s.thr t).rtp (-16)) 16 true true = some (g, k) →
      ((s.thr t).compat = false → exec (.call t off) s = .next (pushed target)) ∧
      ((s.thr t).compat = false → s.reg t ra.val = wAddr a → exec (.callR t ra) s = .next (pushed a)) ∧
      (s.reg t ra.val = wAddr a → exec (.callM t ra false) s = .next (modeTo s t false (pushed a)))) ∧
    ((s.thr t).compat = false → cacheHit s t (s.thr t).rtp 16 true false = some (g, k) →
      bytesWord (lineBytes s t g k 16) = some w → w.tag = .code →
      exec (.ret t) s = .next (modeTo s t (codeMode w.data) ((touched s t k false).modThr t (fun x =>
        { x with rtp := pAdd x.rtp 16, compat := codeMode w.data, pc := codePc w.data }))))

/-- R96, R97, R102: loop sets lc, ls and le and enters the body; a count of zero skips it; at the end of the body lc
counts down and the body runs again until the last pass. -/
def Sys2Proof.Claims.HardwareLoops : Prop :=
  ∀ (s : State) (t : Tid) (ra : Reg) (n : BitVec 14) (c : Word),
    ready s t = true →
    ((s.thr t).lc = 0 → (s.thr t).compat = false → s.reg t ra.val = wInt c → 1 ≤ n.toNat → n.toNat ≤ 8191 →
      (c = 0 → exec (.loop t ra n) s = .next (jumped s t (pAdd (s.thr t).pc (4 * (n.toNat + 1))) id)) ∧
      (c ≠ 0 → exec (.loop t ra n) s = .next (jumped s t (pAdd (s.thr t).pc 4) (fun x =>
        { x with lc := c, ls := pAdd x.pc 4, le := pAdd x.pc (4 * n.toNat) })))) ∧
    ((s.thr t).pc = (s.thr t).le → 1 < (s.thr t).lc →
      exec (.scalarNop t) s = .next (jumped s t (s.thr t).ls (fun x => { x with lc := x.lc - 1 }))) ∧
    ((s.thr t).pc = (s.thr t).le → (s.thr t).lc = 1 →
      exec (.scalarNop t) s = .next (jumped s t (pAdd (s.thr t).le 4) (fun x => { x with lc := 0 })))

/-- R75, R76, R102, R123: rds and wrs reach every special register under its number; lc, ls and le not in Perica-compatible mode.
sr is an INT copy, written at supervisor level only, and there only its COMPAT changes. -/
def Obligations.SpecialRegisters : Prop :=
  ∀ (s : State) (t : Tid) (rd ra : Reg) (a : Word), ready s t = true →
    let x := s.thr t
    (∀ p ∈ [((0 : BitVec 3), wAddr x.pc), (1, wAddr x.dsp), (2, wAddr x.rtp), (3, x.lnk), (4, wInt (srWord t.thr.val x))],
      exec (.rds t rd p.1) s = .next (s.wrote t rd p.2)) ∧
    (x.compat = false → ∀ p ∈ [((5 : BitVec 3), wInt x.lc), (6, wAddr x.ls), (7, wAddr x.le)],
      exec (.rds t rd p.1) s = .next (s.wrote t rd p.2)) ∧
    (s.reg t ra.val = wAddr a →
      exec (.wrs t 1 ra) s = .next (s.retire t (fun x => { x with dsp := a })) ∧
      exec (.wrs t 2 ra) s = .next (s.retire t (fun x => { x with rtp := a })) ∧
      (x.compat = false → exec (.wrs t 6 ra) s = .next (s.retire t (fun x => { x with ls := a })) ∧
        exec (.wrs t 7 ra) s = .next (s.retire t (fun x => { x with le := a })))) ∧
    (s.reg t ra.val = ⟨.code, a⟩ → exec (.wrs t 3 ra) s = .next (s.retire t (fun x => { x with lnk := ⟨.code, a⟩ }))) ∧
    (s.reg t ra.val = wInt a →
      (x.compat = false → exec (.wrs t 5 ra) s = .next (s.retire t (fun x => { x with lc := a }))) ∧
      (x.priv = true → exec (.wrs t 4 ra) s = .next (modeTo s t (a.getLsbD 0) (s.retire t (fun x => { x with compat := a.getLsbD 0 })))))

/-- R86, R87, R107: seg.h makes a SEG word; seg.q reads LIMIT or the permission bits of a cached valid entry of the
current level's table; seg.inv, at supervisor level, takes a selector's entries or all out of the segment cache. -/
def Sys2Proof.Claims.SegmentInstructions : Prop :=
  ∀ (s : State) (t : Tid) (rd ra : Reg) (sel : BitVec 8) (e : SegEnt),
    ready s t = true →
    exec (.segH t rd sel) s = .next (s.wrote t rd ⟨.seg, sel.zeroExtend 64⟩) ∧
    (s.reg t ra.val = ⟨.seg, sel.zeroExtend 64⟩ →
      (s.core t.core.val).segs.find? (fun e => decide (e.table = segTable (s.thr t) (s.thr t).priv) && decide (e.sel = sel.toNat))
        = some e → e.ok = true →
      exec (.segQ t rd ra false) s = .next (s.wrote t rd (wInt (e.attr &&& 0x0000FFFFFFFFFFFF))) ∧
      exec (.segQ t rd ra true) s = .next (s.wrote t rd (wInt ((e.attr >>> 48) &&& 0x7F)))) ∧
    ((s.thr t).priv = true →
      exec (.segInv t true sel) s = .next ((s.retire t id).modCore t.core.val (fun x => { x with segs := [] })) ∧
      exec (.segInv t false sel) s = .next ((s.retire t id).modCore t.core.val (fun x =>
        { x with segs := x.segs.filter (fun e => decide (e.sel ≠ sel.toNat)) })))

/-- R118, R119, R121, R123: gate n of any thread. Its entry, in HBM, has V set and its other fields good; its arguments pass; the
nine words of its frame hit the cache. They stand there after it, and the thread runs at the entry's target at supervisor level,
COMPAT and lc 0, on the supervisor's stacks, with rtp at the frame; thread 0 counts the gate. -/
def Sys2Proof.Claims.GatePushesAFrame : Prop :=
  ∀ (s u : State) (t : Tid) (n : BitVec 14) (j o : Nat) (k : Fin 80) (hit : Nat → Nat × Nat),
    let c := s.core t.core.val
    let x := s.thr t
    let a := (c.gateBase.toNat + 32 * n.toNat) % 2 ^ 64
    let b := ownView s t a (readBytes (s.slice k.val).mem.bytes o 32)
    let w0 := leNat (slice b 0 8)
    let f := pAdd (if x.priv then x.rtp else codePc x.srtp) (-144)
    let cause := BitVec.ofNat 64 (n.toNat * 65536 + 16384 + 256 * t.thr.val)
    let frame := frameOfEntry t.thr.val { x with st := .run } cause (wInt 0) (pAdd x.pc 4)
    readyFlow s t = true → n.toNat < c.gateCount → (t.thr = 0 → gateCountOf c ≠ 255) →
    sendReq (s.issued t) t.core.val (threadClass s t) (.read a 32) = (.slot j, u) → hbmAt s s.smap a 32 k o →
    bitOf w0 51 = true → bitsOf w0 55 52 ≤ 8 → bitsOf w0 50 48 = 0 → leNat (slice b 24 8) = 0 →
    (∀ i, 1 ≤ i → i ≤ bitsOf w0 55 52 → argOk s t (argField b i) (s.reg t i) = true) →
    (∀ p ∈ frame, tagHit s t (pAdd f p.1) .w = some (hit p.1.toNat)) →
    ∃ v, exec (.gate t n) s = .next v ∧
      v.thr t = { x with st := .run, pc := mkPtr (w0 / 2 ^ 56) w0, rtp := f, dsp := if x.priv then x.dsp else codePc x.sdsp, priv := true,
                         compat := false, lc := 0, cause := cause.truncate 32 } ∧
      (∀ p ∈ frame, slice (dcGet (v.core t.core.val).dc (hit p.1.toNat).2).bytes ((hit p.1.toNat).1 % 64) 16 = wordBytes p.2) ∧
      (t.thr = 0 → gateCountOf (v.core t.core.val) = gateCountOf c + 1) ∧ OtherCores s v t.core ∧ v.slices = s.slices

/-- R128, R121: eret at supervisor level from the stack frame at rtp, whose nine words hit the cache and have their tags: the state
it saved is restored, no register changes; a double-fault handler's ends DF, else thread 0 counts the gate down. -/
def Sys2Proof.Claims.EretReturnsFromItsFrame : Prop :=
  ∀ (s : State) (t : Tid) (hit : Nat → Nat × Nat) (ret st dsp rtp cause lc ls le : Word) (detail : TWord),
    let c := s.core t.core.val
    let x := s.thr t
    let frame : List (Nat × TWord) := [(0, ⟨.code, ret⟩), (16, ⟨.stat, st⟩), (32, wAddr dsp), (48, wAddr rtp), (64, wInt cause), (80, detail),
      (96, wInt lc), (112, wAddr ls), (128, wAddr le)]
    readyFlow s t = true → x.priv = true → (t.thr = 0 → c.inShadow = true → c.gns = 0 → x.df = true) →
    (∀ p ∈ frame, tagHit s t (pAdd x.rtp (p.1 : Int)) .r = some (hit p.1) ∧
      bytesWord (slice (dcGet c.dc (hit p.1).2).bytes ((hit p.1).1 % 64) 16) = some p.2) →
    detail.tag = .int ∨ detail.tag = .addr → (st.getLsbD 1 = true → x.maxpriv = true) →
    ∃ v, exec (.eret t) s = .next v ∧
      v.thr t = { x with st := .run, pc := codePc ret, priv := st.getLsbD 1, compat := st.getLsbD 0, dsp := dsp, rtp := rtp, lc := lc, ls := ls, le := le,
                         df := false } ∧
      (t.thr = 0 → x.df = false → (v.core t.core.val).gnp = (if c.inShadow then c.gnp else c.gnp - if c.gnp = 0 then 0 else 1) ∧
        (v.core t.core.val).gns = (if c.inShadow then c.gns - 1 else c.gns)) ∧ OtherCores s v t.core ∧ OutsideCoresSame s v

namespace Sys2Proof.Claims

/-- THR_CTL of a thread as a register of its core's block (R137). -/
def thrCtlOff (t : Tid) : Nat := 0x100 + 0x40 * t.thr.val

/-- A command to thread `t` by agent `a` is taken at once (R112, R113): the agent may write THR_CTL, it is not the core
itself commanding thread 0, the thread is at a boundary with no other command waiting, and no debugger halts the core. -/
def takesCommand (s : State) (a : Agent) (t : Tid) : Bool :=
  decide (coreWriteOk s a t.core.val (thrCtlOff t) = .ok) && !(decide (a = .mgmt) && decide (s.pwr.state = 3)) && !(decide (agentCore a = some t.core.val) && decide (t.thr.val = 0))
    && (s.thr t).cmds.isEmpty && atBoundary (s.core t.core.val) t.thr.val && !(s.core t.core.val).dbg.haltReq

/-- The other threads of the core, and the other cores, are as before. -/
def OtherThreadsSame (s u : State) (t : Tid) : Prop :=
  (∀ n, n ≠ t.thr.val → (u.core t.core.val).t n = (s.core t.core.val).t n) ∧ (∀ d, d ≠ t.core.val → u.core d = s.core d)

/-- A thread that waits in `i`, on a core that runs. -/
def waiting (s : State) (t : Tid) (i : Instr) : Bool :=
  decide ((s.thr t).held = some (.wait i)) && coreRuns s t.core.val && (s.thr t).cmds.isEmpty

end Sys2Proof.Claims

/-- R77, R112, R113: START, STOP, RESUME and KILL of a thread at an instruction boundary. -/
def Sys2Proof.Claims.ThreadCommands : Prop :=
  ∀ (s : State) (a : Agent) (t : Tid), takesCommand s a t = true →
    let x := s.thr t
    (x.st = .stopped → ∃ u, exec (.start a t) s = .next u ∧ (u.thr t).st = .run ∧ (u.thr t).pc = codePc x.entry ∧
      (u.thr t).compat = codeMode x.entry ∧ (u.thr t).dsp = codePc x.sdsp ∧ (u.thr t).rtp = codePc x.srtp ∧
      (u.thr t).priv = true ∧ (u.thr t).lc = 0 ∧ (u.thr t).regs = [] ∧ (u.core t.core.val).stopped = false ∧
      OtherThreadsSame s u t) ∧
    (x.st = .run ∨ x.st = .wait ∨ x.st = .dispatch → ∃ u, exec (.stop a t) s = .next u ∧ (u.thr t).st = .stopped ∧
      (u.thr t).pc = x.pc ∧ (u.thr t).regs = x.regs ∧ (u.thr t).held = none ∧ OtherThreadsSame s u t) ∧
    (x.st = .stopped → ∃ u, exec (.resume a t) s = .next u ∧ (u.thr t).st = .run ∧ (u.thr t).pc = x.pc ∧
      (u.thr t).regs = x.regs ∧ (u.core t.core.val).stopped = false ∧ OtherThreadsSame s u t) ∧
    (x.st ≠ .stopped → ∃ u, exec (.kill a t) s = .next u ∧ (u.thr t).st = .stopped ∧ (u.thr t).regs = [] ∧
      (u.thr t).pc = 0 ∧ (u.thr t).held = none ∧ (u.thr t).staging = [] ∧ OtherThreadsSame s u t)

/-- R113: a core's own program cannot command its thread 0, and an agent that THR_CTL refuses gets NOWIN and changes
nothing. -/
def Sys2Proof.Claims.ThreadCommandsRefused : Prop :=
  ∀ (s : State) (a : Agent) (t : Tid), a ≠ .mgmt ∨ s.pwr.state ≠ 3 → ∀ f ∈ [Instr.start, .stop, .resume, .kill],
    (coreWriteOk s a t.core.val (thrCtlOff t) = .nowin → exec (f a t) s = .next (s.answer { status := .nowin })) ∧
    (coreWriteOk s a t.core.val (thrCtlOff t) = .ok → agentCore a = some t.core.val → t.thr = 0 →
      exec (f a t) s = .next ((s.modThr t id).answer { status := .ok }))

/-- R125, R126: what thread 0 takes at a boundary of its primary bank: a DEADLOCK notice first; else the notice of the
lowest FAULTED thread not yet notified, with the global address of its frame; else the message of a queue bound to it. -/
def Obligations.ShadowBankEntries : Prop :=
  ∀ (s : State) (c : Fin 512), mayAccept s c.val = true →
    (∀ m, (s.core c.val).dlPend = some m →
      ∃ u, exec (.shadowBankEntry c) s = .next u ∧ EnteredShadow s u c 0x8019 (wInt (BitVec.ofNat 64 m)) ∧
        (u.core c.val).dlPend = none) ∧
    (∀ n e g, (s.core c.val).dlPend = none → faultedThread (s.core c.val) = some n →
      let y := (s.core c.val).t n
      (s.core c.val).segs.find? (fun e => decide (e.table = y.ssegt.toNat) && decide (e.sel = pSel y.rtp)) = some e →
      segGa e (pOff y.rtp) = some g →
      ∃ u, exec (.shadowBankEntry c) s = .next u ∧
        ShadowEntered s u c (wInt (y.cause.zeroExtend 64)) (wInt (BitVec.ofNat 64 g)) 3 (codePc (s.core c.val).excvec) false ∧
        (u.thr ⟨c, 0⟩).cause = 0x801A ∧ ((u.core c.val).t n).notified = true) ∧
    (∀ q, (s.core c.val).dlPend = none → faultedThread (s.core c.val) = none → nextDispatch (s.core c.val) 0 = some q →
      ((s.core c.val).q q).scope = 0 → (s.core c.val).dbg.tqmask = 0 →
      let y := (s.core c.val).q q
      ∃ u, exec (.shadowBankEntry c) s = .next u ∧
        ShadowEntered s u c (wInt (msgAddr (s.core c.val) 0 q)) (wInt (BitVec.ofNat 64 (16 * y.headLen))) 4 (codePc y.handler)
          (codeMode y.handler) ∧ u.reg ⟨c, 0⟩ 3 = wInt (BitVec.ofNat 64 q) ∧ ((u.core c.val).q q).inServ = true)

/-- R132, R133: a deadlock whose condition has held for 100 ticks is reported once: thread 0 gets the notice when it can take one,
otherwise the host does; before that nothing happens. -/
def Sys2Proof.Claims.DeadlockReported : Prop :=
  ∀ (s : State) (c : Fin 512), coreRuns s c.val = true → deadlocked s c.val = true → (s.core c.val).deadlock = false →
    ((s.core c.val).dlTicks < 100 → exec (.deadlock c) s = .next s) ∧
    (100 ≤ (s.core c.val).dlTicks → mayAccept s c.val = true → exec (.deadlock c) s = .next (s.modCore c.val (fun x =>
      { x with deadlock := true, dlPend := some (waitMask s c.val) }))) ∧
    (100 ≤ (s.core c.val).dlTicks → mayAccept s c.val = false → (s.core c.val).policyStop = false → portFree s = true → s.cp.notices.length < 256 →
      ∃ u, exec (.deadlock c) s = .next u ∧ (u.core c.val).deadlock = true ∧
        u.cp.notices = s.cp.notices ++ [⟨6, BitVec.ofNat 64 c.val, BitVec.ofNat 64 (waitMask s c.val)⟩])

/-- R111, R248: a thread that waits for event lines goes on when one of them is pending: the pending lines of its mask are
consumed into rd, and execution goes on after ev.wait. -/
def Sys2Proof.Claims.WaitEndsWithItsEvent : Prop :=
  ∀ (s : State) (t : Tid) (rd ra : Reg) (mask : Word),
    waiting s t (.evWait t rd ra) = true → s.reg t ra.val = wInt mask → mask.toNat < 65536 →
    (s.core t.core.val).evt &&& mask.truncate 16 ≠ 0 → (s.core t.core.val).evtAcq &&& mask.truncate 16 = 0 →
    evYields (s.core t.core.val) t.thr.val (mask.truncate 16) true = false →
    exec (.blockingWaitComplete t) s = .next ((s.modCore t.core.val (fun x =>
      { x with evt := x.evt &&& ~~~(mask.truncate 16) })).modThr t (fun x =>
        advance { x.setReg rd.val (wInt (((s.core t.core.val).evt &&& mask.truncate 16).zeroExtend 64)) with held := none, st := .run }))

namespace Sys2Proof.Claims

/-- The core's thread may let pending lines of the mask be consumed by this thread now (R249). -/
def evFree (s : State) (t : Tid) (mask : BitVec 16) : Bool :=
  !evYields (s.core t.core.val) t.thr.val mask false && decide ((s.core t.core.val).evtAcq &&& mask = 0)

/-- Pending lines of the mask taken out, and handed to rd. -/
def consumed (s : State) (t : Tid) (rd : Reg) (mask : BitVec 16) : State :=
  ((s.issued t).modCore t.core.val (fun x => { x with evt := x.evt &&& ~~~mask })).modThr t (fun x =>
    advance (x.setReg rd.val (wInt (((s.core t.core.val).evt &&& mask).zeroExtend 64))))

/-- A commit of thread `t` may set out: its handle is good, its release and, where it starts an activity, its wait for earlier
accesses (R295, R304) find nothing to wait for, and its core's port takes the message. -/
def commitGoes (s : State) (t : Tid) (w hdr : Word) (cls : BitVec 2) (form : Form) : Option State :=
  match handleTarget s w cls with
  | none => none
  | some tgt =>
    let scope := commitScope s tgt
    if writesPending (s.core t.core.val) t.core.val t.thr.val scope || (wide scope && !cacheClean s t)
        || ((decide (form = .posted) || tgt.isSkiver) && accessesPending (s.core t.core.val) t.core.val t.thr.val) then none
    else sendMsg (s.issued t) { id := 0, sender := .thread s.lat.id.toNat t.core.val t.thr.val, target := tgt, hdr := hdr,
                                payload := padGranules (s.thr t).staging, cls := cls, form := form }

/-- A queue of this device that takes a message of this sender (R260, R263). -/
def accepts (s : State) (snd : Sender) (c q : Nat) (e : BitVec 16) : Bool :=
  !coreUnreach s c && decide (e = (s.core c).epoch) && admits s.lat.id.toNat c ((s.core c).q q).scope snd && ((s.core c).q q).opened

/-- A message in flight, neither answered nor lost with its packet, and not behind another of its sender. -/
def arriving (s : State) (id : Nat) : Option Msg :=
  match s.msg id with
  | some m => if m.status.isNone && !heldBack s m && !m.lost && !slotLost s m.sender.port m.slot then some m else none
  | none => none

/-- A scratchpad with every row owned by the D-port, no poison and no struck word. -/
def spadClean (x : CoreSt) : Bool := decide (x.spad.portmap = 0) && x.spad.mem.poison.isEmpty && x.spad.mem.upsets.isEmpty

/-- A slot after its first contribution, of `l` bytes: key, parts and count of the contribution's header, one arrived. -/
def slotOfFirst (m : Msg) (ord : Bool) (l : Nat) : Slot :=
  let h := m.hdr.toNat
  let k : Slot := { used := true, key := bitsOf h 63 48, npart := bitsOf h 47 32, count := bitsOf h 31 16, len := l }
  { k with arrived := 1, bitmap := if ord then 2 ^ bitsOf h 15 0 else 0 }

end Sys2Proof.Claims

/-- R248 to R250: ev.sig sets lines; ev.poll and an ev.wait that finds one pending consume the lines of the mask; an
ev.wait that finds none waits with pc at itself. -/
def Sys2Proof.Claims.EventInstructions : Prop :=
  ∀ (s : State) (t : Tid) (rd ra : Reg) (mask : BitVec 16),
    ready s t = true → s.reg t ra.val = wInt (mask.zeroExtend 64) →
    exec (.evSig t ra) s = .next ((s.retire t id).modCore t.core.val (fun x => { x with evt := x.evt ||| mask })) ∧
    (evFree s t mask = true → exec (.evPoll t rd ra) s = .next (consumed s t rd mask)) ∧
    (evFree s t mask = true → (s.core t.core.val).evt &&& mask ≠ 0 → exec (.evWait t rd ra) s = .next (consumed s t rd mask)) ∧
    ((s.core t.core.val).evt &&& mask = 0 → mask ≠ 0 → evYields (s.core t.core.val) t.thr.val mask false = false →
      exec (.evWait t rd ra) s = .next ((s.issued t).modThr t (fun x => { x with held := some (.wait (.evWait t rd ra)), st := .wait })))

/-- R255, R256, R259: handles and the staging buffer: mq.h writes the type and the epoch, mq.put and mq.putr append,
mq.drop empties. -/
def Sys2Proof.Claims.StagingAndHandles : Prop :=
  ∀ (s : State) (t : Tid) (rd ra rb : Reg) (v n : Word) (ext : BitVec 16) (p : Nat),
    ready s t = true →
    exec (.mqDrop t) s = .next (s.retire t (fun x => { x with staging := [] })) ∧
    (s.reg t ra.val = wInt v →
      exec (.mqH t rd ra ext) s = .next (s.wrote t rd ⟨.hndl, (v &&& 0x00FFFFFFFFFF0000) ||| 0x0100000000000000 |||
        (handleEpoch s v.toNat ext).zeroExtend 64⟩)) ∧
    (s.reg t ra.val = wInt v → (s.thr t).staging.length + 8 ≤ 4096 →
      exec (.mqPut t ra) s = .next (s.retire t (fun x => { x with staging := x.staging ++ leBytes 8 v.toNat }))) ∧
    (s.reg t ra.val = wInt v → s.reg t rb.val = wInt n → v.toNat % 16 = 0 → n.toNat % 16 = 0 → 0 < n.toNat →
      (s.thr t).staging.length + n.toNat ≤ 4096 → spadClean (s.core t.core.val) = true →
      spadCheck (s.core t.core.val) ((s.core t.core.val).win t.thr.val) v ((v.toNat % 512 + n.toNat + 511) / 512) 1 0 = .ok p →
      mustWait (s.core t.core.val) t.core.val t.thr.val [.spad p n.toNat] = false →
      exec (.mqPutr t ra rb) s = .next (s.retire t (fun x =>
        { x with staging := x.staging ++ readBytes (s.core t.core.val).spad.mem.bytes p n.toNat })))

/-- R257, R258: a commit that sets out: the blocking and nonblocking forms hold their thread for the status, the posted
form goes on with rd 0 and an empty staging buffer; a fifth posted one waits. -/
def Sys2Proof.Claims.CommitsSetOut : Prop :=
  ∀ (s u : State) (t : Tid) (rd ra rb : Reg) (w hdr : Word) (cls : BitVec 2),
    ready s t = true → s.reg t ra.val = ⟨.hndl, w⟩ → s.reg t rb.val = wInt hdr →
    let holds := fun (i : Instr) => exec i s = .next (u.modThr t (fun x => { x with held := some (.commit s.nextId i), st := .run }))
    let posted := Instr.mqCommitPosted t rd ra rb cls
    (commitGoes s t w hdr cls .blocking = some u → holds (.mqCommitBlocking t rd ra rb cls)) ∧
    (commitGoes s t w hdr cls .nonblocking = some u → holds (.mqCommitNonblocking t rd ra rb cls)) ∧
    (commitGoes s t w hdr cls .posted = some u → postedOut s t.core.val t.thr.val < 4 →
      exec posted s = .next (u.modThr t (fun x => advance (({ x with staging := [] } : ThreadSt).setReg rd.val (wInt 0))))) ∧
    ((handleTarget s w cls).isSome = true → 4 ≤ postedOut s t.core.val t.thr.val →
      exec posted s = .next ((s.issued t).modThr t (fun x => { x with held := some (.wait posted), st := .wait })))

/-- R257 to R260: commits end to end: with their message out, delivered to an open queue of this device that takes it, and its
status back, the blocking and nonblocking forms have it in rd and, but for FULL, an empty staging buffer, at the next instruction. -/
def Sys2Proof.Claims.CommitsComplete : Prop :=
  ∀ (s : State) (m : Msg) (t : Tid) (rd ra rb : Reg) (cls : BitVec 2) (st : Nat),
    s.msg m.id = some m → m.sender = .thread s.lat.id.toNat t.core.val t.thr.val → m.parked = false → m.status = some st →
    (∀ i ∈ [Instr.mqCommitBlocking t rd ra rb cls, .mqCommitNonblocking t rd ra rb cls],
      (m.form = .blocking ↔ i = .mqCommitBlocking t rd ra rb cls) → m.form ≠ .posted → (st = 1 → m.form = .nonblocking) →
      (s.thr t).held = some (.commit m.id i) → quietBoundary s t →
      ∃ u, exec (.commitStatus m.id) s = .next u ∧ (u.thr t).held = none ∧ (u.thr t).staging = (if st = 1 then (s.thr t).staging else []) ∧
        u.reg t rd.val = (if rd = 0 then s.reg t 0 else wInt (BitVec.ofNat 64 st)) ∧ (u.thr t).st = .run ∧
        (u.thr t).pc = (advance (s.thr t)).pc ∧ u.msgs = s.msgs.filter (fun k => decide (k.id ≠ m.id)) ∧
        ((u.port t.core.val).slot m.slot).busy = false) ∧
    (m.form = .blocking → st = 1 → (s.thr t).held = some (.commit m.id (.mqCommitBlocking t rd ra rb cls)) → quietBoundary s t →
      ∃ u, exec (.commitStatus m.id) s = .next u ∧ (u.thr t).held = some (.wait (.mqCommitBlocking t rd ra rb cls)) ∧ (u.thr t).st = .wait ∧
        (u.thr t).staging = (s.thr t).staging ∧ (u.thr t).pc = (s.thr t).pc) ∧
    (m.form = .posted → ∃ u, exec (.commitStatus m.id) s = .next u ∧
      u.msgs = (if st = 1 ∧ s.coreFenced t.core.val = false then s.msgs.map (fun k => if k.id = m.id then { k with slot := 128, parked := true } else k)
        else s.msgs.filter (fun k => decide (k.id ≠ m.id))) ∧ u.thr t = s.thr t)

/-- R258, R259, R262: a posted message that was answered FULL sets out again with a fresh slot of its source port (of the generation
that the slot has), and nothing else of it changes. -/
def Sys2Proof.Claims.MessageStatuses : Prop :=
  ∀ (s : State) (m : Msg) (n : Nat) (u : State),
    s.msg m.id = some m → m.parked = true → m.form = .posted →
    msgTake s m = some (n, u) →
    exec (.postedResend m.id) s = .next (u.setMsg m.id (fun k =>
      { k with slot := n, gen := slotGen u m.sender.port n, status := none, parked := false }))

/-- R253, R260, R264: a message that its queue takes becomes a record at TAIL: header and payload in the ring, TAIL moved
by its granules, status OK for the sender. -/
def Sys2Proof.Claims.MessageDeliveredToRing : Prop :=
  ∀ (s : State) (m : Msg) (c q : Nat) (e : BitVec 16) (pos : Nat),
    arriving s m.id = some m → m.target = .queue none c q e → accepts s m.sender c q e = true →
    ((s.core c).q q).kind = false → placeOf ((s.core c).q q) (m.payload.length / 16 + 1) = .at_ pos 0 →
    m.payload.length % 16 = 0 → m.payload.length ≤ 4096 → spadClean (s.core c) = true → ((s.core c).dbg.tqmask) = 0 →
    ∃ u, exec (.messageDelivery m.id) s = .next u ∧
      readBytes (u.core c).spad.mem.bytes (ringByte ((s.core c).q q) pos) (16 + m.payload.length)
        = recHeader 0 (m.payload.length / 16) m.sender.bits m.hdr ++ m.payload ∧
      (∀ b, b < ringByte ((s.core c).q q) pos ∨ ringByte ((s.core c).q q) pos + 16 + m.payload.length ≤ b →
        readByte (u.core c).spad.mem.bytes b = readByte (s.core c).spad.mem.bytes b) ∧
      ((u.core c).q q).tail = ((s.core c).q q).tail + BitVec.ofNat 16 (m.payload.length / 16 + 1) ∧
      (u.msg m.id).bind (·.status) = some 0

/-- R260, R261, R263: what a queue answers that does not take the message: UNREACH of a fenced core and in DROWSE, STALE of another
epoch, NOWIN out of its scope, CLOSED when it is not open; nothing is written. -/
def Sys2Proof.Claims.MessageRefusals : Prop :=
  ∀ (s : State) (m : Msg) (c q : Nat) (e : BitVec 16),
    arriving s m.id = some m → m.target = .queue none c q e → ((s.core c).q q).kind = false → c < 512 →
    (s.core c).dbg.tqmask = 0 →
    let code := if coreUnreach s c then some 6 else if e ≠ (s.core c).epoch then some 3
      else if admits s.lat.id.toNat c ((s.core c).q q).scope m.sender = false then some 5
      else if ((s.core c).q q).opened = false then some 2 else none
    ∀ k, code = some k → ∃ u, exec (.messageDelivery m.id) s = .next u ∧ (u.msg m.id).bind (·.status) = some k ∧
      u.cores = s.cores

/-- R272 to R276: the first contribution of its key, of a length that the queue's operation takes, opens a slot and is stored in the slot's
rows, at its own place in ordered mode; an INT32 sum stores it as it came; the result of a complete slot goes to the ring as a record
of kind 2, and the slot is free again. -/
def Sys2Proof.Claims.CombiningQueues : Prop :=
  (∀ (s : State) (m : Msg) (c q i l : Nat) (e : BitVec 16),
    arriving s m.id = some m → m.target = .queue none c q e → accepts s m.sender c q e = true →
    let x := (s.core c).q q
    let op := x.op.toNat
    let h := m.hdr.toNat
    let j := bitsOf h 15 0
    let stored := if x.ord then m.payload.take l else bytes32 (contribWords op (m.payload.take l))
    x.kind = true → mayOpen x = true → contribLen op x.param.toNat m.payload.length (bitsOf h 47 32) = some l →
    (wouldBe op x.param.toNat m.payload.length (bitsOf h 47 32) + 15) / 16 + 1 ≤ x.cap →
    j < bitsOf h 31 16 → bitsOf h 31 16 ≤ (if x.ord then 256 else 1024) →
    (if x.ord then (j + 1) * rowsUp l else rowsUp (resultLen op l)) ≤ x.slotRows →
    (∀ j, (x.slot j).used = false) → (slotIds x).find? (fun j => !(x.slot j).used) = some i →
    spadClean (s.core c) = true → (s.core c).dbg.tqmask = 0 →
    ∃ u, exec (.combiningContribution m.id) s = .next u ∧ (u.msg m.id).bind (·.status) = some 0 ∧
      ((u.core c).q q).slot i = slotOfFirst m x.ord l ∧
      readBytes (u.core c).spad.mem.bytes (slotByte x i + if x.ord then 512 * (j * rowsUp l) else 0) stored.length = stored ∧
      (op = 1 → m.payload.length % 16 = 0 → stored = m.payload)) ∧
  (∀ (s : State) (c : Fin 512) (q : Fin 32) (i pos : Nat),
    let x := (s.core c.val).q q.val
    let n := (resultLen x.op.toNat (x.slot i).len + 15) / 16 + 1
    s.coreFenced c.val = false → x.opened = true → x.kind = true → mayOpen x = true → readySlot x = some i →
    placeOf x n = .at_ pos 0 → (x.slot i).len % 4 = 0 → (if x.ord then (x.slot i).count * rowsUp (x.slot i).len else rowsUp (resultLen x.op.toNat (x.slot i).len)) ≤ x.slotRows →
    spadClean (s.core c.val) = true → (s.core c.val).dbg.tqmask = 0 →
    ∃ u, exec (.combinedResultDelivery c q) s = .next u ∧ (((u.core c.val).q q.val).slot i).used = false ∧
      ((u.core c.val).q q.val).tail = x.tail + BitVec.ofNat 16 n)

/-- R273, R274, R276: a further contribution of an INT32 sum, of the length and the count that its key's open slot has, is added to the slot's
words modulo 2^32; the result of a complete slot becomes a record of kind 2 at TAIL, with the slot's key and counts, and frees the slot. -/
def Sys2Proof.Claims.IntegerSums : Prop :=
  (∀ (s : State) (m : Msg) (c q i : Nat) (e : BitVec 16),
    arriving s m.id = some m → m.target = .queue none c q e → accepts s m.sender c q e = true →
    let x := (s.core c).q q
    let k := x.slot i
    let h := m.hdr.toNat
    let n := m.payload.length
    let old := readBytes (s.core c).spad.mem.bytes (slotByte x i) n
    let sums := ((words32 old).zip (words32 m.payload)).map (fun p => p.1 + p.2)
    x.kind = true → mayOpen x = true → x.op = 1 → x.ord = false → 16 ≤ n → n ≤ 4096 → n % 16 = 0 → n / 16 + 1 ≤ x.cap → rowsUp n ≤ x.slotRows →
    bitsOf h 47 32 = 0 → bitsOf h 15 0 < bitsOf h 31 16 → bitsOf h 31 16 ≤ 1024 →
    (slotIds x).find? (fun j => (x.slot j).open_ && decide ((x.slot j).key = bitsOf h 63 48)) = some i →
    k.len = n → k.count = bitsOf h 31 16 → 0 < k.arrived → spadClean (s.core c) = true → (s.core c).dbg.tqmask = 0 →
    ∃ u, exec (.combiningContribution m.id) s = .next u ∧ (u.msg m.id).bind (·.status) = some 0 ∧
      ((u.core c).q q).slot i = { k with arrived := k.arrived + 1 } ∧
      readBytes (u.core c).spad.mem.bytes (slotByte x i) n = bytes32 sums ∧ (∀ j, j ≠ c → u.core j = s.core j)) ∧
  (∀ (s : State) (c : Fin 512) (q : Fin 32) (i pos : Nat),
    let x := (s.core c.val).q q.val
    let k := x.slot i
    let n := k.len
    s.coreFenced c.val = false → x.opened = true → x.kind = true → mayOpen x = true → x.op = 1 → x.ord = false → n % 16 = 0 → rowsUp n ≤ x.slotRows →
    readySlot x = some i → placeOf x (n / 16 + 1) = .at_ pos 0 → spadClean (s.core c.val) = true → (s.core c.val).dbg.tqmask = 0 →
    ∃ u, exec (.combinedResultDelivery c q) s = .next u ∧ (((u.core c.val).q q.val).slot i).used = false ∧
      readBytes (u.core c.val).spad.mem.bytes (ringByte x pos) (16 + n) =
        recHeader 2 (n / 16) (3 * 2 ^ 30 + s.lat.id.toNat * 2 ^ 20 + c.val * 2 ^ 11) (BitVec.ofNat 64 (k.key * 2 ^ 48 + k.npart * 2 ^ 32 + k.count * 2 ^ 16)) ++
          readBytes (s.core c.val).spad.mem.bytes (slotByte x i) n)

/-- R279 to R281: an episode of one group, step by step: an arrival sets out once the core's writes are visible, is counted at its cluster's
node, a node's report is counted at the root, and a member that is due completes and fires its line. -/
def Sys2Proof.Claims.BarrierSteps : Prop :=
  ∀ (s : State) (t : Tid) (c : Fin 512) (k g : Fin 64),
    let x := s.core t.core.val
    let m := (s.core c.val).map g.val
    let n := (s.cluster (clusterOf c.val)).node g.val
    let r := s.rootOf g.val
    (ready s t = true → (x.map g.val).member = true → (x.map g.val).out = false → x.dc.wbs = [] → dcDirty x.dc = [] →
      writesPending x t.core.val t.thr.val (if r.en then .system else .die) = false →
      exec (.cinchArrive t g) s = .next ((s.retire t id).modCore t.core.val (fun y =>
        y.modMap g.val (fun m => { m with out := true, abort := false, flight := true })))) ∧
    (m.flight = true → n.reported = false → n.loc = 0 ∨ n.arr + 1 < n.loc →
      exec (.cinchNodeArrival c g) s = .next ((s.modCore c.val (fun y => y.modMap g.val (fun m => { m with flight := false, cur := true }))).modCluster
        (clusterOf c.val) (fun y => y.modNode g.val (fun n => { n with arr := n.arr + 1 })))) ∧
    (s.cp.rootOut = false → ((s.cluster k.val).node g.val).sent = true → r.reported = false → r.arr + 1 < r.clusters →
      exec (.cinchRootReport (.node k) g) s = .next ((s.modCluster k.val (fun y => y.modNode g.val (fun n => { n with sent := false }))).modRoot
        g.val (fun r => { r with arr := r.arr + 1 }))) ∧
    (m.due = true → exec (.cinchCompletion c g) s = .next (s.modCore c.val (fun y =>
      (y.modMap g.val (fun m => { m with out := false, due := false })).fireAcq m.evline.toNat)))

/-- R266 to R270: mq.recv takes the message at HEAD into service and gives its address and length; mq.done frees it;
mq.disp and mq.done of a handler go to DISPATCH; a dispatch starts the queue's handler at task level with w1 to w3. -/
def Obligations.ReceiveAndHandlers : Prop :=
  ∀ (s : State) (t : Tid) (rd ra : Reg) (q : Fin 32),
    let x := (s.core t.core.val).q q.val
    (s.core t.core.val).dbg.tqmask = 0 →
    (ready s t = true → s.reg t ra.val = wInt (BitVec.ofNat 64 q.val) →
      (x.bind = false → x.ready = true → x.scope = 0 → ∀ nb,
        exec (.mqRecv t rd ra nb) s = .next (((s.issued t).modCore t.core.val (fun y => y.modQ q.val (fun z => { z with inServ := true }))).modThr t
          (fun y => advance (y.setReg rd.val (wInt (BitVec.ofNat 64
            ((msgAddr (s.core t.core.val) t.thr.val q.val).toNat % 2 ^ 48 + x.headLen * 2 ^ 52))))))) ∧
      (x.bind = false → x.inServ = false → x.ready = false → x.opened = true →
        exec (.mqRecv t rd ra true) s = .next (s.wrote t rd (wInt 0))) ∧
      (x.inServ = true → x.bind = true → (s.thr t).handler = some q → t.thr ≠ 0 →
        exec (.mqDone t ra) s = .next (((s.issued t).modCore t.core.val (fun y => y.modQ q.val freeHead)).modThr t
          (fun y => { y with handler := none, st := .dispatch }))) ∧
      (x.bind = false → x.inServ = true → (s.thr t).handler = none →
        exec (.mqDone t ra) s = .next (((s.issued t).modCore t.core.val (fun y => y.modQ q.val freeHead)).modThr t advance))) ∧
    (ready s t = true → x.bind = true → x.thr = t.thr → t.thr ≠ 0 →
      exec (.mqDisp t) s = .next ((s.issued t).modThr t (fun y => { y with handler := none, st := .dispatch }))) ∧
    (t.thr ≠ 0 → (s.thr t).st = .dispatch → coreRuns s t.core.val = true → nextDispatch (s.core t.core.val) t.thr.val = some q.val →
      x.scope = 0 → (s.thr t).cmds = [] →
      exec (.handlerDispatch t) s = .next ((s.modCore t.core.val (fun y => y.modQ q.val (fun z => { z with inServ := true }))).modThr t (fun y =>
        { ((y.setReg 1 (wInt (msgAddr (s.core t.core.val) t.thr.val q.val))).setReg 2 (wInt (BitVec.ofNat 64 (16 * x.headLen)))).setReg 3
            (wInt (BitVec.ofNat 64 q.val)) with
          pc := codePc x.handler, compat := codeMode x.handler, priv := false, st := .run, handler := some q })))

/-- R279 to R281: a cinch arrival goes from its member to its cluster's node, the node's report to the root, as do those of child
devices and the parent's release, the release to the members, and a completion fires the core's event line. -/
def Sys2Proof.Claims.CinchBarrier : Prop :=
  (∀ (s : State) (t : Tid) (g : Fin 64), ready s t = true →
    ((s.core t.core.val).map g.val).member = true → ((s.core t.core.val).map g.val).out = false →
    (s.core t.core.val).dc.wbs = [] → dcDirty (s.core t.core.val).dc = [] →
    writesPending (s.core t.core.val) t.core.val t.thr.val (if (s.rootOf g.val).en then .system else .die) = false →
    exec (.cinchArrive t g) s = .next ((s.retire t id).modCore t.core.val (fun x =>
      x.modMap g.val (fun m => { m with out := true, abort := false, flight := true })))) ∧
  (∀ (s : State) (c : Fin 512) (g : Fin 64),
    let n := (s.cluster (clusterOf c.val)).node g.val
    ((s.core c.val).map g.val).flight = true → n.reported = false →
    ∃ u, exec (.cinchNodeArrival c g) s = .next u ∧ ((u.core c.val).map g.val).flight = false ∧
      ((u.core c.val).map g.val).cur = true ∧ ((u.cluster (clusterOf c.val)).node g.val).arr = n.arr + 1 ∧
      (((u.cluster (clusterOf c.val)).node g.val).reported = true ↔ n.loc ≠ 0 ∧ n.loc ≤ n.arr + 1)) ∧
  (∀ (s : State) (k : Fin 64) (g : Fin 64),
    let r := s.rootOf g.val
    s.cp.rootOut = false → ((s.cluster k.val).node g.val).sent = true → r.reported = false → r.arr + 1 < r.clusters →
    ∃ u, exec (.cinchRootReport (.node k) g) s = .next u ∧ (u.rootOf g.val).arr = r.arr + 1 ∧
      ((u.cluster k.val).node g.val).sent = false ∧ u.cores = s.cores) ∧
  (∀ (s : State) (k : Fin 64) (g : Fin 64) (c : Fin 512),
    let r := s.rootOf g.val
    s.cp.rootOut = false → ((s.cluster k.val).node g.val).sent = true → r.reported = false → r.arr + 1 = r.clusters →
    r.children = 0 → r.parent = 0x3FF → ((s.core c.val).map g.val).cur = true →
    ∃ u, exec (.cinchRootReport (.node k) g) s = .next u ∧ (u.rootOf g.val).par = !r.par ∧ (u.rootOf g.val).arr = r.next ∧
      ((u.core c.val).map g.val).due = true) ∧
  (∀ (s : State) (g : Fin 64) (c : Fin 512),
    let r := s.rootOf g.val
    s.cp.rootOut = false →
    (r.reported = false → r.child + 1 < r.children →
      ∃ u, exec (.cinchRootReport .child g) s = .next u ∧ (u.rootOf g.val).child = r.child + 1 ∧ u.cores = s.cores) ∧
    (r.reported = true → ∃ u, exec (.cinchRootReport .child g) s = .next u ∧ (u.rootOf g.val).childNext = r.childNext + 1 ∧ u.cores = s.cores) ∧
    (r.reported = true → r.next < r.clusters ∨ r.childNext < r.children → ((s.core c.val).map g.val).cur = true →
      ∃ u, exec (.cinchRootReport .parent g) s = .next u ∧ (u.rootOf g.val).par = !r.par ∧ (u.rootOf g.val).reported = false ∧
        (u.rootOf g.val).arr = r.next ∧ (u.rootOf g.val).child = r.childNext ∧ ((u.core c.val).map g.val).due = true)) ∧
  (∀ (s : State) (c : Fin 512) (g : Fin 64),
    let m := (s.core c.val).map g.val
    m.due = true →
    ∃ u, exec (.cinchCompletion c g) s = .next u ∧ ((u.core c.val).map g.val).out = false ∧
      ((u.core c.val).map g.val).due = false ∧ ((u.core c.val).map g.val).abort = m.abort ∧
      (u.core c.val).evt = (s.core c.val).evt ||| BitVec.ofNat 16 (2 ^ m.evline.toNat))


namespace Sys2Proof.Claims

/-- Operands of the register commands, one of each kind. -/
structure RegOps where
  a : Agent
  c : Fin 512
  n : Fin 16
  k : Fin 64
  sl : Fin 80
  st : Fin 2
  v : Half

/-- A register of a unit that has its supply, for this writer: OFF-RAILS leaves the management plane's ports without (R25, R477). -/
def supplied (s : State) (a : Agent) : Bool := !(decide (a = .mgmt) && decide (s.pwr.state = 3))

/-- A register command: `w` is what the register's rules answer its writer (R519), `u` the state that the write leaves; a unit
without supply is reported, and nothing else happens. -/
def RegRow (s : State) (a : Agent) (i : Instr) (w : RegAns) (u : State) : Prop :=
  (supplied s a = true →
    (w = .ok → exec i s = .next (u.answer { status := .ok })) ∧
    (w = .nowin → exec i s = .next (s.answer { status := .nowin })) ∧
    (w = .wait → exec i s = .next s)) ∧
  (supplied s a = false → exec i s = .next (s.answer { status := .unreach }))

/-- The keeper `n` of a core after `f`. -/
def keeperSet (s : State) (o : RegOps) (f : Keeper → Keeper) : State :=
  s.modCore o.c.val (fun x => { x with keep := { x.keep with k := tmod keepDef x.keep.k o.n.val f } })

/-- UP of a cluster as given, and LOAD_HINT of each quadrant high while any of its clusters holds UP (R16, R487). -/
def hinted (s : State) (k : Nat) (up : Bool) : State :=
  let s := s.modCluster k (fun x => { x with hintUp := up })
  { s with pwr := { s.pwr with loadHint := loadHints s } }

/-- Zero counts as one. -/
def atLeastOne (n : Nat) : Nat := max 1 n

/-- A write of MTX_ARM: at once, or behind the drains that are queued (R196). -/
def armed (s : State) (c : Fin 512) (v : BitVec 3) (f : MtxSt → MtxSt) : State :=
  s.modMtx c.val (fun m =>
    let drains := (m.ops.filter (fun y => decide (mtxUnit y.i = 2))).map MtxOp.t
    if drains = [] then f m else { m with arms := m.arms ++ [(v, drains)] })

/-- The number of queued instructions up to the last v.cvt (R216). -/
def throughLastCvt (l : List VecOp) : Nat := l.length - (l.reverse.takeWhile (fun y => !isCvt y.i)).length

/-- What each register command writes (R143, R153, R157, R163, R164, R165, R194, R196, R216, R239, R320, R359, R411, R489). -/
def RegRows (s : State) (o : RegOps) : Prop :=
  let v := o.v.toNat
  let cw := coreWriteOk s o.a o.c.val
  let core := fun (f : CoreSt → CoreSt) => s.modCore o.c.val f
  RegRow s o.a (.keeperConfigWrite o.a o.c o.n .base o.v) (cw (0x500 + 16 * o.n.val)) (keeperSet s o (fun y => { y with base := v % 8192 })) ∧
  RegRow s o.a (.keeperConfigWrite o.a o.c o.n .bound o.v) (cw (0x504 + 16 * o.n.val)) (keeperSet s o (fun y => { y with bound := min (v % 16384) 8192 })) ∧
  RegRow s o.a (.keeperConfigWrite o.a o.c o.n .ctl o.v) (cw (0x508 + 16 * o.n.val)) (keeperSet s o (fun y =>
      { y with scope := if o.v.extractLsb' 3 2 = 3 then y.scope else o.v.extractLsb' 3 2, wr := o.v.getLsbD 2, rd := o.v.getLsbD 1, en := o.v.getLsbD 0 })) ∧
  RegRow s o.a (.spadBurnishSweep o.a o.c) (cw 0x404) (core (fun x =>
      { x with spad := { x.spad with sweep := [(0, 2048), (1, 2048), (2, 2048), (3, 2048)] } })) ∧
  RegRow s o.a (.icacheInval o.a o.c) (cw 0x688) (core (fun x => { x with icache := [], icStruck := [] })) ∧
  RegRow s o.a (.mtxArmSpec o.a o.c) (cw 0x70C) (armed s o.c 1 (fun m => { m with special := 0 })) ∧
  RegRow s o.a (.mtxArmAmax o.a o.c o.st) (cw 0x70C)
    (armed s o.c (if o.st = 0 then 2 else 4) (fun m => { m with amaxCum := tset halfDef m.amaxCum o.st.val 0 })) ∧
  RegRow s o.a (.vecArmAmax o.a o.c) (cw 0x838) (s.modVec o.c.val (fun y =>
    if y.ops.any (fun p => isCvt p.i) then { y with arms := y.arms ++ [throughLastCvt y.ops] } else { y with amaxCum := 0 })) ∧
  RegRow s o.a (.sliceBurnishSweep o.a o.sl) (sliceWriteOk o.a 0x10) (s.modSlice o.sl.val (fun x => { x with sweepLeft := 0x300000000 / 32 })) ∧
  RegRow s o.a (.skvArmAmax o.a o.sl) (sliceWriteOk o.a 0x60) (s.modSlice o.sl.val (fun x => { x with skv := { x.skv with amaxCum := 0 } })) ∧
  RegRow s o.a (.pwrHintWrite o.a o.k o.v) (clusterWriteOk o.a o.k.val 0x500) (hinted s o.k.val (o.v.getLsbD 0)) ∧
  (deviceWriteOk o.a 0x108 = .ok → exec (.pwrFcastWrite o.a o.v) s
    = .next (({ s with pwr := { s.pwr with fcast := o.v, fcastDue := s.pwr.fcastDue ++ [(o.v, s.mgmt.time)] } } : State).answer { status := .ok })) ∧
  (deviceWriteOk o.a 0x108 = .nowin → exec (.pwrFcastWrite o.a o.v) s = .next (s.answer { status := .nowin })) ∧
  RegRow s o.a (.latRetryWrite o.a o.v) (deviceWriteOk o.a 0x2008) 
      (let (mx, hold, tmo) := (atLeastOne (v / 2 ^ 28), v / 2 ^ 16 % 2 ^ 12, v % 2 ^ 16)
       if 100 * hold < (mx + 1) * tmo then s else { s with lat := { s.lat with retryMax := mx, hold := hold, timeout := tmo } })

/-- A running channel that ends with `st` (R238, R239): what has not set out is never sent, which leaves its element short. -/
def stopping (y : DmaCh) (st : BitVec 4) : DmaCh :=
  let left := Sys2Proof.Machine.outstanding y.reqs
  { y with status := st, cause := 0, ending := some st, reqs := left, short := y.short || decide (left.length < y.reqs.length) }

/-- A queue's configuration is one that MQ_CTL may open (R265, R287). -/
def openable (q : QueueSt) : Prop := mayOpen q = true

/-- The core after a write of 1 to CORE_DBG_CMD.HALT: halted once every thread is at a boundary (R514). -/
def HaltedNow (s u : State) (c : Fin 512) : Prop :=
  (u.core c.val).dbg.haltReq = true ∧ (u.core c.val).dbg.halted = true ∧
  (∀ n, n < 8 → ((u.core c.val).t n).pc = ((s.core c.val).t n).pc ∧ ((u.core c.val).t n).regs = ((s.core c.val).t n).regs) ∧
  (∀ d, d ≠ c.val → u.core d = s.core d)

end Sys2Proof.Claims

/-- R519 and the rules of the registers: a writer that a register admits gets OK and the register takes the value its
layout admits; one that it does not admit gets NOWIN and changes nothing. -/
def Sys2Proof.Claims.RegisterWriteCommands : Prop :=
  ∀ (s : State) (o : RegOps), RegRows s o

/-- R263, R265, R287: MQ_BASE and MQ_SIZE change a closed queue only and empty it; MQ_CTL configures and opens a closed
queue whose configuration is valid, is ignored whole where it is not, and closes an open one, discarding its slots. A core whose
deadlock the write ends may report one again (R133). -/
def Sys2Proof.Claims.QueueRegisters : Prop :=
  ∀ (s : State) (a : Agent) (c : Fin 512) (q : Fin 32) (v : Half), supplied s a = true →
    let x := (s.core c.val).q q.val
    let put := fun (f : QueueSt → QueueSt) => s.modCore c.val (fun y => y.modQ q.val f)
    let set := fun (f : QueueSt → QueueSt) => Host.Outcome.next ((put f).answer { status := .ok })
    let ctl := fun (f : QueueSt → QueueSt) => Host.Outcome.next ((deadlockOver c.val (put f)).answer { status := .ok })
    (coreWriteOk s a c.val (0x1000 + 0x40 * q.val) = .ok →
      exec (.mqBaseSizeWrite a c q false v) s = set (fun z =>
        if x.opened then z else { z with base := v.toNat % 8192, head := 0, tail := 0, recs := [], inServ := false })) ∧
    (coreWriteOk s a c.val (0x1004 + 0x40 * q.val) = .ok →
      exec (.mqBaseSizeWrite a c q true v) s = set (fun z =>
        if x.opened ∨ 10 < v.toNat % 16 then z else { z with log2 := v.toNat % 16, head := 0, tail := 0, recs := [], inServ := false })) ∧
    (coreWriteOk s a c.val (0x1010 + 0x40 * q.val) = .ok →
      (x.opened = true → v.getLsbD 0 = true → exec (.mqCtlWrite a c q v) s = ctl id) ∧
      (x.opened = true → v.getLsbD 0 = false → exec (.mqCtlWrite a c q v) s = ctl (fun z => { z with opened := false, slots := [] })) ∧
      (x.opened = false →
        let y := { x with thr := (v.extractLsb' 5 3).toFin, bind := v.getLsbD 4, kind := v.getLsbD 3, scope := v.extractLsb' 1 2 }
        (v.getLsbD 0 = true → openable y → exec (.mqCtlWrite a c q v) s = ctl (fun _ => { y with opened := true, portErr := false })) ∧
        (v.getLsbD 0 = true → ¬ openable y → exec (.mqCtlWrite a c q v) s = ctl id) ∧
        (v.getLsbD 0 = false → exec (.mqCtlWrite a c q v) s = ctl (fun _ => y))))

/-- R143: each group's field of SPAD_PORTMAP is written where the mask says so, 3 leaves it; the write waits while an
engine's unfinished instruction uses a group that changes. R162: FLUSH and INVAL set every dirty line out. -/
def Sys2Proof.Claims.PortmapAndCacheActions : Prop :=
  ∀ (s : State) (a : Agent) (c : Fin 512) (v : Half), supplied s a = true →
    let x := s.core c.val
    (coreWriteOk s a c.val 0x400 = .ok →
      (∃ p : BitVec 8, (∀ g, g < 4 → p.extractLsb' (2 * g) 2 =
          (let w := (x.spad.portmap.extractLsb' (2 * g) 2 &&& ~~~ v.extractLsb' (16 + 2 * g) 2) ||| (v.extractLsb' (2 * g) 2 &&& v.extractLsb' (16 + 2 * g) 2)
           if w = 3 then x.spad.portmap.extractLsb' (2 * g) 2 else w)) ∧
        ((∀ g, g < 4 → p.extractLsb' (2 * g) 2 ≠ x.spad.portmap.extractLsb' (2 * g) 2 → groupBusy x c.val g = false) →
          exec (.spadPortmapWrite a c v) s
            = .next ((s.modCore c.val (fun x => { x with spad := { x.spad with portmap := p } })).answer { status := .ok })) ∧
        ((∃ g, g < 4 ∧ p.extractLsb' (2 * g) 2 ≠ x.spad.portmap.extractLsb' (2 * g) 2 ∧ groupBusy x c.val g = true) →
          exec (.spadPortmapWrite a c v) s = .next s))) ∧
    (coreWriteOk s a c.val 0x680 = .ok → (∀ k ∈ dcDirty x.dc, (dcGet x.dc k).parity = false) → twf lineDef x.dc.ways = true →
      ∀ f ∈ [(Instr.flush, false), (Instr.inval, true)],
        ∃ u, exec (f.1 a c) s = .next u ∧ u.reply = some { status := .ok } ∧
          (u.core c.val).dc.action = some (f.2 || x.dc.action.getD false) ∧ dcDirty (u.core c.val).dc = [] ∧
          (u.core c.val).dc.wbs.map (fun w => (w.line, w.bytes, w.mask, w.why)) =
            x.dc.wbs.map (fun w => (w.line, w.bytes, w.mask, w.why)) ++ (dcDirty x.dc).map (fun k =>
              ((dcGet x.dc k).line, (dcGet x.dc k).bytes, (dcGet x.dc k).dirty, .action)) ∧
          (∀ k, (dcGet (u.core c.val).dc k).bytes = (dcGet x.dc k).bytes) ∧ (∀ d, d ≠ c.val → u.core d = s.core d))

/-- R239: DMA_CTL.STOP stops a channel as dma.stop does. R283: a write of CINCH_NODE, CINCH_ROOT or CINCH_XCFG while no
episode of the group is open changes that register alone; a value out of its range leaves the count as it was. -/
def Sys2Proof.Claims.StopAndCinchConfiguration : Prop :=
  ∀ (s : State) (a : Agent) (c : Fin 512) (ch : Fin 16) (k g : Fin 64) (v : Half), supplied s a = true →
    (coreWriteOk s a c.val (0x904 + 0x40 * ch.val) = .ok → ((s.core c.val).ch ch.val).ending = none →
      (((s.core c.val).ch ch.val).run = .run → exec (.dmaCtlStop a c ch) s = .next ((s.modCore c.val (fun x =>
        x.modCh ch.val (Sys2Proof.Claims.stopping · 1))).answer { status := .ok })) ∧
      (((s.core c.val).ch ch.val).run = .waitStart → ∃ u, exec (.dmaCtlStop a c ch) s = .next u ∧
        ((u.core c.val).ch ch.val).run = .stopped ∧ ((u.core c.val).ch ch.val).status = 1) ∧
      (((s.core c.val).ch ch.val).run = .idle ∨ ((s.core c.val).ch ch.val).run = .stopped →
        exec (.dmaCtlStop a c ch) s = .next ((s.modCore c.val id).answer { status := .ok }))) ∧
    (isCtlAgent a = true → episodeOpen s g.val = false →
      exec (.cinchConfigWrite a (.node k) g v) s = .next ((if v.toNat % 16 ≤ 8 then
        s.modCluster k.val (fun x => x.modNode g.val (fun y => { y with loc := v.toNat % 16 })) else s).answer { status := .ok }) ∧
      exec (.cinchConfigWrite a .root g v) s = .next ((if v.toNat % 128 ≤ 64 then
        s.modRoot g.val (fun r => { r with clusters := v.toNat % 128 }) else s).answer { status := .ok }) ∧
      exec (.cinchConfigWrite a .xcfg g v) s = .next ((s.modRoot g.val (fun r =>
        { r with en := v.getLsbD 31, parent := v.toNat / 2 ^ 21 % 1024,
                 children := if v.toNat % 1024 ≤ 624 then v.toNat % 1024 else r.children })).answer { status := .ok })) ∧
    (isCtlAgent a = true → episodeOpen s g.val = true → ((s.core c.val).map g.val).cur = true →
      ∀ r ∈ [CinchReg.node k, .root, .xcfg], ∃ u, exec (.cinchConfigWrite a r g v) s = .next u ∧ (u.rootOf g.val).arr = 0 ∧
        (u.rootOf g.val).reported = false ∧ ((u.cluster k.val).node g.val).arr = 0 ∧ ((u.core c.val).map g.val).out = false ∧ ((u.core c.val).map g.val).abort = true)

/-- R514, R515: HALT written 1 stops a core whose threads are all at boundaries, each thread with its pc and registers; a
halted core issues nothing; HALT written 0 lets it go on; STEPGO lets the thread named issue one instruction. -/
def Sys2Proof.Claims.DebugHalt : Prop :=
  ∀ (s : State) (c : Fin 512) (t : Fin 8), s.pwr.state ≠ 3 →
    ((s.core c.val).dbg.halted = false → allAtBoundary (s.core c.val) = true →
      ∃ u, exec (.halt c) s = .next u ∧ HaltedNow s u c ∧ (u.core c.val).dbg.stepping = (s.core c.val).dbg.stepping) ∧
    ((s.core c.val).dbg.stepping = none → (s.core c.val).dbg.haltReq = true → canIssue s ⟨c, t⟩ = false) ∧
    (exec (.debugResume c) s = .next ((s.modCore c.val (fun x =>
      { x with dbg := { x.dbg with haltReq := false, halted := false, stepping := none, stepOut := false } })).answer { status := .ok })) ∧
    ((s.core c.val).dbg.halted = true → (s.core c.val).dbg.haltReq = true →
      exec (.stepgo c t) s = .next ((s.modCore c.val (fun x =>
        { x with dbg := { x.dbg with step := BitVec.ofFin t, stepping := some t, waited := false, stepOut := false } })).answer { status := .ok }))

/-- R519 to R521: a write of part of a register is ignored and answered OK; a whole 8-byte register takes its value with
reserved bits as zero; a write of half of a 64-bit register changes nothing. R402: LAT_GROUP takes a value only while its
links are fenced. R37, R476: reading the low half of a counter latches the high half. -/
def Obligations.RegisterAccesses : Prop :=
  (∀ (s : State) (a : Agent) (c : Fin 512) (v : Word), supplied s a = true → coreWriteOk s a c.val 0x18 = .ok →
    let addr : BitVec 48 := BitVec.ofNat 48 (coreBlock c.val + 0x18)
    exec (.registerWrite a addr .b8 v) s = .next ((s.modCore c.val (fun x => { x with excvec := v &&& 0xFF00FFFFFFFFFFFF })).answer { status := .ok }) ∧
    exec (.registerWrite a addr .b4 v) s = .next (s.answer { status := .ok }) ∧
    exec (.registerWrite a addr .b2 v) s = .next (s.answer { status := .ok }) ∧
    exec (.registerWrite a addr .b1 v) s = .next (s.answer { status := .ok })) ∧
  (∀ (s : State) (a : Agent) (k : Fin 64) (v : Word), supplied s a = true → isCtlAgent a = true →
    exec (.registerWrite a (BitVec.ofNat 48 (clusterBlock k.val + 0x44C)) .b4 v) s
      = .next ((s.modCluster k.val (fun x => { x with mark := v.extractLsb' 0 4 })).answer { status := .ok })) ∧
  (∀ (s : State) (a : Agent) (g : Fin 3) (v : Half), supplied s a = true → isCtlAgent a = true →
    ((∀ l, 16 * g.val ≤ l → l < 16 * g.val + 16 → (s.link l).isFenced = true) →
      exec (.latGroupWrite a g v) s = .next ({ s with lat := { s.lat with groups := tmod groupDef s.lat.groups g.val (fun x =>
        { x with fmt := v.getLsbD 2, rate := if v.extractLsb' 0 2 = 3 then x.rate else v.extractLsb' 0 2 }) } }.answer { status := .ok })) ∧
    ((∃ l, 16 * g.val ≤ l ∧ l < 16 * g.val + 16 ∧ (s.link l).isFenced = false) →
      exec (.latGroupWrite a g v) s = .next (s.answer { status := .ok }))) ∧
  (∀ (s : State) (a : Agent) (k : Fin 64),
    (supplied s a = true → exec (.pacerLoRead a k) s = .next ((s.modCluster k.val (fun x => { x with pacerHi := BitVec.ofNat 32 (x.pacer / 2 ^ 32) })).answer
      { status := .ok, data := leBytes 4 (s.cluster k.val).pacer })) ∧
    exec (.mgtTimeLoRead a) s = .next ({ s with mgmt := { s.mgmt with timeHi := BitVec.ofNat 32 (s.mgmt.time / 2 ^ 32) } }.answer
      { status := .ok, data := leBytes 4 s.mgmt.time }))

namespace Sys2Proof.Claims

/-- An instruction of the engine as it is queued at issue: operand words, window, checks passed (R145, R175). -/
def queuedOp (s : State) (t : Tid) (i : Instr) (a b : TWord) (la lb : MLoc) : MtxOp :=
  { t := t.thr, i := i, a := a, b := b, win := (s.core t.core.val).win t.thr.val, checked := true, la := la, lb := lb, map := s.smap }

/-- The engine of an idle core takes `o`: it is queued, and the thread is held with pc at the instruction (R174). -/
def Taken (s : State) (t : Tid) (o : MtxOp) : Prop :=
  exec o.i s = .next (((s.issued t).modMtx t.core.val (fun m => { m with ops := [o] })).modThr t (fun x => { x with held := some .engine }))

/-- A configured tile of this shape. -/
def shaped (s : State) (t : Tid) (k : Fin 8) (f : Format) (g : TileCfg) : Prop := ((s.core t.core.val).mtx.tile k.val).shape = some (f, g)

/-- The only instruction in the engine of `t`'s core is `o` of thread `t`, held by it; nothing else uses the core's memory. -/
def EngineHas (s : State) (t : Tid) (o : MtxOp) : Prop :=
  (s.core t.core.val).mtx.ops = [o] ∧ o.t = t.thr ∧ (s.core t.core.val).vec.ops = [] ∧ mtxRuns s t.core.val = true ∧
  (∀ n, n < 8 → heldSpans t.core.val ((s.core t.core.val).t n).held = [])

/-- The state after the engine's instruction of `t` is done: the engine is empty, the core changed by `f`, the thread goes
on at the next instruction. -/
def engineDone (s : State) (t : Tid) (f : CoreSt → CoreSt) : State :=
  (((s.modMtx t.core.val (fun m => { m with ops := [] })).modCore t.core.val f).modThr t (fun x =>
    advance { x with held := none, st := .run })).modMtx t.core.val (fun m => m.drainOver t.thr.val)

/-- A segment of the cache that passes the checks of R88 and R178 for a transfer of `n` bytes at pointer `a`. -/
def segBulk (s : State) (t : Tid) (a : Word) (n : Nat) (write : Bool) : Option (Nat × Bool) :=
  match (s.core t.core.val).segs.find? (fun e => decide (e.table = segTable (s.thr t) (s.thr t).priv) && decide (e.sel = pSel a)) with
  | none => none
  | some e =>
    match segChecks e (pOff a) n 64 false (if write then .w else .r) 0 (wAddr a) with
    | .ok g => some (ownGa s g, e.k)
    | .error _ => none

/-- A transfer's memory operand: rows of the scratchpad that pass R93 for the M-port, or a global span that passes R88. -/
def bulkAt (s : State) (t : Tid) (v : TWord) (n : Nat) (write : Bool) (l : MLoc) : Prop :=
  (∃ off p, v = wInt off ∧ l = .spad p n ∧ spadCheck (s.core t.core.val) ((s.core t.core.val).win t.thr.val) off ((n + 511) / 512) 512 1 = .ok p) ∨
  (∃ a g k, v = wAddr a ∧ l = .glob g n k ∧ segBulk s t a n write = some (g, k))

/-- No line of the core's cache, or on its way there or back, holds a byte of the span. -/
def uncached (s : State) (t : Tid) (g n : Nat) : Prop :=
  (s.core t.core.val).dc.miss = none ∧ ∀ l ∈ linesOf s.smap g n, dcFind (s.core t.core.val).dc l = none ∧ ∀ w ∈ (s.core t.core.val).dc.wbs, w.line ≠ l

def withMtx (x : CoreSt) (m : MtxSt) : CoreSt := { x with mtx := m }

/-- A reuse latch after t.rel: no longer valid when it holds a released tile (R172). -/
def releasedLatch (mask : BitVec 8) (l : Option Reuse) : Option Reuse := l.filter (fun r => !mask.getLsbD r.tile.val)

/-- No poisoned row and no struck word. -/
def spadSound (x : CoreSt) : Bool := x.spad.mem.poison.isEmpty && x.spad.mem.upsets.isEmpty

/-- Element (i, j) of a set. -/
def elAt (a : AccSet) (i j : Nat) : AccEl := tget elDef a.els (32 * i + j)

/-- The signed INT8 element (i, k) of a tile. -/
def int8At (x : Tile) (g : TileCfg) (i k : Nat) : Int := (readByte x.data (i * g.pitch * 16 + k)).toInt

/-- The sum over k of a(i, k) × b(j, k). -/
def dotRows (x y : Tile) (gx gy : TileCfg) (i j : Nat) : Nat → Int
  | 0 => 0
  | n + 1 => dotRows x y gx gy i j n + int8At x gx i n * int8At y gy j n

/-- Saturation to INT8. -/
def satInt8 (v : Int) : Byte := BitVec.ofInt 8 (max (-128) (min 127 v))

end Sys2Proof.Claims

/-- R170 to R172, R186, R193, R197: the instructions of an idle matrix engine that only move its registers: tcfg,
tcfg.rd, t.rel, t.clr, t.scale, t.rds. -/
def Sys2Proof.Claims.MatrixRegisterInstructions : Prop :=
  ∀ (s : State) (t : Tid) (d : Fin 8) (n : Fin 2) (rd ra rb : Reg) (mask : BitVec 8) (sets : BitVec 2) (sel : BitVec 3) (w v : Word),
    let m := (s.core t.core.val).mtx
    let ends := fun (i : Instr) (m' : MtxSt) => exec i s = .next ((s.retire t id).modMtx t.core.val (fun _ => m'))
    ready s t = true → m.ops = [] →
    (s.reg t ra.val = ⟨.tcfg, w⟩ → tcfgOk w = true → (s.thr t).compat = false ∨ tcfgNoCompat w = false →
      ends (.tcfg t d ra) (m.setTile d.val { m.tile d.val with conf := w, cfg := true })) ∧
    exec (.tcfgRd t rd d) s = .next (s.wrote t rd ⟨.tcfg, if (m.tile d.val).cfg then (m.tile d.val).conf else 0⟩) ∧
    (∃ m', ends (.tRel t mask) m' ∧ (∀ k, k < 8 → m'.tile k = { m.tile k with full := (m.tile k).full && !mask.getLsbD k }) ∧
      m' = { m with tiles := m'.tiles, reuseA := releasedLatch mask m.reuseA, reuseB := releasedLatch mask m.reuseB }) ∧
    (∃ m', ends (.tClr t sets) m' ∧ (∀ k, k < 2 → m'.acc k = if sets.getLsbD k then {} else m.acc k) ∧ m' = { m with accs := m'.accs }) ∧
    ((s.thr t).compat = false → s.reg t ra.val = wInt w → s.reg t rb.val = wInt v → w.toNat < 2 ^ 33 →
      ends (.tScale t n ra rb) (m.setAcc n.val { m.acc n.val with sa := w, sb := v })) ∧
    (sel.toNat < 5 → exec (.tRds t rd sel) s = .next (s.wrote t rd (wInt ((if sel = 4 then m.special
      else tget halfDef (if sel.getLsbD 1 then m.amaxCum else m.amaxLast) (sel.toNat % 2)).zeroExtend 64))))

/-- R178, R180, R183, R188, R202, R203: when the matrix engine takes an instruction: the tile is configured (and full, where it is
read), the rows of a scratchpad operand pass R93 for the M-port or a global span passes R88, and for t.mma the conditions of
R183 hold. -/
def Sys2Proof.Claims.MatrixInstructionsAccepted : Prop :=
  ∀ (s : State) (t : Tid) (d a b : Fin 8) (n : Fin 2) (ra rb : Reg) (l lb : MLoc) (f fa fb : Format) (g ga gb : TileCfg)
    (ru rv ds fs : Bool) (chunk cvm fuse : BitVec 2) (item : BitVec 4),
    let m := (s.core t.core.val).mtx
    let v := s.reg t ra.val
    ready s t = true → m.ops = [] →
    (shaped s t d f g →
      (bulkAt s t v g.extent false l → Taken s t (queuedOp s t (.tLd t d ra) v {} l .none)) ∧
      ((m.tile d.val).full = true → bulkAt s t v g.extent true l → Taken s t (queuedOp s t (.tSt t d ra) v {} l .none))) ∧
    (item.toNat < 10 → (s.thr t).compat = false →
      (bulkAt s t v (saveLen m item.toNat) true l → Taken s t (queuedOp s t (.tSave t item ra) v {} l .none)) ∧
      (bulkAt s t v 64 false l → Taken s t (queuedOp s t (.tRest t item ra) v {} l .none))) ∧
    (shaped s t a fa ga → shaped s t b fb gb → ga.rows = 32 → gb.rows = 32 → fa.elem ≠ .int32 → fb.elem ≠ .int32 →
      fa.elem.isInt = fb.elem.isInt → ga.cols = gb.cols → ga.cols % groupSize fa.elem fb.elem = 0 →
      (m.tile a.val).full = true → (m.tile b.val).full = true →
      (m.acc n.val).mode = none ∨ (m.acc n.val).mode = some (mmaMode fa fb chunk) →
      (fa.mx = false ∧ fb.mx = false) ∨ (m.acc n.val).n % 32 = 0 →
      Taken s t (queuedOp s t (.tMma t n a b ru rv chunk) {} {} .none .none)) ∧
    (shaped s t d f g → g.rows = 32 → g.cols = 32 → f.mx = true ∨ (f.elem ≠ .int32 ∧ f.elem ≠ .int4) →
      fuse ≠ 3 → (fuse = 0 → fs = false ∧ lb = .none) → (ds = false → ra = 0 ∧ l = .none) → (fs = false → rb = 0 ∧ lb = .none) →
      (fuse ≠ 0 → shaped s t a fa ga ∧ ga.rows = 32 ∧ ga.cols = 32 ∧ fa.elem ≠ .int32 ∧ (fs = true ∨ (m.tile a.val).full = true)) →
      (ds = true → v.tag = .int ∧ bulkAt s t v g.extent true l) → (fs = true → (s.reg t rb.val).tag = .int ∧ bulkAt s t (s.reg t rb.val) ga.extent false lb) →
      Taken s t (queuedOp s t (.tDrain t n d ds fuse fs a cvm ra rb) (if ds then v else {}) (if fs then s.reg t rb.val else {}) l lb))

/-- R175 to R181, R200, R202, R293: a load stages its tile at its start, from scratchpad rows, or by requests of up to 512 bytes
each, and commits it; a store writes its bytes at its start, or sends them, and completes with its status; t.rest reads and
checks its record and replaces the item. The tile's bytes are memory's. No watchpoint matches where the state is named whole. -/
def Obligations.MatrixLoadsAndStores : Prop :=
  ∀ (s : State) (t : Tid) (o : MtxOp) (d : Fin 8) (ra : Reg) (item : BitVec 4) (p n : Nat) (kseg : Bool),
    let m := (s.core t.core.val).mtx
    let isSt := o.i = .tSt t d ra
    let isSave := o.i = .tSave t item ra ∧ item.toNat < 8
    EngineHas s t o → o.checked = true → o.fail = none → n ≤ 16448 →
    (o.la = .spad p n → spadSound (s.core t.core.val) = true → o.started = false →
      (o.i = .tLd t d ra →
        exec (.matrixStart t) s = .next (s.modMtx t.core.val (fun m =>
          { m with ops := [{ o with started := true, map := s.smap, buf := readBytes (s.core t.core.val).spad.mem.bytes p n }] }))) ∧
      ((isSt ∧ n = (m.tile d.val).extent) ∨ (isSave ∧ n = saveLen m item.toNat) →
        ∃ u, exec (.matrixStart t) s = .next u ∧ (u.core t.core.val).mtx.ops = [{ o with started := true, written := true, map := s.smap }] ∧
          (u.core t.core.val).mtx.tiles = m.tiles ∧
          readBytes (u.core t.core.val).spad.mem.bytes p n = (if isSt then readBytes (m.tile d.val).data 0 n else tileRecord (m.tile item.toNat)) ∧
          (∀ k, k < p ∨ p + n ≤ k → readByte (u.core t.core.val).spad.mem.bytes k = readByte (s.core t.core.val).spad.mem.bytes k)) ∧
      (o.i = .tRest t item ra → item.toNat < 8 → n = 64 → quietBoundary s t →
        let h := readBytes (s.core t.core.val).spad.mem.bytes p 64
        let q := leNat (slice h 0 8)
        slice h 8 8 = [1, 1, 0, 0, 0, 0, 0, 0] → (slice h 16 48).all (fun y => decide (y = 0)) = true → tcfgOk (BitVec.ofNat 64 q) = true →
        ∃ u, exec (.matrixStart t) s = .next u ∧ (u.core t.core.val).mtx.ops = [] ∧ (u.thr t).held = none ∧
          (u.core t.core.val).mtx.tile item.toNat = { conf := BitVec.ofNat 64 q, cfg := true, full := false, data := [] } ∧
          (u.core t.core.val).mtx.reuseA = none ∧ (u.core t.core.val).mtx.reuseB = none ∧
          (∀ k, k ≠ item.toNat → (u.core t.core.val).mtx.tile k = m.tile k))) ∧
    (o.la = .glob p n kseg → uncached s t p n → o.started = false → o.i = .tLd t d ra ∨ o.i = .tRest t item ra ∨ isSt ∨ isSave →
      ∃ u q, exec (.matrixStart t) s = .next u ∧ (u.core t.core.val).mtx.ops = [q] ∧ q.started = true ∧ q.map = s.smap ∧
        q.buf = storeBytes m o.i ∧ q.reqs.map (fun r => (r.ga, r.len)) = (mtxSpans p n).map (fun r => (r.ga, r.len)) ∧
        (u.core t.core.val).mtx.tiles = m.tiles ∧ u.thr t = s.thr t ∧ u.slices = s.slices) ∧
    (o.started = true → (s.thr t).held = some .engine →
      ∀ (r : Req) (k : Fin 80) (off : Nat) (ext : ExtAns), o.reqs = [r] → r.slot < 128 → r.answer = none → slotLost s t.core.val r.slot = false → hbmAt s o.map r.ga r.len k off →
      (o.i = .tLd t d ra → ∃ u, exec (.globalResponse t ext) s = .next u ∧ u.slices = s.slices ∧
        (u.core t.core.val).mtx.ops = [{ o with reqs := [], buf := o.buf ++ readBytes (s.slice k.val).mem.bytes off r.len }]) ∧
      (∀ b, isSt ∨ isSave → o.la = .glob p n kseg → p ≤ r.ga → b = slice o.buf (r.ga - p) r.len → b.length = r.len →
        recorded { s with smap := o.map } r.ga t.core.val r.slot ((s.port t.core.val).slot r.slot).gen (.write r.ga b (allOn b)) = none →
        ∃ u, exec (.globalResponse t ext) s = .next u ∧ SliceWrote s u k off b ∧ (u.core t.core.val).mtx.ops = [{ o with reqs := [] }]) ∧
      (o.i = .tRest t item ra → item.toNat < 8 → o.whole = true → quietBoundary s t →
        ∀ x, restChecked item.toNat (o.buf ++ readBytes (s.slice k.val).mem.bytes off r.len) = .ok (.inl x) →
        ∃ u, exec (.globalResponse t ext) s = .next u ∧ (u.core t.core.val).mtx.ops = [] ∧ (u.thr t).held = none ∧
          (u.thr t).pc = (advance (s.thr t)).pc ∧ (u.core t.core.val).mtx.tile item.toNat = x ∧
          (u.core t.core.val).mtx.reuseA = none ∧ (u.core t.core.val).mtx.reuseB = none)) ∧
    (o.started = true → o.reqs = [] → quietBoundary s t →
      (∀ g k b, o.la = .glob g k b → wpMatch (s.core t.core.val).dbg t.thr.val g o.buf.length (writesOut o.i) = false) →
      (o.i = .tLd t d ra → exec (.tLdCommit t) s = .next (engineDone s t (fun x =>
        withMtx x (x.mtx.setTile d.val { m.tile d.val with data := writeBytes [] 0 o.buf, full := true })))) ∧
      (isSt ∨ isSave → o.priv = false → exec (.tStComplete t) s = .next (engineDone s t id)))

/-- R182, R184, R185, R187, R488: a product starts when the ramp limiter lets it, on its operands of that moment, and commits the
working copy it computed; both reuse latches hold its tiles then. Of INT8 tiles it adds, modulo 2^32, the sum of
a(i, k) × b(j, k) to every element of its set. -/
def Sys2Proof.Claims.MatrixProduct : Prop :=
  ∀ (s : State) (t : Tid) (o : MtxOp) (n : Fin 2) (a b : Fin 8) (ru rv : Bool) (chunk : BitVec 2) (f : Format) (ga gb : TileCfg),
    let m := (s.core t.core.val).mtx
    EngineHas s t o → o.checked = true → o.i = .tMma t n a b ru rv chunk →
    (o.started = false → s.pwr.ramp.getLsbD 31 = false ∨ m.warm = true →
      exec (.matrixStart t) s = .next (s.modMtx t.core.val (fun m => { m with busyWin := true, ops := [{ o with
        started := true, map := s.smap, work := mmaWork m n.val a b ru rv chunk }] }))) ∧
    (o.started = true → quietBoundary s t →
      exec (.tMmaCommit t) s = .next (engineDone s t (fun x => withMtx x (mmaCommit x.mtx n.val a b o.work))) ∧
      (shaped s t a f ga → shaped s t b f gb → f.elem = .int8 → f.mx = false → o.work = mmaWork m n.val a b ru rv chunk →
        ga.rows = 32 → gb.rows = 32 → ga.cols = gb.cols → ga.cols % 4 = 0 →
        (m.acc n.val).mode = none ∨ (m.acc n.val).mode = some .int →
        ∃ u, exec (.tMmaCommit t) s = .next u ∧ (u.core t.core.val).mtx.ops = [] ∧ (u.thr t).held = none ∧
          (u.thr t).pc = (advance (s.thr t)).pc ∧ (u.core t.core.val).mtx.tiles = m.tiles ∧
          ((u.core t.core.val).mtx.acc n.val).mode = some .int ∧ ((u.core t.core.val).mtx.acc n.val).n = (m.acc n.val).n + ga.cols ∧
          (u.core t.core.val).mtx.reuseA = some ⟨a, (m.tile a.val).data⟩ ∧ (u.core t.core.val).mtx.reuseB = some ⟨b, (m.tile b.val).data⟩ ∧
          (∀ i j, i < 32 → j < 32 → (elAt ((u.core t.core.val).mtx.acc n.val) i j).total
            = (elAt (m.acc n.val) i j).total + BitVec.ofInt 32 (dotRows (operandTile m ru m.reuseA a) (operandTile m rv m.reuseB b) ga gb i j ga.cols))))

/-- R186, R188, R190, R192: a drain of any form completes and clears its set; its tile is full then, or, written to the scratchpad,
every tile as before. Of an integer set to an INT8 tile without fusion or scale it saturates every element, and the
special-element capture stays. -/
def Sys2Proof.Claims.MatrixDrain : Prop :=
  ∀ (s : State) (t : Tid) (o : MtxOp) (n : Fin 2) (d f : Fin 8) (ds fs : Bool) (fuse cvm : BitVec 2) (ra rb : Reg) (fd : Format) (g : TileCfg),
    let m := (s.core t.core.val).mtx
    EngineHas s t o → o.checked = true → o.i = .tDrain t n d ds fuse fs f cvm ra rb → shaped s t d fd g →
    (o.started = false →
      exec (.matrixStart t) s = .next (s.modMtx t.core.val (fun m => { m with ops := [{ o with started := true, map := s.smap }] }))) ∧
    (o.started = true → quietBoundary s t → spadSound (s.core t.core.val) = true →
      ∃ u, exec (.tDrainComplete t) s = .next u ∧ (u.core t.core.val).mtx.ops = [] ∧ (u.thr t).held = none ∧
        (u.thr t).pc = (advance (s.thr t)).pc ∧ (u.core t.core.val).mtx.acc n.val = {} ∧
        (∀ k, k ≠ d.val → (u.core t.core.val).mtx.tile k = m.tile k) ∧
        (if ds then (u.core t.core.val).mtx.tiles = m.tiles
          else ((u.core t.core.val).mtx.tile d.val).full = true ∧ ((u.core t.core.val).mtx.tile d.val).conf = (m.tile d.val).conf) ∧
        (ds = false → fuse = 0 → fd.elem = .int8 → fd.mx = false → g.rows = 32 → g.cols = 32 → 2 ≤ g.pitch → g.pitch ≤ 32 →
          (m.acc n.val).mode = some .int → (m.acc n.val).sa.getLsbD 32 = false →
          (m.arms = [] → (u.core t.core.val).mtx.special = m.special) ∧
          ∀ i j, i < 32 → j < 16 * g.pitch → readByte ((u.core t.core.val).mtx.tile d.val).data (i * g.pitch * 16 + j)
            = if j < 32 then satInt8 (elAt (m.acc n.val) i j).total.toInt else 0))

namespace Sys2Proof.Claims

/-- Lane `i` of a vector register (R206). -/
def lane (v : Vreg) (i : Nat) : Half := v.extractLsb' (32 * i) 32

/-- The vector engine of `t`'s core takes `o` and the thread goes on at once (R207). -/
def VTaken (s : State) (t : Tid) (o : VecOp) : Prop :=
  exec o.i s = .next ((s.retire t id).modVec t.core.val (fun x => { x with ops := x.ops ++ [o] }))

/-- The vector engine takes `o` and holds the thread until it completes. -/
def VHeld (s : State) (t : Tid) (o : VecOp) : Prop :=
  exec o.i s = .next (((s.issued t).modVec t.core.val (fun x => { x with ops := x.ops ++ [o] })).modThr t (fun x => { x with held := some .engine }))

/-- An instruction without a memory operand, as it is queued. -/
def vop (t : Tid) (i : Instr) : VecOp := { t := t.thr, i := i }

/-- One instruction less is before each waiting write of VEC_ARM; those with none left take effect (R216). -/
def oneLess (x : VecSt) : VecSt :=
  { x with arms := (x.arms.map (· - 1)).filter (· ≠ 0), amaxCum := if x.arms.contains 1 then 0 else x.amaxCum }

/-- The engine performs the oldest accepted instruction, of a thread that it does not hold, and is in state `x` then. -/
def VDone (s : State) (c : Fin 512) (r : List VecOp) (x : VecSt) : Prop :=
  exec (.vInsnComplete c) s = .next (s.modVec c.val (fun _ => oneLess { x with ops := r }))

/-- Rows of the scratchpad from `p` on are free of earlier accesses of the matrix engine and of other
threads (R292). -/
def rowsFree (s : State) (t : Tid) (p rows : Nat) : Bool :=
  !(s.core t.core.val).mtx.ops.any (fun o => hits (o.spans t.core.val) (.spad p (512 * rows)))
  && (countFrom 0 8).all (fun k => decide (k = t.thr.val)
    || !hits (heldSpans t.core.val ((s.core t.core.val).t k).held) (.spad p (512 * rows)))

/-- Sum over lanes 0 to n−1 of the lanes of a mask, modulo 2^32. -/
def laneSum (m : BitVec 64) (v : Vreg) : Nat → Half
  | 0 => 0
  | n + 1 => laneSum m v n + (if m.getLsbD n then lane v n else 0)

/-- A lane-wise result under a mask (R208). -/
def Lanewise (m : BitVec 64) (old new : Vreg) (f : Nat → Half) : Prop :=
  ∀ i, i < 64 → lane new i = if m.getLsbD i then f i else lane old i

/-- The signed bytes of a lane, multiplied in pairs and added. -/
def dot4 (a b : Half) : Int :=
  (a.extractLsb' 0 8).toInt * (b.extractLsb' 0 8).toInt + (a.extractLsb' 8 8).toInt * (b.extractLsb' 8 8).toInt
    + (a.extractLsb' 16 8).toInt * (b.extractLsb' 16 8).toInt + (a.extractLsb' 24 8).toInt * (b.extractLsb' 24 8).toInt

/-- Arithmetic of an INT32 lane (R209). -/
def int32Op (op : Nat) (d a b : Half) : Half :=
  match op with
  | 0 => a + b
  | 1 => a - b
  | 2 => a * b
  | 3 => d + a * b
  | 4 => if a.slt b then a else b
  | 5 => if a.slt b then b else a
  | 6 => if a.slt 0 then -a else a
  | _ => -a

end Sys2Proof.Claims

/-- R207, R209, R210, R213, R215, R218, R220, R221: what the vector engine takes: the operand and field checks of each
instruction pass; a consumer of the vector counter takes its blocks at issue; v.ld, v.rest and v.get hold the thread. -/
def Sys2Proof.Claims.VectorInstructionsAccepted : Prop :=
  ∀ (s : State) (t : Tid) (vd va vb rd ra item : Reg) (m md ma mb : Fin 8) (n : Fin 2) (fn k ln : BitVec 6) (sf : BitVec 2) (int : Bool)
    (fmt src dst : BitVec 4) (chunk cvm mask : BitVec 2) (part : BitVec 3) (e : Elem) (off : Word) (p : Nat) (w : TWord),
    let x := (s.core t.core.val).vec
    let drawn := fun (i : Instr) (blocks : Nat) =>
      exec i s = .next ((s.retire t id).modVec t.core.val (fun y =>
        let z := setCtr y 0 (ctrOf y 0 + blocks)
        { z with ops := z.ops ++ [{ vop t i with rng := rngOf x 0 }] }))
    ready s t = true →
    (fn.toNat / 8 ≤ 4 → fn.toNat % 8 < 6 ∨ vb = 0 → VTaken s t (vop t (.vArithmetic t vd va vb m fn))) ∧
    (fn.toNat / 8 ≤ 1 → fn.toNat % 8 < 4 ∨ fn.toNat = 12 → VTaken s t (vop t (.vCompare t md va vb m fn))) ∧
    VTaken s t (vop t (.vSpecialFunction t vd va m sf)) ∧
    VTaken s t (vop t (.vRsum t vd va m int)) ∧ VTaken s t (vop t (.vRmax t vd va m int)) ∧ VTaken s t (vop t (.vRmin t vd va m int)) ∧
    ((s.thr t).compat = false → cvtElem fmt = some e → e ≠ .int32 →
      let y := ((vecAfter t.core.val x.ops (s.issued t)).core t.core.val).vec
      (y.acc n.val).mode = none ∨ (y.acc n.val).mode = some (dotMode e chunk) → VTaken s t (vop t (.vDot t n va vb fmt chunk))) ∧
    VTaken s t (vop t (.vDget t vd n)) ∧ VTaken s t (vop t (.vDclr t mask)) ∧
    (cvtOk src dst part = true →
      (cvmRnd cvm = false → VTaken s t (vop t (.vCvt t vd va src dst cvm part))) ∧
      (cvmRnd cvm = true → drawn (.vCvt t vd va src dst cvm part) 8)) ∧
    ((s.thr t).compat = false → VTaken s t (vop t (.vSexp t vd va vb m))) ∧
    ((s.thr t).compat = false → 1 ≤ k.toNat → k.toNat ≤ 32 → vd.val % 2 = 0 → va.val % 2 = 0 → VTaken s t (vop t (.vTk t vd va k))) ∧
    drawn (.vRand t vd) 16 ∧
    (s.reg t ra.val = w → w.tag = .int ∨ w.tag = .f64 → VTaken s t { vop t (.vBcast t vd ra) with a := w }) ∧
    VHeld s t (vop t (.vGet t rd va ln)) ∧ VTaken s t (vop t (.vMaskLogic t md ma mb sf)) ∧
    (s.reg t ra.val = wInt off →
      let fits := fun (rows : Nat) => spadCheck (s.core t.core.val) ((s.core t.core.val).win t.thr.val) off rows 512 2 = .ok p
      let row := fun (i : Instr) => ({ t := t.thr, i := i, a := wInt off, row := p } : VecOp)
      let rows := if 17 ≤ item.val then 2 else 1
      (fits 1 → vd.val % 2 = 0 → (rowsFree s t p 1 = true → VHeld s t (row (.vLd t vd ra))) ∧
        (rowsFree s t p 1 = true → VTaken s t (row (.vSt t vd ra)))) ∧
      (fits rows → item.val < 19 → (s.thr t).compat = false →
        (rowsFree s t p rows = true → VTaken s t (row (.vSave t item ra))) ∧
        (rowsFree s t p rows = true → VHeld s t (row (.vRest t item ra)))))

/-- R208 to R212, R217, R220, R223: what the vector engine computes lane by lane, under the mask; reductions of INT32
lanes; every other vector register, mask and set stays. -/
def Sys2Proof.Claims.VectorLaneResults : Prop :=
  ∀ (s : State) (c : Fin 512) (t : Tid) (vd va vb ra : Reg) (m md ma mb : Fin 8) (fn : BitVec 6) (sf : BitVec 2) (o : VecOp) (r : List VecOp),
    let x := (s.core c.val).vec
    let (d, a, b, mk) := (x.v_ vd.val, x.v_ va.val, x.v_ vb.val, x.mask m.val)
    x.ops = o :: r → quietBoundary s ⟨c, o.t⟩ →
    (o.i = .vArithmetic t vd va vb m fn → fn.toNat / 8 = 1 → ∃ y, VDone s c r (x.setV vd.val y) ∧
      Lanewise mk d y (fun i => int32Op (fn.toNat % 8) (lane d i) (lane a i) (lane b i))) ∧
    (o.i = .vArithmetic t vd va vb m fn → fn.toNat = 0 → ∃ y, VDone s c r (x.setV vd.val y) ∧
      Lanewise mk d y (fun i => f32Add (lane a i) (lane b i))) ∧
    (o.i = .vCompare t md va vb m fn → fn.toNat / 8 = 1 → fn.toNat % 8 < 5 → ∃ y, VDone s c r (x.setMask md.val y) ∧
      (∀ i, i < 64 → y.getLsbD i = if mk.getLsbD i then
        (match fn.toNat % 8 with
         | 0 => decide (lane a i = lane b i)
         | 1 => decide (lane a i ≠ lane b i)
         | 2 => (lane a i).slt (lane b i)
         | 3 => (lane a i).sle (lane b i)
         | _ => (lane a i).ult (lane b i)) else (x.mask md.val).getLsbD i)) ∧
    (o.i = .vSpecialFunction t vd va m sf → ∃ y, VDone s c r (x.setV vd.val y) ∧
      Lanewise mk d y (fun i => specialFn sf.toNat (lane a i))) ∧
    (o.i = .vSexp t vd va vb m → ∃ y, VDone s c r (x.setV vd.val y) ∧ Lanewise mk d y (fun i =>
      if lane a i = 0xFF800000 then 0 else specialFn 0 (f32Add (lane a i) (lane b i ^^^ 0x80000000)))) ∧
    (o.i = .vRsum t vd va m true → ∃ y, VDone s c r (x.setV vd.val y) ∧ lane y 0 = laneSum mk a 64 ∧ (∀ i, 0 < i → i < 64 → lane y i = 0)) ∧
    (o.i = .vRmax t vd va m true → mk ≠ 0 → ∃ y, VDone s c r (x.setV vd.val y) ∧
      (∀ i, i < 64 → mk.getLsbD i = true → (lane a i).sle (lane y 0) = true) ∧ (∃ i, i < 64 ∧ mk.getLsbD i = true ∧ lane a i = lane y 0) ∧
      (∀ i, 1 < i → i < 64 → lane y i = 0)) ∧
    (o.i = .vRmin t vd va m true → mk ≠ 0 → ∃ y, VDone s c r (x.setV vd.val y) ∧
      (∀ i, i < 64 → mk.getLsbD i = true → (lane y 0).sle (lane a i) = true) ∧ (∃ i, i < 64 ∧ mk.getLsbD i = true ∧ lane a i = lane y 0) ∧
      (∀ i, 1 < i → i < 64 → lane y i = 0)) ∧
    (o.i = .vBcast t vd ra → ∃ y, VDone s c r (x.setV vd.val y) ∧ ∀ i, i < 64 → lane y i = o.a.data.extractLsb' 0 32) ∧
    (o.i = .vRand t vd → ∃ y, VDone s c r (x.setV vd.val y) ∧ ∀ i, i < 64 → lane y i = lget 0 (philoxWords o.rng.1 o.rng.2.1 o.rng.2.2 16) i) ∧
    (o.i = .vMaskLogic t md ma mb sf → VDone s c r (x.setMask md.val
      (match sf.toNat with
       | 0 => x.mask ma.val &&& x.mask mb.val
       | 1 => x.mask ma.val ||| x.mask mb.val
       | 2 => x.mask ma.val ^^^ x.mask mb.val
       | _ => x.mask ma.val &&& ~~~ x.mask mb.val)))

/-- R208 to R218: every computing vector instruction at the front of the queue completes, whatever its form, with the registers, masks,
sets and maxima that its operation gives: arithmetic in each lane kind, comparisons of FP32 lanes, and the whole function of the others. -/
def Sys2Proof.Claims.VectorComputations : Prop :=
  ∀ (s : State) (c : Fin 512) (t : Tid) (vd va vb ra : Reg) (m md ma mb : Fin 8) (n : Fin 2) (fn k : BitVec 6) (sf sets : BitVec 2) (int : Bool)
    (fmt src dst : BitVec 4) (chunk cvm : BitVec 2) (part : BitVec 3) (o : VecOp) (r : List VecOp),
    let x := (s.core c.val).vec
    let (d, a, b, mk) := (x.v_ vd.val, x.v_ va.val, x.v_ vb.val, x.mask m.val)
    x.ops = o :: r → quietBoundary s ⟨c, o.t⟩ →
    (o.i ∈ [Instr.vArithmetic t vd va vb m fn, .vCompare t md va vb m fn, .vSpecialFunction t vd va m sf, .vRsum t vd va m int, .vRmax t vd va m int,
        .vRmin t vd va m int, .vDot t n va vb fmt chunk, .vDget t vd n, .vDclr t sets, .vCvt t vd va src dst cvm part, .vSexp t vd va vb m, .vTk t vd va k,
        .vRand t vd, .vBcast t vd ra, .vMaskLogic t md ma mb sf] → VDone s c r (vecPure o x)) ∧
    (∀ e, o.i = .vArithmetic t vd va vb m fn → kindElem (fn.toNat / 8) = some e →
      ∃ y, VDone s c r (x.setV vd.val y) ∧ Lanewise mk d y (fun i => laneOp e (fn.toNat % 8) (lane d i) (lane a i) (lane b i))) ∧
    (o.i = .vCompare t md va vb m fn → fn.toNat < 4 → ∃ y, VDone s c r (x.setMask md.val y) ∧
      (∀ i, i < 64 → y.getLsbD i = if mk.getLsbD i then
        (match fn.toNat with
         | 0 => (f32 (lane a i)).eqC (f32 (lane b i))
         | 1 => !(f32 (lane a i)).eqC (f32 (lane b i))
         | 2 => (f32 (lane a i)).ltC (f32 (lane b i))
         | _ => (f32 (lane a i)).leC (f32 (lane b i))) else (x.mask md.val).getLsbD i))

/-- R213 to R216, R218: a v.dot of INT8 adds four products to every lane's total; v.dget hands out the totals and clears the
set, v.dclr clears; v.cvt to 32-bit elements; v.tk gives the best pairs in order. -/
def Sys2Proof.Claims.VectorDotConvertSelect : Prop :=
  ∀ (s : State) (c : Fin 512) (t : Tid) (vd va vb : Reg) (n : Fin 2) (fmt src dst : BitVec 4) (chunk cvm sets : BitVec 2) (part : BitVec 3)
    (k : BitVec 6) (e f : Elem) (o : VecOp) (r : List VecOp),
    let x := (s.core c.val).vec
    let (a, b) := (x.v_ va.val, x.v_ vb.val)
    x.ops = o :: r → quietBoundary s ⟨c, o.t⟩ →
    (o.i = .vDot t n va vb fmt chunk → fmt = 9 → (x.acc n.val).mode = none ∨ (x.acc n.val).mode = some .int →
      ∃ y, VDone s c r (x.setAcc n.val y) ∧ y.mode = some .int ∧ y.n = (x.acc n.val).n + 4 ∧
        (∀ i, i < 64 → (tget elDef y.els i).total = (tget elDef (x.acc n.val).els i).total + BitVec.ofInt 32 (dot4 (lane a i) (lane b i)))) ∧
    (o.i = .vDget t vd n → (x.acc n.val).mode = some .int ∨ x.acc n.val = {} →
      ∃ y, VDone s c r ((x.setV vd.val y).setAcc n.val {}) ∧ (∀ i, i < 64 → lane y i = (tget elDef (x.acc n.val).els i).total)) ∧
    (o.i = .vDclr t sets → ∃ y, VDone s c r y ∧ (∀ h, h < 2 → y.acc h = if sets.getLsbD h then {} else x.acc h) ∧ y = { x with accs := y.accs }) ∧
    (o.i = .vCvt t vd va src dst cvm part → cvtElem src = some e → cvtElem dst = some f → e.width < 32 → f.width = 32 → cvmRnd cvm = false →
      cvtOk src dst part = true →
      let src := fun (i : Nat) => e.value (a.toNat / 2 ^ (e.width * (64 * part.toNat + i)) % 2 ^ e.width)
      let mx := amaxBits ((List.range 64).map src)
      ∃ y, VDone s c r { x.setV vd.val y with amaxLast := mx, amaxCum := amaxJoin x.amaxCum mx } ∧
        (∀ i, i < 64 → (lane y i).toNat = f.conv cvm 0 (src i))) ∧
    (o.i = .vTk t vd va k → k.toNat ≤ 32 → vd.val % 2 = 0 → va.val % 2 = 0 →
      ∃ y z, VDone s c r ((x.setV vd.val y).setV (vd.val + 1) z) ∧
        let pin := fun (i : Nat) => (f32Score (lane a i), lane (x.v_ (va.val + 1)) i)
        let pout := fun (j : Nat) => (lane y j, lane z j)
        (∀ j, j < k.toNat → ∃ i, i < 64 ∧ pout j = pin i) ∧
        (∀ j, j + 1 < k.toNat → pairBefore (pout j) (pout (j + 1)) = true) ∧
        (∀ i j, i < 64 → j < k.toNat → pairBefore (pout j) (pin i) = false → ∃ h, h < k.toNat ∧ pout h = pin i) ∧
        (∀ j, k.toNat ≤ j → j < 64 → pout j = (toF32 .nan, 0xFFFFFFFF)))

/-- R207, R221 to R223: rows between the scratchpad and register pairs: v.ld and v.rest bring a row's 512 bytes into a pair,
v.st and v.save write a pair; v.get gives a lane, zero-extended; the held thread goes on. -/
def Sys2Proof.Claims.VectorRowsAndGet : Prop :=
  ∀ (s : State) (c : Fin 512) (vd item ra rd va : Reg) (ln : BitVec 6) (o : VecOp) (r : List VecOp) (t : Tid),
    let x := (s.core c.val).vec
    let h : Tid := ⟨c, o.t⟩
    let mem := (s.core c.val).spad.mem.bytes
    let pairOf := fun (v : Nat) => vregBytes (x.v_ v) ++ vregBytes (x.v_ (v + 1))
    let goesOn := fun (f : VecSt → VecSt) => Host.Outcome.next ((s.modVec c.val (fun y => oneLess { f y with ops := r })).modThr h (fun y =>
      advance { y with held := none, st := .run }))
    x.ops = o :: r → quietBoundary s h → spadSound (s.core c.val) = true →
    (o.i = .vLd t vd ra → exec (.vInsnComplete c) s = goesOn (fun y =>
      (y.setV vd.val (BitVec.ofNat 2048 (leNat (readBytes mem o.row 256)))).setV (vd.val + 1) (BitVec.ofNat 2048 (leNat (readBytes mem (o.row + 256) 256))))) ∧
    (o.i = .vRest t item ra → item.val < 16 → exec (.vInsnComplete c) s = goesOn (fun y =>
      (y.setV (2 * item.val) (BitVec.ofNat 2048 (leNat (readBytes mem o.row 256)))).setV (2 * item.val + 1)
        (BitVec.ofNat 2048 (leNat (readBytes mem (o.row + 256) 256))))) ∧
    ((o.i = .vSt t vd ra ∨ (o.i = .vSave t item ra ∧ item.val < 16)) →
      ∃ u, exec (.vInsnComplete c) s = .next u ∧ (u.core c.val).vec = oneLess { x with ops := r } ∧ u.thr h = s.thr h ∧
        readBytes (u.core c.val).spad.mem.bytes o.row 512 = pairOf (if o.i = .vSt t vd ra then vd.val else 2 * item.val) ∧
        (∀ k, k < o.row ∨ o.row + 512 ≤ k → readByte (u.core c.val).spad.mem.bytes k = readByte mem k)) ∧
    (o.i = .vSave t item ra → item.val < 19 →
      ∃ u, exec (.vInsnComplete c) s = .next u ∧ (u.core c.val).vec = oneLess { x with ops := r } ∧ u.thr h = s.thr h ∧
        readBytes (u.core c.val).spad.mem.bytes o.row (if item.val < 17 then 512 else 1024) = vSaveBytes x item.val) ∧
    (o.i = .vRest t item ra → item.val < 19 →
      ∀ y, vRestore x item.val (readBytes mem o.row (if 17 ≤ item.val then 1024 else 512)) = some y →
        exec (.vInsnComplete c) s = goesOn (fun z => { y with ops := z.ops })) ∧
    (o.i = .vGet t rd va ln → exec (.vInsnComplete c) s = .next ((s.modVec c.val (fun y => oneLess { y with ops := r })).modThr h (fun y =>
      advance { y.setReg rd.val (wInt ((lane (x.v_ va.val) ln.toNat).zeroExtend 64)) with held := none, st := .run })))

namespace Sys2Proof.Claims

/-- The handle of DMA channel `ch` (R241). -/
def dmaHandleWord (ch : Fin 16) : Word := 0x0200000000000000 + BitVec.ofNat 64 ch.val

/-- Channel `ch` of core `c`. -/
def chan (s : State) (c : Fin 512) (ch : Fin 16) : DmaCh := (s.core c.val).ch ch.val

/-- A side of a descriptor: the scratchpad, or the segment that its selector names in the arming thread's table of its level,
which the core holds in its cache (R234); a base that names this device is a local one (R406). -/
def sideOf (s : State) (t : Tid) (sup : Bool) (x : DescSide) : Option DmaSide :=
  if x.spad then some .spad
  else ((s.core t.core.val).segs.find? (fun e => decide (e.table = segTable (s.thr t) sup) && decide (e.sel = x.sel))).map
    (fun e => (DmaSide.seg e.base e.attr).own s)

/-- A channel with descriptor bytes `b` from window offset `ofs` current, with these sides, at element (0, 0, 0), since pacer
reading `now`; it runs unless it waits for its start (R231, R245). -/
def currentCh (y : DmaCh) (b : List Byte) (ofs now : Nat) (a e : DmaSide) : DmaCh :=
  let d := descOf b
  { y with desc := b, cur := ofs, i0 := 0, i1 := 0, i2 := 0, half := false, chain := false, buf := none, src := a, dst := e,
           srcW := d.src.word 0 0 0, dstW := d.dst.word 0 0 0, since := now, run := if startsAtOnce d then .run else .waitStart }

/-- A well-formed descriptor that moves something. -/
def goodDesc (b : List Byte) (ch : Fin 16) : Prop := (descOf b).malformed ch.val = false ∧ (descOf b).empty = false

/-- The pacer that core `c` counts by (R35). -/
def pacerOf (s : State) (c : Fin 512) : Nat := (s.cluster (clusterOf c.val)).pacer

/-- The full line of a channel fires, if its descriptor has one (R237). -/
def fullFired (x : CoreSt) (b : List Byte) : BitVec 16 :=
  if (descOf b).fullEn then x.evt ||| BitVec.ofNat 16 (2 ^ (descOf b).fline) else x.evt

/-- Nothing but channel `ch`, the scratchpad and the pending lines of core `c` differs. -/
def OnlyChannel (s u : State) (c : Fin 512) (ch : Fin 16) : Prop :=
  (∀ k, k ≠ ch.val → (u.core c.val).ch k = (s.core c.val).ch k) ∧ (∀ n, (u.core c.val).t n = (s.core c.val).t n) ∧
  (∀ d, d ≠ c.val → u.core d = s.core d) ∧ (u.core c.val).mtx = (s.core c.val).mtx ∧ (u.core c.val).queues = (s.core c.val).queues ∧
  OutsideCoresSame s u

/-- The place of an element's side in the scratchpad or in global memory that passes its checks (R144, R234). -/
def elemAt (y : DmaCh) (write : Bool) : DmaSide → Except (BitVec 4 × Nat) Nat
  | .spad => .error (7, 0)
  | .seg base attr =>
    dmaGlobal base attr ((if write then (descOf y.desc).dst else (descOf y.desc).src).at_ y.i0 y.i1 y.i2) (descOf y.desc).esize (if write then .w else .r)

/-- No line of the core's cache, or on its way back, holds a byte of the span. -/
def coreUncached (s : State) (c : Fin 512) (g n : Nat) : Prop :=
  ∀ l ∈ linesOf s.smap g n, dcFind (s.core c.val).dc l = none ∧ ∀ w ∈ (s.core c.val).dc.wbs, w.line ≠ l

/-- What an element that is complete leaves of its channel `y` (R229, R237): the position moved in the order of the loops; the
last element makes it IDLE, counts the descriptor and fires its full line. -/
def Advanced (s u : State) (c : Fin 512) (ch : Fin 16) : Prop :=
  let y := chan s c ch
  let z := chan u c ch
  let d := descOf y.desc
  (y.i0 + 1 < d.l0 → y.i2 < d.l2 → (z.i0, z.i1, z.i2) = (y.i0 + 1, y.i1, y.i2) ∧
    z.run = .run ∧ z.done = y.done ∧ z.buf = none ∧ (u.core c.val).evt = (s.core c.val).evt) ∧
  (y.i0 + 1 = d.l0 → y.i1 + 1 < d.l1 → y.i2 < d.l2 → (z.i0, z.i1, z.i2) = (0, y.i1 + 1, y.i2) ∧ z.run = .run ∧ z.done = y.done ∧ z.buf = none) ∧
  (y.i0 + 1 = d.l0 → y.i1 + 1 = d.l1 → y.i2 + 1 = d.l2 → d.link = false → y.ending = none →
    z.run = .idle ∧ z.status = 0 ∧ z.done = (if y.done = 0xFFFF then 0xFFFF else y.done + 1) ∧
    (u.core c.val).evt = fullFired (s.core c.val) y.desc)

end Sys2Proof.Claims

/-- R239, R241 to R243: dma.h makes a handle; dma.arm of a well-formed descriptor makes it current with the thread's
window and level; dma.wait returns DMA_STAT, or blocks while the channel waits or runs; dma.stop ends it with ABORTED. -/
def Sys2Proof.Claims.DmaInstructions : Prop :=
  ∀ (s : State) (t : Tid) (ch : Fin 16) (rd ra rb : Reg) (ofs : Word) (p : Nat) (nb : Bool) (a e : DmaSide),
    let y := chan s t.core ch
    let b := readBytes (s.core t.core.val).spad.mem.bytes p 64
    let stat := wInt (BitVec.ofNat 64 (dmaStat y))
    ready s t = true →
    exec (.dmaH t rd ch) s = .next (s.wrote t rd ⟨.hndl, dmaHandleWord ch⟩) ∧
    (s.reg t ra.val = ⟨.hndl, dmaHandleWord ch⟩ →
      (s.reg t rb.val = wInt ofs → y.run = .idle ∨ y.run = .stopped → ofs.toNat % 64 = 0 →
        spadCheck (s.core t.core.val) ((s.core t.core.val).win t.thr.val) ofs 1 1 0 = .ok p →
        accessesPending (s.core t.core.val) t.core.val t.thr.val = false → spadSound (s.core t.core.val) = true → goodDesc b ch →
        sideOf s t (s.thr t).priv (descOf b).src = some a → sideOf s t (s.thr t).priv (descOf b).dst = some e →
        exec (.dmaArm t ra rb) s = .next ((s.retire t id).modCore t.core.val (fun x => x.modCh ch.val (fun _ =>
          currentCh { win := x.win t.thr.val, thr := t.thr, sup := (s.thr t).priv } b ofs.toNat (pacerOf s t.core) a e)))) ∧
      (nb = true ∨ y.run = .idle ∨ y.run = .stopped → exec (.dmaWait t rd ra nb) s = .next (s.wrote t rd stat)) ∧
      (y.run = .waitStart ∨ y.run = .run → exec (.dmaWait t rd ra false) s = .next ((s.issued t).modThr t (fun x =>
        { x with held := some (.wait (.dmaWait t rd ra false)), st := .wait }))) ∧
      (y.run = .run → y.ending = none → exec (.dmaStop t ra) s = .next ((s.retire t id).modCore t.core.val (fun x =>
        x.modCh ch.val (Sys2Proof.Claims.stopping · 1)))) ∧
      (y.run = .waitStart → y.ending = none → ∃ u, exec (.dmaStop t ra) s = .next u ∧ (chan u t.core ch).run = .stopped ∧
        (chan u t.core ch).status = 1 ∧ (u.core t.core.val).evt = fullFired (s.core t.core.val) y.desc ∧ (u.thr t).pc = (advance (s.thr t)).pc) ∧
      (y.run = .idle ∨ y.run = .stopped → exec (.dmaStop t ra) s = .next (s.retire t id)))

/-- R231, R233, R237, R238: starts of waiting descriptors, the read of a chained descriptor, and the end of a stopping
channel. -/
def Sys2Proof.Claims.DmaStartsAndStops : Prop :=
  ∀ (s : State) (c : Fin 512) (ch : Fin 16) (p : Nat) (a e : DmaSide),
    let y := chan s c ch
    let d := descOf y.desc
    let runs := fun (f : DmaCh → DmaCh) => Host.Outcome.next (s.modCore c.val (fun x => x.modCh ch.val f))
    (dmaMoves s c.val = true → y.run = .waitStart → d.empty = false →
      (d.start = 1 → y.since + d.sarg ≤ pacerOf s c → exec (.dmaStartDelay c ch) s = runs (fun z => { z with run := .run })) ∧
      (d.start = 1 → pacerOf s c < y.since + d.sarg → exec (.dmaStartDelay c ch) s = .next s) ∧
      (d.start = 2 → d.sarg / 256 ≤ ((s.core c.val).ch (d.sarg % 16)).done.toNat →
        exec (.dmaStartAfterChannel c ch) s = runs (fun z => { z with run := .run })) ∧
      (d.start = 2 → ((s.core c.val).ch (d.sarg % 16)).done.toNat < d.sarg / 256 →
        exec (.dmaStartAfterChannel c ch) s = .next s)) ∧
    (dmaMoves s c.val = true → y.run = .run → y.chain = true → y.ending = none → spadSound (s.core c.val) = true →
      dmaSpad (s.core c.val) y.win (64 * d.next) 64 = .ok p →
      let b := readBytes (s.core c.val).spad.mem.bytes p 64
      (goodDesc b ch → sideOf s ⟨c, y.thr⟩ y.sup (descOf b).src = some a → sideOf s ⟨c, y.thr⟩ y.sup (descOf b).dst = some e →
        exec (.dmaChainRead c ch) s = runs (fun z => currentCh z b (64 * d.next) (pacerOf s c) a e)) ∧
      ((descOf b).malformed ch.val = true → ∃ u, exec (.dmaChainRead c ch) s = .next u ∧ (chan u c ch).run = .stopped ∧
        (chan u c ch).status = 2 ∧ (chan u c ch).cur = 64 * d.next ∧ (chan u c ch).done = y.done ∧
        (u.core c.val).evt = fullFired (s.core c.val) y.desc ∧ OnlyChannel s u c ch)) ∧
    (y.run = .run → y.ending.isSome = true → y.reqs = [] → ∃ u, exec (.dmaStopped c ch) s = .next u ∧
      chan u c ch = { y with run := .stopped, buf := none, ending := none, got := [], short := false } ∧
      (u.core c.val).evt = fullFired (s.core c.val) y.desc ∧ OnlyChannel s u c ch)

/-- R229, R230, R232, R235 to R237, R293: an element is read whole, then written: in the scratchpad at once, in global memory by
requests of whole sectors whose responses come in order. After its last write the position moves in the order of the loops; the
last element makes the channel IDLE, counts the descriptor and fires its full line. -/
def Obligations.DmaElements : Prop :=
  ∀ (s : State) (c : Fin 512) (ch : Fin 16) (p : Nat) (b : List Byte) (ext : ExtAns),
    let y := chan s c ch
    let d := descOf y.desc
    let sectors := fun (ga : Nat) => sectorBlocks ga d.esize
    spadSound (s.core c.val) = true → y.run = .run →
    (dmaMoves s c.val = true → y.ending = none → y.chain = false → y.reqs = [] →
      (y.buf = none → y.src = .spad → dmaSpad (s.core c.val) y.win (d.src.at_ y.i0 y.i1 y.i2) d.esize = .ok p →
        exec (.dmaRequest c ch) s = .next (s.modCore c.val (fun x => x.modCh ch.val (fun z =>
          { z with buf := some (readBytes x.spad.mem.bytes p d.esize) })))) ∧
      (y.buf = none → elemAt y false y.src = .ok p → coreUncached s c p d.esize → ∃ u, exec (.dmaRequest c ch) s = .next u ∧
        (chan u c ch).reqs.map (fun r => (r.ga, r.len)) = sectors p ∧ (chan u c ch).buf = none ∧ (chan u c ch).map = s.smap ∧ u.slices = s.slices) ∧
      (y.buf = some b → elemAt y true y.dst = .ok p → coreUncached s c p d.esize → ∃ u, exec (.dmaRequest c ch) s = .next u ∧
        (chan u c ch).reqs.map (fun r => (r.ga, r.len)) = sectors p ∧ (chan u c ch).buf = some b ∧ (chan u c ch).map = s.smap ∧ u.slices = s.slices)) ∧
    (y.reqs = [] → y.dst = .spad → y.buf = some b → b.length = d.esize → y.half = true ∨ d.halfEn = false →
      dmaSpad (s.core c.val) y.win (d.dst.at_ y.i0 y.i1 y.i2) d.esize = .ok p →
      ∃ u, exec (.dmaRequestStatus c ch ext) s = .next u ∧ OnlyChannel s u c ch ∧
        readBytes (u.core c.val).spad.mem.bytes p d.esize = b ∧
        (∀ k, k < p ∨ p + d.esize ≤ k → readByte (u.core c.val).spad.mem.bytes k = readByte (s.core c.val).spad.mem.bytes k) ∧
        Advanced s u c ch) ∧
    (∀ (r : Req) (k : Fin 80) (o : Nat), y.reqs = [r] → r.slot < 128 → r.answer = none → slotLost s c.val r.slot = false → coreUncached s c r.ga r.len → hbmAt s y.map r.ga r.len k o →
      (y.buf = none → y.ending = none → elemAt y false y.src = .ok p →
        ∃ u, exec (.dmaRequestStatus c ch ext) s = .next u ∧ u.slices = s.slices ∧ (chan u c ch).reqs = [] ∧ (chan u c ch).got = [] ∧
          (chan u c ch).buf = some (y.got ++ dmaPart p d.esize r (readBytes (s.slice k.val).mem.bytes o r.len))) ∧
      (y.buf = some b → b.length = d.esize → y.ending = none → y.short = false → y.half = true ∨ d.halfEn = false → elemAt y true y.dst = .ok p →
        r.ga ≤ p + d.esize → p ≤ r.ga + r.len →
        recorded { s with smap := y.map } r.ga c.val r.slot ((s.port c.val).slot r.slot).gen (dmaAcc y r) = none →
        ∃ u, exec (.dmaRequestStatus c ch ext) s = .next u ∧ (chan u c ch).reqs = [] ∧ Advanced s u c ch ∧
          (∀ j, j ≠ k.val → u.slice j = s.slice j) ∧
          ∀ a, readByte (u.slice k.val).mem.bytes a =
            (if o ≤ a ∧ a < o + r.len ∧ p + o ≤ r.ga + a ∧ r.ga + a < p + o + d.esize then lget 0 b (r.ga + a - (p + o))
             else readByte (s.slice k.val).mem.bytes a)))

namespace Sys2Proof.Claims

/-- Offset, length and kind of an access. -/
def accSpan (a : Acc) : Nat × Nat × Bool :=
  match a with
  | .read o n => (o, n, false)
  | .write o d _ => (o, d.length, true)

/-- The bytes of a memory after an access: a write changes its enabled bytes and nothing else (R10, R139). -/
def WroteOnly (old new : Bytes) (a : Acc) : Prop :=
  match a with
  | .read _ _ => new = old
  | .write o d e => ∀ b, readByte new b = if o ≤ b ∧ b < o + d.length ∧ lget false e (b - o) = true then lget 0 d (b - o) else readByte old b

/-- What a keeper records of a refusal (R152, R165). -/
def refusalInfo (bound write : Bool) (src row : Nat) : Half :=
  BitVec.ofNat 32 (2 ^ 31 + (if bound then 2 ^ 30 else 0) + (if write then 2 ^ 29 else 0) + src * 2 ^ 27 + row % 8192)

/-- The event lines after a refusal: the keepers' line fires when it is enabled (R152). -/
def refusalLines (x : CoreSt) : BitVec 16 :=
  if x.keep.even then x.evt ||| BitVec.ofNat 16 (2 ^ x.keep.evline.toNat) else x.evt

/-- The burnish pointer of a group moves on by one row, at pacer reading `now`; a sweep counts it (R156, R157). -/
def visited (x : CoreSt) (g now : Nat) : CoreSt :=
  let p := (tget natDef x.spad.ptr g + 1) % 2048
  let left := x.spad.sweep.filterMap (fun q => if q.1 = g then (if q.2 ≤ 1 then none else some (q.1, q.2 - 1)) else some q)
  { x with spad := { x.spad with ptr := tset natDef x.spad.ptr g p, sweep := left, moved := tset natDef x.spad.moved g now } }

/-- The refresh multiplier that a stack temperature asks for (R321): 0 to 85 °C, 1 to 95 °C, 2 above. -/
def multiplierAt (temp : Nat) : BitVec 2 := if 95 < temp then 2 else if 85 < temp then 1 else 0

/-- Every slice of stack `t` changed by `f`, no other slice changed. -/
def StackSlices (s u : State) (t : Fin 20) (f : SliceSt → SliceSt) : Prop :=
  ∀ k, k < 80 → u.slice k = if k / 4 = t.val then f (s.slice k) else s.slice k

/-- A slice whose clock is back. -/
def clockBack (x : SliceSt) : SliceSt := { x with clkOk := true }

end Sys2Proof.Claims

/-- R147 to R152: a remote access that a keeper admits reads or writes the row's bytes; one that none admits is NOWIN, one
past the keeper's bound is BOUND, one to rows of another port NOWIN; a refusal is counted, recorded, and fires the keepers'
line; a fenced core is NOWIN, one at retention voltage UNREACH; a span that is no access does nothing (log 88), nor does the management plane, which sends none (R24). -/
def Sys2Proof.Claims.RemoteAccesses : Prop :=
  ∀ (s : State) (a : Agent) (c : Fin 512) (acc : Acc) (k : Keeper),
    let x := s.core c.val
    let (o, n, w) := accSpan acc
    (accWf acc = false ∨ a = .mgmt → exec (.remoteAccess a c acc) s = .next s) ∧ (accWf acc = true → a ≠ .mgmt →
    (s.drowsy = true → exec (.remoteAccess a c acc) s = .next (s.answer { status := .unreach })) ∧ (s.drowsy = false →
    (s.coreFenced c.val = true → exec (.remoteAccess a c acc) s = .next (s.answer { status := .nowin })) ∧
    (s.coreFenced c.val = false →
      (findKeeper x.keep.k w (srcClass a c.val) (o / 512) 16 0 = some k → (o + n - 1) / 512 < min (k.base + k.bound) 8192 → spadClean x = true →
        ∃ u, exec (.remoteAccess a c acc) s = .next u ∧
          u.reply = some { status := .ok, data := if w then [] else readBytes x.spad.mem.bytes o n } ∧
          WroteOnly x.spad.mem.bytes (u.core c.val).spad.mem.bytes acc ∧ (u.core c.val).keep = x.keep ∧ (u.core c.val).evt = x.evt ∧
          (∀ d, d ≠ c.val → u.core d = s.core d)) ∧
      (findKeeper x.keep.k w (srcClass a c.val) (o / 512) 16 0 = none →
        ∃ u, exec (.remoteAccess a c acc) s = .next u ∧ u.reply = some { status := .nowin } ∧
          (u.core c.val).keep = { x.keep with nowinCnt := x.keep.nowinCnt + 1, info := refusalInfo false w ((srcClass a c.val).getD 1) (o / 512) } ∧
          (u.core c.val).evt = refusalLines x ∧ (u.core c.val).spad = x.spad) ∧
      (findKeeper x.keep.k w (srcClass a c.val) (o / 512) 16 0 = some k → min (k.base + k.bound) 8192 ≤ (o + n - 1) / 512 →
        ∃ u, exec (.remoteAccess a c acc) s = .next u ∧ u.reply = some { status := .bound } ∧
          (u.core c.val).keep = { x.keep with boundCnt := x.keep.boundCnt + 1, info := refusalInfo true w ((srcClass a c.val).getD 1) (o / 512) } ∧
          (u.core c.val).evt = refusalLines x ∧ (u.core c.val).spad = x.spad) ∧
      (findKeeper x.keep.k w (srcClass a c.val) (o / 512) 16 0 = some k → (o + n - 1) / 512 < min (k.base + k.bound) 8192 →
        (∃ r ∈ rowsOf o n, groupOwner x r ≠ 0) →
        ∃ u, exec (.remoteAccess a c acc) s = .next u ∧ u.reply = some { status := .nowin } ∧
          (u.core c.val).keep = { x.keep with nowinCnt := x.keep.nowinCnt + 1, info := refusalInfo false w ((srcClass a c.val).getD 1) (o / 512) } ∧
          (u.core c.val).spad = x.spad))))

/-- R155 to R157: a burnish visit reads the row at its group's pointer, corrects a word with one struck symbol (its write-back may be deferred), and moves on; a
forced visit does the same in a group with a period once its interval has passed since the last visit, and nothing before. -/
def Sys2Proof.Claims.ScratchpadBurnish : Prop :=
  ∀ (s : State) (c : Fin 512) (g : Fin 4) (k : Nat),
    let x := s.core c.val
    let row := g.val * 2048 + tget natDef x.spad.ptr g.val % 2048
    let now := pacerOf s c
    let due := tget natDef x.spad.moved g.val + 100000 * x.spad.period.toNat / 2048
    (x.spad.period = 0 ∨ now < due → exec (.spadBurnishForced c g) s = .next s) ∧
    (s.drowsy = false → tget boolDef x.spad.mem.poison row = false →
    ∀ i ∈ [Instr.spadBurnishVisit c g, .spadBurnishForced c g], (i = .spadBurnishForced c g → x.spad.period ≠ 0 ∧ due ≤ now) →
      (x.spad.mem.struck row = [] → exec i s = .next (s.modCore c.val (visited · g.val now))) ∧
      (x.spad.mem.struck row = [(k, 1)] → ∃ u, exec i s = .next u ∧
        ((u.core c.val).spad.mem.upsets = terase x.spad.mem.upsets k ∨ (u.core c.val).spad.mem.upsets = x.spad.mem.upsets) ∧ (u.core c.val).spad.mem.bytes = x.spad.mem.bytes ∧
        (u.core c.val).spad.ceCnt = x.spad.ceCnt + 1 ∧ (u.core c.val).spad.ptr = (visited x g.val now).spad.ptr))

/-- R158 to R160, R162, R297, R315: a fill from HBM puts its line into the cache and ends the access that waited for it, which a
store then writes into the line; a write-back to HBM writes its dirty bytes and leaves; an action ends once its write-backs
are done, and INVAL then empties the cache and has a line that is on its way read again. -/
def Sys2Proof.Claims.DataCacheCompletions : Prop :=
  ∀ (s : State) (c : Fin 512) (n : Fin 8) (ext : ExtAns) (g : GAcc) (i : Nat) (w : WriteBack) (inval : Bool) (k : Fin 80) (o : Nat) (x : ThreadSt),
    let d := (s.core c.val).dc
    let t : Tid := ⟨c, n⟩
    let line := readBytes (s.slice k.val).mem.bytes o 64
    (d.miss = some n → (s.thr t).held = some (.miss g) → g.slot < 128 → g.answer = none → slotLost s c.val g.slot = false → d.wbs = [] → dcFind d (g.ga / 64) = none →
      (∀ j ∈ dcDirty d, (dcGet d j).line ∉ dcNames s.smap (g.ga / 64)) →
      (∀ m, m ≠ n → ∀ h, (s.thr ⟨c, m⟩).held ≠ some (.miss h)) → quietBoundary s t → g.ga % 64 + g.size ≤ 64 →
      wpMatch (s.core c.val).dbg n.val g.ga g.size g.wdata.isSome = false → hbmAt s g.map (g.ga / 64 * 64) 64 k o →
      g.fin ≠ .release → (∀ rd sc, g.fin ≠ .acquire rd sc) →
      ended g (if g.wdata.isSome then [] else slice line (g.ga % 64) g.size) (s.thr t) = some x →
      ∃ u key, exec (.dcacheFillComplete c ext) s = .next u ∧ (u.core c.val).dc.miss = none ∧ dcFind (u.core c.val).dc (g.ga / 64) = some key ∧
        u.thr t = x ∧ u.slices = s.slices ∧ ((u.port c.val).slot g.slot).busy = false ∧
        (g.wdata = none → (dcGet (u.core c.val).dc key).bytes = line ∧ (dcGet (u.core c.val).dc key).dirty = 0) ∧
        (∀ b, g.wdata = some b → b.length = g.size → (dcGet (u.core c.val).dc key).dirty = maskBits (g.ga % 64) g.size ∧
          (dcGet (u.core c.val).dc key).bytes = line.take (g.ga % 64) ++ b ++ line.drop (g.ga % 64 + g.size))) ∧
    (d.wbs[i]? = some w → w.slot < 128 → w.answer = none → slotLost s c.val w.slot = false → w.bytes.length = 64 → wbsSent s t → hbmAt s w.map (64 * w.line) 64 k o →
      recorded { s with smap := w.map } (64 * w.line) c.val w.slot ((s.port c.val).slot w.slot).gen w.acc = none →
      (∀ m, m < 8 → ∀ h j, ((s.core c.val).t m).held ≠ some (.drain j h)) → (∀ m, m < 8 → ∀ h, ((s.core c.val).t m).held ≠ some (.miss h)) →
      ∃ u, exec (.dcacheWritebackComplete c i ext) s = .next u ∧ (u.core c.val).dc = { d with wbs := d.wbs.eraseIdx i } ∧
        (∀ b, readByte (u.slice k.val).mem.bytes b = if o ≤ b ∧ b < o + 64 ∧ bitOf w.mask (b - o) = true then lget 0 w.bytes (b - o)
          else readByte (s.slice k.val).mem.bytes b) ∧ (∀ j, j ≠ k.val → u.slice j = s.slice j)) ∧
    (d.action = some inval → (∀ y ∈ d.wbs, y.why ≠ .action) →
      exec (.dcacheActionComplete c) s
      = .next ((if inval then refetch s c.val (fun _ => true) else s).modDc c.val (fun d => { d with action := none, ways := if inval then [] else d.ways }))) ∧
    (d.action = some inval → (∃ y ∈ d.wbs, y.why = .action) → exec (.dcacheActionComplete c) s = .next s)

/-- R154, R161, R163, R317, R328, R427: upsets strike words of the memories and lines of the caches. -/
def Sys2Proof.Claims.MemoryUpsets : Prop :=
  ∀ (s : State) (c : Fin 512) (k : Fin 80) (w : Fin 524288) (sec : Fin 402653184) (b : Fin 131072) (ring : Fin 524288) (set : Fin 64) (way : Fin 8)
    (line : Nat) (n : Nat),
    let struck := fun (m : EccMem) (i : Nat) => ({ m with upsets := tset natDef m.upsets i (tget natDef m.upsets i + n) } : EccMem)
    exec (.memoryUpset (.spad c w) n) s = .next (s.modCore c.val (fun x => { x with spad := { x.spad with mem := struck x.spad.mem w.val } })) ∧
    exec (.memoryUpset (.dram k sec) n) s = .next (s.modSlice k.val (fun x => { x with mem := struck x.mem sec.val })) ∧
    exec (.memoryUpset (.skvBuf k b) n) s = .next (s.modSlice k.val (fun x => { x with skv := { x.skv with buf := struck x.skv.buf b.val } })) ∧
    exec (.memoryUpset (.ringMem ring) n) s = .next { s with host := { s.host with ring := struck s.host.ring ring.val } } ∧
    (n ≠ 0 → (dcGet (s.core c.val).dc (8 * set.val + way.val)).valid = true →
      exec (.memoryUpset (.dcache c set way) n) s = .next (s.modDc c.val (fun d =>
        dcPut d (8 * set.val + way.val) { dcGet d (8 * set.val + way.val) with parity := true }))) ∧
    (n ≠ 0 → tget bytesDef (s.core c.val).icache line ≠ [] →
      exec (.memoryUpset (.icache c line) n) s = .next (s.modCore c.val (fun x => { x with icStruck := tset boolDef x.icStruck line true })))

/-- R33 to R35: a monitor's measurement, the daily calibration (free at first, then at most 100 ppm and at most once per ms), and its lapse. -/
def Sys2Proof.Claims.Pacers : Prop :=
  ∀ (s : State) (k : Fin 64) (sl : Fin 80) (pace : BitVec 16) (trims : List (BitVec 16)),
    (s.pwr.state ≠ 3 → exec (.paceMeasurement (.cluster k) pace) s = .next (s.modCluster k.val (fun x => { x with paceValid := true, pace := pace }))) ∧
    (s.pwr.state ≠ 3 → (s.slice sl.val).clkOk = true →
      exec (.paceMeasurement (.slice sl) pace) s = .next (s.modSlice sl.val (fun x => { x with paceValid := true, pace := pace }))) ∧
    (s.mgmt.fwRun = true → s.pwr.state ≠ 3 → trims.length = 64 →
      ∃ u, exec (.pacerCalibration trims) s = .next u ∧ u.cores = s.cores ∧ u.slices = s.slices ∧ u.mgmt = s.mgmt ∧
        (∀ j, j < 64 → let x := s.cluster j
          let v := lget 0 trims j
          (u.cluster j).pacer = x.pacer ∧
          (x.calOnce = false → (u.cluster j).cal = true ∧ (u.cluster j).trim = v) ∧
          (x.calOnce = true → s.mgmt.time < x.calTime + 1000000 → u.cluster j = x) ∧
          (x.calOnce = true → x.calTime + 1000000 ≤ s.mgmt.time → (u.cluster j).cal = true) ∧
          (x.calOnce = true → x.calTime + 1000000 ≤ s.mgmt.time → -32668 ≤ x.trim.toInt → x.trim.toInt ≤ 32667 →
            (u.cluster j).trim.toInt = max (x.trim.toInt - 100) (min (x.trim.toInt + 100) v.toInt)))) ∧
    ((s.cluster k.val).calTime + 10000000 ≤ s.mgmt.time → exec (.pacerCalLapse k) s = .next (s.modCluster k.val (fun x => { x with cal := false }))) ∧
    (s.mgmt.time < (s.cluster k.val).calTime + 10000000 → exec (.pacerCalLapse k) s = .next (s.modCluster k.val id))

/-- R310, R311, R314, R320, R321, R323: requests of a slice that serves, a fenced one, one without clock
that holds them, and a peer's that MEMEN refuses (R406); patrol, refresh outside DROWSE (R480), the refresh multiplier of a stack,
and the loss and return of its clock, with which a waiting request is served. -/
def Sys2Proof.Claims.SlicesAndStacks : Prop :=
  ∀ (s : State) (a : Agent) (k : Fin 80) (t : Fin 20) (acc : Acc) (temp : BitVec 8),
    let x := s.slice k.val
    let (o, n, w) := accSpan acc
    (a ≠ .mgmt → accWf acc = true → o + n ≤ 0x300000000 → o % 32 = 0 → n % 32 = 0 → o / 512 = (o + n - 1) / 512 →
      (isPeer a = true → s.lat.memen = false → exec (.sliceRequest a k acc) s = .next (s.answer { status := .nowin })) ∧
      (isPeer a = false ∨ s.lat.memen = true →
      (s.drowsy = false → s.sliceFenced k.val = false → x.clkOk = false ∨ x.ready = false →
        exec (.sliceRequest a k acc) s = .next (s.hold (.request a k.val acc))) ∧
      (s.sliceFenced k.val = true → exec (.sliceRequest a k acc) s = .next (s.answer { status := .unreach })) ∧
      (sliceServes s k.val = true → x.dir = [] → x.mem.poison = [] → x.mem.upsets = [] →
        ∃ u, exec (.sliceRequest a k acc) s = .next u ∧ u.reply = some { status := .ok, data := if w then [] else readBytes x.mem.bytes o n } ∧
          WroteOnly x.mem.bytes (u.slice k.val).mem.bytes acc ∧ (∀ j, j ≠ k.val → u.slice j = s.slice j)))) ∧
    (x.clkOk = true → x.ready = true → s.drowsy = false → tget boolDef x.mem.poison x.walk = false → tget natDef x.mem.upsets x.walk = 0 →
      exec (.slicePatrolVisit k) s = .next (s.modSlice k.val (fun x => { x with walk := (x.walk + 1) % (0x300000000 / 32), sweepLeft := x.sweepLeft - 1 }))) ∧
    (x.clkOk = true → s.pwr.state ≠ 2 → exec (.refresh k) s = .next (s.modSlice k.val (fun x => { x with bank := x.bank + 1 }))) ∧
    (∃ u, exec (.refreshMultiplierRise t temp) s = .next u ∧ StackSlices s u t (fun x =>
      { x with tempValid := true, temp := temp, refx := if x.refx.ult (multiplierAt temp.toNat) then multiplierAt temp.toNat else x.refx })) ∧
    (∃ u, exec (.refreshMultiplierFall t temp) s = .next u ∧ StackSlices s u t (fun x =>
      { x with tempValid := true, temp := temp, refx := if (multiplierAt (temp.toNat + 3)).ult x.refx then multiplierAt (temp.toNat + 3) else x.refx })) ∧
    ((s.slice (4 * t.val)).clkOk = true → s.cpUp = true → s.cp.toCp = none → s.cp.notices.length < 256 →
      ∃ u, exec (.stackClockLoss t) s = .next u ∧ StackSlices s u t (fun x => { x with clkOk := false }) ∧
        u.cp.notices = s.cp.notices ++ [⟨4, BitVec.ofNat 64 (3 * 65536 + t.val), 2⟩]) ∧
    (s.waits = [] → ∃ u, exec (.stackClockRestore t) s = .next u ∧ StackSlices s u t (fun x => { x with clkOk := true })) ∧
    (s.waits = [.request a k.val acc] → a ≠ .mgmt → isPeer a = false → accWf acc = true → o % 32 = 0 → n % 32 = 0 → o / 512 = (o + n - 1) / 512 →
      exec (.stackClockRestore t) s = exec (.sliceRequest a k acc)
        ((({ s with waits := [] } : State).modSlice (4 * t.val) clockBack).modSlice (4 * t.val + 1) clockBack |>.modSlice (4 * t.val + 2) clockBack
          |>.modSlice (4 * t.val + 3) clockBack))

namespace Sys2Proof.Claims

/-- A slice whose memory and buffer are sound: clocked, ready, no marks, no upsets, no lines of the host, no areas. -/
def skvSound (x : SliceSt) : Bool :=
  x.clkOk && x.ready && x.dir.isEmpty && x.mem.poison.isEmpty && x.mem.upsets.isEmpty && x.skv.buf.poison.isEmpty && x.skv.buf.upsets.isEmpty
  && x.skv.careas.isEmpty

/-- A context runs descriptor `b` of operation `op` (R336) on a sound slice and has not performed it yet. -/
def SkvRuns (s : State) (k : Fin 80) (prio : Bool) (op : Nat) (b : List Byte) : Prop :=
  let c := (s.slice k.val).skv.ctx prio
  skvSound (s.slice k.val) = true ∧ c.desc.map (·.bytes) = some b ∧ dOp b = op ∧ c.executed = false ∧ c.status = 0

/-- The descriptor is performed with status `st` and leaves these deliveries; other slices, cores and messages stay. -/
def Performed (s u : State) (k : Fin 80) (prio : Bool) (b : List Byte) (st : Nat) (writes : List (Nat × List Byte)) (msgs : List (List Byte × Nat)) : Prop :=
  let c := (u.slice k.val).skv.ctx prio
  c.executed = true ∧ c.status = st ∧ c.dels = resultDels b st writes msgs ∧ c.queue = ((s.slice k.val).skv.ctx prio).queue ∧
  (u.slice k.val).skv.ctx (!prio) = (s.slice k.val).skv.ctx (!prio) ∧ u.cores = s.cores ∧ u.msgs = s.msgs ∧
  ∀ j, j ≠ k.val → u.slice j = s.slice j

def dram (s : State) (k : Fin 80) (a : Nat) : Byte := readByte (s.slice k.val).mem.bytes a
def bufByte (s : State) (k : Fin 80) (a : Nat) : Byte := readByte (s.slice k.val).skv.buf.bytes a
/-- Bytes of DRAM and of the buffer. -/
def dramRow (s : State) (k : Fin 80) (o n : Nat) : List Byte := readBytes (s.slice k.val).mem.bytes o n
def bufSpan (s : State) (k : Fin 80) (o n : Nat) : List Byte := readBytes (s.slice k.val).skv.buf.bytes o n
/-- The 32-bit word at byte `o` of the buffer. -/
def bufWord (s : State) (k : Fin 80) (o : Nat) : Nat := leNat (bufSpan s k o 4)

/-- FP32 results converted in delivery order (R57, R359), drawing from the slice's generator under a stochastic CVM. -/
def converted (v : SkvSt) (ofmt : Nat) (cvm : BitVec 2) (vs : List Half) : List Byte :=
  let ctr := leNat ((countFrom 0 4).flatMap (fun j => leBytes 4 (tget halfDef v.rngCtr j).toNat))
  let us := if cvmRnd cvm then draws (philoxWords (tget halfDef v.rngKey 0) (tget halfDef v.rngKey 1) ctr ((vs.length + 7) / 8))
    else List.replicate vs.length 0
  let e := (fmtOf ofmt).elem
  pack e ((vs.zip us).map (fun p => e.conv cvm p.2 (f32 p.1)))

/-- Pooling of rows with their weights (R344). -/
def pooled (pool len : Nat) (l : List (Half × List Half)) : List Half :=
  let zero : List Half := List.replicate len 0
  let sum := l.foldl (fun a p => (a.zip p.2).map (fun q => f32Add q.1 q.2)) zero
  match pool with
  | 0 => (l.map (·.2)).headD zero
  | 1 => sum
  | 2 => if l.isEmpty then zero else sum.map (f32DivNat · l.length)
  | 3 => l.foldl (fun a p => (a.zip p.2).map (fun q => toF32 ((f32 q.1).add ((f32 p.1).mul (f32 q.2))))) zero
  | _ => match l with
    | [] => zero
    | x :: xs => xs.foldl (fun a p => (a.zip p.2).map (fun q => f32Max q.1 q.2)) x.2

/-- List positions that lie in the buffer (R344). -/
def bagTop (b : List Byte) : Nat :=
  let room := fun (base : Nat) => (0x100000 - 512 * base) / 4
  if df b 3 52 50 = 3 then min (room (df b 4 10 0)) (room (df b 4 32 22)) else room (df b 4 10 0)

/-- The list positions of bag `j` (R343). -/
def bagSpan (s : State) (k : Fin 80) (b : List Byte) (j : Nat) : Nat × Nat :=
  if df b 3 52 50 = 0 then (j, j + 1)
  else (bufWord s k (512 * df b 4 21 11 + 4 * j), bufWord s k (512 * df b 4 21 11 + 4 * (j + 1)))

/-- The positions of bag `j` that lie in the buffer, each with its index; and whether R344 skips something of the bag. -/
def bagEntries (s : State) (k : Fin 80) (b : List Byte) (j : Nat) : List (Nat × Nat) :=
  let (lo, hi) := bagSpan s k b j
  (countFrom lo (min hi (bagTop b) - lo)).map (fun p => (p, bufWord s k (512 * df b 4 10 0 + 4 * p)))

def bagSkips (s : State) (k : Fin 80) (b : List Byte) (j : Nat) : Bool :=
  let (lo, hi) := bagSpan s k b j
  decide (hi < lo) || (decide (lo < hi) && decide (bagTop b < hi)) || (bagEntries s k b j).any (fun p => decide (df b 2 63 34 ≤ p.2))

/-- The rows of a bag, each with its weight. -/
def bagRows (s : State) (k : Fin 80) (b : List Byte) (j : Nat) : List (Half × List Half) :=
  let len := df b 3 44 32
  let t := df b 3 49 45
  ((bagEntries s k b j).filter (fun p => decide (p.2 < df b 2 63 34))).map (fun p =>
    (if df b 3 52 50 = 3 then BitVec.ofNat 32 (bufWord s k (512 * df b 4 32 22 + 4 * p.1)) else 0,
     rowHalfs t len (dramRow s k (df b 2 33 0 + p.2 * df b 3 31 0) (rowBytes t len)) []))

/-- One step of SK_SCATTER_ADD over the bytes of DRAM (R350): position j of the list. -/
def scatterStep (s : State) (k : Fin 80) (b : List Byte) (f : Nat → Byte) (j : Nat) : Nat → Byte :=
  let idx := bufWord s k (512 * df b 4 10 0 + 4 * j)
  let e := (fmtOf (df b 3 49 45)).elem
  let w := e.width / 8
  let base := df b 2 33 0 + idx * df b 3 31 0
  fun a =>
    if idx < df b 2 63 34 ∧ base ≤ a ∧ a < base + w * df b 3 44 32 then
      let i := (a - base) / w
      let old := e.value (leNat ((countFrom (base + w * i) w).map f))
      let add := f32 (BitVec.ofNat 32 (bufWord s k (512 * (df b 4 21 11 + j * df b 4 28 22) + 4 * i)))
      lget 0 (leBytes w (e.conv 0 0 (old.add add))) ((a - base) % w)
    else f a

/-- The result lanes of SK_MATVEC: element r of lane l (R342). -/
def matvecAt (s : State) (k : Fin 80) (b : List Byte) (l r : Nat) : Half :=
  let n := df b 3 46 32
  let a := rowVals (df b 3 56 52) n (bufSpan s k (512 * (df b 4 10 0 + l * df b 4 17 11)) (rowBytes (df b 3 56 52) n)) []
  let w := rowVals (df b 3 51 47) n (dramRow s k (df b 2 33 0 + r * df b 3 31 0) (rowBytes (df b 3 51 47) n)) []
  let bf := df b 5 39 35
  let start := if bitOf (dw b 5) 34 then lget 0 (rowHalfs bf 1 (dramRow s k (df b 5 33 0 + r * elSize bf) (elSize bf)) []) 0 else 0
  tscale (dw b 6) (rowDot (df b 3 51 47) (df b 3 56 52) (BitVec.ofNat 2 (df b 3 58 57)) start w a)

/-- The tokens of a page table entry that takes part (R345): token index, key, value. -/
def pageTokens (s : State) (k : Fin 80) (b : List Byte) (p : Nat) : List (Nat × List FVal × List FVal) :=
  let e := leNat (bufSpan s k (512 * df b 3 10 0 + 8 * p) 8)
  let hd := df b 3 43 35
  let kv := df b 3 48 44
  let base := df b 2 33 0 + bitsOf e 31 0 * (512 * df b 2 63 48)
  let at_ := fun (o t : Nat) => (rowVals kv hd (dramRow s k (o + t * (hd * elSize kv)) (hd * elSize kv)) []).1
  (countFrom 0 (bitsOf e 39 32)).map (fun t => (bitsOf e 63 40 + t, at_ base t, at_ (base + keyBytes b) t))

/-- A page table entry that R345 does not skip. -/
def pageOk (s : State) (k : Fin 80) (b : List Byte) (p : Nat) : Bool :=
  let e := leNat (bufSpan s k (512 * df b 3 10 0 + 8 * p) 8)
  decide (bitsOf e 39 32 ≤ df b 3 34 27) && decide (df b 2 33 0 + (bitsOf e 31 0 + 1) * (512 * df b 2 63 48) ≤ sliceBytes)

/-- The partial (m, λ, o) of a lane after a list of tokens (R346). -/
def laneAfter (b : List Byte) (q : List FVal) (limit : Option Int) : List (Nat × List FVal × List FVal) → Half × Half × List Half → Half × Half × List Half
  | [], x => x
  | (tok, kv, vv) :: r, (m, lam, o) =>
    if limit.all (fun l => decide ((tok : Int) < l)) then
      let sc := f32Mul (rowDot (df b 3 53 49) (df b 3 48 44) (BitVec.ofNat 2 (df b 3 55 54)) 0 (q, []) (kv, [])) (BitVec.ofNat 32 (df b 5 31 0))
      let mn := f32Max m sc
      let a := f32 (sexp m mn)
      let p := sexp sc mn
      laneAfter b q limit r (mn, toF32 (((f32 lam).mul a).add (f32 p)),
        (o.zip (vv.map toF32)).map (fun y => toF32 (((f32 y.1).mul a).add (f32 (f32Mul y.2 p)))))
    else laneAfter b q limit r (m, lam, o)

def attendLane (s : State) (k : Fin 80) (b : List Byte) (l : Nat) : List Byte :=
  let hd := df b 3 43 35
  let q := (rowVals (df b 3 53 49) hd (bufSpan s k (512 * (df b 4 10 0 + l * df b 4 17 11)) (hd * elSize (df b 3 53 49))) []).1
  let limit := if bitOf (dw b 4) 35 then some (signedOf 32 (bufWord s k (512 * df b 4 34 24 + 4 * l))) else none
  let x := laneAfter b q limit (((countFrom 0 (df b 3 26 11)).filter (pageOk s k b)).flatMap (pageTokens s k b)) (BitVec.ofNat 32 (fmtFp32.infBits true), 0, List.replicate hd 0)
  bytes32 (x.1 :: x.2.1 :: x.2.2)

/-- The scores of lane `l` in SK_TOPK with their indices (R348). -/
def topkPairs (s : State) (k : Fin 80) (b : List Byte) (l : Nat) : List (Half × Half) :=
  let n := df b 3 44 32
  let t := df b 3 49 45
  let q := rowVals (df b 3 54 50) n (bufSpan s k (512 * (df b 4 10 0 + l * df b 4 17 11)) (rowBytes (df b 3 54 50) n)) []
  (countFrom 0 (df b 2 63 34)).map (fun r =>
    (f32Mul (rowDot (df b 3 54 50) t (BitVec.ofNat 2 (df b 3 56 55)) 0 q (rowVals t n (dramRow s k (df b 2 33 0 + r * df b 3 31 0) (rowBytes t n)) []))
      (BitVec.ofNat 32 (df b 5 31 0)), BitVec.ofNat 32 (df b 5 63 32 + r)))

/-- The message of a delivery (R354). -/
def resultMsg (s : State) (k : Fin 80) (x : SkvDel) (h : Word) (cls : BitVec 2) : Msg :=
  { id := 0, sender := .skiver s.lat.id.toNat k.val, target := destTarget s x.addr, hdr := h, payload := x.bytes, cls := cls, form := .other }

/-- One context changed. -/
def changedCtx (v : SkvSt) (prio : Bool) (f : SkvCtx → SkvCtx) : SkvSt :=
  if prio then { v with prio := f v.prio } else { v with ord := f v.ord }

/-- A span and status check of the buffer's window (R329): BOUND past its top, NOWIN outside it. -/
def bufTop (v : SkvSt) : Nat := min (bitsOf v.bwin.toNat 10 0 + bitsOf v.bwin.toNat 27 16) 2048
def bufAdmits (v : SkvSt) (a : Agent) (write : Bool) (row : Nat) : Bool :=
  bitOf v.ctl.toNat (if write then 4 else 3) && scopeAdmits (BitVec.ofNat 2 (bitsOf v.ctl.toNat 2 1)) (bufSrc a)
  && decide (bitsOf v.bwin.toNat 10 0 ≤ row) && decide (row < bufTop v)

/-- The first status of R335 that applies to a posting. -/
def postStatus (s : State) (m : Msg) (k : Fin 80) (prio : Bool) (epoch : BitVec 16) : Nat :=
  let v := (s.slice k.val).skv
  let b := leBytes 8 m.hdr.toNat ++ m.payload
  if s.drowsy = true ∨ s.sliceFenced k.val = true then stUnreach
  else if epoch ≠ v.epoch then stStale
  else if m.sender.dev ≠ s.lat.id.toNat ∧ bitsOf v.ctl.toNat 6 5 ≠ 3 then stNowin
  else if bitOf v.ctl.toNat 7 = false then stClosed
  else if m.payload.length ≠ 48 ∨ shapeOk b (m.sender.isCoreOf s.lat.id.toNat) = false then stShape
  else if (if prio then 16 else 48) ≤ (v.ctx prio).queue.length + (v.ctx prio).desc.toList.length then stFull
  else stOk

end Sys2Proof.Claims

/-- R335, R336, R323: a posting receives the first status that applies and, with OK, joins the queue of its context; it waits at a slice
that has no clock or is not ready; an idle context starts its oldest descriptor; one that carries the stale bit marks every area STALE (R353). -/
def Sys2Proof.Claims.SkiverPostings : Prop :=
  ∀ (s : State) (id c n : Nat) (m : Msg) (k : Fin 80) (prio : Bool) (epoch : BitVec 16) (d : SkvDesc) (q : List SkvDesc),
    let st := Sys2Proof.Claims.postStatus s m k prio epoch
    (arriving s id = some m → m.target = .skiver none k.val prio epoch → m.sender = .thread s.lat.id.toNat c n →
      (s.drowsy = false → s.sliceFenced k.val = false → (s.slice k.val).clkOk = false ∨ (s.slice k.val).ready = false →
        exec (.skiverPosting id) s = .next s) ∧
      (s.drowsy = true ∨ s.sliceFenced k.val = true ∨ ((s.slice k.val).clkOk = true ∧ (s.slice k.val).ready = true) →
      ∃ u, exec (.skiverPosting id) s = .next u ∧ (u.msg id).bind (·.status) = some st ∧ u.cores = s.cores ∧
        (st ≠ stOk → u.slices = s.slices) ∧
        (st = stOk → ((u.slice k.val).skv.ctx prio).queue = ((s.slice k.val).skv.ctx prio).queue ++
            [{ bytes := leBytes 8 m.hdr.toNat ++ m.payload, core := c, thr := n, byCp := false, dev := s.lat.id.toNat, cls := m.cls, stale := m.stale }] ∧
          ((u.slice k.val).skv.ctx prio).desc = ((s.slice k.val).skv.ctx prio).desc))) ∧
    (((s.slice k.val).skv.ctx prio).desc = none → ((s.slice k.val).skv.ctx prio).queue = d :: q → s.sliceFenced k.val = false → skvMay s = true →
      ∃ u, exec (.skvDescriptorStart k prio) s = .next u ∧ (u.slice k.val).skv.ctx prio = { desc := some d, queue := q, started := true } ∧
        (u.slice k.val).skv.ctx (!prio) = (s.slice k.val).skv.ctx (!prio) ∧
        (d.stale = false → (u.slice k.val).skv.careas = (s.slice k.val).skv.careas) ∧
        (d.stale = true → (u.slice k.val).skv.careas = (s.slice k.val).skv.careas.map (fun p => (p.1, { p.2 with stale := true }))))

/-- R349 to R351: appended rows; rows added one after another in list order, indices at or above TROWS skipped; a copy of the source as it was, a filled span;
every other byte stays, and under RKIND 2 one empty message is delivered. -/
def Obligations.SkiverRowUpdates : Prop :=
  ∀ (s : State) (k : Fin 80) (prio : Bool) (b : List Byte),
    let v := (s.slice k.val).skv
    shapeOk b true = true →
    (SkvRuns s k prio 4 b → ∃ u, exec (.skAppend k prio) s = .next u ∧ Performed s u k prio b 0 [] [([], 0)] ∧ (u.slice k.val).skv.buf = v.buf ∧
      ∀ a, dram u k a = match (countFrom 0 (df b 4 33 18)).find? (fun n => decide (df b 2 33 0 + n * df b 3 31 0 ≤ a ∧ a < df b 2 33 0 + n * df b 3 31 0 + df b 3 44 32)) with
        | some n => bufByte s k (512 * (df b 4 10 0 + n * df b 4 17 11) + (a - (df b 2 33 0 + n * df b 3 31 0)))
        | none => dram s k a) ∧
    (SkvRuns s k prio 5 b → df b 2 33 0 + df b 2 63 34 * df b 3 31 0 ≤ sliceBytes →
      let js := countFrom 0 (df b 4 44 29)
      let skips := js.any (fun j => decide (df b 2 63 34 ≤ bufWord s k (512 * df b 4 10 0 + 4 * j)))
      ∃ u, exec (.skScatterAdd k prio) s = .next u ∧ Performed s u k prio b (if skips then 1 else 0) [] [([], 0)] ∧ (u.slice k.val).skv.buf = v.buf ∧
        ∀ a, dram u k a = js.foldl (scatterStep s k b) (dram s k) a) ∧
    (SkvRuns s k prio 6 b → bitOf (dw b 3) 35 = false → let dst := df b 3 33 0
      let n := df b 4 33 0
      let src := fun a => if bitOf (dw b 2) 34 then bufByte s k (df b 2 33 0 + (a - dst)) else dram s k (df b 2 33 0 + (a - dst))
      let hit := fun (toBuf : Bool) a => bitOf (dw b 3) 34 = toBuf ∧ dst ≤ a ∧ a < dst + n
      ∃ u, exec (.skCopy k prio) s = .next u ∧ Performed s u k prio b 0 [] [([], 0)] ∧
        (∀ a, (hit false a → dram u k a = src a) ∧ (¬hit false a → dram u k a = dram s k a)) ∧
        (∀ a, (hit true a → bufByte u k a = src a) ∧ (¬hit true a → bufByte u k a = bufByte s k a))) ∧
    (SkvRuns s k prio 7 b → let dst := df b 3 33 0
      let pat := fun a => lget 0 (leBytes 4 (df b 5 31 0)) ((a - dst) % 4)
      let hit := fun (toBuf : Bool) a => bitOf (dw b 3) 34 = toBuf ∧ dst ≤ a ∧ a < dst + df b 4 33 0
      ∃ u, exec (.skFill k prio) s = .next u ∧ Performed s u k prio b 0 [] [([], 0)] ∧
        (∀ a, (hit false a → dram u k a = pat a) ∧ (¬hit false a → dram u k a = dram s k a)) ∧
        (∀ a, (hit true a → bufByte u k a = pat a) ∧ (¬hit true a → bufByte u k a = bufByte s k a)))

/-- R342 to R344: SK_GATHER pools the rows of each bag; SK_MATVEC accumulates every row against every lane; both convert
in delivery order (R359) and leave the memories as they were. The tables lie in their slice (no rule gives a row past its end). -/
def Sys2Proof.Claims.SkiverGatherMatvec : Prop :=
  ∀ (s : State) (k : Fin 80) (prio : Bool) (b : List Byte),
    let x := s.slice k.val
    shapeOk b true = true →
    (SkvRuns s k prio 0 b →
      df b 2 33 0 + df b 2 63 34 * df b 3 31 0 ≤ sliceBytes →
      let vs := (countFrom 0 (df b 4 48 33)).flatMap (fun j => pooled (df b 3 52 50) (df b 3 44 32) (bagRows s k b j))
      let out := converted x.skv (df b 4 53 49) (BitVec.ofNat 2 (df b 4 55 54)) vs
      let n := df b 3 44 32 * elSize (df b 4 53 49)
      ∃ u, exec (.skGather k prio) s = .next u ∧
        Performed s u k prio b (if (countFrom 0 (df b 4 48 33)).any (bagSkips s k b) then 1 else 0) ((countFrom 0 (df b 4 48 33)).map (fun j => (dDest b + j * df b 5 31 0, slice out (j * n) n))) [(out, 0)] ∧
        (u.slice k.val).mem = x.mem ∧ (u.slice k.val).skv.buf = x.skv.buf ∧
        (vs ≠ [] → (u.slice k.val).skv.amaxLast = amaxBits (vs.map f32))) ∧
    (SkvRuns s k prio 1 b →
      let rows := df b 2 49 34
      let nl := df b 4 23 18
      let vs := (countFrom 0 nl).flatMap (fun l => (countFrom 0 rows).map (matvecAt s k b l))
      let out := converted x.skv (df b 4 28 24) (BitVec.ofNat 2 (df b 4 30 29)) vs
      let n := rows * elSize (df b 4 28 24)
      ∃ u, exec (.skMatvec k prio) s = .next u ∧
        Performed s u k prio b 0 ((countFrom 0 nl).map (fun l => (dDest b + l * df b 4 63 32, slice out (l * n) n))) [(out, 0)] ∧
        (u.slice k.val).mem = x.mem ∧ (u.slice k.val).skv.buf = x.skv.buf ∧
        (vs ≠ [] → (u.slice k.val).skv.amaxLast = amaxBits (vs.map f32)))

/-- R345 to R348: SK_ATTEND runs each lane's partial over the tokens of its pages; SK_TOPK keeps the KSEL best scores,
filled with pairs of index 0xFFFFFFFF and the canonical NaN. -/
def Sys2Proof.Claims.SkiverAttendTopk : Prop :=
  ∀ (s : State) (k : Fin 80) (prio : Bool) (b : List Byte),
    let x := s.slice k.val
    let nl := df b 4 23 18
    shapeOk b true = true →
    (SkvRuns s k prio 2 b →
      let per := min nl (4096 / (4 * (df b 3 43 35 + 2)))
      let lanes := (countFrom 0 nl).map (attendLane s k b)
      ∃ u, exec (.skAttend k prio) s = .next u ∧
        Performed s u k prio b (if (countFrom 0 (df b 3 26 11)).all (pageOk s k b) then 0 else 1) [(dDest b, lanes.flatMap id)]
          ((countFrom 0 ((nl + per - 1) / per)).map (fun j => let g := (lanes.drop (j * per)).take per
            (g.flatMap id, g.length))) ∧
        (u.slice k.val).mem = x.mem ∧ (u.slice k.val).skv.buf = x.skv.buf) ∧
    (SkvRuns s k prio 3 b →
      let ksel := df b 4 32 24
      let lanes := (countFrom 0 nl).map (fun l =>
        let best := (sortPairs (topkPairs s k b l)).take ksel
        (best ++ List.replicate (ksel - best.length) ((toF32 .nan, 0xFFFFFFFF) : Half × Half)).flatMap (fun p => bytes32 [p.2, p.1]))
      ∃ u, exec (.skTopk k prio) s = .next u ∧
        Performed s u k prio b 0 [(dDest b, lanes.flatMap id)] (lanes.map (fun l => (l, 0))) ∧
        (u.slice k.val).mem = x.mem ∧ (u.slice k.val).skv.buf = x.skv.buf)

/-- R354 to R357, R372: the next delivery sets out: a message, or a write that the target core's keeper judges; a status OK ends
it, a message answered FULL is kept to be sent again, another refusal is counted and abandons what was not issued; with none left the descriptor completes and its line fires. -/
def Sys2Proof.Claims.SkiverDeliveries : Prop :=
  ∀ (s u : State) (k : Fin 80) (prio : Bool) (ext : ExtAns) (d : SkvDesc) (x : SkvDel) (rest : List SkvDel) (h : Word) (m : Msg)
    (j e o : Nat) (kp : Keeper),
    let c := (s.slice k.val).skv.ctx prio
    let put := fun (s : State) (f : SkvCtx → SkvCtx) => s.modSlice k.val (fun y => { y with skv := changedCtx y.skv prio f })
    c.desc = some d → (c.dels = x :: rest →
      (x.issued = false → x.hdr = some h → s.msg x.msg = none → sendMsg s (resultMsg s k x h d.cls) = some u →
        exec (.skvResultDelivery k prio ext) s = .next (put u (fun c => { c with dels := lset c.dels 0 { x with issued := true, msg := s.nextId } }))) ∧
      (x.issued = false → x.hdr = some h → s.msg x.msg = some m → resendMsg s m = some u →
        exec (.skvResultDelivery k prio ext) s = .next (put u (fun c => { c with dels := lset c.dels 0 { x with issued := true, msg := m.id } }))) ∧
      (x.issued = false → x.hdr = none → x.addr < 2 ^ 48 → decodeLocal x.addr = .spad e o → 0 < x.bytes.length →
        sendReq s (512 + k.val) d.cls.toNat (.write x.addr x.bytes (allOn x.bytes)) = (.slot j, u) →
        recorded u x.addr (512 + k.val) j ((u.port (512 + k.val)).slot j).gen (.write x.addr x.bytes (allOn x.bytes)) = none →
        s.drowsy = false → s.coreFenced e = false → spadClean (s.core e) = true → findKeeper (s.core e).keep.k true (some 1) (o / 512) 16 0 = some kp →
        (o + x.bytes.length - 1) / 512 < min (kp.base + kp.bound) 8192 →
        ∃ t, exec (.skvResultDelivery k prio ext) s = .next t ∧
          ((t.slice k.val).skv.ctx prio).dels = { x with issued := true, slot := j, status := some 0 } :: rest ∧
          WroteOnly (s.core e).spad.mem.bytes (t.core e).spad.mem.bytes (.write o x.bytes (allOn x.bytes)) ∧ (∀ n, n ≠ e → t.core n = s.core n)) ∧
      (x.issued = true → x.hdr = none → x.status = some 0 →
        exec (.skvDeliveryStatus k prio) s = .next (put (fabFree s (512 + k.val) x.slot) (fun c => { c with dels := rest }))) ∧
      (x.issued = true → x.hdr = some h → s.msg x.msg = some m → m.status = some stOk →
        exec (.skvDeliveryStatus k prio) s = .next (put ((fabFree s (512 + k.val) m.slot).dropMsg x.msg) (fun c => { c with dels := rest }))) ∧
      (x.issued = true → x.hdr = some h → s.msg x.msg = some m → m.status = some stFull →
        ∃ t, exec (.skvDeliveryStatus k prio) s = .next t ∧ t.msg x.msg = some { m with slot := 128, parked := true } ∧
          ((t.slice k.val).skv.ctx prio).dels = { x with issued := false } :: rest ∧ (t.slice k.val).skv.err = (s.slice k.val).skv.err) ∧
      (x.issued = true → x.hdr = some h → s.msg x.msg = some m → m.status = some stClosed →
        ∃ t, exec (.skvDeliveryStatus k prio) s = .next t ∧ ((t.slice k.val).skv.ctx prio).dels = rest.filter (·.issued) ∧
          ((t.slice k.val).skv.ctx prio).status = max c.status 3 ∧ (t.slice k.val).skv.err = (s.slice k.val).skv.err + 0x10000)) ∧
    (c.executed = true → c.dels = [] →
      ∃ t, exec (.skvDescriptorComplete k prio) s = .next t ∧ (t.slice k.val).skv.ctx prio = { queue := c.queue } ∧
        (c.status = 0 → (t.slice k.val).skv.err = (s.slice k.val).skv.err ∧ (t.slice k.val).skv.errInfo = (s.slice k.val).skv.errInfo) ∧
        (c.status ≠ 0 → (t.slice k.val).skv.err.toNat / 65536 = (s.slice k.val).skv.err.toNat / 65536 ∧
          (t.slice k.val).skv.err.toNat % 65536 = ((s.slice k.val).skv.err.toNat + 1) % 65536) ∧
        (d.byCp = false → d.dev = s.lat.id.toNat → dEven d.bytes = true → (t.core d.core).evt.getLsbD (dLine d.bytes) = true) ∧
        (dEven d.bytes = false → t.cores = s.cores))

/-- R323, R329, R330, R406: a remote access to the buffer window, and a write to an edge window, which reaches every unfenced slice of
its edge and is OK where none refuses; a slice without clock or not ready holds them; a peer's edge write is refused. -/
def Sys2Proof.Claims.SkiverBufferWindows : Prop :=
  ∀ (s : State) (a : Agent) (k : Fin 80) (acc : Acc) (south : Bool) (off : BitVec 20) (data : List Byte) (en : List Bool),
    let v := (s.slice k.val).skv
    let (o, n, w) := accSpan acc
    let onEdge := fun (j : Nat) => j < 80 ∧ (40 ≤ j ↔ south = true)
    let holds := fun (j : Nat) => s.sliceFenced j = false ∧ ((s.slice j).clkOk = false ∨ (s.slice j).ready = false)
    (accWf acc = true →
      (s.sliceFenced k.val = true ∨ s.drowsy = true → exec (.skvBufferAccess a k acc) s = .next (s.answer { status := .unreach })) ∧
      (s.drowsy = false → holds k.val → exec (.skvBufferAccess a k acc) s = .next (s.hold (.buffer a k.val acc))) ∧
      (s.drowsy = false → s.sliceFenced k.val = false → ¬holds k.val →
        (bufAdmits v a w (o / 512) = false → exec (.skvBufferAccess a k acc) s = .next (s.answer { status := .nowin })) ∧
        (bufAdmits v a w (o / 512) = true → bufTop v ≤ (o + n - 1) / 512 → exec (.skvBufferAccess a k acc) s = .next (s.answer { status := .bound })) ∧
        (bufAdmits v a w (o / 512) = true → (o + n - 1) / 512 < bufTop v → v.buf.poison = [] → v.buf.upsets = [] →
          ∃ u, exec (.skvBufferAccess a k acc) s = .next u ∧ u.reply = some { status := .ok, data := if w then [] else readBytes v.buf.bytes o n } ∧
            WroteOnly v.buf.bytes (u.slice k.val).skv.buf.bytes acc ∧ (u.slice k.val).mem = (s.slice k.val).mem ∧
            ∀ j, j ≠ k.val → u.slice j = s.slice j))) ∧
    (accWf (.write off.toNat data en) = true →
      (isPeer a = true → exec (.edgeWindowWrite a south off data en) s = .next (s.answer { status := .nowin })) ∧
      (isPeer a = false → s.drowsy = false → (∃ j, onEdge j ∧ holds j) →
        exec (.edgeWindowWrite a south off data en) s = .next (s.hold (.edge a south (.write off.toNat data en)))) ∧
      (isPeer a = false → (∀ j, onEdge j → s.sliceFenced j = true) → exec (.edgeWindowWrite a south off data en) s = .next (s.answer { status := .unreach })) ∧
      (isPeer a = false → s.drowsy = false → (∃ j, onEdge j ∧ s.sliceFenced j = false) → (∀ j, onEdge j → ¬holds j) →
        (∀ j, onEdge j → s.sliceFenced j = false → let y := (s.slice j).skv
          bufAdmits y a true (off.toNat / 512) = true ∧ (off.toNat + data.length - 1) / 512 < bufTop y ∧ y.buf.poison = [] ∧ y.buf.upsets = []) →
        ∃ u, exec (.edgeWindowWrite a south off data en) s = .next u ∧ u.reply = some { status := .ok } ∧
          ∀ j, (onEdge j ∧ s.sliceFenced j = false → WroteOnly (s.slice j).skv.buf.bytes (u.slice j).skv.buf.bytes (.write off.toNat data en)) ∧
            (¬(onEdge j ∧ s.sliceFenced j = false) → u.slice j = s.slice j)))

/-- R323, R329, R330, R335, R354 to R357: a descriptor's way through a slice: its posting is taken into an empty context's queue, it starts, its deliveries set out
and are answered, it completes; an access to a buffer window that admits it. -/
def Sys2Proof.Claims.SkiverSteps : Prop :=
  ∀ (s u : State) (id c n : Nat) (m : Msg) (k : Fin 80) (prio : Bool) (epoch : BitVec 16) (d : SkvDesc) (q : List SkvDesc) (ext : ExtAns) (x : SkvDel)
    (rest : List SkvDel) (h : Word) (a : Agent) (acc : Acc) (south : Bool) (off : BitVec 20) (data : List Byte) (en : List Bool),
    let y := s.slice k.val
    let v := y.skv
    let ctx := v.ctx prio
    let (o, len, w) := accSpan acc
    let put := fun (s : State) (f : SkvCtx → SkvCtx) => s.modSlice k.val (fun y => { y with skv := changedCtx y.skv prio f })
    (arriving s id = some m → m.target = .skiver none k.val prio epoch → m.sender = .thread s.lat.id.toNat c n → s.drowsy = false →
      s.sliceFenced k.val = false → y.clkOk = true → y.ready = true → Sys2Proof.Claims.postStatus s m k prio epoch = stOk →
      ∃ t, exec (.skiverPosting id) s = .next t ∧ (t.msg id).bind (·.status) = some stOk ∧ ((t.slice k.val).skv.ctx prio).queue.length = ctx.queue.length + 1) ∧
    (ctx.desc = none → ctx.queue = d :: q → d.stale = false → s.sliceFenced k.val = false → skvMay s = true →
      ∃ t, exec (.skvDescriptorStart k prio) s = .next t ∧ (t.slice k.val).skv.ctx prio = { desc := some d, queue := q, started := true }) ∧
    (ctx.desc = some d → ctx.dels = x :: rest → x.issued = false → x.hdr = some h → s.msg x.msg = none → sendMsg s (resultMsg s k x h d.cls) = some u →
      exec (.skvResultDelivery k prio ext) s = .next (put u (fun c => { c with dels := lset c.dels 0 { x with issued := true, msg := s.nextId } }))) ∧
    (ctx.desc = some d → ctx.dels = x :: rest → x.issued = true → x.hdr = none → x.status = some 0 →
      exec (.skvDeliveryStatus k prio) s = .next (put (fabFree s (512 + k.val) x.slot) (fun c => { c with dels := rest }))) ∧
    (ctx.desc = some d → ctx.executed = true → ctx.dels = [] →
      ∃ t, exec (.skvDescriptorComplete k prio) s = .next t ∧ (t.slice k.val).skv.ctx prio = { queue := ctx.queue }) ∧
    (accWf acc = true → s.drowsy = false → s.sliceFenced k.val = false → y.clkOk = true → y.ready = true → bufAdmits v a w (o / 512) = true →
      (o + len - 1) / 512 < bufTop v → v.buf.poison = [] → v.buf.upsets = [] →
      ∃ t, exec (.skvBufferAccess a k acc) s = .next t ∧ t.reply = some { status := .ok, data := if w then [] else readBytes v.buf.bytes o len }) ∧
    (accWf (.write off.toNat data en) = true → isPeer a = false → s.drowsy = false →
      (∀ j, j < 80 → (40 ≤ j ↔ south = true) → let z := s.slice j
        s.sliceFenced j = false ∧ z.clkOk = true ∧ z.ready = true ∧ bufAdmits z.skv a true (off.toNat / 512) = true ∧
          (off.toNat + data.length - 1) / 512 < bufTop z.skv ∧ z.skv.buf.poison = [] ∧ z.skv.buf.upsets = []) →
      ∃ t, exec (.edgeWindowWrite a south off data en) s = .next t ∧ t.reply = some { status := .ok })

namespace Sys2Proof.Claims

/-- A write that a core's keepers admit for an agent, in range, to a sound scratchpad (R148 to R150). -/
def keeperTakes (s : State) (a : Agent) (c o n : Nat) : Prop :=
  s.coreFenced c = false ∧ spadClean (s.core c) = true ∧
  ∃ k, findKeeper (s.core c).keep.k true (srcClass a c) (o / 512) 16 0 = some k ∧ (o + n - 1) / 512 < min (k.base + k.bound) 8192

/-- The class window after a response (R384). -/
def windowAfter (w : FabWin) (ce : Bool) : FabWin :=
  if ce = true ∧ w.win ≤ w.since then { win := max 1 (w.win / 2), since := 0, good := 0 }
  else if ce = false ∧ w.win ≤ w.good + 1 then { win := min 64 (w.win + 1), since := w.since + 1, good := 0 }
  else { win := w.win, since := w.since + 1, good := if ce then w.good else w.good + 1 }

/-- The plane that a re-send takes: the next in rotation that is not fenced (R375). -/
def planeAfter (s : State) (p : Nat) : Nat :=
  if s.fabric.planeFenced.getLsbD ((p + 1) % 4) = false then (p + 1) % 4
  else if s.fabric.planeFenced.getLsbD ((p + 2) % 4) = false then (p + 2) % 4
  else if s.fabric.planeFenced.getLsbD ((p + 3) % 4) = false then (p + 3) % 4
  else if s.fabric.planeFenced.getLsbD ((p + 4) % 4) = false then (p + 4) % 4
  else p

/-- A level of the congestion map from the counts and the counts of the last gathering, modulo 2^16 (R385). -/
def cmapLevel (pkts marked oldPkts oldMarked : BitVec 16) : BitVec 8 :=
  BitVec.ofNat 8 (min 255 (256 * (marked - oldMarked).toNat / max 1 (pkts - oldPkts).toNat))

/-- The lanes of every link are on, and no frame waits for one (R408). -/
def lanesOn (s : State) : Prop := ∀ i, (s.link i).laneOff = 0 ∧ (s.link i).egress = []

/-- The link carries packets and the frame, one flit, has come through the FEC in good order (R404, R416). -/
def frameGood (s : State) (l : Fin 48) (f : Frame) : Prop :=
  linkUsable s l.val = true ∧ f.fecOk = true ∧ f.ok (linkPerica s l.val) = true ∧ f.fctl = 0 ∧ lanesOn s ∧ f.payload ≠ [] ∧ f.len = 1

/-- A frame of one flit for this device from a peer, intact, on a link that carries packets, of whose packet nothing has come. -/
def frameHere (s : State) (l : Fin 48) (f : Frame) : Prop :=
  frameGood s l f ∧ framesCrcOk [f] = true ∧ (f.ddev = s.lat.id.toNat ∨ 992 ≤ f.ddev) ∧
    (∀ p ∈ s.lat.parts, p.key ≠ f.key * 48 + l.val)

/-- The group port of a link has a free slot for a peer's request (R372, R411). -/
def groupSlotFree (s : State) (l : Fin 48) : Prop := ∃ n, n < 128 ∧ ((s.port (594 + l.val / 16)).slot n).busy = false

/-- The response of a class-0 request leaves over link `m` in one frame, with kind `k` and these bytes (R404, R407). -/
def Answered (s u : State) (m : Nat) (f : Frame) (k : Nat) (b : List Byte) : Prop :=
  ∃ x, u.outbox = s.outbox ++ [.frame (Fin.ofNat 48 m) x] ∧ x.sdev = s.lat.id.toNat ∧ x.ddev = f.sdev ∧ x.rsp = true ∧ x.kind = k ∧
    x.src = f.src ∧ x.slot = f.slot ∧ x.gen = f.gen ∧ x.ce = f.cm ∧ x.cls = 0 ∧ x.len = 1 ∧ x.bytes = b ∧ framesCrcOk [x] = true

/-- Link `m` is the next one, in its own format, of the minimal route back to a frame's source. -/
def wayBack (s : State) (f : Frame) (m : Nat) : Prop :=
  f.cls = 0 ∧ f.sdev ≠ s.lat.id.toNat ∧ gangLink s (minimalHop s.lat.id.toNat f.sdev) = some m ∧ linkPerica s m = false

/-- The link a forwarded packet of one flit takes: the first usable one behind the last taken of its entry (R407, R408). -/
def forwardLink (s : State) (f : Frame) : Option Nat :=
  let row := f.ddev / 32 = s.lat.id.toNat / 32
  let entry := if row then tget linkRowDef s.lat.rows (f.ddev % 32) else tget linkRowDef s.lat.cols (f.ddev / 32)
  let atTarget := row ∨ f.ddev % 32 = s.lat.id.toNat % 32
  let last := tget (fun _ => 47) s.lat.gang (if row then f.ddev % 32 else 32 + f.ddev / 32)
  ((countFrom (last + 1) 48).map (· % 48)).find? (fun l => entry.getLsbD l && linkUsable s l && (decide atTarget || !linkPerica s l))

/-- Devices of this device's row or column that a multicast reaches, in ascending order (R409). -/
def reached (s : State) (rc : RowCol) : List Nat :=
  let me := s.lat.id.toNat
  (countFrom 0 25).filterMap (fun n => match rc with
    | .row => if n ≠ me % 32 ∧ entryUsable s true (tget linkRowDef s.lat.rows n) then some (me / 32 * 32 + n) else none
    | .column => if n ≠ me / 32 ∧ entryUsable s true (tget linkRowDef s.lat.cols n) then some (n * 32 + me % 32) else none)

end Sys2Proof.Claims

/-- R315, R378, R379, R381, R384, R406, R411, R432: a row or column multicast is written in all eight cores; an arriving request
is performed once under the map of its issue, recorded and answered with its mark; its repetition is answered with the recorded
status; a bad check word is counted and nothing else; a message's packet reaches its target; a request for the aperture goes to
the host; what is no request packet, or was lost with its plane, does nothing (log 88). -/
def Sys2Proof.Claims.MeshRequests : Prop :=
  (∀ (s u : State) (a : Agent) (rc : RowCol) (i : Fin 8) (off : BitVec 25) (data : List Byte) (en : List Bool) (p j : Nat),
    let acc : Acc := .write (windowAddr (decide (rc = .column)) i.val off.toNat) data en
    let o := off.toNat % 0x400000
    let hit := fun (c : Nat) => c % 8 = off.toNat / 0x400000 ∧ c / 64 < 8 ∧ if rc = .column then c / 8 % 8 = i.val else c / 64 = i.val
    accWf acc = true →
    (a ≠ .host → agentPort a = some p → sendReq s p (agentClass s a) acc = (.slot j, u) →
      recorded u (windowAddr (decide (rc = .column)) i.val off.toNat) p j ((u.port p).slot j).gen acc = none →
      s.drowsy = false → (∀ c, hit c → Sys2Proof.Claims.keeperTakes s a c o data.length) →
      ∃ t, exec (.meshMulticastWrite a rc i off data en) s = .next t ∧ t.reply = some { status := .ok } ∧
        (∀ c, hit c → WroteOnly (s.core c).spad.mem.bytes (t.core c).spad.mem.bytes (.write o data en)) ∧
        (∀ c, ¬hit c → t.core c = s.core c) ∧ ((t.port p).slot j).busy = false) ∧
    (∀ d, a = .peer d → exec (.meshMulticastWrite a rc i off data en) s = .next (s.answer { status := .nowin })) ∧
    (a = .host ∨ a = .mgmt → exec (.meshMulticastWrite a rc i off data en) s = .next s)) ∧
  (∀ (s : State) (a : Agent) (h : Packet) (addr : BitVec 48) (acc : Acc) (ext : ExtAns) (t : Nat) (k : Fin 80) (o : Nat) (m : Msg),
    let go := exec (.meshArrival a h addr acc ext) s
    let (_, n, w) := accSpan acc
    let at_ := accAt addr.toNat acc
    let map := packetMap s h
    let c := unitCluster ((targetOf { s with smap := map } addr.toNat).getD 700)
    let x := dupGet s t h.src.val h.slot.val
    let isMsg := h.kind = .record ∨ h.kind = .contribution ∨ h.kind = .posting
    let lost := packetLive s h = true ∧ slotLost s h.src.val h.slot.val = true
    let cached := beforeDma (countArrival s h addr.toNat) a at_ = some (countArrival s h addr.toNat)
    (¬isMsg → Packet.isRequest a h addr.toNat acc = false ∨ lost → go = .next s) ∧
    (isMsg → h.rsp = true ∨ packetFrom a h = false ∨ packetMsg s h = none → go = .next s) ∧
    (isMsg → h.rsp = false → packetFrom a h = true → packetMsg s h = some m →
      (packetCrcOk h (msgBytes m) = true → go = .next (reachTarget m s)) ∧
      (∀ u, m.target.dest = .unit u → packetCrcOk h (msgBytes m) = false →
        go = .next (s.modCluster (unitCluster u) (fun y => { y with crc := y.crc + 1 })))) ∧
    (Packet.isRequest a h addr.toNat acc = true → ¬lost → packetCrcOk h (accPayload acc) = false →
      ∃ u, go = .next u ∧ (u.cluster c).crc = (s.cluster c).crc + 1 ∧ u.cores = s.cores ∧ u.slices = s.slices ∧ u.reply = s.reply) ∧
    (Packet.isRequest a h addr.toNat acc = true → ¬lost → packetCrcOk h (accPayload acc) = true →
      apWaits s h.src.val h.slot.val h.gen at_ = none → targetOf { s with smap := map } addr.toNat = some t →
      ((∀ d, a ≠ .peer d) → cached → w = true → x.gen = h.gen → x.valid = true → x.status < 5 →
        ∃ u, go = .next u ∧ u.reply = some { status := statusOfNat x.status, poison := decide (x.status = 3), ce := h.cm } ∧
          u.cores = s.cores ∧ u.slices = s.slices) ∧
      (hbmAt s map addr.toNat n k o →
        ((∀ d, a ≠ .peer d) → cached → w = false → ∃ u, go = .next u ∧ u.slices = s.slices ∧
          u.reply = some { status := .ok, data := readBytes (s.slice k.val).mem.bytes o n, ce := h.cm } ∧
          dupGet u t h.src.val h.slot.val = { gen := h.gen, status := 0, valid := true }) ∧
        ((∀ d, a ≠ .peer d) → cached → w = true → x.gen ≠ h.gen ∨ x.valid = false →
          ∃ u, go = .next u ∧ u.reply = some { status := .ok, ce := h.cm } ∧
          WroteOnly (s.slice k.val).mem.bytes (u.slice k.val).mem.bytes (accAt o acc) ∧ (∀ j, j ≠ k.val → u.slice j = s.slice j) ∧
          dupGet u t h.src.val h.slot.val = { gen := h.gen, status := 0, valid := true }) ∧
        (∀ d, a = .peer d → s.lat.memen = true → w = true → (s.slice k.val).remote.length < 1024 →
          (∀ y ∈ (s.slice k.val).remote, y.key ≠ remoteKey d.toNat h.src.val h.slot.val) →
          ∃ u, go = .next u ∧ u.reply = some { status := .ok, ce := h.cm } ∧
            WroteOnly (s.slice k.val).mem.bytes (u.slice k.val).mem.bytes (accAt o acc) ∧
            (u.slice k.val).remote.map (fun y => (y.key, y.gen, y.status)) =
              (s.slice k.val).remote.map (fun y => (y.key, y.gen, y.status)) ++ [(remoteKey d.toNat h.src.val h.slot.val, h.gen, 0)])) ∧
      (∀ d, a = .peer d → w = false → peerMay { s with smap := map } addr.toNat = false →
        ∃ u, go = .next u ∧ u.reply = some { status := .nowin, ce := h.cm } ∧ u.cores = s.cores ∧ u.slices = s.slices) ∧
      (∀ off, (∀ d, a ≠ .peer d) → cached → apertureAt s at_ = some off → recorded s addr.toNat h.src.val h.slot.val h.gen at_ = none →
        ∃ u, go = .next u ∧ u.reply = s.reply ∧ ∃ r ∈ u.host.waiting, r.slot = some (h.src.val, h.slot.val, h.gen) ∧
          r.acc = accIn off at_ ∧ r.hpa = apertureHpa s off)))

/-- R371, R379, R380, R382, R384: a response frees the slot of its request, whose generation advances, moves its class window by
the mark of the request (a peer's by its own) and gives a waiting access its answer; one to a free slot or of another
generation is discarded, one with a bad check word counted; a request that has waited its timeout leaves again; at the limit
of attempts the source counts the fault and the host is told. -/
def Sys2Proof.Claims.MeshResponsesAndResends : Prop :=
  ∀ (s : State) (port : Fin 597) (slot : Fin 128) (h : Packet) (data : List Byte) (mcol : Fin 25) (ans : Nat × List Byte),
    let p := s.port port.val
    let x := p.slot slot.val
    let onSlice := decide (512 ≤ port.val) && decide (port.val < 592)
    let mx := if onSlice then (s.slice (port.val - 512)).sretryMax else (s.cluster (portCluster port.val)).retryMax
    let tmo := if onSlice then (s.slice (port.val - 512)).sretryTimeout else (s.cluster (portCluster port.val)).retryTimeout
    let unit := if port.val < 512 then 2 ^ 16 + port.val / 8 else if port.val < 592 then 2 * 2 ^ 16 + (port.val - 512)
      else if port.val = 592 then 7 * 2 ^ 16 else if port.val = 593 then 2 ^ 16 + 24 else 10 * 2 ^ 16 + (port.val - 594)
    let kept := fun (u : State) => u.cores = s.cores ∧ u.slices = s.slices ∧ u.msgs = s.msgs ∧
      (∀ q n, (u.port q).slot n = (s.port q).slot n) ∧ ∀ q, (u.port q).wins = (s.port q).wins
    let again := fun (u : State) => let y := (u.port port.val).slot slot.val
      y = { x with attempts := x.attempts + 1, sent := portClock s port.val, plane := y.plane, cm := y.cm, lost := y.lost,
                   dest := y.dest, mcol := y.mcol }
    let k := portCluster port.val
    let sent := fun (i : Instr) (mx tmo : Nat) (P : State → Prop) => x.busy = true →
      (portClock s port.val < x.sent + tmo → exec i s = .next s) ∧
      (x.sent + tmo ≤ portClock s port.val → x.attempts ≠ mx → ∃ u, exec i s = .next u ∧ again u ∧ P u ∧ u.cp = s.cp ∧
        (u.cluster k).fault = (s.cluster k).fault ∧
        (port.val < 512 → (u.cluster k).resend = (s.cluster k).resend + 1)) ∧
      (x.sent + tmo ≤ portClock s port.val → x.attempts = mx → portFree s = true → s.cp.notices.length < 256 →
        ∃ u, exec i s = .next u ∧ again u ∧ P u ∧ (u.cluster k).fault = (s.cluster k).fault + 1 ∧
          u.cp.notices = s.cp.notices ++ [⟨4, BitVec.ofNat 64 unit, BitVec.ofNat 64 (mx % 2 ^ 32 * 2 ^ 32 + 1)⟩])
    let turned := fun (u : State) => x.rein = false → x.cls = 0 → (u.port port.val).plane = Sys2Proof.Claims.planeAfter s p.plane
    (h.rsp = true → packetLenOk x.rein h = true → responseOf h.kind data = some ans → h.slot = slot →
      (packetCrcOk h data = true → x.busy = true → x.gen = h.gen →
        ∃ u, exec (.meshResponse port h data) s = .next u ∧ (u.port port.val).slot slot.val = { gen := !x.gen } ∧
          (x.rein = false → x.cls ≠ 0 → (u.port port.val).win x.cls = Sys2Proof.Claims.windowAfter (p.win x.cls) (if x.dest.remote then h.ce else x.cm)) ∧
          (x.rein = true ∨ x.cls = 0 → (u.port port.val).wins = p.wins) ∧
          (∀ q n, q ≠ port.val ∨ n ≠ slot.val → (u.port q).slot n = (s.port q).slot n) ∧
          (∀ (t : Tid) g, t.core.val = port.val → (s.thr t).held = some (.acc g) → g.slot = slot.val → ans.1 ≠ 16 + stFull →
            (u.thr t).held = some (.acc { g with slot := 128, answer := some ans }))) ∧
      (packetCrcOk h data = true → x.busy = false ∨ x.gen ≠ h.gen → ∃ u, exec (.meshResponse port h data) s = .next u ∧ kept u ∧ u.clusters = s.clusters) ∧
      (packetCrcOk h data = false → ∃ u, exec (.meshResponse port h data) s = .next u ∧ kept u ∧ (u.cluster k).crc = (s.cluster k).crc + 1)) ∧
    (x.dest.remote = false → sent (.meshResendTimeout port slot) mx tmo (fun u => turned u ∧ ((u.port port.val).slot slot.val).lost = false ∧
      ((u.port port.val).slot slot.val).dest = x.dest ∧ ((u.port port.val).slot slot.val).mcol = x.mcol)) ∧
    (x.dest.remote = true → mcol.val = s.lat.id.toNat % 32 ∨ entryUsable s false (tget linkRowDef s.lat.rows mcol.val) = true →
      sent (.latResendTimeout port slot mcol) s.lat.retryMax s.lat.timeout (fun _ => True) ∧
      (∀ b m, x.busy = true → x.sent + s.lat.timeout ≤ portClock s port.val → x.body = some b → x.cls = 0 → x.dev < 992 →
        gangLink s (minimalHop s.lat.id.toNat x.dev) = some m →
        ∃ u, exec (.latResendTimeout port slot mcol) s = .next u ∧ turned u ∧ ((u.port port.val).slot slot.val).lost = false ∧
          ((s.link m).laneOff = 0 → (s.link m).egress = [] → s.outbox.length < u.outbox.length)))

/-- R35, R385, R391, R411, R506: a bucket gains its rate up to its depth once for each window of its source's clock; the running
firmware gathers the congestion map; a plane that has had 50 µs to drain; a remote record that has been held. -/
def Obligations.FabricUpkeep : Prop :=
  ∀ (s : State) (port : Fin 597) (p : Fin 4) (unit : Fin 80) (key : Nat) (m : Nat × Nat),
    let filled := fun (clock win : Nat) (b : Bucket) =>
      if b.en = true ∧ b.since + win ≤ clock then { b with tokens := min b.depth (b.tokens + b.rate), since := b.since + win } else b
    let onSlice := (s.slice (port.val - 512)).clock / 10240
    (port.val < 512 → let k := port.val / 8
      let f := filled (s.cluster k).pacer (s.cluster k).tbwin.toNat
      ∃ u, exec (.tokenBucketRefill port) s = .next u ∧
        tget bucketDef (u.cluster k).meshTb (port.val % 8) = f (tget bucketDef (s.cluster k).meshTb (port.val % 8)) ∧
        tget bucketDef (u.cluster k).reinTb (port.val % 8) = f (tget bucketDef (s.cluster k).reinTb (port.val % 8)) ∧
        u.cores = s.cores ∧ u.slices = s.slices) ∧
    (512 ≤ port.val → port.val < 592 → let f := filled onSlice (s.slice (port.val - 512)).swin.toNat
      ∃ u, exec (.tokenBucketRefill port) s = .next u ∧
        (u.slice (port.val - 512)).stb = f (s.slice (port.val - 512)).stb ∧ (u.slice (port.val - 512)).rtb = f (s.slice (port.val - 512)).rtb ∧
        u.clusters = s.clusters) ∧
    (port.val = 593 → exec (.tokenBucketRefill port) s =
      .next { s with cp := { s.cp with bucket := filled (s.cluster 24).pacer (s.cluster 24).tbwin.toNat s.cp.bucket } }) ∧
    (s.mgmt.fwRun = false → exec .cmapGather s = .next s) ∧
    (s.mgmt.fwRun = true → m.1 < 4 → m.2 < 64 → ∃ u, exec .cmapGather s = .next u ∧ u.fabric.cmapValid = true ∧ u.fabric.cmapSeq = s.fabric.cmapSeq + 1 ∧
      u.clusters = s.clusters ∧ u.fabric.ports = s.fabric.ports ∧
      let i := 64 * m.1 + m.2
      tget (fun _ => 0) u.fabric.cmap i = Sys2Proof.Claims.cmapLevel (tget cnt16Def s.fabric.pkts i) (tget cnt16Def s.fabric.marked i)
        (tget cnt16Def s.fabric.cmapPkts i) (tget cnt16Def s.fabric.cmapMarked i)) ∧
    (tget natDef s.fabric.drainSince p.val + 50000 ≤ s.mgmt.time →
      ∃ u, exec (.planeFenceDrainTimeout p) s = .next u ∧
        u.fabric.planeDraining = s.fabric.planeDraining &&& ~~~(BitVec.ofNat 4 (2 ^ p.val)) ∧
        u.fabric.planeFenced = s.fabric.planeFenced ∧ u.cores = s.cores ∧ u.slices = s.slices ∧ u.msgs = s.msgs ∧
        ∀ q n, let y := (s.port q).slot n
          (u.port q).slot n = if s.fabric.planeDraining.getLsbD p.val = true ∧ y.busy = true ∧ y.rein = false ∧ y.dest.remote = false ∧
            y.plane = p.val then { y with lost := true } else y) ∧
    (s.mgmt.time < tget natDef s.fabric.drainSince p.val + 50000 → exec (.planeFenceDrainTimeout p) s = .next s) ∧
    exec (.remoteRecordExpiry true unit key) s = .next (s.modSlice unit.val (fun x => { x with
      remote := x.remote.filter (fun r => decide (r.key ≠ key) || decide ((s.slice unit.val).clock / 10240 < r.since + 100 * s.lat.hold)) })) ∧
    (unit.val < 64 → exec (.remoteRecordExpiry false unit key) s = .next (s.modCluster unit.val (fun x => { x with
      remote := x.remote.filter (fun r => decide (r.key ≠ key) || decide ((s.cluster unit.val).pacer < r.since + 100 * s.lat.hold)) })))

/-- R374, R384, R404, R406 to R411, R416, R418: frames of one flit. A frame that the FEC could not correct is discarded and counted; a link
that is not used takes none; a read or write of a peer is performed for it and answered in a frame; what a peer may not reach
is answered NOWIN; a response frees its slot; a packet for another device goes on over the next usable link of its entry,
and one without such a link is answered UNREACH. A frame's FCTL says which lanes are on: what waits for one that comes on leaves,
and a frame whose lane is off waits. A multicast reaches every device of the line with a usable link, once. -/
def Sys2Proof.Claims.LatigoFrames : Prop :=
  ∀ (s : State) (l : Fin 48) (f : Frame) (m : Nat),
    let x := s.link l.val
    let q := (s.port f.src).slot f.slot
    let ga := f.w1.toNat % 2 ^ 48
    let go := exec (.frameReceive l f) s
    (linkUsable s l.val = true → f.fecOk = false → ∃ u, go = .next u ∧ (u.link l.val).uncorr = x.uncorr + 1 ∧
      u.cores = s.cores ∧ u.slices = s.slices ∧ u.outbox = s.outbox ∧ u.fabric = s.fabric) ∧
    (linkUsable s l.val = false → go = .next s) ∧
    (linkUsable s l.val = true → f.fecOk = true → f.ok (linkPerica s l.val) = true → f.payload = [] →
      ∃ u, go = .next u ∧ (u.link l.val).laneOff = f.fctl ∧ (u.link l.val).egress = x.egress.filter (fun p => f.fctl.getLsbD p.1) ∧
        u.outbox = s.outbox ++ (x.egress.filter (fun p => !f.fctl.getLsbD p.1)).map (fun p => Out.frame l p.2) ∧
        u.cores = s.cores ∧ u.slices = s.slices ∧ u.fabric = s.fabric) ∧
    (Sys2Proof.Claims.frameHere s l f → f.rsp = false → wayBack s f m → Sys2Proof.Claims.groupSlotFree s l →
      (∀ (k : Fin 80) (o : Nat), s.lat.memen = true →
        (f.kind = 0 → hbmAt s s.smap ga f.plen k o → ∃ u, go = .next u ∧ u.cores = s.cores ∧ u.slices = s.slices ∧
          Sys2Proof.Claims.Answered s u m f 6 (readBytes (s.slice k.val).mem.bytes o f.plen)) ∧
        (f.kind = 1 → hbmAt s s.smap ga f.plen k o → (s.slice k.val).remote.length < 1024 →
          (∀ y ∈ (s.slice k.val).remote, y.key ≠ remoteKey f.sdev f.src f.slot) →
          ∃ u, go = .next u ∧ u.cores = s.cores ∧ WroteAt (s.slice k.val).mem.bytes (u.slice k.val).mem.bytes o (f.payload.take f.plen) ∧
            (∀ j, j ≠ k.val → u.slice j = s.slice j) ∧ Sys2Proof.Claims.Answered s u m f 5 [0])) ∧
      (f.kind ≤ 1 → peerMay s ga = false → (f.kind = 1 → storeGet s (storeAt ((targetOf s ga).getD 700)) = []) →
        ∃ u, go = .next u ∧ u.cores = s.cores ∧ Sys2Proof.Claims.Answered s u m f 5 [1])) ∧
    (Sys2Proof.Claims.frameHere s l f → f.rsp = true → f.kind = 5 ∨ f.kind = 6 → q.busy = true → q.dest.remote = true → q.gen = f.gen →
      q.dev = f.sdev → q.dev < 992 → f.src < 512 →
      ∃ u, go = .next u ∧ (u.port f.src).slot f.slot = { gen := !q.gen } ∧ u.slices = s.slices ∧ u.outbox = s.outbox ∧
        ∀ (t : Tid) g, t.core.val = f.src → (s.thr t).held = some (.acc g) → g.slot = f.slot → f.kind = 6 →
          (u.thr t).held = some (.acc { g with slot := 128, answer := some (0, f.payload.take f.plen) })) ∧
    (linkUsable s l.val = true → f.fecOk = true → f.ok (linkPerica s l.val) = true → f.fctl = x.laneOff → x.egress = [] → f.payload ≠ [] →
      f.len = 1 → f.ddev ≠ s.lat.id.toNat → f.ddev < 992 → (∀ p ∈ s.lat.fwd, p.key ≠ f.key * 48 + l.val) →
      Sys2Proof.Claims.forwardLink s f = some m → linkPerica s m = false →
      (s.link m).laneOff.getLsbD (f.cls * 6 + b2n f.rsp * 3 + if f.ddev / 32 = s.lat.id.toNat / 32 then 2 else 1) = true →
      ∃ u, go = .next u ∧ u.outbox = s.outbox ∧ (u.link m).egress.length = (s.link m).egress.length + 1) ∧
    (Sys2Proof.Claims.frameGood s l f → f.ddev ≠ s.lat.id.toNat → f.ddev < 992 → (∀ p ∈ s.lat.fwd, p.key ≠ f.key * 48 + l.val) →
      (Sys2Proof.Claims.forwardLink s f = some m → linkPerica s m = false →
        ∃ u y, go = .next u ∧ u.cores = s.cores ∧ u.slices = s.slices ∧ u.outbox = s.outbox ++ [.frame (Fin.ofNat 48 m) y] ∧
          y.hop = (if f.ddev / 32 = s.lat.id.toNat / 32 then 2 else 1) ∧ y.w1 = f.w1 ∧ y.crc = f.crc ∧ y.plen = f.plen ∧ y.bytes = f.bytes ∧
          (y.sdev, y.ddev, y.mcol, y.cls, y.rsp, y.kind) = (f.sdev, f.ddev, f.mcol, f.cls, f.rsp, f.kind) ∧
          (y.src, y.slot, y.gen, y.len, y.fidx) = (f.src, f.slot, f.gen, f.len, f.fidx)) ∧
      (Sys2Proof.Claims.forwardLink s f = none → f.rsp = false → ∃ u, go = .next u ∧ u.lat.noroute = s.lat.noroute + 1 ∧
        ∀ k, wayBack s f k → Sys2Proof.Claims.Answered s u k f 5 [BitVec.ofNat 8 (if f.kind ≤ 1 then 4 else 16 + stUnreach)])) ∧
    (∀ (u : State) (a : Agent) (rc : RowCol) (addr : BitVec 48) (data : List Byte) (p n : Nat),
      let to_ := Sys2Proof.Claims.reached s rc
      let win := if rc = .column then 993 else 992
      let acc : Acc := .write (2 ^ 58 + win * 2 ^ 48 + addr.toNat) data (allOn data)
      Sys2Proof.Claims.lanesOn s → isDevice s.lat.id.toNat = true → agentPort a = some p → a ≠ .host → accWf acc = true → sendReq s p (agentClass s a) acc = (.slot n, u) →
      (∀ d ∈ to_, entryUsable s false (match rc with
        | .row => tget linkRowDef s.lat.rows (d % 32)
        | .column => tget linkRowDef s.lat.cols (d / 32)) = true) →
      ∃ t, ∃ fr : List (Fin 48 × Frame), exec (.latigoMulticast a rc addr data (to_.map (fun d => (d, Status.ok)))) s = .next t ∧ t.reply = some { status := .ok } ∧
        t.outbox = s.outbox ++ fr.map (fun y => Out.frame y.1 y.2) ∧
        fr.map (fun y => (y.2.ddev, y.2.mcol, y.2.bytes)) = to_.map (fun d => (win, d % 32, data)))

/-- R408, R410, R416, R419, R497, R543: the stages of training, which takes a locked group and power and starts once start-up has
ended; the restart of a failed one after 1 ms; a link that goes down, the loss of the reference and a group clock that locks.
A link that is not up holds no lane's state and no frame. The telemetry of a link's state is the model's (log 89). -/
def Sys2Proof.Claims.LatigoLinks : Prop :=
  ∀ (s : State) (l : Fin 48) (b0 b1 : Bool) (ns : Nat) (peer : BitVec 10) (g : Fin 3),
    let x := s.link l.val
    let lanes : BitVec 2 := BitVec.ofNat 2 (b2n b0 + 2 * b2n b1) &&& ~~~x.laneFenced
    let put := fun (f : LinkSt → LinkSt) => Host.Outcome.next (s.modLink l.val (fun x => { f x with laneOff := 0, egress := [] }))
    let failed := fun (x : LinkSt) => { x with stage := stageFailed, failedAt := s.mgmt.time }
    (x.isFenced = false → (tget groupDef s.lat.groups (l.val / 16)).locked = true → s.pwr.state ≠ 3 →
      (x.st = 0 → s.mgmt.booted = true → exec (.linkTraining l .start) s =
        .next ((s.modLink l.val (fun x => { x with st := 1, stage := 0, laneOff := 0, egress := [] })).out (.linkState l.val 1))) ∧
      (x.st = 0 → s.mgmt.booted = false → exec (.linkTraining l .start) s = .next s) ∧
      (x.st = 1 → x.stage = 0 → exec (.linkTraining l (.equalise b0 b1)) s =
        put (fun x => if lanes = 0 then failed { x with lanes := 0 } else { x with lanes := lanes, stage := 1 })) ∧
      (x.st = 1 → x.stage = 1 → exec (.linkTraining l (.measure ns)) s = put (fun x => if 50 < ns then failed x else { x with stage := 2 })) ∧
      (x.st = 1 → x.stage = 2 → isDevice peer.toNat = true → ∃ u c, exec (.linkTraining l (.exchange peer)) s = .next u ∧ (u.link l.val).st = 2 ∧
        (u.link l.val).peer = peer ∧ (u.link l.val).lanes = x.lanes ∧ u.cores = s.cores ∧ u.lat.rows = s.lat.rows ∧ u.lat.cols = s.lat.cols ∧
        u.outbox = s.outbox ++ [.linkState l.val 2, .frame l c] ∧ c.payload = []) ∧
      (x.st = 1 → x.stage = 2 → isDevice peer.toNat = false → exec (.linkTraining l (.exchange peer)) s = put failed)) ∧
    ((tget groupDef s.lat.groups (l.val / 16)).locked = false → exec (.linkTraining l .start) s = .next s) ∧
    (x.st = 1 → x.stage = stageFailed → exec (.linkTrainingRetry l) s =
      .next (if x.failedAt + 1000000 ≤ s.mgmt.time then s.modLink l.val (fun x => { x with stage := 0, lanes := 0 }) else s)) ∧
    (x.st = 2 → x.isFenced = false → s.cp.streams = [] → s.cp.toCp = none → s.cpUp = true → s.cp.notices.length < 256 →
      ∃ u, exec (.linkDown l) s = .next u ∧ (u.link l.val).st = 0 ∧
      (u.link l.val).lanes = 0 ∧ (u.link l.val).egress = [] ∧ (u.link l.val).uncorr = x.uncorr ∧ (u.link l.val).peer = x.peer ∧
      (u.link l.val).mismatch = x.mismatch ∧ u.outbox = s.outbox ++ [.linkState l.val 0] ∧
      u.cp.notices = s.cp.notices ++ [⟨4, BitVec.ofNat 64 (4 * 2 ^ 16 + l.val), 3⟩]) ∧
    (x.st ≠ 2 → exec (.linkDown l) s = .next s) ∧
    (∃ u, exec .latigoRefclkLoss s = .next u ∧ (∀ j, j < 3 → (tget groupDef u.lat.groups j).locked = false) ∧ ∀ j, j < 48 → (u.link j).st = 0) ∧
    exec (.groupClockLock g) s = .next { s with lat := { s.lat with groups := tmod groupDef s.lat.groups g.val (fun x => { x with locked := true }) } }

/-- R408 to R410, R416, R419: what a link's events do: training starts, a failed one starts again after 1 ms, a link leaves UP, the groups lose and find
their clock; a frame that carries only lane states sets them; a multicast that every device of the line acknowledges is OK. -/
def Sys2Proof.Claims.LinkEvents : Prop :=
  ∀ (s : State) (l : Fin 48) (f : Frame) (g : Fin 3),
    let x := s.link l.val
    (x.isFenced = false → (tget groupDef s.lat.groups (l.val / 16)).locked = true → s.pwr.state ≠ 3 → s.mgmt.booted = true → x.st = 0 →
      exec (.linkTraining l .start) s =
        .next ((s.modLink l.val (fun x => { x with st := 1, stage := 0, laneOff := 0, egress := [] })).out (.linkState l.val 1))) ∧
    (x.st = 1 → x.stage = stageFailed → x.failedAt + 1000000 ≤ s.mgmt.time →
      exec (.linkTrainingRetry l) s = .next (s.modLink l.val (fun x => { x with stage := 0, lanes := 0 }))) ∧
    (x.st = 2 → x.isFenced = false → ∃ u, exec (.linkDown l) s = .next u ∧ (u.link l.val).st = 0 ∧ (u.link l.val).lanes = 0) ∧
    (∃ u, exec .latigoRefclkLoss s = .next u ∧ ∀ j, j < 3 → (tget groupDef u.lat.groups j).locked = false) ∧
    (∃ u, exec (.groupClockLock g) s = .next u ∧ (tget groupDef u.lat.groups g.val).locked = true ∧ u.lat.links = s.lat.links) ∧
    (linkUsable s l.val = true → f.fecOk = true → f.ok (linkPerica s l.val) = true → f.payload = [] →
      ∃ u, exec (.frameReceive l f) s = .next u ∧ (u.link l.val).laneOff = f.fctl ∧ u.cores = s.cores ∧ u.slices = s.slices) ∧
    (∀ (u : State) (a : Agent) (rc : RowCol) (addr : BitVec 48) (data : List Byte) (p n : Nat),
      let to_ := Sys2Proof.Claims.reached s rc
      let acc : Acc := .write (2 ^ 58 + (if rc = .column then 993 else 992) * 2 ^ 48 + addr.toNat) data (allOn data)
      isDevice s.lat.id.toNat = true → agentPort a = some p → a ≠ .host → accWf acc = true → sendReq s p (agentClass s a) acc = (.slot n, u) →
      (∀ d ∈ to_, entryUsable s false (match rc with
        | .row => tget linkRowDef s.lat.rows (d % 32)
        | .column => tget linkRowDef s.lat.cols (d / 32)) = true) →
      ∃ t, exec (.latigoMulticast a rc addr data (to_.map (fun d => (d, Status.ok)))) s = .next t ∧ t.reply = some { status := .ok })

namespace Sys2Proof.Claims

/-- CXL.cache and CXL.mem pass the port: it is in service and their stream not Insecure (R436, R510). -/
def cmUp (s : State) : Prop := s.cp.portOut = false ∧ s.host.cmInsecure = false

/-- The same of CXL.io, whose traffic two streams may carry (log 92). -/
def ioUp (s : State) : Prop := s.cp.portOut = false ∧ s.host.ideInsecure = false ∧ s.host.selInsecure = false

/-- The function takes the host's requests to its windows: the port passes them and it is in D0 (R420, R436). -/
def ioTakes (s : State) : Prop := ioUp s ∧ s.host.d3hot = false

/-- The port takes CXL.mem requests, and the line of a DPA lies at offset `o` of slice `k`, which serves, without marks. -/
def hostLine (s : State) (dpa : BitVec 52) (k : Fin 80) (o : Nat) : Prop :=
  s.host.mem = true ∧ cmUp s ∧ s.mgmt.booted = true ∧ dpa.toNat % 64 = 0 ∧ dpaPlace s dpa.toNat = some (k.val, o) ∧
  o + 64 ≤ 0x300000000 ∧ sliceServes s k.val = true ∧ (s.slice k.val).mem.poison = [] ∧ (s.slice k.val).mem.upsets = []

/-- The host's request for a line of slice `k` takes slot `n` at the host port (R372, R429). -/
def hostSlot (s : State) (k : Fin 80) (write : Bool) (n : Nat) (u : State) : Prop :=
  fabAlloc s 592 s.host.cls.toNat false (.unit (512 + k.val)) (if write then 1 else 2) = some (n, u)

/-- HIF_ERR, HIF_MEMERR_ADDR and the RAS status after an outcome other than "Performed" (R430). -/
def memErrKept (s u : State) (dpa : BitVec 52) : Prop :=
  u.host.memErr = s.host.memErr + 1 ∧ u.host.memErrValid = true ∧ u.host.memErrAddr = BitVec.ofNat 48 dpa.toNat ∧ u.host.rasMemErr = true ∧ u.slices = s.slices

/-- A vector whose message may go: MSI-X enabled, the vector not masked, with an address, Function Mask clear, Bus Master set, the
function in D0 (R420, R435; log 7). -/
def vectorOpen (s : State) (m : MsixEnt) : Bool :=
  s.host.msixEn && !m.masked && decide (m.addr ≠ 0) && !s.host.funcMask && s.host.busMaster && !s.host.d3hot

/-- An aperture access that goes out to the host (R432). -/
def apertureGoes (s : State) (o n : Nat) : Prop :=
  s.host.busMaster = true ∧ s.host.mode ≠ 0 ∧ o + n ≤ 4096 * s.host.apSize ∧ s.host.ideInsecure = false ∧ s.host.selInsecure = false

/-- An agent whose aperture accesses go by the mesh: no peer (R406), nor the host or the management plane (R24). -/
def apertureAgent (a : Agent) : Prop := (∀ d, a ≠ .peer d) ∧ a ≠ .host ∧ a ≠ .mgmt

/-- A new doorbell value of a pair (R426, R440): in its limits it is taken; else the pair is in error and the host is told. -/
def bellTaken (s u : State) (p : Nat) (cq : Bool) (v : Half) : Prop :=
  let r := s.ring p
  let n : BitVec 16 := v.truncate 16
  let within := v.toNat < 65536 ∧ if cq then (r.cqTail - n).toNat ≤ 2 ^ r.cqLog2 else (n - r.sqHead).toNat ≤ 2 ^ r.sqLog2
  (within → u.ring p = if cq then { r with cqHead := n } else { r with sqTail := n }) ∧
  (¬within → u.ring p = { r with error := true } ∧ (s.cp.notices.length < 256 → u.cp.notices = s.cp.notices ++ [⟨2, 12, BitVec.ofNat 64 p⟩])) ∧
  ∀ q, q ≠ p → u.ring q = s.ring q

end Sys2Proof.Claims

open Sys2Proof.Claims

/-- R429 to R431: host reads, whole-line and partial writes of device memory; a read that grants a copy is recorded; an
address that decodes to no byte, as none does without a committed decoder, reads zeros with Poison and is recorded as an error;
before boot stage 9 a request waits, and a closed port takes nothing. -/
def Sys2Proof.Claims.HostMemoryRequests : Prop :=
  ∀ (s : State) (dpa : BitVec 52) (k : Fin 80) (o : Nat) (data : List Byte) (en : List Bool) (ex : Bool),
    let x := s.slice k.val
    let line := o / 64
    (Sys2Proof.Claims.hostLine s dpa k o → ∀ (n : Nat) (u : State),
      (hostSlot s k false n u →
        exec (.memrd dpa false ex) s = .next ((fabFree u 592 n).answer { status := .ok, data := readBytes x.mem.bytes o 64 }) ∧
        ((∀ d ∈ x.dir, d.line ≠ line) → x.dir.length < 16384 → exec (.memrd dpa true ex) s =
          .next (((fabFree u 592 n).modSlice k.val (fun x => { x with dir := x.dir ++ [{ line := line, exclusive := ex }] })).answer
            { status := .ok, data := readBytes x.mem.bytes o 64 }))) ∧
      (hostSlot s k true n u → data.length = 64 →
        (∃ t, exec (.memwr dpa data) s = .next t ∧ t.reply = some { status := .ok } ∧ t.host = s.host ∧ ((t.port 592).slot n).busy = false ∧
          WroteOnly x.mem.bytes (t.slice k.val).mem.bytes (.write o data (List.replicate 64 true)) ∧ ∀ j, j ≠ k.val → t.slice j = s.slice j) ∧
        (en.length = 64 → ∃ t, exec (.memwrptl dpa data en) s = .next t ∧ t.reply = some { status := .ok } ∧ t.host = s.host ∧
          WroteOnly x.mem.bytes (t.slice k.val).mem.bytes (.write o data en) ∧ ∀ j, j ≠ k.val → t.slice j = s.slice j))) ∧
    (s.host.mem = true → Sys2Proof.Claims.cmUp s → s.mgmt.booted = false → dpa.toNat % 64 = 0 →
      exec (.memrd dpa true ex) s = .next (s.hold (.memRead 128 dpa.toNat none true ex)) ∧
      (data.length = 64 → exec (.memwr dpa data) s = .next (s.hold (.memWrite 128 dpa.toNat none data (allOn data))))) ∧
    (s.host.mem = true → Sys2Proof.Claims.cmUp s → s.mgmt.booted = true → dpa.toNat % 64 = 0 → dpaPlace s dpa.toNat = none →
      (∃ u, exec (.memrd dpa true ex) s = .next u ∧ memErrKept s u dpa ∧ u.reply = some { status := .ok, data := List.replicate 64 0, poison := true }) ∧
      (data.length = 64 → ∃ u, exec (.memwr dpa data) s = .next u ∧ memErrKept s u dpa ∧ u.reply = some { status := .ok })) ∧
    ((∀ i, i < 2 → (tget hdmDef s.host.hdm i).committed = false) → dpaPlace s dpa.toNat = none) ∧
    (s.host.mem = false ∨ ¬Sys2Proof.Claims.cmUp s → exec (.memrd dpa true ex) s = .next s ∧ exec (.memwr dpa data) s = .next s ∧
      exec (.memwrptl dpa data en) s = .next s)

/-- R429, R431, R434, R436: an access that a recorded line blocks sends one back-invalidate snoop; the host's answer ends it: the
record is downgraded after a read's snoop where the host keeps a copy, else dropped, and a write-back is stored; HDM decoders,
GPF flushes, host snoops; the port passes nothing of an Insecure stream. Here no request waits for the host's answer. -/
def Sys2Proof.Claims.HostCoherence : Prop :=
  ∀ (s : State) (k : Fin 80) (line : Nat) (d : DirEnt) (write keep : Bool) (data : List Byte) (i : Fin 2) (base size skip hpa : Word) (ways : Nat),
    let x := s.slice k.val
    let set := fun (f : DirEnt → DirEnt) => s.modSlice k.val (fun x => { x with dir := x.dir.map (fun d => if d.line = line then f d else d) })
    let unit : Word := 0xFFFFFFFFF0000000
    (x.dir.find? (fun d => decide (d.line = line)) = some d → d.line = line → s.waits = [] → Sys2Proof.Claims.cmUp s →
      (d.snoop = none → write = true ∨ d.exclusive = true → exec (.bisnp k line write) s =
        .next { set (fun d => { d with snoop := some write }) with outbox := s.outbox ++ [.biSnoop k.val line write] }) ∧
      (write = false → (∀ e ∈ x.dir, e.line = line → e.exclusive = false) → exec (.bisnp k line write) s = .next s) ∧
      (d.snoop = some false → exec (.birsp k line true none) s = .next (set (fun d => { d with exclusive := false, snoop := none }))) ∧
      (∀ w, d.snoop = some w → w = true ∨ keep = false → exec (.birsp k line keep none) s =
        .next (s.modSlice k.val (fun x => { x with dir := x.dir.filter (fun d => decide (d.line ≠ line)) }))) ∧
      (d.snoop = some true → sliceServes s k.val = true → x.mem.poison = [] → x.mem.upsets = [] → data.length = 64 → 64 * line + 64 ≤ 0x300000000 →
        ∃ u, exec (.birsp k line keep (some data)) s = .next u ∧ (u.slice k.val).dir = x.dir.filter (fun d => decide (d.line ≠ line)) ∧
          WroteOnly x.mem.bytes (u.slice k.val).mem.bytes (.write (64 * line) data (List.replicate 64 true)))) ∧
    (∃ u, exec (.hdmDecoderCommit i base size skip ways) s = .next u ∧ (∀ j, j ≠ i.val → tget hdmDef u.host.hdm j = tget hdmDef s.host.hdm j) ∧
      tget hdmDef u.host.hdm i.val = if ways = 1 then { base := base &&& unit, size := size &&& unit, skip := skip &&& unit, committed := true }
        else { tget hdmDef s.host.hdm i.val with committed := false, error := true }) ∧
    exec .gpfFlush s = .next (s.answer { status := .ok }) ∧
    (Sys2Proof.Claims.cmUp s → exec (.hostSnoop hpa) s = .next { s with outbox := s.outbox ++ [.snoopMiss hpa] }) ∧
    (¬Sys2Proof.Claims.cmUp s → exec (.hostSnoop hpa) s = .next s ∧ exec (.birsp k line keep none) s = .next s)

/-- R11, R12, R420, R425 to R428, R435 to R437, R510, R519: doorbells, the host mailbox, BAR2, HIF_ registers as they are written and read,
configuration space, the vectors; half of a 64-bit register is not written; an insecure stream carries nothing, nor does a
port out of service. The encodings beyond the
standard header are the model's free values (log 7). -/
def Sys2Proof.Claims.HostRegisters : Prop :=
  ∀ (s : State) (p : Fin 64) (off : BitVec 12) (v : Half) (bytes reply next : List Byte) (rest : List (List Byte)) (boff : BitVec 28) (n j o : Nat) (k : Fin 80) (u : State)
    (cfg : BitVec 12) (w : Word),
    let m := tget msixDef s.host.msix p.val
    (Sys2Proof.Claims.ioTakes s → s.mgmt.recovery = false → s.host.ready = true → (s.ring p.val).exist = true → (s.ring p.val).error = false → off.toNat % 8 = 0 ∨ off.toNat % 8 = 4 →
      ∃ u, exec (.doorbellWrite p off v) s = .next u ∧ bellTaken s u p.val (decide (off.toNat % 8 = 4)) v ∧ u.host = s.host ∧ u.cores = s.cores) ∧
    (Sys2Proof.Claims.ioTakes s → s.mgmt.recovery = false → s.host.ready = false → off.toNat % 8 = 0 →
      exec (.doorbellWrite p off v) s = .next (s.modRing p.val (fun r => { r with sqBell := some v }))) ∧
    (Sys2Proof.Claims.ioTakes s → s.host.mailIn = none → s.mgmt.recovery = false → bytes.length = 64 →
      exec (.hostMailboxPacket bytes) s = .next { s with host := { s.host with mailIn := some bytes } }) ∧
    (Sys2Proof.Claims.ioTakes s → s.host.mailIn ≠ none → s.mgmt.recovery = false → bytes.length = 64 →
      exec (.hostMailboxPacket bytes) s = .next { s with host := { s.host with mailQueue := s.host.mailQueue ++ [bytes] } }) ∧
    (s.host.mailOut = some reply → s.host.mailWait = [] → exec .hostMailboxReplyTaken s = .next { s with host := { s.host with mailOut := none } }) ∧
    (s.host.mailOut = some reply → s.host.mailWait = next :: rest → exec .hostMailboxReplyTaken s =
      .next { s with host := { s.host with mailOut := some next, mailWait := rest }, outbox := s.outbox ++ [.mailbox next] }) ∧
    (Sys2Proof.Claims.ioTakes s → s.mgmt.booted = true → decodeLocal (0x030000000000 + boff.toNat) = .skvBuf k.val o → 0 < n → boff.toNat % 512 + n ≤ 512 →
      sendReq s 592 s.host.cls.toNat (.read (0x030000000000 + boff.toNat) n) = (.slot j, u) → Sys2Proof.Claims.sliceServes s k.val = true →
      let v := (s.slice k.val).skv
      (bufAdmits v .host false (o / 512) = true → (o + n - 1) / 512 < bufTop v → v.buf.poison = [] → v.buf.upsets = [] →
        ∃ t, exec (.bar2Read boff n) s = .next t ∧ t.reply = some { status := .ok, data := readBytes v.buf.bytes o n } ∧ ((t.port 592).slot j).busy = false) ∧
      (bufAdmits v .host false (o / 512) = false →
        ∃ t, exec (.bar2Read boff n) s = .next t ∧ t.reply = some { status := .ok, data := List.replicate n 0xFF } ∧ t.slices = s.slices)) ∧
    (Sys2Proof.Claims.ioTakes s → boff.toNat + bytes.length ≤ 2 ^ 28 →
      exec (.bar2Write boff bytes) s = .next { s with host := { s.host with bar2Wr := s.host.bar2Wr + 1 } }) ∧
    (¬Sys2Proof.Claims.ioTakes s → exec (.bar2Write boff bytes) s = .next s ∧ exec (.doorbellWrite p off v) s = .next s ∧
      exec (.bar2Read boff n) s = .next s ∧ exec (.hostMailboxPacket bytes) s = .next s ∧ exec (.registerWrite .host 0x41008 .b8 w) s = .next s) ∧
    (Sys2Proof.Claims.ioTakes s →
      exec (.registerWrite .host 0x41008 .b8 w) s = .next { s with host := { s.host with apBase := BitVec.ofNat 52 (w.toNat / 4096) } } ∧
      exec (.registerWrite .host 0x41010 .b8 w) s = .next { s with host := { s.host with apSize := min (2 ^ 32) (w.toNat / 2 ^ 12 % 2 ^ 33) } } ∧
      exec (.registerWrite .host 0x41018 .b4 w) s = .next { s with host := { s.host with cls := if w.toNat % 4 = 0 then 1 else BitVec.ofNat 2 w.toNat } } ∧
      (∀ a ∈ [0x41000, 0x41008, 0x4100C, 0x41010, 0x41014], exec (.registerWrite .host a .b4 w) s = .next s)) ∧
    (bar0Read s 0x41000 = (some (b2n s.host.ready * 2 ^ 31 + b2n s.host.cache * 2 ^ 30 + b2n s.host.mem * 2 ^ 29 + s.host.mode.toNat * 2 ^ 26
        + s.host.width.toNat * 2 ^ 21 + s.host.rate.toNat * 2 ^ 18 + b2n s.host.ideCm * 2 ^ 17 + b2n (s.host.ideIo || s.host.ideSel) * 2 ^ 16), s) ∧
      bar0Read s 0x41018 = (some s.host.cls.toNat, s) ∧ bar0Read s 0x4101C = (some (s.host.memErr.toNat * 2 ^ 16 + s.host.bar2Wr.toNat), s) ∧
      (∀ a, 0x28 ≤ a → a < 0x1000 → bar0Read s (0x41000 + a) = (some 0, s)) ∧
      (∀ a, a < 0x40000 → bar0Read s a = (some 0, s))) ∧
    (s.pwr.state ≠ 3 → s.cp.portOut = false → s.mgmt.booted = false → s.mgmt.recovery = false → ∀ b, exec (.configurationRequest b cfg v) s = .next { s with outbox := s.outbox ++ [.cfgRetry] }) ∧
    (s.pwr.state ≠ 3 → s.cp.portOut = false → s.mgmt.booted = true →
      exec (.configurationRequest false 0 v) s = .next { s with outbox := s.outbox ++ [.cfgRead (0x48200000 ||| Config.vendorId.zeroExtend 32)] } ∧
      exec (.configurationRequest false 8 v) s = .next { s with outbox := s.outbox ++ [.cfgRead (0x12000000 ||| Config.stepping.zeroExtend 32)] } ∧
      (∃ u, exec (.configurationRequest true 0x10 v) s = .next u ∧ u.host.bar2 = s.host.bar2 ∧
        u.host.bar0 = (s.host.bar0 &&& 0xFFFFFFFF00000000) ||| (v.zeroExtend 64 &&& 0xFC000000))) ∧
    (s.cp.portOut = true → ∀ b, exec (.configurationRequest b cfg v) s = .next s) ∧
    (∃ u, exec (.msixUnmask p) s = .next u ∧ (m.pending = true ∧ vectorOpen s { m with masked := false } = true →
        tget msixDef u.host.msix p.val = { m with masked := false, pending := false } ∧
        (Sys2Proof.Claims.ioUp s → u.outbox = s.outbox ++ [.msix m.addr m.data]) ∧ (¬Sys2Proof.Claims.ioUp s → u.outbox = s.outbox)) ∧
      (¬(m.pending = true ∧ vectorOpen s { m with masked := false } = true) →
        tget msixDef u.host.msix p.val = { m with masked := false } ∧ u.outbox = s.outbox))

/-- R24, R406, R432 to R434, R436: an aperture access outside the limit, without bus mastering or with the link down is UNREACH; else it
goes to the host; a completion answers a read with its data, DATA or UNREACH, and ends the slot that it came from; writes wait for a later read of length zero; an
integrity failure ends what waits. -/
def Sys2Proof.Claims.HostAperture : Prop :=
  ∀ (s : State) (a : Agent) (o n hpa : Nat) (data : List Byte) (en : List Bool) (rest : List ApReq) (cm : Bool) (c : Cmd) (ra : Agent),
    let h := (4096 * s.host.apBase.toNat + o) % 2 ^ 64
    let left := fun (l : List ApReq) => { s with host := { s.host with waiting := l } }
    let rd : ApReq := { agent := ra, hpa := hpa, acc := .read o n }
    (a = .host ∨ a = .mgmt → exec (.hostApertureAccess a (.read o n)) s = .next s) ∧
    (∀ d, exec (.hostApertureAccess (.peer d) (.read o n)) s = .next (s.answer { status := .nowin })) ∧
    (Sys2Proof.Claims.apertureAgent a → ¬(s.host.busMaster = true ∧ s.host.mode ≠ 0 ∧ o + n ≤ 4096 * s.host.apSize) →
      exec (.hostApertureAccess a (.read o n)) s = .next (s.answer { status := .unreach })) ∧
    (Sys2Proof.Claims.apertureAgent a → apertureGoes s o n → (∀ r ∈ s.host.waiting, ∃ o n, r.acc = .read o n) →
      exec (.hostApertureAccess a (.read o n)) s = .next { left (s.host.waiting ++ [{ agent := a, hpa := h, acc := .read o n }]) with
        outbox := s.outbox ++ [.hostRead h n] }) ∧
    (Sys2Proof.Claims.apertureAgent a → apertureGoes s o data.length → s.host.waiting = [] →
      exec (.hostApertureAccess a (.write o data en)) s = .next { left [{ agent := a, hpa := h, acc := .write o data en, flushed := true }] with
        outbox := s.outbox ++ [.hostWrite h data en, .hostRead h 0] }) ∧
    (s.host.waiting = rd :: rest →
      (data.length = n → exec (.hostApertureCompletion .success data) s = .next ((left rest).answer { status := .ok, data := data })) ∧
      exec (.hostApertureCompletion .poisoned data) s = .next ((left rest).answer { status := .data }) ∧
      exec (.hostApertureCompletion .abort data) s = .next ((left rest).answer { status := .unreach }) ∧
      exec (.hostApertureCompletion .unsupported data) s = .next ((left rest).answer { status := .unreach }) ∧
      exec (.completionTimeout false) s = .next ((left rest).answer { status := .unreach })) ∧
    (∀ p n' g, s.host.waiting = { rd with slot := some (p, n', g) } :: rest → ((s.port p).slot n').busy = true → ((s.port p).slot n').gen = g →
      data.length = n → ∃ u, exec (.hostApertureCompletion .success data) s = .next u ∧ u.host.waiting = rest ∧ ((u.port p).slot n').busy = false ∧
        u.reply = some { status := .ok, data := data }) ∧
    (s.host.waiting = [{ agent := ra, hpa := hpa, acc := .write o data en, flushed := true }] →
      exec (.hostApertureCompletion .success []) s = .next ((left []).answer { status := .ok })) ∧
    (s.cpUp = true → s.cp.cmds.find? (fun c => !c.started && mayStart s c && (hostAddrOf c).isSome) = some c → s.cmd c.id = some c → c.ring = none → s.host.mailOut = none →
      ∃ u, exec (.completionTimeout true) s = .next u ∧ u.cp.cmds = s.cp.cmds.filter (fun d => decide (d.id ≠ c.id)) ∧
        u.host.mailOut = some (replyBytes s.mgmt.time c.tag.toNat c.opcode 2 false 0 6 (BitVec.ofNat 64 ((hostAddrOf c).getD 0)) true)) ∧
    (∃ u, exec (.ideIntegrityFailure cm) s = .next u ∧ u.host.waiting = [] ∧ (cm = true → u.host.cmInsecure = true ∧ u.host.ideCm = false ∧ u.host.ideIo = s.host.ideIo) ∧
      (cm = false → u.host.ideCm = s.host.ideCm ∧ if s.host.ideSel = true ∧ s.host.ideIo = false then u.host.selInsecure = true ∧ u.host.ideSel = false
        else u.host.ideInsecure = true ∧ u.host.ideIo = false) ∧ (s.host.waiting ≠ [] → u.reply = some { status := .unreach }))

/-- R423: the device mailbox answers its six requests as its standard frames what the state holds (a free value, log 7), and
clearing removes the named records of the log; through the mailbox's registers every other opcode is Unsupported. -/
def Obligations.DeviceMailbox : Prop :=
  ∀ (s : State) (uuid off len dpa : Nat) (log : BitVec 8) (handles : List Nat),
    let ans := fun (s : State) (k : Nat) (b : List Byte) => s.answer { status := .ok, data := Config.standardAnswer k b }
    exec .identify s = .next (ans s 0 []) ∧
    exec .getSupportedLogs s = .next (ans s 1 []) ∧
    exec (.getLog uuid off len) s = .next (ans s 2 (leBytes 16 uuid ++ leBytes 4 off ++ leBytes 4 len)) ∧
    exec (.getEventRecords log) s = .next (ans s 3 (log :: (s.host.events.filter (fun e => decide (e.2.1 = log.toNat))).flatMap (fun e => leBytes 2 e.1 ++ e.2.2))) ∧
    (∃ u, exec (.clearEventRecords log handles) s = .next u ∧ (∀ e, e ∈ u.host.events ↔ e ∈ s.host.events ∧ ¬(e.2.1 = log.toNat ∧ e.1 ∈ handles))) ∧
    (∃ l : List Nat, exec (.getPoisonList dpa len) s = .next (ans s 5 (l.flatMap (leBytes 8))) ∧ (∀ a ∈ l, dpa ≤ a ∧ a < dpa + len) ∧
      ∀ k sec, k < 80 → (sec, true) ∈ (s.slice k).mem.poison → dpa ≤ 2 ^ 40 + k * 2 ^ 34 + 32 * sec → 2 ^ 40 + k * 2 ^ 34 + 32 * sec < dpa + len →
        2 ^ 40 + k * 2 ^ 34 + 32 * sec ∈ l) ∧
    (∀ (op : Nat) (b : List Byte), op ≠ Config.identifyOpcode → op ∉ [0x0400, 0x0401, 0x0100, 0x0101, 0x4300] → mailboxRun s op b = (3, [], s))

namespace Sys2Proof.Claims

/-- The command in progress, its row begun: its TIMEOUT counts from now. -/
def begun (s : State) (id : Nat) : State := s.modCmd id (fun c => { c with started := true, since := s.mgmt.time })

/-- The command processor's port takes requests of its class 2, one after another: none is outstanding, a slot is free, and no
unit has a record under a free slot's generation (R372, R381, R384). -/
def cpIdle (s : State) : Prop :=
  let p := s.port 593
  p.outstanding 2 = 0 ∧ 0 < (p.win 2).win ∧ (∃ n, n < 128 ∧ (p.slot n).busy = false) ∧
  ∀ n u, n < 128 → (p.slot n).busy = false → (dupGet s u 593 n).valid = true → (dupGet s u 593 n).gen ≠ (p.slot n).gen

/-- It is this command's turn: the command processor runs, the row is the command's own, not yet begun, and the order of its
pair lets it start (R450). -/
def InTurn (s : State) (id : Nat) (c : Cmd) (op : Nat) (perica : Bool) : Prop :=
  s.cmd id = some c ∧ c.id = id ∧ s.cpUp = true ∧ c.op = op ∧ (c.version = 1 ↔ perica = true) ∧ c.started = false ∧ mayStart s c = true

/-- Its resource is free and the power state is ACTIVE. -/
def Goes (s : State) (id : Nat) (c : Cmd) (op : Nat) (perica : Bool) : Prop :=
  InTurn s id c op perica ∧ heldByOther s c = false ∧ s.pwr.state = 0

/-- The command ends in state `t` with this reply (R446). -/
def Ends (i : Instr) (s : State) (id : Nat) (t : State) (st : Nat) (r0 r1 : Nat) : Prop :=
  exec i s = .next (finishCmd t id st (BitVec.ofNat 64 r0) (BitVec.ofNat 64 r1))

/-- A reply in the completion ring, in ring memory, with its vector (R441, R445, R449, R459). -/
def replyInRing (s u : State) (c : Cmd) (p : Fin 64) (st r0 r1 : Nat) : Prop :=
  let r := s.ring p.val
  let e := 2 ^ r.cqLog2
  let v := r.cqTail.toNat
  let at_ := r.cplBase.toNat % 2 ^ 62 + (if r.version = 1 then 16 else 32) * (v % e)
  let phase := if v / e % 2 = 0 then 1 else 0
  let m := tget msixDef s.host.msix r.vec.toNat
  u.ring p.val = { r with cqTail := r.cqTail + 1, reserved := r.reserved - 1 } ∧
  (c.version ≠ 1 → readBytes u.host.ring.bytes at_ 32 =
    leBytes 8 (c.tag.toNat + c.opcode * 2 ^ 16 + st * 2 ^ 32 + phase * 2 ^ 40 + c.pos * 2 ^ 48) ++ leBytes 8 s.mgmt.time ++ leBytes 8 r0 ++ leBytes 8 r1) ∧
  (c.version = 1 → readBytes u.host.ring.bytes at_ 16 = leBytes 8 (c.tag.toNat + st * 2 ^ 16 + phase * 2 ^ 24) ++ leBytes 8 r0) ∧
  (vectorOpen s m = true → (ioUp s → u.outbox = s.outbox ++ [.msix m.addr m.data]) ∧ (¬ioUp s → u.outbox = s.outbox)) ∧
  (vectorOpen s m = false → tget msixDef u.host.msix r.vec.toNat = { m with pending := true } ∧ u.outbox = s.outbox)

/-- A completion ring in ring memory. -/
def ringHere (r : RingSt) : Prop :=
  r.cplBase.toNat / 2 ^ 62 = 1 ∧ r.cplBase.toNat % 2 ^ 62 + (if r.version = 1 then 16 else 32) * 2 ^ r.cqLog2 ≤ 0x400000

/-- Ring memory without struck words, and a slice that takes writes at a span of its slice view. -/
def copyReady (s : State) (src dst n : Nat) (k : Fin 80) (o : Nat) : Prop :=
  s.host.ring.upsets = [] ∧ src / 2 ^ 62 = 1 ∧ src % 2 ^ 62 + n ≤ 0x400000 ∧ 0 < n ∧
  cpIdle s ∧ dst = 0x010000000000 + k.val * 2 ^ 34 + o ∧ o + n ≤ 0x300000000 ∧ sliceServes s k.val = true ∧
  (s.slice k.val).dir = [] ∧ (s.slice k.val).mem.poison = [] ∧ (s.slice k.val).mem.upsets = []

/-- The bytes of ring memory stand in the slice; nothing else of it changed. -/
def copied (s t : State) (src n : Nat) (k : Fin 80) (o : Nat) : Prop :=
  ∀ a, readByte (t.slice k.val).mem.bytes a =
    if o ≤ a ∧ a < o + n then readByte s.host.ring.bytes (src % 2 ^ 62 + (a - o)) else readByte (s.slice k.val).mem.bytes a

/-- A core range of a command (R453, R459): whether core `k` lies in it, and the number of its fenced cores. -/
def inCoreRange (c : Cmd) (i k : Nat) : Bool :=
  let first := c.base + bitsOf (c.n i) 8 0
  decide (first ≤ k) && decide (k < first + bitsOf (c.n i) 25 16)
def coreRangeOk (c : Cmd) (i : Nat) : Prop :=
  1 ≤ bitsOf (c.n i) 25 16 ∧ bitsOf (c.n i) 8 0 + bitsOf (c.n i) 25 16 ≤ if c.version = 1 then 16 else 512
def fencedIn (s : State) (c : Cmd) (i : Nat) : Nat := ((countFrom c.base 512).filter (fun k => inCoreRange c i k && s.coreFenced k)).length

/-- Word 0 to 6 of a packet accepted under R444. -/
def packetOk (h : Nat) (ps : List Word) : Prop :=
  bitsOf h 23 16 = 2 ∧ bitsOf h 31 26 = 0 ∧ ∃ masks, opMasks (h % 65536) = some masks ∧ bitsOf h 47 32 = 8 * masks.length ∧ badParam (h % 65536) masks ps = none

/-- The parameters of a 64-byte packet. -/
def packetParams (b : List Byte) : List Word := (countFrom 1 7).map (fun i => BitVec.ofNat 64 (leNat (slice b (8 * i) 8)))

/-- The command that an accepted packet makes (R444). -/
def takenCmd (s : State) (b : List Byte) (ring : Option (Fin 64)) (pos base : Nat) : Cmd :=
  let h := leNat (b.take 8)
  { id := s.nextId, ring := ring, pos := pos, tag := BitVec.ofNat 16 (h / 2 ^ 48), opcode := h % 65536, version := 2,
    quiet := bitOf h 25, seq := bitOf h 24, params := packetParams b, base := base }

/-- The address of the next submission entry of a pair. -/
def sqEntry (r : RingSt) : Nat := r.subBase.toNat + (if r.version = 1 then 48 else 64) * (r.sqHead.toNat % 2 ^ r.sqLog2)

/-- A strand batch (R271, R454): COUNT, FIRST, GRID, words 2 and 3. -/
def strandBatch (count first grid : Nat) (w2 w3 : Word) : List Byte :=
  leBytes 8 (count * 2 ^ 32 + first) ++ leBytes 8 grid ++ leBytes 8 w2.toNat ++ leBytes 8 w3.toNat

/-- A launch's command with one completion message more (R457). -/
def countedCmd (c : Cmd) (l : Launch) (hdr : Word) : Cmd :=
  { c with launch := some { l with got := l.got + 1, last := BitVec.ofNat 64 (bitsOf hdr.toNat 63 32) } }

/-- The injection-port queue without its oldest message: the notices that stand next in it go through, and senders that wait
fill its places (R20, R21). -/
def took (s : State) (rest : List PortMsg) : State := ({ s with cp := { s.cp with inj := rest } } : State).portIntake

/-- The controller's answer to a command reaches the command processor's slot at once, or waits behind what stands there (R20, R26). -/
def Answers (i : Instr) (s : State) (id st r0 r1 : Nat) : Prop :=
  (s.cp.toCp = none → Ends i s id (begun s id) st r0 r1) ∧
  (s.cp.toCp ≠ none → replyWaits s id = false → exec i s =
    .next { begun s id with cp := { (begun s id).cp with cpWait := s.cp.cpWait ++ [{ done := some (id, st, BitVec.ofNat 64 r0, BitVec.ofNat 64 r1) }] } })

/-- A slot of the command processor's port is free. -/
def cpSlotFree (s : State) : Prop := ∃ n, n < 128 ∧ ((s.port 593).slot n).busy = false

end Sys2Proof.Claims

/-- R440 to R445, R450: the command processor takes a packet of the host mailbox, else the next entry of the next pair in
ring memory; a packet that R444 accepts is in progress with one completion entry reserved; one with an unassigned opcode is
refused with OPCODE. -/
def Sys2Proof.Claims.CommandsTaken : Prop :=
  ∀ (s : State) (entry b : List Byte) (p : Nat),
    let h := leNat (b.take 8)
    let cmd := takenCmd s b
    b.length = 64 → s.cpUp = true → s.cp.cmds.length < 256 →
    (s.host.mailIn = some b → packetOk h (packetParams b) → (h % 65536 ≤ 2 ∨ ∀ q, q < 64 → (s.ring q).exist = false) →
      exec (.commandTake entry .ok) s = .next { s with
        host := { s.host with mailIn := s.host.mailQueue.head?, mailQueue := s.host.mailQueue.tail }
        cp := { s.cp with cmds := s.cp.cmds ++ [cmd none 0 0] }
        nextId := s.nextId + 1 }) ∧
    (s.host.mailIn = none → nextPair s = some p → (s.ring p).version = 2 → s.host.ring.upsets = [] → sqEntry (s.ring p) / 2 ^ 62 = 1 →
      readBytes s.host.ring.bytes (sqEntry (s.ring p) % 2 ^ 62) 64 = b →
      (packetOk h (packetParams b) → ∃ u, exec (.commandTake entry .ok) s = .next u ∧
        u.cp.cmds = s.cp.cmds ++ [cmd (some (Fin.ofNat 64 p)) ((s.ring p).sqHead + 1).toNat (s.ring p).coreBase] ∧ u.cp.lastPair = p ∧
        u.ring p = { s.ring p with sqHead := (s.ring p).sqHead + 1, reserved := (s.ring p).reserved + 1 } ∧ u.host = s.host ∧ u.outbox = s.outbox) ∧
      (bitsOf h 23 16 = 2 → opMasks (h % 65536) = none → ringHere (s.ring p) → p < 64 →
        ∃ u, exec (.commandTake entry .ok) s = .next u ∧ u.cp.cmds = s.cp.cmds ∧ (u.ring p).cqTail = (s.ring p).cqTail + 1 ∧
          let at_ := (s.ring p).cplBase.toNat % 2 ^ 62 + 32 * ((s.ring p).cqTail.toNat % 2 ^ (s.ring p).cqLog2)
          leNat (readBytes u.host.ring.bytes (at_ + 4) 1) = 2 ∧ leNat (readBytes u.host.ring.bytes (at_ + 16) 8) = 1))

/-- R446, R450, R451, R482: every command row: BUSY while an earlier command holds its resource; REFUSED STATE outside ACTIVE
for the opcodes that need it; nothing while its turn has not come. -/
def Sys2Proof.Claims.CommandRowsTurn : Prop :=
  ∀ (s : State) (id : Nat) (ext : ExtAns) (c : Cmd),
    ∀ p ∈ [(Instr.nop id, 0x00, false), (.ringCreate id, 0x01, false), (.ringDelete id, 0x02, false), (.memCopy id ext, 0x10, false),
        (.loadProgram id ext, 0x11, false), (.mapSegment id, 0x12, false), (.coreInit id, 0x13, false), (.regWrite id, 0x14, false), (.regRead id, 0x15, false),
        (.launchGrid id, 0x20, false), (.launchStep id ext, 0x21, false), (.skvPlace id ext, 0x30, false), (.sliceMapSet id, 0x31, false),
        (.latRouteSet id, 0x32, false), (.sweep id, 0x33, false), (.admitStream id ext, 0x40, false), (.releaseStream id, 0x41, false),
        (.fence id, 0x50, false), (.unfence id, 0x51, false), (.testUnit id, 0x52, false), (.pericaNop id, 0x00, true), (.pericaMemCopy id ext, 0x10, true),
        (.pericaLoadProgram id ext, 0x11, true), (.pericaMapSegment id, 0x12, true), (.pericaLaunchGrid id, 0x20, true), (.setPowerState id, 0x60, false),
        (.setRamp id, 0x61, false), (.query id ext, 0x70, false), (.pericaQuery id ext, 0x70, true), (.mgmtRequest id ext, 0x80, false)],
      (InTurn s id c p.2.1 p.2.2 → heldByOther s c = true → Ends p.1 s id (begun s id) 1 0 0) ∧
      (InTurn s id c p.2.1 p.2.2 → heldByOther s c = false → p.2.1 ∈ [0x10, 0x11, 0x12, 0x13, 0x20, 0x21, 0x30, 0x33, 0x52] → s.pwr.state ≠ 0 →
        Ends p.1 s id (begun s id) 2 4 0) ∧
      (s.cmd id = some c → c.started = false → mayStart s c = false → exec p.1 s = .next s)

/-- R451, R453: what each command holds, and that an earlier command in progress conflicts with it exactly when both hold one resource. -/
def Sys2Proof.Claims.HeldResources : Prop :=
  ∀ (s : State) (c d : Cmd),
    let same := fun (ops : List Nat) => c.op ∈ ops → d.op ∈ ops → c.holds = d.holds ∧ c.holds ≠ none
    let apart := fun (ops : List Nat) => c.op ∈ ops → d.op ∉ ops → c.holds ≠ d.holds
    (heldByOther s c = true ↔ c.holds ≠ none ∧ ∃ k ∈ s.cp.cmds, k.id < c.id ∧ k.holds = c.holds) ∧
    (c.op ∈ [0x00, 0x10, 0x11, 0x12, 0x14, 0x15, 0x20, 0x21, 0x33, 0x70, 0x80] → c.holds = none) ∧
    (∀ ops ∈ [[0x30, 0x31], [0x32], [0x40, 0x41], [0x60, 0x61]], same ops ∧ apart ops) ∧
    (c.op ∈ [0x01, 0x02] → d.op ∈ [0x01, 0x02] → c.n 0 % 64 ≠ d.n 0 % 64 → c.holds ≠ d.holds) ∧ (c.n 0 % 64 = d.n 0 % 64 → same [0x01, 0x02]) ∧ apart [0x01, 0x02] ∧
    (c.op ∈ [0x50, 0x51, 0x52] → d.op ∈ [0x50, 0x51, 0x52] → (c.holds = d.holds ↔ c.n 0 = d.n 0) ∧ c.holds ≠ none) ∧ apart [0x13, 0x50, 0x51, 0x52] ∧
    (c.op = 0x13 → d.op ∈ [0x50, 0x51, 0x52] → c.n 0 < 512 → (c.holds = d.holds ↔ c.n 0 = d.n 0)) ∧
    (c.op = 0x13 → d.op = 0x13 → c.n 0 < 512 → d.n 0 < 512 → (c.holds = d.holds ↔ c.n 0 = d.n 0))

/-- R445, R449, R459: NOP answers with the running firmware's version; the reply goes to the host mailbox, or to the
completion ring of its pair, and its vector follows. -/
def Sys2Proof.Claims.NopAndReplies : Prop :=
  ∀ (s : State) (id : Nat) (c : Cmd),
    let v := fwVersion s.mgmt % 2 ^ 64
    ∀ p ∈ [(Instr.nop id, false), (.pericaNop id, true)],
      Goes s id c 0x00 p.2 → c.quiet = false →
      (c.ring = none → s.host.mailOut = none → ∃ u, exec p.1 s = .next u ∧ u.cp.cmds = s.cp.cmds.filter (fun d => decide (d.id ≠ id)) ∧
        u.host.mailOut = some (leBytes 8 (c.tag.toNat + c.opcode * 2 ^ 16 + 2 ^ 40) ++ leBytes 8 s.mgmt.time ++ leBytes 8 v ++ leBytes 8 0)) ∧
      (∀ q, c.ring = some q → c.gone = false → ringHere (s.ring q.val) → c.version = (s.ring q.val).version →
        ∃ u, exec p.1 s = .next u ∧ u.cp.cmds = s.cp.cmds.filter (fun d => decide (d.id ≠ id)) ∧ replyInRing s u c q 0 v 0) ∧
      (∀ q, c.ring = some q → c.gone = true → exec p.1 s = .next { s with cp := { s.cp with cmds := s.cp.cmds.filter (fun d => decide (d.id ≠ id)) } })

/-- R439, R453: RING_CREATE and RING_DELETE. -/
def Sys2Proof.Claims.RingCommands : Prop :=
  ∀ (s : State) (id : Nat) (c : Cmd),
    let p := bitsOf (c.n 0) 5 0
    let ver := bitsOf (c.n 0) 9 8
    let base := bitsOf (c.n 0) 40 32
    let sl := bitsOf (c.n 3) 3 0
    let cl := bitsOf (c.n 3) 7 4
    let r : RingSt := { exist := true, version := BitVec.ofNat 2 ver, notice := bitOf (c.n 0) 16, vec := BitVec.ofNat 6 (bitsOf (c.n 0) 29 24), coreBase := base, subBase := c.p 1, cplBase := c.p 2, sqLog2 := sl, cqLog2 := cl }
    let baseOk := fun (n entry log2 : Nat) => n / 2 ^ 62 ≠ 0 ∧ n % 2 ^ 62 % entry = 0 ∧
      n % 2 ^ 62 + entry * 2 ^ log2 ≤ if n / 2 ^ 62 = 1 then 0x400000 else 2 ^ 62
    (Goes s id c 0x01 false → (ver = 2 ∧ base = 0) ∨ (ver = 1 ∧ bitOf (c.n 0) 16 = false ∧ base % 8 = 0 ∧ base ≤ 496) →
      ((s.ring p).exist = true → Ends (.ringCreate id) s id (begun s id) 2 4 0) ∧
      ((s.ring p).exist = false → 4 ≤ sl → sl ≤ 12 → 4 ≤ cl → cl ≤ 12 → (c.n 1) / 2 ^ 62 ≤ 2 → (c.n 2) / 2 ^ 62 ≤ 2 →
        baseOk (c.n 1) (if ver = 1 then 48 else 64) sl → baseOk (c.n 2) (if ver = 1 then 16 else 32) cl →
        Ends (.ringCreate id) s id ((begun s id).modRing p (fun _ => r)) 0 0 0)) ∧
    (Goes s id c 0x02 false →
      ((s.ring p).exist = false → Ends (.ringDelete id) s id (begun s id) 2 4 0) ∧
      ((s.ring p).exist = true → let v := finishCmd (begun s id) id 0 0 0
        ∃ u, exec (.ringDelete id) s = .next u ∧ u.ring p = {} ∧ (∀ q, q ≠ p → u.ring q = v.ring q) ∧ u.host = v.host ∧ u.outbox = v.outbox ∧
          u.cp.cmds = v.cp.cmds.map (fun k => if k.ring.map (·.val) = some p then { k with gone := true } else k)))

/-- R453, R459: MEM_COPY, LOAD_PROGRAM and MAP_SEGMENT, also as Perica packets: the bytes of ring memory stand in HBM (copies
within ring memory take ascending order); the cores of the range drop their instruction cache and segment entries; the result is
the number of fenced cores skipped. -/
def Sys2Proof.Claims.CopyCommands : Prop :=
  ∀ (s : State) (id : Nat) (ext : ExtAns) (c : Cmd) (k : Fin 80) (o : Nat) (r : AccRes),
    (∀ p ∈ [(Instr.memCopy id ext, false), (.pericaMemCopy id ext, true)], Goes s id c 0x10 p.2 →
      (copyReady s (c.n 0) (c.n 1) (c.n 2) k o → ∃ t, Ends p.1 s id t 0 0 0 ∧ t.cp = (begun s id).cp ∧ copied s t (c.n 0) (c.n 2) k o ∧ t.host.ring = s.host.ring) ∧
      (s.host.ring.upsets = [] → 0 < c.n 2 → c.n 0 / 2 ^ 62 = 1 → c.n 1 / 2 ^ 62 = 1 → c.n 0 % 2 ^ 62 + c.n 2 ≤ 0x400000 → c.n 1 % 2 ^ 62 + c.n 2 ≤ 0x400000 →
        ∃ t, Ends p.1 s id t 0 0 0 ∧ t.cp = (begun s id).cp ∧ t.slices = s.slices ∧
          ∀ a, readByte t.host.ring.bytes a =
            let d := c.n 1 % 2 ^ 62
            if d ≤ a ∧ a < d + c.n 2 then
              readByte s.host.ring.bytes (c.n 0 % 2 ^ 62 + if c.n 0 < c.n 1 then (a - d) % (c.n 1 - c.n 0) else a - d)
            else readByte s.host.ring.bytes a) ∧
      (c.n 2 = 0 → Ends p.1 s id (begun s id) 2 3 2)) ∧
    (∀ p ∈ [(Instr.loadProgram id ext, false), (.pericaLoadProgram id ext, true)], Goes s id c 0x11 p.2 → coreRangeOk c 3 → copyReady s (c.n 0) (c.n 1) (c.n 2) k o →
      ∃ t, Ends p.1 s id t 0 (fencedIn s c 3) 0 ∧ t.cp = (begun s id).cp ∧ copied s t (c.n 0) (c.n 2) k o ∧
        ∀ j, t.core j = if inCoreRange c 3 j = true ∧ s.coreFenced j = false then { s.core j with icache := [], icStruck := [], segs := [] } else s.core j) ∧
    (∀ p ∈ [(Instr.mapSegment id, false), (.pericaMapSegment id, true)], Goes s id c 0x12 p.2 → coreRangeOk c 4 → c.n 0 / 2 ^ 62 = 0 → c.n 0 % 16 = 0 →
      reqOnce regW (begun s id) .cp 593 2 ⟨.ok, []⟩ (.write (c.n 0 + 16 * c.n 1) (leBytes 8 (c.n 2) ++ leBytes 8 (c.n 3)) (List.replicate 16 true)) = some r →
      (r.status = .ok → r.s.cores = s.cores → r.s.clusters = s.clusters → ∃ t, Ends p.1 s id t 0 (fencedIn s c 4) 0 ∧ t.cp = r.s.cp ∧ t.slices = r.s.slices ∧
        ∀ j, t.core j = if inCoreRange c 4 j = true ∧ s.coreFenced j = false then
          { s.core j with segs := (s.core j).segs.filter (fun e => decide (e.sel ≠ c.n 1)) } else s.core j) ∧
      (r.status ≠ .ok → Ends p.1 s id r.s 2 6 (c.n 0 + 16 * c.n 1)))

/-- R453: CORE_INIT resets, sets the five registers, unfences and starts thread 0; REG_WRITE and REG_READ; a NOWIN is ACCESS. -/
def Sys2Proof.Claims.CoreAndRegisterCommands : Prop :=
  ∀ (s : State) (id : Nat) (c : Cmd) (x r : AccRes),
    let k := c.n 0
    let a := c.n 0
    let n := if bitOf (c.n 2) 0 then 8 else 4
    (Goes s id c 0x13 false → k < 512 →
      (s.coreFenced k = false → (∃ j, j < 8 ∧ ((s.core k).t j).st ≠ .stopped) → Ends (.coreInit id) s id (begun s id) 2 4 0) ∧
      (s.coreFenced k = true ∨ (∀ j, j < 8 → ((s.core k).t j).st = .stopped) → (s.cluster (k / 8)).fenced = false → (s.core k).dbg.haltReq = false →
        ∃ t, Ends (.coreInit id) s id t 0 0 0 ∧ (t.core k).fenced = false ∧ (t.core k).emstk = c.p 5 &&& vecMask ∧ (t.core k).icache = [] ∧ (t.core k).segs = [] ∧
          ((t.core k).t 0).st = .run ∧ ((t.core k).t 0).entry = c.p 1 &&& codeMask ∧ ((t.core k).t 0).pc = c.p 1 &&& vecMask ∧ ((t.core k).t 0).compat = (c.p 1).getLsbD 48 ∧ ((t.core k).t 0).ssegt = c.p 2 ∧ ((t.core k).t 0).sdsp = c.p 3 &&& vecMask ∧
          ((t.core k).t 0).srtp = c.p 4 &&& vecMask ∧ (∀ j, 0 < j → j < 8 → ((t.core k).t j).st = .stopped) ∧ (t.core k).spad.mem = (s.core k).spad.mem ∧
          (t.core k).epoch = nextEpoch (s.core k).epoch ∧ ∀ j, j ≠ k → t.core j = s.core j)) ∧
    (Goes s id c 0x14 false → regAddrOk a n = true → regExcluded a = false → regExcluded (a + 4) = false →
      reqOnce regW (begun s id) .cp 593 2 ⟨.ok, []⟩ (.write a (leBytes n (c.n 1)) (List.replicate n true)) = some x →
      (x.status ≠ .ok → Ends (.regWrite id) s id x.s 2 6 a) ∧
      (x.status = .ok → reqOnce regW x.s .cp 593 2 ⟨.ok, []⟩ (.read a n) = some r → r.status = .ok → Ends (.regWrite id) s id r.s 0 (leNat r.data) 0)) ∧
    (Goes s id c 0x14 false → regExcluded a = true → Ends (.regWrite id) s id (begun s id) 2 3 0) ∧
    (Goes s id c 0x15 false → regAddrOk a n = true → reqOnce regW (begun s id) .cp 593 2 ⟨.ok, []⟩ (.read a n) = some r →
      (r.status = .ok → Ends (.regRead id) s id r.s 0 (leNat r.data) 0) ∧ (r.status ≠ .ok → Ends (.regRead id) s id r.s 2 6 a))

/-- R326, R419, R453, R456: the slice map, a routing entry, placement of rows from ring memory, sweeps. -/
def Sys2Proof.Claims.MapAndSweepCommands : Prop :=
  ∀ (s : State) (id : Nat) (ext : ExtAns) (c : Cmd),
    let bits := c.n 0 + c.n 1 * 2 ^ 32 + c.n 2 * 2 ^ 64
    let ones := ((countFrom 0 80).filter (fun i => bitOf bits i)).length
    let col := bitOf (c.n 0) 8
    let i := bitsOf (c.n 0) 4 0
    let links : BitVec 48 := BitVec.ofNat 48 (c.n 1)
    let units := countFrom (bitsOf (c.n 0) 25 16) (bitsOf (c.n 0) 41 32)
    (Goes s id c 0x31 false → bits < 2 ^ 80 →
      (ones = c.n 3 → Ends (.sliceMapSet id) s id { begun s id with smap := { bits := BitVec.ofNat 80 bits, n := c.n 3 } } 0 0 0) ∧
      (ones ≠ c.n 3 → Ends (.sliceMapSet id) s id (begun s id) 2 3 3)) ∧
    (Goes s id c 0x32 false → i ≤ 24 → i ≠ (if col then s.lat.id.toNat / 32 else s.lat.id.toNat % 32) →
      (∀ j, j < 25 → ((false, j) ≠ (col, i) → tget linkRowDef s.lat.rows j &&& links = 0) ∧ ((true, j) ≠ (col, i) → tget linkRowDef s.lat.cols j &&& links = 0)) →
      ∃ t, Ends (.latRouteSet id) s id t 0 0 0 ∧ (col = true → tget linkRowDef t.lat.cols i = links ∧ t.lat.rows = s.lat.rows) ∧
        (col = false → tget linkRowDef t.lat.rows i = links ∧ t.lat.cols = s.lat.cols)) ∧
    (Goes s id c 0x32 false → i = (if col then s.lat.id.toNat / 32 else s.lat.id.toNat % 32) → Ends (.latRouteSet id) s id (begun s id) 2 3 0) ∧
    (Goes s id c 0x30 false → s.smap.n = 0 → Ends (.skvPlace id ext) s id (begun s id) 2 4 0) ∧
    (Goes s id c 0x30 false → let rows := c.n 4
      let n := s.smap.n
      let q := rows / n
      let act := activeSlices s.smap
      let dofs := bitsOf (c.n 1) 33 0
      let row := fun (t : State) (k o m : Nat) => readBytes (t.slice k).mem.bytes o (c.n 5) = readBytes s.host.ring.bytes (c.n 0 % 2 ^ 62 + m * c.n 2) (c.n 5)
      cpIdle s → 0 < n → act.length = n → 1 ≤ c.n 5 → c.n 5 ≤ 2 ^ 20 → c.n 5 ≤ c.n 2 → c.n 5 ≤ c.n 3 → 0 < rows →
      dofs + ((rows + n - 1) / n - 1) * c.n 3 + c.n 5 ≤ 0x300000000 → s.host.ring.upsets = [] → c.n 0 / 2 ^ 62 = 1 →
      c.n 0 % 2 ^ 62 + (rows - 1) * c.n 2 + c.n 5 ≤ 0x400000 →
      (∀ k ∈ act, sliceServes s k = true ∧ (s.slice k).dir = [] ∧ (s.slice k).mem.poison = [] ∧ (s.slice k).mem.upsets = []) →
      ∃ t, Ends (.skvPlace id ext) s id t 0 0 0 ∧
        (bitOf (c.n 1) 40 = false → ∀ m, m < rows → row t (lget 0 act (m % n)) (dofs + m / n * c.n 3) m) ∧
        (bitOf (c.n 1) 40 = true → ∀ j m, j < n → m < q + (if j < rows % n then 1 else 0) → row t (lget 0 act j) (dofs + m * c.n 3) (j * q + min j (rows % n) + m))) ∧
    (Goes s id c 0x33 false → bitOf (c.n 0) 0 = true → units ≠ [] → (∀ k ∈ units, k < 80) →
      ∃ u, exec (.sweep id) s = .next u ∧ (u.cmd id).map (·.started) = some true ∧ (u.cmd id).map (·.progress) = some (units.filter (fun k => s.sliceFenced k)).length ∧
        ∀ k, u.slice k = if k ∈ units ∧ s.sliceFenced k = false then { s.slice k with sweepLeft := 0x300000000 / 32 } else s.slice k) ∧
    (Goes s id c 0x33 false → bitOf (c.n 0) 0 = false → units ≠ [] → (∀ k ∈ units, k < 512) →
      ∃ u, exec (.sweep id) s = .next u ∧ (u.cmd id).map (·.started) = some true ∧
        ∀ k, k ∈ units → s.coreFenced k = false → ∀ g, g < 4 → (g, 2048) ∈ (u.core k).spad.sweep) ∧
    (s.cmd id = some c → c.started = true → c.op = 0x33 → c.version = 2 → s.cpUp = true → bitOf (c.n 0) 0 = true →
      ((∀ k ∈ units, (s.slice k).sweepLeft = 0) → Ends (.sweep id) s id s 0 c.progress 0) ∧
      ((∃ k ∈ units, (s.slice k).sweepLeft ≠ 0 ∧ s.sliceFenced k = false) → exec (.sweep id) s = .next s))

/-- R390, R453, R458: a stream that fits is admitted under the lowest free number, with its buckets; a released one gives its
buckets and number back. -/
def Sys2Proof.Claims.StreamCommands : Prop :=
  ∀ (s : State) (id : Nat) (ext : ExtAns) (c : Cmd) (x : Stream) (num : Nat),
    let n := c.n 1
    let b := readBytes s.host.ring.bytes (c.n 0 % 2 ^ 62) (16 * n)
    let l := (countFrom 0 n).map (fun i => (⟨BitVec.ofNat 64 (leNat (slice b (16 * i) 8)), BitVec.ofNat 64 (leNat (slice b (16 * i + 8) 8))⟩ : DeclEnt))
    let held := heldBy s (s.cp.streams.filter (fun x => !x.revoked))
    (Goes s id c 0x40 false → 1 ≤ n → n ≤ 64 → s.host.ring.upsets = [] → c.n 0 / 2 ^ 62 = 1 → c.n 0 % 2 ^ 62 + 16 * n ≤ 0x400000 →
      (∀ e ∈ l, e.ok s.lat.id.toNat = true) → num < 64 → (∀ y ∈ s.cp.streams, y.num ≠ num) → (∀ m, m < num → ∃ y ∈ s.cp.streams, y.num = m) →
      (fitGo s held l 0 held.charges = none →
        ∃ t, Ends (.admitStream id ext) s id t 0 num s.cp.nextSeq ∧ t.cp.nextSeq = s.cp.nextSeq + 1 ∧
          t.cp.streams = s.cp.streams ++ [{ num := num, seq := s.cp.nextSeq, time := s.mgmt.time, ents := l }] ∧
          ∀ e ∈ l, e.src < 512 → (meshBucket t e.src).en = true) ∧
      (∀ why i, fitGo s held l 0 held.charges = some (why, i) → Ends (.admitStream id ext) s id (begun s id) 2 why i)) ∧
    (Goes s id c 0x41 false → s.cp.streams.find? (fun y => decide (y.num = c.n 0)) = some x →
      ∃ t, Ends (.releaseStream id) s id t 0 0 0 ∧ t.cp.streams = s.cp.streams.filter (fun y => decide (y.num ≠ x.num)) ∧
        (x.revoked = false → ∀ e ∈ x.ents, e.src < 592 → meshBucket t e.src = {} ∧ reinBucket t e.src = {})) ∧
    (Goes s id c 0x41 false → (∀ y ∈ s.cp.streams, y.num ≠ c.n 0) → Ends (.releaseStream id) s id (begun s id) 2 4 0)

/-- R20, R26, R28, R506 to R512: a fence marks its unit and waits for its effects, an unfence clears the mark; a unit already in the requested
state is answered OK, which waits for the plane mailbox; the last plane is not fenced; a plane's fence waits until nothing is on
it; a test runs on a fenced unit, replies with its code (NO_CLOCK only of a clock that is stopped), or with TIMEOUT; a unit out
of service. -/
def Obligations.FenceAndTestCommands : Prop :=
  ∀ (s : State) (id : Nat) (c : Cmd) (code : BitVec 8) (item : Half),
    let ut := bitsOf (c.n 0) 19 16
    let n := bitsOf (c.n 0) 9 0
    let empty := s.cp.toMgmt = none
    let runs := (ut = 2 → (s.slice n).clkOk = true) ∧ (ut = 3 → (s.slice (4 * n)).clkOk = true) ∧
      (ut = 4 → (tget groupDef s.lat.groups (n / 16)).locked = true) ∧ (ut = 5 → (tget groupDef s.lat.groups (n / 2 / 16)).locked = true)
    let codeFits := (runs → code.toNat ≤ 6 ∧ code ≠ 5) ∧ (¬runs → code.toNat ∈ [3, 5, 6])
    let unitFits := ut ≤ 6 ∧ n < lget 0 [512, 64, 80, 20, 48, 96, 4] ut
    (s.cp.toMgmt ≠ none → ∀ p ∈ [(Instr.fence id, 0x50), (.unfence id, 0x51), (.testUnit id, 0x52)], Goes s id c p.2 false → exec p.1 s = .next s) ∧
    (Goes s id c 0x50 false → empty → unitFits →
      (unitMark s ut n = true → Answers (.fence id) s id 0 0 0) ∧
      (unitMark s ut n = false → ¬(ut = 6 ∧ ∀ p, p < 4 → p ≠ n → s.fabric.planeFenced.getLsbD p = true) →
        (ut = 2 ∨ ut = 3 → s.waits = []) →
        ∃ u, exec (.fence id) s = .next u ∧ unitMark u ut n = true ∧
          (ut ≠ 5 ∨ s.cp.streams = [] → u.cmd id = some { c with started := true, since := s.mgmt.time }) ∧ (ut = 6 → u.outbox = s.outbox) ∧
          (ut = 4 → (u.link n).st = 0 ∧ (u.link n).lanes = 0 ∧
            u.outbox = s.outbox ++ if (s.link n).shown = (u.link n).shown then [] else [.linkState n (u.link n).shown]) ∧ (ut = 1 → (u.cluster n).hintUp = false) ∧
          (ut = 2 → s.sliceFenced n = false → (u.slice n).skv.prio = {} ∧ (u.slice n).skv.ord = {} ∧ (u.slice n).skv.careas = [] ∧ (u.slice n).skv.buf = (s.slice n).skv.buf)) ∧
      (unitMark s ut n = false → ut = 6 → (∀ p, p < 4 → p ≠ n → s.fabric.planeFenced.getLsbD p = true) → Answers (.fence id) s id 2 4 0)) ∧
    (Goes s id c 0x51 false → empty → unitFits →
      (unitMark s ut n = false → Answers (.unfence id) s id 0 0 0) ∧
      (unitMark s ut n = true → (ut = 0 → (s.core n).hardFence = false) → (ut = 2 → (s.slice n).clkOk = true) → (ut = 3 → (s.slice (4 * n)).clkOk = true) →
        (ut = 4 → (tget groupDef s.lat.groups (n / 16)).locked = true) → (ut = 5 → (tget groupDef s.lat.groups (n / 2 / 16)).locked = true) →
        ∃ u, exec (.unfence id) s = .next u ∧ unitMark u ut n = false ∧ u.cmd id = some { c with started := true, since := s.mgmt.time } ∧
          (ut = 2 → tget boolDef s.stackFenced (n / 4) = false → (u.slice n).skv.epoch = nextEpoch (s.slice n).skv.epoch)) ∧
      (unitMark s ut n = true → ut = 0 → (s.core n).hardFence = true → Answers (.unfence id) s id 2 4 0)) ∧
    (s.cmd id = some c → c.id = id → c.started = true → s.cpUp = true → c.op = 0x50 → s.cp.toCp = none → s.cp.streams = [] → (∀ x ∈ s.cp.notices, x.status ≠ 3) → noticePair s = none →
      (ut = 0 → allAtBoundary (s.core n) = true) → ut ≠ 1 → (ut = 6 → planeClear s n = true) →
      ∃ t, Ends (.fenceChangeSettled id) s id t 0 0 0 ∧ t.cp = s.cp ∧ (ut = 6 → t.fabric.planeDraining = bit4 s.fabric.planeDraining n false)) ∧
    (s.cmd id = some c → c.started = true → c.op = 0x50 → (ut = 0 ∧ allAtBoundary (s.core n) = false) ∨ (ut = 6 ∧ planeClear s n = false) →
      exec (.fenceChangeSettled id) s = .next s) ∧
    (s.cmd id = some c → c.started = true → s.cpUp = true → c.op = 0x51 →
      (s.cp.toCp = none → Ends (.fenceChangeSettled id) s id s 0 0 0) ∧
      (s.cp.toCp ≠ none → replyWaits s id = false →
        exec (.fenceChangeSettled id) s = .next { s with cp := { s.cp with cpWait := s.cp.cpWait ++ [{ done := some (id, 0, 0, 0) }] } })) ∧
    (Goes s id c 0x52 false → empty → unitFits →
      c.n 1 ∈ lget ([] : List Nat) [[0x01, 0x02, 0x03], [0x10, 0x11], [0x20, 0x21, 0x22, 0x23], [0x28], [0x30], [0x31], [0x38]] ut →
      (unitFenced s ut n = true → exec (.testUnit id) s = .next (begun s id)) ∧ (unitFenced s ut n = false → Answers (.testUnit id) s id 2 4 0)) ∧
    (s.cmd id = some c → c.started = true → c.op = 0x52 →
      (¬codeFits → exec (.testUnitComplete id code item) s = .next s) ∧
      (codeFits → s.cp.toCp = none → s.cpUp = true →
        ∃ t, Ends (.testUnitComplete id code item) s id t 0 (code.toNat + (if code = 0 then 0 else item.toNat) * 2 ^ 32) 0 ∧ t.cp = s.cp ∧
        (c.n 1 = 0x02 → code.toNat ∈ [0, 1, 2, 4] → (t.core n).spad.mem = {}) ∧ (c.n 1 = 0x23 → code.toNat ∈ [0, 1, 2, 4] → (t.slice n).mem = {}) ∧
        (code.toNat ∈ [3, 5, 6] → t = s)) ∧
      (c.n 2 ≠ 0 → c.since + 1000 * c.n 2 ≤ s.mgmt.time → Ends (.testUnitTimeout id) s id s 5 0 0) ∧
      (c.n 2 = 0 ∨ s.mgmt.time < c.since + 1000 * c.n 2 → exec (.testUnitTimeout id) s = .next s)) ∧
    exec (.outOfServiceFault .cinchRoot) s = .next { s with cp := { s.cp with rootOut := true } } ∧
    exec (.outOfServiceFault .commandProcessor) s = .next { s with cp := { s.cp with outOfService := true }, host := { s.host with ready := false } } ∧
    (∃ u, exec (.outOfServiceFault .hostPort) s = .next u ∧ u.cp.portOut = true ∧ u.host.mode = 0 ∧ u.host.cache = false ∧ u.host.mem = false ∧ u.host.waiting = [])

/-- R20, R21, R454, R455, R457, R459: a launch sends its first batch; an accepted one is followed by the next, FULL by the same again, a
refusal ends it; completion messages are counted up to NDONE; a timeout replies with the count and gives up what has not been
sent; the injection port's queue takes 64. -/
def Obligations.Launches : Prop :=
  ∀ (s : State) (id : Nat) (ext : ExtAns) (c : Cmd) (m : Msg) (l : Launch) (sender : Sender) (hdr : Word) (pay : List Byte) (rest : List PortMsg),
    let h := c.p 0
    let core := c.base + bitsOf h.toNat 44 36
    let q := bitsOf h.toNat 20 16
    let grid := c.n 1 % 2 ^ 32
    let batch := bitsOf (c.n 1) 63 32
    let sent := fun (i : Instr) (core q : Nat) (b : List Byte) (cls : BitVec 2) (total ndone : Nat) =>
      ∃ u m l, exec i s = .next u ∧ u.msgs = s.msgs ++ [m] ∧ m.target = .queue none core q (s.core core).epoch ∧ m.payload = b ∧ m.cls = cls ∧
        (u.cmd id).bind (·.launch) = some l ∧ l.msg = some m.id ∧ l.total = total ∧ l.ndone = ndone ∧ l.sent = 0 ∧ l.got = 0 ∧ l.grid = BitVec.ofNat 32 grid
    (∀ p ∈ [(Instr.launchGrid id, false), (.pericaLaunchGrid id, true)], Goes s id c 0x20 p.2 → launchHandleOk h = true → 1 ≤ batch → 1 ≤ c.n 2 → c.n 2 ≤ 2 ^ 32 →
      (∀ d ∈ s.cp.cmds, ∀ l, d.launch = some l → l.grid ≠ BitVec.ofNat 32 grid ∨ l.ndone = 0) → (∀ d ∈ s.cp.cmds, d.id ≠ id → launchWaits s d.id = false) → cpSlotFree s →
      let payload := strandBatch (min batch (c.n 2)) 0 grid (c.p 3) (c.p 4)
      let total := (c.n 2 + batch - 1) / batch
      (p.2 = false → let ntgt := bitsOf (c.n 5) 9 0
        c.base = 0 → 1 ≤ ntgt → core + ntgt ≤ 512 → bitsOf (c.n 6) 33 32 ≠ 0 →
        sent p.1 core q payload (BitVec.ofNat 2 (bitsOf (c.n 6) 33 32)) total (bitsOf (c.n 5) 47 32)) ∧
      (p.2 = true → bitsOf h.toNat 44 36 ≤ 15 → sent p.1 core q payload 1 total 1)) ∧
    (Goes s id c 0x20 false → launchHandleOk h = true → batch = 0 → Ends (.launchGrid id) s id (begun s id) 2 3 1) ∧
    (Goes s id c 0x21 false → 1 ≤ c.n 2 → c.n 2 ≤ 4096 → s.host.ring.upsets = [] → c.n 0 / 2 ^ 62 = 1 → c.n 0 % 2 ^ 62 + 16 * c.n 2 ≤ 0x400000 →
      let ent := fun (i j : Nat) => BitVec.ofNat 64 (leNat (readBytes s.host.ring.bytes (c.n 0 % 2 ^ 62 + 16 * i + 8 * j) 8))
      (∀ i, i < c.n 2 → launchHandleOk (ent i 0) = true) → (∀ d ∈ s.cp.cmds, ∀ l, d.launch = some l → l.grid ≠ BitVec.ofNat 32 grid ∨ l.ndone = 0) → (∀ d ∈ s.cp.cmds, d.id ≠ id → launchWaits s d.id = false) → cpSlotFree s →
      bitsOf (c.n 6) 33 32 ≠ 0 →
      sent (.launchStep id ext) (bitsOf (ent 0 0).toNat 44 36) (bitsOf (ent 0 0).toNat 20 16) (strandBatch 1 0 grid (c.p 3) (ent 0 1))
        (BitVec.ofNat 2 (bitsOf (c.n 6) 33 32)) (c.n 2) (bitsOf (c.n 5) 47 32)) ∧
    (s.cpUp = true → s.msg m.id = some m → m.sender = .cp s.lat.id.toNat → m.owner = id → s.cmd id = some c → c.id = id → s.cp.cmds = [c] → c.launch = some l → l.msg = some m.id → m.parked = false →
      (m.status = some stOk → l.total ≤ l.sent + 1 → l.ndone ≤ l.got →
        ∃ t, Ends (.launchBatchStatus m.id) s id t 0 l.ndone l.last.toNat ∧ t.msg m.id = none) ∧
      (m.status = some stClosed → ∃ t, Ends (.launchBatchStatus m.id) s id t 4 (l.batch l.sent).1 (8 + stClosed * 256 + l.sent % 2 ^ 32 * 2 ^ 32) ∧ t.msg m.id = none)) ∧
    (∀ x, s.cpUp = true → s.cp.inj = .notice x :: rest → exec .launchCompletionMessage s = .next s.portIntake) ∧
    (s.cpUp = true → s.cp.inj = .message sender hdr pay :: rest → let v := took s rest
      ((∀ d ∈ s.cp.cmds, ∀ l, d.launch = some l → l.grid ≠ hdr.truncate 32 ∨ l.ndone = 0) →
        exec .launchCompletionMessage s = .next { v with cp := { v.cp with orphan := s.cp.orphan + 1 } }) ∧
      (s.cp.cmds = [c] → c.id = id → c.launch = some l → l.grid = hdr.truncate 32 → 0 < l.ndone →
        (l.got + 1 < l.ndone → exec .launchCompletionMessage s = .next { v with cp := { v.cp with cmds := [countedCmd c l hdr] } }) ∧
        (l.got + 1 = l.ndone → l.total ≤ l.sent → Ends .launchCompletionMessage s id { v with cp := { v.cp with cmds := [countedCmd c l hdr] } }
          0 l.ndone (bitsOf hdr.toNat 63 32)))) ∧
    (s.cmd id = some c → c.launch = some l → s.cpUp = true → c.version ≠ 1 → bitsOf (c.n 6) 31 0 ≠ 0 → l.got < l.ndone →
      (c.since + 1000 * bitsOf (c.n 6) 31 0 ≤ s.mgmt.time →
        ((∀ k, l.msg.bind s.msg = some k → k.unsent s = false) → Ends (.launchTimeout id) s id s 5 l.got 0) ∧
        (∀ k, l.msg.bind s.msg = some k → k.unsent s = true → ∃ t, Ends (.launchTimeout id) s id t 5 l.got 0 ∧ t.msg k.id = none ∧ t.cp = s.cp)) ∧
      (s.mgmt.time < c.since + 1000 * bitsOf (c.n 6) 31 0 → exec (.launchTimeout id) s = .next s)) ∧
    (Sys2Proof.Claims.arriving s m.id = some m → m.target = .injection none →
      (s.cp.inj.length < 64 → ∃ u, exec (.injectionPortMessage m.id) s = .next u ∧ u.cp.inj = s.cp.inj ++ [.message m.sender m.hdr m.payload] ∧
        (u.msg m.id).bind (·.status) = some stOk) ∧
      (64 ≤ s.cp.inj.length → ∃ u, exec (.injectionPortMessage m.id) s = .next u ∧ u.cp.inj = s.cp.inj ∧ (u.msg m.id).bind (·.status) = some stFull))

namespace Sys2Proof.Claims

/-- The SET_POWER_STATE in progress that has no answer yet. -/
def powerCmd (s : State) : Option Cmd :=
  s.cp.cmds.find? (fun c => decide (c.op = 0x60) && c.started && !replyWaits s c.id && decide (s.pwr.tripCmd.map (·.1) ≠ some c.id))

/-- No answer of a trip is due, and no reply waits for the host mailbox's slot. -/
def calm (s : State) : Prop := s.pwr.tripCmd = none ∧ s.host.mailWait = []

/-- No SET_POWER_STATE is under way. -/
def noPowerCmd (s : State) : Prop := ∀ k ∈ s.cp.cmds, ¬(k.op = 0x60 ∧ k.started = true)

/-- The move has ended in state `t`: its command, if there is one, replies OK, behind what stands in the plane mailbox (R26,
R478, R482). -/
def MoveEnds (i : Instr) (s t : State) : Prop :=
  t.cp = s.cp ∧ (powerCmd s = none → exec i s = .next t) ∧
  ∀ c, powerCmd s = some c → (s.cp.toCp = none → s.cpUp = true → exec i s = .next (finishCmd t c.id 0 0 0)) ∧
    (s.cp.toCp = none → s.cpUp = false → exec i s = .next { t with cp := { t.cp with toCp := some { done := some (c.id, 0, 0, 0) } } }) ∧
    (s.cp.toCp ≠ none → exec i s = .next { t with cp := { t.cp with cpWait := t.cp.cpWait ++ [{ done := some (c.id, 0, 0, 0) }] } })

/-- Nothing stands in the plane mailbox, in either direction (R26). -/
def mailEmpty (s : State) : Prop := s.cp.toMgmt = none ∧ s.cp.toCp = none ∧ s.cp.cpWait = []

/-- The quadrants' values in P1 of SET_POWER_STATE; 0 keeps what is set (R453). -/
def quadArg (c : Cmd) (q : Nat) : Nat := bitsOf (c.n 1) (16 * q + 15) (16 * q)
def quadsFit (c : Cmd) : Prop := ∀ q, q < 4 → quadArg c q = 0 ∨ (600 ≤ quadArg c q ∧ quadArg c q ≤ 850)
def quadSet (s : State) (c : Cmd) (q : Nat) : BitVec 16 := if quadArg c q = 0 then tget cnt16Def s.pwr.vddTarget q else BitVec.ofNat 16 (quadArg c q)

/-- Everything but the power registers is as it was. -/
def onlyPower (s t : State) : Prop := t = { s with pwr := t.pwr }

/-- The data plane is gone; the management plane and what has left the part remain (R477, R481). -/
def offRails (s t : State) : Prop :=
  t.pwr.state = 3 ∧ t.pwr.busy = false ∧ t.pwr.loadHint = 0 ∧ t.mgmt = { s.mgmt with booted := false } ∧ t.outbox = s.outbox ∧ t.pending = s.pending ∧
  t.cores = [] ∧ t.clusters = [] ∧ t.slices = [] ∧ t.stackFenced = [] ∧ t.fabric = {} ∧ t.lat = {} ∧ t.root = [] ∧ t.msgs = [] ∧ t.cp = {} ∧ t.host = {}

/-- No trip is barred by the state: the firmware runs and the part is not off its rails. -/
def tripTakes (s : State) : Prop := s.mgmt.fwRun = true ∧ s.pwr.state ≠ 3

/-- What a trip records and reports (R484). -/
def tripped (s : State) (cause index : Nat) (notice : Bool) (u : State) : Prop :=
  u.pwr.tripped = true ∧ u.pwr.tripCause = BitVec.ofNat 4 cause ∧ u.pwr.tripIndex = BitVec.ofNat 8 index ∧
  u.pwr.thermTripLow = (s.pwr.thermTripLow || decide (cause = 1)) ∧
  u.pwr.tripTime = (if cause = 1 ∧ s.pwr.thermTripLow = false then s.mgmt.time else s.pwr.tripTime) ∧ u.pwr.vdd = s.pwr.vdd ∧ u.pwr.vddTarget = s.pwr.vddTarget ∧
  u.mgmt = { s.mgmt with bmc := s.mgmt.bmc ++ [[0x7E, BitVec.ofNat 8 cause, BitVec.ofNat 8 index]] } ∧
  u.cp = { s.cp with notices := if notice = true then s.cp.notices ++ [{ status := 4, result0 := 0x90000, result1 := BitVec.ofNat 64 (index * 2 ^ 32 + cause * 256 + 4) }] else s.cp.notices }

/-- The rails have fallen after a trip, which stays recorded (R477, R484). -/
def fellBy (s : State) (cause index : Nat) (u : State) : Prop :=
  u.pwr.state = 3 ∧ u.pwr.busy = false ∧ u.pwr.tripped = true ∧ u.pwr.tripCause = BitVec.ofNat 4 cause ∧ u.pwr.tripIndex = BitVec.ofNat 8 index ∧
  u.mgmt = { s.mgmt with booted := false, bmc := s.mgmt.bmc ++ [[0x7E, BitVec.ofNat 8 cause, BitVec.ofNat 8 index]] } ∧
  u.cores = [] ∧ u.clusters = [] ∧ u.slices = [] ∧ u.cp = {} ∧ u.host = {}

/-- The trips' rows with their causes, and whether the host link carries the notice (R483, R484). -/
def tripIndexOk (i : Instr) (cause index : Nat) : Prop :=
  (∃ n : Fin 89, i = .thermalTrip n ∧ cause = 1 ∧ index = n.val) ∨ (∃ n : Fin 12, i = .currentTrip n ∧ cause = 3 ∧ index = n.val)

/-- A ring of ring memory whose entry `v` gets these words and the phase of its turn, then its vector (R441, R445, R435). -/
def noticeWritten (s u : State) (p : Nat) (n : Notice) : Prop :=
  let r := s.ring p
  let e := 2 ^ r.cqLog2
  let v := r.cqTail.toNat
  let at_ := r.cplBase.toNat % 2 ^ 62 + 32 * (v % e)
  let phase := if v / e % 2 = 0 then 1 else 0
  let m := tget msixDef s.host.msix r.vec.toNat
  u.ring p = { r with cqTail := r.cqTail + 1 } ∧
  readBytes u.host.ring.bytes at_ 32 =
    leBytes 8 (0xFFFF * 2 ^ 16 + n.status * 2 ^ 32 + phase * 2 ^ 40 + 2 ^ 41) ++ leBytes 8 s.mgmt.time ++ leBytes 8 n.result0.toNat ++ leBytes 8 n.result1.toNat ∧
  (vectorOpen s m = true → (ioUp s → u.outbox = s.outbox ++ [.msix m.addr m.data]) ∧ (¬ioUp s → u.outbox = s.outbox)) ∧
  (vectorOpen s m = false → tget msixDef u.host.msix r.vec.toNat = { m with pending := true } ∧ u.outbox = s.outbox)

/-- The pair that notices go to has this number, this version and an entry that is free (R452). -/
def noticeRoom (s : State) (p : Nat) : Prop :=
  p < 64 ∧ (s.ring p).exist = true ∧ (s.ring p).version = 2 ∧ (s.ring p).notice = true ∧
  (∀ q, q < p → ¬((s.ring q).exist = true ∧ (s.ring q).version = 2 ∧ (s.ring q).notice = true)) ∧
  ((s.ring p).cqTail - (s.ring p).cqHead).toNat + (s.ring p).reserved < 2 ^ (s.ring p).cqLog2 ∧ ringHere (s.ring p)

end Sys2Proof.Claims

open Sys2Proof.Claims

/-- R478, R481, R482, R485: SET_POWER_STATE begins a move with the quadrants' values, ends at once where nothing changes, is refused,
and takes the part off its rails once its reply is written. -/
def Sys2Proof.Claims.PowerCommand : Prop :=
  ∀ (s : State) (id : Nat) (c : Cmd), InTurn s id c 0x60 false → heldByOther s c = false →
    let st := BitVec.ofNat 2 (c.n 0)
    let i := Instr.setPowerState id
    let stays := s.pwr.state ≠ 3 ∧ s.pwr.target ≠ 3
    let other := ∀ k ∈ s.cp.cmds, k.op = 0x60 → k.started = true → k.id = id
    (s.cp.toMgmt ≠ none → exec i s = .next s) ∧
    (s.cp.toMgmt = none → ¬quadsFit c → Answers i s id 2 3 1) ∧
    (s.cp.toMgmt = none → quadsFit c → s.pwr.state = 3 ∨ s.pwr.target = 3 → Answers i s id 2 4 0) ∧
    (mailEmpty s → quadsFit c → stays →
      (s.pwr.busy = true → st ≠ 3 → exec i s = .next s) ∧
      (s.pwr.busy = false → st ≠ s.pwr.state → st ≠ 3 → (st = 0 → s.pwr.tripped = false) →
        ∃ t, exec i s = .next t ∧ onlyPower (begun s id) t ∧ t.pwr.target = st ∧ t.pwr.busy = true ∧ t.pwr.state = s.pwr.state ∧ t.pwr.vdd = s.pwr.vdd ∧
          t.pwr.tripped = s.pwr.tripped ∧ ∀ q, q < 4 → tget cnt16Def t.pwr.vddTarget q = quadSet s c q) ∧
      (s.pwr.state = 0 → s.pwr.busy = false → st = 0 → s.pwr.tripped = false → (∃ q, q < 4 ∧ quadSet s c q ≠ tget cnt16Def s.pwr.vdd q) →
        ∃ t, exec i s = .next t ∧ onlyPower (begun s id) t ∧ t.pwr.target = 0 ∧ t.pwr.busy = true ∧ t.pwr.state = 0 ∧
          ∀ q, q < 4 → tget cnt16Def t.pwr.vddTarget q = quadSet s c q) ∧
      ((∀ q, q < 4 → quadArg c q = 0) → s.pwr.state = 0 → s.pwr.busy = false → st = 0 → s.pwr.tripped = false → s.pwr.vddTarget = s.pwr.vdd →
        s.pwr.tripCmd = none → other →
        ∃ t, exec i s = .next (finishCmd t id 0 0 0) ∧ onlyPower (begun s id) t ∧ t.pwr.state = 0 ∧ t.pwr.busy = false ∧ t.pwr.vdd = s.pwr.vdd) ∧
      (s.pwr.state ≠ 0 → s.pwr.busy = false → st = s.pwr.state → Ends i s id (begun s id) 0 0 0) ∧
      (st = 3 → calm s → s.cp.notices = [] → other →
        ((c.ring = none → s.host.mailOut = none) → ∃ t, exec i s = .next t ∧ offRails (finishCmd (begun s id) id 0 0 0) t) ∧
        (c.ring = none → c.quiet = false → s.host.mailOut ≠ none →
          ∃ t, exec i s = .next t ∧ t.pwr.state = s.pwr.state ∧ t.pwr.target = 3 ∧ t.pwr.busy = true ∧ t.slices = s.slices)) ∧
      (s.pwr.busy = false → st = 0 → s.pwr.tripped = true → s.pwr.tripCause = 1 →
        (∃ n, n < 89 ∧ 16 * 105 < (tget (fun _ => (0x8000 : BitVec 16)) s.mgmt.temps n).toInt) → Ends i s id (begun s id) 2 4 0))

/-- R478 to R482, R485, R493: the steps of a move between ACTIVE, HOLD and DROWSE, and its end; only a move that leaves another state
for ACTIVE clears TRIPPED. -/
def Sys2Proof.Claims.PowerMoves : Prop :=
  ∀ (s : State), s.pwr.busy = true → s.pwr.tripCmd = none →
    let settle := Instr.powerStateSettled
    let slew := Instr.voltageSlewComplete
    let held := fun (u : State) => u.slices = s.slices ∧ u.clusters = s.clusters ∧ u.host = s.host ∧ u.lat = s.lat ∧
      ∀ c j, ((u.core c).t j).pc = ((s.core c).t j).pc ∧ ((u.core c).t j).st = ((s.core c).t j).st ∧ ((u.core c).t j).regs = ((s.core c).t j).regs
    let tripsLeft := !s.pwr.leaves && s.pwr.tripped
    (s.pwr.state = 0 → s.pwr.target = 1 → holdSettled s = true →
      (s.pwr.vdd ≠ s.pwr.vddTarget → ∃ u, exec settle s = .next u ∧ held u ∧ u.pwr = { s.pwr with state := 1 }) ∧
      (s.pwr.vdd = s.pwr.vddTarget → ∃ t, MoveEnds settle s t ∧ held t ∧ t.pwr = { s.pwr with state := 1, busy := false, leaves := false })) ∧
    (s.pwr.state = 0 → s.pwr.target = 2 → holdSettled s = true → ∃ u, exec settle s = .next u ∧ held u ∧ u.pwr = { s.pwr with state := 1 }) ∧
    (s.pwr.state = 0 → (s.pwr.target = 1 ∨ s.pwr.target = 2) → holdSettled s = false → exec settle s = .next s) ∧
    (s.pwr.state = 1 → s.pwr.target = 2 → skvEmpty s = true → s.waits = [] → ∃ u, exec settle s = .next u ∧ u.pwr = { s.pwr with state := 2, loadHint := 0 } ∧
      (∀ k, k < 64 → (u.cluster k).hintUp = false) ∧ u.slices = s.slices ∧ u.cores = s.cores) ∧
    (s.pwr.state = 2 → s.pwr.target = 2 → ∃ t, MoveEnds slew s t ∧ onlyPower s t ∧ t.pwr.state = 2 ∧ t.pwr.busy = false ∧ t.pwr.vddTarget = s.pwr.vddTarget ∧
      ∀ q, q < 4 → tget cnt16Def t.pwr.vdd q = 500) ∧
    (s.pwr.state = 2 → s.pwr.target = 0 → ∃ u, exec slew s = .next u ∧ onlyPower s u ∧ u.pwr.state = 1 ∧ u.pwr.busy = true ∧ u.pwr.target = 0 ∧
      ∀ q, q < 4 → tget cnt16Def u.pwr.vdd q = tget cnt16Def s.pwr.vddTarget q) ∧
    (s.pwr.state = 2 → s.pwr.target = 1 → ∃ t, MoveEnds slew s t ∧ onlyPower s t ∧ t.pwr.state = 1 ∧ t.pwr.busy = false ∧
      ∀ q, q < 4 → tget cnt16Def t.pwr.vdd q = tget cnt16Def s.pwr.vddTarget q) ∧
    (s.pwr.state = 1 → s.pwr.target = 0 →
      (s.pwr.vdd ≠ s.pwr.vddTarget → exec settle s = .next { s with pwr := { s.pwr with state := 0 } }) ∧
      (s.pwr.vdd = s.pwr.vddTarget → ∃ t, MoveEnds settle s t ∧ onlyPower s t ∧ t.pwr.state = 0 ∧ t.pwr.busy = false ∧ t.pwr.tripped = tripsLeft)) ∧
    (s.pwr.state = 0 → s.pwr.target = 0 → ∃ t, MoveEnds slew s t ∧ onlyPower s t ∧ t.pwr.state = 0 ∧ t.pwr.busy = false ∧ t.pwr.tripped = tripsLeft ∧
      ∀ q, q < 4 → tget cnt16Def t.pwr.vdd q = tget cnt16Def s.pwr.vddTarget q) ∧
    (s.pwr.target = 3 → s.cp.notices = [] → (∀ m ∈ s.cp.toCp.toList ++ s.cp.cpWait, m.notice = none) → s.host.mailWait = [] → noPowerCmd s →
      ∃ u, exec settle s = .next u ∧ offRails s u)

/-- R483 to R485, R491: what the trips record, report and do: the notice passes through the plane mailbox and the lowest pair that
takes notices, and where a trip's action is OFF-RAILS the rails fall once it is written, or at once after a fault of the SerDes
rails; the move's command fails only after it. The message to the BMC has the form of log 27. -/
def Sys2Proof.Claims.Trips : Prop :=
  ∀ (s : State) (i : Instr) (cause index : Nat) (rail : Fin 12) (p : Nat), tripTakes s →
    let told : Notice := { status := 4, result0 := 0x90000, result1 := BitVec.ofNat 64 (index * 2 ^ 32 + cause * 256 + 4) }
    let direct := mailEmpty s ∧ s.cpUp = true
    let quiet := powerCmd s = none ∧ calm s ∧ s.cp.notices.length < 256
    let written := noticeRoom s p ∧ s.cp.notices = [] ∧ s.cp.lostPending = 0
    (tripIndexOk i cause index → quiet → noticePair s = none → s.pwr.state = 0 → s.pwr.target ≠ 3 → s.cp.toCp ≠ none →
      ∃ u, exec i s = .next u ∧ u.pwr.tripped = true ∧ u.pwr.target = 1 ∧ u.cp = { s.cp with cpWait := s.cp.cpWait ++ [{ notice := some told }] }) ∧
    (tripIndexOk i cause index → quiet → noticePair s = none → direct →
      (s.pwr.state = 0 → s.pwr.target ≠ 3 → ∃ u, exec i s = .next u ∧ tripped s cause index true u ∧ u.pwr.state = 0 ∧ u.pwr.target = 1 ∧ u.pwr.busy = true) ∧
      (s.pwr.state = 1 → s.pwr.target ≠ 3 → ∃ u, exec i s = .next u ∧ tripped s cause index true u ∧ u.pwr.state = 1 ∧ u.pwr.target = 1 ∧ u.pwr.busy = false) ∧
      (s.pwr.state = 2 ∨ s.pwr.target = 3 → ∃ u, exec i s = .next u ∧ tripped s cause index true u ∧ u.pwr.state = s.pwr.state ∧ u.pwr.target = 3 ∧
        u.pwr.busy = true ∧ u.slices = s.slices)) ∧
    (tripIndexOk i cause index → quiet → written → direct → s.pwr.state = 2 ∨ s.pwr.target = 3 → ∃ u, exec i s = .next u ∧ fellBy s cause index u) ∧
    (s.mgmt.booted = true →
      (rail.val ≠ 8 → rail.val ≠ 9 → quiet → written → direct → ∃ u, exec (.railTrip rail) s = .next u ∧ fellBy s 2 rail.val u) ∧
      (rail.val ≠ 8 → rail.val ≠ 9 → quiet → noticePair s = none → direct → ∃ u, exec (.railTrip rail) s = .next u ∧
        tripped s 2 rail.val true u ∧ u.pwr.state = s.pwr.state ∧ u.pwr.target = 3 ∧ u.pwr.busy = true ∧ u.slices = s.slices) ∧
      (rail.val = 8 ∨ rail.val = 9 → ∃ u, exec (.railTrip rail) s = .next u ∧ fellBy s 2 rail.val u)) ∧
    (s.mgmt.booted = false → exec (.railTrip rail) s = .next s) ∧
    (∀ c, tripIndexOk i cause index → calm s → s.cp.notices.length < 256 → direct → s.pwr.state = 0 → s.pwr.target ≠ 3 → powerCmd s = some c →
      noticePair s = none → ∃ u, exec i s = .next u ∧ u.pwr.target = 1 ∧ u.pwr.busy = true ∧ u.pwr.tripCmd = some (c.id, cause, index) ∧
        u.cp = { s.cp with notices := s.cp.notices ++ [told] }) ∧
    (s.pwr.thermTripLow = false ∨ s.mgmt.time < s.pwr.tripTime + 100000000 → exec .thermalTripEscalation s = .next s) ∧
    (s.pwr.tripped = true → s.pwr.thermTripLow = true → s.pwr.tripTime + 100000000 ≤ s.mgmt.time → s.cp.notices = [] → mailEmpty s → calm s →
      noPowerCmd s → ∃ u, exec .thermalTripEscalation s = .next u ∧ offRails s u)

/-- R488, R489, R492, R453: SET_RAMP, a ramp window's end, a forecast on its way to the BMC. -/
def Sys2Proof.Claims.RampAndForecast : Prop :=
  ∀ (s : State) (id : Nat) (c : Cmd) (k : Fin 64) (v : Half) (t : Nat) (rest : List (Half × Nat)),
    let win := bitsOf (c.n 0) 23 8
    let starts := bitsOf (c.n 0) 3 0
    let v' : Nat := (if bitOf (c.n 0) 31 then 2 ^ 31 else 0) + (if win = 0 then 1 else win) * 256 + (if starts = 0 then 1 else if 8 < starts then 8 else starts)
    (InTurn s id c 0x61 false → heldByOther s c = false → s.cp.toMgmt ≠ none → exec (.setRamp id) s = .next s) ∧
    (InTurn s id c 0x61 false → heldByOther s c = false → s.cp.toMgmt = none → s.cp.toCp = none →
      Ends (.setRamp id) s id { begun s id with pwr := { s.pwr with ramp := BitVec.ofNat 32 v' } } 0 0 0) ∧
    ((s.cluster k.val).pacer < (s.cluster k.val).rampSince + bitsOf s.pwr.ramp.toNat 23 8 → exec (.rampWindow k) s = .next s) ∧
    ((s.cluster k.val).rampSince + bitsOf s.pwr.ramp.toNat 23 8 ≤ (s.cluster k.val).pacer →
      ∃ u, exec (.rampWindow k) s = .next u ∧
      (u.cluster k.val) = { s.cluster k.val with rampUsed := 0, rampSince := (s.cluster k.val).rampSince + bitsOf s.pwr.ramp.toNat 23 8 } ∧ (∀ j, j ≠ k.val → u.cluster j = s.cluster j) ∧
      (∀ j, u.core j = if j / 8 = k.val then { s.core j with mtx := { (s.core j).mtx with warm := (s.core j).mtx.busyWin, busyWin := arrayBusy (s.core j) } } else s.core j) ∧
      u.slices = s.slices ∧ u.pwr = s.pwr ∧ u.mgmt = s.mgmt ∧ u.host = s.host ∧ u.cp = s.cp) ∧
    (s.mgmt.fwRun = true → s.pwr.fcastDue = (v, t) :: rest →
      exec .fcastBmcMessage s = .next { s with pwr := { s.pwr with fcastDue := rest }, mgmt := { s.mgmt with bmc := s.mgmt.bmc ++
        [[0x7E, 0x01, 0x80] ++ leBytes 2 (v.toNat / 2 ^ 16) ++ leBytes 2 (v.toNat % 2 ^ 16) ++ leBytes 8 t] } })

/-- R441, R445, R452, R484: the oldest notice is written to the lowest pair of version 2 that takes notices, when it has a free entry;
notices lost before are told when the queue has room; the command that a trip has ended replies after the trip's notice. -/
def Sys2Proof.Claims.Notices : Prop :=
  ∀ (s : State) (n : Notice) (rest : List Notice) (p : Nat), s.cpUp = true → s.cp.notices = n :: rest →
    (∀ id cause index, s.pwr.tripCmd = some (id, cause, index) → rest = [] → noticeRoom s p → s.cp.lostPending = 0 → mailEmpty s →
      ∃ t, exec .noticeDelivery s = .next (finishCmd t id 4 0x90000 (BitVec.ofNat 64 (4 + cause * 256 + index * 2 ^ 32))) ∧
        t.cp.notices = [] ∧ noticeWritten s t p n ∧ t.cp.cmds = s.cp.cmds ∧ t.pwr.tripCmd = none) ∧
    (s.pwr.tripCmd = none → noticeRoom s p →
      (s.cp.lostPending = 0 → ∃ u, exec .noticeDelivery s = .next u ∧ u.cp.notices = rest ∧ noticeWritten s u p n ∧ u.cp.cmds = s.cp.cmds ∧ u.slices = s.slices ∧ u.cores = s.cores) ∧
      (s.cp.lostPending ≠ 0 → rest.length < 256 → ∃ u x, exec .noticeDelivery s = .next u ∧ u.cp.notices = rest ++ [x] ∧ noticeWritten s u p n ∧
        x.status = 4 ∧ x.result1 = BitVec.ofNat 64 (5 + s.cp.lostPending % 2 ^ 32 * 2 ^ 32) ∧ u.cp.lostPending = 0)) ∧
    (s.pwr.tripCmd = none → (∀ q, q < 64 → (s.ring q).exist = false) → exec .noticeDelivery s = .next s)

/-- R20, R453, R459, R474, R475: a QUERY writes its record, of the last gather, or of the present state before the first one (log
103), and replies with the bytes written and its length; a request to the controller that goes unanswered ends with TIMEOUT. -/
def Sys2Proof.Claims.Queries : Prop :=
  ∀ (s : State) (id : Nat) (ext : ExtAns) (c : Cmd),
    let item := c.n 0
    let m := s.mgmt
    let fab := s.fabric
    let identity := [Config.serial.toNat, fwVersion m, fwVersion m, b2n m.slot + b2n m.trial * 2 + m.svn.toNat * 256 + m.minSvn.toNat * 65536,
      0x4820 + Config.stepping.toNat % 16 * 65536, s.lat.id.toNat, m.time, m.seq].flatMap (leBytes 8)
    let map := leBytes 8 fab.cmapTime ++ leBytes 8 (fab.cmapSeq.toNat + b2n fab.cmapValid * 256 + fab.cmapPeriod.toNat * 65536) ++
      (countFrom 0 256).map (fun i => tget (fun _ => 0) fab.cmap i)
    let wrote := fun (i : Instr) (b : List Byte) => ∃ t, Ends i s id t 0 (min b.length (c.n 2)) b.length ∧ t.cp.cmds = (begun s id).cp.cmds ∧ t.slices = s.slices ∧
      ∀ a, readByte t.host.ring.bytes a = if c.n 1 % 2 ^ 62 ≤ a ∧ a < c.n 1 % 2 ^ 62 + min b.length (c.n 2) then lget 0 b (a - c.n 1 % 2 ^ 62) else readByte s.host.ring.bytes a
    (∀ p ∈ [(Instr.query id ext, false), (.pericaQuery id ext, true)], InTurn s id c 0x70 p.2 → ¬mailEmpty s → exec p.1 s = .next s) ∧
    (InTurn s id c 0x70 false → mailEmpty s → m.gathered = true → item ≤ 7 → c.n 1 / 2 ^ 62 = 1 → c.n 1 % 2 ^ 62 + 4096 ≤ 0x400000 →
      wrote (.query id ext) (readBytes m.snap (4096 * item) (lget 0 [64, 288, 272, 256, 4096, 2048, 128, 128] item))) ∧
    (InTurn s id c 0x70 false → mailEmpty s → m.gathered = false → c.n 1 / 2 ^ 62 = 1 → c.n 1 % 2 ^ 62 + 4096 ≤ 0x400000 →
      (item = 0 → wrote (.query id ext) identity) ∧ (item = 2 → wrote (.query id ext) map) ∧
      (item = 1 → wrote (.query id ext) (paceRec s)) ∧ (item = 3 → wrote (.query id ext) (tempRec s)) ∧
      (item = 4 → wrote (.query id ext) (errRec s)) ∧ (item = 7 → wrote (.query id ext) (powerRec s)) ∧
      (item = 5 → ∃ b, wrote (.query id ext) b ∧ b.length = 2048 ∧ ∀ k, k < 64 →
        ((∀ x ∈ s.cp.streams, x.num ≠ k) → slice b (32 * k) 32 = List.replicate 32 0) ∧
        (∀ x, s.cp.streams.find? (fun x => decide (x.num = k)) = some x → lget 0 b (32 * k) = (if x.revoked then 2 else 1) ∧
          lget 0 b (32 * k + 1) = BitVec.ofNat 8 x.ents.length ∧ slice b (32 * k + 8) 8 = leBytes 8 x.seq ∧ slice b (32 * k + 16) 8 = leBytes 8 x.time)) ∧
      (item = 6 → ∃ b, wrote (.query id ext) b ∧ b.length = 128 ∧
        ∀ p ∈ [(0, 512, 0), (2, 80, 64), (3, 20, 80), (4, 48, 88), (5, 96, 96), (6, 4, 112), (1, 64, 113)], ∀ n, n < p.2.1 →
          (lget 0 b (p.2.2 + n / 8)).getLsbD (n % 8) = unitMark s p.1 n)) ∧
    (InTurn s id c 0x70 false → mailEmpty s → 7 < item → Ends (.query id ext) s id (begun s id) 2 3 0) ∧
    (InTurn s id c 0x70 true → mailEmpty s → c.n 1 / 2 ^ 62 = 1 → c.n 1 % 2 ^ 62 + 4096 ≤ 0x400000 →
      (item = 0 → m.gathered = false → wrote (.pericaQuery id ext) identity) ∧ (item = 0 → m.gathered = true → wrote (.pericaQuery id ext) (readBytes m.snap 0 64)) ∧
      (item = 4 → m.gathered = true → wrote (.pericaQuery id ext) (readBytes m.snap 0x4000 4096)) ∧
      (item ≠ 0 → item ≠ 4 → Ends (.pericaQuery id ext) s id (begun s id) 2 3 0)) ∧
    (s.cmd id = some c → c.started = true → c.op = 0x80 → s.cpUp = true →
      (c.since + 1000 * c.n 5 ≤ s.mgmt.time → Ends (.mgmtRequestTimeout id) s id s 5 0 0) ∧
      (s.mgmt.time < c.since + 1000 * c.n 5 → exec (.mgmtRequestTimeout id) s = .next s))

namespace Sys2Proof.Claims

/-- The core-reset state (R503): threads stopped with empty banks, engines and caches empty, every queue closed. -/
def coreAtReset (x : CoreSt) : Prop :=
  (∀ j, j < 8 → let t := x.t j
    t.st = .stopped ∧ t.regs = [] ∧ t.pc = 0 ∧ t.dsp = 0 ∧ t.rtp = 0 ∧ t.lc = 0 ∧ t.ls = 0 ∧ t.le = 0 ∧ t.priv = decide (j = 0) ∧ t.maxpriv = decide (j = 0) ∧
    t.compat = false ∧ t.df = false ∧ t.cause = 0 ∧ t.entry = 0 ∧ t.segt = 0 ∧ t.ssegt = 0 ∧ t.staging = []) ∧
  x.shadow = {} ∧ x.inShadow = false ∧ x.stopped = false ∧ x.policyStop = false ∧ x.gateCount = 0 ∧ x.gateBase = 0 ∧ x.excvec = 0 ∧ x.dfvec = 0 ∧ x.emstk = 0 ∧
  x.segs = [] ∧ x.icache = [] ∧ x.dc = {} ∧ x.wins = [] ∧ x.keep = {} ∧ x.mtx = {} ∧ x.vec = {} ∧ x.dma = [] ∧ x.evt = 0 ∧ x.queues = [] ∧ x.tclass = 0x5555 ∧
  x.sendErr = 0 ∧ x.sendInfo = 0

/-- A core reset of core `k` (R284, R380, R503): its scratchpad, its debug registers and its fence marks stay; of
its messages only those that have set out remain, and nobody takes their status. -/
def coreResetTo (s u : State) (k : Nat) : Prop :=
  coreAtReset (u.core k) ∧ (u.core k).spad.mem = (s.core k).spad.mem ∧ (u.core k).epoch = nextEpoch (s.core k).epoch ∧ (u.core k).dbg = (s.core k).dbg ∧
  (u.core k).fenced = (s.core k).fenced ∧ (u.core k).hardFence = (s.core k).hardFence ∧ (u.core k).resetCause = (s.core k).resetCause ∧
  ∀ m ∈ u.msgs, ∀ n, m.sender = .thread s.lat.id.toNat k n → m.lost = true ∧ m.status = none

/-- Everything but the management plane is at its reset value; what has left the part remains (R497, R502). -/
def coldExcept (s u : State) : Prop :=
  u = { State.reset with mgmt := u.mgmt, pwr := u.pwr, outbox := s.outbox, nextId := s.nextId, fresh := u.fresh, pending := s.pending }

/-- What no reset of the part changes of the management controller: the fuses, and the flash but for the two banks of the store. -/
def nonVolatile (s u : State) : Prop :=
  u.mgmt.fuses = s.mgmt.fuses ∧ ∀ a, a / 0x10000 ≠ 0x390 → a / 0x10000 ≠ 0x391 → flashByte u.mgmt a = flashByte s.mgmt a

/-- No message, no request, no descriptor: as a cold reset leaves the part, whatever a debugger has written since. -/
def nothingRuns (s : State) : Prop :=
  s.waits = [] ∧ s.msgs = [] ∧ (∀ c ch, ((s.core c).ch ch).reqs = []) ∧
  ∀ k, (s.slice k).skv.prio.desc = none ∧ (s.slice k).skv.prio.queue = [] ∧ (s.slice k).skv.prio.dels = [] ∧
    (s.slice k).skv.ord.desc = none ∧ (s.slice k).skv.ord.queue = [] ∧ (s.slice k).skv.ord.dels = []

/-- The controller's memory as its boot ROM has read the store (R468). -/
def asBooted (s : State) : MgmtSt := storeLoad (keptMgmt s.mgmt)

end Sys2Proof.Claims

/-- R467, R468, R472, R496, R497, R502: a device cold reset leaves every block in its reset state, reads the store and boots the
preferred slot, else the other, else stays in recovery; without its supply the management controller keeps OTP and flash only. -/
def Sys2Proof.Claims.ColdReset : Prop :=
  ∀ (s : State) (pin : Bool),
    let m0 := Sys2Proof.Claims.asBooted s
    let slot := (bootRec m0).1
    let trial := (bootRec m0).2
    let pref := if trial = 2 then !slot else slot
    (∃ u, exec (.deviceColdReset pin) s = .next u ∧ Sys2Proof.Claims.coldExcept s u ∧ Sys2Proof.Claims.nonVolatile s u ∧ u.pwr = {} ∧ u.mgmt.time = 0 ∧
      u.mgmt.booted = false ∧ u.mgmt.trained = false ∧ u.mgmt.reqs = [] ∧ u.mgmt.bmc = [] ∧ u.mgmt.jtag = 0 ∧ u.mgmt.spdm = {} ∧ u.mgmt.temps = [] ∧
      u.mgmt.telemPeriod = 0x3E8 ∧ u.mgmt.minSvn = BitVec.ofNat 8 (minSvnOf s.mgmt) ∧
      (∀ ty, ty ≠ 2 → ty ≠ 3 → tget noBytes u.mgmt.store ty = tget noBytes m0.store ty) ∧
      (bankChoice s.mgmt = none → m0.store = [] ∧ m0.storeOk = false) ∧
      (Sys2Proof.Machine.accepts m0 pref = true → u.mgmt.fwRun = true ∧ u.mgmt.slot = pref ∧ u.mgmt.trial = decide (trial = 1) ∧ u.mgmt.recovery = false) ∧
      (Sys2Proof.Machine.accepts m0 pref = false → Sys2Proof.Machine.accepts m0 (!pref) = true →
        u.mgmt.fwRun = true ∧ u.mgmt.slot = !pref ∧ u.mgmt.trial = false ∧ u.mgmt.recovery = false) ∧
      (Sys2Proof.Machine.accepts m0 pref = false → Sys2Proof.Machine.accepts m0 (!pref) = false →
        u.mgmt.fwRun = false ∧ u.mgmt.recovery = true ∧ u.mgmt.signOk = false) ∧
      (u.mgmt.fwRun = true → u.mgmt.leafNext = leafNext? m0 ∧
        (u.mgmt.signOk = true → u.mgmt.leafNext < 2 ^ 40 ∧ u.mgmt.leafEnd = u.mgmt.leafNext + 1024))) ∧
    ∃ v, exec .managementPowerLoss s = .next v ∧ Sys2Proof.Claims.coldExcept s v ∧ v.mgmt = keptMgmt s.mgmt ∧ v.mgmt.fwRun = false ∧ v.pwr.state = 3 ∧
      ∀ a, flashByte v.mgmt a = flashByte s.mgmt a

/-- R324, R467, R497, R498, R499, R504: stages 5 to 9 train the stacks, fence the units that fail, bring every core to its reset
state, apply the records that pass, calibrate the pacers and raise READY. -/
def Sys2Proof.Claims.StartUp : Prop :=
  ∀ (s : State) (fs fc fp fk : List Nat), s.mgmt.fwRun = true → s.mgmt.booted = false → s.pwr.state ≠ 3 →
    ∃ u, exec (.stackTraining fs fc fp fk) s = .next u ∧
      (Sys2Proof.Claims.nothingRuns s →
        u.host.ready = true ∧ u.mgmt.booted = true ∧ u.mgmt.time = s.mgmt.time ∧
        (∀ q, q < 4 → tget cnt16Def u.pwr.vdd q = 750 ∧ tget cnt16Def u.pwr.vddTarget q = 750) ∧
        (∀ k, k < 64 → (u.cluster k).calOnce = true ∧
          ((s.cluster k).calOnce = false ∨ (s.cluster k).calTime + 1000000 ≤ s.mgmt.time → (u.cluster k).cal = true ∧ (u.cluster k).calTime = s.mgmt.time)) ∧
        (∀ k, k < 80 → k / 4 ∉ fs → (u.slice k).mem = {} ∧ (u.slice k).skv.buf = {} ∧ (u.slice k).clkOk = true ∧ (u.slice k).ready = true) ∧
        (∀ k, k < 80 → k / 4 ∈ fs → (u.slice k).mem = (s.slice k).mem ∧ (u.slice k).ready = (s.slice k).ready ∧ unitMark u 3 (k / 4) = true) ∧
        (∀ k, k < 512 → (u.core k).spad.mem = {} ∧ (u.core k).epoch = (coreDef k).epoch ∧ (u.core k).dbg = (s.core k).dbg ∧
          ∀ j, j < 8 → ((u.core k).t j).st = .stopped ∧ ((u.core k).t j).regs = []) ∧
        (∀ n, n < 64 → n ∈ fc → unitMark u 1 n = true) ∧
        (∀ n, n < 512 → n ∈ fk → unitMark u 0 n = true ∧ ((s.core n).fenced = false → (u.core n).hardFence = true)) ∧
        (∀ n, n < 4 → n ∈ fp → unitMark u 6 n = true) ∧
        (∀ b, storeGet? s.mgmt 6 = some b → fp = [] → fenceRecOk s b = true → ∀ p ∈ fenceRec b, unitMark u p.1 p.2 = true) ∧
        ((∀ b, storeGet? s.mgmt 6 = some b → fenceRecOk s b = false) → fs = [] → fc = [] → fp = [] → fk = [] →
          ∀ p ∈ allUnits, unitMark u p.1 p.2 = unitMark s p.1 p.2) ∧
        (∀ b m, storeGet? s.mgmt 5 = some b → sliceMapRec b = some m → u.smap = m) ∧
        ((storeGet? s.mgmt 5).bind sliceMapRec = none → u.smap = s.smap) ∧
        (storeGet? s.mgmt 7 = none → u.lat.id = s.lat.id ∧ u.lat.rows = s.lat.rows ∧ u.lat.cols = s.lat.cols) ∧
        (s.mgmt.trial = false → u.mgmt = { s.mgmt with booted := true, trained := true }) ∧
        (s.mgmt.trial = true → u.mgmt.trial = false ∧ min 64 s.mgmt.svn.toNat ≤ minSvnOf u.mgmt ∧ u.mgmt.minSvn = BitVec.ofNat 8 (minSvnOf u.mgmt)))

/-- R33, R136, R365, R396, R412, R419, R436, R462, R495, R496, R501, R502: what a device warm reset and a CXL Reset change and keep; a
controller that stays in recovery, or boots its trial image. -/
def Sys2Proof.Claims.WarmReset : Prop :=
  ∀ (s : State) (i : Instr) (fc fp fk : List Nat), i = .deviceWarmReset fc fp fk ∨ i = .cxlReset fc fp fk →
    (s.pwr.state = 3 ∨ coldRuns s = true → exec i s = .next s) ∧
    (s.pwr.state ≠ 3 → s.mgmt.booted = true → s.mgmt.fwRun = true → s.mgmt.trained = true → (bootRec s.mgmt).2 ≠ 1 → ∃ u, exec i s = .next u ∧
      (∀ n, n < 64 → n ∈ fc → unitMark u 1 n = true) ∧ (∀ n, n < 512 → n ∈ fk → unitMark u 0 n = true ∧ ((s.core n).fenced = false → (u.core n).hardFence = true)) ∧
      (∀ n, n < 4 → n ∈ fp → unitMark u 6 n = true)) ∧
    (fc = [] → fp = [] → fk = [] → s.pwr.state ≠ 3 → s.mgmt.booted = true → s.mgmt.fwRun = true → s.mgmt.trained = true → (bootRec s.mgmt).2 ≠ 1 →
      ∃ u, exec i s = .next u ∧
      (∀ k, k < 512 → Sys2Proof.Claims.coreAtReset (u.core k) ∧ (u.core k).spad.mem = (s.core k).spad.mem ∧ (u.core k).epoch = nextEpoch (s.core k).epoch ∧
        (u.core k).dbg = {} ∧ (u.core k).cinch = [] ∧ (u.core k).resetCause = 0 ∧ (u.core k).fenced = (s.core k).fenced) ∧
      (∀ k, k < 64 → (u.cluster k).pacer = (s.cluster k).pacer ∧ (u.cluster k).hintUp = (s.cluster k).hintUp ∧ (u.cluster k).fenced = (s.cluster k).fenced ∧
        (u.cluster k).paceValid = false ∧ (u.cluster k).meshTb = [] ∧ (u.cluster k).reinTb = [] ∧ (u.cluster k).nodes = [] ∧ (u.cluster k).remote = [] ∧
        (u.cluster k).retryMax = 4 ∧
        (if (s.cluster k).calOnce ∧ s.mgmt.time < (s.cluster k).calTime + 1000000 then
          (u.cluster k).cal = (s.cluster k).cal ∧ (u.cluster k).trim = (s.cluster k).trim ∧ (u.cluster k).calTime = (s.cluster k).calTime
        else (u.cluster k).cal = true ∧ (u.cluster k).calTime = s.mgmt.time)) ∧
      (∀ k, k < 80 → (u.slice k).mem = (s.slice k).mem ∧ (u.slice k).skv.buf = (s.slice k).skv.buf ∧ (u.slice k).skv.epoch = nextEpoch (s.slice k).skv.epoch ∧
        (u.slice k).skv.prio = {} ∧ (u.slice k).skv.ord = {} ∧ (u.slice k).skv.careas = [] ∧ (u.slice k).stb = {} ∧ (u.slice k).remote = [] ∧
        (u.slice k).fenced = (s.slice k).fenced ∧ (u.slice k).ceCnt = 0 ∧ (u.slice k).ueCnt = 0) ∧
      (∀ l, l < 48 → u.link l = { s.link l with st := 0, lanes := 0, stage := 0, laneOff := 0, egress := [] }) ∧
      u.lat.id = s.lat.id ∧ u.lat.rows = s.lat.rows ∧ u.lat.cols = s.lat.cols ∧ u.smap = s.smap ∧ u.stackFenced = s.stackFenced ∧
      u.fabric = { planeFenced := s.fabric.planeFenced } ∧ u.cp = {} ∧ u.msgs = [] ∧ u.waits = [] ∧ u.root = [] ∧ u.host.ready = true ∧ u.host.ring = {} ∧
      u.host.config = s.host.config ∧ u.host.msix = s.host.msix ∧ u.mgmt.time = s.mgmt.time ∧ u.mgmt.booted = true ∧
      (s.mgmt.trial = false → u.mgmt = { s.mgmt with parts := [] }) ∧ u.pwr.state = 0 ∧ u.pwr.busy = false ∧ u.pwr.ramp = s.pwr.ramp ∧ u.pwr.tripped = s.pwr.tripped) ∧
    (s.pwr.state ≠ 3 → coldRuns s = false → s.mgmt.fwRun = false → (bootRec s.mgmt).2 ≠ 1 → ∃ u, exec i s = .next u ∧ u.host.ready = false ∧
      u.mgmt = { s.mgmt with parts := [], booted := false } ∧ u.cp = {} ∧ u.msgs = [] ∧ u.pwr.state = 0 ∧
      ∀ k, k < 512 → Sys2Proof.Claims.coreAtReset (u.core k) ∧ (u.core k).spad.mem = (s.core k).spad.mem) ∧
    (s.pwr.state ≠ 3 → coldRuns s = false → (storeLoad s.mgmt).store = s.mgmt.store → (bootRec s.mgmt).2 = 1 →
      let a := Sys2Proof.Machine.accepts s.mgmt (bootRec s.mgmt).1
      let b := Sys2Proof.Machine.accepts s.mgmt (!(bootRec s.mgmt).1)
      ∃ u, exec i s = .next u ∧ u.mgmt.time = s.mgmt.time ∧ u.mgmt.reqs = [] ∧
        (a = true ∨ b = true → u.mgmt.fwRun = true ∧ u.mgmt.recovery = false ∧ u.mgmt.slot = (if a = true then (bootRec s.mgmt).1 else !(bootRec s.mgmt).1)) ∧
        (a = true ∨ b = true → s.mgmt.trained = true → u.mgmt.trial = false ∧ u.mgmt.booted = true ∧ u.host.ready = true) ∧
        (a = false → b = false → u.mgmt.fwRun = false ∧ u.mgmt.recovery = true ∧ u.mgmt.booted = false ∧ u.host.ready = false))

/-- The injection port's queue as a running command processor leaves it: no notice at its head, nobody waiting (R20, R21). -/
def Sys2Proof.Claims.portQuiet (s : State) : Prop :=
  s.cp.injWait = [] ∧ s.cp.inj.length ≤ 64 ∧ ∀ n l, s.cp.inj ≠ .notice n :: l

/-- R23, R27, R421, R436, R495, R502: a host-domain reset restarts the command processor and keeps the data plane, the admitted streams
and what waits at the injection port; the host link trains in the mode that the partner accepts, at its rate or a lower one. -/
def Sys2Proof.Claims.HostDomain : Prop :=
  ∀ (s : State) (mode : Fin 7) (width : BitVec 5) (rate : BitVec 3),
    (s.pwr.state = 3 ∨ coldRuns s = true → exec .hostDomainReset s = .next s) ∧
    (s.pwr.state ≠ 3 → coldRuns s = false → twf sliceDef s.slices = true → ∃ u, exec .hostDomainReset s = .next u ∧
      u.host = { ready := s.mgmt.booted && !s.cp.outOfService } ∧ u.cp.rings = [] ∧ u.cp.cmds = [] ∧ u.cp.streams = s.cp.streams ∧
      u.cp.cpWait = [] ∧ u.waits = s.waits.filter (fun w => !w.isHost) ∧ u.cp.nextSeq = s.cp.nextSeq ∧ u.cp.toMgmt = some {} ∧ u.cp.toCp = none ∧
      u.cp.mgmtWait = [] ∧ u.cp.outOfService = s.cp.outOfService ∧ u.clusters = s.clusters ∧ u.lat = s.lat ∧ u.pwr = s.pwr ∧ u.smap = s.smap ∧
      u.mgmt = { s.mgmt with parts := [] } ∧ (∀ k, u.slice k = { s.slice k with dir := [] }) ∧
      (s.host.waiting ≠ [] → u.reply.map (·.status) = some .unreach) ∧
      (u.host.ready = false ∨ Sys2Proof.Claims.portQuiet s → u.cp.inj = s.cp.inj ∧ u.cp.injWait = s.cp.injWait ∧ u.cp.notices = []) ∧
      (∀ n, u.host.ready = true → s.cp.inj = [.notice n] → s.cp.injWait = [] → u.cp.inj = [] ∧ u.cp.notices = [n]) ∧
      ((∀ r ∈ s.host.waiting, r.slot = none) → u.cores = s.cores ∧ (∀ p, p ≠ 593 → u.port p = s.port p) ∧
        u.fabric = { s.fabric with ports := u.fabric.ports } ∧
        u.msgs.filter (fun m => decide (m.sender ≠ .cp s.lat.id.toNat)) = s.msgs.filter (fun m => decide (m.sender ≠ .cp s.lat.id.toNat)) ∧
        ∀ m ∈ u.msgs, m.sender = .cp s.lat.id.toNat → m.lost = true ∧ m.status = none)) ∧
    (mode.val ≠ 0 → width.toNat ∈ [1, 2, 4, 8, 16] → 1 ≤ rate.toNat →
      rate.toNat ≤ (if mode.val ∈ [1, 4] then 6 else if mode.val ∈ [2, 3, 5] then 5 else 4) → s.pwr.state ≠ 3 → s.cp.portOut = false →
      exec (.hostLinkTrained mode width rate) s = .next { s with host := { s.host with
        mode := BitVec.ofNat 3 mode.val, width := width, rate := rate, cache := decide (mode.val ≤ 3) && s.host.cacheEn, mem := decide (mode.val = 1) && s.host.memEn } }) ∧
    (mode.val = 0 ∨ width.toNat ∉ [1, 2, 4, 8, 16] ∨ rate.toNat = 0 ∨
      (if mode.val ∈ [1, 4] then 6 else if mode.val ∈ [2, 3, 5] then 5 else 4) < rate.toNat →
      exec (.hostLinkTrained mode width rate) s = .next s)

/-- R494, R495, R502, R503: resets of a fenced core and of a fenced cluster. -/
def Sys2Proof.Claims.CoreAndClusterResets : Prop :=
  ∀ (s : State) (c : Fin 512) (k : Fin 64),
    (s.mgmt.fwRun = false ∨ s.pwr.state = 3 ∨ coldRuns s = true → exec (.coreReset c) s = .next s ∧ exec (.clusterReset k) s = .next s) ∧
    (s.mgmt.fwRun = true → s.pwr.state ≠ 3 → coldRuns s = false →
    (s.coreFenced c.val = true → ∃ u, exec (.coreReset c) s = .next u ∧ Sys2Proof.Claims.coreResetTo s u c.val ∧ (∀ j, j ≠ c.val → u.core j = s.core j) ∧ u.clusters = s.clusters ∧
      u.slices = s.slices ∧ u.cp = s.cp ∧ u.host = { s.host with waiting := u.host.waiting } ∧ u.mgmt = s.mgmt ∧ u.pwr = s.pwr ∧ u.lat = s.lat) ∧
    (s.coreFenced c.val = false → exec (.coreReset c) s = .next s) ∧
    ((s.cluster k.val).fenced = true → ∃ u, exec (.clusterReset k) s = .next u ∧ (∀ j, j / 8 = k.val → Sys2Proof.Claims.coreResetTo s u j) ∧ (∀ j, j / 8 ≠ k.val → u.core j = s.core j) ∧
      u.cluster k.val = { s.cluster k.val with hintUp := false, paceValid := false, pace := 0 } ∧ (∀ j, j ≠ k.val → u.cluster j = s.cluster j) ∧ u.slices = s.slices ∧ u.cp = s.cp ∧ u.mgmt = s.mgmt) ∧
    ((s.cluster k.val).fenced = false → exec (.clusterReset k) s = .next s))

namespace Sys2Proof.Claims

/-- The payload of the store with this record is no longer than a bank's LEN may say (R468). -/
def fits (t : State) (ty : Nat) (v : List Byte) : Prop := (storePayload (tset noBytes t.mgmt.store ty v)).length ≤ 65504

/-- A request that a row of the table stands for: a key request of R471 or R513 in its form, one of SPDM's twelve, or whatever came
over the sideband or whole over PCIe. -/
def rowRequest (r : MgmtReq) : Prop :=
  (r.sub = 2 ∧ reqBad r = false) ∨
  (r.sub ≠ 2 ∧ (r.o = .smbus ∨ r.o = .vdm ∨ lget 0 (reqForm r) 0 ∈ spdmCodes))

/-- The next request of the controller is this one, and `t` is the state without it (R463): it stands at the front of the queue, or
comes over the sideband and finds nothing waiting. What follows it is a row's request, too. -/
def NextRequest (s : State) (o : MgmtOrigin) (sub : Nat) (form : List Byte) (t : State) : Prop :=
  s.mgmt.fwRun = true ∧ (∀ r l, t.mgmt.reqs = r :: l → rowRequest r) ∧
  ((o = .smbus ∧ s.mgmt.reqs = [] ∧ t = s) ∨
    ∃ r rest, s.mgmt.reqs = r :: rest ∧ r.o = o ∧ r.sub = sub ∧ reqForm r = form ∧ t = { s with mgmt := { s.mgmt with reqs := rest } })

/-- A request of R471 and R513: its code, two zero bytes, its payload. -/
def KeyTurn (s : State) (o : MgmtOrigin) (code : Nat) (payload : List Byte) (t : State) : Prop :=
  NextRequest s o 2 (leBytes 2 code ++ [0, 0] ++ payload) t

/-- An SPDM request by its code and operands. -/
def SpdmTurn (s : State) (o : MgmtOrigin) (form : List Byte) (t : State) : Prop := NextRequest s o 0 form t

/-- A request of the secured session; DOE carries it as it carries any other. -/
def SecuredTurn (s : State) (o : MgmtOrigin) (form : List Byte) (t : State) : Prop :=
  NextRequest s o 1 form t ∨ (o = .doe ∧ NextRequest s o 0 form t)

/-- What the plane mailbox holds towards the command processor: its slot, then the messages that wait for it (R26). -/
def toCpList (s : State) : List MailMsg := s.cp.toCp.toList ++ s.cp.cpWait
def toMgmtList (s : State) : List MailMsg := s.cp.toMgmt.toList ++ s.cp.mgmtWait

/-- The response leaves: to the BMC over the sideband, in pieces into the plane mailbox otherwise (R463, R26). -/
def Responded (t u : State) (o : MgmtOrigin) (b : List Byte) : Prop :=
  (o = .smbus → u = { t with mgmt := { t.mgmt with bmc := t.mgmt.bmc ++ [b] } }) ∧
  (o ≠ .smbus → (t.cp.toCp = none → t.cp.cpWait = []) → u = { t with cp := { t.cp with toCp := u.cp.toCp, cpWait := u.cp.cpWait } } ∧
    ∃ l, toCpList u = toCpList t ++ l ∧ l.flatMap (·.bytes) = b ∧ l ≠ [] ∧ (∀ m ∈ l, m.o = some o ∧ m.bytes.length ≤ 256) ∧
      (l.map (·.last)) = List.replicate (l.length - 1) false ++ [true])

/-- The command's answer is the response of this code and status to `o`, in state `t` (R471). -/
def KeyAnswer (i : Instr) (s t : State) (o : MgmtOrigin) (code st : Nat) (b : List Byte) : Prop :=
  ∃ u, exec i s = .next u ∧ Responded t u o (leBytes 2 code ++ [BitVec.ofNat 8 st, 0] ++ b)

def SpdmAnswer (i : Instr) (s t : State) (o : MgmtOrigin) (b : List Byte) : Prop := ∃ u, exec i s = .next u ∧ Responded t u o b

/-- `t` with this record of the store, which the other bank now holds with its header (R468, R469). -/
def Stored (t u : State) (ty : Nat) (v : List Byte) : Prop :=
  tget noBytes u.mgmt.store ty = v ∧ (∀ k, k ≠ ty → tget noBytes u.mgmt.store k = tget noBytes t.mgmt.store k) ∧
  u.mgmt.seq = (t.mgmt.seq + 1) % 2 ^ 64 ∧ u.mgmt.bank = !t.mgmt.bank ∧ u.mgmt.storeOk = true ∧
  (∀ a, a / 0x10000 ≠ (if u.mgmt.bank then 0x391 else 0x390) → flashByte u.mgmt a = flashByte t.mgmt a) ∧
  bankRead u.mgmt u.mgmt.bank = some (u.mgmt.seq, storePayload u.mgmt.store) ∧ u.mgmt.reqs = t.mgmt.reqs ∧ u.mgmt.bmc = t.mgmt.bmc ∧ u.cp = t.cp

/-- The image slots after a write of FW_WRITE from byte `a` on (R471). -/
def flashAfter (m m' : MgmtSt) (a : Nat) (data : List Byte) : Prop :=
  ∀ b, flashByte m' b =
    if a ≤ b ∧ b < a + data.length then lget 0 data (b - a)
    else if a / 0x10000 ≤ b / 0x10000 ∧ b / 0x10000 ≤ (a + data.length - 1) / 0x10000 ∧ tget boolDef m.touched (b / 0x10000) = false then 0xFF
    else flashByte m b

/-- A span that DBG_READ and DBG_WRITE refuse (R513). -/
def debugBad (core off n : Nat) : Prop := 512 ≤ core ∨ n < 4 ∨ 4000 < n ∨ n % 4 ≠ 0 ∨ 0x800000 < off + n ∨ (off < 0x400000 ∧ 0x400000 < off + n)

/-- The state with this SPDM connection. -/
def withSpdm (t : State) (x : SpdmSt) : State := { t with mgmt := { t.mgmt with spdm := x } }

/-- The next index can be used at once: signing is available, its child tree's record stands (R472). -/
def canSign (t : State) : Prop :=
  t.mgmt.signOk = true ∧ t.mgmt.leafNext + 1 < 2 ^ 40 ∧ t.mgmt.leafNext + 257 < t.mgmt.leafEnd ∧
  ∃ b, storeGet? t.mgmt 4 = some b ∧ leNat (b.take 4) = t.mgmt.leafNext / 2 ^ 20

/-- The signature of the next index over the response, and the state that has used it. -/
def signature (t : State) (b : List Byte) : List Byte := identitySign ((storeGet? t.mgmt 4).getD []) t.mgmt.leafNext b
def indexUsed (t : State) : State := { t with mgmt := { t.mgmt with leafNext := t.mgmt.leafNext + 1 } }

/-- A DOE or mailbox message has reached the controller whole, nothing else waits there, and `t` is the state without it. -/
def Arrived (s : State) (o : MgmtOrigin) (sub : Nat) (b : List Byte) (t : State) : Prop :=
  s.mgmt.fwRun = true ∧ s.mgmt.reqs = [] ∧ s.mgmt.parts = [] ∧ o ≠ .smbus ∧ o ≠ .vdm ∧
  s.cp.toMgmt = some { o := some o, sub := sub, bytes := b, last := true } ∧
  t = { s with cp := { s.cp with toMgmt := s.cp.mgmtWait.head?, mgmtWait := s.cp.mgmtWait.tail } }

end Sys2Proof.Claims

/-- R26, R424, R463, R471, R453: the plane mailbox delivers in order and a sender that finds its slot full waits; requests queue as they
become complete; a response of MGMT_REQUEST is written to memory, and its command replies with the bytes written and its length. -/
def Sys2Proof.Claims.PlaneMailbox : Prop :=
  ∀ (s : State) (bytes : List Byte) (m : MailMsg) (o : MgmtOrigin) (id : Nat) (ext : ExtAns) (c : Cmd),
    let next := { s with cp := { s.cp with toMgmt := s.cp.mgmtWait.head?, mgmtWait := s.cp.mgmtWait.tail } }
    let read := { s with cp := { s.cp with toCp := s.cp.cpWait.head?, cpWait := s.cp.cpWait.tail } }
    let old := ((s.mgmt.parts.find? (fun r => decide (r.o = o))).map (·.bytes)).getD []
    let got := old ++ m.bytes
    (bytes.length ≤ 256 →
      (s.cpUp = true → s.cp.toMgmt = none → exec (.mailboxSend .toMgmt bytes) s = .next { s with cp := { s.cp with toMgmt := some { bytes := bytes } } }) ∧
      (s.cpUp = true → s.cp.toMgmt = some m →
        exec (.mailboxSend .toMgmt bytes) s = .next { s with cp := { s.cp with mgmtWait := s.cp.mgmtWait ++ [{ bytes := bytes }] } }) ∧
      (s.mgmt.fwRun = true → s.cp.toCp = none → exec (.mailboxSend .toCp bytes) s = .next { s with cp := { s.cp with toCp := some { bytes := bytes } } }) ∧
      (s.mgmt.fwRun = true → s.cp.toCp = some m →
        exec (.mailboxSend .toCp bytes) s = .next { s with cp := { s.cp with cpWait := s.cp.cpWait ++ [{ bytes := bytes }] } })) ∧
    (s.mgmt.fwRun = true → s.cp.toMgmt = some m → m.o = some o →
      (m.last = true → (∀ r l, s.mgmt.reqs ++ [{ o := o, sub := m.sub, bytes := got }] = r :: l → Sys2Proof.Claims.rowRequest r) → exec (.mailboxReceive .toMgmt) s = .next { next with mgmt := { s.mgmt with
        parts := s.mgmt.parts.filter (fun r => decide (r.o ≠ o)), reqs := s.mgmt.reqs ++ [{ o := o, sub := m.sub, bytes := old ++ m.bytes }] } }) ∧
      (m.last = false → exec (.mailboxReceive .toMgmt) s = .next { next with mgmt := { s.mgmt with
        parts := s.mgmt.parts.filter (fun r => decide (r.o ≠ o)) ++ [{ o := o, sub := m.sub, bytes := old ++ m.bytes }] } })) ∧
    (s.mgmt.fwRun = true → s.cp.toMgmt = some m → m.o = none → exec (.mailboxReceive .toMgmt) s = .next next) ∧
    (s.mgmt.fwRun = true → s.cp.toMgmt = some m → m.o = some o → m.last = true → m.sub = 2 → s.mgmt.reqs = [] →
      got.length < 4 ∨ leNat (slice got 2 2) ≠ 0 ∨ keyReqOk (leNat (got.take 2)) (got.drop 4) = false →
      ∃ t u, exec (.mailboxReceive .toMgmt) s = .next u ∧ t.mgmt = { s.mgmt with parts := s.mgmt.parts.filter (fun r => decide (r.o ≠ o)) } ∧ t.cp = next.cp ∧
        Sys2Proof.Claims.Responded t u o (leBytes 2 (leNat (got.take 2)) ++ [1, 0])) ∧
    (s.cpUp = true → s.cp.toCp = some m → m.o = none →
      (∀ n, m.notice = some n → m.done = none → exec (.mailboxReceive .toCp) s = .next (read.notify n)) ∧
      (∀ st r0 r1, m.notice = none → m.done = some (id, st, r0, r1) → exec (.mailboxReceive .toCp) s = .next (finishCmd read id st r0 r1)) ∧
      (m.notice = none → m.done = none → exec (.mailboxReceive .toCp) s = .next read)) ∧
    (s.cpUp = true → s.cp.toCp = some m → m.notice = none → m.done = none → m.o = some .doe → exec (.mailboxReceive .toCp) s = .next (read.out (.mgmtReply .doe (if m.last then 1 else 0) m.bytes))) ∧
    (s.cpUp = true → s.cp.toCp = some m → m.notice = none → m.done = none → m.o = some (.mailbox id) → s.cmd id = some c → c.id = id → m.last = true → c.n 3 / 2 ^ 62 = 1 →
      c.n 3 % 2 ^ 62 + (c.rsp ++ m.bytes).length ≤ 0x400000 →
      ∃ t, Ends (.mailboxReceive .toCp) s id t 0 (min (c.rsp ++ m.bytes).length (c.n 4)) (c.rsp ++ m.bytes).length ∧ t.cp = read.cp ∧
        ∀ a, readByte t.host.ring.bytes a = if c.n 3 % 2 ^ 62 ≤ a ∧ a < c.n 3 % 2 ^ 62 + min (c.rsp ++ m.bytes).length (c.n 4) then
          lget 0 (c.rsp ++ m.bytes) (a - c.n 3 % 2 ^ 62) else readByte s.host.ring.bytes a) ∧
    ((s.cp.toMgmt = none → s.cp.mgmtWait = []) →
      (s.cpUp = true → ∃ u l, exec (.doeRequest bytes) s = .next u ∧ toMgmtList u = toMgmtList s ++ l ∧ l.flatMap (·.bytes) = bytes ∧ (∀ m ∈ l, m.o = some .doe) ∧
        u.mgmt = s.mgmt ∧ u.outbox = s.outbox) ∧
      (InTurn s id c 0x80 false → (∀ d ∈ s.cp.cmds, d.id < id → d.op ≠ 0x80) → c.n 0 ≤ 2 → 1 ≤ c.n 2 → c.n 2 ≤ 4096 → s.host.ring.upsets = [] → c.n 1 / 2 ^ 62 = 1 →
        c.n 1 % 2 ^ 62 + c.n 2 ≤ 0x400000 → cmdExtentOk (c.n 3) (c.n 4) = true →
        ∃ u l, exec (.mgmtRequest id ext) s = .next u ∧ toMgmtList u = toMgmtList s ++ l ∧ l.flatMap (·.bytes) = readBytes s.host.ring.bytes (c.n 1 % 2 ^ 62) (c.n 2) ∧
          (∀ m ∈ l, m.o = some (.mailbox id) ∧ m.sub = c.n 0) ∧ u.cp.cmds = (begun s id).cp.cmds) ∧
      (InTurn s id c 0x80 false → (∃ d ∈ s.cp.cmds, d.id < id ∧ d.op = 0x80) → exec (.mgmtRequest id ext) s = .next s) ∧
      (InTurn s id c 0x80 false → (∀ d ∈ s.cp.cmds, d.id < id → d.op ≠ 0x80) → 2 < c.n 0 → Ends (.mgmtRequest id ext) s id (begun s id) 2 3 0))

/-- R463, R467, R469, R471, R472: the key requests, in the order in which the controller received them; what comes over the sideband
while others wait joins them, and a VDM passes through the plane mailbox. -/
def Sys2Proof.Claims.KeyRequests : Prop :=
  ∀ (s t : State) (o : MgmtOrigin) (off : Half) (data value : List Byte) (ty : BitVec 16),
    let other := !t.mgmt.slot
    let base := if other then 0x1D00000 else 0x100000
    let pub : List Byte := [1, 0, 0, 0]
    (KeyTurn s o 1 [] t → identityKey.length = 60 ∧ KeyAnswer (.idPubkey o) s t o 1 0 identityKey) ∧
    (s.mgmt.fwRun = true → (∀ r l, s.mgmt.reqs = r :: l → r.o ≠ o) →
      (o = .smbus → s.mgmt.reqs ≠ [] → { o := o, sub := 2, bytes := pub } ∉ s.mgmt.reqs →
        exec (.idPubkey o) s = .next { s with mgmt := { s.mgmt with reqs := s.mgmt.reqs ++ [{ o := o, sub := 2, bytes := pub }] } }) ∧
      (o = .vdm → s.cpUp = true → vdmBusy s = false →
        (s.cp.toMgmt = none → exec (.idPubkey o) s = .next { s with cp := { s.cp with toMgmt := some { o := some o, sub := 2, bytes := pub } } }) ∧
        (∀ m, s.cp.toMgmt = some m →
          exec (.idPubkey o) s = .next { s with cp := { s.cp with mgmtWait := s.cp.mgmtWait ++ [{ o := some o, sub := 2, bytes := pub }] } })) ∧
      (o ≠ .smbus → o ≠ .vdm → exec (.idPubkey o) s = .next s)) ∧
    (KeyTurn s o 2 [] t → KeyAnswer (.leafStatus o) s t o 2 0
      (leBytes 8 t.mgmt.leafNext ++ leBytes 8 (leNat ((storeGet? t.mgmt 3).getD [])) ++ leBytes 8 (2 ^ 40 - t.mgmt.leafNext))) ∧
    (KeyTurn s o 3 (leBytes 4 off.toNat ++ leBytes 4 data.length ++ data) t →
      (1 ≤ data.length → data.length ≤ 4000 → off.toNat + data.length ≤ 0x1C00000 → ∃ v, KeyAnswer (.fwWrite o off data) s v o 3 0 [] ∧
        flashAfter t.mgmt v.mgmt (base + off.toNat) data ∧ v.mgmt.store = t.mgmt.store ∧ v.mgmt.bmc = t.mgmt.bmc ∧ v.mgmt.reqs = t.mgmt.reqs ∧ v.cp = t.cp ∧ v.cores = t.cores) ∧
      (data.length = 0 ∨ 4000 < data.length ∨ 0x1C00000 < off.toNat + data.length → KeyAnswer (.fwWrite o off data) s t o 3 1 [])) ∧
    (KeyTurn s o 4 [] t →
      (Sys2Proof.Machine.accepts t.mgmt other = true → Sys2Proof.Claims.fits t 2 [if other then 1 else 0, 1] → Config.storeReads t.fresh = true →
        ∃ v, KeyAnswer (.fwActivate o) s v o 4 0 [] ∧ Stored t v 2 [if other then 1 else 0, 1]) ∧
      (Sys2Proof.Machine.accepts t.mgmt other = true → Config.storeReads t.fresh = false → Config.storeReads (t.fresh + 1) = false →
        ∃ v, KeyAnswer (.fwActivate o) s v o 4 3 [] ∧
          v.mgmt = { sectorErase t.mgmt (if t.mgmt.bank then 0x390 else 0x391) with storeOk := false } ∧ v.cp = t.cp) ∧
      (Sys2Proof.Machine.accepts t.mgmt other = false → KeyAnswer (.fwActivate o) s t o 4 2 [])) ∧
    (KeyTurn s o 5 (leBytes 2 ty.toNat) t → let v := tget noBytes t.mgmt.store ty.toNat
      (ty = 1 → KeyAnswer (.storeGet o ty) s t o 5 0 (leBytes 8 Config.serial.toNat)) ∧
      (ty ≠ 1 → v ≠ [] → KeyAnswer (.storeGet o ty) s t o 5 0 v) ∧ (ty ≠ 1 → v = [] → KeyAnswer (.storeGet o ty) s t o 5 1 [])) ∧
    (KeyTurn s o 6 (leBytes 2 ty.toNat ++ value) t →
      (ty ≠ 5 → ty ≠ 6 → ty ≠ 7 → KeyAnswer (.storePut o ty value) s t o 6 1 []) ∧
      (ty = 5 → sliceMapRec value = none → KeyAnswer (.storePut o ty value) s t o 6 1 []) ∧
      (ty = 6 → fenceRecOk t value = false → KeyAnswer (.storePut o ty value) s t o 6 1 []) ∧
      ((ty = 5 ∧ sliceMapRec value ≠ none ∨ ty = 6 ∧ fenceRecOk t value = true ∨ ty = 7 ∧ latigoRec t value ≠ none) → Sys2Proof.Claims.fits t ty.toNat value → Config.storeReads t.fresh = true →
        ∃ v, KeyAnswer (.storePut o ty value) s v o 6 0 [] ∧ Stored t v ty.toNat value)) ∧
    (s.mgmt.fwRun = false → s.mgmt.recovery = true → s.mgmt.reqs = [] →
      (Sys2Proof.Machine.accepts s.mgmt (!s.mgmt.slot) = false → KeyAnswer (.fwActivate .smbus) s s .smbus 4 2 []) ∧
      exec (.idPubkey .smbus) s = .next s ∧ exec (.storeGet .smbus ty) s = .next s)

/-- R513: DBG_READ and DBG_WRITE reach the scratchpad by physical row and every register of the core's block. -/
def Sys2Proof.Claims.DebugRequests : Prop :=
  ∀ (s t : State) (o : MgmtOrigin) (core : BitVec 16) (off len : Half) (data : List Byte),
    let c := core.toNat
    let a := off.toNat
    let n := len.toNat
    let k := data.length
    let rd := Instr.dbgRead o core off len
    let wr := Instr.dbgWrite o core off data
    let block := coreBlock c + (a - 0x400000)
    let form := leBytes 2 0x11 ++ [0, 0] ++ (leBytes 2 c ++ [0, 0] ++ leBytes 4 a ++ leBytes 4 k ++ data)
    (KeyTurn s o 0x10 (leBytes 2 c ++ [0, 0] ++ leBytes 4 a ++ leBytes 4 n) t →
      (t.pwr.state ≠ 3 → c < 512 → 4 ≤ n → n ≤ 4000 → n % 4 = 0 →
        (a + n ≤ 0x400000 → (t.core c).spad.mem.upsets = [] → (t.core c).spad.mem.poison = [] → ∃ v, KeyAnswer rd s v o 0x10 0 (readBytes (t.core c).spad.mem.bytes a n) ∧ v.cp = t.cp ∧ v.mgmt = t.mgmt ∧
          ∀ j, v.core j = t.core j) ∧
        (0x400000 ≤ a → a + n ≤ 0x800000 → (regRead t .mgmt block n).1 = .ok →
          KeyAnswer rd s (regRead t .mgmt block n).2.2 o 0x10 0 (regRead t .mgmt block n).2.1)) ∧
      ((t.pwr.state = 3 ∨ debugBad c a n) → KeyAnswer rd s t o 0x10 1 [])) ∧
    (KeyTurn s o 0x11 (leBytes 2 c ++ [0, 0] ++ leBytes 4 a ++ leBytes 4 k ++ data) t →
      (t.pwr.state ≠ 3 → c < 512 → 4 ≤ k → k ≤ 4000 → k % 4 = 0 →
        (a + k ≤ 0x400000 → (t.core c).spad.mem.upsets = [] → (t.core c).spad.mem.poison = [] → ∃ v, KeyAnswer wr s v o 0x11 0 [] ∧ v.cp = t.cp ∧ v.mgmt = t.mgmt ∧
          (∀ b, readByte (v.core c).spad.mem.bytes b = if a ≤ b ∧ b < a + k then lget 0 data (b - a) else readByte (t.core c).spad.mem.bytes b) ∧
          (∀ j, j ≠ c → v.core j = t.core j)) ∧
        (0x400000 ≤ a → a + k ≤ 0x800000 → (regW t .mgmt block data (List.replicate k true)).1 = .ok →
          KeyAnswer wr s (regW t .mgmt block data (List.replicate k true)).2 o 0x11 0 []) ∧
        (0x400000 ≤ a → a + k ≤ 0x800000 → (regW t .mgmt block data (List.replicate k true)).1 ≠ .ok →
          (regW t .mgmt block data (List.replicate k true)).1 ≠ .wait → KeyAnswer wr s t o 0x11 1 []) ∧
        (0x400000 ≤ a → a + k ≤ 0x800000 → (regW t .mgmt block data (List.replicate k true)).1 = .wait →
          (s.mgmt.reqs ≠ [] → exec wr s = .next s) ∧
          (s.mgmt.reqs = [] → exec wr s = .next { s with mgmt := { s.mgmt with reqs := [{ o := o, sub := 2, bytes := form }] } }))) ∧
      ((t.pwr.state = 3 ∨ debugBad c a k) → KeyAnswer wr s t o 0x11 1 []))

/-- R420, R424, R473: SPDM requests, and the key management that sets the link keys. The connection's states, the error codes' numbers,
one session at a time and the operands' form are log 25; the contents that the standards give are Config's. -/
def Sys2Proof.Claims.Attestation : Prop :=
  ∀ (s t : State) (o : MgmtOrigin) (b nonce : List Byte) (slot : Fin 8) (off len session : Nat) (idx : BitVec 8),
    let x := t.mgmt.spdm
    let err := fun (code : Byte) => ([0x13, 0x7F, code, 0] : List Byte)
    let std := Config.standardAnswer
    let secure := x.session = some session ∧ x.finished = true
    let num : Byte := BitVec.ofNat 8 slot.val
    let ses := leBytes 4 session
    (SpdmTurn s o [0x84] t → SpdmAnswer (.getVersion o) s (withSpdm t { x with version := true, caps := false, algs := false }) o (std 32 [])) ∧
    (SpdmTurn s o (0xE1 :: b) t →
      (x.version = true → SpdmAnswer (.getCapabilities o b) s (withSpdm t { x with caps := true }) o (std 33 b)) ∧
      (x.version = false → SpdmAnswer (.getCapabilities o b) s t o (err 4))) ∧
    (SpdmTurn s o (0xE3 :: b) t →
      (x.caps = true → SpdmAnswer (.negotiateAlgorithms o b) s (withSpdm t { x with algs := true }) o (std 34 b)) ∧
      (x.caps = false → SpdmAnswer (.negotiateAlgorithms o b) s t o (err 4))) ∧
    (SpdmTurn s o [0x81] t →
      (x.algs = true → SpdmAnswer (.getDigests o) s t o (std 35 (Config.sha384 (flashBytes t.mgmt 0 0x100000)))) ∧
      (x.algs = false → SpdmAnswer (.getDigests o) s t o (err 4))) ∧
    (SpdmTurn s o (0x82 :: num :: (leBytes 2 off ++ leBytes 2 len)) t → x.algs = true →
      (slot.val = 0 → SpdmAnswer (.getCertificate o slot off len) s t o (std 36 (leBytes 2 off ++ leBytes 2 len ++ flashBytes t.mgmt 0 0x100000))) ∧
      (slot.val ≠ 0 → SpdmAnswer (.getCertificate o slot off len) s t o (err 1))) ∧
    (SpdmTurn s o (0x83 :: num :: nonce) t →
      (x.algs = false → SpdmAnswer (.challenge o slot nonce) s t o (err 4)) ∧
      (x.algs = true → slot.val ≠ 0 → SpdmAnswer (.challenge o slot nonce) s t o (err 1)) ∧
      (x.algs = true → slot.val = 0 → canSign t → SpdmAnswer (.challenge o slot nonce) s (indexUsed t) o (std 37 nonce ++ signature t (std 37 nonce))) ∧
      (x.algs = true → slot.val = 0 → t.mgmt.signOk = false → t.mgmt.leafNext < 2 ^ 40 →
        ∃ v, SpdmAnswer (.challenge o slot nonce) s v o (err 3) ∧ v.mgmt.leafNext = t.mgmt.leafNext) ∧
      (x.algs = true → slot.val = 0 → 2 ^ 40 ≤ t.mgmt.leafNext → SpdmAnswer (.challenge o slot nonce) s t o (err 5))) ∧
    (∀ sg : Bool, SpdmTurn s o (0xE0 :: idx :: (if sg then 1 else 0) :: nonce) t → x.algs = true →
      let m := std 38 (idx :: (nonce ++ std (64 + idx.toNat) (measured t.mgmt idx.toNat)))
      (1 ≤ idx.toNat → idx.toNat ≤ 4 → sg = false → SpdmAnswer (.getMeasurements o idx sg nonce) s t o m) ∧
      (1 ≤ idx.toNat → idx.toNat ≤ 4 → sg = true → canSign t → SpdmAnswer (.getMeasurements o idx sg nonce) s (indexUsed t) o (m ++ signature t m)) ∧
      (4 < idx.toNat → idx.toNat ≠ 255 → SpdmAnswer (.getMeasurements o idx sg nonce) s t o (err 1))) ∧
    (SpdmTurn s o (0xE4 :: num :: b) t → x.algs = true → slot.val = 0 → canSign t → ∃ k, k < 2 ^ 32 ∧
      ∃ v, v.mgmt = { (indexUsed t).mgmt with spdm := { x with session := some k, finished := false, keyGen := 0 } } ∧ v.cp = t.cp ∧
        SpdmAnswer (.keyExchange o slot b) s v o (std 39 b ++ signature t (std 39 b))) ∧
    (SecuredTurn s o (0xE5 :: (ses ++ b)) t →
      (x.session = some session → x.finished = false → Config.finishOk session b = true →
        SpdmAnswer (.finish o session b) s (withSpdm t { x with finished := true }) o (std 40 b)) ∧
      (x.session ≠ some session → SpdmAnswer (.finish o session b) s t o (err 2))) ∧
    (SecuredTurn s o (0xE9 :: ses) t →
      (secure → SpdmAnswer (.keyUpdate o session) s (withSpdm t { x with keyGen := x.keyGen + 1 }) o (std 41 [])) ∧
      (¬secure → SpdmAnswer (.keyUpdate o session) s t o (err 2))) ∧
    (SecuredTurn s o (0xE8 :: ses) t →
      (secure → SpdmAnswer (.heartbeat o session) s t o (std 42 [])) ∧ (¬secure → SpdmAnswer (.heartbeat o session) s t o (err 2))) ∧
    (SecuredTurn s o (0xEC :: ses) t →
      (secure → SpdmAnswer (.endSession o session) s (withSpdm t { x with session := none, finished := false }) o (std 43 [])) ∧
      (¬secure → SpdmAnswer (.endSession o session) s t o (err 2))) ∧
    (∀ sub, Arrived s o sub b t → sub ≤ 1 →
      let form := Config.spdmRequest sub b
      let key := Config.ideKm form.tail
      let h := t.host
      let answered := fun (v : State) (a : List Byte) => ∃ u, exec (.mailboxReceive .toMgmt) s = .next u ∧ Responded v u o a
      (lget 0 form 0 ∉ spdmCodes → lget 0 form 0 ≠ 0xFE → answered t (err 7)) ∧
      (lget 0 form 0 = 0xFE → x.session = none ∨ x.finished = false ∨ sub = 0 ∧ o ≠ .doe → answered t (err 2)) ∧
      (lget 0 form 0 = 0xFE → x.session ≠ none → x.finished = true → sub = 1 ∨ o = .doe →
        (key.1 = 1 → key.2.2.length = 32 → key.2.1 < 3 → answered { t with host := { h with ideKeys := tset noBytes h.ideKeys key.2.1 key.2.2 } } (std 49 form.tail)) ∧
        (key.1 = 2 → tget noBytes h.ideKeys key.2.1 ≠ [] →
          (key.2.1 = 0 → answered { t with host := { h with ideIo := true, ideInsecure := false } } (std 49 form.tail)) ∧
          (key.2.1 = 1 → answered { t with host := { h with ideSel := true, selInsecure := false } } (std 49 form.tail)) ∧
          (key.2.1 = 2 → answered { t with host := { h with ideCm := true, cmInsecure := false } } (std 49 form.tail)))))

/-- R464, R542: the sideband: MCTP control, JTAG and what drives the pins (log 8), the BMC's reads. -/
def Sys2Proof.Claims.Sideband : Prop :=
  ∀ (s : State) (b : List Byte) (rest : List (List Byte)),
    let jtag := fun (code : BitVec 8) (pins : PinDrive) => { s with mgmt := { s.mgmt with jtag := code, pins := pins } }
    let pass := (jtag 0 .system).out (.jtag 0)
    let scanned := fun (u : State) (code : BitVec 8) (pins : PinDrive) =>
      u.mgmt = { (jtag code pins).mgmt with boundary := u.mgmt.boundary } ∧ (∃ n, u.outbox = s.outbox ++ [.jtag n]) ∧ u.cores = s.cores ∧ u.cp = s.cp
    (∀ t, NextRequest s .smbus 3 b t → SpdmAnswer (.mctpControlMessage false b) s t .smbus (Config.standardAnswer 48 b)) ∧
    (∀ t, NextRequest s .vdm 3 b t → SpdmAnswer (.mctpControlMessage true b) s t .vdm (Config.standardAnswer 48 b)) ∧
    (s.mgmt.fwRun = false → s.mgmt.recovery = true → s.mgmt.reqs = [] → SpdmAnswer (.mctpControlMessage false b) s s .smbus (Config.standardAnswer 48 b)) ∧
    exec .bypass s = .next pass ∧
    exec .idcode s = .next ((jtag 1 .system).out (.jtag (Config.stepping.toNat % 16 * 2 ^ 28 + 0x4820 * 2 ^ 12 + Config.jedecId.toNat * 2 + 1))) ∧
    (∃ u, exec .samplePreload s = .next u ∧ scanned u 2 .system) ∧
    (s.mgmt.fwStarted = false → (∃ u, exec .extest s = .next u ∧ scanned u 3 .boundary) ∧
      exec .clamp s = .next ((jtag 4 .boundary).out (.jtag 0)) ∧ exec .highz s = .next ((jtag 5 .highZ).out (.jtag 0))) ∧
    (s.mgmt.fwStarted = true → exec .extest s = .next pass ∧ exec .clamp s = .next pass ∧ exec .highz s = .next pass) ∧
    (s.mgmt.bmc = b :: rest → exec .bmcMessageRead s = .next ({ s with mgmt := { s.mgmt with bmc := rest } }.out (.bmc b))) ∧
    (s.mgmt.bmc = [] → exec .bmcMessageRead s = .next s)

/-- R474, R475: a gather builds all the records at once, of the readings it takes and of the state; QUERY and the vendor-defined MCTP
query answer with them. -/
def Sys2Proof.Claims.Telemetry : Prop :=
  ∀ (s : State) (sensors : List (BitVec 16)) (rails : List (BitVec 16 × Half)) (power : Half), sensors.length = 89 → rails.length = 12 → s.mgmt.fwRun = true →
    ∃ u, exec (.telemetryGather sensors rails power) s = .next u ∧ u = { s with mgmt := { s.mgmt with temps := u.mgmt.temps, rails := u.mgmt.rails, power := power, gathered := true, snap := u.mgmt.snap } } ∧
      (∀ item, item < 8 → queryRec u item = liveRec { s with mgmt := { s.mgmt with temps := u.mgmt.temps, rails := u.mgmt.rails, power := power } } item ∧
        (queryRec u item).length = recBytes item) ∧
      let at_ := fun (o n : Nat) => leNat (readBytes u.mgmt.snap o n)
      let pace := fun (valid : Bool) (v : BitVec 16) => if valid = true then v.toNat else 0
      (∀ k, k < 64 → at_ (0x1000 + 2 * k) 2 = pace (s.cluster k).paceValid (s.cluster k).pace) ∧
      (∀ k, k < 80 → at_ (0x1080 + 2 * k) 2 = pace (s.slice k).paceValid (s.slice k).pace) ∧
      (∀ i, i < 89 → at_ (0x3000 + 2 * i) 2 = (lget 0 sensors i).toNat) ∧ (∀ i, 89 ≤ i → i < 128 → at_ (0x3000 + 2 * i) 2 = 0x8000) ∧
      (∀ c, c < 512 → at_ (0x4000 + 4 * c) 4 = (s.core c).spad.ceCnt.toNat + (s.core c).sendErr.toNat * 65536) ∧
      (∀ k, k < 80 → at_ (0x4800 + 8 * k) 4 = (s.slice k).ceCnt.toNat + (s.slice k).ueCnt.toNat * 65536 ∧ at_ (0x4804 + 8 * k) 4 = (s.slice k).skv.err.toNat) ∧
      (∀ k, k < 64 → at_ (0x4A80 + 4 * k) 4 = (s.cluster k).crc.toNat + (s.cluster k).resend.toNat * 65536) ∧
      (∀ l, l < 48 → at_ (0x4B80 + 4 * l) 4 = (s.link l).corr.toNat + (s.link l).uncorr.toNat * 65536) ∧
      at_ 0x4C40 4 = s.lat.noroute.toNat + s.lat.cinchLost.toNat * 65536 ∧ at_ 0x4C44 4 = s.host.bar2Wr.toNat + s.host.memErr.toNat * 65536 ∧
      at_ 0x7000 8 = s.pwr.state.toNat + s.pwr.tripCause.toNat * 256 ∧ at_ 0x7018 8 = power.toNat ∧
      (∀ q, q < 4 → at_ (0x7008 + 2 * q) 2 = (tget cnt16Def s.pwr.vddTarget q).toNat ∧ at_ (0x7010 + 2 * q) 2 = (tget cnt16Def s.pwr.vdd q).toNat) ∧
      (∀ r, r < 12 → at_ (0x7020 + 8 * r) 8 = (lget (0, 0) rails r).1.toNat + (lget (0, 0) rails r).2.toNat * 65536)

/-- The model's queue of waiting commands: a step runs the command at its front on the rest of the queue. -/
def Obligations.StepRunsFront : Prop :=
  ∀ (c : Instr) (rest : List Instr) (s : State), step { s with pending := c :: rest } = exec c { s with pending := rest }

/-- R29, R31, R32, R36, R132, R480: with no command waiting, 10 ns pass (the model's choice, log 9): the management time goes on, and so do the
pacers, but for OFF-RAILS, the clocks of the stacks that have theirs, and the ticks for which a core's condition of deadlock has held. -/
def Obligations.IdleTick : Prop :=
  ∀ s : State, s.pending = [] → ∃ u, step s = .next u ∧
    u = { s with cores := u.cores, clusters := u.clusters, slices := u.slices, mgmt := { s.mgmt with time := s.mgmt.time + 10 } } ∧
    (∀ k, u.slice k = if k < 80 ∧ (s.slice k).clkOk = true then { s.slice k with clock := (s.slice k).clock + 10000 } else s.slice k) ∧
    (∀ k, u.cluster k = if k < 64 ∧ s.pwr.state ≠ 3 then { s.cluster k with pacer := (s.cluster k).pacer + 1 } else s.cluster k) ∧
    (twf coreDef s.cores = true → ∀ k, u.core k =
      if s.pwr.state ≠ 3 ∧ k ∈ s.cores.map (·.1) ∧ coreRuns s k = true then
        { s.core k with dlTicks := if deadlocked s k = true then min 100 ((s.core k).dlTicks + 1) else 0 }
      else s.core k)

/-- R136, R153, R156, R255, R315, R323, R382 to R389, R419, R476, R492, R503, R504: registers that the spec gives a reset value other
than zero, in every block of their kind, and state after reset. -/
def Obligations.ResetValues : Prop :=
  let s := State.reset
  let reads := fun (a v : Nat) => regRead s .mgmt a 4 = (.ok, leBytes 4 v, s)
  (∀ k, k < 512 → ∀ p ∈ [(0x000, 0), (0x008, 0), (0x030, 0), (0x404, 0x10), (0xE00, 0x5555), (0x1800, 1)], reads (0x028000400000 + k * 0x800000 + p.1) p.2) ∧
  (∀ k, k < 64 → ∀ p ∈ [(0x440, 0xA), (0x444, 0x010306), (0x448, 0x401F4), (0x500, 0)], reads (0x030000000000 + k * 0x10000 + p.1) p.2) ∧
  (∀ k, k < 80 → ∀ p ∈ [(0x10, 0x18), (0x4C, 1), (0x108, 0xA), (0x10C, 0x401E8)], reads (0x030001000000 + k * 0x200000 + p.1) p.2) ∧
  (∀ p ∈ [(0x00C, 0x3E8), (0x100, 0), (0x104, 0x8000C801), (0x108, 0), (0x200, 0xFFFFFFFF), (0x204, 0xFFFFFFFF), (0x208, 0xFFFF), (0x20C, 80), (0x600, 0x64),
      (0x2004, 0x10), (0x2008, 0x47D00FA0)], reads (0x03000D000000 + p.1) p.2) ∧
  (∀ k j, k < 512 → j < 8 → ((s.core k).t j).st = .stopped ∧ ((s.core k).t j).priv = decide (j = 0) ∧ ((s.core k).t j).regs = [] ∧ ((s.core k).t j).pc = 0) ∧
  (∀ k a, readByte (s.core k).spad.mem.bytes a = 0 ∧ readByte (s.slice k).mem.bytes a = 0 ∧ readByte (s.slice k).skv.buf.bytes a = 0) ∧
  (∀ k, (s.slice k).skv.ctl = 0x42 ∧ (s.core k).queues = [] ∧ (s.core k).fenced = false) ∧
  s.cp.rings = [] ∧ s.cp.streams = [] ∧ s.host.ready = false ∧ s.mgmt.time = 0 ∧ s.pending = [] ∧ ∀ i ∈ s.pending, i.wf = true

/-- Every command answers a next state in every state: none faults and none is refused. An event of a form that the spec does not give
changes nothing (the model's choice, log 88). -/
def Obligations.WellFormedCommandsRun : Prop :=
  ∀ (i : Instr) (s : State), (∃ t, exec i s = .next t) ∧ (i.wf = false → exec i s = .next s)

/-- No step stops, and no command touches the queue: every queue of commands runs to its end; well-formed ones stay so, an invariant
that every step keeps. -/
def Obligations.RunsNeverStop : Prop :=
  ∀ s : State,
    (∃ t, step s = .next t ∧ t.pending = s.pending.tail ∧ ((∀ i ∈ s.pending, i.wf = true) → ∀ i ∈ t.pending, i.wf = true)) ∧
    ∃ t, Host.Core.run Sys2Proof.core s.pending.length s = .next t ∧ t.pending = []

namespace Sys2Proof.Claims

/-- A command packet of version 2 as R444 lays it out: header and seven parameter words. -/
def packet (tag : BitVec 16) (op : Nat) (seq quiet : Bool) (len : Nat) (ps : List Word) : List Byte :=
  leBytes 8 (op + 2 * 2 ^ 16 + (if seq then 2 ^ 24 else 0) + (if quiet then 2 ^ 25 else 0) + len * 2 ^ 32 + tag.toNat * 2 ^ 48) ++
    ps.flatMap (fun w => leBytes 8 w.toNat)

/-- A packet of a version-1 ring as R459 lays it out: POP, TAG and five parameter words. -/
def pericaPacket (tag : BitVec 16) (pop : Nat) (ps : List Word) : List Byte :=
  leBytes 8 (pop + tag.toNat * 2 ^ 16) ++ ps.flatMap (fun w => leBytes 8 w.toNat)

/-- The command that a version-1 entry of pair `p` makes. -/
def pericaCmd (id p : Nat) (r : RingSt) (tag : BitVec 16) (pop : Nat) (ps : List Word) : Cmd :=
  { id := id, ring := some (Fin.ofNat 64 p), pos := (r.sqHead + 1).toNat, tag := tag, opcode := pop, version := 1, quiet := false, seq := false, params := ps, base := r.coreBase }

end Sys2Proof.Claims

/-- R438, R443, R444, R453, R459: a packet written out from its fields is taken as the command of those fields, for every opcode of both
ring versions, every tag, both flags and every parameter word that sets no bit it may not set. -/
def Sys2Proof.Claims.CommandPacketsRoundTrip : Prop :=
  ∀ (s : State) (tag : BitVec 16) (op : Nat) (seq quiet : Bool) (ps : List Word) (p : Nat) (entry : List Byte),
    let r := s.ring p
    let at_ := r.subBase.toNat + r.sqSize * (r.sqHead.toNat % 2 ^ r.sqLog2)
    s.cpUp = true → s.cp.cmds.length < 256 →
    (∀ masks, op < 2 ^ 16 → opMasks op = some masks → ps.length = 7 → badParam op masks ps = none → s.host.mailIn = some (packet tag op seq quiet (8 * masks.length) ps) →
      (op ≤ 2 ∨ ∀ q, q < 64 → (s.ring q).exist = false) →
      exec (.commandTake entry .ok) s = .next { s with
        host := { s.host with mailIn := s.host.mailQueue.head?, mailQueue := s.host.mailQueue.tail }
        cp := { s.cp with cmds := s.cp.cmds ++ [{ id := s.nextId, ring := none, pos := 0, tag := tag, opcode := op, version := 2, quiet := quiet, seq := seq, params := ps }] }
        nextId := s.nextId + 1 }) ∧
    (∀ op', pericaOp op = some op' → ps.length = 5 → badParam op' ((opMasks op').getD []) ps = none → s.host.mailIn = none → nextPair s = some p → r.version = 1 →
      s.host.ring.upsets = [] → at_ / 2 ^ 62 = 1 → readBytes s.host.ring.bytes (at_ % 2 ^ 62) 48 = pericaPacket tag op ps →
      ∃ u, exec (.commandTake entry .ok) s = .next u ∧ u.nextId = s.nextId + 1 ∧ u.cp.cmds = s.cp.cmds ++ [pericaCmd s.nextId p r tag op ps] ∧
        u.ring p = { r with sqHead := r.sqHead + 1, reserved := r.reserved + 1 })

namespace Sys2Proof.Claims

/-- A register number's five bits. -/
def r5 (r : Reg) : BitVec 5 := BitVec.ofNat 5 r.val
/-- A long operation's word: bit 31 zero, the major opcode, 24 bits of its layout (R81). -/
def longWord (op : BitVec 7) (rest : BitVec 24) : BitVec 32 := (0 : BitVec 1) ++ op ++ rest
/-- The layouts R, I, B, U and M of R81. -/
def wordR (op : BitVec 7) (rd ra rb : Reg) (fn : BitVec 9) : BitVec 32 := longWord op (r5 rd ++ r5 ra ++ r5 rb ++ fn)
def wordI (op : BitVec 7) (rd ra : Reg) (i : BitVec 14) : BitVec 32 := longWord op (r5 rd ++ r5 ra ++ i)
def wordU (op : BitVec 7) (rd : Reg) (u : BitVec 19) : BitVec 32 := longWord op (r5 rd ++ u)
def wordM (op : BitVec 7) (rd ra : Reg) (mode size : BitVec 2) (low : BitVec 10) : BitVec 32 := longWord op (r5 rd ++ r5 ra ++ mode ++ size ++ low)
/-- A pair: bit 31, bit 30 zero, and two halves of op5, rd and ra or imm5 (R82). -/
def pairWord (hi lo : BitVec 15) : BitVec 32 := (2 : BitVec 2) ++ hi ++ lo
def halfWord (op5 : BitVec 5) (rd : Reg) (low : BitVec 5) : BitVec 15 := op5 ++ r5 rd ++ low

/-- fn codes of the integer and F64 groups with two sources, and of the one-source forms of groups 0x02 and 0x04 (R108). -/
def integerCodes : List (BitVec 9 × Cmd3) :=
  [(0x000, .add), (0x001, .sub), (0x002, .and), (0x003, .or), (0x004, .xor), (0x005, .shl), (0x006, .shr), (0x007, .sar), (0x008, .mul), (0x009, .mulh),
   (0x00A, .mulhu), (0x00B, .div), (0x00C, .divu), (0x00D, .rem), (0x00E, .remu), (0x00F, .min), (0x010, .max), (0x011, .minu), (0x012, .maxu),
   (0x013, .slt), (0x014, .sltu), (0x015, .seq)]
def f64Codes : List (BitVec 9 × Cmd3) :=
  [(0x000, .fAdd), (0x001, .fSub), (0x002, .fMul), (0x003, .fDiv), (0x005, .fMin), (0x006, .fMax), (0x007, .fEq), (0x008, .fLt), (0x009, .fLe)]
def oneSourceCodes : List (BitVec 7 × BitVec 9 × Cmd2) :=
  [(2, 0x004, .fSqrt), (2, 0x00A, .fCvtI), (2, 0x00B, .iCvtF), (2, 0x00C, .fAbs), (2, 0x00D, .fNeg), (4, 0x000, .mov), (4, 0x001, .tagRd), (4, 0x002, .bits),
   (4, 0x003, .fbits), (4, 0x004, fun t rd _ => .clr t rd), (4, 0x006, .ofs), (4, 0x007, .sel)]
/-- Opcodes of the layout I with a signed immediate, and of the layouts B and M (R107). -/
def immCodes : List (BitVec 7 × (Tid → Reg → Reg → BitVec 14 → Instr)) :=
  [(0x06, .addi), (0x07, .andi), (0x08, .ori), (0x09, .xori), (0x0D, .slti), (0x0E, .sltiu), (0x20, .bEq), (0x21, .bNe), (0x22, .bLt), (0x23, .bGe),
   (0x24, .bLtu), (0x25, .bGeu)]
def memCodes : List (BitVec 7 × (Tid → Reg → Reg → Size → MMode → Instr)) :=
  [(0x11, .ld), (0x12, .ldx), (0x13, .ldS), (0x14, .st), (0x17, .ls), (0x18, .ss)]
/-- Modes and sizes of the layout M (R91). -/
def modeCodes (d : BitVec 10) : List (BitVec 2 × MMode) := [(0, .disp d), (1, .post d), (2, .pre d)]
def sizeCodes : List (BitVec 2 × Size) := [(0, .b1), (1, .b2), (2, .b4), (3, .b8)]
/-- Short operations with a register source, and with an immediate (R84). -/
def shortCodes : List (BitVec 5 × (Reg → Reg → ShortOp)) :=
  [(0x01, .mov), (0x02, .add), (0x03, .sub), (0x04, .and), (0x05, .or), (0x06, .xor), (0x07, .shl), (0x08, .shr), (0x09, .sar), (0x0F, .neg),
   (0x10, .fadd), (0x11, .fsub), (0x12, .fmul), (0x13, .min), (0x14, .max), (0x16, .slt), (0x17, .sltu)]
def shortImmCodes : List (BitVec 5 × (Reg → BitVec 5 → ShortOp)) := [(0x0A, .addi), (0x0B, .shli), (0x0C, .shri), (0x0D, .sari), (0x0E, .li)]

end Sys2Proof.Claims

/-- R81, R82, R84, R85, R91, R107, R108, R198, R223, R241, R285: words put together from their fields decode to the instructions they
stand for, with every operand at every value: the groups selected by fn, the immediate, memory and control layouts, pairs, and
words of the engines; the examples of the spec; reserved words to none. -/
def Sys2Proof.Claims.InstructionWordsDecode : Prop :=
  ∀ (t : Tid) (ext : BitVec 16) (rd ra rb : Reg) (i : BitVec 14) (j : BitVec 24) (u : BitVec 19) (d : BitVec 10) (fn : BitVec 9) (op : BitVec 7) (b : Bool)
    (k6 : BitVec 6) (m3 n3 o3 : BitVec 3) (c2 e2 : BitVec 2) (x y : BitVec 4) (one : BitVec 1) (hi lo : BitVec 15),
    let dec := decodeInsn t ext
    (∀ p ∈ integerCodes, dec (wordR 1 rd ra rb p.1) = some (p.2 t rd ra rb)) ∧
    (∀ p ∈ f64Codes, dec (wordR 2 rd ra rb p.1) = some (p.2 t rd ra rb)) ∧
    (∀ p ∈ oneSourceCodes, dec (wordR p.1 rd ra rb p.2.1) = if rb = 0 then some (p.2.2 t rd ra) else none) ∧
    dec (wordR 3 rd ra rb 0) = some (.fFma t rd ra rb) ∧ dec (wordR 4 rd ra rb 5) = some (.tagSet t rd ra rb) ∧
    (0x015 < fn.toNat → dec (wordR 1 rd ra rb fn) = none) ∧ (0x00D < fn.toNat → dec (wordR 2 rd ra rb fn) = none) ∧
    (0x007 < fn.toNat → dec (wordR 4 rd ra rb fn) = none) ∧
    (∀ p ∈ immCodes, dec (wordI p.1 rd ra i) = some (p.2 t rd ra i)) ∧
    dec (wordU 0x0F rd u) = some (.li t rd u) ∧ dec (wordU 0x10 rd u) = some (.lih t rd u) ∧
    dec (longWord 0x28 j) = some (.jmp t j) ∧ dec (longWord 0x29 j) = some (.call t j) ∧ dec (wordI 0x2E 0 ra i) = some (.loop t ra i) ∧
    (∀ p ∈ memCodes, ∀ z ∈ sizeCodes, (∀ m ∈ modeCodes d, dec (wordM p.1 rd ra m.1 z.1 d) = some (p.2 t rd ra z.2 m.2)) ∧
      dec (wordM p.1 rd ra 3 z.1 (r5 rb ++ c2 ++ m3)) = if m3 = 0 then some (p.2 t rd ra z.2 (.idx rb c2)) else none) ∧
    (∀ m ∈ modeCodes d, ∀ z : BitVec 2, dec (wordM 0x15 rd ra m.1 z d) = if z = 3 then some (.ldT t rd ra m.2) else none) ∧
    (∀ p ∈ shortCodes, decodeShort (halfWord p.1 rd (r5 ra)) = some (p.2 rd ra)) ∧ (∀ p ∈ shortImmCodes, decodeShort (halfWord p.1 rd (r5 ra)) = some (p.2 rd (r5 ra))) ∧
    (∀ f g, decodeShort hi = some f → decodeShort lo = some g → dec (pairWord hi lo) = some (.insnPair t f g)) ∧
    dec (longWord 0x45 (one ++ m3 ++ n3 ++ BitVec.ofBool b ++ BitVec.ofBool false ++ c2 ++ (0 : BitVec 13))) =
      some (.tMma t (BitVec.toFin one) (BitVec.toFin m3) (BitVec.toFin n3) b false c2) ∧
    dec (longWord 0x46 (one ++ m3 ++ BitVec.ofBool b ++ c2 ++ BitVec.ofBool true ++ n3 ++ e2 ++ (0 : BitVec 1) ++ r5 ra ++ r5 rb)) =
      some (.tDrain t (BitVec.toFin one) (BitVec.toFin m3) b c2 true (BitVec.toFin n3) e2 ra rb) ∧
    dec (longWord 0x49 (x ++ (0 : BitVec 1) ++ r5 ra ++ (0 : BitVec 14))) = some (.tSave t x ra) ∧
    dec (longWord 0x52 (r5 rd ++ r5 ra ++ r5 rb ++ m3 ++ k6)) = some (.vArithmetic t rd ra rb (BitVec.toFin m3) k6) ∧
    dec (longWord 0x53 (r5 rd ++ r5 ra ++ x ++ y ++ c2 ++ o3 ++ (0 : BitVec 1))) = some (.vCvt t rd ra x y c2 o3) ∧
    dec (longWord 0x54 (m3 ++ (0 : BitVec 2) ++ r5 ra ++ r5 rb ++ n3 ++ k6)) = some (.vCompare t (BitVec.toFin m3) ra rb (BitVec.toFin n3) k6) ∧
    dec (longWord 0x5C (r5 rd ++ r5 ra ++ k6 ++ (1 : BitVec 8))) = some (.vGet t rd ra k6) ∧
    dec (longWord 0x60 (r5 rd ++ (0 : BitVec 15) ++ x)) = some (.dmaH t rd (BitVec.toFin x)) ∧
    dec (longWord 0x61 ((0 : BitVec 5) ++ r5 ra ++ r5 rb ++ (0 : BitVec 9))) = some (.dmaArm t ra rb) ∧
    dec (longWord 0x67 (r5 rd ++ r5 ra ++ r5 rb ++ (0 : BitVec 4) ++ c2 ++ (0 : BitVec 3))) = some (.mqCommitBlocking t rd ra rb c2) ∧
    dec (longWord 0x67 (r5 rd ++ r5 ra ++ r5 rb ++ (0 : BitVec 4) ++ c2 ++ (2 : BitVec 3))) = some (.mqCommitPosted t rd ra rb c2) ∧
    dec (longWord 0x6A ((0 : BitVec 18) ++ k6)) = some (.cinchArrive t (BitVec.toFin k6)) ∧
    (op.toNat ∈ [0x00, 0x1F, 0x2F, 0x37, 0x38, 0x3E, 0x4C, 0x4F, 0x5F] ∨ 0x6C ≤ op.toNat → dec (longWord op j) = none) ∧
    dec 0 = none ∧ dec 0x2E00C002 = some (.loop t 3 2) ∧ dec 0x17289C01 = some (.ls t 5 2 .b8 (.post 1)) ∧
    dec 0x8442A8C1 = some (.insnPair t (.add 4 5) (.addi 6 1)) ∧ dec 0x45052000 = some (.tMma t 0 0 2 true false 1)

/-! ## Statements of several parts -/

/-- The integer group, division and the immediate commands on INT operands: results modulo 2^64, shifts by bits 5:0, division of every operand. The rules are those of its parts. -/
def Obligations.IntegerOperations : Prop :=
  Sys2Proof.Claims.IntegerGroupResults ∧ Sys2Proof.Claims.DivisionNeverFaults ∧ Sys2Proof.Claims.ImmediateResults

/-- Moves, tags, pointers made and taken apart, nop; both halves of a pair read before either writes. The rules are those of its parts. -/
def Obligations.MovesTagsAndPairs : Prop :=
  Sys2Proof.Claims.MoveAndTagResults ∧ Sys2Proof.Claims.PairReadsBeforeWriting

/-- Faults of thread 0 in its primary bank enter the shadow bank with their cause word. The rules are those of its parts. -/
def Obligations.FaultEntry : Prop :=
  Sys2Proof.Claims.OperandFaultEntersShadowBank ∧ Sys2Proof.Claims.IllegalInstructionTraps

/-- Scratchpad loads and stores through the thread's window, and the range exception of thread 0. The rules are those of its parts. -/
def Obligations.ScratchpadAccesses : Prop :=
  Sys2Proof.Claims.ScratchpadLoadAndStore ∧ Sys2Proof.Claims.ScratchpadRangeTraps

/-- Loads, stores, push and pop that hit the scalar data cache. The rules are those of its parts. -/
def Obligations.CachedAccesses : Prop :=
  Sys2Proof.Claims.CachedLoads ∧ Sys2Proof.Claims.CachedStoresAndStack

/-- Scalar accesses past the cache set out and complete with their response; fences. The rules are those of its parts. -/
def Obligations.GlobalAccesses : Prop :=
  Sys2Proof.Claims.AccessesPastTheCacheSetOut ∧ Sys2Proof.Claims.GlobalAccessResponseCompletes ∧ Sys2Proof.Claims.AcquiresAndReleasesComplete ∧ Sys2Proof.Claims.FencesComplete

/-- Branches, jumps, calls and returns, and hardware loops. The rules are those of its parts. -/
def Obligations.ControlFlow : Prop :=
  Sys2Proof.Claims.BranchesFollowTheirConditions ∧ Sys2Proof.Claims.JumpsCallsAndReturns ∧ Sys2Proof.Claims.HardwareLoops

/-- Segment instructions, a gate with the frame it pushes, and the return from a frame. The rules are those of its parts. -/
def Obligations.SegmentsAndGates : Prop :=
  Sys2Proof.Claims.SegmentInstructions ∧ Sys2Proof.Claims.GatePushesAFrame ∧ Sys2Proof.Claims.EretReturnsFromItsFrame

/-- THR_CTL and CORE_INIT's commands to threads, and who may give them. The rules are those of its parts. -/
def Obligations.ThreadControl : Prop :=
  Sys2Proof.Claims.ThreadCommands ∧ Sys2Proof.Claims.ThreadCommandsRefused

/-- Waits end with their event; a deadlocked core is reported. The rules are those of its parts. -/
def Obligations.WaitsAndDeadlock : Prop :=
  Sys2Proof.Claims.DeadlockReported ∧ Sys2Proof.Claims.WaitEndsWithItsEvent

/-- Event lines, handles and the staging buffer, and the steps of a cinch barrier. The rules are those of its parts. -/
def Obligations.EventsAndStaging : Prop :=
  Sys2Proof.Claims.EventInstructions ∧ Sys2Proof.Claims.StagingAndHandles ∧ Sys2Proof.Claims.BarrierSteps

/-- Commits send messages, whose statuses complete them. The rules are those of its parts. -/
def Obligations.MessagesSetOut : Prop :=
  Sys2Proof.Claims.CommitsSetOut ∧ Sys2Proof.Claims.CommitsComplete ∧ Sys2Proof.Claims.MessageStatuses

/-- A message enters its ring, or is refused with the status the rules give; integer sums of combining queues. The rules are those of its parts. -/
def Obligations.MessagesArrive : Prop :=
  Sys2Proof.Claims.MessageDeliveredToRing ∧ Sys2Proof.Claims.MessageRefusals ∧ Sys2Proof.Claims.IntegerSums

/-- Combining queues and cinch groups. The rules are those of its parts. -/
def Obligations.CombiningAndCinch : Prop :=
  Sys2Proof.Claims.CombiningQueues ∧ Sys2Proof.Claims.CinchBarrier

/-- The commands that write a core's registers, the queue registers among them. The rules are those of its parts. -/
def Obligations.RegisterWrites : Prop :=
  Sys2Proof.Claims.RegisterWriteCommands ∧ Sys2Proof.Claims.QueueRegisters

/-- Port ownership, cache actions, stops, cinch configuration and the debugger's halt. The rules are those of its parts. -/
def Obligations.CoreConfiguration : Prop :=
  Sys2Proof.Claims.PortmapAndCacheActions ∧ Sys2Proof.Claims.StopAndCinchConfiguration ∧ Sys2Proof.Claims.DebugHalt

/-- The matrix instructions that act at once, and those that are accepted. The rules are those of its parts. -/
def Obligations.MatrixInstructions : Prop :=
  Sys2Proof.Claims.MatrixRegisterInstructions ∧ Sys2Proof.Claims.MatrixInstructionsAccepted

/-- The product of two tiles added to an accumulator set, and the drain of a set. The rules are those of its parts. -/
def Obligations.MatrixArray : Prop :=
  Sys2Proof.Claims.MatrixProduct ∧ Sys2Proof.Claims.MatrixDrain

/-- Vector instructions are accepted; rows are loaded, stored and read out. The rules are those of its parts. -/
def Obligations.VectorIssue : Prop :=
  Sys2Proof.Claims.VectorInstructionsAccepted ∧ Sys2Proof.Claims.VectorRowsAndGet

/-- The lanes' results, dot products, conversions and selection. The rules are those of its parts. -/
def Obligations.VectorResults : Prop :=
  Sys2Proof.Claims.VectorLaneResults ∧ Sys2Proof.Claims.VectorComputations ∧ Sys2Proof.Claims.VectorDotConvertSelect

/-- The DMA instructions, a channel's start and its stops. The rules are those of its parts. -/
def Obligations.DmaControl : Prop :=
  Sys2Proof.Claims.DmaInstructions ∧ Sys2Proof.Claims.DmaStartsAndStops

/-- Remote accesses, burnish visits and upsets of code words. The rules are those of its parts. -/
def Obligations.Scratchpads : Prop :=
  Sys2Proof.Claims.RemoteAccesses ∧ Sys2Proof.Claims.ScratchpadBurnish ∧ Sys2Proof.Claims.MemoryUpsets

/-- Data cache completions, pacers, slices and stacks. The rules are those of its parts. -/
def Obligations.CachesPacersSlices : Prop :=
  Sys2Proof.Claims.DataCacheCompletions ∧ Sys2Proof.Claims.Pacers ∧ Sys2Proof.Claims.SlicesAndStacks

/-- Postings, deliveries and the buffer's windows. The rules are those of its parts. -/
def Obligations.SkiverTraffic : Prop :=
  Sys2Proof.Claims.SkiverPostings ∧ Sys2Proof.Claims.SkiverDeliveries ∧ Sys2Proof.Claims.SkiverBufferWindows

/-- Gather, matrix by vector, attention and top-k, and a descriptor's way through a slice. The rules are those of its parts. -/
def Obligations.SkiverComputation : Prop :=
  Sys2Proof.Claims.SkiverGatherMatvec ∧ Sys2Proof.Claims.SkiverAttendTopk ∧ Sys2Proof.Claims.SkiverSteps

/-- Requests at the fabric's ports, their responses and re-sends, and what the events of a link do. The rules are those of its parts. -/
def Obligations.MeshTransactions : Prop :=
  Sys2Proof.Claims.MeshRequests ∧ Sys2Proof.Claims.MeshResponsesAndResends ∧ Sys2Proof.Claims.LinkEvents

/-- Frames of the inter-device links and the links' training. The rules are those of its parts. -/
def Obligations.Latigo : Prop :=
  Sys2Proof.Claims.LatigoFrames ∧ Sys2Proof.Claims.LatigoLinks

/-- CXL.mem requests and the coherence of the host's lines. The rules are those of its parts. -/
def Obligations.HostMemory : Prop :=
  Sys2Proof.Claims.HostMemoryRequests ∧ Sys2Proof.Claims.HostCoherence

/-- The host's registers, doorbells, vectors and the aperture. The rules are those of its parts. -/
def Obligations.HostRegisterSpace : Prop :=
  Sys2Proof.Claims.HostRegisters ∧ Sys2Proof.Claims.HostAperture

/-- Packets become commands, and replies are written. The rules are those of its parts. -/
def Obligations.CommandsAndReplies : Prop :=
  Sys2Proof.Claims.CommandsTaken ∧ Sys2Proof.Claims.NopAndReplies

/-- Every command row: BUSY while a command in progress holds its resource, REFUSED STATE outside ACTIVE, nothing while its turn has not come; what each command holds. The rules are those of its parts. -/
def Obligations.CommandTurns : Prop :=
  Sys2Proof.Claims.CommandRowsTurn ∧ Sys2Proof.Claims.HeldResources

/-- Ring pairs, copies, segments, cores and registers. The rules are those of its parts. -/
def Obligations.RingsCopiesRegisters : Prop :=
  Sys2Proof.Claims.RingCommands ∧ Sys2Proof.Claims.CopyCommands ∧ Sys2Proof.Claims.CoreAndRegisterCommands

/-- Slice map, routes, placement, sweeps and admitted streams. The rules are those of its parts. -/
def Obligations.MapsAndStreams : Prop :=
  Sys2Proof.Claims.MapAndSweepCommands ∧ Sys2Proof.Claims.StreamCommands

/-- Power states and the protective trips. The rules are those of its parts. -/
def Obligations.PowerStatesAndTrips : Prop :=
  Sys2Proof.Claims.PowerCommand ∧ Sys2Proof.Claims.PowerMoves ∧ Sys2Proof.Claims.Trips

/-- Ramps, forecasts, notices, query records. The rules are those of its parts. -/
def Obligations.RampsNoticesQueries : Prop :=
  Sys2Proof.Claims.RampAndForecast ∧ Sys2Proof.Claims.Notices ∧ Sys2Proof.Claims.Queries

/-- A cold reset and the stages of start-up. The rules are those of its parts. -/
def Obligations.StartUpStages : Prop :=
  Sys2Proof.Claims.ColdReset ∧ Sys2Proof.Claims.StartUp

/-- The resets below the cold one, and the host link's training. The rules are those of its parts. -/
def Obligations.LesserResets : Prop :=
  Sys2Proof.Claims.WarmReset ∧ Sys2Proof.Claims.HostDomain ∧ Sys2Proof.Claims.CoreAndClusterResets

/-- The plane mailbox, key requests and debug requests. The rules are those of its parts. -/
def Obligations.ManagementRequests : Prop :=
  Sys2Proof.Claims.PlaneMailbox ∧ Sys2Proof.Claims.KeyRequests ∧ Sys2Proof.Claims.DebugRequests

/-- SPDM, the sideband and telemetry. The rules are those of its parts. -/
def Obligations.AttestationSidebandTelemetry : Prop :=
  Sys2Proof.Claims.Attestation ∧ Sys2Proof.Claims.Sideband ∧ Sys2Proof.Claims.Telemetry

/-- Command packets and instruction words decode to what their fields say. The rules are those of its parts. -/
def Obligations.PacketsRoundTrip : Prop :=
  Sys2Proof.Claims.CommandPacketsRoundTrip ∧ Sys2Proof.Claims.InstructionWordsDecode
end

