-- ==== Sys2Proof/Laws/Monad.lean ====
section
/-! SUPPORT. How the parts of a meaning run: one equation for each way meanings are put together. -/

namespace Sys2Proof.Machine

theorem runM_bind (x : M α) (f : α → M β) (s : State) :
    runM (x >>= f) s = (match runM x s with
      | (.ok a, s') => runM (f a) s'
      | (.error e, s') => (.error e, s')) := by
  show ((x >>= f).run.run s) = _
  simp only [ExceptT.run_bind, StateT.run_bind, runM]
  rcases h : (x.run.run s) with ⟨r, s'⟩
  cases r <;> simp [bind, pure, StateT.run, StateT.pure]

theorem runM_map (g : α → β) (x : M α) (s : State) :
    runM (g <$> x) s = (match runM x s with
      | (.ok a, s') => (.ok (g a), s')
      | (.error e, s') => (.error e, s')) := by
  rw [map_eq_pure_bind, runM_bind]; rfl

/-- The rest of a meaning whose first part ends well. -/
theorem runM_bind_ok {x : M α} {f : α → M β} {s s' : State} {a : α} (h : runM x s = (.ok a, s')) :
    runM (x >>= f) s = runM (f a) s' := by rw [runM_bind, h]

/-- A meaning whose first part stops, stops. -/
theorem runM_bind_error {x : M α} {f : α → M β} {s s' : State} {e : Stop} (h : runM x s = (.error e, s')) :
    runM (x >>= f) s = (.error e, s') := by rw [runM_bind, h]

@[simp] theorem runM_pure (a : α) (s : State) : runM (pure a) s = (.ok a, s) := rfl
@[simp] theorem runM_get (s : State) : runM (get : M State) s = (.ok s, s) := rfl
@[simp] theorem runM_set (s' s : State) : runM (set s' : M Unit) s = (.ok (), s') := rfl
@[simp] theorem runM_modify (f : State → State) (s : State) : runM (modify f : M Unit) s = (.ok (), f s) := rfl
@[simp] theorem runM_throw (e : Stop) (s : State) : runM (throw e : M α) s = (.error e, s) := rfl
@[simp] theorem runM_mtrap (c : Cause) (o : Nat) (d : TWord) (x : Nat) (s : State) :
    runM (mtrap c o d x : M α) s = (.error (.trap { cause := c, opnd := o, extra := x, detail := d }), s) := rfl

theorem runM_lift (x : Except Stop α) (s : State) : runM (lift x) s = (x, s) := by cases x <;> rfl

@[simp] theorem runM_lift_ok (a : α) (s : State) : runM (lift (.ok a)) s = (.ok a, s) := rfl
@[simp] theorem runM_lift_error (e : Stop) (s : State) : runM (lift (.error e : Except Stop α)) s = (.error e, s) := rfl

theorem runM_ite (p : Prop) [Decidable p] (x y : M α) (s : State) :
    runM (if p then x else y) s = if p then runM x s else runM y s := by split <;> rfl

/-- A meaning that reads the state first. -/
@[simp] theorem runM_get_bind (f : State → M β) (s : State) : runM (get >>= f) s = runM (f s) s := by
  rw [runM_bind]; rfl

@[simp] theorem runM_set_bind (s' s : State) (f : Unit → M β) : runM (set s' >>= f) s = runM (f ()) s' := by
  rw [runM_bind]; rfl

@[simp] theorem runM_modify_bind (g : State → State) (s : State) (f : Unit → M β) :
    runM (modify g >>= f) s = runM (f ()) (g s) := by rw [runM_bind]; rfl

@[simp] theorem runM_pure_bind (a : α) (f : α → M β) (s : State) : runM (pure a >>= f) s = runM (f a) s := rfl

end Sys2Proof.Machine
end

