-- ==== Sys2Proof/Laws/Table.lean ====
section
/-! SUPPORT. Laws of tables and byte memories: reading after writing, and that every operation keeps the canonical form. -/

namespace Sys2Proof.Machine

section table
variable {α : Type}

/-! ## Reading after writing -/

@[simp] theorem tget_terase_same (d : Nat → α) (t : Table α) (k : Nat) : tget d (terase t k) k = d k := by
  induction t with
  | nil => rfl
  | cons p r ih => obtain ⟨a, v⟩ := p; by_cases h : a = k <;> simp [terase, tget, h, ih]

theorem tget_terase_ne (d : Nat → α) (t : Table α) {k j : Nat} (h : j ≠ k) :
    tget d (terase t k) j = tget d t j := by
  induction t with
  | nil => rfl
  | cons p r ih =>
    obtain ⟨a, v⟩ := p
    by_cases hk : a = k
    · have : a ≠ j := fun e => h (e ▸ hk)
      simp [terase, tget, hk, ih]; intro e; exact absurd e.symm h
    · rw [terase, if_neg hk, tget, tget, ih]

theorem tget_tinsert_same (d : Nat → α) (t : Table α) (k : Nat) (v : α) :
    tget d (tinsert (terase t k) k v) k = v := by
  induction t with
  | nil => simp [terase, tinsert, tget]
  | cons p r ih =>
    obtain ⟨a, w⟩ := p
    by_cases hk : a = k
    · simpa [terase, hk] using ih
    · by_cases hl : k < a <;> simp [terase, tinsert, tget, hk, hl, ih]

theorem tget_tinsert_ne (d : Nat → α) (t : Table α) {k j : Nat} (v : α) (h : j ≠ k) :
    tget d (tinsert t k v) j = tget d t j := by
  induction t with
  | nil => simp [tinsert, tget]; intro e; exact absurd e.symm h
  | cons p r ih =>
    obtain ⟨a, w⟩ := p
    by_cases hl : k < a
    · simp [tinsert, tget, hl]; intro e; exact absurd e.symm h
    · simp [tinsert, tget, hl, ih]

/-- A stored value is read back. -/
@[simp] theorem tget_tset_same [DecidableEq α] (d : Nat → α) (t : Table α) (k : Nat) (v : α) : tget d (tset d t k v) k = v := by
  unfold tset
  split
  · rename_i h; simp [h]
  · exact tget_tinsert_same d t k v

/-- A store leaves every other key alone. -/
theorem tget_tset_ne [DecidableEq α] (d : Nat → α) (t : Table α) {k j : Nat} (v : α) (h : j ≠ k) :
    tget d (tset d t k v) j = tget d t j := by
  unfold tset
  split
  · exact tget_terase_ne d t h
  · rw [tget_tinsert_ne d _ v h, tget_terase_ne d t h]

theorem tget_tset [DecidableEq α] (d : Nat → α) (t : Table α) (k j : Nat) (v : α) :
    tget d (tset d t k v) j = if j = k then v else tget d t j := by
  split
  · rename_i h; subst h; simp
  · rename_i h; exact tget_tset_ne d t v h

@[simp] theorem terase_terase (t : Table α) (k : Nat) : terase (terase t k) k = terase t k := by
  induction t with
  | nil => rfl
  | cons p r ih => obtain ⟨a, v⟩ := p; by_cases h : a = k <;> simp [terase, h, ih]

theorem terase_tinsert (t : Table α) (k : Nat) (v : α) : terase (tinsert (terase t k) k v) k = terase t k := by
  induction t with
  | nil => simp [terase, tinsert]
  | cons p r ih =>
    obtain ⟨a, w⟩ := p
    by_cases hk : a = k
    · simpa [terase, hk] using ih
    · by_cases hl : k < a <;> simp [terase, tinsert, hk, hl, ih]

/-- The later of two stores under one key wins. -/
@[simp] theorem tset_tset [DecidableEq α] (d : Nat → α) (t : Table α) (k : Nat) (v w : α) :
    tset d (tset d t k v) k w = tset d t k w := by
  unfold tset
  by_cases h : v = d k <;> by_cases h' : w = d k <;> simp [h, h', terase_tinsert]

@[simp] theorem tget_nil (d : Nat → α) (k : Nat) : tget d [] k = d k := rfl

/-! ## The canonical form -/

/-- Every key of the table is above `lo`. -/
def tabove (lo : Nat) (t : Table α) : Prop := ∀ p ∈ t, lo < p.1

theorem trising_head {lo : Nat} {p : Nat × α} {r : Table α} :
    trising lo (p :: r) = true ↔ lo < p.1 ∧ trising p.1 r = true := by
  simp [trising]

theorem trising_mono {lo lo' : Nat} (h : lo' ≤ lo) {t : Table α} (ht : trising lo t = true) : trising lo' t = true := by
  cases t with
  | nil => rfl
  | cons p r => rw [trising_head] at ht ⊢; exact ⟨by omega, ht.2⟩

theorem trising_terase {lo : Nat} {t : Table α} (k : Nat) (ht : trising lo t = true) :
    trising lo (terase t k) = true := by
  induction t generalizing lo with
  | nil => rfl
  | cons p r ih =>
    obtain ⟨a, v⟩ := p
    rw [trising_head] at ht
    by_cases h : a = k
    · simp only [terase, h, if_true]
      exact ih (trising_mono (by have := ht.1; simp only at this; omega) ht.2)
    · simp only [terase, h, if_false]
      rw [trising_head]; exact ⟨ht.1, ih ht.2⟩

theorem trising_tinsert {lo : Nat} {t : Table α} {k : Nat} (v : α) (hk : lo < k)
    (hne : ∀ p ∈ t, p.1 ≠ k) (ht : trising lo t = true) : trising lo (tinsert t k v) = true := by
  induction t generalizing lo with
  | nil => simp [tinsert, trising, hk]
  | cons p r ih =>
    obtain ⟨a, w⟩ := p
    rw [trising_head] at ht
    by_cases h : k < a
    · simp only [tinsert, h, if_true]
      rw [trising_head, trising_head]; exact ⟨hk, h, ht.2⟩
    · have ha : a ≠ k := hne (a, w) (by simp)
      simp only [tinsert, h, if_false]
      rw [trising_head]
      exact ⟨ht.1, ih (by simp only; omega) (fun p hp => hne p (by simp [hp])) ht.2⟩

theorem terase_ne {t : Table α} {k : Nat} : ∀ p ∈ terase t k, p.1 ≠ k := by
  induction t with
  | nil => simp [terase]
  | cons q r ih =>
    obtain ⟨a, v⟩ := q
    by_cases h : a = k
    · simpa [terase, h] using ih
    · simp only [terase, h, if_false]
      intro p hp
      rcases List.mem_cons.1 hp with rfl | hp
      · exact h
      · exact ih p hp

theorem tnodef_iff [DecidableEq α] {d : Nat → α} {t : Table α} : tnodef d t = true ↔ ∀ p ∈ t, p.2 ≠ d p.1 := by
  induction t with
  | nil => simp [tnodef]
  | cons q r ih => obtain ⟨a, v⟩ := q; simp [tnodef, ih]

theorem terase_sub {t : Table α} {k : Nat} {p : Nat × α} (h : p ∈ terase t k) : p ∈ t := by
  induction t with
  | nil => simp [terase] at h
  | cons q r ih =>
    obtain ⟨a, v⟩ := q
    by_cases hk : a = k
    · simp only [terase, hk, if_true] at h; exact List.mem_cons_of_mem _ (ih h)
    · simp only [terase, hk, if_false] at h
      rcases List.mem_cons.1 h with rfl | h
      · simp
      · exact List.mem_cons_of_mem _ (ih h)

theorem mem_tinsert {t : Table α} {k : Nat} {v : α} {p : Nat × α} (h : p ∈ tinsert t k v) : p = (k, v) ∨ p ∈ t := by
  induction t with
  | nil => simpa [tinsert] using h
  | cons q r ih =>
    obtain ⟨a, w⟩ := q
    by_cases hl : k < a
    · simpa [tinsert, hl] using h
    · simp only [tinsert, hl, if_false] at h
      rcases List.mem_cons.1 h with rfl | h
      · simp
      · rcases ih h with h | h
        · exact .inl h
        · exact .inr (List.mem_cons_of_mem _ h)

/-- Keys rising from the first entry on. -/
def trisingAll : Table α → Bool
  | [] => true
  | (a, _) :: r => trising a r

theorem twf_iff [DecidableEq α] {d : Nat → α} {t : Table α} : twf d t = true ↔ trisingAll t = true ∧ ∀ p ∈ t, p.2 ≠ d p.1 := by
  unfold twf
  rw [Bool.and_eq_true, tnodef_iff]
  cases t <;> rfl

theorem trisingAll_terase {t : Table α} (k : Nat) (h : trisingAll t = true) : trisingAll (terase t k) = true := by
  induction t with
  | nil => rfl
  | cons q r ih =>
    obtain ⟨a, v⟩ := q
    have hr : trising a r = true := h
    by_cases hk : a = k
    · simp only [terase, hk, if_true]
      have := trising_terase k hr
      cases hr' : terase r k with
      | nil => rfl
      | cons p q => rw [hr'] at this; exact (trising_head.1 this).2
    · simp only [terase, hk, if_false]
      exact trising_terase k hr

theorem trisingAll_tinsert {t : Table α} {k : Nat} (v : α) (hne : ∀ p ∈ t, p.1 ≠ k) (h : trisingAll t = true) :
    trisingAll (tinsert t k v) = true := by
  cases t with
  | nil => rfl
  | cons q r =>
    obtain ⟨a, w⟩ := q
    have hr : trising a r = true := h
    by_cases hl : k < a
    · simp only [tinsert, hl, if_true]
      exact (trising_head (p := (a, w))).2 ⟨hl, hr⟩
    · have ha : a ≠ k := hne (a, w) (by simp)
      simp only [tinsert, hl, if_false]
      exact trising_tinsert v (by omega) (fun p hp => hne p (by simp [hp])) hr

/-- Removing a key keeps the canonical form. -/
theorem twf_terase [DecidableEq α] {d : Nat → α} {t : Table α} (k : Nat) (h : twf d t = true) : twf d (terase t k) = true := by
  rw [twf_iff] at h ⊢
  exact ⟨trisingAll_terase k h.1, fun p hp => h.2 p (terase_sub hp)⟩

/-- Storing keeps the canonical form. -/
theorem twf_tset [DecidableEq α] {d : Nat → α} {t : Table α} (k : Nat) (v : α) (h : twf d t = true) : twf d (tset d t k v) = true := by
  unfold tset
  split
  · exact twf_terase k h
  · rename_i hv
    have he := twf_iff.1 (twf_terase k h)
    rw [twf_iff]
    refine ⟨trisingAll_tinsert v terase_ne he.1, fun p hp => ?_⟩
    rcases mem_tinsert hp with rfl | hp
    · exact hv
    · exact he.2 p hp

theorem twf_tmod [DecidableEq α] {d : Nat → α} {t : Table α} (k : Nat) (f : α → α) (h : twf d t = true) : twf d (tmod d t k f) = true :=
  twf_tset k _ h

/-- Dropping entries keeps the canonical form. -/
theorem twf_filter [DecidableEq α] {d : Nat → α} {t : Table α} (f : Nat × α → Bool) (h : twf d t = true) :
    twf d (t.filter f) = true := by
  rw [twf_iff] at h ⊢
  refine ⟨?_, fun p hp => h.2 p (List.mem_filter.1 hp).1⟩
  have key : ∀ (lo : Nat) (t : Table α), trising lo t = true → trising lo (t.filter f) = true := by
    intro lo t
    induction t generalizing lo with
    | nil => intro _; rfl
    | cons q r ih =>
      intro ht
      rw [trising_head] at ht
      by_cases hf : f q = true
      · rw [List.filter_cons_of_pos hf, trising_head]; exact ⟨ht.1, ih _ ht.2⟩
      · rw [List.filter_cons_of_neg hf]
        exact trising_mono (by omega) (ih _ ht.2)
  cases t with
  | nil => rfl
  | cons q r =>
    have hr : trising q.1 r = true := h.1
    by_cases hf : f q = true
    · rw [List.filter_cons_of_pos hf]; exact key _ _ hr
    · rw [List.filter_cons_of_neg hf]
      have := key _ _ hr
      cases hr' : r.filter f with
      | nil => rfl
      | cons p q' => rw [hr'] at this; exact (trising_head.1 this).2

end table

/-! ## Byte memories -/

@[simp] theorem readByte_writeByte_same (m : Bytes) (a : Nat) (b : Byte) : readByte (writeByte m a b) a = b :=
  tget_tset_same _ _ _ _

theorem readByte_writeByte_ne (m : Bytes) {a c : Nat} (b : Byte) (h : c ≠ a) :
    readByte (writeByte m a b) c = readByte m c := tget_tset_ne _ _ _ h

theorem memWf_writeByte {m : Bytes} (a : Nat) (b : Byte) (h : memWf m = true) : memWf (writeByte m a b) = true :=
  twf_tset a b h

/-- A store of a list changes no byte outside it. -/
theorem readByte_writeBytes_outside (bs : List Byte) (m : Bytes) (a c : Nat) (h : c < a ∨ a + bs.length ≤ c) :
    readByte (writeBytes m a bs) c = readByte m c := by
  induction bs generalizing m a with
  | nil => rfl
  | cons b bs ih =>
    simp only [List.length_cons] at h
    rw [writeBytes, ih _ _ (by omega), readByte_writeByte_ne m b (by omega)]

/-- A stored list is read back. -/
theorem readBytes_writeBytes (bs : List Byte) (m : Bytes) (a : Nat) :
    readBytes (writeBytes m a bs) a bs.length = bs := by
  induction bs generalizing m a with
  | nil => rfl
  | cons b bs ih =>
    simp only [List.length_cons, readBytes, writeBytes, ih]
    rw [readByte_writeBytes_outside _ _ _ _ (by omega)]; simp

@[simp] theorem readBytes_length (m : Bytes) (a n : Nat) : (readBytes m a n).length = n := by
  induction n generalizing a with
  | zero => rfl
  | succ n ih => simp [readBytes, ih]

theorem memWf_writeBytes (bs : List Byte) {m : Bytes} (a : Nat) (h : memWf m = true) :
    memWf (writeBytes m a bs) = true := by
  induction bs generalizing m a with
  | nil => exact h
  | cons b bs ih => exact ih _ (memWf_writeByte a b h)

theorem memWf_writeEn (bs : List Byte) (es : List Bool) {m : Bytes} (a : Nat) (h : memWf m = true) :
    memWf (writeEn m a bs es) = true := by
  induction bs generalizing m a es with
  | nil => exact h
  | cons b bs ih =>
    cases es with
    | nil => exact h
    | cons e es =>
      simp only [writeEn]
      exact ih es _ (by split; exact memWf_writeByte a b h; exact h)

theorem memWf_clearBytes {m : Bytes} (a n : Nat) (h : memWf m = true) : memWf (clearBytes m a n) = true :=
  twf_filter _ h

end Sys2Proof.Machine
end

