-- ==== Sys2Proof/Laws/State.lean ====
section
/-! SUPPORT. Laws of State: what each named update changes and what it leaves, one lemma for each field; reading a part
after it was updated; two updates of one part. -/

namespace Sys2Proof.Machine

/-! ## Reading an updated part -/

@[simp] theorem State.core_modCore_same (s : State) (c : Nat) (f : CoreSt → CoreSt) :
    (s.modCore c f).core c = f (s.core c) := tget_tset_same _ _ _ _

theorem State.core_modCore_ne (s : State) {c d : Nat} (f : CoreSt → CoreSt) (h : d ≠ c) :
    (s.modCore c f).core d = s.core d := tget_tset_ne _ _ _ h

theorem State.core_modCore (s : State) (c d : Nat) (f : CoreSt → CoreSt) :
    (s.modCore c f).core d = if d = c then f (s.core c) else s.core d := by
  split
  · rename_i h; subst h; simp
  · rename_i h; exact s.core_modCore_ne f h

@[simp] theorem State.modCore_modCore (s : State) (c : Nat) (f g : CoreSt → CoreSt) :
    (s.modCore c f).modCore c g = s.modCore c (fun x => g (f x)) := by
  unfold State.modCore State.core; simp

@[simp] theorem State.cluster_modCluster_same (s : State) (k : Nat) (f : ClusterSt → ClusterSt) :
    (s.modCluster k f).cluster k = f (s.cluster k) := tget_tset_same _ _ _ _

theorem State.cluster_modCluster_ne (s : State) {k j : Nat} (f : ClusterSt → ClusterSt) (h : j ≠ k) :
    (s.modCluster k f).cluster j = s.cluster j := tget_tset_ne _ _ _ h

@[simp] theorem State.modCluster_modCluster (s : State) (k : Nat) (f g : ClusterSt → ClusterSt) :
    (s.modCluster k f).modCluster k g = s.modCluster k (fun x => g (f x)) := by
  unfold State.modCluster State.cluster; simp

@[simp] theorem State.slice_modSlice_same (s : State) (k : Nat) (f : SliceSt → SliceSt) :
    (s.modSlice k f).slice k = f (s.slice k) := tget_tset_same _ _ _ _

theorem State.slice_modSlice_ne (s : State) {k j : Nat} (f : SliceSt → SliceSt) (h : j ≠ k) :
    (s.modSlice k f).slice j = s.slice j := tget_tset_ne _ _ _ h

@[simp] theorem State.modSlice_modSlice (s : State) (k : Nat) (f g : SliceSt → SliceSt) :
    (s.modSlice k f).modSlice k g = s.modSlice k (fun x => g (f x)) := by
  unfold State.modSlice State.slice; simp

@[simp] theorem CoreSt.t_modT_same (x : CoreSt) (n : Nat) (f : ThreadSt → ThreadSt) : (x.modT n f).t n = f (x.t n) :=
  tget_tset_same _ _ _ _

theorem CoreSt.t_modT_ne (x : CoreSt) {n m : Nat} (f : ThreadSt → ThreadSt) (h : m ≠ n) : (x.modT n f).t m = x.t m :=
  tget_tset_ne _ _ _ h

@[simp] theorem CoreSt.modT_modT (x : CoreSt) (n : Nat) (f g : ThreadSt → ThreadSt) :
    (x.modT n f).modT n g = x.modT n (fun t => g (f t)) := by
  unfold CoreSt.modT CoreSt.t; simp

@[simp] theorem CoreSt.q_modQ_same (x : CoreSt) (n : Nat) (f : QueueSt → QueueSt) : (x.modQ n f).q n = f (x.q n) :=
  tget_tset_same _ _ _ _

@[simp] theorem CoreSt.ch_modCh_same (x : CoreSt) (n : Nat) (f : DmaCh → DmaCh) : (x.modCh n f).ch n = f (x.ch n) :=
  tget_tset_same _ _ _ _

@[simp] theorem State.thr_modThr_same (s : State) (t : Tid) (f : ThreadSt → ThreadSt) :
    (s.modThr t f).thr t = f (s.thr t) := by
  unfold State.modThr State.thr; simp

@[simp] theorem State.modThr_modThr (s : State) (t : Tid) (f g : ThreadSt → ThreadSt) :
    (s.modThr t f).modThr t g = s.modThr t (fun x => g (f x)) := by
  unfold State.modThr; simp

@[simp] theorem State.link_modLink_same (s : State) (l : Nat) (f : LinkSt → LinkSt) :
    (s.modLink l f).link l = f (s.link l) := tget_tset_same _ _ _ _

@[simp] theorem State.rootOf_modRoot_same (s : State) (g : Nat) (f : CinchRoot → CinchRoot) :
    (s.modRoot g f).rootOf g = f (s.rootOf g) := tget_tset_same _ _ _ _

/-! ## Registers of a thread (R72, R75) -/

@[simp] theorem ThreadSt.reg_zero (x : ThreadSt) : x.reg 0 = ⟨.int, 0⟩ := rfl

@[simp] theorem ThreadSt.setReg_zero (x : ThreadSt) (v : TWord) : x.setReg 0 v = x := rfl

theorem ThreadSt.reg_setReg_same (x : ThreadSt) {r : Nat} (v : TWord) (h : r ≠ 0) : (x.setReg r v).reg r = v := by
  simp [ThreadSt.reg, ThreadSt.setReg, h]

theorem ThreadSt.reg_setReg_ne (x : ThreadSt) {r q : Nat} (v : TWord) (h : q ≠ r) : (x.setReg r v).reg q = x.reg q := by
  unfold ThreadSt.reg ThreadSt.setReg
  by_cases hr : r = 0 <;> by_cases hq : q = 0 <;> simp [hr, hq]
  exact tget_tset_ne _ _ _ h

/-! ## Fields an update leaves -/

/-! ### modCore -/

@[simp] theorem State.modCore_clusters (s : State) (c : Nat) (f : CoreSt → CoreSt) : (s.modCore c f).clusters = s.clusters := rfl
@[simp] theorem State.modCore_slices (s : State) (c : Nat) (f : CoreSt → CoreSt) : (s.modCore c f).slices = s.slices := rfl
@[simp] theorem State.modCore_stackFenced (s : State) (c : Nat) (f : CoreSt → CoreSt) : (s.modCore c f).stackFenced = s.stackFenced := rfl
@[simp] theorem State.modCore_fabric (s : State) (c : Nat) (f : CoreSt → CoreSt) : (s.modCore c f).fabric = s.fabric := rfl
@[simp] theorem State.modCore_lat (s : State) (c : Nat) (f : CoreSt → CoreSt) : (s.modCore c f).lat = s.lat := rfl
@[simp] theorem State.modCore_root (s : State) (c : Nat) (f : CoreSt → CoreSt) : (s.modCore c f).root = s.root := rfl
@[simp] theorem State.modCore_smap (s : State) (c : Nat) (f : CoreSt → CoreSt) : (s.modCore c f).smap = s.smap := rfl
@[simp] theorem State.modCore_host (s : State) (c : Nat) (f : CoreSt → CoreSt) : (s.modCore c f).host = s.host := rfl
@[simp] theorem State.modCore_cp (s : State) (c : Nat) (f : CoreSt → CoreSt) : (s.modCore c f).cp = s.cp := rfl
@[simp] theorem State.modCore_mgmt (s : State) (c : Nat) (f : CoreSt → CoreSt) : (s.modCore c f).mgmt = s.mgmt := rfl
@[simp] theorem State.modCore_pwr (s : State) (c : Nat) (f : CoreSt → CoreSt) : (s.modCore c f).pwr = s.pwr := rfl
@[simp] theorem State.modCore_msgs (s : State) (c : Nat) (f : CoreSt → CoreSt) : (s.modCore c f).msgs = s.msgs := rfl
@[simp] theorem State.modCore_nextId (s : State) (c : Nat) (f : CoreSt → CoreSt) : (s.modCore c f).nextId = s.nextId := rfl
@[simp] theorem State.modCore_outbox (s : State) (c : Nat) (f : CoreSt → CoreSt) : (s.modCore c f).outbox = s.outbox := rfl
@[simp] theorem State.modCore_reply (s : State) (c : Nat) (f : CoreSt → CoreSt) : (s.modCore c f).reply = s.reply := rfl
@[simp] theorem State.modCore_fresh (s : State) (c : Nat) (f : CoreSt → CoreSt) : (s.modCore c f).fresh = s.fresh := rfl
@[simp] theorem State.modCore_pending (s : State) (c : Nat) (f : CoreSt → CoreSt) : (s.modCore c f).pending = s.pending := rfl

/-! ### modCluster -/

@[simp] theorem State.modCluster_cores (s : State) (k : Nat) (f : ClusterSt → ClusterSt) : (s.modCluster k f).cores = s.cores := rfl
@[simp] theorem State.modCluster_slices (s : State) (k : Nat) (f : ClusterSt → ClusterSt) : (s.modCluster k f).slices = s.slices := rfl
@[simp] theorem State.modCluster_stackFenced (s : State) (k : Nat) (f : ClusterSt → ClusterSt) : (s.modCluster k f).stackFenced = s.stackFenced := rfl
@[simp] theorem State.modCluster_fabric (s : State) (k : Nat) (f : ClusterSt → ClusterSt) : (s.modCluster k f).fabric = s.fabric := rfl
@[simp] theorem State.modCluster_lat (s : State) (k : Nat) (f : ClusterSt → ClusterSt) : (s.modCluster k f).lat = s.lat := rfl
@[simp] theorem State.modCluster_root (s : State) (k : Nat) (f : ClusterSt → ClusterSt) : (s.modCluster k f).root = s.root := rfl
@[simp] theorem State.modCluster_smap (s : State) (k : Nat) (f : ClusterSt → ClusterSt) : (s.modCluster k f).smap = s.smap := rfl
@[simp] theorem State.modCluster_host (s : State) (k : Nat) (f : ClusterSt → ClusterSt) : (s.modCluster k f).host = s.host := rfl
@[simp] theorem State.modCluster_cp (s : State) (k : Nat) (f : ClusterSt → ClusterSt) : (s.modCluster k f).cp = s.cp := rfl
@[simp] theorem State.modCluster_mgmt (s : State) (k : Nat) (f : ClusterSt → ClusterSt) : (s.modCluster k f).mgmt = s.mgmt := rfl
@[simp] theorem State.modCluster_pwr (s : State) (k : Nat) (f : ClusterSt → ClusterSt) : (s.modCluster k f).pwr = s.pwr := rfl
@[simp] theorem State.modCluster_msgs (s : State) (k : Nat) (f : ClusterSt → ClusterSt) : (s.modCluster k f).msgs = s.msgs := rfl
@[simp] theorem State.modCluster_nextId (s : State) (k : Nat) (f : ClusterSt → ClusterSt) : (s.modCluster k f).nextId = s.nextId := rfl
@[simp] theorem State.modCluster_outbox (s : State) (k : Nat) (f : ClusterSt → ClusterSt) : (s.modCluster k f).outbox = s.outbox := rfl
@[simp] theorem State.modCluster_reply (s : State) (k : Nat) (f : ClusterSt → ClusterSt) : (s.modCluster k f).reply = s.reply := rfl
@[simp] theorem State.modCluster_fresh (s : State) (k : Nat) (f : ClusterSt → ClusterSt) : (s.modCluster k f).fresh = s.fresh := rfl
@[simp] theorem State.modCluster_pending (s : State) (k : Nat) (f : ClusterSt → ClusterSt) : (s.modCluster k f).pending = s.pending := rfl

/-! ### modSlice -/

@[simp] theorem State.modSlice_cores (s : State) (k : Nat) (f : SliceSt → SliceSt) : (s.modSlice k f).cores = s.cores := rfl
@[simp] theorem State.modSlice_clusters (s : State) (k : Nat) (f : SliceSt → SliceSt) : (s.modSlice k f).clusters = s.clusters := rfl
@[simp] theorem State.modSlice_stackFenced (s : State) (k : Nat) (f : SliceSt → SliceSt) : (s.modSlice k f).stackFenced = s.stackFenced := rfl
@[simp] theorem State.modSlice_fabric (s : State) (k : Nat) (f : SliceSt → SliceSt) : (s.modSlice k f).fabric = s.fabric := rfl
@[simp] theorem State.modSlice_lat (s : State) (k : Nat) (f : SliceSt → SliceSt) : (s.modSlice k f).lat = s.lat := rfl
@[simp] theorem State.modSlice_root (s : State) (k : Nat) (f : SliceSt → SliceSt) : (s.modSlice k f).root = s.root := rfl
@[simp] theorem State.modSlice_smap (s : State) (k : Nat) (f : SliceSt → SliceSt) : (s.modSlice k f).smap = s.smap := rfl
@[simp] theorem State.modSlice_host (s : State) (k : Nat) (f : SliceSt → SliceSt) : (s.modSlice k f).host = s.host := rfl
@[simp] theorem State.modSlice_cp (s : State) (k : Nat) (f : SliceSt → SliceSt) : (s.modSlice k f).cp = s.cp := rfl
@[simp] theorem State.modSlice_mgmt (s : State) (k : Nat) (f : SliceSt → SliceSt) : (s.modSlice k f).mgmt = s.mgmt := rfl
@[simp] theorem State.modSlice_pwr (s : State) (k : Nat) (f : SliceSt → SliceSt) : (s.modSlice k f).pwr = s.pwr := rfl
@[simp] theorem State.modSlice_msgs (s : State) (k : Nat) (f : SliceSt → SliceSt) : (s.modSlice k f).msgs = s.msgs := rfl
@[simp] theorem State.modSlice_nextId (s : State) (k : Nat) (f : SliceSt → SliceSt) : (s.modSlice k f).nextId = s.nextId := rfl
@[simp] theorem State.modSlice_outbox (s : State) (k : Nat) (f : SliceSt → SliceSt) : (s.modSlice k f).outbox = s.outbox := rfl
@[simp] theorem State.modSlice_reply (s : State) (k : Nat) (f : SliceSt → SliceSt) : (s.modSlice k f).reply = s.reply := rfl
@[simp] theorem State.modSlice_fresh (s : State) (k : Nat) (f : SliceSt → SliceSt) : (s.modSlice k f).fresh = s.fresh := rfl
@[simp] theorem State.modSlice_pending (s : State) (k : Nat) (f : SliceSt → SliceSt) : (s.modSlice k f).pending = s.pending := rfl

/-! ### modThr -/

@[simp] theorem State.modThr_clusters (s : State) (t : Tid) (f : ThreadSt → ThreadSt) : (s.modThr t f).clusters = s.clusters := rfl
@[simp] theorem State.modThr_slices (s : State) (t : Tid) (f : ThreadSt → ThreadSt) : (s.modThr t f).slices = s.slices := rfl
@[simp] theorem State.modThr_stackFenced (s : State) (t : Tid) (f : ThreadSt → ThreadSt) : (s.modThr t f).stackFenced = s.stackFenced := rfl
@[simp] theorem State.modThr_fabric (s : State) (t : Tid) (f : ThreadSt → ThreadSt) : (s.modThr t f).fabric = s.fabric := rfl
@[simp] theorem State.modThr_lat (s : State) (t : Tid) (f : ThreadSt → ThreadSt) : (s.modThr t f).lat = s.lat := rfl
@[simp] theorem State.modThr_root (s : State) (t : Tid) (f : ThreadSt → ThreadSt) : (s.modThr t f).root = s.root := rfl
@[simp] theorem State.modThr_smap (s : State) (t : Tid) (f : ThreadSt → ThreadSt) : (s.modThr t f).smap = s.smap := rfl
@[simp] theorem State.modThr_host (s : State) (t : Tid) (f : ThreadSt → ThreadSt) : (s.modThr t f).host = s.host := rfl
@[simp] theorem State.modThr_cp (s : State) (t : Tid) (f : ThreadSt → ThreadSt) : (s.modThr t f).cp = s.cp := rfl
@[simp] theorem State.modThr_mgmt (s : State) (t : Tid) (f : ThreadSt → ThreadSt) : (s.modThr t f).mgmt = s.mgmt := rfl
@[simp] theorem State.modThr_pwr (s : State) (t : Tid) (f : ThreadSt → ThreadSt) : (s.modThr t f).pwr = s.pwr := rfl
@[simp] theorem State.modThr_msgs (s : State) (t : Tid) (f : ThreadSt → ThreadSt) : (s.modThr t f).msgs = s.msgs := rfl
@[simp] theorem State.modThr_nextId (s : State) (t : Tid) (f : ThreadSt → ThreadSt) : (s.modThr t f).nextId = s.nextId := rfl
@[simp] theorem State.modThr_outbox (s : State) (t : Tid) (f : ThreadSt → ThreadSt) : (s.modThr t f).outbox = s.outbox := rfl
@[simp] theorem State.modThr_reply (s : State) (t : Tid) (f : ThreadSt → ThreadSt) : (s.modThr t f).reply = s.reply := rfl
@[simp] theorem State.modThr_fresh (s : State) (t : Tid) (f : ThreadSt → ThreadSt) : (s.modThr t f).fresh = s.fresh := rfl
@[simp] theorem State.modThr_pending (s : State) (t : Tid) (f : ThreadSt → ThreadSt) : (s.modThr t f).pending = s.pending := rfl

/-! ### setReg -/

@[simp] theorem State.setReg_clusters (s : State) (t : Tid) (r : Nat) (v : TWord) : (s.setReg t r v).clusters = s.clusters := rfl
@[simp] theorem State.setReg_slices (s : State) (t : Tid) (r : Nat) (v : TWord) : (s.setReg t r v).slices = s.slices := rfl
@[simp] theorem State.setReg_stackFenced (s : State) (t : Tid) (r : Nat) (v : TWord) : (s.setReg t r v).stackFenced = s.stackFenced := rfl
@[simp] theorem State.setReg_fabric (s : State) (t : Tid) (r : Nat) (v : TWord) : (s.setReg t r v).fabric = s.fabric := rfl
@[simp] theorem State.setReg_lat (s : State) (t : Tid) (r : Nat) (v : TWord) : (s.setReg t r v).lat = s.lat := rfl
@[simp] theorem State.setReg_root (s : State) (t : Tid) (r : Nat) (v : TWord) : (s.setReg t r v).root = s.root := rfl
@[simp] theorem State.setReg_smap (s : State) (t : Tid) (r : Nat) (v : TWord) : (s.setReg t r v).smap = s.smap := rfl
@[simp] theorem State.setReg_host (s : State) (t : Tid) (r : Nat) (v : TWord) : (s.setReg t r v).host = s.host := rfl
@[simp] theorem State.setReg_cp (s : State) (t : Tid) (r : Nat) (v : TWord) : (s.setReg t r v).cp = s.cp := rfl
@[simp] theorem State.setReg_mgmt (s : State) (t : Tid) (r : Nat) (v : TWord) : (s.setReg t r v).mgmt = s.mgmt := rfl
@[simp] theorem State.setReg_pwr (s : State) (t : Tid) (r : Nat) (v : TWord) : (s.setReg t r v).pwr = s.pwr := rfl
@[simp] theorem State.setReg_msgs (s : State) (t : Tid) (r : Nat) (v : TWord) : (s.setReg t r v).msgs = s.msgs := rfl
@[simp] theorem State.setReg_nextId (s : State) (t : Tid) (r : Nat) (v : TWord) : (s.setReg t r v).nextId = s.nextId := rfl
@[simp] theorem State.setReg_outbox (s : State) (t : Tid) (r : Nat) (v : TWord) : (s.setReg t r v).outbox = s.outbox := rfl
@[simp] theorem State.setReg_reply (s : State) (t : Tid) (r : Nat) (v : TWord) : (s.setReg t r v).reply = s.reply := rfl
@[simp] theorem State.setReg_fresh (s : State) (t : Tid) (r : Nat) (v : TWord) : (s.setReg t r v).fresh = s.fresh := rfl
@[simp] theorem State.setReg_pending (s : State) (t : Tid) (r : Nat) (v : TWord) : (s.setReg t r v).pending = s.pending := rfl

/-! ### modLink -/

@[simp] theorem State.modLink_cores (s : State) (l : Nat) (f : LinkSt → LinkSt) : (s.modLink l f).cores = s.cores := rfl
@[simp] theorem State.modLink_clusters (s : State) (l : Nat) (f : LinkSt → LinkSt) : (s.modLink l f).clusters = s.clusters := rfl
@[simp] theorem State.modLink_slices (s : State) (l : Nat) (f : LinkSt → LinkSt) : (s.modLink l f).slices = s.slices := rfl
@[simp] theorem State.modLink_stackFenced (s : State) (l : Nat) (f : LinkSt → LinkSt) : (s.modLink l f).stackFenced = s.stackFenced := rfl
@[simp] theorem State.modLink_fabric (s : State) (l : Nat) (f : LinkSt → LinkSt) : (s.modLink l f).fabric = s.fabric := rfl
@[simp] theorem State.modLink_root (s : State) (l : Nat) (f : LinkSt → LinkSt) : (s.modLink l f).root = s.root := rfl
@[simp] theorem State.modLink_smap (s : State) (l : Nat) (f : LinkSt → LinkSt) : (s.modLink l f).smap = s.smap := rfl
@[simp] theorem State.modLink_host (s : State) (l : Nat) (f : LinkSt → LinkSt) : (s.modLink l f).host = s.host := rfl
@[simp] theorem State.modLink_cp (s : State) (l : Nat) (f : LinkSt → LinkSt) : (s.modLink l f).cp = s.cp := rfl
@[simp] theorem State.modLink_mgmt (s : State) (l : Nat) (f : LinkSt → LinkSt) : (s.modLink l f).mgmt = s.mgmt := rfl
@[simp] theorem State.modLink_pwr (s : State) (l : Nat) (f : LinkSt → LinkSt) : (s.modLink l f).pwr = s.pwr := rfl
@[simp] theorem State.modLink_msgs (s : State) (l : Nat) (f : LinkSt → LinkSt) : (s.modLink l f).msgs = s.msgs := rfl
@[simp] theorem State.modLink_nextId (s : State) (l : Nat) (f : LinkSt → LinkSt) : (s.modLink l f).nextId = s.nextId := rfl
@[simp] theorem State.modLink_outbox (s : State) (l : Nat) (f : LinkSt → LinkSt) : (s.modLink l f).outbox = s.outbox := rfl
@[simp] theorem State.modLink_reply (s : State) (l : Nat) (f : LinkSt → LinkSt) : (s.modLink l f).reply = s.reply := rfl
@[simp] theorem State.modLink_fresh (s : State) (l : Nat) (f : LinkSt → LinkSt) : (s.modLink l f).fresh = s.fresh := rfl
@[simp] theorem State.modLink_pending (s : State) (l : Nat) (f : LinkSt → LinkSt) : (s.modLink l f).pending = s.pending := rfl

/-! ### modRoot -/

@[simp] theorem State.modRoot_cores (s : State) (g : Nat) (f : CinchRoot → CinchRoot) : (s.modRoot g f).cores = s.cores := rfl
@[simp] theorem State.modRoot_clusters (s : State) (g : Nat) (f : CinchRoot → CinchRoot) : (s.modRoot g f).clusters = s.clusters := rfl
@[simp] theorem State.modRoot_slices (s : State) (g : Nat) (f : CinchRoot → CinchRoot) : (s.modRoot g f).slices = s.slices := rfl
@[simp] theorem State.modRoot_stackFenced (s : State) (g : Nat) (f : CinchRoot → CinchRoot) : (s.modRoot g f).stackFenced = s.stackFenced := rfl
@[simp] theorem State.modRoot_fabric (s : State) (g : Nat) (f : CinchRoot → CinchRoot) : (s.modRoot g f).fabric = s.fabric := rfl
@[simp] theorem State.modRoot_lat (s : State) (g : Nat) (f : CinchRoot → CinchRoot) : (s.modRoot g f).lat = s.lat := rfl
@[simp] theorem State.modRoot_smap (s : State) (g : Nat) (f : CinchRoot → CinchRoot) : (s.modRoot g f).smap = s.smap := rfl
@[simp] theorem State.modRoot_host (s : State) (g : Nat) (f : CinchRoot → CinchRoot) : (s.modRoot g f).host = s.host := rfl
@[simp] theorem State.modRoot_cp (s : State) (g : Nat) (f : CinchRoot → CinchRoot) : (s.modRoot g f).cp = s.cp := rfl
@[simp] theorem State.modRoot_mgmt (s : State) (g : Nat) (f : CinchRoot → CinchRoot) : (s.modRoot g f).mgmt = s.mgmt := rfl
@[simp] theorem State.modRoot_pwr (s : State) (g : Nat) (f : CinchRoot → CinchRoot) : (s.modRoot g f).pwr = s.pwr := rfl
@[simp] theorem State.modRoot_msgs (s : State) (g : Nat) (f : CinchRoot → CinchRoot) : (s.modRoot g f).msgs = s.msgs := rfl
@[simp] theorem State.modRoot_nextId (s : State) (g : Nat) (f : CinchRoot → CinchRoot) : (s.modRoot g f).nextId = s.nextId := rfl
@[simp] theorem State.modRoot_outbox (s : State) (g : Nat) (f : CinchRoot → CinchRoot) : (s.modRoot g f).outbox = s.outbox := rfl
@[simp] theorem State.modRoot_reply (s : State) (g : Nat) (f : CinchRoot → CinchRoot) : (s.modRoot g f).reply = s.reply := rfl
@[simp] theorem State.modRoot_fresh (s : State) (g : Nat) (f : CinchRoot → CinchRoot) : (s.modRoot g f).fresh = s.fresh := rfl
@[simp] theorem State.modRoot_pending (s : State) (g : Nat) (f : CinchRoot → CinchRoot) : (s.modRoot g f).pending = s.pending := rfl

/-! ### out -/

@[simp] theorem State.out_cores (s : State) (o : Out) : (s.out o).cores = s.cores := rfl
@[simp] theorem State.out_clusters (s : State) (o : Out) : (s.out o).clusters = s.clusters := rfl
@[simp] theorem State.out_slices (s : State) (o : Out) : (s.out o).slices = s.slices := rfl
@[simp] theorem State.out_stackFenced (s : State) (o : Out) : (s.out o).stackFenced = s.stackFenced := rfl
@[simp] theorem State.out_fabric (s : State) (o : Out) : (s.out o).fabric = s.fabric := rfl
@[simp] theorem State.out_lat (s : State) (o : Out) : (s.out o).lat = s.lat := rfl
@[simp] theorem State.out_root (s : State) (o : Out) : (s.out o).root = s.root := rfl
@[simp] theorem State.out_smap (s : State) (o : Out) : (s.out o).smap = s.smap := rfl
@[simp] theorem State.out_host (s : State) (o : Out) : (s.out o).host = s.host := rfl
@[simp] theorem State.out_cp (s : State) (o : Out) : (s.out o).cp = s.cp := rfl
@[simp] theorem State.out_mgmt (s : State) (o : Out) : (s.out o).mgmt = s.mgmt := rfl
@[simp] theorem State.out_pwr (s : State) (o : Out) : (s.out o).pwr = s.pwr := rfl
@[simp] theorem State.out_msgs (s : State) (o : Out) : (s.out o).msgs = s.msgs := rfl
@[simp] theorem State.out_nextId (s : State) (o : Out) : (s.out o).nextId = s.nextId := rfl
@[simp] theorem State.out_reply (s : State) (o : Out) : (s.out o).reply = s.reply := rfl
@[simp] theorem State.out_fresh (s : State) (o : Out) : (s.out o).fresh = s.fresh := rfl
@[simp] theorem State.out_pending (s : State) (o : Out) : (s.out o).pending = s.pending := rfl

/-! ### answer -/

@[simp] theorem State.answer_cores (s : State) (r : Reply) : (s.answer r).cores = s.cores := rfl
@[simp] theorem State.answer_clusters (s : State) (r : Reply) : (s.answer r).clusters = s.clusters := rfl
@[simp] theorem State.answer_slices (s : State) (r : Reply) : (s.answer r).slices = s.slices := rfl
@[simp] theorem State.answer_stackFenced (s : State) (r : Reply) : (s.answer r).stackFenced = s.stackFenced := rfl
@[simp] theorem State.answer_fabric (s : State) (r : Reply) : (s.answer r).fabric = s.fabric := rfl
@[simp] theorem State.answer_lat (s : State) (r : Reply) : (s.answer r).lat = s.lat := rfl
@[simp] theorem State.answer_root (s : State) (r : Reply) : (s.answer r).root = s.root := rfl
@[simp] theorem State.answer_smap (s : State) (r : Reply) : (s.answer r).smap = s.smap := rfl
@[simp] theorem State.answer_host (s : State) (r : Reply) : (s.answer r).host = s.host := rfl
@[simp] theorem State.answer_cp (s : State) (r : Reply) : (s.answer r).cp = s.cp := rfl
@[simp] theorem State.answer_mgmt (s : State) (r : Reply) : (s.answer r).mgmt = s.mgmt := rfl
@[simp] theorem State.answer_pwr (s : State) (r : Reply) : (s.answer r).pwr = s.pwr := rfl
@[simp] theorem State.answer_msgs (s : State) (r : Reply) : (s.answer r).msgs = s.msgs := rfl
@[simp] theorem State.answer_nextId (s : State) (r : Reply) : (s.answer r).nextId = s.nextId := rfl
@[simp] theorem State.answer_outbox (s : State) (r : Reply) : (s.answer r).outbox = s.outbox := rfl
@[simp] theorem State.answer_fresh (s : State) (r : Reply) : (s.answer r).fresh = s.fresh := rfl
@[simp] theorem State.answer_pending (s : State) (r : Reply) : (s.answer r).pending = s.pending := rfl

/-! ### notify changes the command processor alone -/

@[simp] theorem State.notify_cores (s : State) (n : Notice) : (s.notify n).cores = s.cores := by unfold State.notify; split <;> rfl
@[simp] theorem State.notify_clusters (s : State) (n : Notice) : (s.notify n).clusters = s.clusters := by unfold State.notify; split <;> rfl
@[simp] theorem State.notify_slices (s : State) (n : Notice) : (s.notify n).slices = s.slices := by unfold State.notify; split <;> rfl
@[simp] theorem State.notify_stackFenced (s : State) (n : Notice) : (s.notify n).stackFenced = s.stackFenced := by unfold State.notify; split <;> rfl
@[simp] theorem State.notify_fabric (s : State) (n : Notice) : (s.notify n).fabric = s.fabric := by unfold State.notify; split <;> rfl
@[simp] theorem State.notify_lat (s : State) (n : Notice) : (s.notify n).lat = s.lat := by unfold State.notify; split <;> rfl
@[simp] theorem State.notify_root (s : State) (n : Notice) : (s.notify n).root = s.root := by unfold State.notify; split <;> rfl
@[simp] theorem State.notify_smap (s : State) (n : Notice) : (s.notify n).smap = s.smap := by unfold State.notify; split <;> rfl
@[simp] theorem State.notify_host (s : State) (n : Notice) : (s.notify n).host = s.host := by unfold State.notify; split <;> rfl
@[simp] theorem State.notify_mgmt (s : State) (n : Notice) : (s.notify n).mgmt = s.mgmt := by unfold State.notify; split <;> rfl
@[simp] theorem State.notify_pwr (s : State) (n : Notice) : (s.notify n).pwr = s.pwr := by unfold State.notify; split <;> rfl
@[simp] theorem State.notify_msgs (s : State) (n : Notice) : (s.notify n).msgs = s.msgs := by unfold State.notify; split <;> rfl
@[simp] theorem State.notify_nextId (s : State) (n : Notice) : (s.notify n).nextId = s.nextId := by unfold State.notify; split <;> rfl
@[simp] theorem State.notify_outbox (s : State) (n : Notice) : (s.notify n).outbox = s.outbox := by unfold State.notify; split <;> rfl
@[simp] theorem State.notify_reply (s : State) (n : Notice) : (s.notify n).reply = s.reply := by unfold State.notify; split <;> rfl
@[simp] theorem State.notify_fresh (s : State) (n : Notice) : (s.notify n).fresh = s.fresh := by unfold State.notify; split <;> rfl
@[simp] theorem State.notify_pending (s : State) (n : Notice) : (s.notify n).pending = s.pending := by unfold State.notify; split <;> rfl

/-! ### Threads, queues and channels of a core -/

@[simp] theorem CoreSt.modT_shadow (x : CoreSt) (n : Nat) (f : ThreadSt → ThreadSt) : (x.modT n f).shadow = x.shadow := rfl
@[simp] theorem CoreSt.modT_inShadow (x : CoreSt) (n : Nat) (f : ThreadSt → ThreadSt) : (x.modT n f).inShadow = x.inShadow := rfl
@[simp] theorem CoreSt.modT_gnp (x : CoreSt) (n : Nat) (f : ThreadSt → ThreadSt) : (x.modT n f).gnp = x.gnp := rfl
@[simp] theorem CoreSt.modT_gns (x : CoreSt) (n : Nat) (f : ThreadSt → ThreadSt) : (x.modT n f).gns = x.gns := rfl
@[simp] theorem CoreSt.modT_policyStop (x : CoreSt) (n : Nat) (f : ThreadSt → ThreadSt) : (x.modT n f).policyStop = x.policyStop := rfl
@[simp] theorem CoreSt.modT_stopped (x : CoreSt) (n : Nat) (f : ThreadSt → ThreadSt) : (x.modT n f).stopped = x.stopped := rfl
@[simp] theorem CoreSt.modT_deadlock (x : CoreSt) (n : Nat) (f : ThreadSt → ThreadSt) : (x.modT n f).deadlock = x.deadlock := rfl
@[simp] theorem CoreSt.modT_gateCount (x : CoreSt) (n : Nat) (f : ThreadSt → ThreadSt) : (x.modT n f).gateCount = x.gateCount := rfl
@[simp] theorem CoreSt.modT_gateBase (x : CoreSt) (n : Nat) (f : ThreadSt → ThreadSt) : (x.modT n f).gateBase = x.gateBase := rfl
@[simp] theorem CoreSt.modT_excvec (x : CoreSt) (n : Nat) (f : ThreadSt → ThreadSt) : (x.modT n f).excvec = x.excvec := rfl
@[simp] theorem CoreSt.modT_dfvec (x : CoreSt) (n : Nat) (f : ThreadSt → ThreadSt) : (x.modT n f).dfvec = x.dfvec := rfl
@[simp] theorem CoreSt.modT_emstk (x : CoreSt) (n : Nat) (f : ThreadSt → ThreadSt) : (x.modT n f).emstk = x.emstk := rfl
@[simp] theorem CoreSt.modT_resetCause (x : CoreSt) (n : Nat) (f : ThreadSt → ThreadSt) : (x.modT n f).resetCause = x.resetCause := rfl
@[simp] theorem CoreSt.modT_segs (x : CoreSt) (n : Nat) (f : ThreadSt → ThreadSt) : (x.modT n f).segs = x.segs := rfl
@[simp] theorem CoreSt.modT_icPar (x : CoreSt) (n : Nat) (f : ThreadSt → ThreadSt) : (x.modT n f).icPar = x.icPar := rfl
@[simp] theorem CoreSt.modT_icache (x : CoreSt) (n : Nat) (f : ThreadSt → ThreadSt) : (x.modT n f).icache = x.icache := rfl
@[simp] theorem CoreSt.modT_icStruck (x : CoreSt) (n : Nat) (f : ThreadSt → ThreadSt) : (x.modT n f).icStruck = x.icStruck := rfl
@[simp] theorem CoreSt.modT_dc (x : CoreSt) (n : Nat) (f : ThreadSt → ThreadSt) : (x.modT n f).dc = x.dc := rfl
@[simp] theorem CoreSt.modT_spad (x : CoreSt) (n : Nat) (f : ThreadSt → ThreadSt) : (x.modT n f).spad = x.spad := rfl
@[simp] theorem CoreSt.modT_wins (x : CoreSt) (n : Nat) (f : ThreadSt → ThreadSt) : (x.modT n f).wins = x.wins := rfl
@[simp] theorem CoreSt.modT_keep (x : CoreSt) (n : Nat) (f : ThreadSt → ThreadSt) : (x.modT n f).keep = x.keep := rfl
@[simp] theorem CoreSt.modT_mtx (x : CoreSt) (n : Nat) (f : ThreadSt → ThreadSt) : (x.modT n f).mtx = x.mtx := rfl
@[simp] theorem CoreSt.modT_vec (x : CoreSt) (n : Nat) (f : ThreadSt → ThreadSt) : (x.modT n f).vec = x.vec := rfl
@[simp] theorem CoreSt.modT_dma (x : CoreSt) (n : Nat) (f : ThreadSt → ThreadSt) : (x.modT n f).dma = x.dma := rfl
@[simp] theorem CoreSt.modT_dlPend (x : CoreSt) (n : Nat) (f : ThreadSt → ThreadSt) : (x.modT n f).dlPend = x.dlPend := rfl
@[simp] theorem CoreSt.modT_evt (x : CoreSt) (n : Nat) (f : ThreadSt → ThreadSt) : (x.modT n f).evt = x.evt := rfl
@[simp] theorem CoreSt.modT_evtAcq (x : CoreSt) (n : Nat) (f : ThreadSt → ThreadSt) : (x.modT n f).evtAcq = x.evtAcq := rfl
@[simp] theorem CoreSt.modT_queues (x : CoreSt) (n : Nat) (f : ThreadSt → ThreadSt) : (x.modT n f).queues = x.queues := rfl
@[simp] theorem CoreSt.modT_epoch (x : CoreSt) (n : Nat) (f : ThreadSt → ThreadSt) : (x.modT n f).epoch = x.epoch := rfl
@[simp] theorem CoreSt.modT_sendErr (x : CoreSt) (n : Nat) (f : ThreadSt → ThreadSt) : (x.modT n f).sendErr = x.sendErr := rfl
@[simp] theorem CoreSt.modT_sendInfo (x : CoreSt) (n : Nat) (f : ThreadSt → ThreadSt) : (x.modT n f).sendInfo = x.sendInfo := rfl
@[simp] theorem CoreSt.modT_cinch (x : CoreSt) (n : Nat) (f : ThreadSt → ThreadSt) : (x.modT n f).cinch = x.cinch := rfl
@[simp] theorem CoreSt.modT_tclass (x : CoreSt) (n : Nat) (f : ThreadSt → ThreadSt) : (x.modT n f).tclass = x.tclass := rfl
@[simp] theorem CoreSt.modT_dbg (x : CoreSt) (n : Nat) (f : ThreadSt → ThreadSt) : (x.modT n f).dbg = x.dbg := rfl
@[simp] theorem CoreSt.modT_fenced (x : CoreSt) (n : Nat) (f : ThreadSt → ThreadSt) : (x.modT n f).fenced = x.fenced := rfl
@[simp] theorem CoreSt.modT_hardFence (x : CoreSt) (n : Nat) (f : ThreadSt → ThreadSt) : (x.modT n f).hardFence = x.hardFence := rfl
@[simp] theorem CoreSt.modT_stale (x : CoreSt) (n : Nat) (f : ThreadSt → ThreadSt) : (x.modT n f).stale = x.stale := rfl
@[simp] theorem CoreSt.modQ_thr (x : CoreSt) (n : Nat) (f : QueueSt → QueueSt) : (x.modQ n f).thr = x.thr := rfl
@[simp] theorem CoreSt.modQ_shadow (x : CoreSt) (n : Nat) (f : QueueSt → QueueSt) : (x.modQ n f).shadow = x.shadow := rfl
@[simp] theorem CoreSt.modQ_inShadow (x : CoreSt) (n : Nat) (f : QueueSt → QueueSt) : (x.modQ n f).inShadow = x.inShadow := rfl
@[simp] theorem CoreSt.modQ_gnp (x : CoreSt) (n : Nat) (f : QueueSt → QueueSt) : (x.modQ n f).gnp = x.gnp := rfl
@[simp] theorem CoreSt.modQ_gns (x : CoreSt) (n : Nat) (f : QueueSt → QueueSt) : (x.modQ n f).gns = x.gns := rfl
@[simp] theorem CoreSt.modQ_policyStop (x : CoreSt) (n : Nat) (f : QueueSt → QueueSt) : (x.modQ n f).policyStop = x.policyStop := rfl
@[simp] theorem CoreSt.modQ_stopped (x : CoreSt) (n : Nat) (f : QueueSt → QueueSt) : (x.modQ n f).stopped = x.stopped := rfl
@[simp] theorem CoreSt.modQ_deadlock (x : CoreSt) (n : Nat) (f : QueueSt → QueueSt) : (x.modQ n f).deadlock = x.deadlock := rfl
@[simp] theorem CoreSt.modQ_gateCount (x : CoreSt) (n : Nat) (f : QueueSt → QueueSt) : (x.modQ n f).gateCount = x.gateCount := rfl
@[simp] theorem CoreSt.modQ_gateBase (x : CoreSt) (n : Nat) (f : QueueSt → QueueSt) : (x.modQ n f).gateBase = x.gateBase := rfl
@[simp] theorem CoreSt.modQ_excvec (x : CoreSt) (n : Nat) (f : QueueSt → QueueSt) : (x.modQ n f).excvec = x.excvec := rfl
@[simp] theorem CoreSt.modQ_dfvec (x : CoreSt) (n : Nat) (f : QueueSt → QueueSt) : (x.modQ n f).dfvec = x.dfvec := rfl
@[simp] theorem CoreSt.modQ_emstk (x : CoreSt) (n : Nat) (f : QueueSt → QueueSt) : (x.modQ n f).emstk = x.emstk := rfl
@[simp] theorem CoreSt.modQ_resetCause (x : CoreSt) (n : Nat) (f : QueueSt → QueueSt) : (x.modQ n f).resetCause = x.resetCause := rfl
@[simp] theorem CoreSt.modQ_segs (x : CoreSt) (n : Nat) (f : QueueSt → QueueSt) : (x.modQ n f).segs = x.segs := rfl
@[simp] theorem CoreSt.modQ_icPar (x : CoreSt) (n : Nat) (f : QueueSt → QueueSt) : (x.modQ n f).icPar = x.icPar := rfl
@[simp] theorem CoreSt.modQ_icache (x : CoreSt) (n : Nat) (f : QueueSt → QueueSt) : (x.modQ n f).icache = x.icache := rfl
@[simp] theorem CoreSt.modQ_icStruck (x : CoreSt) (n : Nat) (f : QueueSt → QueueSt) : (x.modQ n f).icStruck = x.icStruck := rfl
@[simp] theorem CoreSt.modQ_dc (x : CoreSt) (n : Nat) (f : QueueSt → QueueSt) : (x.modQ n f).dc = x.dc := rfl
@[simp] theorem CoreSt.modQ_spad (x : CoreSt) (n : Nat) (f : QueueSt → QueueSt) : (x.modQ n f).spad = x.spad := rfl
@[simp] theorem CoreSt.modQ_wins (x : CoreSt) (n : Nat) (f : QueueSt → QueueSt) : (x.modQ n f).wins = x.wins := rfl
@[simp] theorem CoreSt.modQ_keep (x : CoreSt) (n : Nat) (f : QueueSt → QueueSt) : (x.modQ n f).keep = x.keep := rfl
@[simp] theorem CoreSt.modQ_mtx (x : CoreSt) (n : Nat) (f : QueueSt → QueueSt) : (x.modQ n f).mtx = x.mtx := rfl
@[simp] theorem CoreSt.modQ_vec (x : CoreSt) (n : Nat) (f : QueueSt → QueueSt) : (x.modQ n f).vec = x.vec := rfl
@[simp] theorem CoreSt.modQ_dma (x : CoreSt) (n : Nat) (f : QueueSt → QueueSt) : (x.modQ n f).dma = x.dma := rfl
@[simp] theorem CoreSt.modQ_dlPend (x : CoreSt) (n : Nat) (f : QueueSt → QueueSt) : (x.modQ n f).dlPend = x.dlPend := rfl
@[simp] theorem CoreSt.modQ_evt (x : CoreSt) (n : Nat) (f : QueueSt → QueueSt) : (x.modQ n f).evt = x.evt := rfl
@[simp] theorem CoreSt.modQ_evtAcq (x : CoreSt) (n : Nat) (f : QueueSt → QueueSt) : (x.modQ n f).evtAcq = x.evtAcq := rfl
@[simp] theorem CoreSt.modQ_epoch (x : CoreSt) (n : Nat) (f : QueueSt → QueueSt) : (x.modQ n f).epoch = x.epoch := rfl
@[simp] theorem CoreSt.modQ_sendErr (x : CoreSt) (n : Nat) (f : QueueSt → QueueSt) : (x.modQ n f).sendErr = x.sendErr := rfl
@[simp] theorem CoreSt.modQ_sendInfo (x : CoreSt) (n : Nat) (f : QueueSt → QueueSt) : (x.modQ n f).sendInfo = x.sendInfo := rfl
@[simp] theorem CoreSt.modQ_cinch (x : CoreSt) (n : Nat) (f : QueueSt → QueueSt) : (x.modQ n f).cinch = x.cinch := rfl
@[simp] theorem CoreSt.modQ_tclass (x : CoreSt) (n : Nat) (f : QueueSt → QueueSt) : (x.modQ n f).tclass = x.tclass := rfl
@[simp] theorem CoreSt.modQ_dbg (x : CoreSt) (n : Nat) (f : QueueSt → QueueSt) : (x.modQ n f).dbg = x.dbg := rfl
@[simp] theorem CoreSt.modQ_fenced (x : CoreSt) (n : Nat) (f : QueueSt → QueueSt) : (x.modQ n f).fenced = x.fenced := rfl
@[simp] theorem CoreSt.modQ_hardFence (x : CoreSt) (n : Nat) (f : QueueSt → QueueSt) : (x.modQ n f).hardFence = x.hardFence := rfl
@[simp] theorem CoreSt.modQ_stale (x : CoreSt) (n : Nat) (f : QueueSt → QueueSt) : (x.modQ n f).stale = x.stale := rfl
@[simp] theorem CoreSt.modCh_thr (x : CoreSt) (n : Nat) (f : DmaCh → DmaCh) : (x.modCh n f).thr = x.thr := rfl
@[simp] theorem CoreSt.modCh_shadow (x : CoreSt) (n : Nat) (f : DmaCh → DmaCh) : (x.modCh n f).shadow = x.shadow := rfl
@[simp] theorem CoreSt.modCh_inShadow (x : CoreSt) (n : Nat) (f : DmaCh → DmaCh) : (x.modCh n f).inShadow = x.inShadow := rfl
@[simp] theorem CoreSt.modCh_gnp (x : CoreSt) (n : Nat) (f : DmaCh → DmaCh) : (x.modCh n f).gnp = x.gnp := rfl
@[simp] theorem CoreSt.modCh_gns (x : CoreSt) (n : Nat) (f : DmaCh → DmaCh) : (x.modCh n f).gns = x.gns := rfl
@[simp] theorem CoreSt.modCh_policyStop (x : CoreSt) (n : Nat) (f : DmaCh → DmaCh) : (x.modCh n f).policyStop = x.policyStop := rfl
@[simp] theorem CoreSt.modCh_stopped (x : CoreSt) (n : Nat) (f : DmaCh → DmaCh) : (x.modCh n f).stopped = x.stopped := rfl
@[simp] theorem CoreSt.modCh_deadlock (x : CoreSt) (n : Nat) (f : DmaCh → DmaCh) : (x.modCh n f).deadlock = x.deadlock := rfl
@[simp] theorem CoreSt.modCh_gateCount (x : CoreSt) (n : Nat) (f : DmaCh → DmaCh) : (x.modCh n f).gateCount = x.gateCount := rfl
@[simp] theorem CoreSt.modCh_gateBase (x : CoreSt) (n : Nat) (f : DmaCh → DmaCh) : (x.modCh n f).gateBase = x.gateBase := rfl
@[simp] theorem CoreSt.modCh_excvec (x : CoreSt) (n : Nat) (f : DmaCh → DmaCh) : (x.modCh n f).excvec = x.excvec := rfl
@[simp] theorem CoreSt.modCh_dfvec (x : CoreSt) (n : Nat) (f : DmaCh → DmaCh) : (x.modCh n f).dfvec = x.dfvec := rfl
@[simp] theorem CoreSt.modCh_emstk (x : CoreSt) (n : Nat) (f : DmaCh → DmaCh) : (x.modCh n f).emstk = x.emstk := rfl
@[simp] theorem CoreSt.modCh_resetCause (x : CoreSt) (n : Nat) (f : DmaCh → DmaCh) : (x.modCh n f).resetCause = x.resetCause := rfl
@[simp] theorem CoreSt.modCh_segs (x : CoreSt) (n : Nat) (f : DmaCh → DmaCh) : (x.modCh n f).segs = x.segs := rfl
@[simp] theorem CoreSt.modCh_icPar (x : CoreSt) (n : Nat) (f : DmaCh → DmaCh) : (x.modCh n f).icPar = x.icPar := rfl
@[simp] theorem CoreSt.modCh_icache (x : CoreSt) (n : Nat) (f : DmaCh → DmaCh) : (x.modCh n f).icache = x.icache := rfl
@[simp] theorem CoreSt.modCh_icStruck (x : CoreSt) (n : Nat) (f : DmaCh → DmaCh) : (x.modCh n f).icStruck = x.icStruck := rfl
@[simp] theorem CoreSt.modCh_dc (x : CoreSt) (n : Nat) (f : DmaCh → DmaCh) : (x.modCh n f).dc = x.dc := rfl
@[simp] theorem CoreSt.modCh_spad (x : CoreSt) (n : Nat) (f : DmaCh → DmaCh) : (x.modCh n f).spad = x.spad := rfl
@[simp] theorem CoreSt.modCh_wins (x : CoreSt) (n : Nat) (f : DmaCh → DmaCh) : (x.modCh n f).wins = x.wins := rfl
@[simp] theorem CoreSt.modCh_keep (x : CoreSt) (n : Nat) (f : DmaCh → DmaCh) : (x.modCh n f).keep = x.keep := rfl
@[simp] theorem CoreSt.modCh_mtx (x : CoreSt) (n : Nat) (f : DmaCh → DmaCh) : (x.modCh n f).mtx = x.mtx := rfl
@[simp] theorem CoreSt.modCh_vec (x : CoreSt) (n : Nat) (f : DmaCh → DmaCh) : (x.modCh n f).vec = x.vec := rfl
@[simp] theorem CoreSt.modCh_dlPend (x : CoreSt) (n : Nat) (f : DmaCh → DmaCh) : (x.modCh n f).dlPend = x.dlPend := rfl
@[simp] theorem CoreSt.modCh_evt (x : CoreSt) (n : Nat) (f : DmaCh → DmaCh) : (x.modCh n f).evt = x.evt := rfl
@[simp] theorem CoreSt.modCh_evtAcq (x : CoreSt) (n : Nat) (f : DmaCh → DmaCh) : (x.modCh n f).evtAcq = x.evtAcq := rfl
@[simp] theorem CoreSt.modCh_queues (x : CoreSt) (n : Nat) (f : DmaCh → DmaCh) : (x.modCh n f).queues = x.queues := rfl
@[simp] theorem CoreSt.modCh_epoch (x : CoreSt) (n : Nat) (f : DmaCh → DmaCh) : (x.modCh n f).epoch = x.epoch := rfl
@[simp] theorem CoreSt.modCh_sendErr (x : CoreSt) (n : Nat) (f : DmaCh → DmaCh) : (x.modCh n f).sendErr = x.sendErr := rfl
@[simp] theorem CoreSt.modCh_sendInfo (x : CoreSt) (n : Nat) (f : DmaCh → DmaCh) : (x.modCh n f).sendInfo = x.sendInfo := rfl
@[simp] theorem CoreSt.modCh_cinch (x : CoreSt) (n : Nat) (f : DmaCh → DmaCh) : (x.modCh n f).cinch = x.cinch := rfl
@[simp] theorem CoreSt.modCh_tclass (x : CoreSt) (n : Nat) (f : DmaCh → DmaCh) : (x.modCh n f).tclass = x.tclass := rfl
@[simp] theorem CoreSt.modCh_dbg (x : CoreSt) (n : Nat) (f : DmaCh → DmaCh) : (x.modCh n f).dbg = x.dbg := rfl
@[simp] theorem CoreSt.modCh_fenced (x : CoreSt) (n : Nat) (f : DmaCh → DmaCh) : (x.modCh n f).fenced = x.fenced := rfl
@[simp] theorem CoreSt.modCh_hardFence (x : CoreSt) (n : Nat) (f : DmaCh → DmaCh) : (x.modCh n f).hardFence = x.hardFence := rfl
@[simp] theorem CoreSt.modCh_stale (x : CoreSt) (n : Nat) (f : DmaCh → DmaCh) : (x.modCh n f).stale = x.stale := rfl

@[simp] theorem ThreadSt.setReg_pc (x : ThreadSt) (r : Nat) (v : TWord) : (x.setReg r v).pc = x.pc := by unfold ThreadSt.setReg; split <;> rfl
@[simp] theorem ThreadSt.setReg_dsp (x : ThreadSt) (r : Nat) (v : TWord) : (x.setReg r v).dsp = x.dsp := by unfold ThreadSt.setReg; split <;> rfl
@[simp] theorem ThreadSt.setReg_rtp (x : ThreadSt) (r : Nat) (v : TWord) : (x.setReg r v).rtp = x.rtp := by unfold ThreadSt.setReg; split <;> rfl
@[simp] theorem ThreadSt.setReg_lnk (x : ThreadSt) (r : Nat) (v : TWord) : (x.setReg r v).lnk = x.lnk := by unfold ThreadSt.setReg; split <;> rfl
@[simp] theorem ThreadSt.setReg_lc (x : ThreadSt) (r : Nat) (v : TWord) : (x.setReg r v).lc = x.lc := by unfold ThreadSt.setReg; split <;> rfl
@[simp] theorem ThreadSt.setReg_ls (x : ThreadSt) (r : Nat) (v : TWord) : (x.setReg r v).ls = x.ls := by unfold ThreadSt.setReg; split <;> rfl
@[simp] theorem ThreadSt.setReg_le (x : ThreadSt) (r : Nat) (v : TWord) : (x.setReg r v).le = x.le := by unfold ThreadSt.setReg; split <;> rfl
@[simp] theorem ThreadSt.setReg_priv (x : ThreadSt) (r : Nat) (v : TWord) : (x.setReg r v).priv = x.priv := by unfold ThreadSt.setReg; split <;> rfl
@[simp] theorem ThreadSt.setReg_compat (x : ThreadSt) (r : Nat) (v : TWord) : (x.setReg r v).compat = x.compat := by unfold ThreadSt.setReg; split <;> rfl
@[simp] theorem ThreadSt.setReg_st (x : ThreadSt) (r : Nat) (v : TWord) : (x.setReg r v).st = x.st := by unfold ThreadSt.setReg; split <;> rfl
@[simp] theorem ThreadSt.setReg_df (x : ThreadSt) (r : Nat) (v : TWord) : (x.setReg r v).df = x.df := by unfold ThreadSt.setReg; split <;> rfl
@[simp] theorem ThreadSt.setReg_pri (x : ThreadSt) (r : Nat) (v : TWord) : (x.setReg r v).pri = x.pri := by unfold ThreadSt.setReg; split <;> rfl
@[simp] theorem ThreadSt.setReg_maxpriv (x : ThreadSt) (r : Nat) (v : TWord) : (x.setReg r v).maxpriv = x.maxpriv := by unfold ThreadSt.setReg; split <;> rfl
@[simp] theorem ThreadSt.setReg_cause (x : ThreadSt) (r : Nat) (v : TWord) : (x.setReg r v).cause = x.cause := by unfold ThreadSt.setReg; split <;> rfl
@[simp] theorem ThreadSt.setReg_entry (x : ThreadSt) (r : Nat) (v : TWord) : (x.setReg r v).entry = x.entry := by unfold ThreadSt.setReg; split <;> rfl
@[simp] theorem ThreadSt.setReg_segt (x : ThreadSt) (r : Nat) (v : TWord) : (x.setReg r v).segt = x.segt := by unfold ThreadSt.setReg; split <;> rfl
@[simp] theorem ThreadSt.setReg_ssegt (x : ThreadSt) (r : Nat) (v : TWord) : (x.setReg r v).ssegt = x.ssegt := by unfold ThreadSt.setReg; split <;> rfl
@[simp] theorem ThreadSt.setReg_sdsp (x : ThreadSt) (r : Nat) (v : TWord) : (x.setReg r v).sdsp = x.sdsp := by unfold ThreadSt.setReg; split <;> rfl
@[simp] theorem ThreadSt.setReg_srtp (x : ThreadSt) (r : Nat) (v : TWord) : (x.setReg r v).srtp = x.srtp := by unfold ThreadSt.setReg; split <;> rfl
@[simp] theorem ThreadSt.setReg_notified (x : ThreadSt) (r : Nat) (v : TWord) : (x.setReg r v).notified = x.notified := by unfold ThreadSt.setReg; split <;> rfl
@[simp] theorem ThreadSt.setReg_held (x : ThreadSt) (r : Nat) (v : TWord) : (x.setReg r v).held = x.held := by unfold ThreadSt.setReg; split <;> rfl
@[simp] theorem ThreadSt.setReg_cmds (x : ThreadSt) (r : Nat) (v : TWord) : (x.setReg r v).cmds = x.cmds := by unfold ThreadSt.setReg; split <;> rfl
@[simp] theorem ThreadSt.setReg_staging (x : ThreadSt) (r : Nat) (v : TWord) : (x.setReg r v).staging = x.staging := by unfold ThreadSt.setReg; split <;> rfl
@[simp] theorem ThreadSt.setReg_handler (x : ThreadSt) (r : Nat) (v : TWord) : (x.setReg r v).handler = x.handler := by unfold ThreadSt.setReg; split <;> rfl

end Sys2Proof.Machine
end

