-- ==== Sys2Proof/Laws/Issue.lean ====
section
/-! SUPPORT. What issuing an instruction does once its thread is ready: the fetch passes, the meaning runs in the issued
state, and nothing waits at the boundary after it. -/

namespace Sys2Proof.Machine

theorem State.modCore_congr (s : State) (c : Nat) {f g : CoreSt → CoreSt} (h : f (s.core c) = g (s.core c)) :
    s.modCore c f = s.modCore c g := by unfold State.modCore; rw [h]

/-- A command answers a next state, whatever it is. -/
theorem runCmd_next (m : M Unit) (s : State) : ∃ t, runCmd m s = .next t := by
  unfold runCmd; rcases runM m s with ⟨_ | _, s'⟩ <;> exact ⟨_, rfl⟩

theorem issue_always_next (t : Tid) (control noCompat : Bool) (body : M Ctl) (s : State) :
    ∃ u, issue t control noCompat body s = .next u := runCmd_next _ _

theorem runCmd_ok {m : M Unit} {s s' : State} (h : runM m s = (.ok (), s')) : runCmd m s = .next s' := by
  unfold runCmd; rw [h]

@[simp] theorem CoreSt.atIssue_dbg (n : Nat) (x : CoreSt) : (x.atIssue n).dbg = x.dbg := rfl
@[simp] theorem CoreSt.atIssue_thr (n : Nat) (x : CoreSt) : (x.atIssue n).thr = x.thr := rfl

/-! ## The issued state -/

theorem State.modThr_def (s : State) (t : Tid) (f : ThreadSt → ThreadSt) :
    s.modThr t f = s.modCore t.core.val (fun c => c.modT t.thr.val f) := rfl

@[simp] theorem State.core_modThr_same (s : State) (t : Tid) (f : ThreadSt → ThreadSt) :
    (s.modThr t f).core t.core.val = (s.core t.core.val).modT t.thr.val f := State.core_modCore_same _ _ _

/-- A change of a core that leaves a thread alone. -/
theorem State.thr_modCore {s : State} {t : Tid} {f : CoreSt → CoreSt}
    (h : (f (s.core t.core.val)).thr = (s.core t.core.val).thr) : (s.modCore t.core.val f).thr t = s.thr t := by
  unfold State.thr CoreSt.t; rw [State.core_modCore_same, h]

@[simp] theorem issued_thr (s : State) (t : Tid) : (s.issued t).thr t = { s.thr t with st := .run } := by
  unfold State.issued; rw [State.thr_modThr_same, State.thr_modCore rfl]

@[simp] theorem issued_core (s : State) (t : Tid) : (s.issued t).core t.core.val =
    CoreSt.modT ((s.core t.core.val).atIssue t.thr.val) t.thr.val (fun x => { x with st := .run }) := by
  unfold State.issued; rw [State.core_modThr_same, State.core_modCore_same]

theorem issued_modThr_id (s : State) (t : Tid) : (s.issued t).modCore t.core.val id = s.issued t := by
  unfold State.issued; simp only [State.modThr_def, State.modCore_modCore, id]

/-- The fetch of a ready thread passes and changes nothing. -/
theorem fetchCheck_hit {s : State} {t : Tid} (h : fetchHits s t = true) :
    runM (fetchCheck t) s = (.ok (), s.modCore t.core.val id) := by
  unfold fetchHits at h
  simp only [] at h
  unfold fetchCheck fetchWord
  split at h
  · cases h
  · rename_i e he
    split at h
    · rename_i g hg
      simp only [Bool.and_eq_true, Bool.not_eq_true', decide_eq_true_eq] at h
      have hl : runM (segCheck t (s.thr t).priv (s.thr t).pc 4 4 false .x 0) s = (.ok (e, ownGa s g), s) := by
        unfold segCheck segLookup
        simp [runM_bind, runM_map, he, hg]
      have hm : s.modCore t.core.val (fun x => icRefetch x (ownGa s g / 64)) = s.modCore t.core.val id :=
        s.modCore_congr _ (by simp [icRefetch, h.2])
      simp only [bind_assoc, runM_get_bind]
      have hr : ¬ (e.k || (decide (ownGa s g < 2 ^ 48) && !(decodeLocal (ownGa s g)).isTaggable)) = true := by
        have h2 := h.1.1.2
        simp only [Bool.or_eq_true, decide_eq_true_eq] at h2
        simp only [h.1.1.1, Bool.false_or, Bool.and_eq_true, decide_eq_true_eq, Bool.not_eq_true', not_and, Bool.not_eq_false]
        intro hl2
        exact h2.resolve_left (by omega)
      rw [runM_bind_ok hl, if_neg hr, bind_assoc, runM_modify_bind, hm]
      simp [h.1.2, runM_bind]
    · cases h

theorem issued_fetchHits {s : State} {t : Tid} (h : fetchHits s t = true) : fetchHits (s.issued t) t = true := by
  unfold fetchHits at h ⊢
  rw [issued_thr, issued_core]
  exact h

/-- With nothing waiting at the boundary and no halt asked for, the boundary changes nothing. -/
theorem settle_clear {s : State} {t : Tid} (hc : (s.thr t).cmds = []) (hh : (s.core t.core.val).dbg.haltReq = false) :
    runM (settle t) s = (.ok (), s.modCore t.core.val id) := by
  unfold settle
  simp only [runM_get_bind]
  have ha : runM (applyCmds t ((s.thr t).cmds.length + 1)) s = (.ok (), s) := by
    unfold applyCmds; simp [hc]
  rw [runM_bind_ok ha, runM_modify, s.modCore_congr _ (g := id) (by simp [settleHalt, hh])]

theorem endStep_clear {s : State} {t : Tid} (h : (s.core t.core.val).dbg.stepping = none) :
    runM (endStep t) s = (.ok (), s) := by
  unfold endStep; simp [h]

theorem ready_iff {s : State} {t : Tid} : ready s t = true ↔ canIssue s t = true ∧
    bpMatch (s.core t.core.val).dbg t.thr.val (s.thr t).pc = false ∧ (s.core t.core.val).dbg.haltReq = false ∧
    (s.core t.core.val).dbg.stepping = none ∧ fetchHits s t = true := by
  simp [ready, and_assoc]

theorem ready_cmds {s : State} {t : Tid} (h : ready s t = true) : (s.thr t).cmds = [] := by
  have := (ready_iff.1 h).1
  simp only [canIssue, Bool.and_eq_true, List.isEmpty_iff] at this
  exact this.1.1.1.2

/-- In the issued state of a ready thread the fetch and the mode checks pass, and the meaning runs. -/
theorem insnBody_ready {s : State} {t : Tid} {control noCompat : Bool} {body : M Ctl} (h : ready s t = true)
    (hc : (control && decide ((s.thr t).lc ≠ 0) && decide ((s.thr t).pc = (s.thr t).le)) = false)
    (hn : (noCompat && (s.thr t).compat) = false) :
    runM (insnBody t control noCompat body) (s.issued t) = runM body (s.issued t) := by
  unfold insnBody
  simp only [runM_get_bind]
  rw [runM_bind_ok (fetchCheck_hit (issued_fetchHits (ready_iff.1 h).2.2.2.2)), issued_modThr_id, issued_thr]
  rw [if_neg (by simpa using hc), if_neg (by simpa using hn)]

/-- Issuing the instruction of a ready thread: its meaning in the issued state, its end, and the boundary. -/
theorem issueM_ready {s : State} {t : Tid} {control noCompat : Bool} {body : M Ctl} (h : ready s t = true)
    (hc : (control && decide ((s.thr t).lc ≠ 0) && decide ((s.thr t).pc = (s.thr t).le)) = false)
    (hn : (noCompat && (s.thr t).compat) = false) :
    runM (issueM t control noCompat body) s =
      runM (do insnEnd t (s.modCore t.core.val (CoreSt.atIssue t.thr.val)) (s.thr t).pc (runM body (s.issued t)); endStep t; settle t)
        (s.modCore t.core.val (CoreSt.atIssue t.thr.val)) := by
  obtain ⟨hi, hb, hh, hs, hf⟩ := ready_iff.1 h
  unfold issueM
  simp only [runM_get_bind, hi, hb, Bool.not_true, Bool.false_and, if_neg Bool.false_ne_true, runM_modify_bind]
  unfold runInsn
  simp only [runM_bind (x := (get : M State)), bind_assoc, runM_get, State.thr_modCore (s := s) (t := t) (f := CoreSt.atIssue t.thr.val) rfl]
  have : (s.modCore t.core.val (CoreSt.atIssue t.thr.val)).modThr t (fun x => { x with st := .run }) = s.issued t := rfl
  rw [this, insnBody_ready h hc hn]

/-- An instruction that ends at the next one: the state its meaning left, with pc advanced. -/
theorem issue_next {s s' : State} {t : Tid} {control noCompat : Bool} {body : M Ctl} (h : ready s t = true)
    (hc : (control && decide ((s.thr t).lc ≠ 0) && decide ((s.thr t).pc = (s.thr t).le)) = false)
    (hn : (noCompat && (s.thr t).compat) = false) (hb : runM body (s.issued t) = (.ok .next, s'))
    (h1 : (s'.thr t).cmds = []) (h2 : (s'.core t.core.val).dbg.haltReq = false)
    (h3 : (s'.core t.core.val).dbg.stepping = none) :
    issue t control noCompat body s = .next (s'.modThr t advance) := by
  apply runCmd_ok
  have adv : ∀ x : ThreadSt, (advance x).cmds = x.cmds := by
    intro x; unfold advance; repeat' split
    all_goals rfl
  rw [issueM_ready h hc hn, hb]
  simp only [insnEnd, runM_set_bind]
  rw [runM_bind_ok (endStep_clear (by simpa using h3)), settle_clear (by simp [adv, h1]) (by simpa using h2)]
  simp [State.modThr_def]

/-- An instruction that goes on elsewhere. -/
theorem issue_jump {s s' : State} {t : Tid} {control noCompat : Bool} {body : M Ctl} {p : Word} (h : ready s t = true)
    (hc : (control && decide ((s.thr t).lc ≠ 0) && decide ((s.thr t).pc = (s.thr t).le)) = false)
    (hn : (noCompat && (s.thr t).compat) = false) (hb : runM body (s.issued t) = (.ok (.jump p), s'))
    (h1 : (s'.thr t).cmds = []) (h2 : (s'.core t.core.val).dbg.haltReq = false)
    (h3 : (s'.core t.core.val).dbg.stepping = none) :
    issue t control noCompat body s = .next (s'.modThr t (fun x => { x with pc := p })) := by
  apply runCmd_ok
  rw [issueM_ready h hc hn, hb]
  simp only [insnEnd, runM_set_bind]
  rw [runM_bind_ok (endStep_clear (by simpa using h3)), settle_clear (by simp [h1]) (by simpa using h2)]
  simp [State.modThr_def]

/-- An instruction that stays held, or waits. -/
theorem issue_hold {s s' : State} {t : Tid} {control noCompat : Bool} {body : M Ctl} {hd : Held} (h : ready s t = true)
    (hc : (control && decide ((s.thr t).lc ≠ 0) && decide ((s.thr t).pc = (s.thr t).le)) = false)
    (hn : (noCompat && (s.thr t).compat) = false) (hb : runM body (s.issued t) = (.ok (.hold hd), s'))
    (h1 : (s'.thr t).cmds = []) (h2 : (s'.core t.core.val).dbg.haltReq = false)
    (h3 : (s'.core t.core.val).dbg.stepping = none) :
    issue t control noCompat body s = .next (s'.modThr t (fun x =>
      { x with held := some hd, st := if hd.isWait then .wait else .run })) := by
  apply runCmd_ok
  rw [issueM_ready h hc hn, hb]
  simp only [insnEnd, h3, Option.isSome_none, Bool.and_false, if_neg Bool.false_ne_true, runM_set_bind]
  rw [runM_bind_ok (endStep_clear (by simpa using h3)), settle_clear (by simp [h1]) (by simpa using h2)]
  simp [State.modThr_def]

/-- An instruction that has moved pc itself. -/
theorem issue_stay {s s' : State} {t : Tid} {control noCompat : Bool} {body : M Ctl} (h : ready s t = true)
    (hc : (control && decide ((s.thr t).lc ≠ 0) && decide ((s.thr t).pc = (s.thr t).le)) = false)
    (hn : (noCompat && (s.thr t).compat) = false) (hb : runM body (s.issued t) = (.ok .stay, s'))
    (h1 : (s'.thr t).cmds = []) (h2 : (s'.core t.core.val).dbg.haltReq = false)
    (h3 : (s'.core t.core.val).dbg.stepping = none) :
    issue t control noCompat body s = .next (s'.modCore t.core.val id) := by
  apply runCmd_ok
  rw [issueM_ready h hc hn, hb]
  simp only [insnEnd, runM_set_bind]
  rw [runM_bind_ok (endStep_clear h3), settle_clear h1 h2]

/-- An instruction of one result: the result goes to rd, everything else stays. -/
theorem regOp_ready {s : State} {t : Tid} {rd : Reg} {f : ThreadSt → Except Stop TWord} {v : TWord}
    (h : ready s t = true) (hf : f { s.thr t with st := .run } = .ok v) : regOp t rd f s = .next (s.wrote t rd v) := by
  have hr := ready_iff.1 h
  unfold regOp
  rw [issue_next h rfl rfl (s' := (s.issued t).setReg t rd.val v) (by simp [hf, runM_bind, runM_map])
    (by simp [State.setReg, ready_cmds h])
    (by simpa [State.setReg] using hr.2.2.1) (by simpa [State.setReg] using hr.2.2.2.1)]
  simp [State.wrote, State.retire, State.setReg]

end Sys2Proof.Machine
end

