-- ==== Sys2Proof/Tests/Slice0.lean ====
section
/-! SUPPORT. Tests: an event of no form that the spec gives changes nothing; small states that meet the hypotheses of every statement; results
taken from the examples and tables of the spec. -/

namespace Sys2Proof.Tests

open Sys2Proof Sys2Proof.Machine Sys2Proof.Claims

set_option maxRecDepth 20000
set_option Elab.async false

/-! ## Small states -/

/-- A cached segment entry: selector, base, LIMIT 0xFFFF, valid, and permission bits 54:49 (R, W, X, T, K, C from 49 on). -/
def ent (sel : Nat) (base : Nat) (perm : Nat) : SegEnt :=
  { table := 0, sel := sel, base := BitVec.ofNat 64 base, attr := BitVec.ofNat 64 (0xFFFF + 2 ^ 48 + perm * 2 ^ 49) }

/-- Selectors 1 code, 2 cached tagged data, 3 cached data, 4 uncached data, all in HBM. -/
def segs4 : List SegEnt := [ent 1 0 0x05, ent 2 0x10000 0x2B, ent 3 0x20000 0x23, ent 4 0x30000 0x03]

/-- A running thread at offset 0x100 of the code segment, with some registers. -/
def thrAt (regs : Table TWord) : ThreadSt := { st := .run, pc := mkPtr 1 0x100, regs := regs }

/-- A valid cache line of 64 equal bytes. -/
def lineAt (line : Nat) (b : Byte) : DLine := { valid := true, line := line, bytes := List.replicate 64 b }

/-- Core 5 with thread `n` as given; lines 0x400 and 0x800 are cached; instruction line 4 is cached. -/
def core5 (n : Nat) (x : ThreadSt) : CoreSt :=
  { thr := [(n, x)], segs := segs4, icache := [(4, List.replicate 64 0)],
    dc := { ways := [(0, lineAt 0x400 1), (1, lineAt 0x800 2)] }, wins := [(n, { base := 0, bound := 16 })] }

/-- The reset machine with thread `n` of core 5 as given. -/
def st5 (n : Nat) (x : ThreadSt) : State := { State.reset with cores := [(5, core5 n x)] }

/-- The machine whose port `p` has used slot 100 before. -/
def usedPort (p : Nat) (s : State) : State := s.modPort p (fun x => { x with slots := [(100, { gen := true })] })

def t51 : Tid := ⟨5, 1⟩
def t50 : Tid := ⟨5, 0⟩

/-- The command's answer is this next state. -/
def goesTo (o : Host.Outcome State Fault Refusal) (s : State) : Bool :=
  match o with
  | .next u => decide (u = s)
  | _ => false

/-- The command's answer is a next state with this property. -/
def goesWith (o : Host.Outcome State Fault Refusal) (p : State → Bool) : Bool :=
  match o with
  | .next u => p u
  | _ => false

/-! ## Scalar instructions -/

/-- Two INT operands in w2 and w3, a pointer in w4, F64 1.0 and 2.0 in w5 and w6. -/
def regs1 : Table TWord :=
  [(2, wInt 10), (3, wInt 3), (4, addrWord 2 0x40), (5, wF64 0x3FF0000000000000), (6, wF64 0x4000000000000000), (7, ⟨.code, 0x0200000000000010⟩)]

def s1 : State := st5 1 (thrAt regs1)

theorem test_ready : ready s1 t51 = true ∧ readyFlow s1 t51 = true := by decide +kernel

theorem test_integer_witness : ready s1 t51 = true ∧ s1.reg t51 2 = wInt 10 ∧ s1.reg t51 3 = wInt 3 := by decide +kernel

/-- Operands of every kind stand in registers of a ready thread: INT, ADDR, F64, CODE. -/
theorem test_operand_witness : s1.reg t51 4 = addrWord 2 0x40 ∧ s1.reg t51 5 = wF64 0x3FF0000000000000 ∧ s1.reg t51 6 = wF64 0x4000000000000000 ∧
    (s1.reg t51 7).tag ≠ .empty ∧ s1.reg t51 3 = wInt (BitVec.ofNat 64 Tag.addr.num - 1) := by decide +kernel

theorem test_sub_wraps : goesTo (exec (.sub t51 8 3 2) s1) (s1.wrote t51 8 (wInt (BitVec.ofInt 64 (-7)))) = true := by decide +kernel
theorem test_div_by_zero : goesTo (exec (.div t51 8 2 9) (st5 1 (thrAt (tset (fun _ => {}) regs1 9 (wInt 0))))) ((st5 1 (thrAt (tset (fun _ => {}) regs1 9 (wInt 0)))).wrote t51 8
    (wInt (BitVec.allOnes 64))) = true := by decide +kernel
/-- 1.0 + 2.0 is 3.0. -/
theorem test_f_add : goesTo (exec (.fAdd t51 8 5 6) s1) (s1.wrote t51 8 (wF64 0x4008000000000000)) = true := by decide +kernel
theorem test_pointer_add : goesTo (exec (.add t51 8 4 2) s1) (s1.wrote t51 8 (addrWord 2 0x4A)) = true := by decide +kernel
theorem test_lih : goesTo (exec (.lih t51 3 1) s1) (s1.wrote t51 3 (wInt 0x180001)) = true := by decide +kernel
theorem test_pair_witness : ready s1 t51 = true ∧ (2 : Reg) ≠ 3 ∧ s1.reg t51 2 = wInt 10 ∧ s1.reg t51 3 = wInt 3 := by decide +kernel
/-- Both moves read first: the registers change places. -/
theorem test_pair_swaps : goesTo (exec (.insnPair t51 (.mov 2 3) (.mov 3 2)) s1)
    (s1.retire t51 (fun z => (z.setReg 2 (wInt 3)).setReg 3 (wInt 10))) = true := by decide +kernel
theorem test_tag_set_witness : mayCreate (s1.thr t51).priv .f64 = true ∧ formOk .f64 10 = true := by decide +kernel

/-! ## Events whose operands are of no form that the spec gives -/

theorem test_wf_accesses :
    [Instr.wf (.remoteAccess .host 5 (.read 0 0)), Instr.wf (.remoteAccess .host 5 (.write 0 [1] [])), Instr.wf (.sliceRequest .host 5 (.read 16 32)),
      Instr.wf (.sliceRequest .host 5 (.read 0x1F0 32)), Instr.wf (.meshMulticastWrite .host .row 0 0 [] []), Instr.wf (.latigoMulticast (.peer 3) .row 0 [] []),
      Instr.wf (.registerWrite .host 2 .b4 0), Instr.wf (.registerWrite .host 0x4000000 .b4 0)].all (· = false) = true ∧
    [Instr.wf (.remoteAccess .host 5 (.read 0 1)), Instr.wf (.sliceRequest .host 5 (.read 0x1E0 32)), Instr.wf (.skvBufferAccess .host 5 (.read 0xFFFFF 2)),
      Instr.wf (.edgeWindowWrite .host false 0xFFFFF [1, 2] [true, true]), Instr.wf (.registerWrite .host 4 .b4 0),
      Instr.wf (.registerWrite .cp 0x50000 .b4 0)].all (· = true) = true := by decide +kernel
theorem test_wf_lengths :
    [Instr.wf (.pacerCalibration []), Instr.wf (.memrd 32 false false), Instr.wf (.memwr 0 [1]), Instr.wf (.memwrptl 0 (List.replicate 64 0) []),
      Instr.wf (.bar2Write 0xFFFFFFF [1, 2]), Instr.wf (.testUnitComplete 1 7 0), Instr.wf (.mailboxSend .toCp (List.replicate 257 0)),
      Instr.wf (.telemetryGather [] [] 0), Instr.wf (.hostLinkTrained 0 16 6), Instr.wf (.hostLinkTrained 1 3 6)].all (· = false) = true ∧
    Instr.wf (.hostLinkTrained 1 16 6) = true ∧ Instr.wf (.memrd 64 false false) = true := by decide +kernel
/-- An event of no form leaves the state as it is. -/
theorem test_ill_formed_is_no_event : goesTo (exec (.remoteAccess .host 5 (.read 0 0)) State.reset) State.reset = true ∧
    goesTo (exec (.memwr 0 [1]) State.reset) State.reset = true ∧ goesTo (exec (.pacerCalibration []) State.reset) State.reset = true ∧
    goesTo (exec (.hostLinkTrained 0 16 6) State.reset) State.reset = true := by decide +kernel
/-! ## Witnesses: states that meet the hypotheses of the statements -/

/-- Thread 0 ready in its primary bank: w2 EMPTY, w3 F64, w4 INT; a shadow bank with w5 INT 9. -/
def sTrap : State := (st5 0 { thrAt [(3, wF64 1), (4, wInt 7)] with maxpriv := true, priv := true, entry := 0 }).modCore 5 (fun x =>
  { x with excvec := mkPtr 1 0x200, shadow := { regs := [(5, wInt 9)] } })

theorem test_fault_witness : ready sTrap t50 = true ∧ primary sTrap 5 = true ∧
    intPairCheck (sTrap.reg t50 2) (sTrap.reg t50 4) = some (1, 2) ∧ intPairCheck (sTrap.reg t50 4) (sTrap.reg t50 2) = some (2, 2) ∧
    intPairCheck (sTrap.reg t50 3) (sTrap.reg t50 4) = some (1, 3) ∧ intPairCheck (sTrap.reg t50 4) (sTrap.reg t50 3) = some (2, 3) := by
  decide +kernel

/-- R125: the faulting add of an EMPTY w2 puts 0x802 into shadow w1 and runs at CORE_EXCVEC. -/
theorem test_fault_shadow : goesWith (exec (.and t50 6 2 4) sTrap) (fun u =>
    decide (u.reg t50 1 = wInt 0x802) && decide ((u.thr t50).pc = mkPtr 1 0x200) && decide (u.reg t50 5 = wInt 9)
    && decide ((u.core 5).inShadow = true)) = true := by decide +kernel

/-- Thread 0 in its shadow bank with w30 CODE and w31 STAT. -/
def sShadow : State := (st5 0 { thrAt [(30, ⟨.code, mkCode (mkPtr 1 0x140) true⟩), (31, ⟨.stat, 2⟩)] with priv := true }).modCore 5 (fun x =>
  { x with inShadow := true, shadow := { regs := [(7, wInt 70)] } })

theorem test_eret_witness : readyFlow sShadow t50 = true ∧ (sShadow.core 5).inShadow = true ∧ (sShadow.core 5).gns = 0 ∧
    (sShadow.thr t50).df = false ∧ (sShadow.thr t50).priv = true ∧ sShadow.reg t50 30 = ⟨.code, mkCode (mkPtr 1 0x140) true⟩ ∧
    sShadow.reg t50 31 = ⟨.stat, 2⟩ := by decide +kernel

theorem test_eret_returns : goesWith (exec (.eret t50) sShadow) (fun u =>
    decide ((u.thr t50).pc = mkPtr 1 0x140) && decide (u.reg t50 7 = wInt 70) && decide ((u.core 5).inShadow = false)) = true := by decide +kernel

/-- Thread 1 in its double-fault handler. -/
def sDf : State := st5 1 { thrAt [] with df := true }

theorem test_third_fault_witness : ready sDf t51 = true ∧ (sDf.thr t51).df = true ∧ (sDf.reg t51 2).tag = .empty ∧
    sDf.cp.notices.length < 256 := by decide +kernel

theorem test_third_fault_fences : goesWith (exec (.and t51 3 2 4) sDf) (fun u =>
    decide ((u.core 5).fenced = true) && decide ((u.core 5).epoch = 2) && decide ((u.core 5).resetCause = 0x10902)) = true := by decide +kernel
/-! ## Memory -/

/-- A row's worth of scratchpad bytes and two cache lines whose tagged words are INTs. -/
def tagBytes : List Byte := (List.range 64).map (fun j => if j % 16 = 8 then 1#8 else if 8 < j % 16 then 0#8 else BitVec.ofNat 8 j)

def regs3 : Table TWord :=
  [(2, addrWord 3 0x8), (3, addrWord 2 0x10), (4, addrWord 4 0x20), (5, wInt 0x8877665544332211), (6, wInt 0x208), (7, wInt 1)]

/-- Thread 1 of core 5 with pointers to cached data (w2, w3), uncached data (w4) and scratchpad (w6). -/
def s3 : State :=
  let x : ThreadSt := { thrAt regs3 with dsp := (addrWord 2 0x20).data, rtp := (addrWord 2 0x30).data }
  let line := fun (n : Nat) => { lineAt n 0 with age := 2, bytes := tagBytes }
  let data : DLine := { line 0x800 with bytes := (List.range 64).map (fun j => BitVec.ofNat 8 (0xF0 + j % 16)) }
  let c : CoreSt := { core5 1 x with
    dc := { ways := [(0, line 0x400), (1, data)] }
    spad := { mem := { bytes := [(0x208, 0xAA), (0x209, 0xBB)] } } }
  { State.reset with cores := [(5, c)], slices := [(48, { clkOk := true, ready := true })] }

theorem test_spad_witness : ready s3 t51 = true ∧ addrOf s3 t51 6 false 4 (.post 1) = some (0x208, some (6, 0x20C)) ∧
    loadLegal 8 6 (.post 1) = .ok () ∧ spadHit s3 t51 0x208 4 = some 0x208 ∧
    storeSource (s3.reg t51 5) = .ok 0x8877665544332211 := by
  repeat' apply And.intro
  all_goals first | decide +kernel | rfl

/-- ls of four bytes at 0x208, little-endian and zero-extended, with post-increment (R10, R78, R91). -/
theorem test_ls : goesWith (exec (.ls t51 8 6 .b4 (.post 1)) s3) (fun u =>
    decide (u.reg t51 8 = wInt 0xBBAA) && decide (u.reg t51 6 = wInt 0x20C)) = true := by decide +kernel

theorem test_load_witness : loadLegal 8 2 (.disp 0) = .ok () ∧
    addrOf s3 t51 2 true 4 (.disp 0) = some ((addrWord 3 0x8).data, none) ∧ cacheHit s3 t51 (addrWord 3 0x8).data 4 false false = some (0x20008, 1) ∧
    addrOf s3 t51 2 true 8 (.disp 0) = some ((addrWord 3 0x8).data, none) ∧ cacheHit s3 t51 (addrWord 3 0x8).data 8 false false = some (0x20008, 1) ∧
    addrOf s3 t51 3 true 16 (.disp 0) = some ((addrWord 2 0x10).data, none) ∧
    cacheHit s3 t51 (addrWord 2 0x10).data 16 true false = some (0x10010, 0) ∧
    bytesWord (lineBytes s3 t51 0x10010 0 16) = some (wInt 0x1716151413121110) := by
  repeat' apply And.intro
  all_goals first | decide +kernel | rfl

theorem test_store_witness : storeSource (s3.reg t51 5) = .ok 0x8877665544332211 ∧
    cacheHit s3 t51 (addrWord 3 0x8).data 4 false true = some (0x20008, 1) ∧
    cacheHit s3 t51 (addrWord 2 0x10).data 16 true true = some (0x10010, 0) ∧ (s3.reg t51 5).tag ≠ .empty ∧
    cacheHit s3 t51 (pAdd (s3.thr t51).dsp (-16)) 16 true true = some (0x10010, 0) ∧
    cacheHit s3 t51 (s3.thr t51).dsp 16 true false = some (0x10020, 0) ∧
    bytesWord (lineBytes s3 t51 0x10020 0 16) = some (wInt 0x2726252423222120) := by
  repeat' apply And.intro
  all_goals first | decide +kernel | rfl

/-- ldx sign-extends, little-endian (R10, R78). -/
theorem test_ldx : goesWith (exec (.ldx t51 9 2 .b4 (.disp 0)) s3) (fun u => decide (u.reg t51 9 = wInt 0xFFFFFFFFFBFAF9F8)) = true := by
  decide +kernel

def b5 : List Byte := leBytes 8 0x8877665544332211

theorem test_past_cache_witness :
    addrOf s3 t51 4 true 8 (.disp 1) = some ((addrWord 4 0x28).data, none) ∧
    (pastCache s3 t51 (addrWord 4 0x28).data 8 none).any (fun p => !cacheable p.1 p.2.1 && decide (p.2.1 = 0x30028)) = true ∧
    (pastCache s3 t51 (addrWord 4 0x28).data 8 (some b5)).isSome = true ∧
    cacheClean s3 t51 = true ∧ (s3.core 5).dc.wbs = [] ∧ [Scope.core, .cluster, .die, .system].all (fun sc => !writesPending (s3.core 5) 5 1 sc) = true := by
  decide +kernel

/-- The same thread with an uncached access outstanding. -/
def s3held (w : Option (List Byte)) (fin : AccFin) : State :=
  s3.modThr t51 (fun x => { x with held := some (.acc (Claims.outstanding s3 (addrWord 4 0x28).data 0x30028 8 w false fin 0)) })

/-- Global address 0x30028 is a sound slice's byte, under the map of reset. -/
theorem test_hbm_witness : hbmAt s3 s3.smap 0x30028 8 48 0x28 ∧ hbmAt (s3held none .release) s3.smap 0x30028 8 48 0x28 := by
  refine ⟨⟨?_, ?_, ?_, ?_, ?_, ?_, ?_, ?_, ?_⟩, ⟨?_, ?_, ?_, ?_, ?_, ?_, ?_, ?_, ?_⟩⟩
  all_goals decide +kernel

theorem test_response_witness :
    (ended (Claims.outstanding s3 (addrWord 4 0x28).data 0x30028 8 none false (.load 8 .zero none) 0) (ownView s3 t51 0x30028 [1, 0, 0, 0, 0, 0, 0, 0]) (s3.thr t51)).any
      (fun x => decide (tget (fun _ => {}) x.regs 8 = wInt 1) && decide (x.pc = mkPtr 1 0x104)) = true ∧
    (ended (Claims.outstanding s3 (addrWord 4 0x28).data 0x30028 8 (some b5) false (.store none) 0) [] (s3.thr t51)).isSome = true ∧
    recorded s3 0x30028 5 0 ((s3.port 5).slot 0).gen (.write 0x30028 b5 (allOn b5)) = none ∧ wpMatch (s3.core 5).dbg 1 0x30028 8 true = false := by
  decide +kernel

/-- The response of a store past the cache: the slice holds the bytes, little-endian, and the thread goes on (R10, R381). -/
theorem test_response_stores : goesWith (exec (.globalResponse t51 ⟨.ok, []⟩) (s3held (some b5) (.store none))) (fun u =>
    decide (readBytes (u.slice 48).mem.bytes 0x28 8 = b5) && decide ((u.thr t51).pc = mkPtr 1 0x104) && decide ((u.thr t51).held = none)) = true := by
  decide +kernel

/-- An acquire at die scope of memory's 0 empties the cache (R299). -/
theorem test_acquire_completes : goesWith (exec (.globalResponse t51 ⟨.ok, []⟩) (s3held none (.acquire 8 .die))) (fun u =>
    decide (u.reg t51 8 = wInt 0) && decide ((u.core 5).dc.ways = []) && decide ((u.thr t51).pc = mkPtr 1 0x104)) = true := by decide +kernel

/-- s3 with a dirty byte in line 0x800, which w2 points into. -/
def s3dirty : State := s3.modDc 5 (fun d => dcPut d 1 { dcGet d 1 with dirty := 1 })

theorem test_drain_witness : ready s3dirty t51 = true ∧ cacheClean s3dirty t51 = false ∧ dcDirty (s3dirty.core 5).dc = [1] ∧
    (dcGet (s3dirty.core 5).dc 1).parity = false ∧ twf lineDef (s3dirty.core 5).dc.ways = true ∧
    (dcDirty (s3dirty.core 5).dc).filter (fun k => decide ((dcGet (s3dirty.core 5).dc k).line = 0x20008 / 64)) = [1] ∧
    (segHit s3dirty t51 (addrWord 3 0x8).data 8 false .r).isSome = true := by decide +kernel

/-- The write-back that a release fence waits for, its request in slot 0. -/
def s3fence : State :=
  (s3.modThr t51 (fun x => { x with held := some (.drain (.fenceRel t51 .system) none) })).modDc 5 (fun d =>
    { d with wbs := [{ line := 0xC00, bytes := List.replicate 64 3, mask := 5, why := .drain 1, slot := 0 }] })

/-- Its completion writes the bytes of the mask and lets the fence complete (R297, R298). -/
theorem test_fence_drains : goesWith (exec (.dcacheWritebackComplete 5 0 ⟨.ok, []⟩) s3fence) (fun u =>
    decide ((u.core 5).dc.wbs = []) && decide ((u.thr t51).pc = mkPtr 1 0x104) && decide (readBytes (u.slice 48).mem.bytes 0 4 = [3, 0, 3, 0])) = true := by
  decide +kernel

/-- Thread 0 with a scratchpad pointer past its window. -/
def s3trap : State := st5 0 (thrAt [(6, wInt 0x2000), (5, wInt 1)])

theorem test_spad_range_witness : ready s3trap t50 = true ∧ primary s3trap 5 = true ∧ s3trap.reg t50 6 = wInt 0x2000 ∧
    ((s3trap.core 5).win 0).bound ≤ (0x2000#64).toNat / 512 ∧ (s3trap.reg t50 5).tag = .int := by decide +kernel
/-! ## Control flow -/

/-- Thread 1 in Perica-compatible mode with a link register. -/
def s4c : State := s3.modThr t51 (fun x => { x with compat := true, lnk := ⟨.code, mkCode (mkPtr 1 0x40) false⟩ })

/-- Thread 1 whose return-stack top is a CODE word in the cache. -/
def s4r : State := (s3.modDc 5 (fun d => dcStore s3.smap d 0 0x10030 (wordBytes ⟨.code, mkCode (mkPtr 1 0x40) true⟩)))

theorem test_control_witness : readyFlow s3 t51 = true ∧ (s3.thr t51).compat = false ∧ s3.reg t51 3 = wAddr (addrWord 2 0x10).data ∧
    readyFlow s4c t51 = true ∧ (s4c.thr t51).compat = true ∧ (s4c.thr t51).lnk.tag = .code ∧
    cacheHit s3 t51 (pAdd (s3.thr t51).rtp (-16)) 16 true true = some (0x10020, 0) ∧
    cacheHit s4r t51 (s4r.thr t51).rtp 16 true false = some (0x10030, 0) ∧ readyFlow s4r t51 = true ∧
    bytesWord (lineBytes s4r t51 0x10030 0 16) = some ⟨.code, mkCode (mkPtr 1 0x40) true⟩ := by decide +kernel

theorem test_branch_witness : (s3.reg t51 6).tag ≠ .empty ∧ (s3.reg t51 7).tag ≠ .empty ∧ s3.reg t51 6 = wInt 0x208 ∧
    s3.reg t51 7 = wInt 1 := by decide +kernel

/-- ret to compatible code (R100, R101, R103). -/
theorem test_ret : goesWith (exec (.ret t51) s4r) (fun u => decide ((u.thr t51).pc = mkPtr 1 0x40) && decide ((u.thr t51).compat = true)) = true := by
  decide +kernel

/-- A thread at the end of a loop body with two passes left, and one with one. -/
def s4l (n : Word) : State := st5 1 { thrAt [(7, wInt 3)] with lc := n, ls := mkPtr 1 0xF0, le := mkPtr 1 0x100 }

theorem test_loop_witness : ready (s4l 2) t51 = true ∧ ((s4l 2).thr t51).pc = ((s4l 2).thr t51).le ∧ (1 : Word) < ((s4l 2).thr t51).lc ∧
    ready (s4l 1) t51 = true ∧ ((s4l 1).thr t51).lc = 1 ∧ (s3.thr t51).lc = 0 ∧ (s3.thr t51).compat = false ∧
    s3.reg t51 7 = wInt 1 ∧ s3.reg t51 0 = wInt 0 := by decide +kernel

/-- The example of R97: at the end of the body with lc 2 the next pass starts with lc 1. -/
theorem test_loop_end : goesWith (exec (.scalarNop t51) (s4l 2)) (fun u =>
    decide ((u.thr t51).lc = 1) && decide ((u.thr t51).pc = mkPtr 1 0xF0)) = true := by decide +kernel

/-- A supervisor thread with a CODE word, a SEG word and numbers. -/
def s4s : State := st5 1 { thrAt [(2, ⟨.code, mkCode (mkPtr 1 8) false⟩), (3, ⟨.seg, 3⟩), (4, wInt 5), (5, addrWord 2 0x40)] with priv := true, lc := 0 }

theorem test_special_witness : ready s4s t51 = true ∧ (s4s.thr t51).compat = false ∧ (s4s.thr t51).priv = true ∧
    s4s.reg t51 2 = ⟨.code, mkCode (mkPtr 1 8) false⟩ ∧ s4s.reg t51 4 = wInt 5 ∧ s4s.reg t51 5 = wAddr (addrWord 2 0x40).data := by decide +kernel

/-- The table of supervisor level is the same here, so the cached entries serve. -/
theorem test_segment_witness : s4s.reg t51 3 = ⟨.seg, (3#8).zeroExtend 64⟩ ∧
    (s4s.core 5).segs.find? (fun e => decide (e.table = segTable (s4s.thr t51) (s4s.thr t51).priv) && decide (e.sel = (3#8).toNat)) = some (ent 3 0x20000 0x23) ∧
    (ent 3 0x20000 0x23).ok = true := by decide +kernel

/-- A gate table at 0x40000 whose gate 0 leads to offset 0x80 of selector 1, and a supervisor return stack in a cached line. -/
def s4g : State :=
  let gate : List Byte := leBytes 8 (0x01 * 2 ^ 56 + 2 ^ 51 + 0x80)
  let line := fun (n : Nat) => { lineAt n 0 with bytes := tagBytes }
  let s := s3.modCore 5 (fun x => { x with gateCount := 1, gateBase := 0x40000, dc := { ways := [(0, line 0x400), (1, line 0x800), (8, line 0x401), (16, line 0x402)] } })
  let s := s.modThr t51 (fun x => { x with srtp := (addrWord 2 0xC0).data, sdsp := (addrWord 2 0x20).data })
  usedPort 5 { s with slices := [(64, { clkOk := true, ready := true, mem := { bytes := (List.range 8).map (fun i => (i, lget 0 gate i)) } })] }

/-- The cached words of the nine frame stores: global address and way. -/
def hits4 (f : Word) (p : Perm) (s : State) : Bool :=
  (List.range 9).all (fun i => (tagHit s t51 (pAdd f (16 * i)) p).isSome)

theorem test_gate_witness : readyFlow s4g t51 = true ∧ t51.thr ≠ 0 ∧ (0#14).toNat < (s4g.core 5).gateCount ∧ (s4g.thr t51).priv = false ∧
    (match (sendReq (s4g.issued t51) 5 (threadClass s4g t51) (.read 0x40000 32)).1 with | .slot n => n == 0 | _ => false) = true ∧
    hits4 (pAdd (codePc (s4g.thr t51).srtp) (-144)) .w s4g = true ∧
    bitsOf (leNat (slice (ownView s4g t51 0x40000 (readBytes (s4g.slice 64).mem.bytes 0 32)) 0 8)) 55 48 = 8 ∧
    leNat (slice (ownView s4g t51 0x40000 (readBytes (s4g.slice 64).mem.bytes 0 32)) 24 8) = 0 := by
  decide +kernel
theorem test_gate_memory_witness : hbmAt s4g s4g.smap 0x40000 32 64 0 := by
  refine ⟨?_, ?_, ?_, ?_, ?_, ?_, ?_, ?_, ?_⟩ <;> decide +kernel
/-- Arguments are judged by their tags and their segments' permissions (R118). -/
theorem test_gate_arguments : argOk s4g t51 0x0612 (addrWord 2 0) = true ∧ argOk s4g t51 0x0612 (wInt 1) = true ∧ argOk s4g t51 0x1010 (addrWord 2 0) = false := by
  decide +kernel

/-- The gate runs at its target with the frame 144 bytes below THR_SRTP (R121). -/
theorem test_gate : goesWith (exec (.gate t51 0) s4g) (fun u =>
    decide ((u.thr t51).pc = mkPtr 1 0x80) && decide ((u.thr t51).rtp = mkPtr 2 0x30) && decide ((u.thr t51).priv = true)) = true := by decide +kernel
/-! ## Threads, events, messages, barriers -/

/-- Thread 1 in a state, at a boundary. -/
def s5 (st : ThrSt) : State := st5 1 { thrAt [(2, wInt 3)] with st := st, entry := mkCode (mkPtr 1 0x40) true, sdsp := mkPtr 2 0x80 }

theorem test_thread_command_witness : takesCommand (s5 .stopped) .cp t51 = true ∧ ((s5 .stopped).thr t51).st = .stopped ∧
    takesCommand (s5 .run) .cp t51 = true ∧ ((s5 .run).thr t51).st ≠ .stopped := by decide +kernel

theorem test_start : goesWith (exec (.start .cp t51) (s5 .stopped)) (fun u =>
    decide ((u.thr t51).st = .run) && decide ((u.thr t51).pc = mkPtr 1 0x40) && decide ((u.thr t51).compat = true)
    && decide ((u.thr t51).dsp = mkPtr 2 0x80) && decide (u.reg t51 2 = {})) = true := by decide +kernel

theorem test_thread_refused_witness : coreWriteOk (s5 .run) (.peer 3) 5 (thrCtlOff t51) = .nowin ∧
    coreWriteOk (sTrap) (.thread t50) 5 (thrCtlOff t50) = .ok ∧ agentCore (.thread t50) = some t50.core.val ∧ t50.thr = 0 := by decide +kernel

/-- Core 5 with thread 0 running, thread 2 FAULTED with its frame at 0x10040, and message queues off. -/
def s5n (dl : Option Nat) (faulted : Bool) : State :=
  let x : ThreadSt := { st := if faulted then .faulted else .stopped, rtp := (addrWord 2 0x40).data, cause := 0x802 }
  (sTrap.modCore 5 (fun c => { c with thr := c.thr ++ [(2, x)], dlPend := dl }))

/-- Thread 0's queue 3 with one record in its ring. -/
def qOne (thr : Fin 8) (bind : Bool) : QueueSt :=
  { base := 8, opened := true, thr := thr, bind := bind, tail := 2, recs := [(2, false)], handler := mkCode (mkPtr 1 0x180) true }

def s5q (n : Nat) (x : ThreadSt) (thr : Fin 8) (bind : Bool) : State := (st5 n x).modCore 5 (fun c => { c with queues := [(3, qOne thr bind)] })

theorem test_notice_witness : mayAccept (s5n (some 4) false) 5 = true ∧ ((s5n (some 4) false).core 5).dlPend = some 4 ∧
    mayAccept (s5n none true) 5 = true ∧ ((s5n none true).core 5).dlPend = none ∧ faultedThread ((s5n none true).core 5) = some 2 ∧
    ((s5n none true).core 5).segs.find? (fun e => decide (e.table = (((s5n none true).core 5).t 2).ssegt.toNat) &&
      decide (e.sel = pSel (((s5n none true).core 5).t 2).rtp)) = some (ent 2 0x10000 0x2B) ∧ segGa (ent 2 0x10000 0x2B) 0x40 = some 0x10040 := by
  decide +kernel

def s5d : State := s5q 0 (thrAt []) 0 true

theorem test_dispatch_witness : mayAccept s5d 5 = true ∧ (s5d.core 5).dlPend = none ∧ faultedThread (s5d.core 5) = none ∧
    nextDispatch (s5d.core 5) 0 = some 3 ∧ ((s5d.core 5).q 3).scope = 0 ∧ (s5d.core 5).dbg.tqmask = 0 := by decide +kernel

/-- Thread 1 waits for line 4, which nothing outside the core drives; thread 0 does not run, or waits too. -/
def s5w (evt : BitVec 16) : State := (st5 1 { thrAt [(2, wInt 16)] with st := .wait, held := some (.wait (.evWait t51 3 2)) }).modCore 5 (fun x =>
  { x with evt := evt })
def s5w0 : State := s5w 0 |>.modThr t50 (fun x => { x with st := .wait, regs := [(2, wInt 16)], held := some (.wait (.evWait t50 3 2)) })

/-- The same after 100 ticks, the command processor running. -/
def s5ticks (s : State) : State := { s.modCore 5 (fun x => { x with dlTicks := 100 }) with host := { s.host with ready := true } }

theorem test_deadlock_witness : coreRuns s5w0 5 = true ∧ deadlocked s5w0 5 = true ∧ (s5w0.core 5).deadlock = false ∧ mayAccept s5w0 5 = true ∧
    coreRuns (s5w 0) 5 = true ∧ deadlocked (s5w 0) 5 = true ∧ mayAccept (s5w 0) 5 = false ∧ ((s5w 0).core 5).policyStop = false ∧
    (s5w 0).cp.notices.length < 256 ∧ (s5w0.core 5).dlTicks < 100 := by decide +kernel

theorem test_deadlock_ticks_witness : ((s5ticks s5w0).core 5).dlTicks = 100 ∧ mayAccept (s5ticks s5w0) 5 = true ∧ deadlocked (s5ticks s5w0) 5 = true ∧
    coreRuns (s5ticks s5w0) 5 = true ∧ ((s5ticks s5w0).core 5).deadlock = false ∧ mayAccept (s5ticks (s5w 0)) 5 = false ∧
    deadlocked (s5ticks (s5w 0)) 5 = true ∧ portFree (s5ticks (s5w 0)) = true := by decide +kernel

/-- With no command waiting a tick counts towards R132's 100. -/
theorem test_deadlock_counts : goesWith (step s5w0) (fun u => decide ((u.core 5).dlTicks = 1) && decide (u.mgmt.time = 10)) = true := by decide +kernel

theorem test_wait_witness : waiting (s5w 0x30) t51 (.evWait t51 3 2) = true ∧ (s5w 0x30).reg t51 2 = wInt 16 ∧
    ((s5w 0x30).core 5).evt &&& (16#64).truncate 16 ≠ 0 ∧ ((s5w 0x30).core 5).evtAcq &&& (16#64).truncate 16 = 0 ∧
    evYields ((s5w 0x30).core 5) 1 ((16#64).truncate 16) true = false := by decide +kernel

theorem test_wait_ends : goesWith (exec (.blockingWaitComplete t51) (s5w 0x30)) (fun u =>
    decide (u.reg t51 3 = wInt 0x10) && decide ((u.core 5).evt = 0x20) && decide ((u.thr t51).pc = mkPtr 1 0x104)) = true := by decide +kernel

/-- Thread 1 ready with an event mask, staged bytes and a handle to queue 3 of core 6, epoch 1. -/
def hndl6 : Word := 0x0100000000000000 ||| BitVec.ofNat 64 (6 * 2 ^ 36 + 3 * 2 ^ 16 + 1)
def s6 (evt : BitVec 16) : State :=
  let x : ThreadSt := { thrAt [(2, wInt 0x30), (3, ⟨.hndl, hndl6⟩), (4, wInt 0x0001000000010000), (5, wInt 0x200), (6, wInt 32)] with staging := [1, 2] }
  let c6 : CoreSt := { queues := [(3, { base := 4, scope := 2, opened := true })] }
  { (st5 1 x).modCore 5 (fun x => { x with evt := evt }) with cores := ((st5 1 x).modCore 5 (fun x => { x with evt := evt })).cores ++ [(6, c6)] }

theorem test_event_witness : ready (s6 0x10) t51 = true ∧ (s6 0x10).reg t51 2 = wInt ((0x30#16).zeroExtend 64) ∧ evFree (s6 0x10) t51 0x30 = true ∧
    ((s6 0x10).core 5).evt &&& 0x30 ≠ 0 ∧ ready (s6 0) t51 = true ∧ ((s6 0).core 5).evt &&& 0x30 = 0 ∧ evYields ((s6 0).core 5) 1 0x30 false = false := by
  decide +kernel

theorem test_staging_witness : (s6 0).reg t51 5 = wInt 0x200 ∧ (s6 0).reg t51 6 = wInt 32 ∧ ((s6 0).thr t51).staging.length + 32 ≤ 4096 ∧
    spadClean ((s6 0).core 5) = true ∧ mustWait ((s6 0).core 5) 5 1 [.spad 0x200 32] = false := by decide +kernel

theorem test_staging_check : spadCheck ((s6 0).core 5) (((s6 0).core 5).win 1) 0x200 1 1 0 = .ok 0x200 := rfl

theorem test_commit_witness : (s6 0).reg t51 3 = ⟨.hndl, hndl6⟩ ∧ (s6 0).reg t51 4 = wInt 0x0001000000010000 ∧
    (commitGoes (s6 0) t51 hndl6 0x0001000000010000 1 .blocking).isSome = true ∧
    (commitGoes (s6 0) t51 hndl6 0x0001000000010000 1 .nonblocking).isSome = true ∧
    (commitGoes (s6 0) t51 hndl6 0x0001000000010000 1 .posted).isSome = true ∧ postedOut (s6 0) 5 1 < 4 := by decide +kernel

/-- A message of thread 1 of core 5 to queue 3 of core 6, in flight. -/
def msg6 (status : Option Nat) (form : Form) (parked : Bool) : Msg :=
  { id := 1, sender := .thread 0 5 1, target := .queue none 6 3 1, hdr := 0x0001000000010000, payload := List.replicate 32 7, cls := 1,
    form := form, status := status, slot := 0, parked := parked }

def s6m (m : Msg) : State := { s6 0 with msgs := [m] }

def s6h : State := (s6m (msg6 (some 0) .blocking false)).modThr t51 (fun x => { x with held := some (.commit 1 (.mqCommitBlocking t51 8 3 4 1)) })

theorem test_status_witness : s6h.msg 1 = some (msg6 (some 0) .blocking false) ∧
    (s6h.thr t51).held = some (.commit 1 (.mqCommitBlocking t51 8 3 4 1)) ∧ (s6h.thr t51).cmds = [] ∧ (s6h.core 5).dbg.haltReq = false ∧
    s6h.lat.id.toNat = 0 ∧ (s6m (msg6 (some 1) .posted true)).msg 1 = some (msg6 (some 1) .posted true) ∧
    (msgTake (s6m (msg6 (some 1) .posted true)) (msg6 (some 1) .posted true)).isSome = true := by decide +kernel

/-- A blocking commit's OK in rd, its staging buffer empty (R257, R259). -/
theorem test_commit_status : goesWith (exec (.commitStatus 1) s6h) (fun u => decide (u.reg t51 8 = wInt 0) && decide ((u.thr t51).staging = [])
    && decide ((u.thr t51).pc = mkPtr 1 0x104) && decide (u.msgs = [])) = true := by decide +kernel

theorem test_delivery_witness : arriving (s6m (msg6 none .posted false)) 1 = some (msg6 none .posted false) ∧
    accepts (s6m (msg6 none .posted false)) (.thread 0 5 1) 6 3 1 = true ∧ (((s6m (msg6 none .posted false)).core 6).q 3).kind = false ∧
    placeOf (((s6m (msg6 none .posted false)).core 6).q 3) 3 = .at_ 0 0 ∧ spadClean ((s6m (msg6 none .posted false)).core 6) = true ∧
    ((s6m (msg6 none .posted false)).core 6).dbg.tqmask = 0 := by decide +kernel

/-- The header of R253: LEN 2 granules, sender core 5 thread 1. -/
theorem test_delivery : goesWith (exec (.messageDelivery 1) (s6m (msg6 none .posted false))) (fun u =>
    decide (readBytes (u.core 6).spad.mem.bytes 0x800 18 = leBytes 8 (2 * 2 ^ 40 + 5 * 2 ^ 11 + 2 ^ 8) ++ leBytes 8 0x0001000000010000 ++ [7, 7])
    && decide (((u.core 6).q 3).tail = 3)) = true := by decide +kernel

/-- The same core fenced, at another epoch, out of scope and closed, one after the other. -/
def s6r (f : CoreSt → CoreSt) : State := (s6m (msg6 none .posted false)).modCore 6 f

theorem test_refusal_witness :
    (s6r (fun x => { x with fenced := true })).coreFenced 6 = true ∧ (1 : BitVec 16) ≠ ((s6r (fun x => { x with epoch := 2 })).core 6).epoch ∧
    admits 0 6 (((s6r (fun x => x.modQ 3 (fun q => { q with scope := 0 }))).core 6).q 3).scope (.thread 0 5 1) = false ∧
    (((s6r (fun x => x.modQ 3 (fun q => { q with opened := false }))).core 6).q 3).opened = false ∧
    arriving (s6r (fun x => { x with fenced := true })) 1 = some (msg6 none .posted false) := by decide +kernel

/-- A combining queue of INT32 sums with 2 slots of one row, and one with a complete slot. -/
def qComb (slots : Table Slot) : QueueSt := { base := 4, scope := 2, opened := true, kind := true, op := 1, nslot := 1, slotRows := 1, slotRow := 20, slots := slots }
def s6c : State := (s6m { msg6 none .posted false with hdr := BitVec.ofNat 64 (9 * 2 ^ 48 + 3 * 2 ^ 16 + 1) }).modCore 6 (fun x => { x with queues := [(3, qComb [])] })
def s6d : State := (s6 0).modCore 6 (fun x => { x with queues := [(3, qComb [(0, { used := true, key := 9, count := 1, arrived := 1, len := 32 })])] })

theorem test_combining_witness : (arriving s6c 1).isSome = true ∧ accepts s6c (.thread 0 5 1) 6 3 1 = true ∧
    (slotIds ((s6c.core 6).q 3)).find? (fun j => !(((s6c.core 6).q 3).slot j).used) = some 0 ∧ spadClean (s6c.core 6) = true ∧
    rowsUp 32 ≤ ((s6c.core 6).q 3).slotRows ∧ (32 + 15) / 16 + 1 ≤ ((s6c.core 6).q 3).cap ∧
    s6d.coreFenced 6 = false ∧ readySlot ((s6d.core 6).q 3) = some 0 ∧ placeOf ((s6d.core 6).q 3) 3 = .at_ 0 0 ∧ spadClean (s6d.core 6) = true := by
  decide +kernel

/-- The second contribution of a key whose slot holds one of 32 bytes, in the slot's row 20. -/
def s6e : State := (s6m { msg6 none .posted false with hdr := BitVec.ofNat 64 (9 * 2 ^ 48 + 3 * 2 ^ 16 + 1) }).modCore 6 (fun x =>
  { x with queues := [(3, qComb [(0, { used := true, key := 9, count := 3, arrived := 1, len := 32 })])], spad := { mem := { bytes := [(0x2800, 1), (0x2803, 0xFF)] } } })

theorem test_sum_witness : (arriving s6e 1).isSome = true ∧ accepts s6e (.thread 0 5 1) 6 3 1 = true ∧ mayOpen ((s6e.core 6).q 3) = true ∧
    (slotIds ((s6e.core 6).q 3)).find? (fun j => (((s6e.core 6).q 3).slot j).open_ && decide ((((s6e.core 6).q 3).slot j).key = 9)) = some 0 ∧
    slotByte ((s6e.core 6).q 3) 0 = 0x2800 ∧ spadClean (s6e.core 6) = true := by decide +kernel

/-- The sum of 32-bit words wraps (R274). -/
theorem test_sum : goesWith (exec (.combiningContribution 1) s6e) (fun u => decide (readBytes (u.core 6).spad.mem.bytes 0x2800 8 = [8, 7, 7, 6, 7, 7, 7, 7])
    && decide ((((u.core 6).q 3).slot 0).arrived = 2)) = true := by decide +kernel

/-- A complete slot's record, of kind 2, stands in the ring (R276). -/
theorem test_sum_delivered : goesWith (exec (.combinedResultDelivery 6 3) s6d) (fun u => decide ((((u.core 6).q 3).slot 0).used = false)
    && decide (((u.core 6).q 3).tail = 3) && decide (leNat (readBytes (u.core 6).spad.mem.bytes 0x800 8) / 2 ^ 60 = 2)) = true := by decide +kernel

theorem test_combining_unused (j : Nat) : (((s6c.core 6).q 3).slot j).used = false := rfl

/-- Thread 1 with queue 3: unbound with a message; served; empty; bound to it. -/
def s6t (st : ThrSt) (bind serv full : Bool) : State :=
  (s5q 1 { thrAt [(2, wInt 3)] with st := st, handler := if bind && serv then some 3 else none } 1 bind).modCore 5 (fun c =>
    c.modQ 3 (fun q => { q with inServ := serv, recs := if full then q.recs else [], tail := if full then 2 else 0 }))

theorem test_receive_witness : ready (s6t .run false false true) t51 = true ∧ (s6t .run false false true).reg t51 2 = wInt (BitVec.ofNat 64 3) ∧
    (((s6t .run false false true).core 5).q 3).ready = true ∧ (((s6t .run false true true).core 5).q 3).inServ = true ∧
    ((s6t .run false true true).thr t51).handler = none ∧ (((s6t .run false false false).core 5).q 3).ready = false ∧
    (((s6t .run false false false).core 5).q 3).opened = true ∧ ready (s6t .run true true true) t51 = true ∧
    ((s6t .run true true true).thr t51).handler = some 3 ∧ (((s6t .run true false true).core 5).q 3).thr = t51.thr ∧
    ((s6t .dispatch true false true).thr t51).st = .dispatch ∧ coreRuns (s6t .dispatch true false true) 5 = true ∧
    nextDispatch ((s6t .dispatch true false true).core 5) 1 = some 3 := by decide +kernel

/-- Group 2: core 5 a member with line 6; its cluster's node wants one arrival, the root one cluster. -/
def s6g (m : CinchMap) (n : CinchNode) (r : CinchRoot) : State :=
  let s := st5 1 (thrAt [])
  let s := s.modCore 5 (fun x => { x with cinch := [(2, m)] })
  { s with clusters := [(0, { nodes := [(2, n)] })], root := [(2, r)] }

theorem test_cinch_witness :
    ((s6g { member := true, evline := 6 } {} {}).core 5).map 2 = { member := true, evline := 6 } ∧ ready (s6g { member := true, evline := 6 } {} {}) t51 = true ∧
    (((s6g { member := true, flight := true } { loc := 1 } {}).core 5).map 2).flight = true ∧
    (((s6g { member := true, cur := true } { loc := 1, arr := 1, reported := true, sent := true } { clusters := 1 }).cluster 0).node 2).sent = true ∧
    (((s6g { member := true, cur := true } { loc := 1, arr := 1, reported := true, sent := true } { clusters := 1 }).core 5).map 2).cur = true ∧
    ((s6g {} { sent := true } { clusters := 3 }).rootOf 2).arr + 1 < ((s6g {} { sent := true } { clusters := 3 }).rootOf 2).clusters ∧
    (s6g {} {} {}).cp.rootOut = false ∧ writesPending ((s6g {} {} {}).core 5) 5 1 .die = false ∧ dcDirty ((s6g {} {} {}).core 5).dc = [] ∧
    (((s6g { member := true, out := true, due := true, evline := 6 } {} {}).core 5).map 2).due = true := by decide +kernel

/-- Arrivals that a node and the root only count. -/
def s6b : State := s6g { member := true, flight := true } { loc := 4, arr := 1, sent := true } { clusters := 3 }

theorem test_barrier_witness : ((s6b.core 5).map 2).flight = true ∧ ((s6b.cluster 0).node 2).reported = false ∧ ((s6b.cluster 0).node 2).arr + 1 < ((s6b.cluster 0).node 2).loc ∧
    ((s6b.cluster 0).node 2).sent = true ∧ (s6b.rootOf 2).reported = false ∧ (s6b.rootOf 2).arr + 1 < (s6b.rootOf 2).clusters := by decide +kernel

/-- A root that waits for a child device: its report, then a release by the parent, with arrivals of the next episode counted. -/
def s6p : State := s6g { member := true, cur := true } {} { clusters := 1, arr := 1, children := 2, childNext := 1, parent := 7, reported := true }

theorem test_cinch_tree_witness : (s6p.rootOf 2).reported = true ∧ (s6p.rootOf 2).childNext < (s6p.rootOf 2).children ∧
    ((s6p.core 5).map 2).cur = true ∧ ((s6g {} {} { children := 2 }).rootOf 2).child + 1 < ((s6g {} {} { children := 2 }).rootOf 2).children ∧
    ((s6g {} {} { children := 2 }).rootOf 2).reported = false := by decide +kernel

theorem test_cinch_parent : goesWith (exec (.cinchRootReport .parent 2) s6p) (fun u =>
    decide ((u.rootOf 2).child = 1) && decide ((u.rootOf 2).reported = false) && decide (((u.core 5).map 2).due = true)) = true := by decide +kernel

theorem test_cinch_release : goesWith (exec (.cinchRootReport (.node 0) 2)
      (s6g { member := true, cur := true } { loc := 1, arr := 1, reported := true, sent := true } { clusters := 1 })) (fun u =>
    decide ((u.rootOf 2).par = true) && decide (((u.core 5).map 2).due = true)) = true := by decide +kernel

/-! ## Register commands -/

/-- Core 5 with registers to clear and a dirty line. -/
def s7 : State := s1.modCore 5 (fun x =>
  { x with icache := [(1, List.replicate 64 0)], mtx := { x.mtx with special := 5, amaxCum := [(0, 3), (1, 4)] }, keep := { x.keep with k := [(3, { scope := 2 })] },
           dc := { x.dc with ways := x.dc.ways ++ [(9, { lineAt 0x900 3 with dirty := 5 })] } })

def answeredOk : Reply := { status := .ok }

theorem test_register_witness : coreWriteOk s7 .cp 5 0x500 = .ok ∧ coreWriteOk s7 .cp 5 0x400 = .ok ∧ coreWriteOk s7 .cp 5 0x1000 = .ok ∧
    coreWriteOk s7 .cp 5 0x1004 = .ok ∧ coreWriteOk s7 .cp 5 0x1010 = .ok ∧ coreWriteOk s7 .cp 5 0x680 = .ok ∧ coreWriteOk s7 .cp 5 0x18 = .ok ∧
    coreWriteOk s7 (.peer 3) 5 0x688 = .nowin ∧ sliceWriteOk .cp 0x10 = .ok ∧ clusterWriteOk .cp 3 0x500 = .ok ∧ deviceWriteOk .cp 0x108 = .ok ∧
    deviceWriteOk (.peer 3) 0x2008 = .nowin ∧ isCtlAgent .cp = true ∧ coreWriteOk s7 .cp 5 0x70C = .ok ∧
    coreWriteOk s7 .cp 5 0x838 = .ok ∧ supplied s7 .cp = true ∧ supplied s7 .mgmt = true ∧
    supplied { s7 with pwr := { s7.pwr with state := 3 } } .mgmt = false := by decide +kernel

/-- R25: without supply, the management plane's write is reported and does nothing. -/
theorem test_unsupplied : (let s : State := { s7 with pwr := { s7.pwr with state := 3 } }
    goesTo (exec (.mtxArmAmax .mgmt 5 1) s) (s.answer { status := .unreach })) = true := by decide +kernel
/-- R196, R216: a clear of the maximum is at once without, and behind, queued instructions that touch it. -/
theorem test_arms : goesWith (exec (.mtxArmAmax .cp 5 1) s7) (fun u => decide ((u.core 5).mtx.amaxCum = [(0, 3)])) = true ∧
    throughLastCvt [{ t := 1, i := .vCvt t51 1 2 3 0 0 0 }, { t := 1, i := .vTk t51 1 2 3 }] = 1 := by decide +kernel

theorem test_cache_action_witness : (∀ k ∈ dcDirty (s7.core 5).dc, (dcGet (s7.core 5).dc k).parity = false) ∧
    twf lineDef (s7.core 5).dc.ways = true ∧ dcDirty (s7.core 5).dc = [9] := by decide +kernel

theorem test_inval : goesWith (exec (.inval .cp 5) s7) (fun u => decide ((u.core 5).dc.action = some true)
    && decide ((u.core 5).dc.wbs.map (fun w => (w.line, w.bytes, w.mask, w.why)) = [(0x900, List.replicate 64 3, 5, .action)])) = true := by decide +kernel

/-- R143: field 3 is not written, masked fields are. -/
theorem test_portmap : goesWith (exec (.spadPortmapWrite .cp 5 0x00FF00E4) s7) (fun u => decide ((u.core 5).spad.portmap = 0x24)) = true := by
  decide +kernel

theorem test_queue_open : goesWith (exec (.mqCtlWrite .cp 5 3 0x55) s7) (fun u => decide (((u.core 5).q 3).opened = true)
    && decide (((u.core 5).q 3).thr = 2) && decide (((u.core 5).q 3).scope = 2)) = true := by decide +kernel

/-- Channel 2 of core 5 in a state; group 3 with an arrival counted. -/
def s7d (r : DmaRun) : State := s7.modCore 5 (fun x => x.modCh 2 (fun d => { d with run := r }))
def s7e : State := s7.modCore 5 (fun x => x.modMap 3 (fun m => { m with cur := true, out := true, member := true }))

theorem test_stop_witness : coreWriteOk (s7d .run) .cp 5 0x984 = .ok ∧ (((s7d .run).core 5).ch 2).run = .run ∧ (((s7d .run).core 5).ch 2).ending = none ∧
    (((s7d .waitStart).core 5).ch 2).run = .waitStart ∧ episodeOpen s7 3 = false ∧ episodeOpen s7e 3 = true := by decide +kernel

theorem test_halt_witness : (s7.core 5).dbg.halted = false ∧ allAtBoundary (s7.core 5) = true := by decide +kernel

theorem test_halt : goesWith (exec (.halt 5) s7) (fun u => decide ((u.core 5).dbg.halted = true) && !canIssue u t51
    && goesWith (exec (.stepgo 5 1) u) (fun v => decide ((v.core 5).dbg.stepping = some 1))) = true := by decide +kernel

/-- Every link of group 1 fenced. -/
def s7l : State := { s7 with lat := { s7.lat with links := (List.range 16).map (fun n => (16 + n, ({ fenced := true } : LinkSt))) } }

theorem test_group_witness : (∀ l, l < 16 → (s7l.link (16 + l)).isFenced = true) ∧ (s7l.link 0).isFenced = false := by decide +kernel

/-- R411: a hold time too short for the retries is not taken. -/
theorem test_retry_rule : goesWith (exec (.latRetryWrite .cp 0xF0010FA0) s7) (fun u => decide (u.lat.hold = 0x7D0) && decide (u.lat.retryMax = 4)) = true := by
  decide +kernel

theorem test_time_latch : goesWith (exec (.mgtTimeLoRead .cp) { s7 with mgmt := { s7.mgmt with time := 0x1234567890 } }) (fun u =>
    decide (u.reply = some { status := .ok, data := [0x90, 0x78, 0x56, 0x34] }) && decide (u.mgmt.timeHi = 0x12)) = true := by decide +kernel

/-! ## Matrix engine -/

/-- A tile configuration of INT8: rows, columns, pitch. -/
def cfg8 (rows cols pitch : Nat) : Word := BitVec.ofNat 64 (9 * 2 ^ 59 + rows * 2 ^ 48 + cols * 2 ^ 33 + pitch * 2 ^ 22)

def tile8 (data : Bytes) (full : Bool) : Tile := { data := data, conf := cfg8 32 32 2, cfg := true, full := full }

/-- Tiles 0 and 1 full, tile 2 configured; set 0 holds an integer sum; the M-port owns the scratchpad. -/
def mtx8 (ops : List MtxOp) : MtxSt :=
  { tiles := [(0, tile8 [(0, 2), (1, 0xFF), (33, 7)] true), (1, tile8 [(0, 3), (1, 5), (32, 9)] true), (2, tile8 [] false)],
    accs := [(0, { els := [(0, { total := 1000, run := 0 }), (33, { total := 0xFFFFFFFE, run := 0 })], n := 32, mode := some .int, gval := 4 })],
    reuseA := some ⟨0, [(0, 2)]⟩, special := 7, amaxLast := [(1, 5)], ops := ops }

def s8 (ops : List MtxOp) (held : Option Held) : State :=
  (st5 1 { thrAt [(2, ⟨.tcfg, cfg8 32 64 4⟩), (3, wInt 0x400), (4, wInt 9)] with held := held }).modCore 5 (fun x =>
    { x with mtx := mtx8 ops, spad := { x.spad with portmap := 0x55, mem := { bytes := [(0x400, 0x34), (0x408, 1), (0x409, 1)] } } })

def format8 : Format := ⟨.int8, false⟩
def shape8 : TileCfg := tcfgOf (cfg8 32 32 2)

theorem test_matrix_witness : ready (s8 [] none) t51 = true ∧ ((s8 [] none).core 5).mtx.ops = [] ∧ tcfgOk (cfg8 32 64 4) = true ∧
    (((s8 [] none).core 5).mtx.tile 0).shape = some (format8, shape8) ∧ (((s8 [] none).core 5).mtx.tile 2).shape = some (format8, shape8) ∧
    shape8.rows = 32 ∧ shape8.cols = 32 ∧ shape8.pitch = 2 ∧ shape8.extent = 1024 ∧ saveLen ((s8 [] none).core 5).mtx 2 = 64 ∧
    shape8.cols % groupSize format8.elem format8.elem = 0 ∧ (((s8 [] none).core 5).mtx.acc 0).mode = some (mmaMode format8 format8 0) := by
  decide +kernel

theorem test_matrix_fits : spadCheck ((s8 [] none).core 5) (((s8 [] none).core 5).win 1) 0x400 2 512 1 = .ok 0x400 ∧
    spadCheck ((s8 [] none).core 5) (((s8 [] none).core 5).win 1) 0x400 1 512 1 = .ok 0x400 := ⟨rfl, rfl⟩

theorem test_tcfg : goesWith (exec (.tcfg t51 0 2) (s8 [] none)) (fun u => decide (((u.core 5).mtx.tile 0).conf = cfg8 32 64 4)
    && decide ((u.core 5).mtx.reuseA = none) && decide ((u.thr t51).pc = mkPtr 1 0x104)) = true := by decide +kernel

theorem test_rel : goesWith (exec (.tRel t51 3) (s8 [] none)) (fun u => decide (((u.core 5).mtx.tile 1).full = false)
    && decide (((u.core 5).mtx.tile 0).full = false) && decide ((u.core 5).mtx.reuseA = none)) = true := by decide +kernel

theorem test_rds : goesWith (exec (.tRds t51 8 4) (s8 [] none)) (fun u => decide (u.reg t51 8 = wInt 7)) = true := by decide +kernel

/-- Instructions in the engine. -/
def op8 (i : Instr) (len : Nat) (started : Bool) : MtxOp :=
  { t := 1, i := i, a := wInt 0x400, b := {}, win := {}, checked := true, la := if len = 0 then .none else .spad 0x400 len, started := started }

def s8o (o : MtxOp) : State := s8 [o] (some .engine)

theorem test_engine_witness : (∀ i ∈ [Instr.tLd t51 2 3, .tSt t51 0 3, .tMma t51 0 0 1 false false 0, .tDrain t51 0 2 false 0 false 0 0 0 0],
    let s := s8o (op8 i 1024 false)
    (s.core 5).mtx.ops = [op8 i 1024 false] ∧ (s.core 5).vec.ops = [] ∧ mtxRuns s 5 = true ∧
      (∀ n, n < 8 → heldSpans 5 ((s.core 5).t n).held = []) ∧ spadSound (s.core 5) = true ∧ (s.thr t51).cmds = [] ∧
      (s.core 5).dbg.haltReq = false) := by decide +kernel

/-- R179: a load brings its bytes to the tile at its commit. -/
theorem test_load_commit : goesWith (exec (.tLdCommit t51) (s8o { op8 (.tLd t51 2 3) 1024 true with buf := [4, 0, 6] })) (fun u =>
    decide (u.core 5 |>.mtx.tile 2 |>.full) && decide (readBytes ((u.core 5).mtx.tile 2).data 0 4 = [4, 0, 6, 0])
    && decide ((u.thr t51).held = none) && decide ((u.thr t51).pc = mkPtr 1 0x104)) = true := by decide +kernel

theorem test_store_start : goesWith (exec (.matrixStart t51) (s8o (op8 (.tSt t51 0 3) 1024 false))) (fun u =>
    decide (readBytes (u.core 5).spad.mem.bytes 0x400 2 = [2, 0xFF]) && decide (readByte (u.core 5).spad.mem.bytes 0x421 = 7)) = true := by
  decide +kernel

/-- A store of 64 bytes past the cache whose request is in slot 0, and a load of them. -/
def req8 : Req := { ga := 0x30000, len := 64, slot := 0 }
def glob8 (i : Instr) : MtxOp :=
  { op8 i 0 true with a := addrWord 4 0, la := .glob 0x30000 64 false, reqs := [req8], buf := if i = .tLd t51 2 3 then [] else List.replicate 64 9 }
def s8g (o : MtxOp) : State := { s8o o with slices := s3.slices }

theorem test_transfer_witness : (∀ i ∈ [Instr.tLd t51 2 3, .tSave t51 0 3], let s := s8g (glob8 i)
      (s.core 5).mtx.ops = [glob8 i] ∧ mtxRuns s 5 = true ∧ (s.thr t51).held = some .engine ∧
      recorded s 0x30000 5 0 ((s.port 5).slot 0).gen (.write 0x30000 (List.replicate 64 9) (allOn (List.replicate 64 (9 : Byte)))) = none ∧ wpMatch (s.core 5).dbg 1 0x30000 64 (writesOut i) = false) ∧
    uncached (s8 [] none) t51 0x30000 64 ∧ (glob8 (.tSave t51 0 3)).buf.length = 64 := by
  refine ⟨by decide +kernel, ?_, by decide +kernel⟩
  unfold uncached
  decide +kernel
theorem test_transfer_memory_witness : hbmAt (s8g (glob8 (.tLd t51 2 3))) s3.smap 0x30000 64 48 0 := by
  refine ⟨?_, ?_, ?_, ?_, ?_, ?_, ?_, ?_, ?_⟩ <;> decide +kernel

/-- The response of the save's request writes its bytes at the slice; the save completes with the next command (R179, R200). -/
theorem test_transfer_store : goesWith (exec (.globalResponse t51 ⟨.ok, []⟩) (s8g (glob8 (.tSave t51 0 3)))) (fun u =>
    decide (readBytes (u.slice 48).mem.bytes 0 64 = List.replicate 64 9) && goesWith (exec (.tStComplete t51) u) (fun v =>
      decide ((v.core 5).mtx.ops = []) && decide ((v.thr t51).pc = mkPtr 1 0x104))) = true := by decide +kernel

/-- R203: a record of a configured tile that is not full; its header is what R202 lays out. -/
theorem test_rest_witness : slice (readBytes ((s8 [] none).core 5).spad.mem.bytes 0x400 64) 8 8 = [1, 1, 0, 0, 0, 0, 0, 0] ∧
    tcfgOk (cfg8 32 32 2) = true := by decide +kernel

/-! ## Vector engine -/

/-- A register whose lane i holds f i. -/
def vregOf (f : Nat → Nat) : Vreg := ofLanes ((List.range 64).map (fun i => BitVec.ofNat 32 (f i)))

/-- Registers v2, v4 and v5 hold data, m1 every second lane; set 0 is an integer sum; the V-port owns the scratchpad. -/
def vec9 (ops : List VecOp) : VecSt :=
  { v := [(2, vregOf (fun i => i * 0x01010101)), (4, vregOf (fun i => 0x3F800000 + (i * 37) % 64)), (5, vregOf (fun i => i / 2))],
    m := [(1, 0x5555555555555555)], accs := [(0, { els := [(0, { total := 1000, run := 0 })], n := 4, mode := some .int, gval := 4 })],
    ctr := [(0, 7)], key := [(0, 1), (1, 2)], ops := ops }

def s9 (ops : List VecOp) (held : Option Held) : State :=
  (st5 1 { thrAt [(3, wInt 0x400), (4, wInt 9)] with held := held }).modCore 5 (fun x =>
    { x with vec := vec9 ops, spad := { x.spad with portmap := 0xAA, mem := { bytes := [(0x400, 0x34), (0x501, 1)] } } })

theorem test_vector_witness : ready (s9 [] none) t51 = true ∧ ((s9 [] none).core 5).vec.ops = [] ∧ ((s9 [] none).core 5).mtx.ops = [] ∧
    cvtElem 9 = some .int8 ∧ (((s9 [] none).core 5).vec.acc 0).mode = some (dotMode .int8 0) ∧ cvtOk 1 0 1 = true ∧ cvmRnd 0 = false ∧
    (∀ h, h < 8 → heldSpans 5 (((s9 [] none).core 5).t h).held = []) ∧ (s9 [] none).reg t51 4 = wInt 9 := by decide +kernel

theorem test_vector_fits : spadCheck ((s9 [] none).core 5) (((s9 [] none).core 5).win 1) 0x400 1 512 2 = .ok 0x400 := rfl

/-- Instruction `i` of thread 1 is the oldest in the engine. -/
def s9o (i : Instr) : State := s9 [{ t := 1, i := i, a := wInt 9, row := 0x400, rng := (1, 2, 7) }] none

theorem test_vector_engine_witness : ((s9o (.vBcast t51 3 4)).core 5).vec.ops.length = 1 ∧ ((s9o (.vBcast t51 3 4)).thr t51).cmds = [] ∧
    ((s9o (.vBcast t51 3 4)).core 5).dbg.haltReq = false ∧ spadSound ((s9o (.vLd t51 2 3)).core 5) = true ∧
    ((s9o (.vBcast t51 3 4)).core 5).vec.mask 1 ≠ 0 := by decide +kernel

/-- R208, R209: an INT32 add under m1; the masked lane keeps its value. -/
theorem test_varith : goesWith (exec (.vInsnComplete 5) (s9o (.vArithmetic t51 2 4 5 1 8))) (fun u =>
    decide (lane ((u.core 5).vec.v_ 2) 2 = 0x3F800000 + 74 % 64 + 1) && decide (lane ((u.core 5).vec.v_ 2) 3 = 0x03030303)) = true := by
  decide +kernel

/-- R212: the sum of lanes 0 to 63 of v5 is 2 × (0 + … + 31). -/
theorem test_vrsum : goesWith (exec (.vInsnComplete 5) (s9o (.vRsum t51 3 5 0 true))) (fun u =>
    decide (lane ((u.core 5).vec.v_ 3) 0 = 992) && decide (lane ((u.core 5).vec.v_ 3) 1 = 0)) = true := by decide +kernel

/-- R213: lane 3 of v2 holds four bytes 3. -/
theorem test_vdot : goesWith (exec (.vInsnComplete 5) (s9o (.vDot t51 0 2 2 9 0))) (fun u =>
    decide ((tget elDef ((u.core 5).vec.acc 0).els 3).total = 36) && decide (((u.core 5).vec.acc 0).n = 8)) = true := by decide +kernel

theorem test_vget : goesWith (exec (.vInsnComplete 5) (s9o (.vGet t51 8 2 63))) (fun u =>
    decide (u.reg t51 8 = wInt 0x3F3F3F3F) && decide ((u.thr t51).pc = mkPtr 1 0x104)) = true := by decide +kernel

/-! ## DMA -/

/-- A descriptor of the scratchpad: source offset 0x1000, destination 0x1800, two elements of 4 bytes; word 0x38 as given. -/
def desc10 (w : Nat) : List Byte :=
  leBytes 8 (2 ^ 55 + 0x1000) ++ leBytes 8 (2 ^ 55 + 0x1800) ++ leBytes 5 4 ++ leBytes 5 0 ++ leBytes 5 0 ++ leBytes 5 8 ++ leBytes 5 0
    ++ leBytes 5 0 ++ leBytes 2 1 ++ leBytes 2 1 ++ leBytes 4 2 ++ leBytes 2 4 ++ leBytes 8 w

/-- Channel 3 of core 5 as given; a descriptor at 0x400 that starts at once and fires line 5. -/
def s10 (y : DmaCh) : State :=
  (st5 1 (thrAt [(3, ⟨.hndl, dmaHandleWord 3⟩), (4, wInt 0x400)])).modCore 5 (fun x =>
    { x.modCh 3 (fun _ => y) with spad := { x.spad with mem := { bytes := writeBytes [(0x1000, 7), (0x1004, 9)] 0x400 (desc10 0x514) } } })

theorem test_dma_witness : ready (s10 {}) t51 = true ∧ (s10 {}).reg t51 3 = ⟨.hndl, dmaHandleWord 3⟩ ∧
    mustWait ((s10 {}).core 5) 5 1 [.spad 0x400 64] = false ∧ spadSound ((s10 {}).core 5) = true ∧
    goodDesc (readBytes ((s10 {}).core 5).spad.mem.bytes 0x400 64) 3 ∧ dmaMoves (s10 {}) 5 = true ∧
    accessesPending ((s10 {}).core 5) 5 1 = false ∧ sideOf (s10 {}) t51 false (descOf (desc10 0x514)).src = some .spad ∧
    sideOf (s10 {}) t51 false { (descOf (desc10 0x514)).src with spad := false, sel := 4 } = some (.seg (ent 4 0x30000 0x03).base (ent 4 0x30000 0x03).attr) := by
  refine ⟨?_, ?_, ?_, ?_, ⟨?_, ?_⟩, ?_, ?_, ?_, ?_⟩ <;> decide +kernel

theorem test_dma_check : spadCheck ((s10 {}).core 5) (((s10 {}).core 5).win 1) 0x400 1 1 0 = .ok 0x400 := rfl

/-- A running channel at the first element of the descriptor. -/
def y10 (i0 : Nat) (r : DmaRun) (buf : Option (List Byte)) (ending : Option (BitVec 4)) (w : Nat) : DmaCh :=
  { desc := desc10 w, run := r, i0 := i0, buf := buf, ending := ending, win := { base := 0, bound := 16 } }

theorem test_dma_element_witness : chan (s10 (y10 1 .run (some [1, 2, 3, 4]) none 0x514)) 5 3 = y10 1 .run (some [1, 2, 3, 4]) none 0x514 ∧
    (descOf (desc10 0x514)).l0 = 2 ∧ (descOf (desc10 0x514)).l1 = 1 ∧ (descOf (desc10 0x514)).l2 = 1 ∧ (descOf (desc10 0x514)).esize = 4 ∧
    (descOf (desc10 0x514)).link = false ∧ (descOf (desc10 0x514)).halfEn = false := by decide +kernel

theorem test_dma_element_checks : dmaSpad ((s10 {}).core 5) { base := 0, bound := 16 } ((descOf (desc10 0x514)).src.at_ 1 0 0) 4 = .ok 0x1004 ∧
    dmaSpad ((s10 {}).core 5) { base := 0, bound := 16 } ((descOf (desc10 0x514)).dst.at_ 1 0 0) 4 = .ok 0x1808 := ⟨rfl, rfl⟩

/-- The same with its destination, or source, in uncached HBM and a request of that side in slot 0. -/
def y10g (write : Bool) : DmaCh :=
  let seg := DmaSide.seg (ent 4 0x30000 0x03).base (ent 4 0x30000 0x03).attr
  { y10 0 .run (if write then some [1, 2, 3, 4] else none) none 0x514 with
    src := if write then .spad else seg, dst := if write then seg else .spad, reqs := [{ ga := if write then 0x31800 else 0x31000, len := 32, slot := 0 }] }
def s10g (write : Bool) : State := { s10 (y10g write) with slices := (List.range 80).map (fun k => (k, { clkOk := true, ready := true })) }

theorem test_dma_global_witness : (chan (s10g true) 5 3).reqs.length = 1 ∧ (chan (s10g false) 5 3).buf = none ∧
    (match elemAt (y10g true) true (y10g true).dst with | .ok p => p == 0x31800 | _ => false) = true ∧
    (match elemAt (y10g false) false (y10g false).src with | .ok p => p == 0x31000 | _ => false) = true ∧
    (sectorBlocks 0x31800 4) = [(0x31800, 32)] ∧
    recorded (s10g true) 0x31800 5 0 ((s10g true).port 5 |>.slot 0).gen (dmaAcc (y10g true) { ga := 0x31800, len := 32, slot := 0 }) = none := by decide +kernel
theorem test_dma_memory_witness : hbmAt (s10g true) (s10g true).smap 0x31800 32 49 2048 ∧ hbmAt (s10g false) (s10g false).smap 0x31000 32 49 0 := by
  refine ⟨⟨?_, ?_, ?_, ?_, ?_, ?_, ?_, ?_, ?_⟩, ⟨?_, ?_, ?_, ?_, ?_, ?_, ?_, ?_, ?_⟩⟩ <;> decide +kernel

/-- R235: the response writes the element's bytes and no others of its sector. -/
theorem test_dma_write : goesWith (exec (.dmaRequestStatus 5 3 ⟨.ok, []⟩) (s10g true)) (fun u =>
    decide (readBytes (u.slice 49).mem.bytes 2047 6 = [0, 1, 2, 3, 4, 0]) && decide ((chan u 5 3).i0 = 1) && decide ((chan u 5 3).reqs = [])) = true := by decide +kernel

/-- R237: the last element ends the descriptor: IDLE, DONE 1, line 5. -/
theorem test_dma_last : goesWith (exec (.dmaRequestStatus 5 3 ⟨.ok, []⟩) (s10 (y10 1 .run (some [1, 2, 3, 4]) none 0x514))) (fun u =>
    decide ((chan u 5 3).run = .idle) && decide ((chan u 5 3).done = 1) && decide ((u.core 5).evt = 32)
    && decide (readBytes (u.core 5).spad.mem.bytes 0x1808 4 = [1, 2, 3, 4])) = true := by decide +kernel

/-- A channel that waits for a delay, and one whose descriptor links to the one at 0x400. -/
theorem test_dma_start_witness : (descOf (desc10 (2 ^ 36 + 5 * 2 ^ 12))).start = 1 ∧ (descOf (desc10 (2 ^ 36 + 5 * 2 ^ 12))).empty = false ∧
    (descOf (desc10 (2 ^ 37 + 2 ^ 20))).start = 2 ∧ (descOf (desc10 (2 ^ 63 + 16 * 2 ^ 47))).next = 16 := by decide +kernel

/-- R35, R231: a delay of 5 that began at pacer 3 has passed at 8, not at 7. -/
theorem test_dma_delay : (let s := fun (n : Nat) => { s10 { y10 0 .waitStart none none (2 ^ 36 + 5 * 2 ^ 12) with since := 3 } with clusters := [(0, { pacer := n })] }
    goesWith (exec (.dmaStartDelay 5 3) (s 8)) (fun u => decide ((chan u 5 3).run = .run)) && goesTo (exec (.dmaStartDelay 5 3) (s 7)) (s 7)) = true := by
  decide +kernel

theorem test_dma_chain_check : dmaSpad ((s10 {}).core 5) { base := 0, bound := 16 } (64 * 16) 64 = .ok 0x400 := rfl

theorem test_dma_chain : goesWith (exec (.dmaChainRead 5 3) (s10 { y10 0 .run none none (2 ^ 63 + 16 * 2 ^ 47) with chain := true })) (fun u =>
    decide ((chan u 5 3).cur = 0x400) && decide ((chan u 5 3).run = .run) && decide ((chan u 5 3).chain = false)) = true := by decide +kernel

/-! ## Memories -/

/-- Core 5 with keeper 2 over rows 1 to 4 for reads and writes of the die, a struck word in row 6 and a poisoned row 9. -/
def s11 : State := s1.modCore 5 (fun x =>
  { x with keep := { x.keep with k := [(2, { base := 1, bound := 4, scope := 1, wr := true, rd := true, en := true })], even := true, evline := 3 },
           spad := { x.spad with mem := { bytes := [(0x200, 5), (0x201, 6)] }, sweep := [(0, 2048)], ptr := [(1, 7)] } })

theorem test_remote_witness : findKeeper (s11.core 5).keep.k false (srcClass .cp 5) 1 16 0
      = some { base := 1, bound := 4, scope := 1, wr := true, rd := true, en := true } ∧
    findKeeper (s11.core 5).keep.k false (srcClass (.peer 2) 5) 1 16 0 = none ∧ spadClean (s11.core 5) = true ∧ s11.drowsy = false ∧
    s11.coreFenced 5 = false ∧ accWf (.read 0x200 2) = true ∧ accWf (.read 0x900 0x200) = true := by decide +kernel

theorem test_remote_read : goesWith (exec (.remoteAccess .cp 5 (.read 0x200 2)) s11) (fun u => decide (u.reply = some { status := .ok, data := [5, 6] }))
    = true := by decide +kernel

/-- R152: a peer is refused, and told so in KEEP_ERR_INFO with SRC 2 and row 1. -/
theorem test_remote_refused : goesWith (exec (.remoteAccess (.peer 2) 5 (.write 0x200 [1] [true])) s11) (fun u =>
    decide (u.reply = some { status := .nowin }) && decide ((u.core 5).keep.info = 0xB0000001) && decide ((u.core 5).evt = 8)) = true := by decide +kernel

theorem test_remote_bound : goesWith (exec (.remoteAccess .cp 5 (.read 0x900 0x200)) s11) (fun u => decide (u.reply = some { status := .bound })) = true := by
  decide +kernel

def s11u : State := s11.modCore 5 (fun x => { x with spad := { x.spad with mem := { x.spad.mem with upsets := [(64 * 2055 + 3, 1)] } } })

theorem test_burnish_witness : (s11u.core 5).spad.mem.struck (2048 + 7) = [(64 * 2055 + 3, 1)] ∧ (s11u.core 5).spad.mem.struck 0 = [] ∧
    (s11u.core 5).spad.period ≠ 0 := by decide +kernel

/-- The period's 1/2048 share has passed since the last visit of group 1. -/
def s11f : State := { s11u with clusters := [(0, { pacer := 1000000000 })] }

theorem test_burnish_due_witness : tget natDef (s11f.core 5).spad.moved 1 + 100000 * (s11f.core 5).spad.period.toNat / 2048 ≤ pacerOf s11f 5 ∧
    pacerOf s11u 5 < tget natDef (s11u.core 5).spad.moved 1 + 100000 * (s11u.core 5).spad.period.toNat / 2048 := by decide +kernel

theorem test_burnish_forced : goesWith (exec (.spadBurnishForced 5 1) s11f) (fun u => decide (tget natDef (u.core 5).spad.ptr 1 = 8)) = true ∧
    goesTo (exec (.spadBurnishForced 5 1) s11u) s11u = true := by decide +kernel

theorem test_burnish : goesWith (exec (.spadBurnishVisit 5 1) s11u) (fun u => decide ((u.core 5).spad.ceCnt = 1) && decide (tget natDef (u.core 5).spad.ptr 1 = 8)) = true := by decide +kernel

/-- Thread 1 waits for the fill of line 0x500 in HBM. -/
def gacc11 : GAcc := { addr := 0, ga := 64 * 0x500 + 8, size := 4, tagged := false, wdata := none, kseg := false, stream := false, fin := .load 9 .zero none, slot := 0 }
def up11 (s : State) : State := { s with slices := (List.range 80).map (fun k => (k, ({ clkOk := true, ready := true, mem := { bytes := [(8, 0x77), (64 * 0x500 + 8, 0x77)] } } : SliceSt))) }
def s11m : State := up11 ((s11.modThr t51 (fun x => { x with held := some (.miss gacc11) })).modCore 5 (fun x => { x with dc := { x.dc with miss := some 1 } }))

theorem test_fill_witness : (s11m.core 5).dc.miss = some 1 ∧ (s11m.thr t51).held = some (.miss gacc11) ∧ (s11m.core 5).dc.wbs = [] ∧
    dcFind (s11m.core 5).dc 0x500 = none ∧ (∀ m : Fin 8, m ≠ 1 → (s11m.thr ⟨5, m⟩).held = none) ∧ (s11m.thr t51).cmds = [] ∧
    (s11m.core 5).dbg.haltReq = false ∧ wpMatch (s11m.core 5).dbg 1 gacc11.ga 4 false = false ∧
    (ended gacc11 (slice (readBytes (s11m.slice 20).mem.bytes 0 64) 8 4) (s11m.thr t51)).isSome = true := by decide +kernel
theorem test_fill_memory_witness : hbmAt s11m gacc11.map (64 * 0x500) 64 20 0 := by
  refine ⟨?_, ?_, ?_, ?_, ?_, ?_, ?_, ?_, ?_⟩ <;> decide +kernel

theorem test_fill : goesWith (exec (.dcacheFillComplete 5 ⟨.ok, []⟩) s11m) (fun u => decide (u.reg t51 9 = wInt 0x77) && decide ((u.thr t51).held = none)
    && (dcFind (u.core 5).dc 0x500).isSome) = true := by decide +kernel

def wb11 : WriteBack := { line := 0x500, bytes := List.replicate 64 9, mask := 3, why := .action, slot := 0 }
def s11w : State := up11 (s11.modCore 5 (fun x => { x with dc := { x.dc with wbs := [wb11], action := some true } }))

theorem test_writeback_witness : (s11w.core 5).dc.wbs[0]? = some wb11 ∧ (List.range 8).all (fun m => ((s11w.core 5).t m).held.isNone) = true ∧
    recorded s11w (64 * 0x500) 5 0 ((s11w.port 5).slot 0).gen wb11.acc = none := by decide +kernel

theorem test_pacer_witness : (up11 { s11 with mgmt := { s11.mgmt with fwRun := true } }).pwr.state ≠ 3 ∧
    ((up11 s11).slice 7).clkOk = true := by decide +kernel

/-- 1 ms after cluster 3's last trim. -/
def s11c : State := { s11 with mgmt := { s11.mgmt with fwRun := true, time := 1000000 }, clusters := [(3, { calOnce := true, trim := 10 })] }

theorem test_calibration : goesWith (exec (.pacerCalibration (List.replicate 64 500)) s11c) (fun u => decide ((u.cluster 3).trim = 110) && decide ((u.cluster 4).trim = 500)) = true := by
  decide +kernel

/-- R33: a trim is applied no more often than once per ms. -/
theorem test_calibration_early : goesTo (exec (.pacerCalibration (List.replicate 64 500)) { s11c with mgmt := { s11c.mgmt with time := 999999 }, clusters := (List.range 64).map (fun k => (k, { calOnce := true, trim := 10 })) })
    { s11c with mgmt := { s11c.mgmt with time := 999999 }, clusters := (List.range 64).map (fun k => (k, { calOnce := true, trim := 10 })) } = true := by
  decide +kernel

theorem test_lapse_witness : (s11c.cluster 3).calTime + 10000000 ≤ ({ s11c with mgmt := { s11c.mgmt with time := 10000000 } } : State).mgmt.time ∧
    s11c.mgmt.time < (s11c.cluster 3).calTime + 10000000 := by decide +kernel

theorem test_slice_witness : sliceServes (up11 s11) 7 = true ∧ ((up11 s11).slice 7).dir = [] ∧ ((up11 s11).slice 7).mem.poison = [] ∧
    accWf (.read (64 * 0x500) 64) = true ∧ (up11 s11).cp.notices.length < 256 := by decide +kernel

/-- A request that a slice without clock holds is served when the clock is back; a peer's is refused while MEMEN is 0. -/
def s11h : State := { s11 with slices := [(7, { ready := true })], waits := [.request .cp 7 (.read (64 * 0x500) 32)] }

theorem test_slice_holds_witness : ((s11h).slice 7).clkOk = false ∧ s11h.drowsy = false ∧ s11h.sliceFenced 7 = false ∧ s11h.lat.memen = false := by decide +kernel

theorem test_slice_holds : goesWith (exec (.sliceRequest .cp 7 (.read 0 32)) { s11h with waits := [] }) (fun u => decide (u.waits = [.request .cp 7 (.read 0 32)]))
    = true ∧ goesWith (exec (.stackClockRestore 1) s11h) (fun u => decide (u.waits = []) && decide (u.reply.map (·.status) = some .ok)) = true ∧
    goesTo (exec (.sliceRequest (.peer 3) 7 (.read 0 32)) s11h) (s11h.answer { status := .nowin }) = true := by decide +kernel

theorem test_slice_read : goesWith (exec (.sliceRequest .cp 7 (.read (64 * 0x500) 32)) (up11 s11)) (fun u =>
    decide (u.reply.map (fun r => (r.status, r.data.take 9)) = some (.ok, [0, 0, 0, 0, 0, 0, 0, 0, 0x77]))) = true := by decide +kernel

/-- R321: 96 °C asks for the multiplier 4. -/
theorem test_refresh_rise : goesWith (exec (.refreshMultiplierRise 1 96) (up11 s11)) (fun u => decide ((u.slice 7).refx = 2) && decide ((u.slice 8).refx = 0))
    = true := by decide +kernel

/-! ## Skivers -/

def words12 (ws : List Nat) : List Byte := ws.flatMap (leBytes 8)
/-- DRAM: keys (1, 1), (2, 1) at 0 and values (4, 0), (0, 8) at 32 in BF16, as in the example of R347. -/
def mem12 : EccMem :=
  { bytes := [(0, 0x80), (1, 0x3F), (2, 0x80), (3, 0x3F), (5, 0x40), (6, 0x80), (7, 0x3F), (32, 0x80), (33, 0x40), (38, 0), (39, 0x41)].filter (·.2 ≠ 0) }
/-- Buffer: a page table entry at row 0, the query (1, 1) in BF16 at row 1, FP32 1.0 and 2.0 at row 2, indices 1 and 0 at row 3. -/
def buf12 : EccMem := { bytes := [(4, 2), (512, 0x80), (513, 0x3F), (514, 0x80), (515, 0x3F), (1026, 0x80), (1027, 0x3F), (1031, 0x40), (1536, 1)] }
def skv12 (b : List Byte) : SkvSt :=
  { buf := buf12, bwin := 0x7FF0000, ctl := 0xFE, ord := { desc := some { bytes := b, core := 5, thr := 1, byCp := false, dev := 0, cls := 2 }, started := true } }
/-- Slice 7 runs descriptor `b` in its ordinary context. -/
def s12 (b : List Byte) : State := { s1 with slices := [(7, { clkOk := true, ready := true, mem := mem12, skv := skv12 b })] }

def attend12 : List Byte :=
  words12 [0x2800000000000000, 0x0100005000000001, 0x0001000000000000, (1 <<< 49) + (1 <<< 44) + (2 <<< 35) + (2 <<< 27) + (1 <<< 11), 0x40801, 0x3F800000, 0]
def append12 : List Byte := words12 [0x4800000000000000, 0x0100005000000001, 100, (4 <<< 32) + 8, (2 <<< 18) + (1 <<< 11) + 1, 0, 0]
def scatter12 : List Byte := words12 [0x5000000000000000, 0, (2 <<< 34) + 64, (2 <<< 32) + 8, (2 <<< 29) + (1 <<< 22) + (2 <<< 11) + 3, 0, 0]
def copy12 : List Byte := words12 [0x6000000000000000, 0, 0, (1 <<< 34) + 0x10000, 8, 0, 0]
def fill12 : List Byte := words12 [0x7000000000000000, 0, 0, 200, 8, 0x11223344, 0]
def gather12 : List Byte :=
  words12 [0x0800000000000000, 0x0100005000000001, 2 <<< 34, (1 <<< 50) + (1 <<< 45) + (2 <<< 32) + 4, (2 <<< 33) + (2 <<< 22) + 3, 0, 0]
def matvec12 : List Byte :=
  words12 [0x1800000000000000, 0x0100005000000001, 2 <<< 34, (1 <<< 52) + (1 <<< 47) + (2 <<< 32) + 4, (2 <<< 18) + (1 <<< 11) + 1, (1 <<< 34) + 32, 0]
def topk12 : List Byte :=
  words12 [0x3800000000000000, 0x0100005000000001, 2 <<< 34, (1 <<< 50) + (1 <<< 45) + (2 <<< 32) + 4, (3 <<< 24) + (1 <<< 18) + (1 <<< 11) + 1,
    (5 <<< 32) + 0x3F800000, 0]

theorem test_skiver_shapes : ∀ b ∈ [attend12, append12, scatter12, copy12, fill12, gather12, matvec12, topk12],
    shapeOk b true = true ∧ skvSound ((s12 b).slice 7) = true ∧ ((s12 b).slice 7).skv.ord.executed = false := by decide +kernel

theorem test_skiver_tables : df gather12 2 33 0 + df gather12 2 63 34 * df gather12 3 31 0 ≤ sliceBytes ∧
    df scatter12 2 33 0 + df scatter12 2 63 34 * df scatter12 3 31 0 ≤ sliceBytes := by decide +kernel

def result12 (o : Host.Outcome State Fault Refusal) : List Half :=
  match o with
  | .next u => (u.slice 7).skv.ord.dels.flatMap (fun d => (chunksOf 4 d.bytes.length d.bytes).map (fun w => BitVec.ofNat 32 (leNat w)))
  | _ => []

def attend12e : List Byte :=
  words12 [0x2800000000000000, 0x0100005000000001, 0x0001000000000000, (1 <<< 49) + (1 <<< 44) + (2 <<< 35) + (2 <<< 27), 0x40801, 0x3F800000, 0]

/-- R347: without pages the lane's partial is (−∞, +0, +0, +0). -/
theorem test_sk_attend : result12 (exec (.skAttend 7 false) (s12 attend12e)) = [0xFF800000, 0, 0, 0] := by decide +kernel

/-- Sum of rows 1 and 0: (3, 2); the second bag's offsets fall: it is empty. -/
theorem test_sk_gather : result12 (exec (.skGather 7 false) (s12 gather12)) = [0x40400000, 0x40000000, 0, 0] := by decide +kernel

/-- Rows (1, 1) and (2, 1) against the query (1, 1): scores 2 and 3 with indices 5 and 6, and the filler pair. -/
theorem test_sk_topk : result12 (exec (.skTopk 7 false) (s12 topk12)) =
    [6, 0x40400000, 5, 0x40000000, 0xFFFFFFFF, 0x7FC00000, 0, 0] := by decide +kernel

theorem test_sk_scatter : goesWith (exec (.skScatterAdd 7 false) (s12 scatter12)) (fun u =>
    decide (dramRow u 7 64 16 = [1, 0, 0, 0, 0, 0, 0, 0, 0, 0, 0x80, 0x3F, 0, 0, 0, 0x40])) = true := by decide +kernel

theorem test_sk_fill : goesWith (exec (.skFill 7 false) (s12 fill12)) (fun u => decide (dramRow u 7 199 9 = [0, 0x44, 0x33, 0x22, 0x11, 0x44, 0x33, 0x22, 0x11]))
    = true := by decide +kernel

/-- A posting from thread 1 of core 5 to slice 7, whose ordinary context is idle. -/
def msg12 : Msg := { id := 1, sender := .thread 0 5 1, target := .skiver none 7 false 1, hdr := 0x7000000000000000, payload := fill12.drop 8, cls := 2, form := .blocking }
def s12p : State := { s12 fill12 with msgs := [msg12], nextId := 2, slices := [(7, { clkOk := true, ready := true, mem := mem12, skv := { skv12 [] with ord := {} } })] }

theorem test_posting_witness : s12p.msg 1 = some msg12 ∧ heldBack s12p msg12 = false ∧ postStatus s12p msg12 7 false 1 = stOk ∧ s12p.lat.id.toNat = 0 := by
  decide +kernel

theorem test_posting : goesWith (exec (.skiverPosting 1) s12p) (fun u => decide (((u.slice 7).skv.ord.queue.map (·.bytes)) = [fill12])
    && decide ((u.msg 1).map (·.status) = some (some 0))) = true := by decide +kernel

/-- A closed skiver refuses. -/
theorem test_posting_closed : postStatus (s12p.modSlice 7 (fun x => { x with skv := { x.skv with ctl := 0x7E } })) msg12 7 false 1 = stClosed := by
  decide +kernel

def desc12 : SkvDesc := { bytes := fill12, core := 5, thr := 1, byCp := false, dev := 0, cls := 2 }
def s12q : State := (s12p.modSlice 7 (fun x => { x with skv := { x.skv with ord := { queue := [desc12] }, careas := [(0, { used := true })] } }))
theorem test_start_witness : ((s12q.slice 7).skv.ctx false).queue = desc12 :: [] ∧ s12q.sliceFenced 7 = false ∧
    ({ s12q with pwr := { s12q.pwr with state := 0, target := 0 } } : State).active = true := by decide +kernel

/-- An issued message delivery and its message. -/
def del12 (st : Nat) : SkvDel × Msg :=
  ({ addr := 0x0100005000000001, bytes := [], hdr := some 7, issued := true, msg := 4 },
   { id := 4, sender := .skiver 0 7, target := .queue none 5 0 1, hdr := 7, payload := [], cls := 2, form := .other, status := some st })
def s12d (st : Nat) : State :=
  { s12p with msgs := [(del12 st).2] }.modSlice 7 (fun x => { x with skv := { x.skv with ord := { desc := some desc12, executed := true, dels := [(del12 st).1] } } })

theorem test_delivery_full : goesWith (exec (.skvDeliveryStatus 7 false) (s12d stFull)) (fun u =>
    decide ((u.slice 7).skv.ord.dels = [{ (del12 0).1 with issued := false }]) && decide (u.msg 4 = some { (del12 stFull).2 with slot := 128, parked := true })) = true := by decide +kernel

theorem test_delivery_refused : goesWith (exec (.skvDeliveryStatus 7 false) (s12d stClosed)) (fun u =>
    decide ((u.slice 7).skv.ord.dels = []) && decide ((u.slice 7).skv.ord.status = 3) && decide ((u.slice 7).skv.err = 0x10000)) = true := by decide +kernel

/-- The sets out of a message and of a keeper write are accepted. -/
theorem test_sk_delivery_witness : (sendMsg s12p (resultMsg s12p 7 { (del12 0).1 with issued := false, msg := 0 } 7 2)).isSome = true ∧
    (resendMsg s12p { (del12 stFull).2 with slot := 128, parked := true }).isSome = true ∧
    (match (sendReq s12p 519 2 (.write 0x028002800000 [1] [true])).1 with | .slot n => n == 0 | _ => false) = true ∧
    (match decodeLocal 0x028002800200 with | .spad e o => e == 5 && o == 0x200 | _ => false) = true := by decide +kernel

/-- Slice 7 delivers one byte to row 1 of core 5, whose keeper takes it (R354, R355). -/
def s12k : State := usedPort 519 (((s12d 0).modSlice 7 (fun x => { x with skv := { x.skv with ord := { x.skv.ord with dels :=
  [{ addr := 0x028002800200, bytes := [9], hdr := none }] } } })).modCore 5 (fun x => { x with keep := { x.keep with k :=
    [(2, { base := 1, bound := 4, scope := 1, wr := true, rd := true, en := true })] } }))

theorem test_keeper_delivery : goesWith (exec (.skvResultDelivery 7 false ⟨.ok, []⟩) s12k) (fun u => decide (readByte (u.core 5).spad.mem.bytes 0x200 = 9)
    && decide ((u.slice 7).skv.ord.dels.map (fun d => (d.issued, d.status)) = [(true, some 0)])) = true := by decide +kernel

theorem test_sk_complete : goesWith (exec (.skvDescriptorComplete 7 false) (s12d 0 |>.modSlice 7 (fun x =>
      { x with skv := { x.skv with ord := { x.skv.ord with dels := [], status := 3 } } }))) (fun u =>
    decide ((u.slice 7).skv.ord = {}) && decide ((u.slice 7).skv.err = 1) && decide ((u.slice 7).skv.errInfo.toNat / 2 ^ 23 = 0x137)) = true := by
  decide +kernel

theorem test_buffer_witness : bufAdmits ((s12p.slice 7).skv) .cp false 2 = true ∧ 2 < bufTop (s12p.slice 7).skv ∧ s12p.drowsy = false ∧
    bufAdmits { (s12p.slice 7).skv with bwin := 0x30001 } .cp false 0 = false ∧ bufTop { (s12p.slice 7).skv with bwin := 0x30001 } = 4 := by decide +kernel

theorem test_buffer_read : goesWith (exec (.skvBufferAccess .cp 7 (.read 1026 2)) s12p) (fun u =>
    decide (u.reply = some { status := .ok, data := [0x80, 0x3F] })) = true := by decide +kernel

/-- All slices but slice 7 are fenced: the north edge reaches it alone. -/
def s12w : State := { s12p with slices := (countFrom 0 80).map (fun k => (k, if k = 7 then s12p.slice 7 else { fenced := true })) }

theorem test_edge : (goesWith (exec (.edgeWindowWrite .cp false 3 [9] [true]) s12w) (fun u => decide (u.reply = some { status := .ok }) && decide (bufByte u 7 3 = 9))
    && goesTo (exec (.edgeWindowWrite .cp true 3 [9] [true]) s12w) (s12w.answer { status := .unreach })) = true := by decide +kernel

/-! ## Fabric and latigo -/

/-- All cores of row 0 admit writes of the die to rows 1 to 4; HBM slice 48 serves. -/
def s13 : State := usedPort 593 { s1 with
  host := { s1.host with ready := true }
  cores := (countFrom 0 64).map (fun c => (c, { keep := { k := [(2, { base := 1, bound := 4, scope := 1, wr := true, rd := true, en := true })] } }))
  slices := [(48, { clkOk := true, ready := true, mem := { bytes := [(0x28, 6)] } })] }

theorem test_multicast : goesWith (exec (.meshMulticastWrite .cp .row 0 (BitVec.ofNat 25 (3 * 0x400000 + 0x200)) [7] [true]) s13) (fun u =>
    decide (u.reply = some { status := .ok }) && decide (readByte (u.core 11).spad.mem.bytes 0x200 = 7) && decide (readByte (u.core 12).spad.mem.bytes 0x200 = 0))
    = true := by decide +kernel

theorem test_multicast_witness : accWf (.write 0x200 [7] [true]) = true ∧ s13.drowsy = false ∧ (∀ j : Fin 8, s13.coreFenced (8 * j.val + 3) = false ∧
    spadClean (s13.core (8 * j.val + 3)) = true ∧ (findKeeper (s13.core (8 * j.val + 3)).keep.k true (srcClass .cp (8 * j.val + 3)) 1 16 0).isSome = true) ∧
    agentPort .cp = some 593 ∧ (match (sendReq s13 593 1 (.write (windowAddr false 0 (3 * 0x400000 + 0x200)) [7] [true])).1 with
      | .slot n => n == 0 | _ => false) = true := by
  decide +kernel

/-- A packet with its check word. -/
def pkt13 (h : Packet) (payload : List Byte) : Packet := { h with crc := crc32c (packetHead h ++ payload) }
/-- The command processor's read, and write, of HBM; `addr13` is byte 0x28 of slice 48. -/
def addr13 : BitVec 48 := 0x30028
def read13 : Packet := pkt13 { dest := 0, src := 593, kind := .read, slot := 4, gen := true, crc := 0 } []
def write13 : Packet := pkt13 { dest := 0, src := 593, kind := .write, slot := 4, gen := true, crc := 0 } [5]

/-- CRC-32C of the bytes "123456789" (R379 names the code; its check value is the code's own). -/
theorem test_crc : crc32c ([0x31, 0x32, 0x33, 0x34, 0x35, 0x36, 0x37, 0x38, 0x39] : List Byte) = 0xE3069283 := by decide +kernel

theorem test_arrival_witness : Packet.isRequest .cp read13 addr13.toNat (.read 0 1) = true ∧ Packet.isRequest .cp write13 addr13.toNat (.write 0 [5] [true]) = true ∧
    packetCrcOk read13 [] = true ∧ packetCrcOk write13 [5] = true ∧ packetCrcOk read13 [5] = false ∧ targetOf s13 addr13.toNat = some 560 ∧
    (dupGet s13 560 593 4).gen ≠ true ∧ (dupGet s13 560 593 4).valid = false ∧ Packet.isRequest (.peer 3) { read13 with src := 595 } addr13.toNat (.read 0 1) = true ∧
    peerMay s13 addr13.toNat = false ∧ Packet.isRequest (.peer 3) read13 addr13.toNat (.read 0 1) = false := by decide +kernel
theorem test_arrival_memory_witness : hbmAt s13 s13.smap addr13.toNat 1 48 0x28 := by
  refine ⟨?_, ?_, ?_, ?_, ?_, ?_, ?_, ?_, ?_⟩ <;> decide +kernel

theorem test_arrival : goesWith (exec (.meshArrival .cp read13 addr13 (.read 0 1) ⟨.ok, []⟩) s13) (fun u =>
    decide (u.reply = some { status := .ok, data := [6] })) = true := by decide +kernel
/-- R379: a packet with a bad check word is counted at the target's cluster and does nothing else. -/
theorem test_bad_check : goesWith (exec (.meshArrival .cp { write13 with crc := 0 } addr13 (.write 0 [5] [true]) ⟨.ok, []⟩) s13) (fun u =>
    decide (readByte (u.slice 48).mem.bytes 0x28 = 6) && decide ((u.cluster (unitCluster 560)).crc = 1) && decide (u.reply = none)) = true := by decide +kernel

/-- Core 3's slot 4 has a class-2 request outstanding on the mesh after 4 attempts; 500 pacer units have passed (R380). -/
def s13o : State := { (usedPort 560 (usedPort 0 s13)).modPort 3 (fun x => x.modSlot 4 (fun y => { y with busy := true, cls := 2, attempts := 4, cm := true })) with clusters := [(0, { pacer := 500 })] }
/-- Its response, with its mark's echo. -/
def answer13 (gen : Bool) : Packet := pkt13 { dest := 0, src := 560, kind := .status, slot := 4, rsp := true, gen := gen, cls := 2, ce := true, crc := 0 } [0]

theorem test_response : goesWith (exec (.meshResponse 3 (answer13 false) [0]) s13o) (fun u => decide ((u.port 3).slot 4 = { gen := true })
    && decide ((u.port 3).win 2 = { win := 64, since := 1, good := 0 })) = true := by decide +kernel
/-- R382: a late response of another generation is discarded. -/
theorem test_late_response : goesWith (exec (.meshResponse 3 (answer13 true) [0]) s13o) (fun u => decide ((u.port 3).slot 4 = (s13o.port 3).slot 4)
    && decide ((u.port 3).win 2 = (s13o.port 3).win 2)) = true ∧
    responseOf (answer13 false).kind [0] = some (0, []) ∧ packetLenOk false (answer13 false) = true := by decide +kernel

theorem test_resend : goesWith (exec (.meshResendTimeout 3 4) s13o) (fun u => decide ((u.cluster 0).fault = 1) && decide ((u.cluster 0).resend = 1)
    && decide (((u.port 3).slot 4).attempts = 5) && decide (u.cp.notices = [⟨4, 0x10000, 0x400000001⟩])) = true := by decide +kernel

theorem test_resend_witness : s13o.cp.streams = [] ∧ s13o.cp.notices.length < 256 ∧ (s13o.cluster (portCluster 3)).retryMax = 4 ∧ s13o.cp.injWait = [] ∧
    ((s13o.port 3).slot 4).dest.remote = false ∧ goesTo (exec (.meshResendTimeout 3 4) { s13o with clusters := [(0, { pacer := 499 })] })
      { s13o with clusters := [(0, { pacer := 499 })] } = true := by decide +kernel

/-- A slice port's bucket gains its rate once for 10 units of the stack clock (R29, R391). -/
theorem test_refill : (let s := fun (c : Nat) => { s13 with slices := [(7, { clock := c, stb := { en := true, depth := 20, rate := 8, tokens := 15 } })] }
    goesWith (exec (.tokenBucketRefill 519) (s 102400)) (fun u => decide ((u.slice 7).stb.tokens = 20)) &&
    goesWith (exec (.tokenBucketRefill 519) (s 102399)) (fun u => decide ((u.slice 7).stb.tokens = 15))) = true := by decide +kernel

/-- R385: 3 of 12 packets marked. -/
theorem test_cmap : goesWith (exec .cmapGather { s13 with mgmt := { s13.mgmt with fwRun := true }, fabric := { s13.fabric with pkts := [(64 + 5, 12)], marked := [(64 + 5, 3)] } })
    (fun u => decide (tget (fun _ => 0) u.fabric.cmap (64 + 5) = 64)) = true := by decide +kernel

/-- Link 3 is up and leads to column 1 of row 0, where device 1 stands; this is device 0. -/
def s13l : State := { s13 with lat := { s13.lat with links := [(3, { st := 2, lanes := 3, peer := 1 })], rows := [(1, 8)], groups := [(0, { locked := true })] } }
/-- A read of 8 bytes of HBM by device 1, and the same frame between other devices: class 0, slot 5, port 7. -/
def frame13 (ddev sdev : Nat) : Frame :=
  let w0 := sdev * 2 ^ 54 + ddev * 2 ^ 44 + 5 * 2 ^ 24 + 7 * 2 ^ 13 + 1 * 2 ^ 9
  { w0 := BitVec.ofNat 64 w0, w1 := 0x30020, w2 := BitVec.ofNat 64 (8 * 2 ^ 32) ||| (frameCrc w0 0x30020 []).zeroExtend 64, w3 := 0,
    payload := List.replicate 32 0, fecOk := true }
def s13k : State := { s13l with lat := { s13l.lat with memen := true } }

theorem test_frame_witness : linkUsable s13k 3 = true ∧ (frame13 0 1).ok (linkPerica s13k 3) = true ∧ (frame13 0 1).len = 1 ∧ framesCrcOk [frame13 0 1] = true ∧
    (frame13 0 1).ddev = s13k.lat.id.toNat ∧ s13k.lat.parts = [] ∧ peerMay s13k ((frame13 0 1).w1.toNat % 2 ^ 48) = true ∧ (frame13 0 1).kind = 0 ∧
    gangLink s13k (minimalHop 0 1) = some 3 ∧ (frame13 0 1).cls = 0 ∧ linkPerica s13k 3 = false ∧ peerMay s13l 0x30020 = false ∧
    Sys2Proof.Claims.forwardLink s13k (frame13 1 2) = some 3 ∧ Sys2Proof.Claims.forwardLink s13k (frame13 2 1) = none ∧ (frame13 1 2).ok false = true := by
  decide +kernel

def outFrames (l : List Out) : List (Nat × Frame) := l.filterMap (fun o => match o with | .frame l f => some (l.val, f) | _ => none)

/-- R406, R411: a peer's read is performed, and its data leaves over link 3 in one frame. -/
theorem test_peer_read : goesWith (exec (.frameReceive 3 (frame13 0 1)) s13k) (fun u =>
    decide ((outFrames u.outbox).map (fun p => (p.1, p.2.payload.take 8)) = [(3, [0, 0, 0, 0, 0, 0, 0, 0])])) = true := by decide +kernel
/-- R407: a frame for device 1 goes on over link 3. -/
theorem test_forward : goesWith (exec (.frameReceive 3 (frame13 1 2)) s13k) (fun u =>
    decide ((outFrames u.outbox).map (·.1) = [3])) = true := by decide +kernel

theorem test_latigo_multicast : goesWith (exec (.latigoMulticast .cp .row 64 [5] [(1, .ok)]) s13k) (fun u => decide (reached s13k .row = [1])
    && decide ((outFrames u.outbox).map (fun p => (p.1, p.2.payload.take 2)) = [(3, [5, 0])])) = true := by decide +kernel

theorem test_training : goesWith (exec (.linkTraining 4 (.exchange 9)) (s13k.modLink 4 (fun x => { x with st := 1, stage := 2 }))) (fun u =>
    decide ((u.link 4).st = 2) && decide ((u.link 4).peer = 9)) = true := by decide +kernel

theorem test_link_down : goesWith (exec (.linkDown 3) s13k) (fun u => decide ((u.link 3).st = 0) && decide (u.cp.notices.map (·.result1) = [3])) = true := by
  decide +kernel

/-! ## Host interface -/

def hdm14 : HdmDec := { base := 0x080000000000, size := 0x20000000000, committed := true }
/-- CXL.mem and bus mastering are on; slices 0 to 3 make up the map; slice 7 serves too; pair 2 exists. -/
def s14 : State :=
  let x : SliceSt := { clkOk := true, ready := true, mem := { bytes := [(64, 0x33), (130, 5)] } }
  { usedPort 592 s1 with
    slices := [(0, x), (1, x), (2, x), (3, x), (7, { x with skv := { ctl := 0xFE, bwin := 0x7FF0000, buf := { bytes := [(0x400, 7)] } }, dir := [{ line := 1, exclusive := true, snoop := some true }, { line := 2, exclusive := true }] })]
    smap := { s1.smap with bits := 15 }
    host := { s1.host with mem := true, busMaster := true, ready := true, mode := 1, apBase := 8, apSize := 2, msixEn := true, hdm := [(0, hdm14)] }
    mgmt := { s1.mgmt with booted := true }
    cp := { s1.cp with rings := [(2, { exist := true, version := 2, sqLog2 := 4, cqLog2 := 4 })] } }

/-- DPA 0x5040 of the slice view of slice 7, and a DPA that decodes to no byte. -/
def dpa14 : BitVec 52 := BitVec.ofNat 52 (2 ^ 40 + 7 * 2 ^ 34 + 64)
theorem test_host_line_witness : s14.host.mem = true ∧ Sys2Proof.Claims.cmUp s14 ∧ Sys2Proof.Claims.ioTakes s14 ∧ s14.mgmt.booted = true ∧
    s14.mgmt.recovery = false ∧ s14.waits = [] ∧ (fabAlloc s14 592 s14.host.cls.toNat false (.unit 519) 1).map (·.1) = some 0 ∧
    (fabAlloc s14 592 s14.host.cls.toNat false (.unit 519) 2).map (·.1) = some 0 ∧ dpaPlace s14 dpa14.toNat = some (7, 64) ∧ sliceServes s14 7 = true ∧
    dpaPlace s14 0xF000000000 = none ∧ (s14.slice 7).dir.length = 2 := by
  refine ⟨?_, ⟨?_, ?_⟩, ⟨⟨?_, ?_, ?_⟩, ?_⟩, ?_, ?_, ?_, ?_, ?_, ?_, ?_, ?_, ?_⟩ <;> decide +kernel
/-- R429: no committed decoder, no decoded byte; R500: before stage 9 a request waits; R510: a closed port takes none. -/
theorem test_no_decoder : dpaPlace { s14 with host := { s14.host with hdm := [] } } dpa14.toNat = none ∧
    goesWith (exec (.memrd dpa14 true false) { s14 with mgmt := {} }) (fun u => decide (u.waits.length = 1)) = true ∧
    goesTo (exec (.memrd dpa14 true false) { s14 with cp := { s14.cp with portOut := true } }) { s14 with cp := { s14.cp with portOut := true } } = true := by
  decide +kernel

theorem test_memrd : goesWith (exec (.memrd dpa14 false false) s14) (fun u => decide (u.reply.map (·.data.take 2) = some [0x33, 0])) = true := by decide +kernel
/-- R431's example: two decoders, three host addresses and one that none takes. -/
theorem test_hdm : goesWith (exec (.hdmDecoderCommit 0 0x080000000000 0xF000000000 0 1) s14) (fun t =>
    goesWith (exec (.hdmDecoderCommit 1 0x090000000000 0x14000000000 0x1000000000 1) t) (fun u =>
      decide ([0x081234567ABC, 0x095C3A411ABC, 0x090300000000, 0x0A4000000000].map (hdmDpa u) = [some 0x1234567ABC, some 0x15C3A411ABC, some 0x10300000000, none]))) = true := by
  decide +kernel
theorem test_memrd_none : goesWith (exec (.memrd (BitVec.ofNat 52 0xF000000000) true false) s14) (fun u =>
    decide (u.reply.map (·.poison) = some true) && decide (u.host.memErr = 1)) = true := by decide +kernel

theorem test_bisnp : goesWith (exec (.bisnp 7 2 false) s14) (fun u => decide (u.outbox = [.biSnoop 7 2 false])) = true := by decide +kernel
theorem test_birsp : goesWith (exec (.birsp 7 1 true (some (List.replicate 64 9))) s14) (fun u =>
    decide ((u.slice 7).dir.map (·.line) = [2]) && decide (readByte (u.slice 7).mem.bytes 127 = 9)) = true := by decide +kernel

theorem test_doorbell : goesWith (exec (.doorbellWrite 2 0xFF8 5) s14) (fun u => decide ((u.ring 2).sqTail = 5) && !(u.ring 2).error) = true := by decide +kernel
theorem test_doorbell_error : goesWith (exec (.doorbellWrite 2 0xFF8 0x10005) s14) (fun u => decide ((u.ring 2).sqTail = 0) && (u.ring 2).error
    && decide (u.cp.notices = [⟨2, 12, 2⟩])) = true := by decide +kernel
/-- R26, R427: a packet that finds the slot full waits. -/
theorem test_mailbox_waits : goesWith (exec (.hostMailboxPacket (List.replicate 64 2)) { s14 with host := { s14.host with mailIn := some [1] } })
    (fun u => decide (u.host.mailIn = some [1] ∧ u.host.mailQueue = [List.replicate 64 2])) = true := by decide +kernel
theorem test_mailbox : goesWith (exec (.hostMailboxPacket (List.replicate 64 1)) s14) (fun u => decide (u.host.mailIn = some (List.replicate 64 1))) = true := by
  decide +kernel

/-- Byte 0x400 of the buffer of slice 7 at its BAR2 offset; a function in D3hot drops the read (R420). -/
def off14 : BitVec 28 := BitVec.ofNat 28 (0x1000000 + 7 * 0x200000 + 0x100000 + 0x400)
def isBuf14 : Bool := match decodeLocal (0x030000000000 + off14.toNat) with | .skvBuf k o => k == 7 && o == 0x400 | _ => false
theorem test_bar2_witness : isBuf14 = true ∧ Sys2Proof.Claims.sliceServes s14 7 = true ∧
    Sys2Proof.Claims.bufAdmits (s14.slice 7).skv .host false 2 = true ∧ Sys2Proof.Claims.bufAdmits { (s14.slice 7).skv with ctl := 0 } .host false 2 = false ∧
    2 < Sys2Proof.Claims.bufTop (s14.slice 7).skv ∧
    (match (sendReq s14 592 s14.host.cls.toNat (.read (0x030000000000 + off14.toNat) 4)).1 with | .slot n => n == 0 | _ => false) = true := by decide +kernel
theorem test_bar2 : goesWith (exec (.bar2Read off14 4) s14) (fun u => decide (u.reply.map (·.data) = some [7, 0, 0, 0])) = true ∧
    goesTo (exec (.bar2Read off14 4) { s14 with host := { s14.host with d3hot := true } }) { s14 with host := { s14.host with d3hot := true } } = true := by decide +kernel

theorem test_unmask : goesWith (exec (.msixUnmask 4) { s14 with host := { s14.host with msix := [(4, { addr := 0xFEE0, data := 3, masked := true, pending := true })] } })
    (fun u => decide (u.outbox = [.msix 0xFEE0 3])) = true := by decide +kernel

theorem test_aperture : goesWith (exec (.hostApertureAccess .cp (.write 0x10 [1, 2] [true, true])) s14) (fun u =>
    decide (u.outbox = [.hostWrite 0x8010 [1, 2] [true, true], .hostRead 0x8010 0])) = true := by decide +kernel
theorem test_aperture_limit : goesTo (exec (.hostApertureAccess .cp (.read 0x1FFF 2)) s14) (s14.answer { status := .unreach }) = true := by decide +kernel
def s14w : State := { s14 with host := { s14.host with waiting := [{ agent := some .cp, hpa := 0x8000, acc := .read 0 2 }] } }
theorem test_completion : goesWith (exec (.hostApertureCompletion .success [4, 5]) s14w) (fun u => decide (u.reply = some { status := .ok, data := [4, 5] }))
    = true := by decide +kernel

/-- R432: the same as a request of the command processor's slot 100, which ends with it. -/
def s14v : State := { (s14.modPort 593 (fun x => { x with slots := [(100, { gen := true, busy := true })] })) with
  host := { s14.host with waiting := [{ agent := some .cp, hpa := 0x8000, acc := .read 0 2, slot := some (593, 100, true) }] } }
theorem test_slot_completion : goesWith (exec (.hostApertureCompletion .success [4, 5]) s14v) (fun u => !((u.port 593).slot 100).busy
    && decide (u.reply = some { status := .ok, data := [4, 5] })) = true := by decide +kernel
/-- R24: neither the host nor the management plane has a way to the aperture; R406: a peer has none. -/
theorem test_aperture_agents : goesTo (exec (.hostApertureAccess .mgmt (.read 0 2)) s14) s14 = true ∧
    goesTo (exec (.hostApertureAccess (.peer 3) (.read 0 2)) s14) (s14.answer { status := .nowin }) = true ∧
    Sys2Proof.Claims.apertureGoes s14 0 2 := by refine ⟨?_, ?_, ?_, ?_, ?_, ?_, ?_⟩ <;> decide +kernel

/-- A MEM_COPY of the host mailbox that reads host memory is the command that waits for the host. -/
def cmd14 : Cmd := { id := 1, ring := none, pos := 0, tag := 9, opcode := 0x10, version := 2, quiet := false, seq := false, params := [0x8000000000000040, 0, 64] }
def s14c : State := { s14 with cp := { s14.cp with cmds := [cmd14] }, nextId := 2 }
theorem test_timeout_witness : s14c.cpUp = true ∧ s14c.cp.cmds.find? (fun c => !c.started && mayStart s14c c && (hostAddrOf c).isSome) = some cmd14 ∧
    s14c.cmd cmd14.id = some cmd14 ∧ s14c.host.mailOut = none := by decide +kernel
theorem test_timeout : goesWith (exec (.completionTimeout true) s14c) (fun u => decide (u.cp.cmds = []) && u.host.mailOut.isSome) = true := by decide +kernel

theorem test_clear_events : goesWith (exec (.clearEventRecords 1 [7]) { s14 with host := { s14.host with events := [(7, 1, []), (7, 2, []), (8, 1, [])] } }) (fun u =>
    decide (u.host.events.map (·.1) = [7, 8])) = true := by decide +kernel

/-- R423: an opcode that is none of the six. -/
theorem test_unsupported (s : State) (b : List Byte) : mailboxRun s (Config.identifyOpcode + 0x4301) b = (3, [], s) := by
  unfold mailboxRun
  rw [if_neg (by omega)]
  split <;> first | omega | rfl

/-! ## Commands -/

/-- A command of the host mailbox with these parameters, in progress. -/
def cmd15 (op : Nat) (ps : List Word) : Cmd :=
  { id := 1, ring := none, pos := 0, tag := 0x107, opcode := op, version := 2, quiet := false, seq := false, params := ps }
/-- The same as a Perica packet of pair 2, whose CORE_BASE is 64. -/
def cmd15p (pop : Nat) (ps : List Word) : Cmd :=
  { id := 1, ring := some 2, pos := 1, tag := 0x107, opcode := pop, version := 1, quiet := false, seq := false, params := ps, base := 64 }
/-- Ring memory holds 1 to 8 from 0x100 on; a free map of slices 0 and 7; slices 0 and 7 serve. -/
def s15 (c : Cmd) : State :=
  let x : SliceSt := { clkOk := true, ready := true }
  usedPort 512 <| usedPort 519 <| usedPort 593 { s14 with
    slices := [(0, x), (7, x)]
    smap := { bits := 0x81, n := 2 }
    host := { s14.host with ring := { bytes := [(0x100, 1), (0x101, 2), (0x102, 3), (0x103, 4), (0x104, 5), (0x105, 6), (0x106, 7), (0x107, 8)] } }
    cp := { s14.cp with cmds := [c], rings := [(2, { exist := true, version := 1, sqLog2 := 4, cqLog2 := 4, cplBase := BitVec.ofNat 64 (2 ^ 62 + 0x1000), reserved := 1, vec := 5 })] }
    nextId := 2 }
def ringAt (a : Nat) : Word := BitVec.ofNat 64 (2 ^ 62 + a)
def sliceAt (k a : Nat) : Word := BitVec.ofNat 64 (2 ^ 40 + k * 2 ^ 34 + a)

theorem test_turn_witness : Goes (s15 (cmd15 0 [])) 1 (cmd15 0 []) 0 false ∧ Goes (s15 (cmd15p 1 [])) 1 (cmd15p 1 []) 0 true ∧
    ringHere ((s15 (cmd15p 1 [])).ring 2) := by
  unfold Goes InTurn ringHere; decide +kernel

/-- An earlier SLICE_MAP_SET in progress holds the map: BUSY. -/
def s15b : State :=
  { s15 (cmd15 0x31 [1, 0, 0, 1]) with
    cp := { s14.cp with cmds := [{ cmd15 0x31 [1, 0, 0, 1] with id := 0, started := true, ring := some 3 }, cmd15 0x31 [1, 0, 0, 1]] } }
theorem test_busy_witness : InTurn s15b 1 (cmd15 0x31 [1, 0, 0, 1]) 0x31 false ∧ heldByOther s15b (cmd15 0x31 [1, 0, 0, 1]) = true := by
  unfold InTurn; decide +kernel

/-- Status and results of the reply in the host mailbox. -/
def reply15 (o : Host.Outcome State Fault Refusal) : Nat × Nat × Nat :=
  match o with
  | .next u => match u.host.mailOut with
    | some b => (bitsOf (leNat (b.take 8)) 39 32, leNat (slice b 16 8), leNat (slice b 24 8))
    | none => (99, 0, 0)
  | _ => (98, 0, 0)

theorem test_busy : reply15 (exec (.sliceMapSet 1) s15b) = (1, 0, 0) := by decide +kernel

def create15 : Cmd := cmd15 1 [0x1010002 ||| 0x200, ringAt 0x2000, ringAt 0x3000, 0x54]
theorem test_ring_create : goesWith (exec (.ringCreate 1) { s15 create15 with cp := { (s15 create15).cp with rings := [] } }) (fun u =>
    (u.ring 2).exist && (u.ring 2).notice && decide ((u.ring 2).sqLog2 = 4) && decide ((u.ring 2).cqLog2 = 5) && decide ((u.ring 2).vec = 1)) = true := by
  decide +kernel
theorem test_ring_exists : reply15 (exec (.ringCreate 1) (s15 create15)) = (2, 4, 0) := by decide +kernel
theorem test_ring_delete : goesWith (exec (.ringDelete 1) (s15 (cmd15 2 [2]))) (fun u => !(u.ring 2).exist && u.host.mailOut.isSome) = true := by decide +kernel

/-- 8 bytes of ring memory to slice 7, at an odd offset. -/
def copy15 : Cmd := cmd15 0x10 [ringAt 0x100, sliceAt 7 0x1F0D, 8]
theorem test_mem_copy : goesWith (exec (.memCopy 1 ⟨.ok, []⟩) (s15 copy15)) (fun u => decide (readBytes (u.slice 7).mem.bytes 0x1F0C 10 = [0, 1, 2, 3, 4, 5, 6, 7, 8, 0])) = true := by
  decide +kernel
/-- Ascending order: an overlapping copy two bytes up repeats the first two. -/
theorem test_copy_overlap : goesWith (exec (.memCopy 1 ⟨.ok, []⟩) (s15 (cmd15 0x10 [ringAt 0x100, ringAt 0x102, 6]))) (fun u =>
    decide (readBytes u.host.ring.bytes 0x100 9 = [1, 2, 1, 2, 1, 2, 1, 2, 0])) = true := by decide +kernel
theorem test_cp_idle : cpIdle (s15 copy15) :=
  ⟨by decide +kernel, by decide +kernel, ⟨0, by decide, by decide +kernel⟩, fun _ _ _ _ h => Bool.noConfusion (show false = true from h)⟩
theorem test_copy_witness : copyReady (s15 copy15) (copy15.n 0) (copy15.n 1) (copy15.n 2) 7 0x1F0D := by
  refine ⟨?_, ?_, ?_, ?_, test_cp_idle, ?_, ?_, ?_, ?_, ?_, ?_⟩ <;> decide +kernel

def load15 : Cmd := cmd15p 3 [ringAt 0x100, sliceAt 7 0, 8, 0x20003]
theorem test_load_program_witness : coreRangeOk load15 3 ∧ inCoreRange load15 3 67 = true ∧ inCoreRange load15 3 69 = false ∧ Goes (s15 load15) 1 load15 0x11 true := by
  unfold coreRangeOk Goes InTurn; decide +kernel
theorem test_load_program : goesWith (exec (.pericaLoadProgram 1 ⟨.ok, []⟩) ((s15 load15).modCore 67 (fun x => { x with icache := [(4, List.replicate 64 0)] }))) (fun u =>
    decide ((u.core 67).icache = []) && decide (readByte (u.slice 7).mem.bytes 3 = 4)) = true := by decide +kernel

def map15 : Cmd := cmd15 0x12 [sliceAt 7 0x100, 3, 5, 6, 0x20004]
theorem test_map_witness : (accGlobal regW (begun (s15 map15) 1) .cp ⟨.ok, []⟩
    (.write (map15.n 0 + 16 * map15.n 1) (leBytes 8 (map15.n 2) ++ leBytes 8 (map15.n 3)) (List.replicate 16 true))).any (fun r =>
      decide (r.status = .ok) && decide (r.s.cores = s1.cores) && decide (r.s.clusters = s1.clusters)) = true := by decide +kernel
theorem test_map_segment : goesWith (exec (.mapSegment 1) (s15 map15)) (fun u => decide (((u.core 5).segs.map (·.sel)) = [1, 2, 4])
    && decide (readByte (u.slice 7).mem.bytes 0x130 = 5)) = true := by decide +kernel

/-- Core 5 is fenced and is made anew. -/
def init15 : Cmd := cmd15 0x13 [5, 0x0001000000000400, 7, 8, 9, 10]
theorem test_core_init : goesWith (exec (.coreInit 1) ((s15 init15).modCore 5 (fun x => { x with fenced := true }))) (fun u =>
    !(u.core 5).fenced && decide (((u.core 5).t 0).st = .run) && decide (((u.core 5).t 0).pc = 0x400) && ((u.core 5).t 0).compat
    && decide (((u.core 5).t 0).ssegt = 7) && decide ((u.core 5).segs = []) && decide (((u.core 5).t 1).st = .stopped) && decide ((u.core 5).emstk = 10))
    = true := by decide +kernel
theorem test_core_init_state : reply15 (exec (.coreInit 1) (s15 init15)) = (2, 4, 0) := by decide +kernel

def write15 : Cmd := cmd15 0x14 [BitVec.ofNat 64 (0x030000000000 + 0x400), 1, 0]
theorem test_reg_excluded : reply15 (exec (.regWrite 1) (s15 write15)) = (2, 3, 0) := by decide +kernel

/-- MODE 1: rows 0 and 1 to slice 0, row 2 to slice 7. -/
def place15 : Cmd := cmd15 0x30 [ringAt 0x100, BitVec.ofNat 64 (2 ^ 40 + 0x40), 2, 4, 3, 2]
theorem test_place_rows : [0, 1, 2].map (fun i => placeRow (s15 place15).smap true 3 i 0x40 4) = [(0, 0x40), (0, 0x44), (7, 0x40)] ∧
    [0, 1, 2].map (fun i => placeRow (s15 place15).smap false 3 i 0x40 4) = [(0, 0x40), (7, 0x40), (0, 0x44)] := by decide +kernel
theorem test_place : goesWith (exec (.skvPlace 1 ⟨.ok, []⟩) (s15 (cmd15 0x30 [ringAt 0x100, BitVec.ofNat 64 (2 ^ 40 + 0x40), 2, 4, 1, 2]))) (fun u =>
    decide (readBytes (u.slice 0).mem.bytes 0x3F 4 = [0, 1, 2, 0])) = true := by decide +kernel
theorem test_slice_map : goesWith (exec (.sliceMapSet 1) (s15 (cmd15 0x31 [3, 1, 0, 3]))) (fun u => decide (u.smap.bits = 0x100000003) && decide (u.smap.n = 3)) = true := by
  decide +kernel
theorem test_slice_map_refused : reply15 (exec (.sliceMapSet 1) (s15 (cmd15 0x31 [3, 1, 0, 4]))) = (2, 3, 3) := by decide +kernel
theorem test_route : goesWith (exec (.latRouteSet 1) (s15 (cmd15 0x32 [0x103, 0x30]))) (fun u => decide (tget linkRowDef u.lat.cols 3 = 0x30)) = true := by decide +kernel
theorem test_route_own : reply15 (exec (.latRouteSet 1) (s15 (cmd15 0x32 [0, 0x30]))) = (2, 3, 0) := by decide +kernel
/-- A sweep of slices 6 and 7. -/
theorem test_sweep : goesWith (exec (.sweep 1) (s15 (cmd15 0x33 [0x200060001]))) (fun u => decide ((u.slice 6).sweepLeft = 0x300000000 / 32) && u.host.mailOut.isNone) = true := by
  decide +kernel

theorem test_fence : goesWith (exec (.fence 1) (s15 (cmd15 0x50 [0x20007]))) (fun u => u.sliceFenced 7 && u.host.mailOut.isNone) = true := by decide +kernel
theorem test_fence_settled : reply15 (exec (.fenceChangeSettled 1) (s15 { cmd15 0x50 [0x20007] with started := true })) = (0, 0, 0) := by decide +kernel
theorem test_unfence : goesWith (exec (.unfence 1) ((s15 (cmd15 0x51 [0x20007])).modSlice 7 (fun x => { x with fenced := true }))) (fun u =>
    !u.sliceFenced 7 && decide ((u.slice 7).skv.epoch = 2)) = true := by decide +kernel
theorem test_unit_code : reply15 (exec (.testUnitComplete 1 4 9) (s15 { cmd15 0x52 [5, 2, 0] with started := true })) = (0, 0x900000004, 0) := by decide +kernel
theorem test_unit_state : reply15 (exec (.testUnit 1) (s15 (cmd15 0x52 [5, 2, 0]))) = (2, 4, 0) := by decide +kernel

/-- Packets cross to the management controller and back through slots of one packet: a FENCE waits for the one (R28), its answer
for the other (R20, R26). -/
def s15m (c : Cmd) (up down : Bool) : State :=
  let s := s15 c
  { s with cp := { s.cp with toMgmt := if up then some {} else none, toCp := if down then some {} else none } }
theorem test_fence_waits : goesTo (exec (.fence 1) (s15m (cmd15 0x50 [0x20007]) true false)) (s15m (cmd15 0x50 [0x20007]) true false) = true := by decide +kernel
theorem test_answer_waits : replyWaits (s15m (cmd15 0x51 [0x20007]) false true) 1 = false ∧
    goesWith (exec (.unfence 1) (s15m (cmd15 0x51 [0x20007]) false true)) (fun u => decide (u.cp.cpWait.length = 1) && u.host.mailOut.isNone) = true := by
  decide +kernel
/-- R506: the fence of plane 2 replies once nothing is on it. -/
def s15p (lost : Bool) : State :=
  (s15 { cmd15 0x50 [0x60002] with started := true }).modPort 3 (fun x => x.modSlot 4 (fun y => { y with busy := true, plane := 2, lost := lost }))
theorem test_plane_drains : planeClear (s15p false) 2 = false ∧ planeClear (s15p true) 2 = true ∧ goesTo (exec (.fenceChangeSettled 1) (s15p false)) (s15p false) = true ∧
    reply15 (exec (.fenceChangeSettled 1) (s15p true)) = (0, 0, 0) := by decide +kernel
/-- R512: a slice without its clock does not pass, and one that has its clock does not fail for want of it. -/
theorem test_codes : (let s := s15 { cmd15 0x52 [0x20007, 0x23, 0] with started := true }
    let t := s.modSlice 7 (fun x => { x with clkOk := false })
    goesTo (exec (.testUnitComplete 1 5 0) s) s && goesTo (exec (.testUnitComplete 1 0 0) t) t) = true := by decide +kernel

/-- R459's example: 6,144 strands on queue 4 of cores 64 to 71 in batches of 128. -/
def launch15 : Cmd :=
  cmd15 0x20 [0x0100040000040000, 0x0000008000000A31, 0x1800, 0x0000004000000000, 0, 0x0000000800000008, 0x00000001000007D0]
theorem test_launch_witness : launchHandleOk (launch15.p 0) = true ∧ Goes (s15 launch15) 1 launch15 0x20 false ∧ (((s15 launch15).port 593).slot 0).busy = false ∧
    ((s15 launch15).cp.cmds.all (fun d => decide (d.id = 1) || !launchWaits (s15 launch15) d.id)) = true := by
  unfold Goes InTurn; decide +kernel
theorem test_launch : goesWith (exec (.launchGrid 1) (s15 launch15)) (fun u =>
    decide (u.msgs.map (fun m => (m.target, m.payload)) = [(.queue none 64 4 1, leBytes 8 (128 * 2 ^ 32) ++ leBytes 8 0xA31 ++ leBytes 8 0x4000000000 ++ leBytes 8 0)])
    && decide (((u.cmd 1).bind (·.launch)).map (fun l => (l.total, l.ndone)) = some (48, 8))) = true := by decide +kernel

def lau15 : Launch := { grid := 0xA31, src := .grid 64 4 128 6144 8 0 0, ndone := 8, got := 7, total := 48, sent := 48 }
/-- The eighth completion message: OK with RESULT0 8 and V. -/
theorem test_launch_done : reply15 (exec .launchCompletionMessage (let s := s15 { launch15 with started := true, launch := some lau15 }
    { s with cp := { s.cp with inj := [.message (.cp 0) 0x0000002200000A31 []] } })) = (0, 8, 0x22) := by decide +kernel
/-- Seven within the time limit: TIMEOUT with 7. -/
theorem test_launch_timeout : (let s := s15 { launch15 with started := true, launch := some lau15 }
    reply15 (exec (.launchTimeout 1) { s with mgmt := { s.mgmt with time := 2000000 } })) = (5, 7, 0) := by decide +kernel
/-- Before 2,000 µs of management time nothing happens. -/
theorem test_launch_not_yet : (let s := s15 { launch15 with started := true, launch := some lau15 }
    let s : State := { s with mgmt := { s.mgmt with time := 1999999 } }
    goesTo (exec (.launchTimeout 1) s) s) = true := by decide +kernel
/-- A refused batch: FAULTED, DELIVERY, the core. -/
theorem test_batch_refused : reply15 (exec (.launchBatchStatus 9) (let s := s15 { launch15 with started := true, launch := some { lau15 with sent := 3, msg := some 9 } }
    { s with msgs := [{ id := 9, sender := .cp 0, target := .queue none 67 4 1, hdr := 0, payload := [], cls := 1, form := .other, owner := 1, status := some stClosed }] }))
    = (4, 67, 8 + stClosed * 256 + 3 * 2 ^ 32) := by decide +kernel

/-- A stream from core 5 to core 6. -/
def s15a : State :=
  { s15 (cmd15 0x40 [ringAt 0x200, 1]) with host := { s14.host with ring := { bytes := writeBytes [] 0x200 (leBytes 8 (2 ^ 36 + 2 ^ 32 + 6 * 2 ^ 16 + 5) ++ leBytes 8 10) } } }
theorem test_admit_witness : (⟨BitVec.ofNat 64 (2 ^ 36 + 2 ^ 32 + 6 * 2 ^ 16 + 5), 10⟩ : DeclEnt).ok 0 = true ∧ Goes s15a 1 (cmd15 0x40 [ringAt 0x200, 1]) 0x40 false := by
  unfold Goes InTurn; decide +kernel
theorem test_release : goesWith (exec (.releaseStream 1) (let s := s15 (cmd15 0x41 [0]); { s with cp := { s.cp with streams := [{ num := 0, seq := 1, ents := [⟨0x1100060005, 10⟩] }] } }))
    (fun u => decide (u.cp.streams = []) && u.host.mailOut.isSome) = true := by decide +kernel

/-- A packet of the host mailbox: NOP with TAG 0x55. -/
def packet15 : List Byte := leBytes 8 0x0055000000020000 ++ List.replicate 56 0
theorem test_packet_witness : bitsOf (leNat (packet15.take 8)) 23 16 = 2 ∧ opMasks (leNat (packet15.take 8) % 65536) = some [] ∧
    badParam 0 [] (packetParams packet15) = none := by decide +kernel
theorem test_take : goesWith (exec (.commandTake [] .ok) { s15 create15 with host := { s14.host with mailIn := some packet15 } }) (fun u =>
    decide (u.cp.cmds.map (fun c => (c.id, c.tag, c.opcode)) = [(1, 0x107, 1), (2, 0x55, 0)])) = true := by decide +kernel

/-- R20, R21: a notice of a full injection port waits in it, and moves on in its turn. -/
def s15n : State := let s := s15 launch15
  { s with cp := { s.cp with inj := [.message (.cp 0) 0 [], .notice ⟨4, 1, 2⟩] } }
theorem test_notice_turn : s15n.cpUp = true ∧ goesWith (exec .launchCompletionMessage s15n) (fun u => decide (u.cp.inj = []) && decide (u.cp.notices = [⟨4, 1, 2⟩])
    && decide (u.cp.orphan = 1)) = true := by decide +kernel

/-! ## Power -/

/-- A move to HOLD with quadrant 1 at 700 mV. -/
def hold16 : Cmd := cmd15 0x60 [1, BitVec.ofNat 64 (700 * 2 ^ 16)]
theorem test_power_witness : InTurn (s15 hold16) 1 hold16 0x60 false ∧ heldByOther (s15 hold16) hold16 = false ∧ (∀ q, q < 4 → quadArg hold16 q = 0 ∨ (600 ≤ quadArg hold16 q ∧ quadArg hold16 q ≤ 850)) := by
  unfold InTurn; decide +kernel
/-- R26: with a message in the plane mailbox the command waits; a move's reply waits behind what stands there. -/
def full16 (s : State) : State := { s with cp := { s.cp with toMgmt := some {}, toCp := some {} } }
theorem test_power_mailbox : mailEmpty (s15 hold16) ∧ InTurn (full16 (s15 hold16)) 1 hold16 0x60 false ∧
    goesTo (exec (.setPowerState 1) (full16 (s15 hold16))) (full16 (s15 hold16)) = true := by unfold mailEmpty InTurn; decide +kernel
theorem test_power_begins : goesWith (exec (.setPowerState 1) (s15 hold16)) (fun u => u.pwr.busy && decide (u.pwr.target = 1) && decide (tget cnt16Def u.pwr.vddTarget 1 = 700)
    && u.host.mailOut.isNone) = true := by decide +kernel
theorem test_power_range : reply15 (exec (.setPowerState 1) (s15 (cmd15 0x60 [1, 599]))) = (2, 3, 1) := by decide +kernel
theorem test_power_same : reply15 (exec (.setPowerState 1) (s15 (cmd15 0x60 [0, 0]))) = (0, 0, 0) := by decide +kernel
theorem test_power_hot : reply15 (exec (.setPowerState 1) (let s := s15 (cmd15 0x60 [0, 0])
    { s with pwr := { s.pwr with state := 1, target := 1, tripped := true, tripCause := 1 }, mgmt := { s.mgmt with temps := [(64, 0x6A0)] } })) = (2, 4, 0) := by decide +kernel

/-- A move under way from ACTIVE to HOLD, with its command. -/
def s16 (state target : BitVec 2) : State :=
  let s := s15 { hold16 with started := true }
  { s with pwr := { s.pwr with state := state, target := target, busy := true }, mgmt := { s.mgmt with fwRun := true } }
theorem test_move_witness : holdSettled (s16 0 1) = true ∧ skvEmpty (s16 1 2) = true ∧ powerCmd (s16 0 1) = some { hold16 with started := true } := by decide +kernel
theorem test_hold_told_later : goesWith (exec .powerStateSettled (full16 (s16 0 1))) (fun u => decide (u.cp.cpWait = [{ done := some (1, 0, 0, 0) }]) && !u.pwr.busy) = true ∧
    (∀ m ∈ (s16 0 1).cp.toCp.toList ++ (s16 0 1).cp.cpWait, m.notice = none) ∧ replyWaits (s16 0 1) 1 = false := by decide +kernel
theorem test_hold_reached : goesWith (exec .powerStateSettled (s16 0 1)) (fun u => decide (u.pwr.state = 1) && !u.pwr.busy && u.host.mailOut.isSome) = true := by decide +kernel
theorem test_drowse_reached : goesWith (exec .voltageSlewComplete (s16 2 2)) (fun u => !u.pwr.busy && decide (tget cnt16Def u.pwr.vdd 3 = 500) && u.host.mailOut.isSome) = true := by
  decide +kernel
theorem test_off_rails : goesWith (execPowerStateSettled (let s := s16 1 3; { s with cp := { s.cp with cmds := [] } })) (fun u => decide (u.pwr.state = 3) && u.mgmt.fwRun && decide (u.slices = []) && !u.cpUp) = true := by decide +kernel

/-- A thermal trip by sensor 70 in ACTIVE, with no command in progress. -/
def s16t : State := { s14 with mgmt := { s14.mgmt with fwRun := true } }
theorem test_trip_witness : tripTakes s16t ∧ powerCmd s16t = none ∧ tripIndexOk (.thermalTrip 70) 1 70 ∧ s16t.cp.notices.length < 256 := by
  refine ⟨⟨rfl, by decide⟩, by decide +kernel, Or.inl ⟨70, rfl, rfl, rfl⟩, by decide +kernel⟩
theorem test_trip : goesWith (exec (.thermalTrip 70) s16t) (fun u => u.pwr.tripped && decide (u.pwr.tripIndex = 70) && decide (u.pwr.target = 1)
    && decide (u.cp.notices = [⟨4, 0x90000, 0x4600000104⟩]) && decide (u.mgmt.bmc = [[0x7E, 1, 70]])) = true := by decide +kernel
/-- A rail of the SerDes: only the BMC is told, and the rails fall. -/
theorem test_rail_trip : goesWith (exec (.railTrip 9) s16t) (fun u => decide (u.pwr.state = 3) && decide (u.mgmt.bmc = [[0x7E, 2, 9]]) && decide (u.cp.notices = [])) = true := by
  decide +kernel
/-- Pair 2 takes notices into ring memory. -/
def s16n : State :=
  { s14 with cp := { s14.cp with notices := [⟨3, 5, 6⟩],
                                 rings := [(2, { exist := true, version := 2, notice := true, sqLog2 := 4, cqLog2 := 4, cplBase := BitVec.ofNat 64 (2 ^ 62 + 0x1000) })] } }
/-- R484: a trip's notice goes to the pair that takes notices, and only after it the SET_POWER_STATE that the trip has ended
replies FAULTED with TRIP. -/
def s16x : State := { s16n with cp := { s16n.cp with cmds := [{ hold16 with started := true }] }, pwr := { s16n.pwr with tripCmd := some (1, 3, 2), busy := true, target := 1 } }
theorem test_trip_ends : reply15 (exec .noticeDelivery s16x) = (4, 0x90000, 0x200000304) := by decide +kernel
theorem test_trip_ends_later : mailEmpty (s16 0 2) ∧ calm (s16 0 2) ∧ noticePair (s16 0 2) = none ∧
    goesWith (exec (.currentTrip 2) (s16 0 2)) (fun u => decide (u.pwr.tripCmd = some (1, 3, 2)) && u.host.mailOut.isNone && decide (u.pwr.target = 1)) = true := by
  unfold mailEmpty calm; decide +kernel
/-- R484: the rails fall once the notice is written. -/
theorem test_trip_falls : goesWith (exec (.railTrip 3) { s16n with cp := { s16n.cp with notices := [] }, mgmt := { s16n.mgmt with fwRun := true } }) (fun u =>
    decide (u.pwr.state = 3) && decide (u.pwr.tripIndex = 3) && decide (u.cores = [])) = true := by decide +kernel

/-- R35, R488: a window of 256 pacer units ends at 256 after its start, not before. -/
theorem test_ramp_window : (let s := fun (n : Nat) => { s15 hold16 with clusters := [(0, { pacer := n, rampUsed := 3 })], pwr := { (s15 hold16).pwr with ramp := 0x80010004 } }
    goesWith (exec (.rampWindow 0) (s 256)) (fun u => decide ((u.cluster 0).rampUsed = 0) && decide ((u.cluster 0).rampSince = 256)) && goesTo (exec (.rampWindow 0) (s 255)) (s 255))
    = true := by decide +kernel
/-- WIN 0 and STARTS 9 are written as 1 and 8. -/
theorem test_set_ramp : goesWith (exec (.setRamp 1) (s15 (cmd15 0x61 [0x80000009]))) (fun u => decide (u.pwr.ramp = 0x80000108) && u.host.mailOut.isSome) = true := by decide +kernel
theorem test_forecast : goesWith (exec .fcastBmcMessage { s16t with pwr := { s16t.pwr with fcastDue := [(0x0B540BB8, 5)] } }) (fun u =>
    decide (u.mgmt.bmc = [[0x7E, 1, 0x80, 0x54, 0x0B, 0xB8, 0x0B, 5, 0, 0, 0, 0, 0, 0, 0]])) = true := by decide +kernel

theorem test_notice_pair_witness : noticeRoom s16n 2 ∧ s16n.cpUp = true := by
  refine ⟨⟨by decide, by decide +kernel, by decide +kernel, by decide +kernel, ?_, by decide +kernel, ?_⟩, by decide +kernel⟩
  · intro q h; have : ∀ q, q < 2 → ¬((s16n.ring q).exist = true ∧ (s16n.ring q).version = 2 ∧ (s16n.ring q).notice = true) := by decide +kernel
    exact this q h
  · unfold ringHere; decide +kernel
theorem test_notice : goesWith (exec .noticeDelivery s16n) (fun u => decide (u.cp.notices = []) && decide ((u.ring 2).cqTail = 1)
    && decide (readBytes u.host.ring.bytes 0x1000 8 = [0, 0, 0xFF, 0xFF, 3, 3, 0, 0]) && decide (readBytes u.host.ring.bytes 0x1010 1 = [5])) = true := by decide +kernel

/-- QUERY item 2 into ring memory. -/
def query16 : Cmd := cmd15 0x70 [2, ringAt 0x2000, 300]
theorem test_query_witness : InTurn (s15 query16) 1 query16 0x70 false ∧ query16.n 1 / 2 ^ 62 = 1 := by unfold InTurn; decide +kernel
theorem test_query : goesWith (exec (.query 1 ⟨.ok, []⟩) (let s := s15 query16; { s with fabric := { s.fabric with cmap := [(65, 7)] } })) (fun u =>
    decide (readByte u.host.ring.bytes (0x2000 + 16 + 65) = 7) && u.host.mailOut.isSome) = true := by decide +kernel
theorem test_query_range : reply15 (exec (.query 1 ⟨.ok, []⟩) (s15 (cmd15 0x70 [8, ringAt 0x2000, 300]))) = (2, 3, 0) := by decide +kernel
theorem test_mgmt_timeout : (let s := s15 { cmd15 0x80 [2, 0, 4, 0, 0, 7] with started := true, since := 100 }
    reply15 (exec (.mgmtRequestTimeout 1) { s with mgmt := { s.mgmt with time := 7100 } }) = (5, 0, 0) ∧
    goesTo (exec (.mgmtRequestTimeout 1) { s with mgmt := { s.mgmt with time := 7099 } }) { s with mgmt := { s.mgmt with time := 7099 } } = true) := by decide +kernel
/-- R474: no QUERY before the mailbox is free; the first gather has not come, then it has. -/
theorem test_query_waits : goesTo (exec (.query 1 ⟨.ok, []⟩) (full16 (s15 query16))) (full16 (s15 query16)) = true ∧ mailEmpty (s15 query16) ∧ (s15 query16).mgmt.gathered = false ∧
    goesWith (exec (.query 1 ⟨.ok, []⟩) (let s := s15 query16; { s with mgmt := { s.mgmt with gathered := true, snap := [(0x2000 + 81, 9)] } })) (fun u =>
      decide (readByte u.host.ring.bytes (0x2000 + 81) = 9)) = true := by unfold mailEmpty; decide +kernel

/-! ## Resets -/

theorem test_start_up_witness : (let s : State := { State.reset with mgmt := { fwRun := true } }; s.mgmt.fwRun = true ∧ s.mgmt.booted = false ∧ s.pwr.state ≠ 3) := by decide +kernel
theorem test_power_loss : goesWith (execManagementPowerLoss s16t) (fun u => decide (u.cores = []) && decide (u.pwr.state = 3) && !u.mgmt.fwRun) = true := by decide +kernel

/-- Core 5 has run; the firmware runs and the part is booted. -/
def s17 : State := { s16t with mgmt := { s16t.mgmt with trained := true }, cores := [(5, { core5 1 (thrAt regs1) with epoch := 3, spad := { mem := { bytes := [(4, 9)] } }, fenced := true, resetCause := 0x10001 })],
                               clusters := [(0, { fenced := true, pacer := 77, hintUp := true, retryMax := 9 })] }
theorem test_warm_witness : s17.pwr.state ≠ 3 ∧ s17.mgmt.booted = true ∧ s17.mgmt.fwRun = true ∧ (bootRec s17.mgmt).2 ≠ 1 ∧ twf sliceDef s17.slices = true := by decide +kernel
theorem test_warm_core : (let x := warmCore (s17.core 5)
    decide (x.epoch = 4) && decide (x.thr = []) && decide (x.spad.mem = { bytes := [(4, 9)] }) && decide (x.resetCause = 0) && x.fenced) = true := by decide +kernel
theorem test_warm_cluster : (let x := warmCluster (s17.cluster 0); decide (x.pacer = 77) && decide (x.retryMax = 4) && x.hintUp) = true := by decide +kernel
theorem test_host_reset : goesWith (execHostDomainReset s17) (fun u => u.host.ready && !u.host.mem && decide (u.cp.rings = []) && decide (u.cp.toMgmt = some {})
    && decide ((u.slice 7).dir = []) && decide ((u.slice 7).mem = (s17.slice 7).mem) && decide (u.cores = s17.cores)) = true := by decide +kernel
theorem test_link_trained : goesWith (execHostLinkTrained 2 8 5 { s17 with host := { s17.host with cacheEn := true, memEn := true } }) (fun u =>
    u.host.cache && !u.host.mem && decide (u.host.width = 8)) = true := by decide +kernel
theorem test_core_reset : goesWith (execCoreReset 5 s17) (fun u => decide ((u.core 5).epoch = 4) && decide ((u.core 5).thr = []) && decide ((u.core 5).resetCause = 0x10001)) = true := by
  decide +kernel
theorem test_cluster_reset : goesWith (execClusterReset 0 s17) (fun u => decide ((u.core 5).segs = []) && !(u.cluster 0).hintUp && (u.cluster 0).fenced && decide ((u.core 7).epoch = 2)) = true := by
  decide +kernel

/-- As a cold reset leaves the part. -/
theorem test_nothing_runs : nothingRuns { State.reset with mgmt := { fwRun := true } } := by
  refine ⟨rfl, rfl, fun _ _ => rfl, fun _ => ⟨rfl, rfl, rfl, rfl, rfl, rfl⟩⟩
theorem test_port_quiet : portQuiet s17 ∧ coldRuns s17 = false ∧ s17.mgmt.trained = true := by
  refine ⟨⟨rfl, by decide +kernel, fun n l h => by cases h⟩, by decide +kernel, by decide +kernel⟩
/-- R495: while the cold start-up runs, the other resets are absorbed. -/
theorem test_absorbed : (let s : State := { State.reset with mgmt := { fwRun := true } }
    coldRuns s && goesTo (exec .hostDomainReset s) s && goesTo (exec (.deviceWarmReset [] [] []) s) s) = true := by decide +kernel
/-- R421: 64 GT/s is no rate of the PCIe 5.0 mode. -/
theorem test_link_rate : goesTo (exec (.hostLinkTrained 5 8 6) s17) s17 = true := by decide +kernel

/-! ## Management -/

/-- STORE_GET of type 5 is at the front, as it came with command 1. -/
def get18 : MgmtReq := { o := .mailbox 1, sub := 2, bytes := leBytes 2 5 ++ [0, 0] ++ leBytes 2 5 }
def s18 : State := { s16t with mgmt := { s16t.mgmt with reqs := [get18], store := [(5, List.replicate 16 1)], signOk := true, leafEnd := 1024, flash := [(0x1D00000, 7)] } }
theorem nothingFollows {l : List MgmtReq} (h : l = []) : ∀ r rest, l = r :: rest → rowRequest r := by
  subst h; intro r rest h; cases h
theorem test_row_request : rowRequest get18 ∧ ¬rowRequest { get18 with bytes := [5, 0, 0, 0] } ∧ rowRequest { o := .smbus, sub := 0, bytes := [0x84] } := by
  refine ⟨Or.inl ⟨rfl, by decide +kernel⟩, ?_, Or.inr ⟨by decide, Or.inl rfl⟩⟩
  rintro (⟨_, h⟩ | ⟨h, _⟩)
  · exact absurd h (by decide +kernel)
  · exact h rfl
theorem test_key_turn_witness : KeyTurn s18 (.mailbox 1) 5 (leBytes 2 5) { s18 with mgmt := { s18.mgmt with reqs := [] } } :=
  ⟨rfl, nothingFollows rfl, Or.inr ⟨get18, [], rfl, rfl, rfl, rfl, rfl⟩⟩
theorem test_smbus_turn_witness : KeyTurn s16t .smbus 1 [] s16t ∧ SpdmTurn s16t .smbus [0x84] s16t := by
  have h : ∀ r l, s16t.mgmt.reqs = r :: l → rowRequest r := nothingFollows rfl
  exact ⟨⟨rfl, h, Or.inl ⟨rfl, rfl, rfl⟩⟩, ⟨rfl, h, Or.inl ⟨rfl, rfl, rfl⟩⟩⟩
theorem test_store_get : goesWith (execStoreGet (.mailbox 1) 5 s18) (fun u => decide (u.cp.toCp = some { o := some (.mailbox 1), sub := 0, bytes := [5, 0, 0, 0] ++ List.replicate 16 1 })
    && decide (u.mgmt.reqs = [])) = true := by decide +kernel
theorem test_store_get_absent : goesWith (execStoreGet .smbus 6 s16t) (fun u => decide (u.mgmt.bmc = [[5, 0, 1, 0]])) = true := by decide +kernel
theorem test_store_put_type : goesWith (execStorePut .smbus 4 [1] s16t) (fun u => decide (u.mgmt.bmc = [[6, 0, 1, 0]])) = true := by decide +kernel
/-- Slot A runs: the write goes to slot B, whose sector is erased first. -/
theorem test_fw_write : goesWith (execFwWrite .smbus 1 [8, 9] { s18 with mgmt := { s18.mgmt with reqs := [] } }) (fun u =>
    decide (flashByte u.mgmt 0x1D00000 = 0xFF) && decide (flashByte u.mgmt 0x1D00002 = 9) && decide (u.mgmt.bmc = [[3, 0, 0, 0]])) = true := by
  decide +kernel
theorem test_fw_write_range : goesWith (execFwWrite .smbus 0x1C00000 [8] s16t) (fun u => decide (u.mgmt.bmc = [[3, 0, 1, 0]])) = true := by decide +kernel
theorem test_dbg_read : goesWith (execDbgRead .smbus 5 4 4 s17) (fun u => decide (u.mgmt.bmc = [[0x10, 0, 0, 0, 9, 0, 0, 0]])) = true := by decide +kernel
theorem test_dbg_write : goesWith (execDbgWrite .smbus 5 8 [1, 2, 3, 4] s17) (fun u => decide (readBytes (u.core 5).spad.mem.bytes 4 8 = [9, 0, 0, 0, 1, 2, 3, 4])) = true := by
  decide +kernel
theorem test_dbg_bad : goesWith (execDbgRead .smbus 5 0x3FFFFE 4 s17) (fun u => decide (u.mgmt.bmc = [[0x10, 0, 1, 0]])) = true := by decide +kernel
/-- R26: a message waits for a full slot, behind those before it. -/
theorem test_mailbox_full : goesWith (execMailboxSend .toMgmt [1] { s18 with cp := { s18.cp with toMgmt := some {} } }) (fun u =>
    decide (u.cp.toMgmt = some {}) && decide (u.cp.mgmtWait = [{ bytes := [1] }])) = true := by decide +kernel
/-- What waits takes the slot, in order, when it is read (R26). -/
theorem test_mailbox_order : goesWith (execMailboxReceive .toMgmt { s16t with cp := { s16t.cp with toMgmt := some {}, mgmtWait := [{ bytes := [1] }, { bytes := [2] }] } }) (fun u =>
    decide (u.cp.toMgmt = some { bytes := [1] }) && decide (u.cp.mgmtWait = [{ bytes := [2] }])) = true := by decide +kernel
/-- R471: a whole key request of no form is answered BAD at once. -/
theorem test_bad_key_request : goesWith (execMailboxReceive .toMgmt { s16t with cp := { s16t.cp with toMgmt := some { o := some (.mailbox 1), sub := 2, bytes := [5, 0, 0, 0] } } }) (fun u =>
    decide (u.mgmt.reqs = []) && decide (u.cp.toCp = some { o := some (.mailbox 1), sub := 0, bytes := [5, 0, 1, 0] })) = true := by decide +kernel
theorem test_mailbox_piece : goesWith (execMailboxReceive .toMgmt { s16t with cp := { s16t.cp with toMgmt := some { o := some .doe, bytes := [1, 2], last := false } } }) (fun u =>
    decide (u.mgmt.parts = [{ o := .doe, sub := 0, bytes := [1, 2] }]) && u.cp.toMgmt.isNone) = true := by decide +kernel
theorem test_mailbox_response : reply15 (execMailboxReceive .toCp (let s := s15 { cmd15 0x80 [2, ringAt 0x100, 4, ringAt 0x3000, 3] with started := true }
    { s with cp := { s.cp with toCp := some { o := some (.mailbox 1), bytes := [5, 0, 0, 0] } } })) = (0, 3, 4) := by decide +kernel
def mgmt18 : Cmd := cmd15 0x80 [2, ringAt 0x100, 4, ringAt 0x3000, 16]
theorem test_mgmt_request_witness : InTurn (s15 mgmt18) 1 mgmt18 0x80 false ∧ cmdExtentOk (mgmt18.n 3) (mgmt18.n 4) = true := by unfold InTurn; decide +kernel
theorem test_mgmt_request : goesWith (execMgmtRequest 1 ⟨.ok, []⟩ (s15 mgmt18)) (fun u => decide (u.cp.toMgmt = some { o := some (.mailbox 1), sub := 2, bytes := [1, 2, 3, 4] })) = true := by
  decide +kernel
theorem test_spdm_order : goesWith (execGetDigests .smbus s16t) (fun u => decide (u.mgmt.bmc = [[0x13, 0x7F, 4, 0]])) = true := by decide +kernel
theorem test_sign_witness : canSign { s18 with mgmt := { s18.mgmt with store := [(4, [0, 0, 0, 0])] } } := by
  refine ⟨rfl, by decide, by decide, [0, 0, 0, 0], rfl, rfl⟩
theorem test_jtag_bypass : goesWith (execBypass s16t) (fun u => decide (u.outbox = [.jtag 0])) = true := by decide +kernel
theorem test_extest_late : goesWith (execExtest { s16t with mgmt := { s16t.mgmt with fwStarted := true } }) (fun u => decide (u.mgmt.jtag = 0)) = true := by decide +kernel
theorem test_bmc_read : goesWith (execBmcMessageRead { s16t with mgmt := { s16t.mgmt with bmc := [[1], [2]] } }) (fun u => decide (u.mgmt.bmc = [[2]]) && decide (u.outbox = [.bmc [1]])) = true := by
  decide +kernel

/-! ## The machine -/

/-- The front command runs on the rest of the queue. -/
theorem test_step_front : goesWith (step { s1 with pending := [.add t51 8 2 3, .sub t51 8 2 3] }) (fun u => decide (u.reg t51 8 = wInt 13) && decide (u.pending.length = 1)) = true := by
  decide +kernel
theorem test_run_witness : ∀ i ∈ ({ s1 with pending := [.add t51 8 2 3, .noticeDelivery] } : State).pending, i.wf = true := by decide +kernel
theorem test_idle_tick : goesWith (step State.reset) (fun u => decide (u.mgmt.time = 10) && decide ((u.cluster 63).pacer = 1)) = true := by decide +kernel
theorem test_ill_formed_witness : Instr.wf (.memrd 1 false false) = false ∧ Instr.wf (.add t51 8 2 3) = true := by decide +kernel
theorem test_packet_form_witness : opMasks 0x41 = some [0x3F] ∧ badParam 0x41 [0x3F] [5, 0, 0, 0, 0, 0, 0] = none ∧ pericaOp 6 = some 0x70 := by decide +kernel
theorem test_packet_round : goesWith (exec (.commandTake [] .ok) { s14 with cp := { s14.cp with rings := [] }, host := { s14.host with mailIn := some (packet 0x55 0x41 true false 8 [5, 0, 0, 0, 0, 0, 0]) } })
    (fun u => decide (u.cp.cmds.map (fun c => (c.tag, c.opcode, c.seq, c.quiet, c.n 0)) = [(0x55, 0x41, true, false, 5)])) = true := by decide +kernel

/-- A key request whole in the mailbox's slot, and a record with SLICEMAP's length. -/
def s18a : State := { s16t with cp := { s16t.cp with toMgmt := some { o := some (.mailbox 1), bytes := [0x84] } } }
theorem test_arrived_witness : Arrived s18a (.mailbox 1) 0 [0x84] { s18a with cp := { s18a.cp with toMgmt := none } } :=
  ⟨rfl, rfl, rfl, by decide, by decide, rfl, rfl⟩
theorem test_fits : fits s18 5 (List.replicate 16 0) := by unfold fits; decide +kernel
/-- R463: a sideband request joins what waits; R471: what came in pieces waits for its turn. -/
theorem test_sideband_joins : goesWith (execIdPubkey .smbus s18) (fun u => decide (u.mgmt.reqs = [get18, { o := .smbus, sub := 2, bytes := [1, 0, 0, 0] }])) = true := by decide +kernel
theorem test_vdm_mailbox : vdmBusy s16t = false ∧ goesWith (execIdPubkey .vdm s16t) (fun u => decide (u.cp.toMgmt = some { o := some .vdm, sub := 2, bytes := [1, 0, 0, 0] })) = true := by
  decide +kernel
/-- R464: before the firmware starts EXTEST drives the pins. -/
theorem test_extest : goesWith (execExtest { s16t with mgmt := { s16t.mgmt with fwStarted := false } }) (fun u => decide (u.mgmt.pins = .boundary) && decide (u.mgmt.jtag = 3)) = true := by
  decide +kernel
/-- R474: a gather takes the readings. -/
theorem test_gather : goesWith (execTelemetryGather (List.replicate 89 0x320) (List.replicate 12 (0x2EE, 5)) 9 s16t) (fun u =>
    u.mgmt.gathered && decide (tget (fun _ => 0) u.mgmt.temps 88 = 0x320)) = true := by decide +kernel

/-! ## Decoding: words written out from the spec's encodings (R81 to R85, R107, R198, R223, R285) -/

def tid18 : Tid := ⟨3, 2⟩
theorem test_decode_integer : ∀ p ∈ integerCodes, decodeInsn tid18 0 (wordR 1 5 6 7 p.1) = some (p.2 tid18 5 6 7) := by decide +kernel
theorem test_decode_f64 : ∀ p ∈ f64Codes, decodeInsn tid18 0 (wordR 2 5 6 7 p.1) = some (p.2 tid18 5 6 7) := by decide +kernel
theorem test_decode_one_source : ∀ p ∈ oneSourceCodes, decodeInsn tid18 0 (wordR p.1 5 6 0 p.2.1) = some (p.2.2 tid18 5 6) ∧
    decodeInsn tid18 0 (wordR p.1 5 6 1 p.2.1) = none := by decide +kernel
theorem test_decode_immediate : ∀ p ∈ immCodes, decodeInsn tid18 0 (wordI p.1 5 6 0x2ABC) = some (p.2 tid18 5 6 0x2ABC) := by decide +kernel
theorem test_decode_memory : ∀ p ∈ memCodes, ∀ z ∈ sizeCodes,
    (∀ m ∈ modeCodes 0x2AB, decodeInsn tid18 0 (wordM p.1 5 6 m.1 z.1 0x2AB) = some (p.2 tid18 5 6 z.2 m.2)) ∧
    decodeInsn tid18 0 (wordM p.1 5 6 3 z.1 (r5 7 ++ (2 : BitVec 2) ++ (0 : BitVec 3))) = some (p.2 tid18 5 6 z.2 (.idx 7 2)) := by decide +kernel
theorem test_decode_short : (∀ p ∈ shortCodes, decodeShort (halfWord p.1 5 (r5 9)) = some (p.2 5 9)) ∧
    (∀ p ∈ shortImmCodes, decodeShort (halfWord p.1 5 (r5 9)) = some (p.2 5 (r5 9))) := by decide +kernel
/-- Words of the spec's own examples (R81, R82, R97, R182). -/
theorem test_decode_examples : decodeInsn tid18 0 0x2E00C002 = some (.loop tid18 3 2) ∧ decodeInsn tid18 0 0x17289C01 = some (.ls tid18 5 2 .b8 (.post 1)) ∧
    decodeInsn tid18 0 0x8442A8C1 = some (.insnPair tid18 (.add 4 5) (.addi 6 1)) ∧ decodeInsn tid18 0 0x45052000 = some (.tMma tid18 0 0 2 true false 1) := by
  decide +kernel
theorem test_decode_matrix : decodeInsn tid18 0 (longWord 0x46 ((1 : BitVec 1) ++ (5 : BitVec 3) ++ BitVec.ofBool true ++ (2 : BitVec 2) ++ BitVec.ofBool true ++
    (6 : BitVec 3) ++ (1 : BitVec 2) ++ (0 : BitVec 1) ++ r5 9 ++ r5 10)) = some (.tDrain tid18 1 5 true 2 true 6 1 9 10) := by decide +kernel
theorem test_decode_vector : decodeInsn tid18 0 (longWord 0x53 (r5 5 ++ r5 6 ++ (9 : BitVec 4) ++ (11 : BitVec 4) ++ (2 : BitVec 2) ++ (5 : BitVec 3) ++ (0 : BitVec 1)))
      = some (.vCvt tid18 5 6 9 11 2 5) ∧
    decodeInsn tid18 0 (longWord 0x54 ((5 : BitVec 3) ++ (0 : BitVec 2) ++ r5 6 ++ r5 7 ++ (3 : BitVec 3) ++ (9 : BitVec 6))) = some (.vCompare tid18 5 6 7 3 9) ∧
    decodeInsn tid18 0 (longWord 0x5C (r5 5 ++ r5 6 ++ (33 : BitVec 6) ++ (1 : BitVec 8))) = some (.vGet tid18 5 6 33) := by decide +kernel
theorem test_decode_signals : decodeInsn tid18 0 (longWord 0x67 (r5 5 ++ r5 6 ++ r5 7 ++ (0 : BitVec 4) ++ (3 : BitVec 2) ++ (2 : BitVec 3)))
      = some (.mqCommitPosted tid18 5 6 7 3) ∧
    decodeInsn tid18 0 (longWord 0x6A ((0 : BitVec 18) ++ (33 : BitVec 6))) = some (.cinchArrive tid18 33) ∧
    decodeInsn tid18 0 (longWord 0x60 (r5 5 ++ (0 : BitVec 15) ++ (9 : BitVec 4))) = some (.dmaH tid18 5 9) := by decide +kernel
theorem test_decode_reserved : ∀ o ∈ [0x00, 0x1F, 0x2F, 0x37, 0x38, 0x3E, 0x4C, 0x4F, 0x5F, 0x6C, 0x70, 0x7F], decodeInsn tid18 0 (longWord (BitVec.ofNat 7 o) 0) = none := by
  decide +kernel

/-! ## More witnesses -/

/-- A record's packet from core 5, whose message waits for its status; its bytes are the record's (R253, R379). -/
def s19m : State := s6m (msg6 none .posted false)
def pkt19 : Packet := pkt13 { dest := 6, src := 5, kind := .record, slot := 0, crc := 0 } (msgBytes (msg6 none .posted false))
theorem test_packet_message_witness : packetFrom (.thread t51) pkt19 = true ∧ packetMsg s19m pkt19 = some (msg6 none .posted false) ∧
    packetCrcOk pkt19 (msgBytes (msg6 none .posted false)) = true ∧ packetCrcOk { pkt19 with crc := 0 } (msgBytes (msg6 none .posted false)) = false := by decide +kernel
theorem test_record_arrives : goesWith (exec (.meshArrival (.thread t51) pkt19 0 (.read 0 1) ⟨.ok, []⟩) s19m) (fun u =>
    decide ((u.msg 1).map (·.status) = some (some 0))) = true := by decide +kernel
theorem test_record_bad_check : goesWith (exec (.meshArrival (.thread t51) { pkt19 with crc := 0 } 0 (.read 0 1) ⟨.ok, []⟩) s19m) (fun u =>
    decide ((u.msg 1).map (·.status) = some none) && decide ((u.cluster (unitCluster 6)).crc = 1)) = true := by decide +kernel
/-- R506: what was on a plane when it was discarded does not arrive. -/
theorem test_lost : (let s := (usedPort 593 s13).modPort 593 (fun x => x.modSlot 4 (fun y => { y with busy := true, gen := true, lost := true }))
    packetLive s write13 && slotLost s 593 4 && goesTo (exec (.meshArrival .cp write13 addr13 (.write 0 [5] [true]) ⟨.ok, []⟩) s) s) = true := by decide +kernel

theorem test_lanes_witness : lanesOn s13k ∧ groupSlotFree s13k 3 ∧ (frame13 0 1).fctl = 0 := by
  refine ⟨fun i => ?_, ⟨0, by decide, by decide +kernel⟩, by decide +kernel⟩
  have : s13k.lat.links = [(3, { st := 2, lanes := 3, peer := 1 })] := by decide +kernel
  simp only [State.link, this, tget]
  split <;> exact ⟨rfl, rfl⟩
/-- R408: a packet for another device waits for its lane, which a control frame turns on. -/
def s19f : State := match exec (.frameReceive 3 { frame13 1 2 with w3 := 7 * 2 ^ 40 }) s13k with | .next u => u | _ => s13k
theorem test_forward_waits : decide ((outFrames s19f.outbox).length = 0) && decide ((s19f.link 3).egress.map (·.1) = [2]) && decide ((s19f.link 3).laneOff = 7) = true := by
  decide +kernel
theorem test_lane_on : goesWith (exec (.frameReceive 3 { frame13 1 2 with payload := [] }) s19f) (fun u => decide ((outFrames u.outbox).map (·.1) = [3])
    && decide ((u.link 3).laneOff = 0)) = true := by decide +kernel
theorem test_retry : (let s := fun (t : Nat) => let s := s13k.modLink 4 (fun x => { x with st := 1, stage := stageFailed, failedAt := 5 })
      { s with mgmt := { s.mgmt with time := t } }
    goesWith (exec (.linkTrainingRetry 4) (s 1000005)) (fun u => decide ((u.link 4).stage = 0)) && goesTo (exec (.linkTrainingRetry 4) (s 1000004)) (s 1000004)) = true := by
  decide +kernel

/-- R30, R323: without its clock a slice's buffer serves nobody yet. -/
theorem test_buffer_holds : (let s := s12p.modSlice 7 (fun x => { x with clkOk := false })
    goesWith (exec (.skvBufferAccess .cp 7 (.read 1026 2)) s) (fun u => decide (u.waits.length = 1) && decide (u.reply = s.reply))) = true := by decide +kernel
/-- All slices of the north edge take the same write. -/
def s19w : State := { s12p with slices := (countFrom 0 40).map (fun k => (k, { clkOk := true, ready := true, skv := { ctl := 0xFE, bwin := 0x7FF0000 } })) }
theorem test_edge_witness : (∀ j : Fin 40, s19w.sliceFenced j.val = false ∧ (s19w.slice j.val).clkOk = true ∧ (s19w.slice j.val).ready = true ∧
    bufAdmits (s19w.slice j.val).skv .cp true 0 = true ∧ 0 < bufTop (s19w.slice j.val).skv) := by decide +kernel
/-- R518: bit 1 of TQMASK traces queues 4 to 7. -/
theorem test_trace_mask : (let s := s13.modCore 5 (fun x => { x with dbg := { x.dbg with tqmask := 2 } })
    decide (((traceQ s 5 5 1 0 9).core 5).dbg.tcount = 1) && decide (((traceQ s 5 2 1 0 9).core 5).dbg.tcount = 0)) = true := by decide +kernel

end Sys2Proof.Tests
end

section
/-! SUPPORT. What the host port's commands do (R420 to R437): one equation for each command, the frame of the operations
they share (doorbells, vectors, slots of the fabric), and the obligation about the host's registers and the aperture. -/

namespace Sys2Proof.Machine
open Sys2Proof.Claims

/-! ## The commands -/

theorem exec_doorbellWrite (p : Fin 64) (off : BitVec 12) (v : Half) (s : State) :
    exec (.doorbellWrite p off v) s = .next (if ioOpen s then bellWrite s p.val off.toNat v else s) := rfl

theorem exec_hostMailboxPacket (bytes : List Byte) (s : State) :
    exec (.hostMailboxPacket bytes) s = .next (if ioOpen s then mailSend s (padTo 0 64 bytes) else s) := rfl

theorem exec_hostMailboxReplyTaken (s : State) : exec .hostMailboxReplyTaken s = .next (mailTaken s) := rfl

theorem exec_bar2Read (off : BitVec 28) (n : Nat) (s : State) : exec (.bar2Read off n) s =
    .next (if ioOpen s && decide (n ≠ 0) && decide (off.toNat + n ≤ 2 ^ 28) then bar2Read off.toNat n s else s) := rfl

theorem exec_bar2Write (off : BitVec 28) (data : List Byte) (s : State) : exec (.bar2Write off data) s =
    if 2 ^ 28 < off.toNat + data.length || !ioOpen s then .next s
    else .next { s with host := { s.host with bar2Wr := s.host.bar2Wr + 1 } } := rfl

/-- A whole register that the host writes in the HIF_ page (R437). -/
theorem exec_hostRegisterWrite {a : BitVec 48} {size : Size} (h : a.toNat < 0x400000) (hd : a.toNat % sizeBytes size = 0) (w : Word) (s : State) :
    exec (.registerWrite .host a size w) s = .next (if ioOpen s then bar0Write s a.toNat size w else s) := by
  show Host.Outcome.next _ = _
  have hr : ¬ 0x400000 ≤ a.toNat := by omega
  have hb : a.toNat < 0x4000000 := by omega
  simp [hr, hb, hd]

/-- A configuration request of a port that is in service (R500, R510). -/
theorem exec_configurationRequest {s : State} (hp : s.pwr.state ≠ 3) (ho : s.cp.portOut = false) (b : Bool) (off : BitVec 12) (v : Half) :
    exec (.configurationRequest b off v) s =
      if !s.mgmt.booted && !s.mgmt.recovery then .next (s.out .cfgRetry)
      else if b then .next (cfgWrite s (off.toNat / 4 * 4) v)
      else .next (s.out (.cfgRead (cfgValue s (off.toNat / 4 * 4)))) :=
  if_neg (not_or.2 ⟨hp, by simp [ho]⟩)

theorem exec_configurationRequest_portOut {s : State} (h : s.cp.portOut = true) (b : Bool) (off : BitVec 12) (v : Half) :
    exec (.configurationRequest b off v) s = .next s := if_pos (.inr h)

/-- The table of the vectors with one entry put in. -/
def setVector (s : State) (v : Nat) (m : MsixEnt) : State := { s with host := { s.host with msix := tset msixDef s.host.msix v m } }

theorem setVector_entry (s : State) (v : Nat) (m : MsixEnt) : tget msixDef (setVector s v m).host.msix v = m := tget_tset_same _ _ _ _

theorem ioUp_setVector {s : State} {v : Nat} {m : MsixEnt} : ioUp (setVector s v m) ↔ ioUp s := Iff.rfl

theorem exec_msixUnmask (p : Fin 64) (s : State) : exec (.msixUnmask p) s =
    .next (msixFlush (setVector s p.val { tget msixDef s.host.msix p.val with masked := false }) p.val) := rfl

theorem exec_hostApertureCompletion (cpl : HostCpl) (data : List Byte) (s : State) :
    exec (.hostApertureCompletion cpl data) s = .next (apertureDone s (HostCplStatus cpl) data) := rfl

theorem exec_completionTimeout_aperture (s : State) :
    exec (.completionTimeout false) s = .next (apertureDone s (HostCplStatus .timeout) []) := rfl

/-- A command of the command processor's that waits for the host ends (R447). -/
theorem exec_completionTimeout_command {s : State} {c : Cmd} (hup : s.cpUp = true)
    (hc : s.cp.cmds.find? (fun c => !c.started && mayStart s c && (hostAddrOf c).isSome) = some c) :
    exec (.completionTimeout true) s =
      .next (finishCmd s c.id cRefused (BitVec.ofNat 64 rAccess) (BitVec.ofNat 64 ((hostAddrOf c).getD 0))) := by
  show execCompletionTimeout true s = _
  simp [execCompletionTimeout, hc, hup]

/-- The host's state when the stream that carries CXL.cachemem, or else CXL.io, has failed its integrity check (R436; log 92). -/
def insecureHost (h : HostSt) (cm : Bool) : HostSt :=
  if cm then { h with cmInsecure := true, ideCm := false }
  else if h.ideSel && !h.ideIo then { h with selInsecure := true, ideSel := false }
  else { h with ideInsecure := true, ideIo := false }

theorem exec_ideIntegrityFailure (cm : Bool) (s : State) :
    exec (.ideIntegrityFailure cm) s = .next (dropWaiting { s with host := insecureHost s.host cm }) := rfl

/-! ## Streams of the port (R436) -/

theorem ioStream_iff {s : State} : ioStream s = true ↔ ioUp s := by
  simp [ioStream, ioUp, and_assoc]

theorem ioOpen_iff {s : State} : ioOpen s = true ↔ ioTakes s := by
  simp [ioOpen, ioTakes, ioStream_iff]

theorem ioOpen_of_takes {s : State} (h : ioTakes s) : ioOpen s = true := ioOpen_iff.2 h

theorem ioOpen_of_not_takes {s : State} (h : ¬ioTakes s) : ioOpen s = false := Bool.eq_false_iff.2 (mt ioOpen_iff.1 h)

/-! ## Doorbells (R426, R440, R442) -/

@[simp] theorem State.ring_modRing_same (s : State) (p : Nat) (f : RingSt → RingSt) : (s.modRing p f).ring p = f (s.ring p) :=
  tget_tset_same _ _ _ _

theorem State.ring_modRing_ne (s : State) {p q : Nat} (f : RingSt → RingSt) (h : q ≠ p) : (s.modRing p f).ring q = s.ring q :=
  tget_tset_ne _ _ _ h

@[simp] theorem State.modRing_host (s : State) (p : Nat) (f : RingSt → RingSt) : (s.modRing p f).host = s.host := rfl
@[simp] theorem State.modRing_cores (s : State) (p : Nat) (f : RingSt → RingSt) : (s.modRing p f).cores = s.cores := rfl

@[simp] theorem State.notify_ring (s : State) (n : Notice) (p : Nat) : (s.notify n).ring p = s.ring p := by
  unfold State.notify; split <;> rfl

/-- A notice that finds room stands behind the others (R452). -/
theorem State.notify_notices {s : State} (n : Notice) (h : s.cp.notices.length < 256) :
    (s.notify n).cp.notices = s.cp.notices ++ [n] := by simp [State.notify, h]

theorem ringError_ring_same (s : State) (p : Nat) : (ringError s p).ring p = { s.ring p with error := true } := by
  simp [ringError]

theorem ringError_ring_ne (s : State) {p q : Nat} (h : q ≠ p) : (ringError s p).ring q = s.ring q := by
  simp [ringError, State.ring_modRing_ne _ _ h]

theorem ringError_notices {s : State} (p : Nat) (h : s.cp.notices.length < 256) :
    (ringError s p).cp.notices = s.cp.notices ++ [⟨2, 12, BitVec.ofNat 64 p⟩] :=
  State.notify_notices _ h

@[simp] theorem ringError_host (s : State) (p : Nat) : (ringError s p).host = s.host := by simp [ringError]
@[simp] theorem ringError_cores (s : State) (p : Nat) : (ringError s p).cores = s.cores := by simp [ringError]

/-- A doorbell value lies within the limits of its pair (R440). -/
def bellFits (s : State) (p : Nat) (cq : Bool) (v : Half) : Prop :=
  v.toNat < 65536 ∧ if cq then ((s.ring p).cqTail - v.truncate 16).toNat ≤ 2 ^ (s.ring p).cqLog2
    else ((v.truncate 16 : BitVec 16) - (s.ring p).sqHead).toNat ≤ 2 ^ (s.ring p).sqLog2

section bell
variable {s : State} {p : Nat} {cq : Bool} {v : Half}

/-- A value of 16 bits is judged by the limits of its queue. -/
theorem bellApply_in_range (he : (s.ring p).exist = true) (hr : (s.ring p).error = false) (hv : v.toNat < 65536) :
    bellApply s p cq v =
      if cq then
        (if ((s.ring p).cqTail - v.truncate 16).toNat ≤ 2 ^ (s.ring p).cqLog2 then s.modRing p (fun r => { r with cqHead := v.truncate 16 })
        else ringError s p)
      else if ((v.truncate 16 : BitVec 16) - (s.ring p).sqHead).toNat ≤ 2 ^ (s.ring p).sqLog2 then
        s.modRing p (fun r => { r with sqTail := v.truncate 16 })
      else ringError s p := by
  have hx : ¬(!(s.ring p).exist || (s.ring p).error) = true := by rw [he, hr]; exact Bool.false_ne_true
  have hq : ¬v.toNat / 65536 ≠ 0 := by omega
  exact (if_neg hx).trans (if_neg hq)

theorem bellApply_fits (he : (s.ring p).exist = true) (hr : (s.ring p).error = false) (h : bellFits s p cq v) :
    bellApply s p cq v = s.modRing p (fun r => if cq then { r with cqHead := v.truncate 16 } else { r with sqTail := v.truncate 16 }) := by
  obtain ⟨hv, hl⟩ := h
  rw [bellApply_in_range he hr hv]
  cases cq with
  | false => exact (if_neg Bool.false_ne_true).trans (if_pos hl)
  | true => exact (if_pos rfl).trans (if_pos hl)

theorem bellApply_not_fits (he : (s.ring p).exist = true) (hr : (s.ring p).error = false) (h : ¬bellFits s p cq v) :
    bellApply s p cq v = ringError s p := by
  unfold bellFits at h
  by_cases hv : v.toNat < 65536
  · rw [bellApply_in_range he hr hv]
    cases cq with
    | false => exact (if_neg Bool.false_ne_true).trans (if_neg fun hl => h ⟨hv, hl⟩)
    | true => exact (if_pos rfl).trans (if_neg fun hl => h ⟨hv, hl⟩)
  · have hx : ¬(!(s.ring p).exist || (s.ring p).error) = true := by rw [he, hr]; exact Bool.false_ne_true
    have hq : v.toNat / 65536 ≠ 0 := by omega
    exact (if_neg hx).trans (if_pos hq)

/-- The doorbell of a pair that exists and is not in error. -/
theorem bellApply_taken (he : (s.ring p).exist = true) (hr : (s.ring p).error = false) :
    bellTaken s (bellApply s p cq v) p cq v ∧ (bellApply s p cq v).host = s.host ∧ (bellApply s p cq v).cores = s.cores := by
  by_cases h : bellFits s p cq v
  · rw [bellApply_fits he hr h]
    exact ⟨⟨fun _ => by cases cq <;> simp, fun hn => absurd h hn, fun q hq => State.ring_modRing_ne _ _ hq⟩, rfl, rfl⟩
  · rw [bellApply_not_fits he hr h]
    exact ⟨⟨fun hf => absurd hf h, fun _ => ⟨ringError_ring_same s p, ringError_notices p⟩, fun q hq => ringError_ring_ne s hq⟩,
      ringError_host s p, ringError_cores s p⟩

end bell

/-- The host's doorbell at one of the two words of a pair's page. -/
theorem bellWrite_eq {s : State} {off : Nat} (hr : s.mgmt.recovery = false) (h : off % 8 = 0 ∨ off % 8 = 4) (p : Nat) (v : Half) :
    bellWrite s p off v = doorbell s p (decide (off % 8 = 4)) v := by
  rcases h with h | h <;> simp [bellWrite, hr, h]

/-! ## The host mailbox (R26, R427) -/

theorem padTo_length {α : Type} (d : α) {n : Nat} {l : List α} (h : l.length = n) : padTo d n l = l := by
  subst h; simp [padTo]

theorem mailSend_free {s : State} (hr : s.mgmt.recovery = false) (hm : s.host.mailIn = none) (b : List Byte) :
    mailSend s b = { s with host := { s.host with mailIn := some b } } := by
  simp [mailSend, hr, hm]

theorem mailSend_full {s : State} (hr : s.mgmt.recovery = false) (hm : s.host.mailIn ≠ none) (b : List Byte) :
    mailSend s b = { s with host := { s.host with mailQueue := s.host.mailQueue ++ [b] } } := by
  simp [mailSend, hr, Option.isSome_iff_ne_none.2 hm]

theorem mailTaken_last {s : State} {b : List Byte} (h : s.host.mailOut = some b) (hw : s.host.mailWait = []) :
    mailTaken s = { s with host := { s.host with mailOut := none } } := by
  simp [mailTaken, h, hw]

theorem mailTaken_next {s : State} {b c : List Byte} {l : List (List Byte)} (h : s.host.mailOut = some b) (hw : s.host.mailWait = c :: l) :
    mailTaken s = { s with host := { s.host with mailOut := some c, mailWait := l }, outbox := s.outbox ++ [.mailbox c] } := by
  simp [mailTaken, h, hw, State.out]

/-! ## HIF_ registers (R437, R519) -/

theorem bar0Write_b8_hif (s : State) {o : Nat} (h : o < 0x1000) (w : Word) :
    bar0Write s (0x41000 + o) .b8 w = hifWrite64 s o w.toNat := by
  have hw : w.toNat % 2 ^ (8 * sizeBytes .b8) = w.toNat := Nat.mod_eq_of_lt w.isLt
  simp only [bar0Write, hw]
  rw [if_neg (by omega), if_pos (by omega), show (0x41000 + o) % 0x1000 = o by omega]

theorem bar0Write_b4_hif (s : State) {o : Nat} (h : o < 0x1000) (w : Word) :
    bar0Write s (0x41000 + o) .b4 w = hifWrite s o (w.toNat % 2 ^ 32) := by
  simp only [bar0Write, bar0Word, sizeBytes]
  rw [if_neg (by omega), if_neg (by omega), if_neg (by omega), if_pos (by omega), show (0x41000 + o) % 0x1000 = o by omega]

theorem hifWrite64_apBase (s : State) (v : Nat) :
    hifWrite64 s 0x08 v = { s with host := { s.host with apBase := BitVec.ofNat 52 (v / 4096) } } := rfl

theorem hifWrite64_apSize (s : State) (v : Nat) :
    hifWrite64 s 0x10 v = { s with host := { s.host with apSize := min (2 ^ 32) (v / 2 ^ 12 % 2 ^ 33) } } := by
  rw [← Nat.shiftRight_eq_div_pow]; rfl

/-- A class of 0 is kept as 1 (R437). -/
theorem hifWrite_class (s : State) (v : Nat) : hifWrite s 0x18 (v % 2 ^ 32) =
    { s with host := { s.host with cls := if v % 4 = 0 then 1 else BitVec.ofNat 2 v } } := by
  have hc : BitVec.ofNat 2 (orOne (v % 2 ^ 32 % 4)) = if v % 4 = 0 then 1 else BitVec.ofNat 2 v := by
    rw [show v % 2 ^ 32 % 4 = v % 4 by omega, orOne]
    split
    · rfl
    · exact BitVec.eq_of_toNat_eq (by simp)
  rw [← hc]; rfl

/-- HIF_STATUS is read only; a write of half of a 64-bit register is ignored (R519). -/
theorem hifWrite_ignored (s : State) {o : Nat} (h : o ≠ 0x18) (v : Nat) : hifWrite s o v = s := by
  unfold hifWrite
  split
  · exact absurd rfl h
  · rfl

/-- A word of BAR0 outside ring memory has no error (R427). -/
theorem bar0Read_outside (s : State) {o : Nat} (h : o < 0x400000) : bar0Read s o = (some (bar0Val s o), s) := by
  have : ¬ 0x400000 ≤ o := by omega
  simp [bar0Read, this]

theorem bar0Read_hif (s : State) {a : Nat} (h : a < 0x1000) : bar0Read s (0x41000 + a) = (some (hifVal s a), s) := by
  rw [bar0Read_outside s (by omega), bar0Val, if_neg (by omega), if_pos (by omega), show (0x41000 + a) % 0x1000 = a by omega]

theorem hifVal_reserved (s : State) {a : Nat} (h : 0x28 ≤ a) : hifVal s a = 0 := by
  unfold hifVal
  split
  case h_10 => rfl
  all_goals omega

/-- The pages of the doorbells read as zero (R11, R426). -/
theorem bar0Read_doorbells (s : State) {a : Nat} (h : a < 0x40000) : bar0Read s a = (some 0, s) := by
  rw [bar0Read_outside s (by omega), bar0Val, if_neg (by omega), if_neg (by omega), if_neg (by omega), if_neg (by omega),
    if_neg (by omega), if_neg (by omega)]

/-! ## Vectors (R435) -/

/-- A vector's message changes nothing but what leaves the part. -/
@[simp] theorem msixOut_host (s : State) (m : MsixEnt) : (msixOut s m).host = s.host := by unfold msixOut; split <;> rfl

theorem msixOut_outbox_up {s : State} (h : ioUp s) (m : MsixEnt) : (msixOut s m).outbox = s.outbox ++ [.msix m.addr m.data] := by
  rw [msixOut, if_pos (ioStream_iff.2 h)]; rfl

theorem msixOut_outbox_down {s : State} (h : ¬ioUp s) (m : MsixEnt) : (msixOut s m).outbox = s.outbox := by
  rw [msixOut, if_neg (mt ioStream_iff.1 h)]

/-- A vector that sends its pending message. -/
theorem msixFlush_open {s : State} {v : Nat} {m : MsixEnt} (hm : tget msixDef s.host.msix v = m) (hp : m.pending = true)
    (ho : msixOpen s m = true) :
    msixFlush s v = msixOut (setVector s v { m with pending := false }) m := by
  subst hm
  simp [msixFlush, setVector, hp, ho]

theorem msixFlush_closed {s : State} {v : Nat} {m : MsixEnt} (hm : tget msixDef s.host.msix v = m)
    (h : ¬(m.pending = true ∧ msixOpen s m = true)) : msixFlush s v = s := by
  subst hm
  rw [msixFlush, if_neg (by simpa only [Bool.and_eq_true] using h)]

/-- Of the host interface, a vector that may send its pending message changes the table of the vectors alone. -/
theorem msixFlush_host (s : State) (v : Nat) : ∃ t, (msixFlush s v).host = { s.host with msix := t } := by
  by_cases h : (tget msixDef s.host.msix v).pending = true ∧ msixOpen s (tget msixDef s.host.msix v) = true
  · exact ⟨_, by rw [msixFlush_open rfl h.1 h.2]; exact msixOut_host _ _⟩
  · exact ⟨s.host.msix, by rw [msixFlush_closed rfl h]⟩

theorem foldl_msixFlush_host (l : List Nat) (s : State) : ∃ t, (l.foldl msixFlush s).host = { s.host with msix := t } := by
  induction l generalizing s with
  | nil => exact ⟨s.host.msix, rfl⟩
  | cons v l ih =>
    obtain ⟨t, ht⟩ := ih (msixFlush s v)
    obtain ⟨t', ht'⟩ := msixFlush_host s v
    exact ⟨t, by rw [List.foldl_cons, ht, ht']⟩

/-- A configuration write leaves the base addresses as `cfgEffect` gives them. -/
theorem cfgWrite_bars (s : State) (o : Nat) (v : Half) :
    (cfgWrite s o v).host.bar0 = (cfgEffect { s.host with config := tset halfDef s.host.config o v } o v).bar0 ∧
    (cfgWrite s o v).host.bar2 = (cfgEffect { s.host with config := tset halfDef s.host.config o v } o v).bar2 := by
  obtain ⟨t, ht⟩ := foldl_msixFlush_host (countFrom 0 64)
    (hostLinks { s with host := cfgEffect { s.host with config := tset halfDef s.host.config o v } o v })
  rw [cfgWrite, msixFlushAll, ht]
  exact ⟨rfl, rfl⟩

/-! ## Slots and ways of the fabric (R372, R375, R384) -/

/-- `t` differs from `s` in what crossing the mesh changes alone: the fabric, the clusters' counts, the free values drawn. -/
def fabricOnly (s t : State) : Prop := ∃ cl fb fr, t = { s with clusters := cl, fabric := fb, fresh := fr }

theorem fabricOnly.refl (s : State) : fabricOnly s s := ⟨s.clusters, s.fabric, s.fresh, rfl⟩

theorem fabricOnly.trans {s t u : State} (h : fabricOnly s t) (h' : fabricOnly t u) : fabricOnly s u := by
  obtain ⟨_, _, _, rfl⟩ := h
  obtain ⟨cl, fb, fr, rfl⟩ := h'
  exact ⟨cl, fb, fr, rfl⟩

theorem fabricOnly.slices {s t : State} (h : fabricOnly s t) : t.slices = s.slices := by obtain ⟨_, _, _, rfl⟩ := h; rfl
theorem fabricOnly.host {s t : State} (h : fabricOnly s t) : t.host = s.host := by obtain ⟨_, _, _, rfl⟩ := h; rfl

theorem fabricOnly_modPort (s : State) (p : Nat) (f : FabPort → FabPort) : fabricOnly s (s.modPort p f) := ⟨_, _, _, rfl⟩
theorem fabricOnly_newUse (s : State) (p n : Nat) : fabricOnly s (newUse s p n) := ⟨_, _, _, rfl⟩

theorem fabricOnly_crossVia (s : State) (p cls : Nat) (c0 mid : Option Nat) (d : Dest) : fabricOnly s (crossVia s p cls c0 mid d).2 :=
  ⟨_, _, _, rfl⟩

theorem fabricOnly_dupNote (s : State) (addr p n : Nat) (gen : Bool) (r : Nat) : fabricOnly s (dupNote s addr p n gen r) := by
  unfold dupNote
  split
  · split
    · exact ⟨_, _, _, rfl⟩
    · exact .refl s
  · exact .refl s

theorem fabricOnly_crossBack (s : State) (p n : Nat) : fabricOnly s (crossBack s p n) := by
  have go : ∀ (l : List Nat) (cls : Nat) (t : State), fabricOnly t (l.foldl (fun s u => (crossMesh s u cls (.unit p)).2) t) := by
    intro l cls
    induction l with
    | nil => exact .refl
    | cons u l ih => exact fun t => (fabricOnly_crossVia t u cls none none (.unit p)).trans (ih _)
  simp only [crossBack]
  split
  · exact .refl s
  · exact go _ _ _

theorem fabricOnly_fabFree (s : State) (p n : Nat) : fabricOnly s (fabFree s p n) := by
  simp only [fabFree]
  split
  · exact .refl s
  · exact (fabricOnly_crossBack s p n).trans (fabricOnly_modPort _ _ _)

theorem fabricOnly_fabTake {s u : State} {p cls n : Nat} {rein cross : Bool} {c0 : Option Nat} {d : Dest}
    (h : fabTake s p cls rein cross c0 d = some (n, u)) : fabricOnly s u := by
  simp only [fabTake] at h
  split at h
  · cases h
  · split at h
    · cases h
    · obtain ⟨-, rfl⟩ := Prod.mk.inj (Option.some.inj h)
      refine .trans ?_ ((fabricOnly_newUse _ _ _).trans (fabricOnly_modPort _ _ _))
      split
      · exact .refl s
      · exact fabricOnly_crossVia _ _ _ _ _ _

/-- A class-0 request at the host port, which has no bucket, travels in class 1 (R391). -/
theorem admitAs_hostPort (s : State) (cls cost : Nat) : ∃ k t, admitAs s 592 cls false cost = some (k, t) ∧ fabricOnly s t := by
  by_cases h : cls = 0
  · exact ⟨1, _, by simp only [admitAs, h, if_true]; rfl, ⟨_, _, _, rfl⟩⟩
  · exact ⟨cls, s, by simp [admitAs, h], .refl s⟩

theorem fabricOnly_fabAlloc_hostPort {s u : State} {cls n cost : Nat} {d : Dest} (h : fabAlloc s 592 cls false d cost = some (n, u)) :
    fabricOnly s u := by
  obtain ⟨k, t, ht, hs⟩ := admitAs_hostPort s cls cost
  rw [fabAlloc, ht, Option.bind_some] at h
  exact hs.trans (fabricOnly_fabTake h)

@[simp] theorem State.port_modPort_same (s : State) (p : Nat) (f : FabPort → FabPort) : (s.modPort p f).port p = f (s.port p) :=
  tget_tset_same _ _ _ _

@[simp] theorem FabPort.slot_modSlot_same (x : FabPort) (n : Nat) (f : FabSlot → FabSlot) : (x.modSlot n f).slot n = f (x.slot n) :=
  tget_tset_same _ _ _ _

theorem fabRespond_slot_free (s : State) (p n : Nat) (ce : Bool) : (((fabRespond s p n ce).port p).slot n).busy = false := by
  rw [fabRespond, State.port_modPort_same]
  by_cases h : ((s.port p).slot n).busy = true
  · have hs : ∀ (x : FabPort) (w : Table FabWin), ({ x with wins := w } : FabPort).slot n = x.slot n := fun _ _ => rfl
    simp only [h, Bool.not_true, Bool.false_eq_true, if_false]
    split
    · simp
    · rw [hs]; simp
  · simp [h]

/-- The response of a request leaves its slot free (R380). -/
theorem fabFree_slot_free (s : State) (p n : Nat) : (((fabFree s p n).port p).slot n).busy = false := by
  simp only [fabFree]
  split
  case isTrue h => simpa using h
  case isFalse => exact fabRespond_slot_free _ _ _ _

/-! ## Reads of a slice's buffer window from the host port (R329, R330, R428) -/

/-- A memory without marks reads as its bytes stand. -/
theorem checkRows_sound {m : EccMem} (hp : m.poison = []) (hu : m.upsets = []) (defer : Bool) (s : State) (l : List Nat) :
    checkRows defer l m s = (false, 0, m, s) := by
  induction l with
  | nil => rfl
  | cons r l ih =>
    have : m.check defer r s = (false, 0, m, s) := by simp [EccMem.check, EccMem.struck, hp, hu, boolDef]
    simp [checkRows, this, ih]

theorem EccMem.read_sound {m : EccMem} (hp : m.poison = []) (hu : m.upsets = []) (defer : Bool) (o n : Nat) (s : State) :
    m.read defer o n s = (some (readBytes m.bytes o n), 0, m, s) := by
  simp [EccMem.read, checkRows_sound hp hu]

/-- The window's own checks are those of `bufAdmits`. -/
theorem not_bufAdmits (v : SkvSt) (a : Agent) (write : Bool) (row : Nat) :
    (!(bitOf v.ctl.toNat (if write then 4 else 3)) || !scopeAdmits (BitVec.ofNat 2 (bitsOf v.ctl.toNat 2 1)) (bufSrc a)
      || decide (row < bitsOf v.bwin.toNat 10 0) || decide (bufTop v ≤ row)) = !bufAdmits v a write row := by
  simp only [bufAdmits, Bool.not_and, ← decide_not, Nat.not_le, Nat.not_lt]

section window
variable {s : State} {a : Agent} {k o n : Nat} (hs : Claims.sliceServes s k = true)
include hs

theorem edgeWaits_of_serves : edgeWaits s k = false := by
  simp only [Claims.sliceServes, Bool.and_eq_true] at hs
  simp [edgeWaits, hs]

theorem bufWindow_of_serves (acc : Acc) : bufWindow s a k acc = some (skvBufAcc s a k acc) := by
  rw [bufWindow, edgeWaits_of_serves hs]; rfl

theorem skvBufAcc_read_not_admitted (h : bufAdmits (s.slice k).skv a false (o / 512) = false) :
    skvBufAcc s a k (.read o n) = (.nowin, [], s) := by
  simp only [Claims.sliceServes, Bool.and_eq_true, Bool.not_eq_true'] at hs
  obtain ⟨⟨⟨hd, hf⟩, -⟩, -⟩ := hs
  simp only [skvBufAcc, hd, hf, Bool.or_self, Bool.false_eq_true, if_false]
  exact if_pos ((not_bufAdmits (s.slice k).skv a false (o / 512)).trans (by rw [h]; rfl))

theorem skvBufAcc_read_admitted (h : bufAdmits (s.slice k).skv a false (o / 512) = true)
    (ht : (o + n - 1) / 512 < bufTop (s.slice k).skv) (hp : (s.slice k).skv.buf.poison = []) (hu : (s.slice k).skv.buf.upsets = []) :
    ∃ t, skvBufAcc s a k (.read o n) = (.ok, readBytes (s.slice k).skv.buf.bytes o n, t) := by
  simp only [Claims.sliceServes, Bool.and_eq_true, Bool.not_eq_true'] at hs
  obtain ⟨⟨⟨hd, hf⟩, -⟩, -⟩ := hs
  have hn := Bool.eq_false_iff.1 ((not_bufAdmits (s.slice k).skv a false (o / 512)).trans (by rw [h]; rfl))
  simp only [skvBufAcc, hd, hf, Bool.or_self, Bool.false_eq_true, if_false, EccMem.read_sound hp hu]
  exact ⟨_, (if_neg hn).trans (if_neg (Nat.not_le.2 ht))⟩

end window

theorem isRemoteGa_local (s : State) {g : Nat} (h : g < 2 ^ 58) : isRemoteGa s g = false := by
  simp [isRemoteGa, bitOf, Nat.testBit_lt_two_pow h]

section buffer
variable {g n k o : Nat} (hg : g + n ≤ 2 ^ 48) (h0 : 0 < n) (hl : decodeLocal g = .skvBuf k o)
include hg h0 hl

theorem apertureOff_skvBuf (s : State) : apertureOff s (.read g n) = none := by
  have hm : g % 2 ^ 48 = g := Nat.mod_eq_of_lt (by omega)
  simp only [apertureOff, accOff, hm, hl]
  split <;> rfl

theorem apWaits_skvBuf (s : State) (p j : Nat) (gen : Bool) : apWaits s p j gen (.read g n) = none := by
  rw [apWaits, apertureOff_skvBuf hg h0 hl]; rfl

theorem apSend_skvBuf (s : State) (p j : Nat) (gen : Bool) : apSend s p j gen (.read g n) = s := by
  rw [apSend, apWaits_skvBuf hg h0 hl, apertureAt, apertureOff_skvBuf hg h0 hl]; rfl

/-- What sending the read from the host port changes. -/
theorem fabricOnly_sendReq_skvBuf {s u : State} {cls j : Nat} (h : sendReq s 592 cls (.read g n) = (.slot j, u)) : fabricOnly s u := by
  simp only [sendReq, accOff, isRemoteGa_local s (show g < 2 ^ 58 by omega), Bool.false_eq_true, if_false] at h
  split at h
  case h_1 j' t ht =>
    rw [apSend_skvBuf hg h0 hl] at h
    obtain ⟨-, rfl⟩ := Prod.mk.inj h
    exact fabricOnly_fabAlloc_hostPort ht
  case h_2 => cases h

theorem accGlobal_read_skvBuf (hn : n ≤ 512) (rw : RegW) (s : State) (a : Agent) (ext : ExtAns) :
    accGlobal rw s a ext (.read g n) = (bufWindow s a k (.read o n)).map (fun r => ⟨r.1, r.2.1, false, r.2.2⟩) := by
  have hm : g % 2 ^ 48 = g := Nat.mod_eq_of_lt (by omega)
  have hb : bitOf g 58 = false := Nat.testBit_lt_two_pow (by omega)
  have hd : g / 2 ^ 48 = 0 := Nat.div_eq_of_lt (by omega)
  simp only [accGlobal, hm, hb, hd]
  rw [if_neg (by simp; omega), if_pos (.inl rfl), accLocal]
  simp only [hl, localAcc]
  rw [if_neg (by omega)]

/-- A read from the host port that a serving slice answers: its window's outcome, and the slot is free again. -/
theorem reqOnce_read_skvBuf (hn : n ≤ 512) {s u t : State} {cls j : Nat} {st : Status} {d : List Byte} (ext : ExtAns)
    (hs : sendReq s 592 cls (.read g n) = (.slot j, u)) (hk : Claims.sliceServes u k = true) (ha : skvBufAcc u .host k (.read o n) = (st, d, t)) :
    ∃ t', reqOnce regW s .host 592 cls ext (.read g n) = some ⟨st, d, false, t'⟩ ∧ fabricOnly t t' ∧ ((t'.port 592).slot j).busy = false := by
  have hr : ∀ gen, recorded u (g % 2 ^ 48) 592 j gen (.read g n) = none := by
    intro gen
    unfold recorded
    split <;> simp [accWrites]
  have hp : ∀ gen, performOnce regW u .host 592 j gen ext (.read g n) =
      some ⟨st, d, false, dupNote t (g % 2 ^ 48) 592 j gen (outcomeNum st false)⟩ := by
    intro gen
    simp only [performOnce, accOff, hr, ite_self, apSend_skvBuf hg h0 hl, apWaits_skvBuf hg h0 hl, accGlobal_read_skvBuf hg h0 hl hn,
      bufWindow_of_serves hk, ha, isRemoteGa_local u (show g < 2 ^ 58 by omega), Bool.false_eq_true, if_false, Option.map_some]
  simp only [reqOnce, hs, hp, Option.map_some]
  exact ⟨_, rfl, (fabricOnly_dupNote t _ _ _ _ _).trans (fabricOnly_fabFree _ _ _), fabFree_slot_free _ _ _⟩

end buffer

theorem bar2Read_answered {s : State} {off n : Nat} {r : AccRes} (hb : s.mgmt.booted = true)
    (h : reqOnce regW s .host 592 s.host.cls.toNat ⟨.ok, []⟩ (.read (0x030000000000 + off) n) = some r) :
    (r.status = .ok → bar2Read off n s = r.s.answer { status := .ok, data := r.data }) ∧
    (r.status = .nowin → bar2Read off n s = r.s.answer { status := .ok, data := List.replicate n 0xFF }) := by
  have hm : runM (reqM regW .host portHost s.host.cls.toNat ⟨.ok, []⟩ (.read (0x030000000000 + off) n)) s = (.ok r, r.s) := by
    rw [reqM, runM_get_bind, portHost, h]; rfl
  constructor <;> intro hs <;> simp [bar2Read, hb, hm, hs]

/-! ## The aperture (R432 to R434, R436) -/

theorem apertureOk_iff {s : State} {o n : Nat} : apertureOk s o n = true ↔ apertureGoes s o n := by
  simp [apertureOk, apertureGoes, and_assoc, and_left_comm, and_comm]

theorem exec_hostApertureAccess {a : Agent} (h : apertureAgent a) (acc : Acc) (s : State) : exec (.hostApertureAccess a acc) s =
    .next (if apertureOk s (accOff acc) (accLen acc) then apEnter s (some a) none (accOff acc) acc else s.answer { status := .unreach }) := by
  obtain ⟨hp, hh, hm⟩ := h
  show execHostApertureAccess a acc s = _
  unfold execHostApertureAccess
  split
  · exact absurd rfl hh
  · exact absurd rfl hm
  · exact absurd rfl (hp _)
  · rfl

/-- With no write waiting there is nothing to flush (R433). -/
theorem flushWrites_reads {s : State} (h : ∀ r ∈ s.host.waiting, r.writes = false) : flushWrites s = s := by
  have ha : s.host.waiting.any (fun r => r.writes && r.flushed) = false := by
    simp only [List.any_eq_false, Bool.and_eq_true, not_and]
    exact fun r hr hw => absurd hw (by simp [h r hr])
  have hf : s.host.waiting.find? ApReq.writes = none := List.find?_eq_none.2 (fun r hr => by simp [h r hr])
  simp [flushWrites, ha, hf]

/-- A read goes out to the host and waits behind the others. -/
theorem apEnter_read {s : State} (h : ∀ r ∈ s.host.waiting, ∃ o n, r.acc = .read o n) (a : Option Agent) (q : Option (Nat × Nat × Bool)) (o n : Nat) :
    apEnter s a q o (.read o n) = { s with
      host := { s.host with waiting := s.host.waiting ++ [{ agent := a, hpa := apertureHpa s o, acc := .read o n, slot := q }] }
      outbox := s.outbox ++ [.hostRead (apertureHpa s o) n] } := by
  refine flushWrites_reads fun r hr => ?_
  rcases List.mem_append.1 hr with hr | hr
  · obtain ⟨o', n', hacc⟩ := h r hr
    rw [ApReq.writes, hacc]; rfl
  · rw [List.mem_singleton.1 hr]; rfl

/-- A write with nothing before it goes out with the read of length zero that flushes it (R433). -/
theorem apEnter_write {s : State} (h : s.host.waiting = []) (a : Option Agent) (q : Option (Nat × Nat × Bool)) (o : Nat) (d : List Byte) (en : List Bool) :
    apEnter s a q o (.write o d en) = { s with
      host := { s.host with waiting := [{ agent := a, hpa := apertureHpa s o, acc := .write o d en, slot := q, flushed := true }] }
      outbox := s.outbox ++ [.hostWrite (apertureHpa s o) d en, .hostRead (apertureHpa s o) 0] } := by
  simp [apEnter, flushWrites, h, ApReq.writes, accWrites, accIn, State.out]

/-- An answer whose request holds no slot is the reply alone. -/
theorem apResponse_no_slot {s : State} {r : ApReq} (h : r.slot = none) (st : Status) (d : List Byte) :
    apResponse s r st d = s.answer { status := st, data := d } := by
  simp [apResponse, h]

@[simp] theorem apResponse_reply (s : State) (r : ApReq) (st : Status) (d : List Byte) :
    (apResponse s r st d).reply = some { status := st, data := d } := rfl

@[simp] theorem releaseOwner_host (s : State) (p n : Nat) (ans : Nat × List Byte) : (releaseOwner s p n ans).host = s.host := by
  simp only [releaseOwner]
  split
  · rfl
  · split <;> rfl

@[simp] theorem releaseOwner_fabric (s : State) (p n : Nat) (ans : Nat × List Byte) : (releaseOwner s p n ans).fabric = s.fabric := by
  simp only [releaseOwner]
  split
  · rfl
  · split <;> rfl

@[simp] theorem apResponse_host (s : State) (r : ApReq) (st : Status) (d : List Byte) : (apResponse s r st d).host = s.host := by
  simp only [apResponse, State.answer_host]
  split
  · rfl
  · split <;> split <;> simp [(fabricOnly_fabFree _ _ _).host, dupSet]

/-- The answer of a read ends the slot that it came from, while that holds the same request (R381, R434). -/
theorem apResponse_read_slot {s : State} {r : ApReq} {p n : Nat} (hw : r.writes = false) (hs : r.slot = some (p, n, ((s.port p).slot n).gen))
    (hb : ((s.port p).slot n).busy = true) (st : Status) (d : List Byte) :
    (((apResponse s r st d).port p).slot n).busy = false := by
  have : ∀ (t : State) (ans : Nat × List Byte) (x : Reply), (((releaseOwner t p n ans).answer x).port p) = t.port p := by
    intro t ans x
    unfold State.port
    rw [State.answer_fabric, releaseOwner_fabric]
  simp only [apResponse, hs, hw, hb]
  simp [this, fabFree_slot_free]

theorem apResponses_host (l : List ApReq) (st : Status) (s : State) : (apResponses l st s).host = s.host := by
  induction l generalizing s with
  | nil => rfl
  | cons r l ih => exact (ih _).trans (apResponse_host s r st [])

/-- The last of several answers is the reply. -/
theorem apResponses_reply {l : List ApReq} (h : l ≠ []) (st : Status) (s : State) : (apResponses l st s).reply = some { status := st } := by
  induction l generalizing s with
  | nil => exact absurd rfl h
  | cons r l ih =>
    cases l with
    | nil => rfl
    | cons r' l => exact ih (List.cons_ne_nil r' l) _

/-- A completion answers a read that is the oldest request. -/
theorem apertureDone_read {s : State} {r : ApReq} {rest : List ApReq} {o n : Nat} (h : s.host.waiting = r :: rest) (hr : r.acc = .read o n)
    (st : Status) (data : List Byte) : apertureDone s st data =
      apResponse { s with host := { s.host with waiting := rest } } r (apStatus false st) (if apStatus false st = .ok then padTo 0 n data else []) := by
  simp [apertureDone, h, hr, ApReq.writes, accWrites]

/-- A flushing read's completion answers the one write before it (R433). -/
theorem apertureDone_write {s : State} {r : ApReq} {o : Nat} {d : List Byte} {en : List Bool} (h : s.host.waiting = [r])
    (hr : r.acc = .write o d en) (hs : r.slot = none) (data : List Byte) :
    apertureDone s .ok data = State.answer { s with host := { s.host with waiting := [] } } { status := .ok } := by
  have hd : apertureDone s .ok data = flushWrites (apResponses [r] .ok { s with host := { s.host with waiting := [] } }) := by
    simp [apertureDone, h, hr, apStatus]
  have ha : apResponses [r] .ok { s with host := { s.host with waiting := [] } } =
      State.answer { s with host := { s.host with waiting := [] } } { status := .ok } := apResponse_no_slot hs _ _
  rw [hd, ha]
  exact flushWrites_reads (fun r hr => absurd hr List.not_mem_nil)

theorem insecureHost_waiting (h : HostSt) (cm : Bool) : (insecureHost h cm).waiting = h.waiting := by
  unfold insecureHost
  split
  · rfl
  · split <;> rfl

theorem dropWaiting_host (s : State) : (dropWaiting s).host = { s.host with waiting := [] } := apResponses_host _ _ _

/-- A command of the host mailbox that ends with no reply before it in the outbound slot. -/
theorem finishCmd_mailbox {s : State} {c : Cmd} {st : Nat} (hc : s.cmd c.id = some c) (hup : s.cpUp = true) (hr : c.ring = none)
    (hm : s.host.mailOut = none) (hst : st ≠ cOk) (r0 r1 : Word) :
    (finishCmd s c.id st r0 r1).cp.cmds = s.cp.cmds.filter (fun d => decide (d.id ≠ c.id)) ∧
    (finishCmd s c.id st r0 r1).host.mailOut = some (replyBytes s.mgmt.time c.tag.toNat c.opcode st false 0 r0 r1 true) := by
  simp only [State.cmd] at hc
  simp only [State.cpUp, Bool.and_eq_true, Bool.not_eq_true'] at hup
  simp [finishCmd, hc, hup.2, cmdReply, hr, hst, mailPut, hm, State.out]

/-! ## What the host does at the registers -/

theorem doorbellWrite_ready {s : State} {p : Fin 64} {off : BitVec 12} (h : ioTakes s) (hr : s.mgmt.recovery = false) (hy : s.host.ready = true)
    (he : (s.ring p.val).exist = true) (hx : (s.ring p.val).error = false) (ho : off.toNat % 8 = 0 ∨ off.toNat % 8 = 4) (v : Half) :
    ∃ u, exec (.doorbellWrite p off v) s = .next u ∧ bellTaken s u p.val (decide (off.toNat % 8 = 4)) v ∧ u.host = s.host ∧ u.cores = s.cores := by
  refine ⟨_, ?_, bellApply_taken he hx⟩
  rw [exec_doorbellWrite, if_pos (ioOpen_of_takes h), bellWrite_eq hr ho, doorbell, if_pos hy]

/-- While READY is 0 the value is recorded (R442). -/
theorem doorbellWrite_recorded {s : State} {p : Fin 64} {off : BitVec 12} (h : ioTakes s) (hr : s.mgmt.recovery = false)
    (hy : s.host.ready = false) (ho : off.toNat % 8 = 0) (v : Half) :
    exec (.doorbellWrite p off v) s = .next (s.modRing p.val (fun r => { r with sqBell := some v })) := by
  rw [exec_doorbellWrite, if_pos (ioOpen_of_takes h), bellWrite_eq hr (.inl ho), doorbell, hy, ho]
  rfl

/-- A port out of service, an Insecure stream or a function in D3hot takes nothing from the host (R420, R436, R510). -/
theorem host_not_taken {s : State} (h : ¬ioTakes s) (p : Fin 64) (off : BitVec 12) (v : Half) (bytes : List Byte) (boff : BitVec 28) (n : Nat) (w : Word) :
    exec (.bar2Write boff bytes) s = .next s ∧ exec (.doorbellWrite p off v) s = .next s ∧ exec (.bar2Read boff n) s = .next s ∧
    exec (.hostMailboxPacket bytes) s = .next s ∧ exec (.registerWrite .host 0x41008 .b8 w) s = .next s := by
  have hc := ioOpen_of_not_takes h
  refine ⟨?_, ?_, ?_, ?_, ?_⟩
  · simp [exec_bar2Write, hc]
  · simp [exec_doorbellWrite, hc]
  · simp [exec_bar2Read, hc]
  · simp [exec_hostMailboxPacket, hc]
  · rw [exec_hostRegisterWrite (by decide) (by decide), hc]; rfl

/-- A BAR2 read of a buffer window: its bytes, or all ones where the window does not admit it (R428). -/
theorem bar2Read_window {s u : State} {boff : BitVec 28} {n j o : Nat} {k : Fin 80} (h : ioTakes s) (hb : s.mgmt.booted = true)
    (hl : decodeLocal (0x030000000000 + boff.toNat) = .skvBuf k.val o) (h0 : 0 < n) (hn : boff.toNat % 512 + n ≤ 512)
    (hs : sendReq s 592 s.host.cls.toNat (.read (0x030000000000 + boff.toNat) n) = (.slot j, u)) (hk : Claims.sliceServes s k.val = true) :
    (bufAdmits (s.slice k.val).skv .host false (o / 512) = true → (o + n - 1) / 512 < bufTop (s.slice k.val).skv →
      (s.slice k.val).skv.buf.poison = [] → (s.slice k.val).skv.buf.upsets = [] →
      ∃ t, exec (.bar2Read boff n) s = .next t ∧ t.reply = some { status := .ok, data := readBytes (s.slice k.val).skv.buf.bytes o n } ∧
        ((t.port 592).slot j).busy = false) ∧
    (bufAdmits (s.slice k.val).skv .host false (o / 512) = false →
      ∃ t, exec (.bar2Read boff n) s = .next t ∧ t.reply = some { status := .ok, data := List.replicate n 0xFF } ∧ t.slices = s.slices) := by
  have hend : boff.toNat + n ≤ 2 ^ 28 := by have := boff.isLt; omega
  have hg : 0x030000000000 + boff.toNat + n ≤ 2 ^ 48 := by omega
  have hx : exec (.bar2Read boff n) s = .next (bar2Read boff.toNat n s) := by
    rw [exec_bar2Read, if_pos (by simp only [ioOpen_of_takes h, hend, decide_true, Bool.and_true, Bool.true_and, decide_eq_true_eq]; omega)]
  have hu := fabricOnly_sendReq_skvBuf hg h0 hl hs
  have hku : Claims.sliceServes u k.val = true := by obtain ⟨_, _, _, rfl⟩ := hu; exact hk
  have hslice : u.slice k.val = s.slice k.val := by unfold State.slice; rw [hu.slices]
  rw [← hslice]
  constructor
  · intro ha ht hp hups
    obtain ⟨t, ht⟩ := skvBufAcc_read_admitted hku ha ht hp hups
    obtain ⟨t', hr, -, hfree⟩ := reqOnce_read_skvBuf hg h0 hl (by omega) ⟨.ok, []⟩ hs hku ht
    exact ⟨_, hx.trans (congrArg _ ((bar2Read_answered hb hr).1 rfl)), rfl, hfree⟩
  · intro ha
    obtain ⟨t', hr, hf, -⟩ := reqOnce_read_skvBuf hg h0 hl (by omega) ⟨.ok, []⟩ hs hku (skvBufAcc_read_not_admitted hku ha)
    exact ⟨_, hx.trans (congrArg _ ((bar2Read_answered hb hr).2 rfl)), rfl, (hu.trans hf).slices⟩

/-- The host's writes of the HIF_ registers (R437, R519). -/
theorem hostRegisterWrite_hif {s : State} (h : ioTakes s) (w : Word) :
    exec (.registerWrite .host 0x41008 .b8 w) s = .next { s with host := { s.host with apBase := BitVec.ofNat 52 (w.toNat / 4096) } } ∧
    exec (.registerWrite .host 0x41010 .b8 w) s = .next { s with host := { s.host with apSize := min (2 ^ 32) (w.toNat / 2 ^ 12 % 2 ^ 33) } } ∧
    exec (.registerWrite .host 0x41018 .b4 w) s = .next { s with host := { s.host with cls := if w.toNat % 4 = 0 then 1 else BitVec.ofNat 2 w.toNat } } ∧
    (∀ a ∈ [0x41000, 0x41008, 0x4100C, 0x41010, 0x41014], exec (.registerWrite .host a .b4 w) s = .next s) := by
  have hw : ∀ (a : BitVec 48) (size : Size), a.toNat < 0x400000 → a.toNat % sizeBytes size = 0 →
      exec (.registerWrite .host a size w) s = .next (bar0Write s a.toNat size w) := by
    intro a size ha hd
    rw [exec_hostRegisterWrite ha hd, if_pos (ioOpen_of_takes h)]
  have h4 : ∀ o : Nat, o < 0x1000 → o % 4 = 0 → o ≠ 0x18 → exec (.registerWrite .host (BitVec.ofNat 48 (0x41000 + o)) .b4 w) s = .next s := by
    intro o ho hd hne
    have ht : (BitVec.ofNat 48 (0x41000 + o)).toNat = 0x41000 + o := by simp; omega
    rw [hw _ _ (by omega) (by rw [ht, sizeBytes]; omega), ht, bar0Write_b4_hif s ho, hifWrite_ignored s hne]
  refine ⟨?_, ?_, ?_, ?_⟩
  · rw [hw _ _ (by decide) (by decide)]
    exact congrArg _ ((bar0Write_b8_hif s (o := 0x08) (by decide) w).trans (hifWrite64_apBase s _))
  · rw [hw _ _ (by decide) (by decide)]
    exact congrArg _ ((bar0Write_b8_hif s (o := 0x10) (by decide) w).trans (hifWrite64_apSize s _))
  · rw [hw _ _ (by decide) (by decide)]
    exact congrArg _ ((bar0Write_b4_hif s (o := 0x18) (by decide) w).trans (hifWrite_class s _))
  · intro a ha
    simp only [List.mem_cons, List.not_mem_nil, or_false] at ha
    rcases ha with rfl | rfl | rfl | rfl | rfl
    · exact h4 0x00 (by decide) (by decide) (by decide)
    · exact h4 0x08 (by decide) (by decide) (by decide)
    · exact h4 0x0C (by decide) (by decide) (by decide)
    · exact h4 0x10 (by decide) (by decide) (by decide)
    · exact h4 0x14 (by decide) (by decide) (by decide)

/-- Configuration requests of a port that is in service (R422, R425, R500, R510). -/
theorem configurationRequest_answered {s : State} (hp : s.pwr.state ≠ 3) (ho : s.cp.portOut = false) (hb : s.mgmt.booted = true)
    (off : BitVec 12) (v : Half) :
    exec (.configurationRequest false off v) s = .next { s with outbox := s.outbox ++ [.cfgRead (cfgValue s (off.toNat / 4 * 4))] } ∧
    exec (.configurationRequest true off v) s = .next (cfgWrite s (off.toNat / 4 * 4) v) := by
  constructor <;> rw [exec_configurationRequest hp ho, hb] <;> rfl

/-- Clearing a vector's mask sends what is pending, where the message may go (R435). -/
theorem msixUnmask_sends (s : State) (p : Fin 64) : let m := tget msixDef s.host.msix p.val
    ∃ u, exec (.msixUnmask p) s = .next u ∧
      (m.pending = true ∧ vectorOpen s { m with masked := false } = true →
        tget msixDef u.host.msix p.val = { m with masked := false, pending := false } ∧
        (ioUp s → u.outbox = s.outbox ++ [.msix m.addr m.data]) ∧ (¬ioUp s → u.outbox = s.outbox)) ∧
      (¬(m.pending = true ∧ vectorOpen s { m with masked := false } = true) →
        tget msixDef u.host.msix p.val = { m with masked := false } ∧ u.outbox = s.outbox) := by
  intro m
  refine ⟨_, exec_msixUnmask p s, ?_, ?_⟩
  · rintro ⟨hp, ho⟩
    rw [msixFlush_open (m := { m with masked := false }) (setVector_entry s p.val _) hp ho]
    refine ⟨?_, fun h => msixOut_outbox_up (ioUp_setVector.2 (ioUp_setVector.2 h)) _,
      fun h => msixOut_outbox_down (mt (fun h => ioUp_setVector.1 (ioUp_setVector.1 h)) h) _⟩
    rw [msixOut_host]
    exact setVector_entry _ _ _
  · intro h
    rw [msixFlush_closed (setVector_entry s p.val _) h]
    exact ⟨setVector_entry s p.val _, rfl⟩

theorem hostRegisters : Claims.HostRegisters := by
  intro s p off v bytes reply next rest boff n j o k u cfg w
  refine ⟨fun h hr hy he hx ho => doorbellWrite_ready h hr hy he hx ho v, fun h hr hy ho => doorbellWrite_recorded h hr hy ho v,
    ?_, ?_, ?_, ?_, fun h hb hl h0 hn hs hk => bar2Read_window h hb hl h0 hn hs hk, ?_, fun h => host_not_taken h p off v bytes boff n w,
    fun h => hostRegisterWrite_hif h w, ⟨?_, ?_, ?_, ?_, fun a ha => bar0Read_doorbells s ha⟩, ?_, ?_, ?_, msixUnmask_sends s p⟩
  · intro h hm hr hl
    rw [exec_hostMailboxPacket, if_pos (ioOpen_of_takes h), padTo_length 0 hl, mailSend_free hr hm]
  · intro h hm hr hl
    rw [exec_hostMailboxPacket, if_pos (ioOpen_of_takes h), padTo_length 0 hl, mailSend_full hr hm]
  · intro ho hw
    rw [exec_hostMailboxReplyTaken, mailTaken_last ho hw]
  · intro ho hw
    rw [exec_hostMailboxReplyTaken, mailTaken_next ho hw]
  · intro h hl
    rw [exec_bar2Write, if_neg (by simp [ioOpen_of_takes h]; omega)]
  · exact bar0Read_hif s (a := 0x00) (by decide)
  · exact bar0Read_hif s (a := 0x18) (by decide)
  · exact bar0Read_hif s (a := 0x1C) (by decide)
  · intro a h28 ha
    rw [bar0Read_hif s ha, hifVal_reserved s h28]
  · intro hp ho hb hr b
    rw [exec_configurationRequest hp ho, hb, hr]; rfl
  · intro hp ho hb
    refine ⟨(configurationRequest_answered hp ho hb 0 v).1, (configurationRequest_answered hp ho hb 8 v).1,
      _, (configurationRequest_answered hp ho hb 0x10 v).2, (cfgWrite_bars s _ v).2, (cfgWrite_bars s _ v).1⟩
  · exact fun ho b => exec_configurationRequest_portOut ho b cfg v

/-! ## What the host does at the aperture -/

/-- A completion of each kind, or none in time, for the oldest request, a read that holds no slot (R433, R434). -/
theorem aperture_read_completed {s : State} {r : ApReq} {rest : List ApReq} {o n : Nat} (h : s.host.waiting = r :: rest) (hr : r.acc = .read o n)
    (hs : r.slot = none) (data : List Byte) : let left := { s with host := { s.host with waiting := rest } }
    (data.length = n → exec (.hostApertureCompletion .success data) s = .next (left.answer { status := .ok, data := data })) ∧
    exec (.hostApertureCompletion .poisoned data) s = .next (left.answer { status := .data }) ∧
    exec (.hostApertureCompletion .abort data) s = .next (left.answer { status := .unreach }) ∧
    exec (.hostApertureCompletion .unsupported data) s = .next (left.answer { status := .unreach }) ∧
    exec (.completionTimeout false) s = .next (left.answer { status := .unreach }) := by
  intro left
  have hd : ∀ (st : Status) (d : List Byte), apertureDone s st d =
      left.answer { status := apStatus false st, data := if apStatus false st = .ok then padTo 0 n d else [] } := fun st d => by
    rw [apertureDone_read h hr, apResponse_no_slot hs]
  refine ⟨fun hl => ?_, ?_, ?_, ?_, ?_⟩
  · rw [exec_hostApertureCompletion, hd]
    show Host.Outcome.next (left.answer { status := .ok, data := padTo 0 n data }) = _
    rw [padTo_length 0 hl]
  · rw [exec_hostApertureCompletion, hd]; rfl
  · rw [exec_hostApertureCompletion, hd]; rfl
  · rw [exec_hostApertureCompletion, hd]; rfl
  · rw [exec_completionTimeout_aperture, hd]; rfl

/-- The stream that fails its check, and what waits (R436). -/
theorem ideIntegrityFailure_drops (s : State) (cm : Bool) : ∃ u, exec (.ideIntegrityFailure cm) s = .next u ∧ u.host.waiting = [] ∧
    (cm = true → u.host.cmInsecure = true ∧ u.host.ideCm = false ∧ u.host.ideIo = s.host.ideIo) ∧
    (cm = false → u.host.ideCm = s.host.ideCm ∧ if s.host.ideSel = true ∧ s.host.ideIo = false then u.host.selInsecure = true ∧ u.host.ideSel = false
      else u.host.ideInsecure = true ∧ u.host.ideIo = false) ∧ (s.host.waiting ≠ [] → u.reply = some { status := .unreach }) := by
  refine ⟨_, exec_ideIntegrityFailure cm s, ?_, ?_, ?_, ?_⟩
  · rw [dropWaiting_host]
  · rintro rfl
    rw [dropWaiting_host]
    exact ⟨rfl, rfl, rfl⟩
  · rintro rfl
    rw [dropWaiting_host]
    by_cases h : s.host.ideSel = true ∧ s.host.ideIo = false <;> simp [insecureHost, h]
  · intro h
    exact apResponses_reply (by rw [insecureHost_waiting]; exact h) _ _

theorem hostAperture : Claims.HostAperture := by
  intro s a o n hpa data en rest cm c ra
  refine ⟨?_, fun d => rfl, ?_, ?_, ?_, fun h => aperture_read_completed h rfl rfl data, ?_, ?_, ?_, ideIntegrityFailure_drops s cm⟩
  · rintro (rfl | rfl) <;> rfl
  · intro ha hn
    rw [exec_hostApertureAccess ha, if_neg]
    intro hk
    obtain ⟨hb, hm, hsz, -, -⟩ := apertureOk_iff.1 hk
    exact hn ⟨hb, hm, hsz⟩
  · intro ha hg hw
    rw [exec_hostApertureAccess ha]
    exact congrArg _ ((if_pos (apertureOk_iff.2 hg)).trans (apEnter_read hw (some a) none o n))
  · intro ha hg hw
    rw [exec_hostApertureAccess ha]
    exact congrArg _ ((if_pos (apertureOk_iff.2 hg)).trans (apEnter_write hw (some a) none o data en))
  · rintro p n' g hw hb rfl hl
    refine ⟨_, exec_hostApertureCompletion _ _ _, ?_⟩
    rw [apertureDone_read hw rfl]
    refine ⟨by rw [apResponse_host], apResponse_read_slot (s := { s with host := { s.host with waiting := rest } }) rfl rfl hb _ _, ?_⟩
    rw [apResponse_reply]
    show some ({ status := .ok, data := padTo 0 n data } : Reply) = _
    rw [padTo_length 0 hl]
  · intro hw
    rw [exec_hostApertureCompletion]
    exact congrArg _ (apertureDone_write hw rfl rfl [])
  · intro hup hf hc hr hm
    exact ⟨_, exec_completionTimeout_command hup hf, finishCmd_mailbox hc hup hr hm (by decide) _ _⟩

/-- Settles O41: each clause is a lemma about its command above, over the equations of the commands and the frames of what they share. -/
theorem hostRegisterSpace : Obligations.HostRegisterSpace := ⟨hostRegisters, hostAperture⟩

end Sys2Proof.Machine
end

section
/-! SUPPORT. What the management plane reads in the register blocks (R519, R521 to R530), and the obligation about the values
after reset (R502 to R504). -/

namespace Sys2Proof.Machine

/-! ## Where the register blocks lie (R522, R523, R526 to R530) -/

theorem decodeLocal_coreReg {k o : Nat} (hk : k < 512) (ho : o < 0x20000) :
    decodeLocal (0x028000400000 + k * 0x800000 + o) = .coreReg k o := by
  unfold decodeLocal
  rw [if_neg (by omega), if_neg (by omega), if_pos (by omega)]
  have hc : (0x028000400000 + k * 0x800000 + o - 0x028000000000) / 0x800000 = k := by omega
  have hb : (0x028000400000 + k * 0x800000 + o - 0x028000000000) % 0x800000 = 0x400000 + o := by omega
  simp only [hc, hb]
  rw [if_neg (by omega), Nat.add_sub_cancel_left, Nat.mod_eq_of_lt ho]

theorem decodeLocal_cluster {k o : Nat} (hk : k < 64) (ho : o < 0x1000) :
    decodeLocal (0x030000000000 + k * 0x10000 + o) = .cluster k o := by
  unfold decodeLocal
  rw [if_neg (by omega), if_neg (by omega), if_neg (by omega), if_neg (by omega), if_pos (by omega)]
  have hc : (0x030000000000 + k * 0x10000 + o - 0x030000000000) / 0x10000 = k := by omega
  have hb : (0x030000000000 + k * 0x10000 + o - 0x030000000000) % 0x1000 = o := by omega
  simp only [hc, hb]
  rw [if_pos (by omega)]

theorem decodeLocal_sliceReg {k o : Nat} (hk : k < 80) (ho : o < 0x1000) :
    decodeLocal (0x030001000000 + k * 0x200000 + o) = .sliceReg k o := by
  unfold decodeLocal
  rw [if_neg (by omega), if_neg (by omega), if_neg (by omega), if_neg (by omega), if_pos (by omega)]
  have hc : (0x030001000000 + k * 0x200000 + o - 0x030000000000 - 0x1000000) / 0x200000 = k := by omega
  have hb : (0x030001000000 + k * 0x200000 + o - 0x030000000000 - 0x1000000) % 0x200000 = o := by omega
  simp only [hc, hb]
  rw [if_neg (by omega), if_pos (by omega), if_pos (by omega), Nat.mod_eq_of_lt ho]

theorem decodeLocal_device {o : Nat} (ho : o < 0x4000) : decodeLocal (0x03000D000000 + o) = .device o := by
  unfold decodeLocal
  rw [if_neg (by omega), if_neg (by omega), if_neg (by omega), if_neg (by omega), if_pos (by omega)]
  have hb : (0x03000D000000 + o - 0x030000000000 - 0xD000000) % 0x4000 = o := by omega
  simp only [hb]
  rw [if_neg (by omega), if_neg (by omega), if_neg (by omega), if_neg (by omega), if_pos (by omega)]

/-! ## Reads of one register (R519) -/

/-- A read of one aligned word is the read of its register. -/
theorem regRead_word {s s' : State} {a : Agent} {addr v : Nat} (h4 : addr % 4 = 0)
    (hr : regRead32 s a (decodeLocal addr) = (.ok, v, s')) : regRead s a addr 4 = (.ok, leBytes 4 v, s') := by
  have hw : addr / 4 * 4 = addr := by omega
  unfold regRead
  simp [regReadGo, hw, hr, slice, leBytes]

/-- The management plane may read every register (R113, R513). -/
theorem readOk_mgmt (s : State) (l : Loc) : readOk s .mgmt l = .ok := by
  cases l <;> simp [readOk, coreReadOk, whoIs, bankOk, Who.r113]

/-- A register that latches nothing, read by the management plane. -/
theorem regRead32_mgmt {s : State} {l : Loc} (h : readLatch s l = s) : regRead32 s .mgmt l = (.ok, regVal s l % 2 ^ 32, s) := by
  unfold regRead32
  rw [readOk_mgmt]
  simp only [h]

/-! ## Registers at reset -/

theorem regVal_reset_coreReg (k o : Nat) : regVal State.reset (.coreReg k o) = coreRegVal {} o := by
  have hk : State.reset.core k = {} := rfl
  unfold regVal
  simp only [hk, Bool.false_and]

/-- At reset no router has counted a packet, so the clusters read alike. -/
theorem regVal_reset_cluster (k o : Nat) : regVal State.reset (.cluster k o) = clusterVal {} 0 {} o := rfl

theorem regVal_reset_sliceReg (k o : Nat) : regVal State.reset (.sliceReg k o) = sliceVal {} o := by
  have hk : State.reset.slice k = {} := rfl
  have hf : State.reset.sliceFenced k = false := rfl
  unfold regVal
  simp only [hk, hf]

/-- The registers of a block at reset, by their offsets, as the management plane reads them at their addresses. -/
theorem reset_block_reads {rows : List (Nat × Nat)} {base size : Nat} {block : Nat → Loc} (h4 : base % 4 = 0)
    (hdec : ∀ o < size, decodeLocal (base + o) = block o) (hoff : ∀ p ∈ rows, p.1 < size ∧ p.1 % 4 = 0)
    (hlatch : ∀ p ∈ rows, readLatch State.reset (block p.1) = State.reset)
    (hval : ∀ p ∈ rows, regVal State.reset (block p.1) % 2 ^ 32 = p.2) :
    ∀ p ∈ rows, regRead State.reset .mgmt (base + p.1) 4 = (.ok, leBytes 4 p.2, State.reset) := by
  intro p hp
  obtain ⟨hlt, hal⟩ := hoff p hp
  refine regRead_word (by omega) ?_
  rw [hdec _ hlt, regRead32_mgmt (hlatch p hp), hval p hp]

/-- Settles O57: each block's registers are read at their addresses; the rest of the state is at its defaults. -/
theorem resetValues : Obligations.ResetValues := by
  unfold Obligations.ResetValues
  refine ⟨?_, ?_, ?_, ?_, ?_, ?_, ?_, rfl, rfl, rfl, rfl, rfl, ?_⟩
  · intro k hk
    refine reset_block_reads (by omega) (fun o ho => decodeLocal_coreReg hk ho) (by decide) (fun _ _ => rfl) ?_
    simp only [regVal_reset_coreReg]
    decide
  · intro k hk
    refine reset_block_reads (by omega) (fun o ho => decodeLocal_cluster hk ho) (by decide) ?_ ?_
    · simp only [List.forall_mem_cons]
      exact ⟨rfl, rfl, rfl, rfl, List.forall_mem_nil _⟩
    · simp only [regVal_reset_cluster]
      decide
  · intro k hk
    refine reset_block_reads (by omega) (fun o ho => decodeLocal_sliceReg hk ho) (by decide) (fun _ _ => rfl) ?_
    simp only [regVal_reset_sliceReg]
    decide
  · exact reset_block_reads (by decide) (fun o ho => decodeLocal_device ho) (by decide) (by decide) (by decide)
  · exact fun k j _ _ => ⟨rfl, rfl, rfl, rfl⟩
  · exact fun k a => ⟨rfl, rfl, rfl⟩
  · exact fun k => ⟨rfl, rfl, rfl⟩
  · exact fun i hi => absurd hi List.not_mem_nil

end Sys2Proof.Machine
end

section
/-! SUPPORT. Threads and faults (R121 to R133, R395): what changes of one core leave, an instruction that faults, the two
banks of thread 0, its entries and its return, revocation and the third fault; and the obligations about them. -/

namespace Sys2Proof.Machine
open Sys2Proof.Claims

/-! ## Changes of one core -/

theorem outsideCoresSame_modCore (s : State) (c : Nat) (f : CoreSt → CoreSt) : OutsideCoresSame s (s.modCore c f) :=
  ⟨rfl, rfl, rfl, rfl, rfl, rfl, rfl, rfl, rfl, rfl, rfl, rfl⟩

/-- The issued state is a change of its thread's core. -/
theorem issued_modCore (s : State) (t : Tid) : s.issued t =
    s.modCore t.core.val (fun x => (x.atIssue t.thr.val).modT t.thr.val (fun y => { y with st := .run })) := by
  unfold State.issued
  rw [State.modThr_def, State.modCore_modCore]

theorem readyFlow_iff {s : State} {t : Tid} :
    readyFlow s t = true ↔ ready s t = true ∧ (decide ((s.thr t).lc ≠ 0) && decide ((s.thr t).pc = (s.thr t).le)) = false := by
  rw [readyFlow, Bool.and_eq_true, Bool.not_eq_true']

@[simp] theorem CoreSt.atIssue_inShadow (n : Nat) (x : CoreSt) : (x.atIssue n).inShadow = x.inShadow := rfl
@[simp] theorem CoreSt.atIssue_gns (n : Nat) (x : CoreSt) : (x.atIssue n).gns = x.gns := rfl

/-! ## The two banks of thread 0 (R125, R127, R128) -/

/-- A core whose thread 0 leaves its shadow bank for `ret` in the mode of `st` (R128). -/
def leaveShadow (ret st : Word) (x : CoreSt) : CoreSt :=
  { ((swapBanks x).modT 0 (fun t => { t with pc := codePc ret, compat := bitOf st.toNat 0 })) with inShadow := false }

theorem leaveShadow_t_zero (ret st : Word) (x : CoreSt) : (leaveShadow ret st x).t 0 = { x.t 0 with
    regs := x.shadow.regs, dsp := x.shadow.dsp, rtp := x.shadow.rtp, lc := x.shadow.lc, ls := x.shadow.ls, le := x.shadow.le,
    pc := codePc ret, compat := bitOf st.toNat 0 } := by
  simp [leaveShadow, swapBanks, CoreSt.t, CoreSt.modT]

theorem leaveShadow_t_ne (ret st : Word) (x : CoreSt) {n : Nat} (h : n ≠ 0) : (leaveShadow ret st x).t n = x.t n := by
  simp [leaveShadow, swapBanks, CoreSt.t, CoreSt.modT, tget_tset_ne _ _ _ h]

theorem needTag_same (g : Tag) (d : Word) (s : State) : runM (needTag g ⟨g, d⟩) s = (.ok d, s) := by
  simp [needTag]

/-- eret with a CODE word in w30 and a STAT word in w31 of the shadow bank (R128). -/
theorem runM_eretShadow {s : State} {t : Tid} {ret st : Word} (h30 : s.reg t 30 = ⟨.code, ret⟩) (h31 : s.reg t 31 = ⟨.stat, st⟩) :
    runM (eretShadow t) s = (.ok (), s.modCore t.core.val (leaveShadow ret st)) := by
  unfold State.reg at h30 h31
  unfold eretShadow
  simp only [runM_get_bind, h30, h31, runM_bind_ok (needTag_same _ _ _), runM_modify]
  rfl

/-- eret of thread 0 in the shadow bank with no gate of it open goes back to the primary bank (R128). -/
theorem runM_eretBody_shadow {s : State} {t : Tid} {ret st : Word} (ht : t.thr.val = 0) (hd : (s.thr t).df = false)
    (hs : (s.core t.core.val).inShadow = true) (hg : (s.core t.core.val).gns = 0)
    (h30 : s.reg t 30 = ⟨.code, ret⟩) (h31 : s.reg t 31 = ⟨.stat, st⟩) :
    runM (eretBody t) s = (.ok (), s.modCore t.core.val (leaveShadow ret st)) := by
  unfold eretBody
  simp only [runM_get_bind, hd, hs, hg, ht, decide_true, Bool.and_true, if_true, if_neg Bool.false_ne_true]
  exact runM_eretShadow h30 h31

/-- After an instruction of thread 0 that R123 names, notices are held off. -/
theorem runM_holdNotices {t : Tid} (ht : t.thr.val = 0) (s : State) :
    runM (holdNotices t) s = (.ok (), s.modCore t.core.val (fun x => { x with holdOff := true })) := by
  unfold holdNotices
  rw [runM_modify, if_pos ht]

/-- The core after an eret of thread 0 out of its shadow bank: issued, the bank left, notices held off (R123, R128). -/
def eretLeft (ret st : Word) (x : CoreSt) : CoreSt :=
  { leaveShadow ret st ((x.atIssue 0).modT 0 (fun y => { y with st := .run })) with holdOff := true }

theorem eretLeft_t_zero (ret st : Word) (x : CoreSt) : (eretLeft ret st x).t 0 = { x.t 0 with
    st := .run, regs := x.shadow.regs, dsp := x.shadow.dsp, rtp := x.shadow.rtp, lc := x.shadow.lc, ls := x.shadow.ls,
    le := x.shadow.le, pc := codePc ret, compat := bitOf st.toNat 0 } :=
  (leaveShadow_t_zero ret st _).trans (by rw [CoreSt.t_modT_same]; rfl)

theorem eretLeft_t_ne (ret st : Word) (x : CoreSt) {n : Nat} (h : n ≠ 0) : (eretLeft ret st x).t n = x.t n :=
  (leaveShadow_t_ne ret st _ h).trans (CoreSt.t_modT_ne _ _ h)

/-- What the shadow bank holds after it was left: its registers, kept for the next activation (R127). -/
theorem eretLeft_shadow_regs (ret st : Word) (x : CoreSt) : (eretLeft ret st x).shadow.regs = (x.t 0).regs := by
  show (((x.atIssue 0).modT 0 _).t 0).regs = _
  rw [CoreSt.t_modT_same]; rfl

theorem exec_eret_shadow {s : State} {t : Tid} {ret st : Word} (ht : t.thr.val = 0) (h : readyFlow s t = true)
    (hs : (s.core t.core.val).inShadow = true) (hg : (s.core t.core.val).gns = 0) (hd : (s.thr t).df = false)
    (hp : (s.thr t).priv = true) (h30 : s.reg t 30 = ⟨.code, ret⟩) (h31 : s.reg t 31 = ⟨.stat, st⟩) :
    exec (.eret t) s = .next (s.modCore t.core.val (eretLeft ret st)) := by
  obtain ⟨hr, hl⟩ := readyFlow_iff.1 h
  obtain ⟨-, -, hh, hst, -⟩ := ready_iff.1 hr
  have hreg : ∀ r, (s.issued t).reg t r = s.reg t r := fun r => by unfold State.reg; rw [issued_thr]; rfl
  have hbody : runM (eretBody t) (s.issued t) = (.ok (), (s.issued t).modCore t.core.val (leaveShadow ret st)) :=
    runM_eretBody_shadow ht (by simpa using hd) (by simpa using hs) (by simpa using hg) (by rw [hreg, h30]) (by rw [hreg, h31])
  have hleft : ((s.issued t).modCore t.core.val (leaveShadow ret st)).modCore t.core.val (fun x => { x with holdOff := true }) =
      s.modCore t.core.val (eretLeft ret st) := by
    rw [issued_modCore, ht, State.modCore_modCore, State.modCore_modCore]; rfl
  have hcmds : ((s.modCore t.core.val (eretLeft ret st)).thr t).cmds = [] := by
    have hc := ready_cmds hr
    unfold State.thr at hc ⊢
    rw [State.core_modCore_same, ht, eretLeft_t_zero]
    rwa [ht] at hc
  have hdbg : (s.modCore t.core.val (eretLeft ret st)).core t.core.val = eretLeft ret st (s.core t.core.val) :=
    State.core_modCore_same _ _ _
  show issue t true false _ s = _
  rw [issue_stay (s' := s.modCore t.core.val (eretLeft ret st)) hr (by simpa using hl) rfl ?_ hcmds (by rw [hdbg]; exact hh)
    (by rw [hdbg]; exact hst)]
  · rw [State.modCore_modCore]; rfl
  · rw [runM_get_bind, issued_thr, if_neg (by simp [hp]), runM_bind_ok hbody]
    rw [runM_bind_ok (runM_holdNotices ht _), hleft, runM_pure]

/-- Settles O6: the two banks change places again, and nothing but thread 0's core changes. -/
theorem eretLeavesShadowBank : Obligations.EretLeavesShadowBank := by
  intro s c ret st t h hs hg hd hp h30 h31
  have hcore : (s.modCore c.val (eretLeft ret st)).core c.val = eretLeft ret st (s.core c.val) := State.core_modCore_same _ _ _
  have hthr : (s.modCore c.val (eretLeft ret st)).thr t = (eretLeft ret st (s.core c.val)).t 0 := by
    unfold State.thr; rw [hcore]; rfl
  refine ⟨_, exec_eret_shadow rfl h hs hg hd hp h30 h31, ?_⟩
  rw [show t.core = c from rfl, hcore, hthr, eretLeft_t_zero, eretLeft_shadow_regs]
  exact ⟨rfl, rfl, rfl, rfl, rfl, rfl, rfl, rfl, rfl, fun n hn _ => eretLeft_t_ne ret st _ (by omega), outsideCoresSame_modCore _ _ _⟩

/-! ## Entries to the shadow bank (R125) -/

/-- Thread 0 with what an entry saves in w30 and w31 and hands over in w1 to w3. -/
def withEntryRegs (code sr w1 w2 : TWord) (w3 : Option TWord) (t : ThreadSt) : ThreadSt :=
  let t := (((t.setReg 30 code).setReg 31 sr).setReg 1 w1).setReg 2 w2
  match w3 with
  | some w => t.setReg 3 w
  | none => t

section entry
variable (code sr w1 w2 : TWord) (w3 : Option TWord) (t : ThreadSt)

theorem withEntryRegs_reg_saved : (withEntryRegs code sr w1 w2 w3 t).reg 30 = code ∧ (withEntryRegs code sr w1 w2 w3 t).reg 31 = sr ∧
    (withEntryRegs code sr w1 w2 w3 t).reg 1 = w1 ∧ (withEntryRegs code sr w1 w2 w3 t).reg 2 = w2 := by
  cases w3 <;> simp [withEntryRegs, ThreadSt.reg_setReg_same, ThreadSt.reg_setReg_ne]

theorem withEntryRegs_reg_three (w : TWord) : (withEntryRegs code sr w1 w2 (some w) t).reg 3 = w :=
  ThreadSt.reg_setReg_same _ w (by decide)

/-- The lowest register of the shadow bank that an entry leaves. -/
def entryKeeps (w3 : Option TWord) : Nat := if w3.isSome then 4 else 3

theorem withEntryRegs_reg_kept {r : Nat} (hk : entryKeeps w3 ≤ r) (hr : r < 30) :
    (withEntryRegs code sr w1 w2 w3 t).reg r = t.reg r := by
  unfold entryKeeps at hk
  have h4 : ∀ u : ThreadSt, 3 ≤ r → ((((u.setReg 30 code).setReg 31 sr).setReg 1 w1).setReg 2 w2).reg r = u.reg r := fun u h3 => by
    rw [ThreadSt.reg_setReg_ne _ _ (by omega), ThreadSt.reg_setReg_ne _ _ (by omega), ThreadSt.reg_setReg_ne _ _ (by omega),
      ThreadSt.reg_setReg_ne _ _ (by omega)]
  cases w3 with
  | none => exact h4 t hk
  | some w => exact (ThreadSt.reg_setReg_ne _ w (by simp at hk; omega)).trans (h4 t (by simp at hk; omega))

end entry

section shadowEntry
variable (x : CoreSt) (ret : Word) (w1 w2 : TWord) (w3 : Option TWord) (pc : Word) (compat : Bool)

/-- Thread 0 after an entry, of the core as it stood before. -/
theorem shadowEntry_t_zero : (shadowEntry x ret w1 w2 w3 pc compat).t 0 =
    { withEntryRegs ⟨.code, mkCode ret (x.t 0).compat⟩ ⟨.stat, srWord 0 (x.t 0)⟩ w1 w2 w3 { x.t 0 with
        regs := x.shadow.regs, dsp := x.shadow.dsp, rtp := x.shadow.rtp, lc := x.shadow.lc, ls := x.shadow.ls, le := x.shadow.le } with
      priv := true, compat := compat, pc := pc, held := none, st := .run, lc := 0 } := by
  simp only [shadowEntry, swapBanks, CoreSt.t, CoreSt.modT, tget_tset_same]
  rfl

theorem shadowEntry_reg_three (w : TWord) : ((shadowEntry x ret w1 w2 (some w) pc compat).t 0).reg 3 = w := by
  rw [shadowEntry_t_zero]
  exact withEntryRegs_reg_three _ _ _ _ _ w

theorem shadowEntry_t_ne {n : Nat} (h : n ≠ 0) : (shadowEntry x ret w1 w2 w3 pc compat).t n = x.t n := by
  simp only [shadowEntry, swapBanks, CoreSt.t, CoreSt.modT, tget_tset_ne _ _ _ h]

@[simp] theorem shadowEntry_inShadow : (shadowEntry x ret w1 w2 w3 pc compat).inShadow = true := rfl
@[simp] theorem shadowEntry_gns : (shadowEntry x ret w1 w2 w3 pc compat).gns = 0 := rfl
@[simp] theorem shadowEntry_gnp : (shadowEntry x ret w1 w2 w3 pc compat).gnp = x.gnp := rfl
@[simp] theorem shadowEntry_spad : (shadowEntry x ret w1 w2 w3 pc compat).spad = x.spad := rfl
@[simp] theorem shadowEntry_queues : (shadowEntry x ret w1 w2 w3 pc compat).queues = x.queues := rfl
@[simp] theorem shadowEntry_shadow : (shadowEntry x ret w1 w2 w3 pc compat).shadow =
    { regs := (x.t 0).regs, dsp := (x.t 0).dsp, rtp := (x.t 0).rtp, lc := (x.t 0).lc, ls := (x.t 0).ls, le := (x.t 0).le } := rfl

end shadowEntry

/-- `y` is core `x` as an entry of thread 0 finds it: thread 0 and its two banks, and of the other threads the registers and pc. -/
structure SameBanks (x y : CoreSt) : Prop where
  t_zero : y.t 0 = x.t 0
  shadow : y.shadow = x.shadow
  gnp : y.gnp = x.gnp
  spad : y.spad = x.spad
  others : ∀ n, n ≠ 0 → (y.t n).regs = (x.t n).regs ∧ (y.t n).pc = (x.t n).pc

/-- A core that changes by an entry of its thread 0 and, of that thread, in its cause and handler alone, has entered the shadow
bank. -/
theorem shadowEntered_modCore {s : State} {c : Fin 512} {f : CoreSt → CoreSt} {y : CoreSt} {w1 w2 : TWord} {w3 : Option TWord}
    {pc : Word} {compat : Bool} {cause : ThreadSt → Half} {handler : ThreadSt → Option (Fin 32)} (hy : SameBanks (s.core c.val) y)
    (hf : f (s.core c.val) = (shadowEntry y (y.t 0).pc w1 w2 w3 pc compat).modT 0
      (fun z => { z with cause := cause z, handler := handler z })) :
    ShadowEntered s (s.modCore c.val f) c w1 w2 (entryKeeps w3) pc compat := by
  have hcore : (s.modCore c.val f).core c.val = _ := (State.core_modCore_same s c.val f).trans hf
  have hthr : (s.modCore c.val f).thr ⟨c, 0⟩ = _ :=
    (congrArg (CoreSt.t · 0) hcore).trans (CoreSt.t_modT_same _ _ _)
  have hreg : ∀ r, (s.modCore c.val f).reg ⟨c, 0⟩ r = ((shadowEntry y (y.t 0).pc w1 w2 w3 pc compat).t 0).reg r := fun r =>
    by unfold State.reg; rw [hthr]; rfl
  have hne : ∀ n, n ≠ 0 → ((s.modCore c.val f).core c.val).t n = y.t n := fun n hn => by
    rw [hcore, CoreSt.t_modT_ne _ _ hn, shadowEntry_t_ne _ _ _ _ _ _ _ hn]
  rw [shadowEntry_t_zero, hy.t_zero, hy.shadow] at hthr
  simp only [shadowEntry_t_zero, hy.t_zero, hy.shadow] at hreg
  obtain ⟨hregs, hdsp, hrtp, hlc⟩ : ((s.modCore c.val f).core c.val).shadow.regs = (s.thr ⟨c, 0⟩).regs ∧
      ((s.modCore c.val f).core c.val).shadow.dsp = (s.thr ⟨c, 0⟩).dsp ∧ ((s.modCore c.val f).core c.val).shadow.rtp = (s.thr ⟨c, 0⟩).rtp ∧
      ((s.modCore c.val f).core c.val).shadow.lc = (s.thr ⟨c, 0⟩).lc := by
    rw [hcore, CoreSt.modT_shadow, shadowEntry_shadow, hy.t_zero]
    exact ⟨rfl, rfl, rfl, rfl⟩
  obtain ⟨h30, h31, h1, h2⟩ : (s.modCore c.val f).reg ⟨c, 0⟩ 30 = ⟨.code, mkCode (s.thr ⟨c, 0⟩).pc (s.thr ⟨c, 0⟩).compat⟩ ∧
      (s.modCore c.val f).reg ⟨c, 0⟩ 31 = ⟨.stat, srWord 0 (s.thr ⟨c, 0⟩)⟩ ∧ (s.modCore c.val f).reg ⟨c, 0⟩ 1 = w1 ∧
      (s.modCore c.val f).reg ⟨c, 0⟩ 2 = w2 := by
    simp only [hreg]
    exact withEntryRegs_reg_saved _ _ _ _ _ _
  refine ⟨by simp [hcore], by simp [hcore], by simp [hcore, hy.gnp], hregs, hdsp, hrtp, hlc, h30, h31, h1, h2, ?_,
    by rw [hthr], by rw [hthr], by rw [hthr], by rw [hthr], by rw [hthr], ?_, ?_, by simp [hcore, hy.spad]⟩
  · intro r hk hr
    rw [hreg]
    exact withEntryRegs_reg_kept _ _ _ _ _ _ hk hr
  · intro n hn _
    rw [hne n (by omega)]
    exact hy.others n (by omega)
  · exact fun d hd => State.core_modCore_ne s f hd

/-! ## What an entry finds -/

@[simp] theorem mtxAbandon_queues (x : CoreSt) (n : Nat) : (mtxAbandon x n).queues = x.queues := rfl

theorem sameBanks_mtxAbandon {x y : CoreSt} (h : SameBanks x y) (n : Nat) : SameBanks x (mtxAbandon y n) :=
  ⟨h.t_zero, h.shadow, h.gnp, h.spad, h.others⟩

theorem sameBanks_notified (x : CoreSt) {n : Nat} (h : n ≠ 0) : SameBanks x (x.modT n (fun z => { z with notified := true })) := by
  refine ⟨CoreSt.t_modT_ne x _ (Ne.symm h), rfl, rfl, rfl, fun m _ => ?_⟩
  by_cases hm : m = n
  · rw [hm, CoreSt.t_modT_same]; exact ⟨rfl, rfl⟩
  · rw [CoreSt.t_modT_ne x _ hm]; exact ⟨rfl, rfl⟩

theorem faultedThread_range {x : CoreSt} {n : Nat} (h : faultedThread x = some n) : n ≠ 0 ∧ n < 8 := by
  have hm := List.mem_of_find?_eq_some h
  simp [countFrom] at hm
  omega

theorem tidOf_eq (c : Fin 512) {n : Nat} (h : n < 8) : tidOf c.val n = ⟨c, ⟨n, h⟩⟩ := by
  unfold tidOf
  rw [Fin.ofNat_val_eq_self]
  congr 1
  exact Fin.ext (Nat.mod_eq_of_lt h)

/-- A frame whose segment is cached has its address (R126). -/
theorem runM_frameGa {s : State} {t : Tid} {e : SegEnt} {g : Nat}
    (he : (s.core t.core.val).segs.find? (fun e => decide (e.table = (s.thr t).ssegt.toNat) && decide (e.sel = pSel (s.thr t).rtp)) = some e)
    (hg : segGa e (pOff (s.thr t).rtp) = some g) : runM (frameGa t) s = (.ok (BitVec.ofNat 64 g), s) := by
  unfold frameGa segLookup
  simp [runM_bind, he, hg]

/-- A dispatch from a queue of core scope needs no acquire (R299). -/
theorem runM_dispatchAcquire_core {s : State} {t : Tid} {q : Nat} (h : ((s.core t.core.val).q q).scope = 0) :
    runM (dispatchAcquire t q) s = (.ok true, s) := by
  have ha : runM (acquireNow t (scopeOfNum ((s.core t.core.val).q q).scope.toNat)) s = (.ok (), s) := by
    rw [h]; rfl
  unfold dispatchAcquire
  simp [ha, runM_map]

theorem traceQ_off {s : State} {c : Nat} (h : (s.core c).dbg.tqmask = 0) (q ev st w : Nat) : traceQ s c q ev st w = s := by
  unfold traceQ
  simp [h, bitOf]

/-- A message taken into service stands where it stood. -/
theorem msgAddr_modQ_inServ (x : CoreSt) (n q : Nat) : msgAddr (x.modQ q (fun y => { y with inServ := true })) n q = msgAddr x n q := by
  unfold msgAddr
  rw [CoreSt.q_modQ_same]
  rfl

/-! ## The three entries at a boundary (R126) -/

/-- What a notice of the cause code `code` makes of a core that stands at `y`: the entry, and THR_CAUSE. -/
def noticeTaken (code : Nat) (w1 w2 : TWord) (y : CoreSt) : CoreSt :=
  (shadowEntry (mtxAbandon y 0) (y.t 0).pc w1 w2 none (codePc y.excvec) false).modT 0
    (fun z => { z with cause := (noticeCause code).truncate 32 })

theorem exec_shadowBankEntry_deadlock {s : State} {c : Fin 512} {m : Nat} (h : mayAccept s c.val = true)
    (hm : (s.core c.val).dlPend = some m) : exec (.shadowBankEntry c) s = .next (s.modCore c.val (fun x =>
      noticeTaken Cause.deadlock.code (wInt 0x8019) (wInt (BitVec.ofNat 64 m)) { x with dlPend := none })) := by
  apply runCmd_ok
  unfold shadowBankEntry
  simp only [runM_get_bind, h, hm, Bool.not_true, if_neg Bool.false_ne_true, runM_set_bind, setCause, runM_modify]
  simp only [noticeEntry, State.modThr_def, State.modCore_modCore]
  rfl

theorem exec_shadowBankEntry_faulted {s : State} {c : Fin 512} {n g : Nat} {e : SegEnt} (h : mayAccept s c.val = true)
    (hd : (s.core c.val).dlPend = none) (hn : faultedThread (s.core c.val) = some n)
    (he : (s.core c.val).segs.find? (fun e => decide (e.table = ((s.core c.val).t n).ssegt.toNat) &&
      decide (e.sel = pSel ((s.core c.val).t n).rtp)) = some e)
    (hg : segGa e (pOff ((s.core c.val).t n).rtp) = some g) : exec (.shadowBankEntry c) s = .next (s.modCore c.val (fun x =>
      noticeTaken Cause.threadFault.code (wInt (((s.core c.val).t n).cause.zeroExtend 64)) (wInt (BitVec.ofNat 64 g))
        (x.modT n (fun z => { z with notified := true })))) := by
  obtain ⟨-, h8⟩ := faultedThread_range hn
  have hga := runM_frameGa (t := ⟨c, ⟨n, h8⟩⟩) he hg
  apply runCmd_ok
  unfold shadowBankEntry
  simp only [runM_get_bind, h, hd, hn, Bool.not_true, if_neg Bool.false_ne_true, tidOf_eq c h8, hga, runM_set_bind, setCause, runM_modify]
  simp only [noticeEntry, State.modThr_def, State.modCore_modCore]
  rfl

/-- The entry for the message at the head of queue `q`, which is taken into service (R125, R269). -/
def dispatchEntry (q : Nat) (x : CoreSt) : CoreSt :=
  shadowEntry (mtxAbandon (x.modQ q (fun y => { y with inServ := true })) 0) (x.t 0).pc (wInt (msgAddr x 0 q))
    (wInt (BitVec.ofNat 64 (16 * (x.q q).headLen))) (some (wInt (BitVec.ofNat 64 q))) (codePc (x.q q).handler) (codeMode (x.q q).handler)

/-- What a dispatch from queue `q` makes of a core (R269). -/
def dispatchTaken (q : Nat) (x : CoreSt) : CoreSt := (dispatchEntry q x).modT 0 (fun z => { z with handler := some (Fin.ofNat 32 q) })

theorem exec_shadowBankEntry_dispatch {s : State} {c : Fin 512} {q : Nat} (h : mayAccept s c.val = true)
    (hd : (s.core c.val).dlPend = none) (hn : faultedThread (s.core c.val) = none) (hq : nextDispatch (s.core c.val) 0 = some q)
    (hsc : ((s.core c.val).q q).scope = 0) (htq : (s.core c.val).dbg.tqmask = 0) :
    exec (.shadowBankEntry c) s = .next (s.modCore c.val (dispatchTaken q)) := by
  have hacq := runM_dispatchAcquire_core (t := ⟨c, 0⟩) hsc
  apply runCmd_ok
  unfold shadowBankEntry
  simp only [runM_get_bind, h, hd, hn, hq, Bool.not_true, if_neg Bool.false_ne_true]
  rw [runM_bind_ok hacq]
  simp only [if_true, runM_modify, serve, traceQ_off htq, State.modCore_modCore, msgAddr_modQ_inServ, CoreSt.q_modQ_same]
  rfl

theorem sameBanks_inServ (x : CoreSt) (q : Nat) : SameBanks x (x.modQ q (fun y => { y with inServ := true })) :=
  ⟨rfl, rfl, rfl, rfl, fun _ _ => ⟨rfl, rfl⟩⟩

theorem noticeTaken_cause (code : Nat) (w1 w2 : TWord) (y : CoreSt) :
    ((noticeTaken code w1 w2 y).t 0).cause = (noticeCause code).truncate 32 := by
  unfold noticeTaken; rw [CoreSt.t_modT_same]

theorem noticeTaken_t_ne (code : Nat) (w1 w2 : TWord) (y : CoreSt) {n : Nat} (h : n ≠ 0) : (noticeTaken code w1 w2 y).t n = y.t n := by
  unfold noticeTaken
  rw [CoreSt.t_modT_ne _ _ h, shadowEntry_t_ne _ _ _ _ _ _ _ h]; rfl

theorem noticeTaken_enters {s : State} {c : Fin 512} {y : CoreSt} (hy : SameBanks (s.core c.val) y) (code : Nat) (w1 w2 : TWord)
    {f : CoreSt → CoreSt} (hf : f (s.core c.val) = noticeTaken code w1 w2 y) :
    ShadowEntered s (s.modCore c.val f) c w1 w2 3 (codePc y.excvec) false :=
  shadowEntered_modCore (w3 := none) (handler := ThreadSt.handler) (sameBanks_mtxAbandon hy 0) hf

theorem ThreadSt.reg_with_handler (z : ThreadSt) (h : Option (Fin 32)) (r : Nat) : ({ z with handler := h } : ThreadSt).reg r = z.reg r := rfl

theorem dispatchTaken_reg_three (q : Nat) (x : CoreSt) : ((dispatchTaken q x).t 0).reg 3 = wInt (BitVec.ofNat 64 q) := by
  rw [dispatchTaken, CoreSt.t_modT_same, ThreadSt.reg_with_handler, dispatchEntry, shadowEntry_reg_three]

theorem dispatchTaken_inServ (q : Nat) (x : CoreSt) : ((dispatchTaken q x).q q).inServ = true := by
  unfold CoreSt.q
  rw [dispatchTaken, CoreSt.modT_queues, dispatchEntry, shadowEntry_queues, mtxAbandon_queues]
  exact congrArg QueueSt.inServ (CoreSt.q_modQ_same x q _)

theorem dispatchTaken_enters (s : State) (c : Fin 512) (q : Nat) :
    ShadowEntered s (s.modCore c.val (dispatchTaken q)) c (wInt (msgAddr (s.core c.val) 0 q))
      (wInt (BitVec.ofNat 64 (16 * ((s.core c.val).q q).headLen))) 4 (codePc ((s.core c.val).q q).handler)
      (codeMode ((s.core c.val).q q).handler) :=
  shadowEntered_modCore (w3 := some (wInt (BitVec.ofNat 64 q))) (cause := ThreadSt.cause)
    (sameBanks_mtxAbandon (sameBanks_inServ (s.core c.val) q) 0) rfl

/-- Settles O15: the notice or message in its turn, taken by one entry of thread 0. -/
theorem shadowBankEntries : Obligations.ShadowBankEntries := by
  intro s c h
  have hcore : ∀ f, (s.modCore c.val f).core c.val = f (s.core c.val) := s.core_modCore_same c.val
  have hthr : ∀ f, (s.modCore c.val f).thr ⟨c, 0⟩ = (f (s.core c.val)).t 0 := fun f => congrArg (CoreSt.t · 0) (hcore f)
  refine ⟨fun m hm => ?_, fun n e g hd hn he hg => ?_, fun q hd hn hq hsc htq => ?_⟩
  · have hy : SameBanks (s.core c.val) { s.core c.val with dlPend := none } := ⟨rfl, rfl, rfl, rfl, fun _ _ => ⟨rfl, rfl⟩⟩
    refine ⟨_, exec_shadowBankEntry_deadlock h hm, ⟨noticeTaken_enters hy _ _ _ rfl, ?_, fun n hn _ => ?_⟩, by rw [hcore]; rfl⟩
    · rw [hthr, noticeTaken_cause]; rfl
    · rw [hcore, noticeTaken_t_ne _ _ _ _ (by omega)]; rfl
  · obtain ⟨h0, -⟩ := faultedThread_range hn
    refine ⟨_, exec_shadowBankEntry_faulted h hd hn he hg, noticeTaken_enters (sameBanks_notified _ h0) _ _ _ rfl, ?_, ?_⟩
    · rw [hthr, noticeTaken_cause]; rfl
    · rw [hcore, noticeTaken_t_ne _ _ _ _ h0, CoreSt.t_modT_same]
  · refine ⟨_, exec_shadowBankEntry_dispatch h hd hn hq hsc htq, dispatchTaken_enters s c q, ?_, ?_⟩
    · unfold State.reg; rw [hthr]; exact dispatchTaken_reg_three q _
    · rw [hcore]; exact dispatchTaken_inServ q _

/-! ## An instruction that faults -/

/-- An instruction whose meaning raises a fault: the fault is taken, and nothing waits at the boundary after it. -/
theorem issue_fault {s s' u : State} {t : Tid} {control noCompat : Bool} {body : M Ctl} {tr : Trap} (h : ready s t = true)
    (hc : (control && decide ((s.thr t).lc ≠ 0) && decide ((s.thr t).pc = (s.thr t).le)) = false)
    (hn : (noCompat && (s.thr t).compat) = false) (hb : runM body (s.issued t) = (.error (.trap tr), s'))
    (ht : runM (takeFault t tr (s.thr t).pc) s' = (.ok (), u))
    (h1 : (u.thr t).cmds = []) (h2 : (u.core t.core.val).dbg.haltReq = false) (h3 : (u.core t.core.val).dbg.stepping = none) :
    issue t control noCompat body s = .next (u.modCore t.core.val id) := by
  apply runCmd_ok
  rw [issueM_ready h hc hn, hb]
  simp only [insnEnd, bind_assoc, runM_set_bind]
  rw [runM_bind_ok ht, runM_bind_ok (endStep_clear h3), settle_clear h1 h2]

/-- The integer commands of two operands that need INT words. -/
theorem exec_intPairCmd : ∀ f ∈ intPairCmds, ∃ op : Word → Word → Word, ∀ (t : Tid) (rd ra rb : Reg) (s : State),
    exec (f t rd ra rb) s = regOp2 t rd ra rb (intInt op) s := by
  simp only [intPairCmds, List.forall_mem_cons]
  exact ⟨⟨wAnd, fun _ _ _ _ _ => rfl⟩, ⟨wOr, fun _ _ _ _ _ => rfl⟩, ⟨wXor, fun _ _ _ _ _ => rfl⟩, ⟨wShl, fun _ _ _ _ _ => rfl⟩,
    ⟨wShr, fun _ _ _ _ _ => rfl⟩, ⟨wSar, fun _ _ _ _ _ => rfl⟩, ⟨wMul, fun _ _ _ _ _ => rfl⟩, ⟨wMulh, fun _ _ _ _ _ => rfl⟩,
    ⟨wMulhu, fun _ _ _ _ _ => rfl⟩, ⟨wDiv, fun _ _ _ _ _ => rfl⟩, ⟨wDivu, fun _ _ _ _ _ => rfl⟩, ⟨wRem, fun _ _ _ _ _ => rfl⟩,
    ⟨wRemu, fun _ _ _ _ _ => rfl⟩, ⟨wMin, fun _ _ _ _ _ => rfl⟩, ⟨wMax, fun _ _ _ _ _ => rfl⟩, ⟨wMinu, fun _ _ _ _ _ => rfl⟩,
    ⟨wMaxu, fun _ _ _ _ _ => rfl⟩, ⟨wSlt, fun _ _ _ _ _ => rfl⟩, ⟨wSltu, fun _ _ _ _ _ => rfl⟩, List.forall_mem_nil _⟩

/-- The fault of an EMPTY first operand (R71). -/
def firstEmpty : Trap := { cause := .tagEmpty, opnd := 1 }

theorem intInt_first_empty {a : TWord} (h : a.tag = .empty) (op : Word → Word → Word) (b : TWord) :
    intInt op a b = .error (.trap firstEmpty) := by
  unfold intInt need
  rw [if_pos h]
  rfl

/-! ## Streams that no longer fit (R395) -/

/-- `t` differs from `s` in the buckets of sources alone. -/
def bucketsOnly (s t : State) : Prop :=
  ∃ cl sl b, t = { s with clusters := cl, slices := sl, cp := { s.cp with bucket := b } }

theorem bucketsOnly.refl (s : State) : bucketsOnly s s := ⟨s.clusters, s.slices, s.cp.bucket, rfl⟩

theorem bucketsOnly.trans {s t u : State} (h : bucketsOnly s t) (h' : bucketsOnly t u) : bucketsOnly s u := by
  obtain ⟨_, _, _, rfl⟩ := h
  obtain ⟨cl, sl, b, rfl⟩ := h'
  exact ⟨cl, sl, b, rfl⟩

theorem bucketsOnly_setMeshBucket (s : State) (p : Nat) (f : Bucket → Bucket) : bucketsOnly s (setMeshBucket s p f) := by
  unfold setMeshBucket
  split
  · exact ⟨_, s.slices, s.cp.bucket, rfl⟩
  · split
    · exact ⟨s.clusters, _, s.cp.bucket, rfl⟩
    · split
      · exact ⟨s.clusters, s.slices, _, rfl⟩
      · exact .refl s

theorem bucketsOnly_setReinBucket (s : State) (p : Nat) (f : Bucket → Bucket) : bucketsOnly s (setReinBucket s p f) := by
  unfold setReinBucket
  split
  · exact ⟨_, s.slices, s.cp.bucket, rfl⟩
  · split
    · exact ⟨s.clusters, _, s.cp.bucket, rfl⟩
    · split
      · exact ⟨s.clusters, s.slices, _, rfl⟩
      · exact .refl s

theorem bucketsOnly_setBuckets (s : State) (p : Nat) (f : Bucket → Bucket) : bucketsOnly s (setBuckets s p f) := by
  unfold setBuckets
  split
  · exact bucketsOnly_setMeshBucket s p f
  · exact (bucketsOnly_setMeshBucket s p f).trans (bucketsOnly_setReinBucket _ p f)

theorem bucketsOnly_closeBuckets (s : State) (l : List DeclEnt) (f : Bucket → Bucket) : bucketsOnly s (closeBuckets s l f) := by
  unfold closeBuckets
  induction (l.map (·.src)).eraseDups generalizing s with
  | nil => exact .refl s
  | cons p ps ih => exact (bucketsOnly_setBuckets s p f).trans (ih _)

theorem State.notify_room {s : State} (n : Notice) (h : s.cp.notices.length < 256) :
    s.notify n = { s with cp := { s.cp with notices := s.cp.notices ++ [n] } } := if_pos h

/-- `t` is `s` after revocations, of which the notices `l` tell the host (R395). -/
def revokedWith (l : List Notice) (s t : State) : Prop :=
  ∃ cl sl b st, t = { s with clusters := cl, slices := sl, cp := { s.cp with bucket := b, streams := st, notices := s.cp.notices ++ l } }

theorem revokedWith.refl (s : State) : revokedWith [] s s := ⟨s.clusters, s.slices, s.cp.bucket, s.cp.streams, by simp⟩

theorem revokedWith.trans {l l' : List Notice} {s t u : State} (h : revokedWith l s t) (h' : revokedWith l' t u) :
    revokedWith (l ++ l') s u := by
  obtain ⟨_, _, _, _, rfl⟩ := h
  obtain ⟨cl, sl, b, st, rfl⟩ := h'
  exact ⟨cl, sl, b, st, by simp⟩

theorem revokedWith.notices {l : List Notice} {s t : State} (h : revokedWith l s t) : t.cp.notices = s.cp.notices ++ l := by
  obtain ⟨_, _, _, _, rfl⟩ := h; rfl

/-- The stream `x` loses its buckets and is marked, and the host is told. -/
theorem revokedWith_revoke {s : State} (x : Stream) (st : List Stream) {f : Bucket → Bucket} (n : Notice) (hr : s.cp.notices.length < 256) :
    let t := closeBuckets s x.ents f
    revokedWith [n] s (State.notify { t with cp := { t.cp with streams := st } } n) := by
  intro t
  obtain ⟨cl, sl, b, ht⟩ : bucketsOnly s t := bucketsOnly_closeBuckets s x.ents f
  rw [ht, State.notify_room n]
  · exact ⟨cl, sl, b, st, rfl⟩
  · exact hr

/-- Each stream is revoked once at most, and each revocation is told with status REVOKED, while the queue of notices has room. -/
theorem revokeGo_revokedWith (xs : List Stream) (h : Held0) (s : State) (hr : s.cp.notices.length + xs.length ≤ 256) :
    ∃ l, revokedWith l s (revokeGo xs h s) ∧ l.length ≤ xs.length ∧ ∀ n ∈ l, n.status = 3 := by
  induction xs generalizing h s with
  | nil => exact ⟨[], .refl s, Nat.le_refl _, List.forall_mem_nil _⟩
  | cons x xs ih =>
    rw [List.length_cons] at hr
    have skip : ∀ h, ∃ l, revokedWith l s (revokeGo xs h s) ∧ l.length ≤ (x :: xs).length ∧ ∀ n ∈ l, n.status = 3 := fun h => by
      obtain ⟨l, hl, hlen, hst⟩ := ih h s (by omega)
      exact ⟨l, hl, by rw [List.length_cons]; omega, hst⟩
    unfold revokeGo
    split
    · exact skip h
    · split
      · exact skip _
      · have hx := revokedWith_revoke (s := s) x ((closeBuckets s x.ents (fun b => { b with en := false })).cp.streams.map
          (fun y => if y.num = x.num then { y with revoked := true } else y)) (f := fun b => { b with en := false })
          { status := 3, result0 := BitVec.ofNat 64 x.num, result1 := BitVec.ofNat 64 x.seq } (by omega)
        obtain ⟨l, hl, hlen, hst⟩ := ih h _ (by rw [hx.notices, List.length_append, List.length_singleton]; omega)
        exact ⟨_ :: l, hx.trans hl, Nat.succ_le_succ hlen, List.forall_mem_cons.2 ⟨rfl, hst⟩⟩

/-! ## A notice by the injection port (R20, R21) -/

/-- A command processor that runs takes the one notice that stands at its port. -/
theorem portIntake_notice {s : State} {n : Notice} (hup : s.cpUp = true) (hi : s.cp.inj = [.notice n]) (hw : s.cp.injWait = [])
    (hr : s.cp.notices.length < 256) :
    s.portIntake = { s with cp := { s.cp with inj := [], injWait := [], notices := s.cp.notices ++ [n] } } := by
  unfold State.portIntake
  rw [if_neg (by simp [hup]), hi, hw]
  simp only [List.map_nil, List.append_nil, takeNotices, State.notify_room n hr, List.take_nil, List.drop_nil, List.filterMap_nil]

/-- With nothing before it at the port of a command processor that runs, a notice arrives at once. -/
theorem viaPort_portFree {s : State} (n : Notice) (h : portFree s = true) (hr : s.cp.notices.length < 256) :
    s.viaPort n = { s with cp := { s.cp with notices := s.cp.notices ++ [n] } } := by
  simp only [portFree, Bool.and_eq_true, List.isEmpty_iff] at h
  obtain ⟨⟨hup, hi⟩, hw⟩ := h
  have hcp : ({ s.cp with inj := [], injWait := [], notices := s.cp.notices ++ [n] } : CpSt) = { s.cp with notices := s.cp.notices ++ [n] } := by
    rw [← hi, ← hw]
  unfold State.viaPort
  rw [if_pos ⟨by rw [hi]; decide, hw⟩, portIntake_notice (s := { s with cp := { s.cp with inj := s.cp.inj ++ [.notice n] } })
    hup (by rw [hi]; rfl) hw hr]
  exact congrArg (fun c => { s with cp := c }) hcp

theorem portFree_revokedWith {l : List Notice} {s t : State} (h : revokedWith l s t) : portFree t = portFree s := by
  obtain ⟨_, _, _, _, rfl⟩ := h; rfl

theorem revokedWith.cores {l : List Notice} {s t : State} (h : revokedWith l s t) : t.cores = s.cores := by
  obtain ⟨_, _, _, _, rfl⟩ := h; rfl

/-! ## The third fault (R131) -/

/-- A core fenced for good with the cause of its third fault recorded. -/
def faultFenced (cause : Word) (x : CoreSt) : CoreSt :=
  { x with fenced := true, hardFence := true, resetCause := BitVec.ofNat 17 (65536 + cause.toNat % 65536) }

/-- A core after a third fault. -/
def thirdReset (cause : Word) (x : CoreSt) : CoreSt := faultFenced cause (cinchNorm (resetCore x))

/-- Of the cores, a reset and the fence after it change the one alone. -/
theorem resetFenced_cores (s : State) (c : Nat) (cause : Word) :
    ((s.resetCoreAt c).modCore c (faultFenced cause)).cores = (s.modCore c (thirdReset cause)).cores := by
  have h := congrArg State.cores (State.modCore_modCore s c (fun x => cinchNorm (resetCore x)) (faultFenced cause))
  exact h

theorem runM_thirdFault {s : State} (c : Nat) (cause : Word) (hp : portFree s = true)
    (hr : s.cp.notices.length + s.cp.streams.length < 256) :
    ∃ u l, runM (thirdFault c cause) s = (.ok (), u) ∧ u.cores = (s.modCore c (thirdReset cause)).cores ∧
      u.cp.notices = s.cp.notices ++ l ++ [⟨4, unitWord 0 c ||| 0x80000000, cause⟩] ∧ ∀ n ∈ l, n.status = 3 := by
  obtain ⟨l, hl, hlen, hst⟩ := revokeGo_revokedWith s.cp.streams {} ((s.resetCoreAt c).modCore c (faultFenced cause)) (Nat.le_of_lt hr)
  have hroom := hl.notices
  have htell := viaPort_portFree ⟨4, unitWord 0 c ||| 0x80000000, cause⟩ ((portFree_revokedWith hl).trans hp)
    (by rw [hroom, List.length_append]; exact Nat.lt_of_le_of_lt (Nat.add_le_add_left hlen _) hr)
  refine ⟨_, l, (runM_modify _ _).trans (congrArg _ htell), hl.cores.trans (resetFenced_cores s c cause), ?_, hst⟩
  exact congrArg (· ++ [_]) hroom

/-- A fault of a thread whose DF is 1 is a third fault. -/
theorem runM_takeFault_df {s : State} {t : Tid} (h : (s.thr t).df = true) (tr : Trap) (ret : Word) :
    runM (takeFault t tr ret) s = runM (thirdFault t.core.val (causeWord 0 t.thr.val tr tr.cause.code))
      (s.modThr t (fun x => { x with held := none, st := .run })) := by
  unfold takeFault
  simp only [runM_get_bind, runM_modify_bind, h, if_true]

theorem causeWord_firstEmpty (n : Fin 8) : causeWord 0 n.val firstEmpty firstEmpty.cause.code = BitVec.ofNat 64 (2048 + 256 * n.val + 2) := by
  unfold causeWord
  congr 1
  simp [firstEmpty, Cause.code]
  omega

/-- A core that a third fault resets in the issue of thread `n`. -/
def thirdFaulted (n : Nat) (cause : Word) (x : CoreSt) : CoreSt :=
  thirdReset cause (((x.atIssue n).modT n (fun y => { y with st := .run })).modT n (fun y => { y with held := none, st := .run }))

theorem thirdFaulted_fenced (n : Nat) (cause : Word) (x : CoreSt) : (thirdFaulted n cause x).fenced = true := rfl
theorem thirdFaulted_resetCause (n : Nat) (m : Fin 8) (x : CoreSt) :
    (thirdFaulted n (BitVec.ofNat 64 (2048 + 256 * m.val + 2)) x).resetCause = BitVec.ofNat 17 (65536 + 2048 + 256 * m.val + 2) := by
  show BitVec.ofNat 17 (65536 + (BitVec.ofNat 64 (2048 + 256 * m.val + 2)).toNat % 65536) = _
  rw [BitVec.toNat_ofNat]
  congr 1
  omega

theorem thirdFaulted_epoch (n : Nat) (cause : Word) (x : CoreSt) : (thirdFaulted n cause x).epoch = nextEpoch x.epoch := rfl
theorem thirdFaulted_dbg (n : Nat) (cause : Word) (x : CoreSt) : (thirdFaulted n cause x).dbg = x.dbg := rfl
theorem thirdFaulted_t (n : Nat) (cause : Word) (x : CoreSt) (m : Nat) : (thirdFaulted n cause x).t m = ThreadSt.reset m := rfl

theorem State.core_congr {s u : State} (h : u.cores = s.cores) (d : Nat) : u.core d = s.core d := by
  unfold State.core; rw [h]

/-- A command that finds its first operand EMPTY, of a thread whose DF is 1: the third fault's reset and notices. -/
theorem regOp2_thirdFault {s : State} {t : Tid} {rd ra rb : Reg} (op : Word → Word → Word) (h : ready s t = true)
    (hd : (s.thr t).df = true) (ha : (s.reg t ra.val).tag = .empty) (hr : s.cp.notices.length + s.cp.streams.length < 256)
    (hp : portFree s = true) : let cause := BitVec.ofNat 64 (2048 + 256 * t.thr.val + 2)
    ∃ u l, regOp2 t rd ra rb (intInt op) s = .next u ∧
      (∀ d, u.core d = (s.modCore t.core.val (thirdFaulted t.thr.val cause)).core d) ∧
      u.cp.notices = s.cp.notices ++ l ++ [⟨4, unitWord 0 t.core.val ||| 0x80000000, cause⟩] ∧ ∀ n ∈ l, n.status = 3 := by
  intro cause
  obtain ⟨-, -, hh, hs, -⟩ := ready_iff.1 h
  obtain ⟨u, l, hu, hcores, hn, hl⟩ := runM_thirdFault (s := (s.issued t).modThr t (fun x => { x with held := none, st := .run }))
    t.core.val cause hp hr
  have hcore : ∀ d, u.core d = (s.modCore t.core.val (thirdFaulted t.thr.val cause)).core d := fun d => by
    rw [State.core_congr hcores, issued_modCore, State.modThr_def, State.modCore_modCore, State.modCore_modCore]; rfl
  have hsame : u.core t.core.val = thirdFaulted t.thr.val cause (s.core t.core.val) := (hcore _).trans (State.core_modCore_same _ _ _)
  have htake : runM (takeFault t firstEmpty (s.thr t).pc) (s.issued t) = (.ok (), u) := by
    rw [runM_takeFault_df (by rw [issued_thr]; exact hd), causeWord_firstEmpty]; exact hu
  have hbody : runM (lift (intInt op ((s.thr t).reg ra.val) ((s.thr t).reg rb.val)) : M TWord) (s.issued t) = (.error (.trap firstEmpty), s.issued t) := by
    rw [intInt_first_empty (a := (s.thr t).reg ra.val) ha, runM_lift_error]
  refine ⟨_, l, issue_fault h rfl rfl ?_ htake (by unfold State.thr; rw [hsame, thirdFaulted_t]; rfl)
    (by rw [hsame, thirdFaulted_dbg]; exact hh) (by rw [hsame, thirdFaulted_dbg]; exact hs), ?_, hn, hl⟩
  · rw [runM_get_bind, issued_thr]
    exact runM_bind_error hbody
  · intro d
    rw [State.core_modCore, id]
    split
    · rename_i e; rw [e, hcore]
    · exact hcore d

/-- Settles O7: the operand's fault is taken as a third fault. -/
theorem thirdFaultResetsCore : Obligations.ThirdFaultResetsCore := by
  intro s t rd ra rb h hd ha hr hp f hf
  obtain ⟨op, hop⟩ := exec_intPairCmd f hf
  obtain ⟨u, l, hu, hcore, hn, hl⟩ := regOp2_thirdFault (rd := rd) (rb := rb) op h hd ha hr hp
  have hsame := (hcore t.core.val).trans (State.core_modCore_same _ _ _)
  refine ⟨u, (hop t rd ra rb s).trans hu, ?_, ?_, ?_, ?_, ⟨l, ?_, hl⟩, fun d hd' => (hcore d).trans (State.core_modCore_ne _ _ hd')⟩
  · rw [hsame, thirdFaulted_fenced]
  · rw [hsame, thirdFaulted_resetCause]
  · rw [hsame, thirdFaulted_epoch]
  · intro n _
    rw [hsame, thirdFaulted_t]
  · rw [hn, unitWord, Nat.zero_mul, Nat.zero_add]

/-! ## The end of a wait on a core whose deadlock was reported (R111, R132) -/

/-- A thread in ev.wait on line 4. -/
def waitingThread : ThreadSt := { st := .wait, held := some (.wait (.evWait ⟨5, 1⟩ 3 2)), regs := [(2, wInt 16)] }

/-- Thread 1 of core 5 waits for line 4, which is pending, and the core's deadlock was reported before the line came. -/
def reportedThenFired : State := { State.reset with cores := [(5, { thr := [(1, waitingThread)], evt := 16, deadlock := true })] }

/-- The mark of core 5's reported deadlock in a command's next state. -/
def marksDeadlock (o : Host.Outcome State Fault Refusal) : Bool :=
  match o with
  | .next u => (u.core 5).deadlock
  | _ => false

/-- The thread that goes on ends the deadlock, so its mark is cleared (R132). -/
theorem reportedThenFired_unmarked : marksDeadlock (exec (.blockingWaitComplete ⟨5, 1⟩) reportedThenFired) = false := by decide +kernel

/-- Refutes O16: the end of a wait leaves more than the statement lists. Where the core's deadlock had been reported before the line
fired, the thread that goes on ends it, and the core's DEADLOCK mark, which the statement keeps, is cleared. -/
theorem not_waitsAndDeadlock : ¬ Obligations.WaitsAndDeadlock := by
  rintro ⟨-, h⟩
  have hend := h reportedThenFired ⟨5, 1⟩ 3 2 16 (by decide +kernel) (by decide +kernel) (by decide) (by decide +kernel) (by decide +kernel)
    (by decide +kernel)
  have hmark := reportedThenFired_unmarked
  rw [hend] at hmark
  exact absurd hmark (by decide +kernel)

end Sys2Proof.Machine
end
